-- ==== Sys2Proof/Word.lean ====
section
/-! DEFINITION. The word types of the Nymwen instruction set (00_scope R1): bits are numbered from 0 at the
least significant end, a word is 32 bits and a doubleword 64 bits. -/

namespace Sys2Proof

/-- One byte. -/
abbrev Byte := BitVec 8
/-- A 32-bit word (R1). -/
abbrev Word := BitVec 32
/-- A 64-bit doubleword (R1). -/
abbrev DWord := BitVec 64

end Sys2Proof
end

