-- ==== Sys2Proof/Syntax.lean ====
section
/-! DEFINITION. The whole instruction set as data: one constructor of `Instr` for every row of
spec/opcode_table.json, the machine instructions of chapters 05 to 28 and the events of the part
(completions, arrivals, management commands, system events). Field names give the operand's register
class: `vX` vector, `sX` class 0x1 (s0-s63, x0-x3), `kX` mask, `aX` tile, `bX` barrier register. -/

namespace Sys2Proof

/-! ## Operand parts (05_encoding) -/

/-- Length code L of word 0 (Table 5.2): one, two, three or five words. -/
inductive Len where
  | w1 | w2 | w3 | w5
  deriving DecidableEq, Repr

/-- The parts every machine instruction carries (Table 5.1, Table 5.3): its length, its stall count ST,
its guard register G with the negate bit GN, and the index register XS that its indexed fields use. -/
structure Hdr where
  len : Len
  st : BitVec 3
  g : BitVec 4
  gn : Bool
  xs : BitVec 2
  deriving DecidableEq, Repr

/-- A register field: its number and its IX bit (R51, R53). -/
structure Reg where
  num : BitVec 8
  ix : Bool
  deriving DecidableEq, Repr

/-- The B operand of the vector classes (Table 5.13): vB, sB or word 2. -/
inductive BSrc where
  | vec (r : Reg)
  | scl (r : Reg)
  | imm (w : Word)
  deriving DecidableEq, Repr

/-- The B operand of the scalar class (Table 5.13): sB, word 2 sign-extended, or the 64-bit literal. -/
inductive SSrc where
  | reg (r : Reg)
  | imm (w : Word)
  | lit (x : DWord)
  deriving DecidableEq, Repr

/-- The source of SMOV in its longer forms (Table 9.5). -/
inductive SMovSrc where
  | src (b : SSrc)
  | special (n : BitVec 8)
  deriving DecidableEq, Repr

/-- The source of MOV (R124). -/
inductive MovSrc where
  | src (b : BSrc)
  | lit (x : DWord)
  | special (n : BitVec 8)
  deriving DecidableEq, Repr

/-- Element types (Table 5.6). -/
inductive ElemTy where
  | f32 | f16 | bf16 | e4m3 | e5m2 | e2m1 | s4 | z4 | s8 | z8 | s16 | z16 | s32 | z32 | s64 | z64 | rx3
  deriving DecidableEq, Repr

/-- Rounding codes (Table 5.7): `gctl` is code 000, the mode that GCTL.RND holds. -/
inductive RndCode where
  | gctl | rn | rz | rm | rp
  deriving DecidableEq, Repr

/-- Scope codes (Table 5.7). -/
inductive Scope where
  | grp | team | clus | pkg | sys
  deriving DecidableEq, Repr

/-- Order codes (Table 5.7). -/
inductive Order where
  | rlx | acq | rel | ar
  deriving DecidableEq, Repr

/-- Condition codes of SCMP and CMP (Table 9.7). -/
inductive CondCode where
  | eq | ne | lt | le | gt | ge | ltu | leu | gtu | geu
  deriving DecidableEq, Repr

/-- Conditions of FCMP (Table 10.2). -/
inductive FCond where
  | eq | ne | lt | le | gt | ge | un | or
  deriving DecidableEq, Repr

/-- The condition field of BRC (Table 9.2). -/
inductive BrCond where
  | lane (k : BitVec 4) (neg : Bool)
  | nz (s : BitVec 6)
  | z (s : BitVec 6)
  deriving DecidableEq, Repr

/-- Which half of the product SMUL delivers (Table 9.4). -/
inductive MulHalf where
  | lo | hi | hiu
  deriving DecidableEq, Repr

/-- SUB of class 0x4 (Table 5.13): the type, the rounding code and .FTZ. -/
structure FMod where
  ty : ElemTy
  rnd : RndCode
  ftz : Bool
  deriving DecidableEq, Repr

/-- KMOV's three directions (Table 10.4). -/
inductive KMovDir where
  | kk | ks | sk
  deriving DecidableEq, Repr

/-- VOTE modes (R149). -/
inductive VoteMode where
  | all | any | ballot
  deriving DecidableEq, Repr

/-- LANEK selectors (R147). -/
inductive LaneSel where
  | occ | vac | spl
  deriving DecidableEq, Repr

/-- SHFL modes (R151). -/
inductive ShflMode where
  | idx | up | down | xor
  deriving DecidableEq, Repr

/-- Reduction operations (Table 10.6). -/
inductive RedOp where
  | add | mins | maxs | minz | maxz | and | or | xor | fadd | fmin | fmax
  deriving DecidableEq, Repr

/-- Address modes of a memory operand (Table 14.2). -/
inductive AddrMode where
  | sv | s | v
  deriving DecidableEq, Repr

/-- A memory operand: the base sA, the index or address register vB, the mode, and the fields of the
memory extension word (Table 14.1). -/
structure Mem where
  sa : Reg
  vb : Reg
  mode : AddrMode
  disp : BitVec 20
  scope : Scope
  ixz : Bool
  sc : BitVec 2
  ord : Order
  deriving DecidableEq, Repr

/-- Atomic operations (Table 14.7). -/
inductive AtomOp where
  | add | min | max | and | or | xor | exch
  deriving DecidableEq, Repr

/-- Copy directions (R214). -/
inductive CopyDir where
  | gs | sg | gg | ss
  deriving DecidableEq, Repr

/-- The descriptor operand of TCOPY and TCOPYM (R216): sC or the literal. -/
inductive DescSrc where
  | reg (r : Reg)
  | lit (x : DWord)
  deriving DecidableEq, Repr

/-- The value of BINIT, BARV and BEXP (R211): sB, word 2, or the 6-bit immediate in SUB. -/
inductive BarVal where
  | reg (r : Reg)
  | imm (w : Word)
  | imm6 (w : BitVec 6)
  deriving DecidableEq, Repr

/-- The parity of BWAIT and BTEST (R212). -/
inductive ParVal where
  | reg (r : Reg)
  | imm (p : Bool)
  deriving DecidableEq, Repr

/-- The threshold of WAITN (R209). `word` is the MOD = 01 form, which raises ILLFORM. -/
inductive WaitThr where
  | reg (r : Reg)
  | imm (t : BitVec 6)
  | word
  deriving DecidableEq, Repr

/-- The condition of TRIG (R220): a counter or a barrier register. -/
inductive TrigCond where
  | ctr (n : BitVec 3)
  | bar (b : BitVec 4)
  deriving DecidableEq, Repr

/-- The threshold of TRIG (R220). -/
inductive TrigThr where
  | reg (r : Reg)
  | imm (w : Word)
  deriving DecidableEq, Repr

/-- Accumulator type code of the matrix instructions (R231). -/
inductive AccTy where
  | wide | f16 | bf16
  deriving DecidableEq, Repr

/-- MLUT modes (Table 16.5). -/
inductive LutMode where
  | b1 | b1pm | b2 | b2s
  deriving DecidableEq, Repr

/-- GATHER modes (Table 18.3). -/
inductive GMode where
  | plain | sum | max | wsum
  deriving DecidableEq, Repr

/-- SCATR operations (Table 18.3). -/
inductive SMode where
  | add | max | min
  deriving DecidableEq, Repr

/-- The slot count of a gather or scatter (R252): sN or an immediate. -/
inductive NSrc where
  | reg (r : Reg)
  | imm (n : BitVec 8)
  deriving DecidableEq, Repr

/-- Word 2 of the gather class (Table 18.2): status register, first weight register and fault mask. -/
structure GStat where
  vs : BitVec 8
  vw : BitVec 8
  km : BitVec 4
  deriving DecidableEq, Repr

/-- Span codes of XPND (R288): 1, 2 or 4 groups. -/
inductive Span where
  | one | two | four
  deriving DecidableEq, Repr

/-- The target of ENQ and ENQB (R299): sB or word 2 bits 5:0. -/
inductive EnqTgt where
  | reg (r : Reg)
  | imm (q : BitVec 6)
  deriving DecidableEq, Repr

/-- The peer of the remote instructions (R353): vA or sA. -/
inductive Peer where
  | vec (r : Reg)
  | scl (r : Reg)
  deriving DecidableEq, Repr

/-- RFLAG operations (Table 28.3). -/
inductive FlagOp where
  | set | add | or | maxu
  deriving DecidableEq, Repr

/-! ## What the events name -/

/-- One split of one group of one team. -/
structure SRef where
  team : Nat
  grp : Nat
  split : Nat
  deriving DecidableEq, Repr

/-- One operation of one group of one team. -/
structure ORef where
  team : Nat
  grp : Nat
  op : Nat
  deriving DecidableEq, Repr

/-- Cause codes (Table 26.1). -/
inductive Cause where
  | illop | illform | regbound | stallshort | converge | quartet | landing | misalign | page | prot
  | noncanon | range | memrace | dataerr | rnsovf | xbusy | fptrap | barmisuse | syscall | brk | netfault
  deriving DecidableEq, Repr

/-- A dirty-line FIFO: a core's (R165) or a die cache's (R166). -/
inductive FifoRef where
  | core (c : Nat)
  | die (d : Nat)
  deriving DecidableEq, Repr

/-- What PREEMPT and RESUME name (R368): a team or a launch. -/
inductive PreTgt where
  | team (t : Nat)
  | launch (l : Nat)
  deriving DecidableEq, Repr

/-- What INSTALL_KEY names (R368, R346): the idle slot of a link direction, or a session key. -/
inductive KeyTgt where
  | link (l : Nat)
  | session (n : Nat)
  deriving DecidableEq, Repr

/-- A message of the package network between packages (R353 to R357): a write carries its instruction, its lane and how many
lanes of the instruction write to the peer, since the highest lane's bytes remain (R355); a contribution carries its number
in the order in which its package sent its contributions (R357). A gather's, a scatter's or a CSIG's request has no payload
here (R261, R265, R363). -/
inductive RMsg where
  | write (ctx : Nat) (addr : DWord) (data : List Byte) (instr : ORef) (lane count : Nat)
  | read (ctx : Nat) (addr : DWord) (n : Nat)
  | flag (ctx : Nat) (addr : DWord) (op : FlagOp) (w64 : Bool) (operand : DWord)
  | red (ctx : Nat) (addr : DWord) (op : AtomOp) (ty : ElemTy) (ncon seq : Nat) (data : List Byte)
  | request
  deriving DecidableEq, Repr

/-- The pages of a translation fault: page, whether PROT, level (26 R324). -/
abbrev Pages := List (DWord × Bool × Nat)

/-- The answer of a remote end: the bytes read (or none for a write), or the cause of the refusal with the pages of a PAGE
or PROT and the detail of the fault (R359, 26 R324, R326). -/
inductive RAns where
  | done (data : List Byte)
  | refused (c : Cause) (pages : Pages) (detail : DWord)
  deriving DecidableEq, Repr

/-- Where an arriving message comes from: a packet of this package's own retransmit store whose peer is
this package (R355), or another package. -/
inductive Arrival where
  | own (pkt : Nat)
  | peer (src : Nat) (m : RMsg)
  deriving DecidableEq, Repr

/-- A gather request from another package (R263): for each bag its lane, and its rows' rank positions, addresses and
weights. -/
structure PeerGather where
  src : Nat
  ctx : Nat
  mode : GMode
  fmt : ElemTy
  rb : Nat
  bags : List (Nat × List (Nat × DWord × Word))
  deriving DecidableEq, Repr

/-- A gather request that reaches a home Marver die (R263): this package's own part of an operation, or
another package's. -/
inductive GatherReq where
  | own (o : ORef)
  | peer (g : PeerGather)
  deriving DecidableEq, Repr

/-- One piece of a gather reply from another package: the rank position it serves and its bytes or the
cause of its fault; for pooled modes the position is the lane and the bytes are the package partial, F32 or
integer words (R263). -/
structure GPiece where
  pos : Nat
  ans : RAns
  deriving DecidableEq, Repr

/-- A combined scatter update from another package (R265). -/
structure PeerScatter where
  src : Nat
  ctx : Nat
  fmt : ElemTy
  op : Option SMode
  addr : DWord
  rb : Nat
  vals : List Word
  deriving DecidableEq, Repr

/-- A scatter update that reaches a home lehr engine (R267): update `k` of one of this package's own
operations whose row is homed here, the answer of another package for such an update, or another
package's update. -/
inductive ScatUpd where
  | own (o : ORef) (k : Nat)
  | answer (o : ORef) (k : Nat) (c : Option Cause) (pages : Pages) (detail : DWord)
  | peer (u : PeerScatter)
  deriving DecidableEq, Repr

/-- A signature request (R363): of this package's own CSIG, or of another package. -/
inductive SigReq where
  | own (o : ORef)
  | peer (src : Nat) (ctx : Nat) (addr : DWord)
  deriving DecidableEq, Repr

/-- A flit of a die-to-die link (R345): its header in the clear, its encrypted payload and its tag. -/
structure Flit where
  seq : BitVec 48
  slot : Bool
  vc : Nat
  cipher : BitVec 1792
  tag : BitVec 128
  crcOk : Bool
  deriving DecidableEq, Repr

/-- The signed manifest (R373). -/
structure Manifest where
  pfMap : List Nat
  fwKeys : List Nat
  signKey : Nat
  eraseId : Bool
  gloryBytes : Nat
  sustained : Nat
  peak : Nat
  inletLimit : Nat
  deriving DecidableEq, Repr

/-- A signed image or manifest as it is offered to the package (R372, R373): its Ed448 signature. -/
structure Signed (α : Type) where
  body : α
  sig : BitVec 912
  deriving DecidableEq, Repr

/-- Power events (R376): the board's power-good signal drops, or the inlet temperature the cold plate reports. -/
inductive PowerEv where
  | powerGoodDrop
  | inlet (temp : Nat)
  deriving DecidableEq, Repr

/-- What raises the security alarm (R374). -/
inductive AlarmEv where
  | tamper | glitch | integrity
  deriving DecidableEq, Repr

/-! ## The instructions -/

/-- One constructor per row of spec/opcode_table.json, the machine instructions in the table's order, the events the
machine itself brings about after them, and last the commands and events that only arrive from outside. -/
inductive Instr where
  -- class 0x0: control (09 R96)
  | nop (h : Hdr)
  | bra (h : Hdr) (jo t : Word)
  | brc (h : Hdr) (c : BrCond) (jo t : Word)
  | brx (h : Hdr) (jo : Word) (va : BitVec 8)
  | call (h : Hdr) (sd : BitVec 8) (jo t : Word)
  | ret (h : Hdr) (sd : BitVec 8)
  | land (h : Hdr)
  | exit (h : Hdr)
  | refill (h : Hdr) (kd : BitVec 8)
  | refillWake (r : SRef)
  | yield (h : Hdr)
  | yieldEnd (r : SRef)
  | spinh (h : Hdr) (w : BitVec 6)
  | spinhExpiry (r : SRef)
  | syncs (h : Hdr)
  | syncsReturn (r : SRef)
  | halt (h : Hdr)
  | loop (h : Hdr) (c : BitVec 8) (t : Word)
  | splitDemotion (r : SRef)
  | demotionTimeout (r : SRef)
  -- class 0x1: scalar (09 R112)
  | smovImm6 (h : Hdr) (sd : BitVec 8) (i : BitVec 6)
  | smov (h : Hdr) (sd : Reg) (b : SMovSrc)
  | sadd (h : Hdr) (sd sa : Reg) (b : SSrc)
  | ssub (h : Hdr) (sd sa : Reg) (b : SSrc)
  | smul (h : Hdr) (m : MulHalf) (sd sa : Reg) (b : SSrc)
  | smad (h : Hdr) (sd sa sb sc : Reg)
  | sdiv (h : Hdr) (u rem : Bool) (sd sa : Reg) (b : SSrc)
  | sand (h : Hdr) (sd sa : Reg) (b : SSrc)
  | sor (h : Hdr) (sd sa : Reg) (b : SSrc)
  | sxor (h : Hdr) (sd sa : Reg) (b : SSrc)
  | sshl (h : Hdr) (sd sa : Reg) (b : SSrc)
  | sshr (h : Hdr) (sd sa : Reg) (b : SSrc)
  | ssar (h : Hdr) (sd sa : Reg) (b : SSrc)
  | scmp (h : Hdr) (cc : CondCode) (kd sa : Reg) (b : SSrc)
  | ssel (h : Hdr) (sd sa sb kc : Reg)
  | srdv (h : Hdr) (w64 : Bool) (sd va : Reg) (b : SSrc)
  | sldk (h : Hdr) (sd : Reg) (b : SSrc)
  -- class 0x2: vector integer (09 R121)
  | mov (h : Hdr) (t : ElemTy) (vd : Reg) (b : MovSrc)
  | add (h : Hdr) (t : ElemTy) (vd va : Reg) (b : BSrc)
  | sub (h : Hdr) (t : ElemTy) (vd va : Reg) (b : BSrc)
  | mul (h : Hdr) (wide : Bool) (t : ElemTy) (vd va : Reg) (b : BSrc)
  | mulh (h : Hdr) (t : ElemTy) (vd va : Reg) (b : BSrc)
  | mad (h : Hdr) (wide : Bool) (t : ElemTy) (vd va : Reg) (b : BSrc) (vc : Reg)
  | adc (h : Hdr) (t : ElemTy) (vd va : Reg) (b : BSrc) (kc : Reg)
  | sbb (h : Hdr) (t : ElemTy) (vd va : Reg) (b : BSrc) (kc : Reg)
  | min (h : Hdr) (t : ElemTy) (vd va : Reg) (b : BSrc)
  | max (h : Hdr) (t : ElemTy) (vd va : Reg) (b : BSrc)
  | abs (h : Hdr) (sat : Bool) (t : ElemTy) (vd : Reg) (b : BSrc)
  | neg (h : Hdr) (sat : Bool) (t : ElemTy) (vd : Reg) (b : BSrc)
  | addsat (h : Hdr) (t : ElemTy) (vd va : Reg) (b : BSrc)
  | subsat (h : Hdr) (t : ElemTy) (vd va : Reg) (b : BSrc)
  | lea (h : Hdr) (t : ElemTy) (vd va : Reg) (b : BSrc) (sh : BitVec 8)
  -- class 0x3: logic and bits (09 R125)
  | and (h : Hdr) (t : ElemTy) (vd va : Reg) (b : BSrc)
  | or (h : Hdr) (t : ElemTy) (vd va : Reg) (b : BSrc)
  | xor (h : Hdr) (t : ElemTy) (vd va : Reg) (b : BSrc)
  | not (h : Hdr) (t : ElemTy) (vd : Reg) (b : BSrc)
  | andn (h : Hdr) (t : ElemTy) (vd va : Reg) (b : BSrc)
  | shl (h : Hdr) (t : ElemTy) (vd va : Reg) (b : BSrc)
  | shr (h : Hdr) (t : ElemTy) (vd va : Reg) (b : BSrc)
  | sar (h : Hdr) (t : ElemTy) (vd va : Reg) (b : BSrc)
  | rot (h : Hdr) (t : ElemTy) (vd va : Reg) (b : BSrc)
  | popc (h : Hdr) (t : ElemTy) (vd : Reg) (b : BSrc)
  | clz (h : Hdr) (t : ElemTy) (vd : Reg) (b : BSrc)
  | bfe (h : Hdr) (t : ElemTy) (vd va : Reg) (b : BSrc)
  | bfi (h : Hdr) (t : ElemTy) (vd va : Reg) (b : BSrc) (vc : Reg)
  | sel (h : Hdr) (t : ElemTy) (vd va : Reg) (b : BSrc) (kc : Reg)
  | cmp (h : Hdr) (cc : CondCode) (land : Bool) (t : ElemTy) (kd va : Reg) (b : BSrc)
  | prmb (h : Hdr) (vd va : Reg) (b : BSrc) (vc : Reg)
  -- class 0x4: floating point (10 R131)
  | fadd (h : Hdr) (f : FMod) (vd va : Reg) (b : BSrc)
  | fsub (h : Hdr) (f : FMod) (vd va : Reg) (b : BSrc)
  | fmul (h : Hdr) (f : FMod) (vd va : Reg) (b : BSrc)
  | fma (h : Hdr) (f : FMod) (vd va : Reg) (b : BSrc) (vc : Reg)
  | fmin (h : Hdr) (f : FMod) (vd va : Reg) (b : BSrc)
  | fmax (h : Hdr) (f : FMod) (vd va : Reg) (b : BSrc)
  | fcmp (h : Hdr) (f : FMod) (cc : FCond) (kd va : Reg) (b : BSrc)
  | fcls (h : Hdr) (f : FMod) (set : BitVec 8) (kd : Reg) (b : BSrc)
  | frnd (h : Hdr) (f : FMod) (vd : Reg) (b : BSrc)
  | fscl (h : Hdr) (f : FMod) (vd va : Reg) (b : BSrc)
  | fdot2 (h : Hdr) (f : FMod) (vd va : Reg) (b : BSrc) (vc : Reg)
  | pfma (h : Hdr) (f : FMod) (vd va : Reg) (b : BSrc) (vc : Reg)
  | pfadd (h : Hdr) (f : FMod) (vd va : Reg) (b : BSrc)
  | pfmul (h : Hdr) (f : FMod) (vd va : Reg) (b : BSrc)
  -- class 0x5: conversion and special functions (10 R139)
  | cvt (h : Hdr) (td : ElemTy) (sat : Bool) (rnd : RndCode) (ts : ElemTy) (ftz : Bool) (vd : Reg) (b : BSrc)
  | cvtr (h : Hdr) (td : ElemTy) (sat : Bool) (vd va : Reg) (b : BSrc)
  | frcp (h : Hdr) (ftz : Bool) (vd : Reg) (b : BSrc)
  | frsq (h : Hdr) (ftz : Bool) (vd : Reg) (b : BSrc)
  | fex2 (h : Hdr) (ftz : Bool) (vd : Reg) (b : BSrc)
  | flg2 (h : Hdr) (ftz : Bool) (vd : Reg) (b : BSrc)
  | fsin (h : Hdr) (ftz : Bool) (vd : Reg) (b : BSrc)
  | fcos (h : Hdr) (ftz : Bool) (vd : Reg) (b : BSrc)
  | fdiv (h : Hdr) (f : FMod) (vd va : Reg) (b : BSrc)
  | fsqrt (h : Hdr) (f : FMod) (vd : Reg) (b : BSrc)
  | qscl (h : Hdr) (p2 : Bool) (t : ElemTy) (vd : Reg) (b : BSrc)
  | qpack (h : Hdr) (rnd : RndCode) (t : ElemTy) (vd va : Reg) (b : BSrc)
  | qunp (h : Hdr) (rnd : RndCode) (t : ElemTy) (vd va : Reg) (b : BSrc)
  | rnsenc (h : Hdr) (t : ElemTy) (vd : Reg) (b : BSrc)
  | rnsdec (h : Hdr) (vd : Reg) (b : BSrc)
  -- class 0x6: masks, flags and votes (10 R146)
  | kand (h : Hdr) (kd ka kb : Reg)
  | kor (h : Hdr) (kd ka kb : Reg)
  | kxor (h : Hdr) (kd ka kb : Reg)
  | knot (h : Hdr) (kd kb : Reg)
  | kmov (h : Hdr) (dir : KMovDir) (d b : Reg)
  | vote (h : Hdr) (m : VoteMode) (kd ka : Reg)
  | kpop (h : Hdr) (sd kb : Reg)
  | kfind (h : Hdr) (hi : Bool) (sd kb : Reg)
  | flgk (h : Hdr) (f : BitVec 6) (kd : Reg)
  | flgclr (h : Hdr) (set : BitVec 6)
  | flgrd (h : Hdr) (vd : Reg)
  | lanek (h : Hdr) (sel : LaneSel) (kd : Reg)
  -- class 0x7: cross-lane (10 R150)
  | shfl (h : Hdr) (m : ShflMode) (w64 : Bool) (vd va : Reg) (b : BSrc)
  | pushw (h : Hdr) (w64 : Bool) (vd va : Reg) (b : BSrc) (kc : Reg)
  | bcast (h : Hdr) (w64 : Bool) (vd va : Reg) (b : Option BSrc)
  | redu (h : Hdr) (toS : Bool) (op : RedOp) (w64 : Bool) (d va : Reg)
  | scan (h : Hdr) (excl : Bool) (op : RedOp) (w64 : Bool) (vd va : Reg)
  | confl (h : Hdr) (w64 : Bool) (vd va kc : Reg)
  | matchk (h : Hdr) (w64 : Bool) (vd va : Reg)
  | segscan (h : Hdr) (excl : Bool) (op : RedOp) (w64 : Bool) (vd va kc : Reg)
  | gsort (h : Hdr) (desc : Bool) (t : ElemTy) (vd va : Reg)
  -- class 0x8: memory (14 R194)
  | ld (h : Hdr) (sz : BitVec 3) (ma : Bool) (vd : Reg) (m : Mem)
  | st (h : Hdr) (sz : BitVec 3) (ma : Bool) (vd : Reg) (m : Mem)
  | lds (h : Hdr) (sz : BitVec 3) (ma : Bool) (vd : Reg) (m : Mem)
  | sts (h : Hdr) (sz : BitVec 3) (ma : Bool) (vd : Reg) (m : Mem)
  | ldk (h : Hdr) (sz : BitVec 3) (ma : Bool) (sd : Reg) (m : Mem)
  | stk (h : Hdr) (sz : BitVec 3) (ma : Bool) (sd : Reg) (m : Mem)
  | lookup (h : Hdr) (vd : Reg) (key : BSrc)
  | tagset (h : Hdr) (keyS : Bool) (key : Reg) (entry : BSrc)
  | taginv (h : Hdr) (entry : BSrc)
  | pref (h : Hdr) (l1 : Bool) (m : Mem)
  | lda (h : Hdr) (sz : BitVec 3) (vd : Reg) (m : Mem)
  | str (h : Hdr) (sz : BitVec 3) (vd : Reg) (m : Mem)
  | ldsb (h : Hdr) (n : BitVec 5) (vd : Reg) (m : Mem)
  -- class 0x9: atomics, fences, barriers (14 R203)
  | atom (h : Hdr) (op : AtomOp) (t : ElemTy) (vd : Reg) (m : Mem) (vc : Reg)
  | cas (h : Hdr) (w64 : Bool) (vd : Reg) (m : Mem) (vc : Reg)
  | atoms (h : Hdr) (op : AtomOp) (t : ElemTy) (vd : Reg) (m : Mem) (vc : Reg)
  | cass (h : Hdr) (w64 : Bool) (vd : Reg) (m : Mem) (vc : Reg)
  | red (h : Hdr) (op : AtomOp) (t : ElemTy) (m : Mem) (vc : Reg)
  | fence (h : Hdr) (o : Order) (sc : Scope)
  | acq (h : Hdr) (sc : Scope)
  | rel (h : Hdr) (sc : Scope)
  | fenceComplete (r : SRef)
  | releaseDrainComplete (f : FifoRef)
  | bar (h : Hdr)
  | barCounted (h : Hdr) (sa : Reg)
  | cbar (h : Hdr)
  | cbarCounted (h : Hdr) (sa : Reg)
  | barInstanceComplete (team : Nat) (cluster : Bool)
  -- class 0xA: copies, barrier registers, waits, triggers (14 R211)
  | cpa (h : Hdr) (bar : Option (BitVec 4)) (size : BitVec 2) (dir : CopyDir) (src dst : Reg) (ds dd : BitVec 16)
  | tcopy (h : Hdr) (bar : Option (BitVec 4)) (dir : CopyDir) (dscr : Bool) (src dst : Reg) (desc : DescSrc)
  | tcopym (h : Hdr) (bar : Option (BitVec 4)) (dscr : Bool) (src dst : Reg) (desc : DescSrc) (id : BitVec 4)
  | binit (h : Hdr) (b : BitVec 4) (v : BarVal)
  | barv (h : Hdr) (b : BitVec 4) (v : BarVal)
  | bexp (h : Hdr) (b : BitVec 4) (v : BarVal)
  | bwait (h : Hdr) (b : BitVec 4) (p : ParVal)
  | bwaitReturn (r : SRef)
  | btest (h : Hdr) (kd : Reg) (b : BitVec 4) (p : ParVal)
  | waitn (h : Hdr) (n : BitVec 8) (t : WaitThr)
  | waitnReturn (r : SRef)
  | trig (h : Hdr) (c : TrigCond) (t : TrigThr)
  | triggerFire (o : ORef)
  -- class 0xB: matrix (16 R223)
  | mma (h : Hdr) (async : Bool) (ta tb : ElemTy) (tc : AccTy) (ad va vb : Reg)
  | mmaq (h : Hdr) (async : Bool) (ta tb : ElemTy) (tc : AccTy) (ad va vb : Reg)
  | quartetRendezvous (team quartet : Nat)
  | mmv (h : Hdr) (tw tv : ElemTy) (tc : AccTy) (ad vx : Reg) (sw ss : BitVec 8) (nr : BitVec 7) (nv : BitVec 3)
  | mlutb (h : Hdr) (ad va : Reg)
  | mlut (h : Hdr) (m : LutMode) (async : Bool) (ad aa vb : Reg)
  | matrixOpStart (core bench : Nat)
  | rcvt (h : Hdr) (ad aa : Reg)
  | scacc (h : Hdr) (tp : ElemTy) (ad aa vb vc : Reg)
  | accz (h : Hdr) (ad : Reg)
  | accrd (h : Hdr) (n : BitVec 5) (vd aa : Reg) (c : BitVec 8)
  | accwr (h : Hdr) (n : BitVec 5) (ad vb : Reg) (c : BitVec 8)
  | accld (h : Hdr) (ad sa : Reg)
  | accst (h : Hdr) (ad sa : Reg)
  | accstat (h : Hdr) (clr : Bool) (sd aa : Reg)
  -- class 0xC: gather, scatter, key lookup (18, 20)
  | gather (h : Hdr) (m : GMode) (trap f32 : Bool) (sd sh : BitVec 8) (vi : Reg) (n : NSrc) (stat : Option GStat)
  | scatr (h : Hdr) (m : SMode) (trap f32 : Bool) (sd sh : BitVec 8) (vi : Reg) (n : NSrc) (stat : Option GStat)
  | scatw (h : Hdr) (trap f32 : Bool) (sd sh : BitVec 8) (vi : Reg) (n : NSrc) (stat : Option GStat)
  | gstat (h : Hdr) (clr : Bool) (sd : Reg)
  | klook (h : Hdr) (trap f32 : Bool) (sd sq sh sk : BitVec 8) (stat : Option GStat)
  | klookSelectionEnd (r : SRef)
  | kgrad (h : Hdr) (trap : Bool) (sg sh sk : BitVec 8) (stat : Option GStat)
  | hdesc (h : Hdr) (f : BitVec 6) (sd sh sb : Reg)
  | gatherRequestArrival (q : GatherReq)
  | scatterUpdateArrival (u : ScatUpd)
  -- class 0xD: expansion and work queues (22)
  | xpnd (h : Hdr) (sp : Span) (vs vl : Reg)
  | spanRendezvous (team grp : Nat)
  | xnext (h : Hdr) (item : Bool) (vd : Reg) (kc sb : BitVec 8)
  | xstat (h : Hdr) (f : BitVec 6) (sd : Reg)
  | segred (h : Hdr) (op : RedOp) (vd va : Reg)
  | xabort (h : Hdr)
  | enq (h : Hdr) (close : Bool) (vd va : Reg) (q : EnqTgt)
  | enqb (h : Hdr) (vd va : Reg) (vc : Reg) (b : EnqTgt)
  | queueAppend (o : ORef)
  | qstat (h : Hdr) (f : BitVec 6) (sd sb : Reg)
  | queueClose (q : Nat)
  -- class 0xE: remote (28)
  | rwr (h : Hdr) (z : BitVec 4) (peer : Peer) (vb vc : Reg) (bar : Option (BitVec 4))
  | rrd (h : Hdr) (z : BitVec 4) (peer : Peer) (vb vc : Reg) (bar : Option (BitVec 4))
  | rred (h : Hdr) (op : AtomOp) (t : ElemTy) (z : BitVec 4) (ncon : BitVec 12) (peer : Peer) (vb vc : Reg)
      (bar : Option (BitVec 4))
  | rflag (h : Hdr) (op : FlagOp) (w64 : Bool) (peer : Peer) (vb vc : Reg) (bar : Option (BitVec 4))
  | csig (h : Hdr) (f : BitVec 6) (sd sp sr : Reg)
  | rfence (h : Hdr)
  | rfenceComplete (r : SRef)
  -- class 0xF: system (26 R328)
  | csrr (h : Hdr) (n : BitVec 6) (sd : Reg)
  | csrw (h : Hdr) (n : BitVec 6) (sa : Reg)
  | trap (h : Hdr) (c : BitVec 6)
  | brk (h : Hdr) (c : BitVec 6)
  | cyc (h : Hdr) (sd : BitVec 8)
  -- completions
  | resultLanding (team grp idx : Nat)
  | memoryAccessCompletion (o : ORef)
  | copyCompletion (o : ORef)
  | matrixAsyncCompletion (o : ORef)
  | gatherCompletion (o : ORef)
  | scatrSourceRead (o : ORef)
  | scatterCompletion (o : ORef)
  | klookGatherCompletion (o : ORef)
  | remoteLocalCompletion (o : ORef)
  | rrdCompletion (o : ORef) (peers : List (Nat × RAns))
  | csigCompletion (o : ORef) (peer : Option RAns)
  -- launches and scheduling (24)
  | teamStart (launch : Nat) (cores : List Nat)
  | blockDraw (team : Nat)
  | blockComplete (launch block : Nat)
  | staggerExpiry (launch island : Nat)
  | priorityPreemption (launch : Nat)
  | partitionReserve (core : Nat)
  | launchCompletion (launch : Nat)
  | graphNodeArrival (queue : Nat)
  | preemptionNoticeEnd (team : Nat)
  | teamResume (team : Nat) (cores : List Nat)
  | invalidationComplete (id : Nat)
  -- fabric (28)
  | ackReceive (pkt : Nat) (ans : RAns)
  | retransmitCapture (o : ORef)
  | remoteWriteArrival (a : Arrival)
  | remoteReadArrival (a : Arrival)
  | remoteFlagArrival (a : Arrival)
  | reductionContribution (a : Arrival)
  -- system (30)
  | gafferGrant
  | bringUp
  | reservedOpcode (w0 : Word)
  | gatherReplyArrival (o : ORef) (pkg : Nat) (pieces : List GPiece)
  | hdescCompletion (o : ORef)
  | qstatCompletion (o : ORef)
  | csigRequestArrival (q : SigReq)
  | scrub (word : Nat)
  -- management commands (30 R368)
  | placeGraph (queue ctx : Nat) (addr : DWord) (n : Nat)
  | resolveResolved (launch : Nat) (seq : Nat)
  | resolveKill (launch : Nat) (seq : Nat)
  | resolveEnd (launch : Nat) (seq : Nat)
  | release (launch : Nat) (seq : Nat)
  | preempt (t : PreTgt)
  | resume (t : PreTgt)
  | invalidate (ctx : Nat) (lo hi : DWord)
  | setPaths (peer : Nat) (tiers : List (Nat × List Nat))
  | setPkg (n : Nat)
  | installKey (t : KeyTgt) (key : BitVec 256)
  -- links and paths (28)
  | flitSend (link : Nat)
  | flitReceive (link : Nat) (f : Flit)
  | linkKeyExhausted (link : Nat)
  | oldKeyErase (link : Nat)
  | channelSpill (link vc : Nat)
  | channelReinject (link vc : Nat)
  | retransmitTimeout (pkt : Nat)
  | pathTimeout (peer path : Nat)
  | probeSuccess (peer path : Nat)
  | peerUnreachable (peer : Nat)
  -- system (30)
  | powerEvent (e : PowerEv)
  | securityAlarm (e : AlarmEv)
  | functionLevelReset (pf : Nat)
  | packageReset
  | firmwareUpdate (img : Signed (List Byte))
  | manifestReplace (m : Signed Manifest)
  | spdmRequest (req : List Byte)
  | getTdispVersion (tdi : Nat)
  | getTdispCapabilities (tdi : Nat)
  | lockInterfaceRequest (tdi : Nat)
  | getDeviceInterfaceReport (tdi : Nat)
  | getDeviceInterfaceState (tdi : Nat)
  | startInterfaceRequest (tdi : Nat)
  | stopInterfaceRequest (tdi : Nat)
  | tdiConfigChange (tdi : Nat)
  | vfFunctionLevelReset (vf : Nat)
  deriving DecidableEq, Repr

end Sys2Proof
end

