-- ==== Sys2Proof/Machine/Codes.lean ====
section
/-! DEFINITION. The field codes of the encoding (05_encoding Tables 5.2, 5.6, 5.7, 9.7, 10.2, 10.6, 14.7, 16.4):
each enumeration of Syntax with the number the encoding gives it, and the reading of a number back. -/

namespace Sys2Proof

/-- Length code (Table 5.2). -/
def Len.code : Len → BitVec 2
  | .w1 => 0 | .w2 => 1 | .w3 => 2 | .w5 => 3

/-- Reading a length code (Table 5.2). -/
def Len.ofCode (c : BitVec 2) : Len :=
  if c = 0 then .w1 else if c = 1 then .w2 else if c = 2 then .w3 else .w5

/-- Number of words (Table 5.2). -/
def Len.words : Len → Nat
  | .w1 => 1 | .w2 => 2 | .w3 => 3 | .w5 => 5

/-- Element type code (Table 5.6). -/
def ElemTy.code : ElemTy → BitVec 5
  | .f32 => 0x00 | .f16 => 0x01 | .bf16 => 0x02 | .e4m3 => 0x03 | .e5m2 => 0x04 | .e2m1 => 0x05
  | .s4 => 0x06 | .z4 => 0x07 | .s8 => 0x08 | .z8 => 0x09 | .s16 => 0x0A | .z16 => 0x0B
  | .s32 => 0x0C | .z32 => 0x0D | .s64 => 0x0E | .z64 => 0x0F | .rx3 => 0x10

/-- Reading an element type code; 0x11 to 0x1F are reserved (Table 5.6). -/
def ElemTy.fromNat : Nat → Option ElemTy
  | 0x00 => some .f32 | 0x01 => some .f16 | 0x02 => some .bf16 | 0x03 => some .e4m3
  | 0x04 => some .e5m2 | 0x05 => some .e2m1 | 0x06 => some .s4 | 0x07 => some .z4
  | 0x08 => some .s8 | 0x09 => some .z8 | 0x0A => some .s16 | 0x0B => some .z16
  | 0x0C => some .s32 | 0x0D => some .z32 | 0x0E => some .s64 | 0x0F => some .z64
  | 0x10 => some .rx3 | _ => none

/-- Width in bits of an element (07 R71 to R73). -/
def ElemTy.bits : ElemTy → Nat
  | .f32 | .s32 | .z32 | .rx3 => 32
  | .f16 | .bf16 | .s16 | .z16 => 16
  | .e4m3 | .e5m2 | .s8 | .z8 => 8
  | .e2m1 | .s4 | .z4 => 4
  | .s64 | .z64 => 64

/-- S types are sign-extended (R120). -/
def ElemTy.signed : ElemTy → Bool
  | .s4 | .s8 | .s16 | .s32 | .s64 => true
  | _ => false

/-- The floating-point formats of Table 7.1. -/
def ElemTy.isFloat : ElemTy → Bool
  | .f32 | .f16 | .bf16 | .e4m3 | .e5m2 | .e2m1 => true
  | _ => false

/-- The 64-bit types, whose operands are pairs (R120). -/
def ElemTy.is64 : ElemTy → Bool
  | .s64 | .z64 => true
  | _ => false

/-- Registers an operand of the type occupies. -/
def ElemTy.regs (t : ElemTy) : Nat := if t.is64 then 2 else 1

/-- Set N of Table 9.8. -/
def ElemTy.inN : ElemTy → Bool
  | .s16 | .z16 | .s32 | .z32 | .s64 | .z64 => true
  | _ => false
/-- Set P of Table 9.8. -/
def ElemTy.inP : ElemTy → Bool
  | .s8 | .z8 | .s4 | .z4 => true
  | _ => false
/-- Set W of Table 9.8. -/
def ElemTy.inW : ElemTy → Bool
  | .s32 | .z32 | .s64 | .z64 => true
  | _ => false
/-- Set S of Table 9.8. -/
def ElemTy.inS : ElemTy → Bool
  | .s4 | .s8 | .s16 | .s32 | .s64 => true
  | _ => false
/-- F32, F16 and BF16. -/
def ElemTy.inF : ElemTy → Bool
  | .f32 | .f16 | .bf16 => true
  | _ => false
/-- The quantization targets of QSCL, QPACK and QUNP (Table 10.3). -/
def ElemTy.inQ : ElemTy → Bool
  | .e4m3 | .e5m2 | .e2m1 | .s8 | .z8 | .s4 | .z4 => true
  | _ => false

/-- Rounding code (Table 5.7). -/
def RndCode.code : RndCode → BitVec 3
  | .gctl => 0 | .rn => 1 | .rz => 2 | .rm => 3 | .rp => 4

/-- Reading a rounding code. -/
def RndCode.fromNat : Nat → Option RndCode
  | 0 => some .gctl | 1 => some .rn | 2 => some .rz | 3 => some .rm | 4 => some .rp | _ => none

/-- Scope code (Table 5.7). -/
def Scope.code : Scope → BitVec 3
  | .grp => 0 | .team => 1 | .clus => 2 | .pkg => 3 | .sys => 4

/-- Reading a scope code. -/
def Scope.fromNat : Nat → Option Scope
  | 0 => some .grp | 1 => some .team | 2 => some .clus | 3 => some .pkg | 4 => some .sys | _ => none

/-- Order code (Table 5.7). -/
def Order.code : Order → BitVec 2
  | .rlx => 0 | .acq => 1 | .rel => 2 | .ar => 3

/-- Reading an order code. -/
def Order.fromNat : Nat → Option Order
  | 0 => some .rlx | 1 => some .acq | 2 => some .rel | 3 => some .ar | _ => none

/-- Condition code (Table 9.7). -/
def CondCode.code : CondCode → BitVec 4
  | .eq => 0 | .ne => 1 | .lt => 2 | .le => 3 | .gt => 4 | .ge => 5 | .ltu => 6 | .leu => 7 | .gtu => 8 | .geu => 9

/-- Reading a condition code. -/
def CondCode.fromNat : Nat → Option CondCode
  | 0 => some .eq | 1 => some .ne | 2 => some .lt | 3 => some .le | 4 => some .gt | 5 => some .ge
  | 6 => some .ltu | 7 => some .leu | 8 => some .gtu | 9 => some .geu | _ => none

/-- FCMP condition (Table 10.2). -/
def FCond.code : FCond → BitVec 8
  | .eq => 0 | .ne => 1 | .lt => 2 | .le => 3 | .gt => 4 | .ge => 5 | .un => 6 | .or => 7

/-- Reading an FCMP condition. -/
def FCond.fromNat : Nat → Option FCond
  | 0 => some .eq | 1 => some .ne | 2 => some .lt | 3 => some .le | 4 => some .gt | 5 => some .ge
  | 6 => some .un | 7 => some .or | _ => none

/-- Reduction operation code (Table 10.6). -/
def RedOp.code : RedOp → BitVec 4
  | .add => 0 | .mins => 1 | .maxs => 2 | .minz => 3 | .maxz => 4 | .and => 5 | .or => 6 | .xor => 7
  | .fadd => 8 | .fmin => 9 | .fmax => 10

/-- Reading a reduction operation code. -/
def RedOp.fromNat : Nat → Option RedOp
  | 0 => some .add | 1 => some .mins | 2 => some .maxs | 3 => some .minz | 4 => some .maxz | 5 => some .and
  | 6 => some .or | 7 => some .xor | 8 => some .fadd | 9 => some .fmin | 10 => some .fmax | _ => none

/-- The F32 operations, which have no 64-bit form (Table 10.6). -/
def RedOp.isF : RedOp → Bool
  | .fadd | .fmin | .fmax => true
  | _ => false

/-- Atomic operation code (Table 14.7). -/
def AtomOp.code : AtomOp → BitVec 3
  | .add => 0 | .min => 1 | .max => 2 | .and => 3 | .or => 4 | .xor => 5 | .exch => 6

/-- Reading an atomic operation code. -/
def AtomOp.fromNat : Nat → Option AtomOp
  | 0 => some .add | 1 => some .min | 2 => some .max | 3 => some .and | 4 => some .or | 5 => some .xor
  | 6 => some .exch | _ => none

/-- Atomic type code (Table 14.7). Types without a code read as 0; `atomTyOk` keeps them out. -/
def ElemTy.atomCode : ElemTy → BitVec 3
  | .s32 => 0 | .z32 => 1 | .s64 => 2 | .z64 => 3 | .f32 => 4 | .f16 => 5 | .bf16 => 6 | .rx3 => 7 | _ => 0

/-- Reading an atomic type code. -/
def ElemTy.ofAtomCode : Nat → ElemTy
  | 0 => .s32 | 1 => .z32 | 2 => .s64 | 3 => .z64 | 4 => .f32 | 5 => .f16 | 6 => .bf16 | _ => .rx3

/-- The operations that Table 14.7 admits for a type; `rx` says whether RX3 is admitted. -/
def atomTyOk (op : AtomOp) (t : ElemTy) (rx : Bool) : Bool :=
  match t with
  | .s32 | .z32 | .s64 | .z64 => true
  | .f32 | .f16 | .bf16 => op == .add
  | .rx3 => rx && op == .add
  | _ => false

/-- Address mode (Table 14.2). -/
def AddrMode.code : AddrMode → BitVec 2
  | .sv => 0 | .s => 1 | .v => 2

/-- Copy direction (R214). -/
def CopyDir.code : CopyDir → BitVec 2
  | .gs => 0 | .sg => 1 | .gg => 2 | .ss => 3

/-- Reading a copy direction. -/
def CopyDir.ofCode (c : BitVec 2) : CopyDir :=
  if c = 0 then .gs else if c = 1 then .sg else if c = 2 then .gg else .ss

/-- Accumulator type code (R231). -/
def AccTy.code : AccTy → BitVec 2
  | .wide => 0 | .f16 => 1 | .bf16 => 2

/-- Reading an accumulator type code. -/
def AccTy.fromNat : Nat → Option AccTy
  | 0 => some .wide | 1 => some .f16 | 2 => some .bf16 | _ => none

/-- Float type code of class 0x4 (Table 5.13). -/
def ElemTy.fcode : ElemTy → BitVec 2
  | .f16 => 1 | .bf16 => 2 | _ => 0

/-- Reading a float type code of class 0x4. -/
def ElemTy.ofFcode : Nat → Option ElemTy
  | 0 => some .f32 | 1 => some .f16 | 2 => some .bf16 | _ => none

/-- SUB of class 0x4 (Table 5.13). -/
def FMod.code (f : FMod) : BitVec 6 := BitVec.ofBool f.ftz ++ f.rnd.code ++ f.ty.fcode

/-- Table-lookup mode (Table 16.5). -/
def LutMode.code : LutMode → BitVec 2
  | .b1 => 0 | .b1pm => 1 | .b2 => 2 | .b2s => 3

/-- Reading a table-lookup mode. -/
def LutMode.ofCode (c : BitVec 2) : LutMode :=
  if c = 0 then .b1 else if c = 1 then .b1pm else if c = 2 then .b2 else .b2s

/-- GATHER mode (Table 18.3). -/
def GMode.code : GMode → BitVec 2
  | .plain => 0 | .sum => 1 | .max => 2 | .wsum => 3

/-- Reading a GATHER mode. -/
def GMode.ofCode (c : BitVec 2) : GMode :=
  if c = 0 then .plain else if c = 1 then .sum else if c = 2 then .max else .wsum

/-- SCATR operation (Table 18.3). -/
def SMode.code : SMode → BitVec 2
  | .add => 0 | .max => 1 | .min => 2

/-- Reading a SCATR operation. -/
def SMode.fromNat : Nat → Option SMode
  | 0 => some .add | 1 => some .max | 2 => some .min | _ => none

/-- RFLAG operation (Table 28.3). -/
def FlagOp.code : FlagOp → BitVec 2
  | .set => 0 | .add => 1 | .or => 2 | .maxu => 3

/-- Reading an RFLAG operation. -/
def FlagOp.ofCode (c : BitVec 2) : FlagOp :=
  if c = 0 then .set else if c = 1 then .add else if c = 2 then .or else .maxu

/-- SHFL mode (Table 10.5). -/
def ShflMode.code : ShflMode → BitVec 2
  | .idx => 0 | .up => 1 | .down => 2 | .xor => 3

/-- Reading a SHFL mode. -/
def ShflMode.ofCode (c : BitVec 2) : ShflMode :=
  if c = 0 then .idx else if c = 1 then .up else if c = 2 then .down else .xor

/-- Span code (R288). -/
def Span.code : Span → BitVec 2
  | .one => 0 | .two => 1 | .four => 2

/-- Number of groups of a span (R285). -/
def Span.size : Span → Nat
  | .one => 1 | .two => 2 | .four => 4

/-- Cause codes (Table 26.1). -/
def Cause.code : Cause → Nat
  | .illop => 0x01 | .illform => 0x02 | .regbound => 0x03 | .stallshort => 0x04 | .converge => 0x05
  | .quartet => 0x06 | .landing => 0x07 | .misalign => 0x08 | .page => 0x09 | .prot => 0x0A
  | .noncanon => 0x0B | .range => 0x0C | .memrace => 0x0D | .dataerr => 0x0E | .rnsovf => 0x0F
  | .xbusy => 0x10 | .fptrap => 0x11 | .barmisuse => 0x12 | .syscall => 0x14 | .brk => 0x15
  | .netfault => 0x17

/-- The never guard (R49 step 5). -/
def Hdr.never (h : Hdr) : Bool := h.g == 0 && h.gn

/-- Origin level of a cause, 0 item to 4 grid (Table 3.4). -/
def Cause.level : Cause → Nat
  | .landing | .misalign | .noncanon | .range | .memrace | .dataerr | .fptrap | .page | .prot | .netfault => 0
  | .illop | .illform | .regbound | .stallshort | .converge | .rnsovf | .xbusy => 1
  | .quartet | .barmisuse => 2
  | .syscall | .brk => 0

/-- The causes whose records list pages (26 R324). -/
def Cause.isPage : Cause → Bool
  | .page | .prot => true
  | _ => false

/-- Causes that RETRY may hold (Table 3.4). -/
def Cause.retryable : Cause → Bool
  | .page | .prot | .netfault => true
  | _ => false

end Sys2Proof
end

