-- ==== Sys2Proof/Machine/Operands.lean ====
section
/-! DEFINITION. Operand forms: the register operands of every instruction with their class, count and alignment
(R51 to R53), the kind and result timing of every OP slot (Table 5.12), and the static checks of steps 2, 3 and 4
of Table 5.5 (`lenOk`, `opOk`, `formOk`). -/

namespace Sys2Proof

/-- Register classes of an operand field: vector, class 0x1 numbering 0 to 67 (R51), scalar 0 to 63, mask, tile. -/
inductive RCls where
  | v | s | s63 | k | a
  deriving DecidableEq, Repr

/-- One register operand: its class, field, number of consecutive registers, base alignment, and whether the
instruction reads and writes it. -/
structure Opnd where
  cls : RCls
  reg : Reg
  cnt : Nat
  al : Nat
  rd : Bool
  wr : Bool
  deriving DecidableEq, Repr

/-- The register field 0 without index. -/
def Reg.zero : Reg := ⟨0, false⟩
/-- An un-indexed register field. -/
def Reg.plain (n : BitVec 8) : Reg := ⟨n, false⟩
/-- An un-indexed mask field of four bits. -/
def Reg.ofK (n : BitVec 4) : Reg := ⟨n.setWidth 8, false⟩

/-- A source operand of n registers. -/
def Opnd.src (c : RCls) (r : Reg) (n : Nat := 1) (al : Nat := 1) : Opnd := ⟨c, r, n, al, true, false⟩
/-- A destination operand of n registers. -/
def Opnd.dst (c : RCls) (r : Reg) (n : Nat := 1) (al : Nat := 1) : Opnd := ⟨c, r, n, al, false, true⟩
/-- An operand read and written. -/
def Opnd.both (c : RCls) (r : Reg) (n : Nat := 1) (al : Nat := 1) : Opnd := ⟨c, r, n, al, true, true⟩

/-- The registers of a vector-class B operand of w registers (R120). -/
def BSrc.opnds (b : BSrc) (w : Nat) : List Opnd :=
  match b with
  | .vec r => [.src .v r w w]
  | .scl r => [.src .s r]
  | .imm _ => []

/-- The registers of a scalar-class B operand. -/
def SSrc.opnds : SSrc → List Opnd
  | .reg r => [.src .s r]
  | _ => []

/-- Registers of a data operand of a size code (Table 14.3): count and alignment. -/
def szRegs (sz : BitVec 3) : Nat := if sz = 6 then 4 else if sz = 5 then 2 else 1

/-- Bytes of a size code (Table 14.3). -/
def szBytes (sz : BitVec 3) : Nat :=
  if sz = 0 ∨ sz = 1 then 1 else if sz = 2 ∨ sz = 3 then 2 else if sz = 4 ∨ sz = 7 then 4
  else if sz = 5 then 8 else 16

/-- The registers of a memory operand; `glob` says the global side, where an address register is a pair (R192). -/
def Mem.opnds (m : Mem) (glob : Bool) : List Opnd :=
  match m.mode with
  | .sv => [.src .s63 m.sa, .src .v m.vb]
  | .s => [.src .s63 m.sa]
  | .v => if glob then [.src .v m.vb 2 2] else [.src .v m.vb]

/-- Registers of an address operand of CPA: a pair on its global side (R214). -/
def CopyDir.srcRegs : CopyDir → Nat
  | .gs | .gg => 2
  | _ => 1
/-- As `srcRegs`, for the destination. -/
def CopyDir.dstRegs : CopyDir → Nat
  | .sg | .gg => 2
  | _ => 1

/-- Registers of a matrix operand: 12 for a 4-bit type, 24 otherwise (R224). -/
def matRegs (t : ElemTy) : Nat := if t.bits = 4 then 12 else 24

/-- Elements per register packed in QPACK and QUNP: 8 for a 4-bit type, 4 otherwise (R144). -/
def qCount (t : ElemTy) : Nat := if t.bits = 4 then 8 else 4

/-- The vector and mask operands of GATHER, SCATR and SCATW for a slot count n (R255). -/
def gatherVecs (vi : Reg) (n : Nat) (stat : Option GStat) (ws : Bool) : List Opnd :=
  .src .v vi n 1 ::
  match stat with
  | none => []
  | some g => [.dst .v (.plain g.vs), .dst .k (.ofK g.km)] ++ (if ws then [.src .v (.plain g.vw) n 1] else [])

/-- The scalar operands of GATHER, SCATR and SCATW (R255 step 1). -/
def gatherScalars (sd sh : BitVec 8) (n : NSrc) : List Opnd :=
  [.src .s63 (.plain sd), .src .s63 (.plain sh)] ++
  match n with
  | .reg r => [.src .s63 r]
  | .imm _ => []

/-- The operands of GATHER, SCATR and SCATW that step 7 checks first: the scalars, and with an immediate n the vectors too
(R255). -/
def gatherOpnds (sd sh : BitVec 8) (vi : Reg) (n : NSrc) (stat : Option GStat) (ws : Bool) : List Opnd :=
  gatherScalars sd sh n ++
  match n with
  | .reg _ => []
  | .imm k => gatherVecs vi k.toNat stat ws

/-- Status operands of KLOOK and KGRAD: vS, vS + 1 and kM (R275). -/
def keyStat : Option GStat → List Opnd
  | none => []
  | some g => [.dst .v (.plain g.vs) 2 1, .dst .k (.ofK g.km)]

/-- The peer operand of the remote instructions (R353). -/
def Peer.opnds : Peer → List Opnd
  | .vec r => [.src .v r]
  | .scl r => [.src .s63 r]

/-- The register operands of an instruction (Tables 9.1 to 28.3). Events have none. -/
def Instr.opnds : Instr → List Opnd
  | .brc _ c _ _ => match c with
      | .lane k _ => [.src .k (.ofK k)]
      | .nz s | .z s => [.src .s63 (.plain (s.setWidth 8))]
  | .brx _ _ va => [.src .v (.plain va) 2 2]
  | .call _ sd _ _ => [.dst .s63 (.plain sd)]
  | .ret _ sd => [.src .s63 (.plain sd)]
  | .refill _ kd => [.dst .k (.plain kd)]
  | .loop _ c _ => [.both .s (.plain c)]
  | .smovImm6 _ sd _ => [.dst .s (.plain sd)]
  | .smov _ sd b => .dst .s sd :: match b with
      | .src b => b.opnds
      | .special _ => []
  | .sadd _ sd sa b | .ssub _ sd sa b | .smul _ _ sd sa b | .sdiv _ _ _ sd sa b | .sand _ sd sa b
  | .sor _ sd sa b | .sxor _ sd sa b | .sshl _ sd sa b | .sshr _ sd sa b | .ssar _ sd sa b =>
      .dst .s sd :: .src .s sa :: b.opnds
  | .smad _ sd sa sb sc => [.dst .s sd, .src .s sa, .src .s sb, .src .s sc]
  | .scmp _ _ kd sa b => .dst .k kd :: .src .s sa :: b.opnds
  | .ssel _ sd sa sb kc => [.dst .s sd, .src .s sa, .src .s sb, .src .k kc]
  | .srdv _ w sd va b => .dst .s sd :: .src .v va (if w then 2 else 1) (if w then 2 else 1) :: b.opnds
  | .sldk _ sd b => .dst .s sd :: b.opnds
  | .mov _ t vd b => .dst .v vd t.regs t.regs :: match b with
      | .src b => b.opnds t.regs
      | _ => []
  | .add _ t vd va b | .sub _ t vd va b | .mulh _ t vd va b | .min _ t vd va b | .max _ t vd va b
  | .addsat _ t vd va b | .subsat _ t vd va b | .and _ t vd va b | .or _ t vd va b | .xor _ t vd va b
  | .andn _ t vd va b =>
      .dst .v vd t.regs t.regs :: .src .v va t.regs t.regs :: b.opnds t.regs
  | .mul _ w t vd va b =>
      .dst .v vd (if w then 2 else t.regs) (if w then 2 else t.regs) :: .src .v va t.regs t.regs :: b.opnds t.regs
  | .mad _ w t vd va b vc =>
      .dst .v vd (if w then 2 else t.regs) (if w then 2 else t.regs) :: .src .v va t.regs t.regs ::
      .src .v vc (if w then 2 else t.regs) (if w then 2 else t.regs) :: b.opnds t.regs
  | .adc _ t vd va b kc | .sbb _ t vd va b kc =>
      .dst .v vd t.regs t.regs :: .src .v va t.regs t.regs :: .both .k kc :: b.opnds t.regs
  | .abs _ _ t vd b | .neg _ _ t vd b | .not _ t vd b => .dst .v vd t.regs t.regs :: b.opnds t.regs
  | .lea _ _ vd va b _ => .dst .v vd 2 2 :: .src .v va :: b.opnds 2
  | .shl _ t vd va b | .shr _ t vd va b | .sar _ t vd va b | .rot _ t vd va b | .bfe _ t vd va b =>
      .dst .v vd t.regs t.regs :: .src .v va t.regs t.regs :: b.opnds 1
  | .popc _ t vd b | .clz _ t vd b => .dst .v vd :: b.opnds t.regs
  | .bfi _ t vd va b vc =>
      .dst .v vd t.regs t.regs :: .src .v va t.regs t.regs :: .src .v vc t.regs t.regs :: b.opnds 1
  | .sel _ t vd va b kc =>
      .dst .v vd t.regs t.regs :: .src .v va t.regs t.regs :: .src .k kc :: b.opnds t.regs
  | .cmp _ _ _ t kd va b => .dst .k kd :: .src .v va t.regs t.regs :: b.opnds t.regs
  | .prmb _ vd va b vc => .dst .v vd :: .src .v va :: .src .v vc :: b.opnds 1
  | .fadd _ _ vd va b | .fsub _ _ vd va b | .fmul _ _ vd va b | .fmin _ _ vd va b | .fmax _ _ vd va b
  | .fscl _ _ vd va b | .pfadd _ _ vd va b | .pfmul _ _ vd va b | .cvtr _ _ _ vd va b | .fdiv _ _ vd va b =>
      .dst .v vd :: .src .v va :: b.opnds 1
  | .fma _ _ vd va b vc | .fdot2 _ _ vd va b vc | .pfma _ _ vd va b vc =>
      .dst .v vd :: .src .v va :: .src .v vc :: b.opnds 1
  | .fcmp _ _ _ kd va b => .dst .k kd :: .src .v va :: b.opnds 1
  | .fcls _ _ _ kd b => .dst .k kd :: b.opnds 1
  | .frnd _ _ vd b | .fsqrt _ _ vd b | .frcp _ _ vd b | .frsq _ _ vd b | .fex2 _ _ vd b | .flg2 _ _ vd b
  | .fsin _ _ vd b | .fcos _ _ vd b | .qscl _ _ _ vd b | .rnsenc _ _ vd b | .rnsdec _ vd b =>
      .dst .v vd :: b.opnds 1
  | .cvt _ td _ _ ts _ vd b => .dst .v vd td.regs td.regs :: b.opnds ts.regs
  | .qpack _ _ t vd va b => .dst .v vd :: .src .v va (qCount t) 1 :: b.opnds 1
  | .qunp _ _ t vd va b => .dst .v vd (qCount t) 1 :: .src .v va :: b.opnds 1
  | .kand _ kd ka kb | .kor _ kd ka kb | .kxor _ kd ka kb => [.dst .k kd, .src .k ka, .src .k kb]
  | .knot _ kd kb => [.dst .k kd, .src .k kb]
  | .kmov _ dir d b => match dir with
      | .kk => [.dst .k d, .src .k b]
      | .ks => [.dst .k d, .src .s b]
      | .sk => [.dst .s d, .src .k b]
  | .vote _ _ kd ka => [.dst .k kd, .src .k ka]
  | .kpop _ sd kb | .kfind _ _ sd kb => [.dst .s sd, .src .k kb]
  | .flgk _ _ kd | .lanek _ _ kd => [.dst .k kd]
  | .flgrd _ vd => [.dst .v vd]
  | .shfl _ _ w vd va b =>
      .dst .v vd (if w then 2 else 1) (if w then 2 else 1) :: .src .v va (if w then 2 else 1) (if w then 2 else 1) ::
      b.opnds 1
  | .pushw _ w vd va b kc =>
      .dst .v vd (if w then 2 else 1) (if w then 2 else 1) :: .src .v va (if w then 2 else 1) (if w then 2 else 1) ::
      .dst .k kc :: b.opnds 1
  | .bcast _ w vd va b =>
      .dst .v vd (if w then 2 else 1) (if w then 2 else 1) :: .src .v va (if w then 2 else 1) (if w then 2 else 1) ::
      match b with
      | some b => b.opnds 1
      | none => []
  | .redu _ toS _ w d va =>
      (if toS then .dst .s d else .dst .v d (if w then 2 else 1) (if w then 2 else 1)) ::
      [.src .v va (if w then 2 else 1) (if w then 2 else 1)]
  | .scan _ _ _ w vd va =>
      [.dst .v vd (if w then 2 else 1) (if w then 2 else 1), .src .v va (if w then 2 else 1) (if w then 2 else 1)]
  | .segscan _ _ _ w vd va kc =>
      [.dst .v vd (if w then 2 else 1) (if w then 2 else 1), .src .v va (if w then 2 else 1) (if w then 2 else 1),
       .src .k kc]
  | .confl _ w vd va kc => [.dst .v vd, .src .v va (if w then 2 else 1) (if w then 2 else 1), .dst .k kc]
  | .matchk _ w vd va => [.dst .v vd, .src .v va (if w then 2 else 1) (if w then 2 else 1)]
  | .gsort _ _ _ vd va => [.dst .v vd 2 1, .src .v va]
  | .ld _ sz _ vd m | .lda _ sz vd m => .dst .v vd (szRegs sz) (szRegs sz) :: m.opnds true
  | .st _ sz _ vd m | .str _ sz vd m => .src .v vd (szRegs sz) (szRegs sz) :: m.opnds true
  | .lds _ sz _ vd m => .dst .v vd (szRegs sz) (szRegs sz) :: m.opnds false
  | .sts _ sz _ vd m => .src .v vd (szRegs sz) (szRegs sz) :: m.opnds false
  | .ldk _ _ _ sd m => .dst .s63 sd :: m.opnds true
  | .stk _ _ _ sd m => .src .s63 sd :: m.opnds true
  | .lookup _ vd key => .dst .v vd :: key.opnds 2
  | .tagset _ ks key e => (if ks then .src .s key else .src .v key 2 2) :: e.opnds 1
  | .taginv _ e => e.opnds 1
  | .pref _ _ m => m.opnds true
  | .ldsb _ n vd m => .dst .v vd (n.toNat + 1) 1 :: m.opnds false
  | .atom _ _ t vd m vc => .dst .v vd t.regs t.regs :: .src .v vc t.regs t.regs :: m.opnds true
  | .atoms _ _ t vd m vc => .dst .v vd t.regs t.regs :: .src .v vc t.regs t.regs :: m.opnds false
  | .cas _ w vd m vc =>
      .both .v vd (if w then 2 else 1) (if w then 2 else 1) :: .src .v vc (if w then 2 else 1) (if w then 2 else 1) ::
      m.opnds true
  | .cass _ w vd m vc =>
      .both .v vd (if w then 2 else 1) (if w then 2 else 1) :: .src .v vc (if w then 2 else 1) (if w then 2 else 1) ::
      m.opnds false
  | .red _ _ t m vc => .src .v vc t.regs t.regs :: m.opnds true
  | .barCounted _ sa | .cbarCounted _ sa => [.src .s sa]
  | .cpa _ _ _ dir src dst _ _ => [.src .v src dir.srcRegs dir.srcRegs, .src .v dst dir.dstRegs dir.dstRegs]
  | .tcopy _ _ _ _ src dst desc | .tcopym _ _ _ src dst desc _ =>
      .src .s src :: .src .s dst :: match desc with
        | .reg r => [.src .s r]
        | .lit _ => []
  | .binit _ _ v | .barv _ _ v | .bexp _ _ v => match v with
      | .reg r => [.src .s r]
      | _ => []
  | .bwait _ _ p => match p with
      | .reg r => [.src .s r]
      | .imm _ => []
  | .btest _ kd _ p => .dst .k kd :: match p with
      | .reg r => [.src .s r]
      | .imm _ => []
  | .waitn _ _ t => match t with
      | .reg r => [.src .s r]
      | _ => []
  | .trig _ _ t => match t with
      | .reg r => [.src .s r]
      | .imm _ => []
  | .mma _ _ ta tb _ ad va vb => [.both .a ad, .src .v va (matRegs ta) 1, .src .v vb (matRegs tb) 1]
  | .mmaq _ _ ta tb _ ad va vb => [.both .a ad 4 1, .src .v va (matRegs ta) 1, .src .v vb (matRegs tb) 1]
  | .mmv _ _ _ _ ad vx sw ss _ nv =>
      [.both .a ad, .src .v vx (24 * (nv.toNat + 1)) 1, .src .s63 (.plain sw), .src .s63 (.plain ss)]
  | .mlutb _ ad va => [.dst .a ad 6 1, .src .v va 24 1]
  | .mlut _ m _ ad aa vb =>
      [.both .a ad, .src .a aa 6 1, .src .v vb (match m with | .b1 | .b1pm => 3 | _ => 6) 1]
  | .rcvt _ ad aa => [.dst .a ad, .src .a aa]
  | .scacc _ _ ad aa vb vc => [.both .a ad, .src .a aa, .src .v vb, .src .v vc]
  | .accz _ ad => [.dst .a ad]
  | .accrd _ n vd aa _ => [.dst .v vd (n.toNat + 1) 1, .src .a aa]
  | .accwr _ n ad vb _ => [.dst .a ad, .src .v vb (n.toNat + 1) 1]
  | .accld _ ad sa => [.dst .a ad, .src .s63 sa]
  | .accst _ ad sa => [.src .a ad, .src .s63 sa]
  | .accstat _ _ sd aa => [.dst .s sd, .src .a aa]
  | .gather _ m _ _ sd sh vi n stat => gatherOpnds sd sh vi n stat (m == .wsum)
  | .scatr _ _ _ _ sd sh vi n stat | .scatw _ _ _ sd sh vi n stat => gatherOpnds sd sh vi n stat false
  | .gstat _ _ sd | .xstat _ _ sd => [.dst .s sd]
  | .klook _ _ _ sd sq sh sk stat =>
      [.src .s63 (.plain sd), .src .s63 (.plain sq), .src .s63 (.plain sh), .src .s63 (.plain sk)] ++ keyStat stat
  | .kgrad _ _ sg sh sk stat =>
      [.src .s63 (.plain sg), .src .s63 (.plain sh), .src .s63 (.plain sk)] ++ keyStat stat
  | .hdesc _ f sd sh sb =>
      .dst .s63 sd :: .src .s63 sh :: (if f = 4 ∨ f = 5 then [.src .s63 sb] else [])
  | .xpnd _ _ vs vl => [.src .v vs, .src .v vl]
  | .xnext _ item vd kc sb =>
      [.dst .v vd (if item then 4 else 2) 1, .dst .k (.plain kc), .dst .s (.plain sb)]
  | .segred _ _ vd va => [.both .v vd, .src .v va]
  | .enq _ _ vd va q => .dst .v vd :: .src .v va :: match q with
      | .reg r => [.src .s63 r]
      | .imm _ => []
  | .enqb _ vd va vc q => .dst .v vd :: .src .v va :: .src .v vc :: match q with
      | .reg r => [.src .s63 r]
      | .imm _ => []
  | .qstat _ _ sd sb => [.dst .s sd, .src .s sb]
  | .rwr _ _ p vb vc _ | .rrd _ _ p vb vc _ | .rred _ _ _ _ _ p vb vc _ =>
      p.opnds ++ [.src .v vb 2 2, .src .v vc]
  | .rflag _ _ w p vb vc _ =>
      p.opnds ++ [.src .v vb 2 2, .src .v vc (if w then 2 else 1) (if w then 2 else 1)]
  | .csig _ f sd sp sr => .dst .s sd :: .src .s sp :: (if f = 0 then [.src .s sr] else [])
  | .csrr _ _ sd => [.dst .s sd]
  | .csrw _ _ sa => [.src .s sa]
  | .cyc _ sd => [.dst .s (.plain sd)]
  | _ => []

/-- The register that gives a gather's or scatter's slot count (R252). -/
def Instr.slotReg : Instr → Option Reg
  | .gather _ _ _ _ _ _ _ (.reg r) _ | .scatr _ _ _ _ _ _ _ (.reg r) _ | .scatw _ _ _ _ _ _ (.reg r) _ => some r
  | _ => none

/-- The vector operands that step 7 checks once the slot count is known (R255). -/
def Instr.slotOpnds (i : Instr) (n : Nat) : List Opnd :=
  match i with
  | .gather _ m _ _ _ _ vi (.reg _) stat => gatherVecs vi n stat (m == .wsum)
  | .scatr _ _ _ _ _ _ vi (.reg _) stat | .scatw _ _ _ _ _ vi (.reg _) stat => gatherVecs vi n stat false
  | _ => []

/-! ## Slots: OP, lengths, kind and timing (Table 5.12) -/

/-- Guard kinds (R56). -/
inductive Kind where
  | p | u | c | x
  deriving DecidableEq, Repr

/-- Result timing (R57): fixed with latency, interlocked, variable, or none. -/
inductive Timing where
  | fixed (l : Nat) | inter | var | none
  deriving DecidableEq, Repr

/-- Lengths a slot admits; none when OP is reserved (Tables 5.11 and 5.12). -/
def opLens (op : Nat) : Option (List Len) :=
  match op with
  | 0x00 | 0x05 | 0x06 | 0x07 | 0x08 | 0x09 | 0x0A | 0x0B | 0x0C => some [.w1]
  | 0x01 | 0x02 | 0x04 | 0x0D => some [.w2, .w3]
  | 0x03 => some [.w2]
  | 0x10 => some [.w1, .w2, .w3, .w5]
  | 0x11 | 0x12 | 0x13 | 0x16 | 0x17 | 0x18 | 0x1C => some [.w2, .w3, .w5]
  | 0x14 | 0x1D => some [.w2]
  | 0x15 | 0x19 | 0x1A | 0x1B | 0x1E | 0x1F => some [.w2, .w3]
  | 0x20 => some [.w2, .w3, .w5]
  | 0x95 | 0x96 | 0x97 | 0xD4 | 0xE5 | 0xF2 | 0xF3 | 0xF4 => some [.w1]
  | 0x98 | 0x99 => some [.w1, .w2]
  | 0x78 | 0xA6 | 0xA7 | 0xA8 | 0xB0 | 0xB1 | 0xB3 | 0xB4 | 0xB5 | 0xB6 | 0xB7 | 0xB8 | 0xB9 | 0xBA | 0xBB | 0xBC
  | 0xC3 | 0xC6 | 0xD0 | 0xD1 | 0xD2 | 0xD3 | 0xD7 | 0xE4 | 0xF0 | 0xF1 => some [.w2]
  | 0xA1 | 0xA2 => some [.w3, .w5]
  | 0xA9 | 0xB2 => some [.w3]
  | _ =>
    if (0x21 ≤ op ∧ op ≤ 0x2E) ∨ (0x30 ≤ op ∧ op ≤ 0x4D) ∨ (0x50 ≤ op ∧ op ≤ 0x5E) then some [.w2, .w3]
    else if 0x60 ≤ op ∧ op ≤ 0x6B then some [.w2]
    else if (0x70 ≤ op ∧ op ≤ 0x77) ∨ (0x80 ≤ op ∧ op ≤ 0x8C) ∨ (0x90 ≤ op ∧ op ≤ 0x94) ∨ op = 0xA0 ∨ op = 0xA3
      ∨ op = 0xA4 ∨ op = 0xA5 ∨ op = 0xC0 ∨ op = 0xC1 ∨ op = 0xC2 ∨ op = 0xC4 ∨ op = 0xC5 ∨ op = 0xD5 ∨ op = 0xD6
      ∨ (0xE0 ≤ op ∧ op ≤ 0xE3) then some [.w2, .w3]
    else Option.none

/-- The kind of a slot (Table 5.12). -/
def opKind (op : Nat) : Kind :=
  if op = 0x08 then .c
  else if op ≤ 0x0D then .x
  else if op ≤ 0x1F then .u
  else if op ≤ 0x5E then .p
  else if op = 0x65 then .c
  else if op = 0x68 ∨ op = 0x69 ∨ op = 0x6A then .p
  else if op ≤ 0x6B then .u
  else if op ≤ 0x78 then .c
  else if op = 0x84 ∨ op = 0x85 then .u
  else if op ≤ 0x94 then .p
  else if op ≤ 0x99 then .u
  else if op = 0xA0 then .p
  else if op = 0xA1 ∨ op = 0xA2 then .c
  else if op ≤ 0xA9 then .u
  else if op ≤ 0xBC then .c
  else if op = 0xC2 ∨ op = 0xC5 then .p
  else if op = 0xC3 ∨ op = 0xC6 then .u
  else if op ≤ 0xC5 then .c
  else if op = 0xD0 ∨ op = 0xD1 ∨ op = 0xD3 then .c
  else if op = 0xD5 ∨ op = 0xD6 then .p
  else if op ≤ 0xD7 then .u
  else if op ≤ 0xE3 then .p
  else .u

/-- The result timing of a slot (Table 5.12). The asynchronous matrix forms complete on n3 instead. -/
def opTiming (op : Nat) : Timing :=
  match op with
  | 0x08 => .inter
  | 0x10 | 0x11 | 0x12 | 0x16 | 0x17 | 0x18 | 0x19 | 0x1A | 0x1B | 0x1C | 0x1D => .fixed 2
  | 0x13 | 0x14 => .fixed 4
  | 0x15 => .fixed 36
  | 0x1E => .fixed 8
  | 0x23 | 0x24 | 0x25 => .fixed 6
  | 0x50 | 0x51 | 0x5A | 0x5B | 0x5C | 0x5D | 0x5E => .fixed 6
  | 0x52 | 0x53 | 0x54 | 0x55 | 0x56 | 0x57 => .fixed 10
  | 0x58 | 0x59 => .fixed 24
  | 0x65 => .fixed 8
  | 0x78 => .fixed 16
  | 0xA7 | 0xC3 | 0xD2 | 0xF4 => .fixed 2
  | 0xF0 => .fixed 4
  | 0xD0 | 0xD1 | 0xD3 => .inter
  | _ =>
    if (0x20 ≤ op ∧ op ≤ 0x2E) ∨ (0x30 ≤ op ∧ op ≤ 0x3F) then .fixed 4
    else if 0x40 ≤ op ∧ op ≤ 0x4D then .fixed 5
    else if 0x60 ≤ op ∧ op ≤ 0x6B then .fixed 2
    else if 0x70 ≤ op ∧ op ≤ 0x77 then .fixed 8
    else if 0xB0 ≤ op ∧ op ≤ 0xBC then .inter
    else if op < 0x20 ∨ op = 0x89 ∨ (0x95 ≤ op ∧ op ≤ 0x99) ∨ (0xA3 ≤ op ∧ op ≤ 0xA9) ∨ op = 0xD4 ∨ op = 0xE5
      ∨ 0xF0 ≤ op then .none
    else .var

end Sys2Proof
end

