-- ==== Sys2Proof/Machine/Forms.lean ====
section
/-! DEFINITION. The static checks of Table 5.5: step 2 (`Instr.lenOk`), step 3 (`Instr.opOk`, failing with ILLOP) and
step 4 (`Instr.formOk`, failing with ILLFORM). A field that a form does not use is 0 (R48) because decoding accepts
only the words that `encode` gives back; the checks here are those on the fields a form does use. -/

namespace Sys2Proof

/-- The common parts of a machine instruction and its OP (Table 5.11); none for an event. -/
def Instr.head : Instr → Option (Hdr × Nat)
  | .nop h => some (h, 0x00)
  | .bra h _ _ => some (h, 0x01)
  | .brc h _ _ _ => some (h, 0x02)
  | .brx h _ _ => some (h, 0x03)
  | .call h _ _ _ => some (h, 0x04)
  | .ret h _ => some (h, 0x05)
  | .land h => some (h, 0x06)
  | .exit h => some (h, 0x07)
  | .refill h _ => some (h, 0x08)
  | .yield h => some (h, 0x09)
  | .spinh h _ => some (h, 0x0A)
  | .syncs h => some (h, 0x0B)
  | .halt h => some (h, 0x0C)
  | .loop h _ _ => some (h, 0x0D)
  | .smovImm6 h _ _ => some (h, 0x10)
  | .smov h _ _ => some (h, 0x10)
  | .sadd h _ _ _ => some (h, 0x11)
  | .ssub h _ _ _ => some (h, 0x12)
  | .smul h _ _ _ _ => some (h, 0x13)
  | .smad h _ _ _ _ => some (h, 0x14)
  | .sdiv h _ _ _ _ _ => some (h, 0x15)
  | .sand h _ _ _ => some (h, 0x16)
  | .sor h _ _ _ => some (h, 0x17)
  | .sxor h _ _ _ => some (h, 0x18)
  | .sshl h _ _ _ => some (h, 0x19)
  | .sshr h _ _ _ => some (h, 0x1A)
  | .ssar h _ _ _ => some (h, 0x1B)
  | .scmp h _ _ _ _ => some (h, 0x1C)
  | .ssel h _ _ _ _ => some (h, 0x1D)
  | .srdv h _ _ _ _ => some (h, 0x1E)
  | .sldk h _ _ => some (h, 0x1F)
  | .mov h _ _ _ => some (h, 0x20)
  | .add h _ _ _ _ => some (h, 0x21)
  | .sub h _ _ _ _ => some (h, 0x22)
  | .mul h _ _ _ _ _ => some (h, 0x23)
  | .mulh h _ _ _ _ => some (h, 0x24)
  | .mad h _ _ _ _ _ _ => some (h, 0x25)
  | .adc h _ _ _ _ _ => some (h, 0x26)
  | .sbb h _ _ _ _ _ => some (h, 0x27)
  | .min h _ _ _ _ => some (h, 0x28)
  | .max h _ _ _ _ => some (h, 0x29)
  | .abs h _ _ _ _ => some (h, 0x2A)
  | .neg h _ _ _ _ => some (h, 0x2B)
  | .addsat h _ _ _ _ => some (h, 0x2C)
  | .subsat h _ _ _ _ => some (h, 0x2D)
  | .lea h _ _ _ _ _ => some (h, 0x2E)
  | .and h _ _ _ _ => some (h, 0x30)
  | .or h _ _ _ _ => some (h, 0x31)
  | .xor h _ _ _ _ => some (h, 0x32)
  | .not h _ _ _ => some (h, 0x33)
  | .andn h _ _ _ _ => some (h, 0x34)
  | .shl h _ _ _ _ => some (h, 0x35)
  | .shr h _ _ _ _ => some (h, 0x36)
  | .sar h _ _ _ _ => some (h, 0x37)
  | .rot h _ _ _ _ => some (h, 0x38)
  | .popc h _ _ _ => some (h, 0x39)
  | .clz h _ _ _ => some (h, 0x3A)
  | .bfe h _ _ _ _ => some (h, 0x3B)
  | .bfi h _ _ _ _ _ => some (h, 0x3C)
  | .sel h _ _ _ _ _ => some (h, 0x3D)
  | .cmp h _ _ _ _ _ _ => some (h, 0x3E)
  | .prmb h _ _ _ _ => some (h, 0x3F)
  | .fadd h _ _ _ _ => some (h, 0x40)
  | .fsub h _ _ _ _ => some (h, 0x41)
  | .fmul h _ _ _ _ => some (h, 0x42)
  | .fma h _ _ _ _ _ => some (h, 0x43)
  | .fmin h _ _ _ _ => some (h, 0x44)
  | .fmax h _ _ _ _ => some (h, 0x45)
  | .fcmp h _ _ _ _ _ => some (h, 0x46)
  | .fcls h _ _ _ _ => some (h, 0x47)
  | .frnd h _ _ _ => some (h, 0x48)
  | .fscl h _ _ _ _ => some (h, 0x49)
  | .fdot2 h _ _ _ _ _ => some (h, 0x4A)
  | .pfma h _ _ _ _ _ => some (h, 0x4B)
  | .pfadd h _ _ _ _ => some (h, 0x4C)
  | .pfmul h _ _ _ _ => some (h, 0x4D)
  | .cvt h _ _ _ _ _ _ _ => some (h, 0x50)
  | .cvtr h _ _ _ _ _ => some (h, 0x51)
  | .frcp h _ _ _ => some (h, 0x52)
  | .frsq h _ _ _ => some (h, 0x53)
  | .fex2 h _ _ _ => some (h, 0x54)
  | .flg2 h _ _ _ => some (h, 0x55)
  | .fsin h _ _ _ => some (h, 0x56)
  | .fcos h _ _ _ => some (h, 0x57)
  | .fdiv h _ _ _ _ => some (h, 0x58)
  | .fsqrt h _ _ _ => some (h, 0x59)
  | .qscl h _ _ _ _ => some (h, 0x5A)
  | .qpack h _ _ _ _ _ => some (h, 0x5B)
  | .qunp h _ _ _ _ _ => some (h, 0x5C)
  | .rnsenc h _ _ _ => some (h, 0x5D)
  | .rnsdec h _ _ => some (h, 0x5E)
  | .kand h _ _ _ => some (h, 0x60)
  | .kor h _ _ _ => some (h, 0x61)
  | .kxor h _ _ _ => some (h, 0x62)
  | .knot h _ _ => some (h, 0x63)
  | .kmov h _ _ _ => some (h, 0x64)
  | .vote h _ _ _ => some (h, 0x65)
  | .kpop h _ _ => some (h, 0x66)
  | .kfind h _ _ _ => some (h, 0x67)
  | .flgk h _ _ => some (h, 0x68)
  | .flgclr h _ => some (h, 0x69)
  | .flgrd h _ => some (h, 0x6A)
  | .lanek h _ _ => some (h, 0x6B)
  | .shfl h _ _ _ _ _ => some (h, 0x70)
  | .pushw h _ _ _ _ _ => some (h, 0x71)
  | .bcast h _ _ _ _ => some (h, 0x72)
  | .redu h _ _ _ _ _ => some (h, 0x73)
  | .scan h _ _ _ _ _ => some (h, 0x74)
  | .confl h _ _ _ _ => some (h, 0x75)
  | .matchk h _ _ _ => some (h, 0x76)
  | .segscan h _ _ _ _ _ _ => some (h, 0x77)
  | .gsort h _ _ _ _ => some (h, 0x78)
  | .ld h _ _ _ _ => some (h, 0x80)
  | .st h _ _ _ _ => some (h, 0x81)
  | .lds h _ _ _ _ => some (h, 0x82)
  | .sts h _ _ _ _ => some (h, 0x83)
  | .ldk h _ _ _ _ => some (h, 0x84)
  | .stk h _ _ _ _ => some (h, 0x85)
  | .lookup h _ _ => some (h, 0x86)
  | .tagset h _ _ _ => some (h, 0x87)
  | .taginv h _ => some (h, 0x88)
  | .pref h _ _ => some (h, 0x89)
  | .lda h _ _ _ => some (h, 0x8A)
  | .str h _ _ _ => some (h, 0x8B)
  | .ldsb h _ _ _ => some (h, 0x8C)
  | .atom h _ _ _ _ _ => some (h, 0x90)
  | .cas h _ _ _ _ => some (h, 0x91)
  | .atoms h _ _ _ _ _ => some (h, 0x92)
  | .cass h _ _ _ _ => some (h, 0x93)
  | .red h _ _ _ _ => some (h, 0x94)
  | .fence h _ _ => some (h, 0x95)
  | .acq h _ => some (h, 0x96)
  | .rel h _ => some (h, 0x97)
  | .bar h => some (h, 0x98)
  | .barCounted h _ => some (h, 0x98)
  | .cbar h => some (h, 0x99)
  | .cbarCounted h _ => some (h, 0x99)
  | .cpa h _ _ _ _ _ _ _ => some (h, 0xA0)
  | .tcopy h _ _ _ _ _ _ => some (h, 0xA1)
  | .tcopym h _ _ _ _ _ _ => some (h, 0xA2)
  | .binit h _ _ => some (h, 0xA3)
  | .barv h _ _ => some (h, 0xA4)
  | .bexp h _ _ => some (h, 0xA5)
  | .bwait h _ _ => some (h, 0xA6)
  | .btest h _ _ _ => some (h, 0xA7)
  | .waitn h _ _ => some (h, 0xA8)
  | .trig h _ _ => some (h, 0xA9)
  | .mma h _ _ _ _ _ _ _ => some (h, 0xB0)
  | .mmaq h _ _ _ _ _ _ _ => some (h, 0xB1)
  | .mmv h _ _ _ _ _ _ _ _ _ => some (h, 0xB2)
  | .mlutb h _ _ => some (h, 0xB3)
  | .mlut h _ _ _ _ _ => some (h, 0xB4)
  | .rcvt h _ _ => some (h, 0xB5)
  | .scacc h _ _ _ _ _ => some (h, 0xB6)
  | .accz h _ => some (h, 0xB7)
  | .accrd h _ _ _ _ => some (h, 0xB8)
  | .accwr h _ _ _ _ => some (h, 0xB9)
  | .accld h _ _ => some (h, 0xBA)
  | .accst h _ _ => some (h, 0xBB)
  | .accstat h _ _ _ => some (h, 0xBC)
  | .gather h _ _ _ _ _ _ _ _ => some (h, 0xC0)
  | .scatr h _ _ _ _ _ _ _ _ => some (h, 0xC1)
  | .scatw h _ _ _ _ _ _ _ => some (h, 0xC2)
  | .gstat h _ _ => some (h, 0xC3)
  | .klook h _ _ _ _ _ _ _ => some (h, 0xC4)
  | .kgrad h _ _ _ _ _ => some (h, 0xC5)
  | .hdesc h _ _ _ _ => some (h, 0xC6)
  | .xpnd h _ _ _ => some (h, 0xD0)
  | .xnext h _ _ _ _ => some (h, 0xD1)
  | .xstat h _ _ => some (h, 0xD2)
  | .segred h _ _ _ => some (h, 0xD3)
  | .xabort h => some (h, 0xD4)
  | .enq h _ _ _ _ => some (h, 0xD5)
  | .enqb h _ _ _ _ => some (h, 0xD6)
  | .qstat h _ _ _ => some (h, 0xD7)
  | .rwr h _ _ _ _ _ => some (h, 0xE0)
  | .rrd h _ _ _ _ _ => some (h, 0xE1)
  | .rred h _ _ _ _ _ _ _ _ => some (h, 0xE2)
  | .rflag h _ _ _ _ _ _ => some (h, 0xE3)
  | .csig h _ _ _ _ => some (h, 0xE4)
  | .rfence h => some (h, 0xE5)
  | .csrr h _ _ => some (h, 0xF0)
  | .csrw h _ _ => some (h, 0xF1)
  | .trap h _ => some (h, 0xF2)
  | .brk h _ => some (h, 0xF3)
  | .cyc h _ => some (h, 0xF4)
  | _ => none

/-- The instructions that set flags: those of classes 0x4 and 0x5 but FCLS, a CVT between integer types, RNSENC and RNSDEC
(R81, R130, R135, R139, R145), and FLGCLR, which clears them (R148). -/
def Instr.setsFlags (i : Instr) : Bool :=
  match i with
  | .fcls .. | .rnsenc .. | .rnsdec .. => false
  | .cvt _ td _ _ ts _ _ _ => td.isFloat || ts.isFloat
  | .flgclr .. => true
  | _ => match i.head with
    | some (_, op) => (0x40 ≤ op && op ≤ 0x4D) || (0x50 ≤ op && op ≤ 0x5E)
    | none => false

/-- The length of a machine instruction. -/
def Instr.len? (i : Instr) : Option Len := i.head.map (·.1.len)

/-- Whether the row is a machine instruction, not an event. -/
def Instr.isMachine (i : Instr) : Bool := i.head.isSome

/-- Step 2 of Table 5.5: the slot admits the length; the rows that share a slot split its lengths between them. -/
def Instr.lenOk (i : Instr) : Bool :=
  match i.head with
  | none => false
  | some (h, op) =>
    ((opLens op).getD []).contains h.len &&
    match i with
    | .smovImm6 .. | .bar .. | .cbar .. => h.len == .w1
    | .smov .. | .barCounted .. | .cbarCounted .. => h.len != .w1
    | _ => true

/-- A register field within its class's architectural range (Table 5.8, R51). -/
def Opnd.rangeOk (o : Opnd) : Bool :=
  match o.cls with
  | .v => true
  | .s => decide (o.reg.num.toNat < 64) || (decide (o.reg.num.toNat < 68) && !o.reg.ix)
  | .s63 => decide (o.reg.num.toNat < 64)
  | .k => decide (o.reg.num.toNat < 16)
  | .a => decide (o.reg.num.toNat < 32)

/-- Step 3 of Table 5.5 for one operand: range, and an aligned base when its IX bit is 0 (R193 for four registers). -/
def Opnd.opOk (o : Opnd) : Bool := o.rangeOk && (o.reg.ix || o.reg.num.toNat % o.al == 0)

/-- XS is 0 when all four IX bits are 0 (R48). -/
def xsOk (h : Hdr) (ops : List Opnd) : Bool := h.xs == 0 || ops.any (·.reg.ix)

/-- Word 2 as a 16-bit immediate: bits 31:16 extend bit 15 as the type does; a float has them 0 (R120, R130). -/
def imm16Ok (t : ElemTy) (w : Word) : Bool :=
  let hi := w.extractLsb' 16 16
  if t.signed && w.getLsbD 15 then hi == 0xFFFF else hi == 0

/-- The 16-bit immediate rule for a B operand in the form with word 2. -/
def BSrc.immOk (h : Hdr) (t : ElemTy) : BSrc → Bool
  | .imm w => h.len != .w3 || t.bits != 16 || imm16Ok t w
  | _ => true

/-- An immediate is encodable: only the form with word 2 holds a value (Table 5.13). -/
def BSrc.encOk (h : Hdr) : BSrc → Bool
  | .imm w => h.len == .w3 || w == 0
  | _ => true

/-- As `BSrc.encOk` for the scalar class, whose five-word form holds the literal. -/
def SSrc.encOk (h : Hdr) : SSrc → Bool
  | .reg _ => true
  | .imm w => h.len == .w3 || (h.len != .w5 && w == 0)
  | .lit _ => h.len == .w5

/-- An immediate operand kind needs word 2 (Table 5.13). -/
def BSrc.formOk (h : Hdr) : BSrc → Bool
  | .imm _ => h.len == .w3
  | _ => true

/-- As `BSrc.formOk` for the scalar class. -/
def SSrc.formOk (h : Hdr) : SSrc → Bool
  | .imm _ => h.len == .w3
  | _ => true

/-- A memory operand's fields (Table 14.1, Table 14.2): what its mode and the short form leave unused is 0, and no
scope or order stands in an instruction that takes none. -/
def Mem.opOk (h : Hdr) (m : Mem) (ords : List Order) (scp : Bool) : Bool :=
  (match m.mode with
   | .sv => true
   | .s => m.vb == .zero && m.sc == 0 && !m.ixz
   | .v => m.sa == .zero && m.sc == 0 && !m.ixz) &&
  (h.len == .w3 || (m.disp == 0 && m.scope == .grp && !m.ixz && m.sc == 0 && m.ord == .rlx)) &&
  ords.contains m.ord && (scp || m.scope == .grp)

/-- A status word is present exactly in the form with word 2 (R252, R275). -/
def statOk (h : Hdr) (stat : Option GStat) (ws : Bool) : Bool :=
  match stat with
  | none => h.len == .w2
  | some g => h.len == .w3 && (ws || g.vw == 0)

/-- An immediate slot count lies from 1 to 16; a register that gives the count is not indexed (R252). -/
def NSrc.opOk : NSrc → Bool
  | .reg r => !r.ix
  | .imm n => decide (1 ≤ n.toNat ∧ n.toNat ≤ 16)

/-- The admitted matrix type combinations (Table 16.1). -/
def matTypesOk (ta tb : ElemTy) (tc : AccTy) : Bool :=
  let nf (t : ElemTy) : Bool := t == .e4m3 || t == .e5m2 || t == .e2m1
  let ni (t : ElemTy) : Bool := t == .s8 || t == .z8 || t == .s4 || t == .z4
  (nf ta && nf tb) || (ta == tb && ta.inF) || (ni ta && ni tb && tc == .wide)

/-- The barrier register value operand (R211). -/
def BarVal.encOk (h : Hdr) : BarVal → Bool
  | .imm w => h.len == .w3 || w == 0
  | _ => true

/-- MOD = 01 needs word 2 and MOD = 10 excludes it (R211). -/
def BarVal.formOk (h : Hdr) : BarVal → Bool
  | .reg _ => true
  | .imm _ => h.len == .w3
  | .imm6 _ => h.len == .w2

/-- A queue target fits the form's word 2 (R299). -/
def EnqTgt.encOk (h : Hdr) : EnqTgt → Bool
  | .imm w => h.len == .w3 || w == 0
  | .reg _ => true

/-- The control and status registers of Table 26.3. -/
def csrOk (n : BitVec 6) : Bool :=
  n == 0 || n == 1 || (decide (8 ≤ n.toNat ∧ n.toNat ≤ 0x11))

/-- The B operand of the instruction, if it is a vector-class one, with the type that its immediate has. -/
def Instr.bImm : Instr → Option (BSrc × ElemTy)
  | .mov _ t _ (.src b) | .add _ t _ _ b | .sub _ t _ _ b | .mulh _ t _ _ b | .min _ t _ _ b | .max _ t _ _ b
  | .addsat _ t _ _ b | .subsat _ t _ _ b | .and _ t _ _ b | .or _ t _ _ b | .xor _ t _ _ b | .andn _ t _ _ b
  | .mul _ _ t _ _ b | .mad _ _ t _ _ b _ | .adc _ t _ _ b _ | .sbb _ t _ _ b _ | .abs _ _ t _ b | .neg _ _ t _ b
  | .not _ t _ b | .popc _ t _ b | .clz _ t _ b | .sel _ t _ _ b _ | .cmp _ _ _ t _ _ b | .rnsenc _ t _ b => some (b, t)
  | .lea _ _ _ _ b _ => some (b, .s64)
  | .shl _ _ _ _ b | .shr _ _ _ _ b | .sar _ _ _ _ b | .rot _ _ _ _ b | .bfe _ _ _ _ b | .bfi _ _ _ _ b _
  | .prmb _ _ _ b _ => some (b, .z32)
  | .fadd _ f _ _ b | .fsub _ f _ _ b | .fmul _ f _ _ b | .fmin _ f _ _ b | .fmax _ f _ _ b | .fma _ f _ _ b _
  | .fcmp _ f _ _ _ b | .fcls _ f _ _ b | .frnd _ f _ b | .fdiv _ f _ _ b | .fsqrt _ f _ b => some (b, f.ty)
  | .fscl _ _ _ _ b | .fdot2 _ _ _ _ b _ | .pfma _ _ _ _ b _ | .pfadd _ _ _ _ b | .pfmul _ _ _ _ b => some (b, .z32)
  | .cvt _ _ _ _ ts _ _ b => some (b, ts)
  | .cvtr _ _ _ _ _ b | .frcp _ _ _ b | .frsq _ _ _ b | .fex2 _ _ _ b | .flg2 _ _ _ b | .fsin _ _ _ b | .fcos _ _ _ b
  | .qscl _ _ _ _ b | .qpack _ _ _ _ _ b | .qunp _ _ _ _ _ b | .rnsdec _ _ b => some (b, .z32)
  | .shfl _ _ _ _ _ b | .pushw _ _ _ _ b _ | .bcast _ _ _ _ (some b) => some (b, .z32)
  | .lookup _ _ b => some (b, .s64)
  | .tagset _ _ _ b | .taginv _ b => some (b, .z32)
  | _ => none

/-- The scalar-class B operand of the instruction. -/
def Instr.sSrc : Instr → Option SSrc
  | .smov _ _ (.src b) | .sadd _ _ _ b | .ssub _ _ _ b | .smul _ _ _ _ b | .sdiv _ _ _ _ _ b | .sand _ _ _ b
  | .sor _ _ _ b | .sxor _ _ _ b | .sshl _ _ _ b | .sshr _ _ _ b | .ssar _ _ _ b | .scmp _ _ _ _ b | .srdv _ _ _ _ b
  | .sldk _ _ b => some b
  | _ => none

/-- The type, rounding and modifier rules of step 3 (R50, R62 and each instruction's table). -/
def Instr.subOk (i : Instr) : Bool :=
  match i with
  | .bra h jo t | .brc h _ jo t | .call h _ jo t =>
      h.len == .w3 || (jo == (jo.extractLsb' 0 16).signExtend 32 && t == (t.extractLsb' 0 16).signExtend 32)
  | .loop h _ t => h.len == .w3 || t == (t.extractLsb' 0 16).signExtend 32
  | .brx _ jo _ => jo == (jo.extractLsb' 0 16).signExtend 32
  | .smov h _ b => match b with
      | .src (.reg _) => h.len == .w2
      | .src (.imm _) => h.len == .w2 || h.len == .w3
      | .src (.lit _) => h.len == .w5
      | .special n => h.len == .w2 && decide (n.toNat ≤ 0x0C)
  | .mov h t _ b => t.inW && match b with
      | .src (.imm _) => h.len != .w5
      | .src _ => true
      | .lit _ => h.len == .w5
      | .special n => decide (n.toNat ≤ 0x0C)
  | .add _ t _ _ _ | .sub _ t _ _ _ | .min _ t _ _ _ | .max _ t _ _ _ | .addsat _ t _ _ _ | .subsat _ t _ _ _ =>
      t.inN || t.inP
  | .mul _ w t _ _ _ => if w then t == .s32 || t == .z32 else t.inN
  | .mad _ w t _ _ _ _ => if w then t == .s32 || t == .z32 else t.inN
  | .mulh _ t _ _ _ | .cmp _ _ _ t _ _ _ => t.inN && (match i with
      | .cmp _ cc .. => decide (cc.code.toNat ≤ 5)
      | _ => true)
  | .adc _ t _ _ _ _ | .sbb _ t _ _ _ _ | .and _ t _ _ _ | .or _ t _ _ _ | .xor _ t _ _ _ | .not _ t _ _
  | .andn _ t _ _ _ | .shl _ t _ _ _ | .shr _ t _ _ _ | .sar _ t _ _ _ | .rot _ t _ _ _ | .popc _ t _ _
  | .clz _ t _ _ | .bfe _ t _ _ _ | .bfi _ t _ _ _ _ | .sel _ t _ _ _ _ => t.inW
  | .abs _ _ t _ _ | .neg _ _ t _ _ => t.inS
  | .lea _ t _ _ _ sh => (t == .s32 || t == .z32) && decide (sh.toNat ≤ 7)
  | .fadd _ f _ _ _ | .fsub _ f _ _ _ | .fmul _ f _ _ _ | .fma _ f _ _ _ _ | .frnd _ f _ _ | .fscl _ f _ _ _
  | .fdiv _ f _ _ _ | .fsqrt _ f _ _ => f.ty.inF
  | .fmin _ f _ _ _ | .fmax _ f _ _ _ | .fcmp _ f _ _ _ _ => f.ty.inF && f.rnd == .gctl
  | .fcls _ f _ _ _ => f.ty.inF && f.rnd == .gctl && !f.ftz
  | .fdot2 _ f _ _ _ _ | .pfma _ f _ _ _ _ | .pfadd _ f _ _ _ | .pfmul _ f _ _ _ => f.ty == .f16 || f.ty == .bf16
  | .cvt _ td sat _ ts ftz _ _ =>
      td != .rx3 && ts != .rx3 && (!sat || !ts.isFloat || td.isFloat) && (!ftz || (td.inF && ts.inF))
  | .cvtr _ td _ _ _ _ => td == .f16 || td == .bf16 || td == .e5m2 || td == .e4m3 || td == .e2m1
  | .qscl _ _ t _ _ | .qpack _ _ t _ _ _ | .qunp _ _ t _ _ _ => t.inQ
  | .rnsenc _ t _ _ => t == .s32 || t == .z32
  | .flgk _ f _ => decide (f.toNat ≤ 4)
  | .flgclr _ set => decide (1 ≤ set.toNat ∧ set.toNat ≤ 31)
  | .bcast _ _ _ _ b => match b with
      | some (.vec _) => false
      | _ => true
  | .redu _ _ op w _ _ | .scan _ _ op w _ _ | .segscan _ _ op w _ _ _ => !(op.isF && w)
  | .gsort _ _ t _ _ => t == .s32 || t == .z32 || t == .f32
  | .ld h _ _ _ m | .st h _ _ _ m | .lds h _ _ _ m | .sts h _ _ _ m | .ldsb h _ _ m | .pref h _ m =>
      m.opOk h [.rlx] false
  | .ldk h sz _ _ m | .stk h sz _ _ m => sz != 6 && m.mode == .s && m.opOk h [.rlx] false
  | .lda h sz _ m => sz != 6 && m.opOk h [.rlx, .acq] true
  | .str h sz _ m => sz != 6 && m.opOk h [.rlx, .rel] true
  | .atom h op t _ m _ => atomTyOk op t false && m.opOk h [.rlx, .acq, .rel, .ar] true
  | .atoms h op t _ m _ => atomTyOk op t true && m.opOk h [.rlx, .acq, .rel, .ar] true
  | .cas h _ _ m _ | .cass h _ _ m _ => m.opOk h [.rlx, .acq, .rel, .ar] true
  | .red h op t m _ => atomTyOk op t true && m.opOk h [.rlx, .rel] true
  | .fence _ o _ => o != .rlx
  | .cpa h _ size _ _ _ ds dd => size != 3 && (h.len == .w3 || (ds == 0 && dd == 0))
  | .tcopy h _ _ _ _ _ desc | .tcopym h _ _ _ _ desc _ => match desc with
      | .reg _ => h.len == .w3
      | .lit _ => h.len == .w5
  | .binit h _ v | .barv h _ v | .bexp h _ v => v.encOk h
  | .waitn _ n _ => decide (n.toNat ≤ 4)
  | .trig _ c t =>
      (match c with
       | .ctr n => decide (n.toNat ≤ 4)
       | TrigCond.bar _ => match t with
         | .imm w => w.toNat ≤ 1
         | .reg _ => true)
  | .mma _ _ ta tb tc _ _ _ | .mmaq _ _ ta tb tc _ _ _ => matTypesOk ta tb tc
  | .mmv _ tw tv tc _ _ _ _ _ _ => matTypesOk tw tv tc && tw.isFloat
  | .scacc _ tp _ _ _ _ => tp == .f32 || tp == .s32
  | .accrd _ n _ _ c => decide (c.toNat + n.toNat + 1 ≤ 32)
  | .accwr _ n _ _ c => decide (c.toNat + n.toNat + 1 ≤ 32)
  | .gather h m _ f32 _ _ _ n stat => n.opOk && statOk h stat (m == .wsum) && !(m == .plain && f32)
  | .scatr h _ _ _ _ _ _ n stat | .scatw h _ _ _ _ _ n stat => n.opOk && statOk h stat false
  | .klook h _ _ _ _ _ _ stat | .kgrad h _ _ _ _ stat => statOk h stat false
  | .gstat _ _ sd => !sd.ix
  | .hdesc _ f _ _ sb => decide (f.toNat ≤ 5) && (f == 4 || f == 5 || sb == .zero)
  | .xstat _ f sd => decide (f.toNat ≤ 3) && !sd.ix
  | .enq h _ _ _ q => q.encOk h && (match q with | .imm w => decide (w.toNat < 64) | _ => true)
  | .enqb h _ _ _ q => q.encOk h && (match q with | .imm w => decide (w.toNat < 64) | _ => true)
  | .qstat _ f _ _ => decide (f.toNat ≤ 3)
  | .rwr h z _ _ _ bn | .rrd h z _ _ _ bn => decide (z.toNat ≤ 10) && (h.len == .w3 || bn == none)
  | .rred h op t z ncon _ _ _ bn =>
      decide (z.toNat ≤ 10) && atomTyOk op t true && op != .exch && (h.len != .w3 || 2 ^ (z.toNat + 2) % (t.bits / 8) == 0) &&
      (h.len == .w3 || (z == 0 && ncon == 0 && bn == none))
  | .rflag h _ _ _ _ _ bn => h.len == .w3 || bn == none
  | .csig _ f _ _ sr => decide (f.toNat ≤ 2) && (f == 0 || sr == .zero)
  | .csrr _ n sd => csrOk n && !sd.ix
  | .csrw _ n _ => csrOk n
  | _ => true

/-- The header of a branch form or a one-word form has no XS field (R46, Table 5.2). -/
def Instr.hasXs : Instr → Bool
  | .bra .. | .brc .. | .brx .. | .call .. | .loop .. => false
  | i => match i.head with
    | some (h, _) => h.len != .w1
    | none => false

/-- Step 3 of Table 5.5: SUB and MOD values, register ranges and pair bases; a failure is ILLOP. -/
def Instr.opOk (i : Instr) : Bool :=
  match i.head with
  | none => false
  | some (h, _) =>
    i.subOk && (i.opnds ++ i.slotOpnds 1).all (·.opOk) &&
    (if i.hasXs then xsOk h (i.opnds ++ i.slotOpnds 1) else h.xs == 0) &&
    (match i.bImm with | some (b, t) => b.immOk h t && b.encOk h | none => true) &&
    (match i.sSrc with | some b => b.encOk h | none => true)

/-- Step 4 of Table 5.5: the form restrictions; a failure is ILLFORM. -/
def Instr.formOk (i : Instr) : Bool :=
  match i.head with
  | none => false
  | some (h, _) =>
    (match i.bImm with | some (b, _) => b.formOk h | none => true) &&
    (match i.sSrc with | some b => b.formOk h | none => true) &&
    (match i with
     | .smov _ _ (.special n) => !(n == 0 || n == 1 || n == 2 || n == 3 || n == 8 || n == 0x0C)
     | .mov _ t _ b => (h.len != .w5 || t.is64) && (match b with
         | .special n => !t.is64 || n == 0x0A
         | _ => true)
     | .tcopym _ _ _ _ _ desc _ => match desc with
         | .reg _ => true
         | .lit _ => false
     | .binit _ _ v | .barv _ _ v | .bexp _ _ v => v.formOk h
     | .waitn _ _ t => t != .word
     | .gather _ m _ _ _ _ _ _ stat => !(m == .wsum && stat == none)
     | .enq _ _ _ _ (.imm _) | .enqb _ _ _ _ (.imm _) | .rred .. => h.len == .w3
     | _ => true)

end Sys2Proof
end

