-- ==== Sys2Proof/Machine/Map.lean ====
section
/-! DEFINITION. Sparse maps with a default: lists of (key, value) pairs in one canonical form, keys strictly rising and
no entry equal to the default, so that equal maps are equal data. Memory, register files and tables are such maps. -/

namespace Sys2Proof.Machine

/-- A sparse map: keys strictly rising, no entry equal to the default that an unlisted key reads as. -/
abbrev Map (β : Type) := List (Nat × β)

/-- What a key reads as. -/
def Map.get {β : Type} (d : β) : Map β → Nat → β
  | [], _ => d
  | (k, v) :: m, i => if i = k then v else Map.get d m i

/-- Replacing the entry of a key, without regard to the default. -/
def Map.put {β : Type} : Map β → Nat → β → Map β
  | [], i, x => [(i, x)]
  | (k, v) :: m, i, x =>
    if i = k then (k, x) :: m else if i < k then (i, x) :: (k, v) :: m else (k, v) :: Map.put m i x

/-- Removing the entry of a key. -/
def Map.del {β : Type} (m : Map β) (i : Nat) : Map β := m.filter fun p => p.1 != i

/-- Writing a key: writing the default removes the entry. -/
def Map.set {β : Type} [DecidableEq β] (d : β) (m : Map β) (i : Nat) (x : β) : Map β :=
  if x = d then Map.del m i else Map.put m i x

/-- Writing several keys, in order. -/
def Map.sets {β : Type} [DecidableEq β] (d : β) (m : Map β) : List (Nat × β) → Map β
  | [] => m
  | (i, x) :: l => Map.sets d (Map.set d m i x) l

/-- The canonical form: keys strictly rising and no entry equal to the default. -/
def Map.wf {β : Type} [DecidableEq β] (d : β) : Map β → Bool
  | [] => true
  | (_, v) :: [] => v != d
  | (k, v) :: (k', v') :: m => v != d && decide (k < k') && Map.wf d ((k', v') :: m)

/-- The entries whose keys lie in [lo, hi). -/
def Map.range {β : Type} (m : Map β) (lo hi : Nat) : Map β := m.filter fun p => decide (lo ≤ p.1 ∧ p.1 < hi)

/-- Without the entries whose keys lie in [lo, hi). -/
def Map.dropRange {β : Type} (m : Map β) (lo hi : Nat) : Map β := m.filter fun p => !decide (lo ≤ p.1 ∧ p.1 < hi)

/-- The values of n keys from a key on, for a map without lower keys. -/
def Map.dense {β : Type} (d : β) : Nat → Nat → Map β → List β
  | 0, _, _ => []
  | n + 1, k, [] => d :: Map.dense d n (k + 1) []
  | n + 1, k, (i, v) :: m =>
    if i = k then v :: Map.dense d n (k + 1) m else d :: Map.dense d n (k + 1) ((i, v) :: m)

/-- Replacing the values of the keys from a key on, as many as are given. -/
def Map.splice {β : Type} [DecidableEq β] (d : β) (m : Map β) (k : Nat) (vs : List β) : Map β :=
  m.filter (fun p => decide (p.1 < k)) ++
  (vs.zipIdx.filterMap fun p => if p.1 = d then none else some (k + p.2, p.1)) ++
  m.filter fun p => decide (k + vs.length ≤ p.1)

/-- Looking up a present entry. -/
def Map.find? {β : Type} : Map β → Nat → Option β
  | [], _ => none
  | (k, v) :: m, i => if i = k then some v else Map.find? m i

/-- Changing the value of a present entry. -/
def Map.modify {β : Type} (m : Map β) (i : Nat) (f : β → β) : Map β :=
  m.map fun p => if p.1 = i then (p.1, f p.2) else p

/-- Inserting by a key into a list in ascending order of the key. -/
def insBy {α : Type} (key : α → Nat) (x : α) : List α → List α
  | [] => [x]
  | y :: l => if key x < key y then x :: y :: l else y :: insBy key x l

/-- A stable sort by a key, ascending. -/
def sortBy {α : Type} (key : α → Nat) (l : List α) : List α := l.foldl (fun acc x => insBy key x acc) []

end Sys2Proof.Machine
end

