-- ==== Sys2Proof/Machine/State.lean ====
section
/-! DEFINITION. The state of one HX9 package as plain data: cores with their groups' registers, the memory hierarchy,
launches, queues and the graph walker, the fabric, and the management side. `State.reset` is the package before
bring-up (30 R377). -/

namespace Sys2Proof.Machine

/-- Why a step stops. -/
inductive Fault where
  /-- Raised by `exec` of a machine instruction when no split of the machine is selected to issue it: no such step
  exists on the hardware. Safe: a claim about a run never goes through it. -/
  | noIssuer
  deriving DecidableEq, Repr

/-- Why an instruction has no meaning here. -/
inductive Refusal where
  /-- Raised by an arm of `exec` for an instruction without a meaning yet. Safe: nothing is claimed of it. -/
  | notModelled (mnemonic : String)
  deriving DecidableEq, Repr

/-! ## Groups -/

/-- A place that a result is written to (05 R57): one lane of a vector register, a scalar register (64 to 67 name x0 to x3,
R51), a mask register, a lane's flags, or one 4-byte element of a tile. -/
inductive Loc where
  | v (n lane : Nat)
  | s (n : Nat)
  | k (n : Nat)
  | flg (lane : Nat)
  | a (n i : Nat)
  deriving DecidableEq, Repr

/-- A fixed-latency write in flight (05 R57, R58): the writing split, the place, the bits written, the value before and
after, the stall distance still open, the time at which it lands and whether it has landed. -/
structure Pend where
  split : Nat
  loc : Loc
  mask : DWord
  old : DWord
  new : DWord
  dist : Nat
  landsAt : Nat
  landed : Bool
  deriving DecidableEq, Repr

/-- An entry of the checking scoreboard (05 R58): a destination register of a split (0 vector, 1 class 0x1, 2 mask,
3 flags) and the stall distance still open. -/
structure Score where
  split : Nat
  cls : Nat
  reg : Nat
  dist : Nat
  deriving DecidableEq, Repr

/-- A tensor handle entry as decoded (18 R246). -/
structure Handle where
  bound : Bool
  wr : Bool
  fmt : ElemTy
  shard : Nat
  place : Bool
  die : Nat
  rb : Nat
  seed : Nat
  nrows : Nat
  base : Nat
  pkglo : Nat
  pkgn : Nat
  deriving DecidableEq, Repr

/-- One non-null slot of a gather-class operation (18 R250, R257): its lane and position, the index and weight, the home
package and address of its row, the fault found, the row's bytes, whether they have come and been placed, and the detail
of the fault (26 R326). -/
structure GSlot where
  lane : Nat
  pos : Nat
  idx : Word
  wt : Word
  pkg : Nat
  va : DWord
  cause : Option Cause
  pages : Pages
  row : List Byte
  got : Bool
  placed : Bool
  detail : DWord := 0
  deriving DecidableEq, Repr

/-- A GATHER, or the gather phase of a KLOOK, with its captured operands (18 R256, 20 R280): mode, .F32, .TRAP, whether it is
a KLOOK's with its record area, the handle, the scratch base, slots per lane, the participating lanes, the slots, the status operands, the
package partials that have come (lane, package, elements), whether its requests have been sent, the lanes whose KLOOK
record has been written, and a KLOOK's captured selection: lane, indices with their weights (20 R283). -/
structure GOp where
  mode : GMode
  f32 : Bool
  trap : Bool
  key : Option Nat
  hnum : Nat
  h : Handle
  base : Int
  n : Nat
  lanes : Word
  slots : List GSlot
  stat : Option GStat
  parts : List (Nat × Nat × List Word)
  sent : Bool
  recs : Word := 0
  sels : List (Nat × List (Nat × Nat)) := []
  deriving DecidableEq, Repr

/-- A combined scatter update (18 R265, R266): the row, its package and address, the positions that name it, the folded
elements or the row's bytes, whether it has been performed or refused, and the detail of its fault (26 R326). -/
structure SUpd where
  idx : Word
  pkg : Nat
  va : DWord
  poss : List Nat
  vals : List Word
  row : List Byte
  done : Bool
  cause : Option Cause
  pages : Pages
  detail : DWord := 0
  deriving DecidableEq, Repr

/-- A SCATR (with an operation), SCATW or KGRAD (with the record area and k), with its captured operands (18 R256, 20
R281); whether its source has been read, its updates, and whether it sends refused ones again (R260). -/
structure SOp where
  op : Option SMode
  f32 : Bool
  trap : Bool
  hnum : Nat
  h : Handle
  base : Int
  n : Nat
  lanes : Word
  slots : List GSlot
  stat : Option GStat
  key : Option (Nat × Nat)
  read : Bool
  upds : List SUpd
  again : Bool := false
  deriving DecidableEq, Repr

/-- What holds a split at its instruction (05 R57, R60, 09, 14, 16, 20, 22, 26, 28). -/
inductive Hold where
  /-- Nothing. -/
  | run
  /-- A REFILL that waits for an item, and when its request arrived (R20, R30). -/
  | refill (kd since : Nat)
  /-- YIELD: the time at which it ends and the splits that have issued since (R105). -/
  | yield (till : Nat) (issued : List Nat)
  /-- SPINH: the time at which it ends (R106). -/
  | spinh (till : Nat)
  /-- SYNCS (R107). -/
  | syncs
  /-- FENCE, ACQ, REL: the order, the scope, the markers placed in FIFOs so far and whether all are placed, and the
  number of the group's first operation after it (R206, R171). -/
  | fence (o : Order) (sc : Scope) (marks : List (FifoRef × Nat)) (placed : Nat) (first : Nat)
  /-- BAR and CBAR: waiting for the instance, and the length of the instruction in words (R207). -/
  | bar (cluster : Bool) (inst : Nat) (len : Nat)
  /-- BWAIT (R212). -/
  | bwait (b : Nat) (p : Bool)
  /-- WAITN (R209). -/
  | waitn (n : Nat) (t : Nat)
  /-- MMAQ at its rendezvous (R233). -/
  | mmaq (inst : Nat)
  /-- KLOOK's selection: when it ends, the gather it will issue, the score base, NK, k and the record area (R277). -/
  | klook (till : Nat) (q : GOp) (sq nk k rec : Nat)
  /-- XPND, XNEXT or SEGRED at the rendezvous of its span (R288). -/
  | span (inst : Nat)
  /-- RFENCE: the first operation after it, and the .SYS release's markers as for a fence (R361). -/
  | rfence (first : Nat) (marks : List (FifoRef × Nat)) (placed : Nat)
  /-- Stopped by TRAP or BRK until RELEASE (R331). -/
  | stop (seq : Nat)
  /-- A fault held by RETRY, or reported beyond the grid, until RESOLVE (R40). -/
  | fault (seq : Nat)
  /-- Demoted by the spin detector until the time (R37). -/
  | demoted (till : Nat)
  deriving DecidableEq, Repr

/-- What the target checks of R100 still have to look at, when a split has arrived by a branch. -/
inductive Arrived where
  | seq
  | branch
  | brx (fall : DWord)
  deriving DecidableEq, Repr

/-- A split (03 R32, R36): its number, mask, PC, reconvergence address, its join record, whether it holds a table entry
and which, its spin count, what holds it, when it may issue again (05 R58), the lanes that RETRY reissues, the length
of the instruction it has issued last, 0 once it has passed it, the instance of a group barrier or a cluster barrier that it
had arrived at when its team stopped (26 R339), and the refill point where it goes on at the end of its instruction, once
every lane of its group has been vacated meanwhile (R27). -/
structure Split where
  id : Nat
  mask : Word
  pc : DWord
  rpc : Option DWord
  parent : Option Nat
  entry : Option Nat
  rank : Nat
  quiet : Nat
  loud : Bool
  hold : Hold
  readyAt : Nat
  issuedAt : Nat
  arrivedBy : Arrived
  only : Option Word
  words : Nat
  bar : Option (Bool × Nat) := none
  leave : Option DWord := none
  deriving DecidableEq, Repr

/-- A join record (03 R33): its reconvergence address, the saved RPC, its own parent record, and the masks of the
children that have arrived. -/
structure Join where
  id : Nat
  j : Option DWord
  saved : Option DWord
  parent : Option Nat
  rank : Nat
  arrived : List Word
  deriving DecidableEq, Repr

/-- A space of a footprint region (12 R187): scratch of a team, global virtual addresses, tiles, a queue; for the
accesses of classes 0x8 and 0x9 also physical addresses, and the tag table (12 R163, R167). -/
inductive Space where
  | scratch (team : Nat)
  | glob
  | tile
  | queue
  | phys
  | tags
  deriving DecidableEq, Repr

/-- A footprint region: space, byte interval [lo, hi) and direction (12 R187). -/
structure Region where
  sp : Space
  lo : Int
  hi : Int
  wr : Bool
  deriving DecidableEq, Repr

/-- A byte of a checked global access: its resolved physical address and whether its page is UC. -/
structure PByte where
  pa : Nat
  uc : Bool
  deriving DecidableEq, Repr

/-- The memory side of one lane's access: bytes in scratch from an offset, or translated global bytes (R192, R199). -/
inductive Where where
  | scr (off : Nat) (n : Nat)
  | glb (va : DWord) (bs : List PByte)
  deriving DecidableEq, Repr

/-- One lane's access of a load, store or atomic: what it stores, or the bytes already loaded, its comparand, and the bytes
that pieces performed early have moved (12 R169). -/
structure LaneAcc where
  lane : Nat
  at_ : Where
  data : BitVec 128
  cmp : DWord
  got : BitVec 16 := 0
  deriving DecidableEq, Repr

/-- A remote transfer of one lane (28 R355): peer, remote address, scratch offset, the captured bytes, its packet in the
retransmit store, its outcome with the detail of a fault (26 R326), whether RETRY has sent it again, and for an RRD whether
its bytes were placed before RETRY reissued other lanes. -/
structure RXfer where
  lane : Nat
  peer : Nat
  va : DWord
  off : Nat
  data : List Byte
  pkt : Option Nat
  done : Bool
  cause : Option Cause
  pages : Pages
  detail : DWord := 0
  again : Bool := false
  placed : Bool := false
  deriving DecidableEq, Repr

/-- A row that an ENQ or ENQB appends (22 R299): its lane, its scratch offset, its queue and its class. -/
structure ERow where
  lane : Nat
  off : Nat
  q : Nat
  cls : Nat
  deriving DecidableEq, Repr

/-- What an operation in flight is, with the operands captured at issue. -/
inductive OpKind where
  | load (rd : Nat) (sz : BitVec 3) (accs : List LaneAcc)
  | loadK (sd : Nat) (sz : BitVec 3) (acc : LaneAcc)
  | loadBlock (rd n : Nat) (accs : List LaneAcc)
  | const (sd : Nat) (bs : List PByte) (first : DWord)
  | store (sz : Nat) (accs : List LaneAcc)
  | value (locs : List (Loc × DWord))
  | lookup (rd : Nat) (keys : List (Nat × DWord))
  | tagset (ents : List (Nat × Option DWord))
  | atomic (op : Option AtomOp) (t : ElemTy) (rd : Option Nat) (accs : List LaneAcc)
  | copy (accs : List (Nat × Where × Where))
  | cpaRaw (size : Nat) (dir : CopyDir) (lanes : List (Nat × DWord × DWord))
  | tcopy (dir : CopyDir) (src dst : DWord) (esz : Nat) (ns : List Nat) (ss ds : List Int)
      (members : List Nat)
  | mma (d : Nat) (ta tb : ElemTy) (tc : AccTy) (rows : List (List Word)) (occ : Word)
      (cols : List (List (List Word) × Word)) (slabs : List Nat)
  | mmv (d : Nat) (tw tv : ElemTy) (tc : AccTy) (sw ss : DWord) (nr : Nat) (xs : List (List (List Word))) (occ : Word)
  | mlut (m : LutMode) (d a : Nat) (planes : List (List Word)) (occ : Word)
  | gather (q : GOp)
  | scatter (q : SOp)
  | enq (close bins : Bool) (tgt : Nat) (vd : Nat) (rows : List ERow) (res : List (Nat × Word)) (bad : List (Nat × Cause))
  | rwr (n : Nat) (xs : List RXfer)
  | rrd (n : Nat) (xs : List RXfer)
  | rred (op : AtomOp) (t : ElemTy) (n ncon : Nat) (xs : List RXfer)
  | rflag (op : FlagOp) (w64 : Bool) (xs : List RXfer)
  | csig (f : Nat) (peer : Nat) (va : DWord) (sd : Nat) (res : Option DWord)
  | hdesc (sd : Nat) (v : DWord)
  | qstat (sd : Nat) (f : Nat) (q : Nat)
  deriving DecidableEq, Repr

/-- The condition that an armed triggered operation waits for (14 R221). -/
inductive TrigWait where
  | ctr (n : Nat) (ops : List Nat) (t : Nat)
  | bar (b : Nat) (p : Bool)
  deriving DecidableEq, Repr

/-- An operation in flight (14 R208, R188): its number, what it is, its counters with its position
among the operations issued on each, the PC, the split and its mask at issue,
its order and scope, the %age of every lane then, the operations it waits for, its footprint, the barrier register it updates and with how many
bytes, its trigger, marks of pre-emption and of the lanes that a RETRY reissues, the places whose results a later write
has overtaken (05 R57), and the first number of an operation that RETRY has issued again. -/
structure Op where
  id : Nat
  kind : OpKind
  nth : List (Nat × Nat)
  pc : DWord
  split : Nat
  mask : Word
  ord : Order
  scope : Scope
  ages : List Word
  items : List (BitVec 48)
  deps : List Nat
  fp : List Region
  bn : Option Nat
  bytes : Nat
  trig : Option TrigWait
  engine : Bool
  waitRetry : Bool
  abandoned : Bool
  done : Bool
  at_ : Nat
  skip : List (Loc × DWord) := []
  first : Option Nat := none
  deriving DecidableEq, Repr

/-- An engine fault that waits for its observing instruction (14 R219, 18 R260, 28 R359): the operation, its counter and
barrier register, the cause, the lanes, the address, the pages of a PAGE or PROT, the detail, how RETRY reissues it, and
the pages that belong to one lane each (26 R324). -/
structure EFault where
  op : Op
  cause : Cause
  lanes : Word
  addr : DWord
  pages : Pages
  detail : DWord
  remote : Bool
  stands : Bool
  bar : Option Nat
  own : List (Nat × Pages) := []
  deriving DecidableEq, Repr

/-- The expansion state that each member of a span keeps (22 R286). -/
structure Expand where
  span : Span
  starts : List Word
  lens : List Word
  pre : List Nat
  total : Nat
  cur : Nat
  rounds : Nat
  killed : List Bool
  own : List Word
  iter : List (Option (Nat × Nat × Nat))
  deriving DecidableEq, Repr

/-- The instructions that rendezvous in a span (22 R288 to R291). -/
inductive SpanKind where
  | xpnd (sp : Span)
  | xnext (item : Bool)
  | segred (op : RedOp) (d : Nat)
  deriving DecidableEq, Repr

/-- One arrival of a member at the rendezvous of its span (22 R288 to R291): the member, its instruction, its destination
registers, the source values of its lanes (starts and lengths, or terms), and its occupied lanes. -/
structure SpanArr where
  grp : Nat
  split : Nat
  kind : SpanKind
  dst : List Nat
  vals : List (List Word)
  occ : Word
  deriving DecidableEq, Repr

/-- One arrival of a member at a quartet rendezvous (16 R233). -/
structure QuartArr where
  grp : Nat
  split : Nat
  async : Bool
  ta : ElemTy
  tb : ElemTy
  tc : AccTy
  d : Nat
  rows : List (List Word)
  cols : List (List Word)
  occ : Word
  op : Option Nat
  deriving DecidableEq, Repr

/-- A group (03 Table 3.1): its registers, its lanes, its splits, its operations in flight and its own status. -/
structure Group where
  grp : Nat
  live : Bool
  vregs : Map Word
  sregs : Map DWord
  kregs : Map Word
  tiles : Map Word
  tflags : Map (BitVec 2)
  occ : Word
  item : Map (BitVec 48)
  age : Map Word
  flg : Map (BitVec 5)
  gctl : BitVec 9
  gsr : DWord
  frec : List DWord
  region : BitVec 8
  splits : List Split
  joins : List Join
  nextId : Nat
  pend : List Pend
  score : List Score
  ops : List Op
  ctrs : List (List (Nat × Bool))
  ctot : List Nat
  nextOp : Nat
  efaults : List EFault
  xp : Option Expand
  mmaqs : Nat
  spans : Nat
  barAt : Nat
  yielded : Bool
  badRegs : List Loc
  deriving DecidableEq, Repr

/-! ## Teams, clusters, launches -/

/-- A barrier register (14 Table 14.9). -/
structure BarReg where
  arrb : Nat
  expb : Nat
  phase : Bool
  arrm : Nat
  expm : Nat
  deriving DecidableEq, Repr

/-- An instance of BAR or CBAR (14 R207): its number, the groups that have arrived (team, group), the expected count
and whether an L = 01 arrival fixed it. -/
structure BarInst where
  num : Nat
  arrived : List (Nat × Nat)
  expect : Option Nat
  fixed : Bool
  deriving DecidableEq, Repr

/-- A block that a team holds (03 R19): its number and the next item of it not yet handed out. -/
structure Held where
  blk : Nat
  pos : Nat
  deriving DecidableEq, Repr

/-- A race record (12 Table 12.5). -/
structure Race where
  slot : Nat
  region : BitVec 8
  wm : BitVec 16
  rm : BitVec 16
  deriving DecidableEq, Repr

/-- Where a team stands (26 R337 to R341): running, in its notice interval, saved in a slot, stopped with its operations
still draining, drained and held in place, or retired. -/
inductive TeamSt where
  | running
  | notice (since : Nat)
  | saved (slot : Nat)
  | held
  | parked
  | retired
  deriving DecidableEq, Repr

/-- Why a team was pre-empted, which says who may resume it (24 R316, 26 R341). -/
inductive PreWhy where
  | priority
  | grid
  | system
  deriving DecidableEq, Repr

/-- A team (03 R16): its identity, place, groups, scratch window with its offset in the core's scratchpad (12 R160), tag
table, barrier registers, blocks, the open and the complete instances of its group barrier, when it asked for the block that
it waits for (R19), and the context record that was written when it was saved (26 R342). -/
structure Team where
  id : Nat
  launch : Nat
  num : Nat
  clus : Nat
  pos : Nat
  core : Nat
  st : TeamSt
  why : Option PreWhy
  groups : List Group
  scratch : Map Byte
  scrBad : List Nat
  tags : Map (Option DWord)
  bars : List BarReg
  cur : Option Held
  nxt : Option Held
  wantBlk : Bool
  barInst : BarInst
  barDone : List BarInst
  quartArr : List (Nat × Nat × QuartArr)
  spanArr : List (Nat × Nat × SpanArr)
  scrRace : Map (List Race)
  handles : Map Byte
  startedAt : Nat
  recordOk : Bool
  scrOff : Nat
  asked : Nat := 0
  record : List Byte := []
  deriving DecidableEq, Repr

/-- A cluster barrier (14 R207). -/
structure Cluster where
  id : Nat
  launch : Nat
  num : Nat
  teams : List Nat
  barInst : BarInst
  barDone : List BarInst
  deriving DecidableEq, Repr

/-- A kernel descriptor (24 Table 24.1). -/
structure Kernel where
  entry : DWord
  refill : Nat
  vregs : Nat
  sregs : Nat
  acc : Nat
  team : Nat
  clw : Nat
  clh : Nat
  scratch : Nat
  tags : Nat
  fresh : BitVec 256
  deriving DecidableEq, Repr

/-- Containment actions (03 R38). -/
inductive Action where
  | ign | retry | kself | kparent
  deriving DecidableEq, Repr

/-- A dependency descriptor (24 Table 24.5). -/
structure Dep where
  pnode : Nat
  d : Nat
  a : Nat
  lo : Int
  hi : Int
  bitmap : DWord
  deriving DecidableEq, Repr

/-- A launch descriptor (24 Table 24.2). -/
structure LDesc where
  items : Nat
  lblk : Nat
  prio : Nat
  inh : Bool
  stagger : Nat
  policy : List Action
  const : DWord
  csize : Nat
  fed : Bool
  part : Bool
  qnum : Nat
  ring : DWord
  nslot : Nat
  pcores : Nat
  htab : DWord
  mcast : List (BitVec 16)
  dep0 : Option Dep
  dep1 : Option Dep
  save : DWord
  doneAt : DWord
  deriving DecidableEq, Repr

/-- The status of a launch (24 Table 24.3). -/
inductive LaunchSt where
  | running | ending | complete | killed | incomplete | refused
  deriving DecidableEq, Repr

/-- A fault that waits for system software (26 R323, 30 R368): its SEQ, the split or group it stopped, its origin level,
its cause (none for lost items, R371) and lanes, whether it suspended the launch, what held the split then, the engine fault it came from, and whether it is a fetch
fault (05 R47). -/
structure Report where
  seq : Nat
  team : Nat
  grp : Nat
  split : Nat
  level : Nat
  cause : Option Cause
  lanes : Word
  grid : Bool
  trapStop : Bool
  held : Hold
  eng : Option EFault
  fetch : Bool := false
  deriving DecidableEq, Repr

/-- A block that has been drawn (24 R313): the team that holds it, when it was drawn, the items of it counted as exited,
killed or lost, and the time of the last count. -/
structure Blk where
  blk : Nat
  team : Nat
  drawn : Nat
  counted : Nat
  last : Nat
  deriving DecidableEq, Repr

/-- A launch (03 R18, R41): its descriptor, the kernel, its constant block as it was when the launch was created (09
R119), whether a fault suspends it and whether system software has pre-empted it whole, the completion bitmaps that it owns (24
R313), its counts, its blocks, its outstanding faults, and for a fed launch whose queue another launch has taken over the items
appended to it and whether it was closed (22 R298). -/
structure Launch where
  id : Nat
  ctx : Nat
  queue : Nat
  node : Nat
  desc : LDesc
  kern : Kernel
  const0 : Map Byte
  st : LaunchSt
  suspended : Bool
  paused : Bool
  killing : Bool
  exited : Nat
  killed : Nat
  lost : Nat
  nfault : Nat
  seq : Nat
  returned : List Nat
  blks : List Blk
  blkDone : List Nat
  nextTeam : Nat
  nextClus : Nat
  started : Bool
  reports : List Report
  usedCores : List Nat
  slots : List Nat
  lastStart : Map Nat
  partCores : List Nat
  partOk : Bool
  held : List Nat
  createdAt : Nat
  bitmaps : List DWord := []
  fedEnd : Option (Nat × Bool) := none
  deriving DecidableEq, Repr

/-- A graph node as placed (24 Table 24.4) with its pending count, its mark that a run has arrived, and where it stands: 0
not run, 1 running, 2 finished, 3 skipped (R309). -/
structure GNode where
  ty : Nat
  npred : Nat
  tile : Bool
  succ : List (Option Nat)
  arg : DWord
  pending : Nat
  mark : Bool
  state : Nat
  deriving DecidableEq, Repr

/-- An arrival on its way to a graph node (R309): a skip or a run, whether it comes along a back edge, and whether it is the
start of a node without incoming edges. -/
structure GArr where
  node : Nat
  skip : Bool
  back : Bool
  first : Bool := false
  deriving DecidableEq, Repr

/-- A launch queue of the Marver die (24 R308, 22 R297): the graph placed in it, its arrivals on their way, and the feed
of a fed launch. -/
structure LQueue where
  ctx : Nat
  nodes : List GNode
  arrivals : List GArr
  busy : Bool
  fedBy : Option Nat
  appended : Nat
  dispensed : Nat
  freed : Nat
  freedAhead : List Nat
  closed : Bool
  deriving DecidableEq, Repr

/-! ## The memory hierarchy -/

/-- A 64-byte cache line with its valid and dirty byte masks (12 R164). -/
structure Line where
  valid : BitVec 64
  dirty : BitVec 64
  data : BitVec 512
  deriving DecidableEq, Repr

/-- An entry of a dirty-line FIFO: a line, or a release's marker (12 R165). -/
inductive FEnt where
  | line (a : Nat)
  | mark (m : Nat)
  deriving DecidableEq, Repr

/-- A cached valid leaf (26 R335): context, page base and size, and the entry. -/
structure TlbEnt where
  ctx : Nat
  base : Nat
  bits : Nat
  pa : Nat
  perm : BitVec 4
  deriving DecidableEq, Repr

/-- An operation queued on a bench's matrix array, the time it holds the array, its latency, and when it started (16
R228). -/
structure MatQ where
  bench : Nat
  team : Nat
  grp : Nat
  op : Nat
  cc : Nat
  lat : Nat
  started : Option Nat
  deriving DecidableEq, Repr

/-- A core (01 R10): its L1, dirty-line FIFO, race records, TLBs, matrix queue and reset time. -/
structure Core where
  l1 : Map Line
  fifo : List FEnt
  race : Map (List Race)
  tlb : List TlbEnt
  btlb : List (Nat × TlbEnt)
  matq : List MatQ
  matFree : List Nat
  resetAt : Nat
  slots : List (Nat × Nat × Nat)
  deriving DecidableEq, Repr

/-- A compute die (12 R166): its cache, the FIFO of remote-homed dirty lines, and its TLB. -/
structure Die where
  dc : Map Line
  fifo : List FEnt
  tlb : List TlbEnt
  deriving DecidableEq, Repr

/-- The classes of a bin set that system software has defined (22 Table 22.5). -/
structure BinSet where
  qs : List Nat
  bounds : List Nat
  deriving DecidableEq, Repr

/-- A context that system software has set up: its root table, its function, its bin sets (26 R332, 22 R299). -/
structure Context where
  id : Nat
  root : Nat
  vf : Nat
  bins : Map (Option BinSet)
  deriving DecidableEq, Repr

/-- An invalidation that has been requested (26 R336), with the leaves that TLBs held for its range then. -/
structure Inval where
  id : Nat
  ctx : Nat
  lo : Nat
  hi : Nat
  olds : List TlbEnt
  deriving DecidableEq, Repr

/-- A TLB of the package (26 R335): a bench's, a core's, a compute die's. -/
inductive TlbRef where
  | bench (core b : Nat)
  | core (c : Nat)
  | die (d : Nat)
  deriving DecidableEq, Repr

/-! ## The fabric -/

/-- The ends of a die-to-die link (01 R9). -/
inductive LinkNode where
  | die (d : Nat)
  | marver
  deriving DecidableEq, Repr

/-- The sixteen directions of the die-to-die links: each compute die joins the Marver die and its two neighbours on the
ring (01 R9); which numbers are neighbours is the model's choice (log entry 79). -/
def linkEnds : List (LinkNode × LinkNode) :=
  (List.range 4).flatMap (fun d => [(.die d, .marver), (.marver, .die d)]) ++
  (List.range 4).flatMap fun d => [(.die d, .die ((d + 1) % 4)), (.die ((d + 1) % 4), .die d)]

/-- A direction of a die-to-die link (28 R345, R346, R347), with its ends. Sender: its two key slots, the slot in use, the flits sent
under its key, whether the idle slot holds a key not yet used, the next sequence number, the replay buffer (sequence
number, slot, channel and packet), for each channel the queued packets, the time at which its head last advanced and the packets spilled,
and whether it stalls for a key. Receiver: its two key slots, the slot of the last flit, the number it expects, the flit
whose tag failed once, and the packets taken. -/
structure Link where
  src : LinkNode
  dst : LinkNode
  keys : List (Option (BitVec 256))
  slot : Bool
  sent : Nat
  fresh : Bool
  seq : Nat
  replay : List (Nat × Bool × Nat × Nat)
  chans : Map (List Nat)
  since : Map Nat
  spilled : Map (List Nat)
  stalled : Bool
  rkeys : List (Option (BitVec 256))
  rslot : Bool
  expect : Nat
  mism : Option Nat
  got : List (Nat × Nat)
  deriving DecidableEq, Repr

/-- A packet of the retransmit store (28 R352): its peer, its message, the operation and the lane it belongs to, its
retransmissions, for a contribution whether its first acknowledgement has freed its capture, and the path over which it was
sprayed (R349; none for the small-message class). -/
structure Packet where
  id : Nat
  peer : Nat
  ctx : Nat
  msg : RMsg
  op : ORef
  xfer : Nat
  launch : Nat
  tries : Nat
  firstAt : Nat
  sentAt : Nat
  arrived : Bool
  path : Option Nat := none
  deriving DecidableEq, Repr

/-- The paths to a peer (28 R349): the tiers that system software listed, the tier in use, its live and removed paths,
the event count, whether the peer is unreachable, the place of the round-robin, and the paths that NSCC marks as
congested. -/
structure PeerTab where
  tiers : List (Nat × List Nat)
  tier : Nat
  paths : List Nat
  removed : List Nat
  events : Nat
  down : Bool
  next : Nat := 0
  cong : List Nat := []
  deriving DecidableEq, Repr

/-- A contribution to a reduction round (28 R357). -/
structure Contrib where
  src : Nat
  seq : Nat
  data : List Byte
  pkt : Option Nat
  deriving DecidableEq, Repr

/-- A reduction target and its open round (28 R357). -/
structure Round where
  ctx : Nat
  va : DWord
  size : Nat
  op : AtomOp
  ty : ElemTy
  ncon : Nat
  got : List Contrib
  deriving DecidableEq, Repr

/-- The lanes of another package's (or this one's) RWR that have been performed, and the physical bytes they wrote: where two
lanes write one byte the highest-numbered one's remains (28 R355). -/
structure LaneWrites where
  src : Nat
  instr : ORef
  count : Nat
  lanes : List Nat
  bytes : List (Nat × Nat)
  deriving DecidableEq, Repr

/-- The signature of the last round closed on a target (28 R363, R364). -/
structure Sig where
  ctx : Nat
  va : DWord
  h : DWord
  deriving DecidableEq, Repr

/-! ## Management and security -/

/-- States of a TDISP interface (30 R370). -/
inductive TdiSt where
  | unlocked | locked | run | error
  deriving DecidableEq, Repr

/-- A TDISP interface: PF1 to PF4 are 1 to 4, VF1 to VF64 are 5 to 68 (30 Table 30.1). -/
structure Tdi where
  st : TdiSt
  keys : List (BitVec 256)
  deriving DecidableEq, Repr

/-- Codes of the ERROR response: an unsupported request (30 R370), or a request that the interface's state does not admit
(log entry 7). -/
inductive TdispErr where
  | unsupportedRequest | invalidState
  deriving DecidableEq, Repr

/-- The answer to a TDISP request (30 R370): its version, its capabilities, its report and its state as the package gives
them, the accepted transitions, and the ERROR response. -/
inductive TdispAns where
  | version | capabilities | report | locked | started | stopped
  | state (st : TdiSt)
  | error (code : TdispErr)
  deriving DecidableEq, Repr

/-- What the package answers and reports to the host and on its out-of-band port. -/
inductive HostMsg where
  | delivered (launch seq : Nat) (entry : List Byte)
  | completed (launch : Nat)
  | suspended (launch seq : Nat)
  | lostItems (launch n : Nat)
  | refusedGraph (queue : Nat)
  | refusedCmd
  | alarm (outOfBand : Bool)
  | powerLow
  | invalidated (id : Nat)
  | eccLeft (word : Nat)
  | spdm (ans : List Byte)
  | tdisp (tdi : Nat) (ans : TdispAns)
  | updated
  | updateRefused
  | badRecord (launch team : Nat)
  | cmdDone (seq : Nat)
  | telemetry (w : DWord)
  deriving DecidableEq, Repr

/-- What the package sends to other packages and they must be answered by an event. -/
inductive Outbox where
  | gatherReq (o : ORef) (pkg : Nat)
  | gatherAns (q : PeerGather) (pieces : List GPiece)
  | scatterUpd (o : ORef) (k : Nat)
  | scatterAns (src : Nat) (c : Option Cause) (pages : Pages) (detail : DWord)
  | readReq (o : ORef) (k : Nat)
  | readAns (src : Nat) (a : RAns)
  | ack (src : Nat) (a : RAns)
  | sigReq (o : ORef)
  | sigAns (src : Nat) (h : DWord)
  deriving DecidableEq, Repr

/-- A reply in the retransmit store (28 R350, R352): its number among the packets, the peer, the message, its
retransmissions, and the path over which it was sprayed (R349; none for the small-message class, R351). -/
structure Reply where
  id : Nat
  peer : Nat
  msg : Outbox
  tries : Nat
  firstAt : Nat
  sentAt : Nat
  path : Option Nat
  deriving DecidableEq, Repr

/-- An entry of the management ring that has not completed (30 R368): its sequence number, its command, whether the device
has acted on it, and the invalidation that it waits for. -/
structure Cmd where
  seq : Nat
  cmd : Instr
  acted : Bool
  wait : Option Nat
  deriving DecidableEq, Repr

/-- Where the package stands in bring-up (30 R377, R374). -/
inductive PkgSt where
  | off | up | recovery
  deriving DecidableEq, Repr

/-! ## Choices -/

/-- What happens next: one entry is one step. The agenda holds the choices the surroundings make; a choice whose
condition does not hold passes without effect. -/
inductive Choice where
  /-- A split issues its next instruction. -/
  | issue (r : SRef)
  /-- An event of the opcode table, a completion or a command. -/
  | event (i : Instr)
  /-- Time passes. -/
  | tick (n : Nat)
  /-- A load or an atomic is performed before it completes, so that its elements may land one by one (05 R59). -/
  | perform (o : ORef)
  /-- One element of a performed operation's result lands before the others (05 R59). -/
  | landPart (o : ORef) (i : Nat)
  /-- A piece of every lane's access of a load or store is performed before the other pieces (12 R169). -/
  | piece (o : ORef) (k : Nat)
  /-- A core evicts a line of its L1 (12 R165). -/
  | evictL1 (core line : Nat)
  /-- A die cache evicts a line (12 R166). -/
  | evictDc (die line : Nat)
  /-- A TLB drops its entry of a page (26 R335). -/
  | evictTlb (r : TlbRef) (ctx page : Nat)
  /-- The host or system software writes bytes of memory at its ordering point. -/
  | hostWrite (pa : Nat) (data : List Byte)
  /-- An uncorrectable error strikes an ECC word of memory (26 R326). -/
  | softMem (pa : Nat)
  /-- An uncorrectable error strikes a word of a team's scratch. -/
  | softScratch (team off : Nat)
  /-- An uncorrectable error strikes a register of a group. -/
  | softReg (team grp : Nat) (l : Loc)
  /-- An agent alters the context record of a saved team (26 R342). -/
  | alterRecord (team : Nat)
  /-- System software sets up a context, or changes its root or bin sets. -/
  | setContext (c : Context)
  /-- The demand of the sixteen islands changes (30 R376). -/
  | setDemand (ws : List Nat)
  /-- A key of an IDE stream of a function, PF0 or a TDI, is agreed (30 R369). -/
  | ideKey (fn : Nat) (key : BitVec 256)
  /-- A TDISP request that the package does not support reaches a TDI (30 R370). -/
  | tdispOther (tdi : Nat)
  /-- The answer to a VF's STOP, once its launches have ended (30 R370). -/
  | stopAnswer (tdi : Nat)
  /-- The host writes an entry into the management ring (30 R368). -/
  | ringWrite (seq : Nat) (i : Instr)
  /-- The device acts on the first entry of the ring that it has not acted on. -/
  | ringAct
  /-- The device completes the oldest entry of the ring. -/
  | ringDone
  /-- PF0 assigns a core to a virtual function, or takes it back (30 R367). -/
  | assignCore (core : Nat) (vf : Nat)
  /-- PF0 assigns a launch queue to a virtual function, or takes it back (30 R367). -/
  | assignQueue (q : Nat) (vf : Nat)
  /-- A step of bring-up from 3 to 5 will fail (30 R377). -/
  | bringUpFails (step : Nat)
  /-- PF0 reads the telemetry (30 R377). -/
  | telemetry
  /-- A packet is queued on a channel of a die-to-die link (28 R345). -/
  | queuePacket (link vc : Nat) (p : Nat)
  /-- NSCC marks a path to a peer as congested, or no longer (28 R349). -/
  | congest (peer path : Nat) (on : Bool)
  /-- System software assigns the address of an Ethernet port (28 R348). -/
  | portAddr (port : Nat) (a : BitVec 128)
  deriving DecidableEq, Repr

/-! ## The package -/

/-- The state of a package. -/
structure State where
  now : Nat
  free : Nat
  sel : Option SRef
  agenda : List Choice
  pkg : PkgSt
  mem : Map Byte
  memBad : List Nat
  dies : List Die
  cores : List (Nat × Core)
  ctxs : List Context
  teams : List Team
  clusters : List Cluster
  launches : List Launch
  queues : List (Nat × LQueue)
  nextLaunch : Nat
  nextTeamId : Nat
  nextMark : Nat
  invals : List Inval
  nextInval : Nat
  partWait : List Nat
  pkgNum : Nat
  peers : List (Nat × PeerTab)
  links : List Link
  ports : List (Option (BitVec 128))
  store : List Packet
  replies : List Reply
  nextPkt : Nat
  rounds : List Round
  wins : List LaneWrites
  sigs : List Sig
  outbox : List Outbox
  grants : List Nat
  demand : List Nat
  past : List Nat
  manifest : Manifest
  manSig : BitVec 912
  manKey : Nat
  nextManifest : Option (Signed Manifest)
  manifestOk : Bool
  image : List Byte
  imageSig : BitVec 912
  fwOk : Bool
  badStep : Option Nat
  identity : Option (BitVec 456)
  sessionKeys : List (Nat × BitVec 256)
  tdis : List (Nat × Tdi)
  stopping : List Nat
  coreVf : List (Nat × Nat)
  queueVf : List (Nat × Nat)
  ring : List Cmd
  hostOut : List HostMsg
  deriving DecidableEq, Repr

/-- A die at reset: caches and TLB empty. -/
def Die.reset : Die := { dc := [], fifo := [], tlb := [] }

/-- A core at reset. -/
def Core.reset : Core :=
  { l1 := [], fifo := [], race := [], tlb := [], btlb := [], matq := [], matFree := [0, 0, 0, 0],
    resetAt := 0, slots := [] }

/-- A link direction as it stands before bring-up: joined, without a key (01 R9, 28 R346). -/
def Link.idle (ends : LinkNode × LinkNode) : Link :=
  { src := ends.1, dst := ends.2, keys := [none, none], slot := false, sent := 0, fresh := false, seq := 0, replay := [], chans := [], since := [],
    spilled := [], stalled := false, rkeys := [none, none], rslot := false, expect := 0, mism := none, got := [] }

/-- A link direction with its first key in slot 0 (28 R346, 30 R377). -/
def Link.start (ends : LinkNode × LinkNode) (key : BitVec 256) : Link :=
  { Link.idle ends with keys := [some key, none], rkeys := [some key, none] }

/-- The manifest in flash at reset; the spec gives its fields and no values (log entry 8). -/
def Manifest.initial : Manifest :=
  { pfMap := [0, 1, 2, 3], fwKeys := [0], signKey := 0, eraseId := false, gloryBytes := 2 ^ 30, sustained := 3600,
    peak := 4000, inletLimit := 0 }

/-- The package right after reset, before bring-up (30 R377): nothing placed, no context, memory unlisted. -/
def State.reset : State :=
  { now := 0, free := 0, sel := none, agenda := [], pkg := .off, mem := [], memBad := [],
    dies := [Die.reset, Die.reset, Die.reset, Die.reset], cores := [], ctxs := [], teams := [], clusters := [],
    launches := [], queues := [], nextLaunch := 0, nextTeamId := 0, nextMark := 0, invals := [], nextInval := 0,
    partWait := [], pkgNum := 0, peers := [], links := linkEnds.map Link.idle, ports := List.replicate 12 none,
    store := [], replies := [], nextPkt := 0, rounds := [], wins := [],
    sigs := [], outbox := [], grants := List.replicate 16 0, demand := List.replicate 16 0, past := [],
    manifest := Manifest.initial, manSig := 0, manKey := 0, nextManifest := none, manifestOk := false, image := [],
    imageSig := 0, fwOk := false, badStep := none, identity := some 0,
    sessionKeys := [], tdis := [], stopping := [], coreVf := [], queueVf := [], ring := [], hostOut := [] }

end Sys2Proof.Machine
end

