-- ==== Sys2Proof/Config.lean ====
section
/-! DEFINITION. What an implementation fixes and the free values: constants without a body, so that nothing in Lean
can evaluate them or prove a value of them. Each is named by an entry of the assumption log. -/

namespace Sys2Proof.Config

/-- A fresh free value for every count of the plain counter `State.free` (log entry 2). -/
opaque freeWord : Nat → BitVec 64

/-- Whether an access uses the old translation of a page whose invalidation is pending (26 R336): the time, the lane and
the page (log entry 69). -/
opaque useOld : Nat → Nat → Nat → Bool

/-- What a byte of a team's scratch window holds before the first write to it (12 R160: undefined): team and offset
(log entry 2). -/
opaque freeScratch : Nat → Nat → BitVec 8

/-- A byte of the context record of a team as it is saved: the layout and the integrity tag are the device's own (26 R342;
log entry 9). -/
opaque recordByte : Sys2Proof.Machine.Team → Nat → BitVec 8

/-- The approximate functions (07 R84): each is a fixed function of its input that the implementation chooses within
the bounds of Table 7.6; these are their values on the inputs for which Table 7.6 names no result (log entry 3). -/
opaque frcpApprox : Word → Word
/-- FRSQ on inputs without a special result (R84). -/
opaque frsqApprox : Word → Word
/-- FEX2 on inputs without a special result (R84). -/
opaque fex2Approx : Word → Word
/-- FLG2 on inputs without a special result (R84). -/
opaque flg2Approx : Word → Word
/-- FSIN on inputs without a special result (R84). -/
opaque fsinApprox : Word → Word
/-- FCOS on inputs without a special result (R84). -/
opaque fcosApprox : Word → Word

/-- Which of the twelve endpoints holds the open rounds of a reduction target (28 R357): context and address (log entry
80). -/
opaque endpointOf : Nat → DWord → Nat
/-- Whether a virtual channel of the die-to-die links carries the small-message class (28 R351; log entry 80). -/
opaque smallChannel : Nat → Bool
/-- The number of the gaffer's grant periods, 4,096 cycles of its own clock each, in 10 ms (30 R376; log entry 6). -/
opaque gafferWindow : Nat

/-- The nonce of a flit, formed from the sequence number, the direction and the slot (28 R346); how is not given (log
entry 5). -/
opaque linkNonce : Nat → Nat → Bool → BitVec 96
/-- AES-256-GCM of the die-to-die links (28 R346): ciphertext and tag of a payload under a key, a nonce and a header. The
algorithm is the standard's, not this spec's (log entry 5). -/
opaque aesGcm : BitVec 256 → BitVec 96 → BitVec 64 → BitVec 1792 → BitVec 1792 × BitVec 128
/-- The payload that a ciphertext stands for under a key, a nonce and a header, and the tag it must carry (28 R346). -/
opaque aesGcmOpen : BitVec 256 → BitVec 96 → BitVec 64 → BitVec 1792 → BitVec 1792 × BitVec 128
/-- Ed448 verification of a digest under a key number (30 R369, R372): key, digest, signature (log entry 5). -/
opaque ed448Verify : Nat → BitVec 512 → BitVec 912 → Bool
/-- Signing a digest with an Ed448 private key (30 R369). -/
opaque ed448Sign : BitVec 456 → BitVec 512 → BitVec 912
/-- SHAKE256 with 64-byte output (30 R369). -/
opaque shake256 : List Byte → BitVec 512
/-- The bytes of a manifest that its signature covers (30 R373): the format is the package's own. -/
opaque manifestBytes : Sys2Proof.Manifest → List Byte
/-- The SPDM 1.3 response to a request (30 R369) before it is signed, over the measurement digests of the firmware and the
manifest. -/
opaque spdmAnswer : List Byte → List (BitVec 512) → List Byte
/-- The peak current of an island, in the unit of the manifest's limits (30 R376; log entry 6). -/
opaque islandPeak : Nat → Nat

end Sys2Proof.Config
end

