-- ==== Sys2Proof/Machine/Access.lean ====
section
/-! DEFINITION. Finding and changing the parts of the state, and reading registers: the file of a group with its
fixed-latency writes in flight (05 R57, R58), effective register numbers (R53), masks and active lanes (00 R5). -/

namespace Sys2Proof.Machine

/-! ## Parts of the state -/

/-- A team by its number in the package. -/
def State.team? (s : State) (t : Nat) : Option Team := s.teams.find? (·.id = t)

/-- Changing one team. -/
def State.modTeam (s : State) (t : Nat) (f : Team → Team) : State :=
  { s with teams := s.teams.map fun x => if x.id = t then f x else x }

/-- A group of a team. -/
def Team.group? (tm : Team) (g : Nat) : Option Group := tm.groups.find? (·.grp = g)

/-- Changing one group of a team. -/
def Team.modGroup (tm : Team) (g : Nat) (f : Group → Group) : Team :=
  { tm with groups := tm.groups.map fun x => if x.grp = g then f x else x }

/-- A group of a team of the package. -/
def State.group? (s : State) (t g : Nat) : Option Group := (s.team? t).bind (·.group? g)

/-- Changing one group. -/
def State.modGroup (s : State) (t g : Nat) (f : Group → Group) : State := s.modTeam t (·.modGroup g f)

/-- A split of a group. -/
def Group.split? (g : Group) (i : Nat) : Option Split := g.splits.find? (·.id = i)

/-- Changing one split. -/
def Group.modSplit (g : Group) (i : Nat) (f : Split → Split) : Group :=
  { g with splits := g.splits.map fun x => if x.id = i then f x else x }

/-- Changing one split of the package. -/
def State.modSplit (s : State) (r : SRef) (f : Split → Split) : State :=
  s.modGroup r.team r.grp (·.modSplit r.split f)

/-- A launch. -/
def State.launch? (s : State) (l : Nat) : Option Launch := s.launches.find? (·.id = l)

/-- Changing one launch. -/
def State.modLaunch (s : State) (l : Nat) (f : Launch → Launch) : State :=
  { s with launches := s.launches.map fun x => if x.id = l then f x else x }

/-- The cluster that a team belongs to. -/
def State.clusterOf? (s : State) (tm : Team) : Option Cluster :=
  s.clusters.find? fun c => c.launch = tm.launch ∧ c.num = tm.clus

/-- Changing one cluster. -/
def State.modCluster (s : State) (id : Nat) (f : Cluster → Cluster) : State :=
  { s with clusters := s.clusters.map fun c => if c.id = id then f c else c }

/-- A context. -/
def State.ctx? (s : State) (c : Nat) : Option Context := s.ctxs.find? (·.id = c)

/-- The virtual function that a launch queue is assigned to; 0 is the package's own (30 R367). -/
def State.vfOfQueue (s : State) (q : Nat) : Nat := Map.get 0 s.queueVf q

/-- The virtual function whose partition a core belongs to; 0 is none (30 R367). -/
def State.vfOfCore (s : State) (c : Nat) : Nat := Map.get 0 s.coreVf c

/-- The virtual function of a launch's context (30 R367). -/
def State.vfOf (s : State) (l : Launch) : Nat := ((s.ctx? l.ctx).map (·.vf)).getD 0

/-- A core; one that nothing has used yet is as at reset. -/
def State.core (s : State) (c : Nat) : Core := ((s.cores.find? (·.1 = c)).map (·.2)).getD Core.reset

/-- Changing one core. -/
def State.modCore (s : State) (c : Nat) (f : Core → Core) : State :=
  { s with cores := Map.put s.cores c (f (s.core c)) }

/-- A compute die. -/
def State.die (s : State) (d : Nat) : Die := s.dies.getD d Die.reset

/-- Changing one compute die. -/
def State.modDie (s : State) (d : Nat) (f : Die → Die) : State :=
  { s with dies := s.dies.modify d f }

/-- The compute die of a core: 96 cores on each of four dies (01 R9). -/
def dieOf (core : Nat) : Nat := core / 96 % 4

/-- A launch queue; a queue that nothing was placed in is empty (24 R308). -/
def LQueue.empty : LQueue :=
  { ctx := 0, nodes := [], arrivals := [], busy := false, fedBy := none, appended := 0, dispensed := 0, freed := 0,
    freedAhead := [], closed := false }

/-- A launch queue by number. -/
def State.queue (s : State) (q : Nat) : LQueue := ((s.queues.find? (·.1 = q)).map (·.2)).getD LQueue.empty

/-- Changing one launch queue. -/
def State.modQueue (s : State) (q : Nat) (f : LQueue → LQueue) : State :=
  { s with queues := Map.put s.queues q (f (s.queue q)) }

/-- A message to the host or the out-of-band port. -/
def State.tell (s : State) (m : HostMsg) : State := { s with hostOut := s.hostOut ++ [m] }

/-- A message to another package. -/
def State.send (s : State) (m : Outbox) : State := { s with outbox := s.outbox ++ [m] }

/-! ## Lanes -/

/-- The lanes of a mask, ascending. -/
def lanesOf (m : Word) : List Nat := (List.range 32).filter (m.getLsbD ·)

/-- The mask of a list of lanes. -/
def maskOf (ls : List Nat) : Word := ls.foldl (fun m l => m ||| (1#32 <<< l)) 0

/-- The mask of the lanes that satisfy a predicate. -/
def maskBy (f : Nat → Bool) : Word := maskOf ((List.range 32).filter f)

/-- The lowest lane of a mask. -/
def lowLane (m : Word) : Nat := (lanesOf m).headD 0

/-- The number of lanes of a mask. -/
def popCount (m : Word) : Nat := (lanesOf m).length

/-! ## The register file of a group -/

/-- Width of a place, as a mask over 64 bits: 32 for vector elements and masks, 64 for s, 16 for x, 5 for flags. A lane
beyond 31, and an element of a tile beyond 1,023, does not exist. -/
def Loc.width : Loc → DWord
  | .v _ l => if l < 32 then 0xFFFFFFFF else 0
  | .s n => if n < 64 then 0xFFFFFFFFFFFFFFFF else 0xFFFF
  | .k _ => 0xFFFFFFFF
  | .flg _ => 31
  | .a _ i => if i < 1024 then 0xFFFFFFFF else 0

/-- The landed value of a place; k0 reads as all ones (R54). -/
def Group.file (g : Group) : Loc → DWord
  | .v n l => if l < 32 then (g.vregs.get 0 (32 * n + l)).setWidth 64 else 0
  | .s n => g.sregs.get 0 n
  | .k n => if n = 0 then 0xFFFFFFFF else (g.kregs.get 0 n).setWidth 64
  | .flg l => (g.flg.get 0 l).setWidth 64
  | .a n i => if i < 1024 then (g.tiles.get 0 (1024 * n + i)).setWidth 64 else 0

/-- Writing a place under a bit mask; a write to k0 is discarded (R54), an x register keeps bits 15:0 (R51). -/
def Group.setFile (g : Group) (l : Loc) (mask v : DWord) : Group :=
  let m := mask &&& l.width
  let x := (g.file l &&& ~~~m) ||| (v &&& m)
  match l with
  | .v n ln => if ln < 32 then { g with vregs := g.vregs.set 0 (32 * n + ln) (x.setWidth 32) } else g
  | .s n => { g with sregs := g.sregs.set 0 n x }
  | .k n => if n = 0 then g else { g with kregs := g.kregs.set 0 n (x.setWidth 32) }
  | .flg ln => { g with flg := g.flg.set 0 ln (x.setWidth 5) }
  | .a n i => if i < 1024 then { g with tiles := g.tiles.set 0 (1024 * n + i) (x.setWidth 32) } else g

/-- Folding the writes of one split that are in flight onto a value: a write whose stall distance is met counts with its
new value; a premature one gives the value from before it, element by element, and hides later ones (R58). -/
def viewFold : List Pend → DWord → DWord → DWord
  | [], val, _ => val
  | e :: es, val, locked =>
    let m := e.mask &&& ~~~locked
    if e.dist = 0 then viewFold es ((val &&& ~~~m) ||| (e.new &&& m)) locked
    else viewFold es ((val &&& ~~~m) ||| (e.old &&& m)) (locked ||| m)

/-- What a split reads from a place (R58): another split's unlanded write is not seen. -/
def Group.rd (g : Group) (sp : Nat) (l : Loc) : DWord :=
  viewFold (g.pend.filter fun e => e.split = sp ∧ e.loc = l) (g.file l) 0

/-- The value of a place once every write of the split that is in flight has landed. -/
def Group.newest (g : Group) (sp : Nat) (l : Loc) : DWord :=
  (g.pend.filter fun e => e.split = sp ∧ e.loc = l).foldl (fun v e => (v &&& ~~~e.mask) ||| (e.new &&& e.mask)) (g.file l)

/-- A vector element as the split reads it. -/
def Group.vr (g : Group) (sp n lane : Nat) : Word := (g.rd sp (.v n lane)).setWidth 32
/-- A pair's element (R53): bits 31:0 in the even register. -/
def Group.vr64 (g : Group) (sp n lane : Nat) : DWord := g.vr sp (n + 1) lane ++ g.vr sp n lane
/-- A class 0x1 register, an x register zero-extended (R51). -/
def Group.sr (g : Group) (sp n : Nat) : DWord := g.rd sp (.s n)
/-- A mask register; k0 reads as all ones (R54). -/
def Group.kr (g : Group) (sp n : Nat) : Word := (g.rd sp (.k n)).setWidth 32

/-- The effective number of a register field (R53): the index register is read at issue and the sum is exact. -/
def Group.eff (g : Group) (sp : Nat) (xs : BitVec 2) (r : Reg) : Nat :=
  r.num.toNat + (if r.ix then (g.sr sp (64 + xs.toNat)).toNat else 0)

/-- The lanes that the guard selects (R56). -/
def Group.guardMask (g : Group) (sp : Nat) (h : Hdr) : Word :=
  g.kr sp h.g.toNat ^^^ (if h.gn then 0xFFFFFFFF else 0)

/-- The guard of U instructions (R56). -/
def Group.uGuard (g : Group) (sp : Nat) (h : Hdr) : Bool := g.guardMask sp h != 0

/-- The lanes of a split that an instruction acts on (00 R5), restricted to the lanes that a RETRY reissues. -/
def Group.active (g : Group) (sp : Split) (h : Hdr) : Word :=
  sp.mask &&& g.occ &&& g.guardMask sp.id h &&& sp.only.getD 0xFFFFFFFF

/-- Landing one write: the file takes the new value (R57). -/
def Group.land (g : Group) (e : Pend) : Group := g.setFile e.loc e.mask e.new

/-- Landing every write that is in flight for one of the splits, and before them, in issue order, the writes of other
splits to the same places (R57, R60). -/
def Group.landSplits (g : Group) (sps : List Nat) : Group :=
  let due (e : Pend) : Bool := sps.contains e.split ||
    g.pend.any fun x => sps.contains x.split && x.loc == e.loc && !x.landed
  let g' := g.pend.foldl (fun g e => if due e && !e.landed then g.land e else g) g
  { g' with pend := (g.pend.filter fun e => !sps.contains e.split).map fun e => if due e then { e with landed := true } else e
            score := g.score.filter fun e => !sps.contains e.split }

/-- Landing every write in flight to one place, so that a later write finds it (R57). -/
def Group.landLoc (g : Group) (l : Loc) : Group :=
  let g' := g.pend.foldl (fun g e => if e.loc = l && !e.landed then g.land e else g) g
  { g' with pend := g.pend.filter fun e => e.loc ≠ l }

/-- The register of a place, as (class, number): 0 vector, 1 class 0x1, 2 mask, 3 flags, 4 tile. -/
def Loc.reg : Loc → Nat × Nat
  | .v n _ => (0, n)
  | .s n => (1, n)
  | .k n => (2, n)
  | .flg _ => (3, 0)
  | .a n _ => (4, n)

/-- The registers that a variable-latency operation in flight will write (R59). -/
def OpKind.dests : OpKind → List (Nat × Nat)
  | .load rd sz _ => (List.range (szRegs sz)).map fun i => (0, rd + i)
  | .loadK sd _ _ => [(1, sd)]
  | .loadBlock rd n _ => (List.range n).map fun i => (0, rd + i)
  | .const sd _ _ => [(1, sd)]
  | .lookup rd _ => [(0, rd)]
  | .value ls => (ls.map fun p => p.1.reg).dedup
  | .atomic _ t (some rd) _ => (List.range t.regs).map fun i => (0, rd + i)
  | .gather q => match q.stat with
      | some st => (0, st.vs.toNat) :: (2, st.km.toNat) :: (if q.key.isSome then [(0, st.vs.toNat + 1)] else [])
      | none => []
  | .scatter q => match q.stat with
      | some st => (0, st.vs.toNat) :: (2, st.km.toNat) :: (if q.key.isSome then [(0, st.vs.toNat + 1)] else [])
      | none => []
  | .enq _ _ _ vd _ _ _ => [(0, vd)]
  | .csig _ _ _ sd _ => [(1, sd)]
  | .hdesc sd _ => [(1, sd)]
  | .qstat sd _ _ => [(1, sd)]
  | _ => []

/-- A write to a place overtakes the results of the operations before a number: those will not land there any more (R57:
writes to one register land in issue order). -/
def Group.overtake (g : Group) (before : Nat) (l : Loc) (mask : DWord) : Group :=
  { g with ops := g.ops.map fun (o : Op) =>
      if o.id < before ∧ o.kind.dests.contains l.reg then { o with skip := (l, mask) :: o.skip } else o }

/-- A write under a mask makes a place correct again when it covers the whole word (26 R326). -/
def Group.rectify (g : Group) (l : Loc) (mask : DWord) : Group :=
  { g with badRegs := if mask &&& l.width = l.width then g.badRegs.filter (· ≠ l) else g.badRegs }

/-- Writing a place at once for an operation of a number, after the writes in flight to it (R57). -/
def Group.writeAs (g : Group) (op : Nat) (l : Loc) (mask v : DWord) : Group :=
  (((g.landLoc l).setFile l mask v).overtake op l mask).rectify l mask

/-- Writing a place at once (interlocked results, R57, R103). -/
def Group.writeNow (g : Group) (l : Loc) (mask v : DWord) : Group := g.writeAs g.nextOp l mask v

/-- The bits of a place that an operation's result may still write (R57). -/
def Op.lands (o : Op) (l : Loc) (mask : DWord) : DWord :=
  o.skip.foldl (fun m p => if p.1 = l then m &&& ~~~p.2 else m) mask

/-- The lanes whose results an operation still has to write; none where its kind does not tell. -/
def OpKind.lanes : OpKind → Option (List Nat)
  | .load _ _ accs | .loadBlock _ _ accs | .atomic _ _ _ accs => some (accs.map (·.lane))
  | .lookup _ keys => some (keys.map (·.1))
  | .gather q => some (lanesOf q.lanes)
  | .scatter q => some (lanesOf q.lanes)
  | .enq _ _ _ _ rows res bad => some (rows.map (·.lane) ++ res.map (·.1) ++ bad.map (·.1))
  | _ => none

/-- The places of a register, for some lanes. -/
def regLocs (r : Nat × Nat) (lanes : List Nat) : List (Loc × DWord) :=
  let at_ (l : Loc) : Loc × DWord := (l, l.width)
  if r.1 = 0 then lanes.map fun l => at_ (.v r.2 l)
  else if r.1 = 1 then [at_ (.s r.2)]
  else if r.1 = 2 then [(.k r.2, (maskOf lanes).setWidth 64)]
  else lanes.map fun l => at_ (.flg l)

/-- A write of the operation to a register is pending (R59): some of its bits have not been overtaken by a later write. While
RETRY holds lanes of it, every lane of its split counts. -/
def Op.pends (o : Op) (r : Nat × Nat) : Bool :=
  o.kind.dests.contains r && match o.kind with
    | .value ls => ls.any fun p => p.1.reg == r && o.lands p.1 p.1.width != 0
    | k => (regLocs r (if o.waitRetry then lanesOf o.mask else k.lanes.getD (lanesOf o.mask))).any fun p => o.lands p.1 p.2 != 0

/-- The item that a lane holds or last held (03 R17). -/
def Group.itemOf (g : Group) (lane : Nat) : BitVec 48 := g.item.get 0 lane
/-- The age of a lane (03 R17). -/
def Group.ageOf (g : Group) (lane : Nat) : Word := g.age.get 0 lane

/-- The number of live splits with the join records (03 R32): exactly one live split means one split and no record. -/
def Group.oneSplit (g : Group) : Bool := g.splits.length == 1 && g.joins.isEmpty

/-- An element of a tile (16 R224). -/
def Group.tile (g : Group) (a i j : Nat) : Word := g.tiles.get 0 (1024 * a + 32 * i + j)

end Sys2Proof.Machine
end

