-- ==== Sys2Proof/Machine/Memory.lean ====
section
/-! DEFINITION. The memory hierarchy (chapter 12) and translation (26 R332 to R336): lines in L1 and the die caches,
dirty-line FIFOs, releases and acquires, race records, page walks and TLBs. Bytes of memory are keyed by resolved
physical address: an interleaved address is keyed by its named form (R13). -/

namespace Sys2Proof.Machine

/-! ## Physical addresses -/

/-- The key of a physical address, or none when it names no existing target (01 R12, R13). -/
def resolvePa (pa : Nat) : Option Nat :=
  let t := pa / 2 ^ 40
  let o := pa % 2 ^ 40
  if t = 0 then (if o / 2 ^ 36 < 12 then some o else none)
  else if t = 1 ∨ t = 2 then some pa
  else if t = 3 then
    if o < 768 * 2 ^ 30 then
      let n := o / 2048
      some ((n % 12) * 2 ^ 36 + (n / 12) * 2048 + o % 2048)
    else none
  else none

/-- The compute die whose cache is home of a byte of one of the twelve stacks: it adjoins three of them (12 R166); none for
host memory. -/
def homeDie (pa : Nat) : Option Nat := if pa < 12 * 2 ^ 36 then some (pa / 2 ^ 36 / 3) else none

/-! ## Lines -/

/-- A byte of a line. -/
def Line.byte (l : Line) (i : Nat) : Byte := l.data.extractLsb' (8 * i) 8

/-- The line that holds nothing. -/
def Line.none : Line := { valid := 0, dirty := 0, data := 0 }

/-- The 512-bit mask of a byte mask. -/
def wide (m : BitVec 64) : BitVec 512 :=
  (List.range 64).foldl (fun a i => if m.getLsbD i then a ||| (0xFF#512 <<< (8 * i)) else a) 0

/-- Putting bytes under a mask into a line. -/
def Line.merge (l : Line) (m : BitVec 64) (d : BitVec 512) (dirty : Bool) : Line :=
  let w := wide m
  { valid := l.valid ||| m, dirty := if dirty then l.dirty ||| m else l.dirty, data := (l.data &&& ~~~w) ||| (d &&& w) }

/-- The line at a number; an absent one holds nothing. -/
def lineOf (m : Map Line) (k : Nat) : Line := Map.get Line.none m k

/-- Setting a line; one without a valid byte is absent. -/
def setLine (m : Map Line) (k : Nat) (l : Line) : Map Line := if l.valid = 0 then Map.del m k else Map.put m k l

/-- The lines of an L1 of 128 KiB (01 Table 1.2). -/
def l1Lines : Nat := 2048

/-- The lines of a die cache of 96 MiB (01 Table 1.1). -/
def dcLines : Nat := 1572864

/-- A cache of some lines has room for a line: it holds that line, or fewer lines than it can. A line that finds no room
is itself the one that leaves (log entry 67). -/
def hasRoom (cap : Nat) (m : Map Line) (k : Nat) : Bool := (Map.find? m k).isSome || decide (m.length < cap)

/-! ## Memory and the home die -/

/-- The uncorrectable ECC words of a line of memory that a write under a mask touches without covering them whole (26
R326). -/
def State.mergedBad (s : State) (k : Nat) (m : BitVec 64) : List Nat :=
  s.memBad.filter fun w =>
    (w = 2 * k && m.extractLsb' 0 32 != 0 && m.extractLsb' 0 32 != 0xFFFFFFFF) ||
    (w = 2 * k + 1 && m.extractLsb' 32 32 != 0 && m.extractLsb' 32 32 != 0xFFFFFFFF)

/-- Writing bytes of a 64-byte line of memory under a mask: an ECC word of 32 bytes that the write covers whole is
correct again; one that it merges into stays uncorrectable, and the event goes to the management processor (26 R326). -/
def State.memLine (s : State) (k : Nat) (m : BitVec 64) (d : BitVec 512) : State :=
  { s with
    mem := (List.range 64).foldl
      (fun mm i => if m.getLsbD i then Map.set 0 mm (64 * k + i) (d.extractLsb' (8 * i) 8) else mm) s.mem
    memBad := s.memBad.filter fun w =>
      !((w = 2 * k && m.extractLsb' 0 32 == 0xFFFFFFFF) || (w = 2 * k + 1 && m.extractLsb' 32 32 == 0xFFFFFFFF))
    hostOut := s.hostOut ++ (s.mergedBad k m).map .eccLeft }

/-- A byte as the home die cache holds it (12 R166). -/
def State.homeByte (s : State) (pa : Nat) : Byte :=
  match homeDie pa with
  | none => s.mem.get 0 pa
  | some d =>
    let l := lineOf (s.die d).dc (pa / 64)
    if l.valid.getLsbD (pa % 64) then l.byte (pa % 64) else s.mem.get 0 pa

/-- The byte comes from an uncorrectable ECC word of memory (26 R326). -/
def State.homeBad (s : State) (pa : Nat) : Bool :=
  s.memBad.contains (pa / 32) && match homeDie pa with
    | none => true
    | some d => !(lineOf (s.die d).dc (pa / 64)).valid.getLsbD (pa % 64)

/-- Writing bytes of a line at its home: the home die cache, or memory itself for host memory and when that cache has
no room. -/
def State.homeLine (s : State) (k : Nat) (m : BitVec 64) (d : BitVec 512) : State :=
  match homeDie (64 * k) with
  | none => s.memLine k m d
  | some x =>
    if hasRoom dcLines (s.die x).dc k then
      s.modDie x fun y => { y with dc := setLine y.dc k ((lineOf y.dc k).merge m d true) }
    else s.memLine k m d

/-- A UC write: memory takes the bytes and the home die cache's copy is updated without allocating (12 R189). -/
def State.ucLine (s : State) (k : Nat) (m : BitVec 64) (d : BitVec 512) : State :=
  let s := s.memLine k m d
  match homeDie (64 * k) with
  | none => s
  | some x => s.modDie x fun y =>
      let l := lineOf y.dc k
      { y with dc := setLine y.dc k (l.merge (m &&& l.valid) d false) }

/-- Writing back the home die cache's dirty bytes of a line and dropping its copy (12 R179). -/
def State.homeFlush (s : State) (k : Nat) : State :=
  match homeDie (64 * k) with
  | none => s
  | some x =>
    let l := lineOf (s.die x).dc k
    (s.memLine k l.dirty l.data).modDie x fun y => { y with dc := Map.del y.dc k }

/-- A run of bytes from a physical address, cut into lines: line number, mask and data. -/
def lineRuns (pa : Nat) (bs : List Byte) : List (Nat × BitVec 64 × BitVec 512) :=
  let k0 := pa / 64
  let n := (pa % 64 + bs.length + 63) / 64
  (List.range n).map fun j =>
    let k := k0 + j
    (k, (List.range 64).foldl (fun (a : BitVec 64 × BitVec 512) i =>
      let p := 64 * k + i
      if pa ≤ p ∧ p < pa + bs.length then
        (a.1 ||| (1#64 <<< i), a.2 ||| ((bs.getD (p - pa) 0).setWidth 512 <<< (8 * i)))
      else a) (0, 0))

/-- Writing consecutive bytes at their home. -/
def State.homeWrite (s : State) (pa : Nat) (bs : List Byte) : State :=
  (lineRuns pa bs).foldl (fun s r => s.homeLine r.1 r.2.1 r.2.2) s

/-- Writing consecutive bytes as UC. -/
def State.ucWrite (s : State) (pa : Nat) (bs : List Byte) : State :=
  (lineRuns pa bs).foldl (fun s r => s.ucLine r.1 r.2.1 r.2.2) s

/-- Consecutive bytes at their home. -/
def State.homeRead (s : State) (pa n : Nat) : List Byte := (List.range n).map fun i => s.homeByte (pa + i)

/-- A little-endian number. -/
def leNat (bs : List Byte) : Nat := bs.foldr (fun b a => b.toNat + 256 * a) 0

/-- The n low bytes of a number, the lowest first. -/
def natLe (n x : Nat) : List Byte := (List.range n).map fun i => BitVec.ofNat 8 (x / 2 ^ (8 * i))

/-! ## Die caches and L1 -/

/-- Removing a line from a FIFO. -/
def dropLine (f : List FEnt) (k : Nat) : List FEnt := f.filter (· ≠ .line k)

/-- The oldest line of a FIFO. -/
def oldest (f : List FEnt) : Option Nat := f.findSome? fun e => match e with | .line k => some k | .mark _ => Option.none

/-- The number of lines of a FIFO. -/
def lineCount (f : List FEnt) : Nat := (f.filter fun e => match e with | .line _ => true | .mark _ => false).length

/-- A compute die writes a remote-homed line's dirty bytes back to their home (12 R166). -/
def State.wbDie (s : State) (d k : Nat) : State :=
  let l := lineOf (s.die d).dc k
  let s := if l.dirty = 0 then s else s.homeLine k l.dirty l.data
  s.modDie d fun y => { y with dc := setLine y.dc k { l with dirty := 0 }, fifo := dropLine y.fifo k }

/-- A byte as an access that leaves an L1 of a compute die finds it (12 R166). -/
def State.dieByte (s : State) (d pa : Nat) : Byte :=
  let l := lineOf (s.die d).dc (pa / 64)
  if l.valid.getLsbD (pa % 64) then l.byte (pa % 64) else s.homeByte pa

/-- As `homeBad`, from a compute die. -/
def State.dieBad (s : State) (d pa : Nat) : Bool :=
  !(lineOf (s.die d).dc (pa / 64)).valid.getLsbD (pa % 64) && s.homeBad pa

/-- A compute die's cache takes a clean byte, if it has room for its line. -/
def State.dieFill (s : State) (d pa : Nat) (b : Byte) : State :=
  s.modDie d fun y =>
    let l := (lineOf y.dc (pa / 64)).merge (1#64 <<< (pa % 64)) (b.setWidth 512 <<< (8 * (pa % 64))) false
    if hasRoom dcLines y.dc (pa / 64) then { y with dc := setLine y.dc (pa / 64) l } else y

/-- A write that leaves an L1: at home on this die, or into the remote-homed part with its FIFO of 65,536 (12 R166), or
at its home when the die cache has no room. -/
def State.dieLine (s : State) (d k : Nat) (m : BitVec 64) (x : BitVec 512) : State :=
  if homeDie (64 * k) = some d ∨ !hasRoom dcLines (s.die d).dc k then s.homeLine k m x
  else
    let l := lineOf (s.die d).dc k
    let s := if l.dirty = 0 ∧ 65536 ≤ lineCount (s.die d).fifo then
        (match oldest (s.die d).fifo with | some o => s.wbDie d o | Option.none => s) else s
    s.modDie d fun y =>
      { y with dc := setLine y.dc k (l.merge m x true), fifo := if l.dirty = 0 then y.fifo ++ [.line k] else y.fifo }

/-- Writing consecutive bytes from a compute die. -/
def State.dieWrite (s : State) (d pa : Nat) (bs : List Byte) : State :=
  (lineRuns pa bs).foldl (fun s r => s.dieLine d r.1 r.2.1 r.2.2) s

/-- A core writes an L1 line's dirty bytes back to its die cache (12 R164, R165). -/
def State.wbL1 (s : State) (c k : Nat) : State :=
  let l := lineOf (s.core c).l1 k
  if l.dirty = 0 then s
  else (s.dieLine (dieOf c) k l.dirty l.data).modCore c fun y =>
    { y with l1 := setLine y.l1 k { l with dirty := 0 }, fifo := dropLine y.fifo k }

/-- A line leaves a core's L1, its dirty bytes written back and its race records lost (12 R165, R184). -/
def State.evictL1 (s : State) (c k : Nat) : State :=
  (s.wbL1 c k).modCore c fun y => { y with l1 := Map.del y.l1 k, race := Map.del y.race k }

/-- A line leaves a die cache. -/
def State.evictDc (s : State) (d k : Nat) : State :=
  if homeDie (64 * k) = some d then s.homeFlush k
  else (s.wbDie d k).modDie d fun y => { y with dc := Map.del y.dc k }

/-- A byte as a group of the core reads it through L1 (12 R164). -/
def State.l1Byte (s : State) (c pa : Nat) : Byte :=
  let l := lineOf (s.core c).l1 (pa / 64)
  if l.valid.getLsbD (pa % 64) then l.byte (pa % 64) else s.dieByte (dieOf c) pa

/-- A read of a byte through L1: bytes that are not valid are fetched and merged (12 R164). -/
def State.l1Fetch (s : State) (c pa : Nat) : State :=
  let l := lineOf (s.core c).l1 (pa / 64)
  if l.valid.getLsbD (pa % 64) then s
  else
    let b := s.dieByte (dieOf c) pa
    let s := s.dieFill (dieOf c) pa b
    s.modCore c fun y =>
      let l := (lineOf y.l1 (pa / 64)).merge (1#64 <<< (pa % 64)) (b.setWidth 512 <<< (8 * (pa % 64))) false
      if hasRoom l1Lines y.l1 (pa / 64) then { y with l1 := setLine y.l1 (pa / 64) l }
      else { y with race := Map.del y.race (pa / 64) }

/-- A store of bytes of one line into L1: allocated without fetching, entered in the FIFO of 256 when it becomes dirty
(12 R164, R165); with no room its bytes go on to the die cache. -/
def State.l1Line (s : State) (c k : Nat) (m : BitVec 64) (x : BitVec 512) : State :=
  if hasRoom l1Lines (s.core c).l1 k then
    let was := (lineOf (s.core c).l1 k).dirty
    let s := if was = 0 ∧ 256 ≤ lineCount (s.core c).fifo then
        (match oldest (s.core c).fifo with | some o => s.wbL1 c o | Option.none => s) else s
    s.modCore c fun y =>
      { y with l1 := setLine y.l1 k ((lineOf y.l1 k).merge m x true),
               fifo := if was = 0 then y.fifo ++ [.line k] else y.fifo }
  else (s.dieLine (dieOf c) k m x).modCore c fun y => { y with race := Map.del y.race k }

/-! ## Plain and engine accesses by translated bytes -/

/-- The bytes a group reads. -/
def State.grpRead (s : State) (c : Nat) (bs : List PByte) : List Byte :=
  bs.map fun b => if b.uc then s.homeByte b.pa else s.l1Byte c b.pa

/-- The cache effect of a group's read. -/
def State.grpTouch (s : State) (c : Nat) (bs : List PByte) : State :=
  bs.foldl (fun s b => if b.uc then s else s.l1Fetch c b.pa) s

/-- Consecutive runs of translated bytes with one policy. -/
def runsOf : List (PByte × Byte) → List (PByte × List Byte)
  | [] => []
  | (p, b) :: rest =>
    match runsOf rest with
    | (q, bs) :: more =>
      if q.pa = p.pa + 1 ∧ q.uc = p.uc then (p, b :: bs) :: more else (p, [b]) :: (q, bs) :: more
    | [] => [(p, [b])]

/-- A group's write of translated bytes: L1, or home for UC (12 R164, R189). -/
def State.grpWrite (s : State) (c : Nat) (bs : List (PByte × Byte)) : State :=
  (runsOf bs).foldl (fun s r =>
    if r.1.uc then s.ucWrite r.1.pa r.2
    else (lineRuns r.1.pa r.2).foldl (fun s x => s.l1Line c x.1 x.2.1 x.2.2) s) s

/-- The core writes back the dirty L1 bytes that an engine operation reads (12 R186). -/
def State.engPrep (s : State) (c : Nat) (bs : List PByte) : State :=
  (bs.map (·.pa / 64)).dedup.foldl (fun s k => s.wbL1 c k) s

/-- The bytes an engine operation reads: it does not allocate in L1 (12 R164). -/
def State.engRead (s : State) (c : Nat) (bs : List PByte) : List Byte :=
  bs.map fun b => if b.uc then s.homeByte b.pa else s.dieByte (dieOf c) b.pa

/-- Whether a byte that an engine operation reads is uncorrectable. -/
def State.engBad (s : State) (c : Nat) (bs : List PByte) : Bool :=
  bs.any fun b => if b.uc then s.homeBad b.pa else s.dieBad (dieOf c) b.pa

/-- An engine operation's write; the issuing core's L1 lines are invalidated (12 R186). -/
def State.engWrite (s : State) (c : Nat) (bs : List (PByte × Byte)) : State :=
  let s := ((bs.map (·.1.pa / 64)).dedup).foldl (fun s k => s.evictL1 c k) s
  (runsOf bs).foldl (fun s r => if r.1.uc then s.ucWrite r.1.pa r.2 else s.dieWrite (dieOf c) r.1.pa r.2) s

/-- Whether a byte that a group's load consumes is uncorrectable. -/
def State.grpBad (s : State) (c : Nat) (bs : List PByte) : Bool :=
  bs.any fun b => if b.uc then s.homeBad b.pa
    else !(lineOf (s.core c).l1 (b.pa / 64)).valid.getLsbD (b.pa % 64) && s.dieBad (dieOf c) b.pa

/-! ## Release and acquire (12 Table 12.3) -/

/-- Every entry of a core's FIFO is written back. -/
def State.drainCore (s : State) (c : Nat) : State :=
  (s.core c).fifo.foldl (fun s e => match e with | .line k => s.wbL1 c k | .mark _ => s) s

/-- Every entry of a die cache's FIFO is written back. -/
def State.drainDie (s : State) (d : Nat) : State :=
  (s.die d).fifo.foldl (fun s e => match e with | .line k => s.wbDie d k | .mark _ => s) s

/-- The cache actions of a release at a scope. -/
def State.release (s : State) (c : Nat) (sc : Scope) : State :=
  match sc with
  | .grp => s
  | .team | .clus => s.drainCore c
  | .pkg | .sys => (s.drainCore c).drainDie (dieOf c)

/-- Clean bytes become not valid. -/
def dropClean (m : Map Line) (p : Nat → Bool) : Map Line :=
  m.filterMap fun e => if p e.1 then
    (if e.2.dirty = 0 then Option.none else some (e.1, { e.2 with valid := e.2.valid &&& e.2.dirty })) else some e

/-- The cache actions of an acquire at a scope. -/
def State.acquire (s : State) (c : Nat) (sc : Scope) : State :=
  let l1 (s : State) := s.modCore c fun y => { y with l1 := dropClean y.l1 fun _ => true }
  let dc (s : State) (host : Bool) := s.modDie (dieOf c) fun y =>
    { y with dc := dropClean y.dc fun k => match homeDie (64 * k) with
        | none => host
        | some h => h ≠ dieOf c }
  match sc with
  | .grp => s
  | .team | .clus => l1 s
  | .pkg => dc (l1 s) false
  | .sys => dc (l1 s) true

/-- The cache actions of an order at a scope: the release before the acquire. -/
def State.orderActs (s : State) (c : Nat) (o : Order) (sc : Scope) : State :=
  match o with
  | .rlx => s
  | .acq => s.acquire c sc
  | .rel => s.release c sc
  | .ar => (s.release c sc).acquire c sc

/-! ## Translation (26 R332 to R336) -/

/-- An address outside the canonical form: bits 63:56, or die 12 to 15 in the die-named window (01 R11). -/
def noncanon (va : Nat) : Bool := 2 ^ 56 ≤ va || (va / 2 ^ 52 == 0xD && 12 ≤ va / 2 ^ 48 % 16)

/-- A hull [lo, hi) that is not canonical: an end lies outside the canonical form, or the hull spans the addresses of dies
12 to 15 in the die-named window (01 R11). -/
def noncanonHull (lo hi : Nat) : Bool :=
  noncanon lo || noncanon (hi - 1) || (decide (lo < 0xDC * 2 ^ 48) && decide (0xE0 * 2 ^ 48 < hi))

/-- The answer of a translation: the resolved byte and its policy, or the cause and the walk level. -/
inductive TRes where
  | ok (pa : Nat) (uc : Bool)
  | bad (c : Cause) (lvl : Nat)
  deriving DecidableEq, Repr

/-- The permissions an access needs (R334). -/
structure Need where
  r : Bool
  w : Bool
  x : Bool
  deriving DecidableEq, Repr

/-- Loads and engine reads. -/
def Need.read : Need := ⟨true, false, false⟩
/-- Stores and engine writes. -/
def Need.write : Need := ⟨false, true, false⟩
/-- Atomics, RED, SCATR and KGRAD. -/
def Need.rmw : Need := ⟨true, true, false⟩
/-- Fetch. -/
def Need.fetch : Need := ⟨false, false, true⟩

/-- Page bits of a leaf at a level (Table 26.7). -/
def pageBits (lvl : Nat) : Nat := 13 + 10 * lvl

/-- An entry is invalid at its level (R334), but for the window rule, which needs the address. -/
def entryBad (e lvl : Nat) : Bool :=
  let leaf := e / 2 % 2 = 1
  e % 2 = 0 || 2 ^ 48 ≤ e || e / 64 % 128 ≠ 0 ||
  (leaf && 3 ≤ lvl) || (!leaf && lvl = 0) || (!leaf && e / 4 % 16 ≠ 0) ||
  (leaf && e / 8 % 2 = 1 && e / 16 % 2 = 1) ||
  (leaf && e / 2 ^ 13 % 2 ^ (pageBits lvl - 13) ≠ 0) ||
  (resolvePa (e / 2 ^ 13 % 2 ^ 35 * 2 ^ 13)).isNone

/-- One table of a page walk, at a level: a leaf as a TLB entry, the failing level and cause, or what the next table gives. A
table in the glory region, which only the link controllers use, ends the walk (01 R12, log entry 68). -/
def State.walkAt (s : State) (ctx va lvl tbl : Nat) (next : Nat → Except (Cause × Nat) TlbEnt) : Except (Cause × Nat) TlbEnt :=
  match resolvePa (tbl + 8 * (va / 2 ^ pageBits lvl % 1024)) with
  | none => .error (.page, lvl)
  | some k =>
    if tbl / 2 ^ 40 = 2 then .error (.page, lvl)
    else if (List.range 8).any fun i => s.homeBad (k + i) then .error (.dataerr, lvl)
    else
      let e := leNat (s.homeRead k 8)
      let pa := e / 2 ^ 13 % 2 ^ 35 * 2 ^ 13
      if entryBad e lvl then .error (.page, lvl)
      else if e / 2 % 2 = 1 then
        if va / 2 ^ 52 = 0xD ∧ ¬ (pa / 2 ^ 40 = 0 ∧ pa / 2 ^ 36 % 16 = va / 2 ^ 48 % 16) then .error (.page, lvl)
        else .ok { ctx := ctx, base := va / 2 ^ pageBits lvl * 2 ^ pageBits lvl, bits := pageBits lvl, pa := pa,
                   perm := BitVec.ofNat 4 (e / 4) }
      else next pa

/-- The page walk from a table at a level; an entry of level 0 that is no leaf names no table (26 R332). -/
def State.walk (s : State) (ctx va : Nat) : Nat → Nat → Except (Cause × Nat) TlbEnt
  | 0, tbl => s.walkAt ctx va 0 tbl fun _ => .error (.page, 0)
  | l + 1, tbl => s.walkAt ctx va (l + 1) tbl (s.walk ctx va l)

/-! ## The L1 lines of a footprint (12 R186) -/

/-- The raw physical addresses that name the first byte of a line (01 R13). -/
def rawForms (k : Nat) : List Nat :=
  let pa := 64 * k
  if pa < 2 ^ 40 then
    let o := pa % 2 ^ 36
    let l := (o / 2048 * 12 + pa / 2 ^ 36) * 2048 + o % 2048
    if l < 768 * 2 ^ 30 then [pa, 3 * 2 ^ 40 + l] else [pa]
  else [pa]

/-- The raw physical intervals that a table at a level, which maps the addresses from a base on, gives the virtual
interval [lo, hi). -/
def State.segments (s : State) (lo hi : Nat) : Nat → Nat → Nat → List (Nat × Nat)
  | lvl, tbl, base =>
    let sz := 2 ^ pageBits lvl
    let i0 := (lo - base) / sz
    let n := min 1024 ((hi - base + sz - 1) / sz) - i0
    (List.range n).flatMap fun j =>
      let va := base + (i0 + j) * sz
      match resolvePa (tbl + 8 * (i0 + j)) with
      | none => []
      | some k =>
        let e := leNat (s.homeRead k 8)
        let pa := e / 2 ^ 13 % 2 ^ 35 * 2 ^ 13
        if entryBad e lvl then []
        else if e / 2 % 2 = 1 then [(pa + (max lo va - va), pa + (min hi (va + sz) - va))]
        else match lvl with
          | 0 => []
          | l + 1 => s.segments lo hi l pa va

/-- The lines of a core's L1 that an operation's global regions of one direction overlap (12 R186, R187). -/
def State.hullLines (s : State) (c ctx : Nat) (fp : List Region) (wr : Bool) : List Nat :=
  if (s.core c).l1.isEmpty then []
  else
    let segs := (fp.filter fun r => r.sp == .glob && r.wr == wr).flatMap fun r => match s.ctx? ctx with
      | none => []
      | some x => s.segments r.lo.toNat r.hi.toNat 4 x.root 0
    ((s.core c).l1.map (·.1)).filter fun k => (rawForms k).any fun a =>
      segs.any fun g => decide (g.1 < a + 64 ∧ a < g.2)

/-- What an engine operation's footprint does to the issuing core's L1: before its reads the dirty bytes of the lines
that its read footprint overlaps are written back; at its completion the lines that its write footprint overlaps are
invalidated, dirty bytes written back before the operation's own (12 R186). -/
def State.engHull (s : State) (c ctx : Nat) (fp : List Region) : State :=
  let s := (s.hullLines c ctx fp false).foldl (fun s k => s.wbL1 c k) s
  (s.hullLines c ctx fp true).foldl (fun s k => s.evictL1 c k) s

/-- A cached leaf: the bench's TLB, the core's, the die's (R335). -/
def State.tlbHit (s : State) (bench core ctx va : Nat) : Option TlbEnt :=
  let hit (e : TlbEnt) : Bool := e.ctx == ctx && va / 2 ^ e.bits * 2 ^ e.bits == e.base
  ((s.core core).btlb.findSome? fun p => if p.1 = bench ∧ hit p.2 then some p.2 else Option.none).orElse fun _ =>
    ((s.core core).tlb.find? hit).orElse fun _ => (s.die (dieOf core)).tlb.find? hit

/-- The leaf that the tables give now. -/
def State.walked (s : State) (ctx va : Nat) : Except (Cause × Nat) TlbEnt :=
  match s.ctx? ctx with
  | none => .error (.page, 4)
  | some c => s.walk ctx va 4 c.root

/-- The leaf that an access uses, given the one that is cached for it: that one, else the walk's. While an invalidation of
its page is pending, the old one (cached, or kept by the invalidation) or the walk's, freely for each access and page
(R336, log entry 69). -/
def State.pick (s : State) (lane ctx va : Nat) (hit : Option TlbEnt) : Except (Cause × Nat) TlbEnt :=
  match s.invals.find? fun i => i.ctx = ctx ∧ i.lo < va / 8192 * 8192 + 8192 ∧ va / 8192 * 8192 < i.hi with
  | none => (match hit with
    | some e => .ok e
    | none => s.walked ctx va)
  | some i =>
    let old := hit.orElse fun _ => i.olds.find? fun e => e.ctx == ctx && va / 2 ^ e.bits * 2 ^ e.bits == e.base
    match old with
    | none => s.walked ctx va
    | some e => if Config.useOld s.now lane (va / 8192) then .ok e else s.walked ctx va

/-- The leaf that a lane's access uses. -/
def State.leaf (s : State) (lane bench core ctx va : Nat) : Except (Cause × Nat) TlbEnt :=
  s.pick lane ctx va (s.tlbHit bench core ctx va)

/-- The physical address that a leaf gives. -/
def TlbEnt.addr (e : TlbEnt) (va : Nat) : Nat := e.pa + va % 2 ^ e.bits

/-- Level of a leaf. -/
def TlbEnt.lvl (e : TlbEnt) : Nat := (e.bits - 13) / 10

/-- The leaf permits the access (R334): perm is R, W, X, UC from bit 0. -/
def TlbEnt.permits (e : TlbEnt) (n : Need) : Bool :=
  (!n.r || e.perm.getLsbD 0) && (!n.w || e.perm.getLsbD 1) && (!n.x || e.perm.getLsbD 2) && e.pa / 2 ^ 40 ≠ 2

/-- What a leaf, or a failed walk, gives an access. -/
def leafRes (n : Need) (va : Nat) : Except (Cause × Nat) TlbEnt → TRes
  | .error (c, l) => .bad c l
  | .ok e =>
    if e.permits n then (if (resolvePa (e.addr va)).isSome then .ok (e.addr va) (e.perm.getLsbD 3) else .bad .page e.lvl)
    else .bad .prot e.lvl

/-- Translating one address for a lane's access. -/
def State.translate (s : State) (lane bench core ctx : Nat) (n : Need) (va : Nat) : TRes :=
  if noncanon va then .bad .noncanon 0 else leafRes n va (s.leaf lane bench core ctx va)

/-- Translating one address at a row's or a remote access's home: a Marver die walks the tables (18 R248, 28 R355). -/
def State.transHome (s : State) (ctx : Nat) (n : Need) (va : Nat) : TRes :=
  if noncanon va then .bad .noncanon 0 else leafRes n va (s.pick 0 ctx va none)

/-- The TLBs take the leaves of the pages that an access used (R335). -/
def State.fillTlb (s : State) (bench core ctx : Nat) (vas : List Nat) : State :=
  ((vas.map (· / 8192 * 8192)).dedup).foldl (fun s va =>
    match s.tlbHit bench core ctx va with
    | some _ => s
    | none => match s.leaf 0 bench core ctx va with
      | .error _ => s
      | .ok e =>
        (s.modCore core fun y => { y with tlb := (e :: y.tlb).take 4096, btlb :=
          (((bench, e) :: y.btlb).filter (·.1 = bench)).take 256 ++ y.btlb.filter (·.1 ≠ bench) }).modDie (dieOf core)
          fun y => { y with tlb := (e :: y.tlb).take 65536 }) s

/-- A fault found in one lane's access: cause, address, the pages that failed (page, PROT, level), and the detail. -/
structure LFault where
  lane : Nat
  cause : Cause
  addr : DWord
  pages : List (DWord × Bool × Nat)
  detail : DWord
  deriving DecidableEq, Repr

/-- A fault without pages. -/
def LFault.plain (lane : Nat) (c : Cause) (a : DWord) : LFault := ⟨lane, c, a, [], 0⟩

/-- The 8 KiB pages that n bytes from an address need, ascending. -/
def pagesOf (va n : Nat) : List Nat :=
  let p0 := va / 8192
  (List.range ((va + n - 1) / 8192 + 1 - p0)).map fun i => (p0 + i) * 8192

/-- Translating n bytes: every page first, then the bytes (12 R169, 14 R199 step 4). -/
def transAll (tr : Nat → TRes) (lane : Nat) (va : DWord) (n : Nat) : Except LFault (List PByte) :=
  let rs := (pagesOf va.toNat n).map fun p => (p, tr p)
  let bad := rs.filterMap fun r => match r.2 with
    | .bad c l => some (r.1, c, l)
    | .ok _ _ => Option.none
  match bad with
  | (_, c, l) :: _ =>
    .error { lane := lane, cause := c, addr := va,
             pages := if c.isPage then
                 (bad.filter (·.2.1.isPage)).map fun b => (BitVec.ofNat 64 b.1, b.2.1 == .prot, b.2.2) else [],
             detail := if c = .noncanon then 0 else BitVec.ofNat 64 l }
  | [] => .ok ((List.range n).map fun i =>
      let a := va.toNat + i
      match rs.find? (·.1 = a / 8192 * 8192) with
      | some (p, .ok pa uc) => ⟨(resolvePa (pa + (a - p))).getD 0, uc⟩
      | _ => ⟨0, false⟩)

/-- Translating n bytes for an access of a group. -/
def State.transBytes (s : State) (bench core ctx : Nat) (nd : Need) (lane : Nat) (va : DWord) (n : Nat) :
    Except LFault (List PByte) := transAll (s.translate lane bench core ctx nd) lane va n

/-- The level of the leaf that maps an address (26 R324). -/
def State.leafLevel (s : State) (ctx va : Nat) : Nat :=
  match s.pick 0 ctx va none with
  | .ok e => e.lvl
  | .error (_, l) => l

/-- Translating a row of a tensor at its home: every page must map local memory (18 R249). A row in the window of dies 12 to
15 has no valid leaf (R334) and no NONCANON, which no slot takes (18 R257; log entry 77). -/
def State.transRow (s : State) (ctx : Nat) (nd : Need) (va : DWord) (n : Nat) : Except LFault (List PByte) :=
  transAll (fun p => match leafRes nd p (s.pick 0 ctx p none) with
    | .ok pa uc => if pa / 2 ^ 40 = 0 ∨ pa / 2 ^ 40 = 3 then .ok pa uc else .bad .prot (s.leafLevel ctx p)
    | r => r) 0 va n

/-- Steps 1, 2 and 4 of R199 for a global access; one whose last byte alone is not canonical raises NONCANON in step 1
(log entry 77). -/
def State.checkGlob (s : State) (bench core ctx : Nat) (nd : Need) (lane : Nat) (va : DWord) (n : Nat) (ma : Bool) :
    Except LFault (List PByte) :=
  if noncanon va.toNat ∨ noncanon (va.toNat + n - 1) then .error (.plain lane .noncanon va)
  else if ¬ ma ∧ va.toNat % n ≠ 0 then .error (.plain lane .misalign va)
  else s.transBytes bench core ctx nd lane va n

/-- Steps 2 and 3 of R199 for a scratch access in a window of S bytes. -/
def checkScr (size : Nat) (lane : Nat) (a : Int) (n : Nat) (ma : Bool) : Except LFault Nat :=
  if ¬ ma ∧ a % n ≠ 0 then .error (.plain lane .misalign (BitVec.ofInt 64 a))
  else if 0 ≤ a ∧ a + n ≤ size then .ok a.toNat
  else .error (.plain lane .range (BitVec.ofInt 64 a))

/-! ## Scratch -/

/-- A byte of a team's scratch window; what nothing has written is free (12 R160). -/
def Team.scrByte (t : Team) (a : Nat) : Byte := (Map.find? t.scratch a).getD (Config.freeScratch t.id a)

/-- Bytes of the window. -/
def Team.scrRead (t : Team) (a n : Nat) : List Byte := (List.range n).map fun i => t.scrByte (a + i)

/-- Writing bytes of the window; a 4-byte word covered whole is correct again (26 R326). -/
def Team.scrWrite (t : Team) (a : Nat) (bs : List Byte) : Team :=
  { t with scratch := (List.range bs.length).foldl (fun m i => Map.put m (a + i) (bs.getD i 0)) t.scratch
           scrBad := t.scrBad.filter fun w => !(decide (a ≤ 4 * w) && decide (4 * w + 4 ≤ a + bs.length)) }

/-- Whether bytes of the window are uncorrectable. -/
def Team.scrDamaged (t : Team) (a n : Nat) : Bool := t.scrBad.any fun w => decide (4 * w < a + n ∧ a < 4 * w + 4)

/-! ## Accesses of the device to descriptors, logs and queues -/

/-- The physical address of a byte of a context's address space as the device reaches it: the walk without permission
checks; the glory region is the link controllers' alone (01 R12). -/
def State.devAddr (s : State) (ctx va : Nat) : Option Nat :=
  if noncanon va then none else match s.pick 0 ctx va none with
    | .ok e => if (resolvePa (e.addr va)).isSome ∧ e.addr va / 2 ^ 40 ≠ 2 then some (e.addr va) else none
    | .error _ => none

/-- Reading bytes as the device; an unmapped byte reads 0. -/
def State.devRead (s : State) (ctx va n : Nat) : List Byte :=
  let ps := (pagesOf va n).map fun p => (p, s.devAddr ctx p)
  (List.range n).map fun i =>
    let a := va + i
    match ps.find? (·.1 = a / 8192 * 8192) with
    | some (p, some pa) => s.homeByte ((resolvePa (pa + (a - p))).getD 0)
    | _ => 0

/-- Some bytes from an address, cut at multiples of 64. -/
def lineCuts (va : Nat) (bs : List Byte) : List (Nat × List Byte) :=
  if bs.isEmpty then [] else
    (List.range ((va + bs.length - 1) / 64 + 1 - va / 64)).map fun i =>
      let lo := max va ((va / 64 + i) * 64)
      let hi := min (va + bs.length) ((va / 64 + i + 1) * 64)
      (lo, (bs.drop (lo - va)).take (hi - lo))

/-- Where a virtual address of the device lies; none on an unmapped page. -/
def State.devPlace (s : State) (ctx va : Nat) : Option Nat := (s.devAddr ctx va).bind resolvePa

/-- Writing bytes of one line as the device; an unmapped page takes nothing. -/
def State.devPut (s : State) (ctx : Nat) (c : Nat × List Byte) : State := match s.devPlace ctx c.1 with
  | none => s
  | some k => s.homeWrite k c.2

/-- Writing bytes as the device. -/
def State.devWrite (s : State) (ctx va : Nat) (bs : List Byte) : State :=
  (lineCuts va bs).foldl (fun s c => s.devPut ctx c) s

/-! ## Race records (12 R181 to R184) -/

/-- The group slot of a group on its core, 0 to 63 (01 R10). -/
def Core.slotOf (c : Core) (team grp : Nat) : Nat :=
  ((c.slots.find? fun x => x.2.1 = team ∧ x.2.2 = grp).map (·.1)).getD 0

/-- A record is open: the slot's group is in the region that wrote it (R182). -/
def State.raceOpen (s : State) (core : Nat) (r : Race) : Bool :=
  match (s.core core).slots.find? (·.1 = r.slot) with
  | none => false
  | some (_, t, g) => match s.group? t g with
    | some x => x.live && x.region == r.region
    | none => false

/-- The open record of another slot that conflicts with an access to a word. -/
def State.raceHit (s : State) (core slot : Nat) (rs : List Race) (word : Nat) (wr : Bool) : Option Race :=
  rs.find? fun r => r.slot ≠ slot && s.raceOpen core r && (r.wm.getLsbD word || (wr && r.rm.getLsbD word))

/-- Recording an access to words of a line: the group's record of its region, else an unused one, else one that is not
open, else the one written least recently. Records are listed oldest first. -/
def State.raceNote (s : State) (core slot : Nat) (region : BitVec 8) (rs : List Race) (words : BitVec 16) (wr : Bool) :
    List Race :=
  let upd (r : Race) : Race := if wr then { r with wm := r.wm ||| words } else { r with rm := r.rm ||| words }
  match rs.find? fun r => r.slot = slot ∧ r.region = region with
  | some r => rs.filter (· ≠ r) ++ [upd r]
  | none =>
    let new := upd { slot := slot, region := region, wm := 0, rm := 0 }
    if rs.length < 2 then rs ++ [new]
    else match rs.find? fun r => !s.raceOpen core r with
      | some r => rs.erase r ++ [new]
      | none => rs.tail ++ [new]

/-- A TLB drops entries: a bench's, a core's, or a compute die's (26 R335). -/
def State.evictTlb (s : State) (r : TlbRef) (p : TlbEnt → Bool) : State :=
  match r with
  | .bench c b => s.modCore c fun y => { y with btlb := y.btlb.filter fun e => !(e.1 = b && p e.2) }
  | .core c => s.modCore c fun y => { y with tlb := y.tlb.filter (!p ·) }
  | .die d => s.modDie d fun y => { y with tlb := y.tlb.filter (!p ·) }

/-- Every TLB entry of the package (26 R335). -/
def State.tlbAll (s : State) : List TlbEnt :=
  (s.cores.flatMap fun c => c.2.tlb ++ c.2.btlb.map (·.2)) ++ s.dies.flatMap (·.tlb)

/-- Entries dropped at every level of the package (26 R335). -/
def State.dropTlb (s : State) (p : TlbEnt → Bool) : State :=
  { s with
    cores := s.cores.map fun c => (c.1, { c.2 with tlb := c.2.tlb.filter (!p ·), btlb := c.2.btlb.filter (!p ·.2) })
    dies := s.dies.map fun (d : Die) => { d with tlb := d.tlb.filter (!p ·) } }

end Sys2Proof.Machine
end

