-- ==== Sys2Proof/Machine/Splits.lean ====
section
/-! DEFINITION. The split table and the join store of a group (03 R32 to R37): divergence, placement, arrival, fusion,
removal, the automatic jump and the spin detector. Splits change only after every fixed-latency result of the splits
involved has landed (05 R60). -/

namespace Sys2Proof.Machine

/-- The lowest free entry of the split table of 8 (R32). -/
def Group.freeEntry (g : Group) : Option Nat :=
  (List.range 8).find? fun e => g.splits.all fun x => x.entry ≠ some e

/-- The live children of a join record: splits and records whose parent it is (R33). -/
def Group.children (g : Group) (j : Nat) : Nat :=
  (g.splits.filter (·.parent = some j)).length + (g.joins.filter (·.parent = some j)).length

/-- A record of the join store. -/
def Group.join? (g : Group) (j : Nat) : Option Join := g.joins.find? (·.id = j)

/-- A fresh issuable split. -/
def Split.fresh (id : Nat) (mask : Word) (pc : DWord) (now : Nat) : Split :=
  { id := id, mask := mask, pc := pc, rpc := none, parent := none, entry := some 0, rank := 0, quiet := 0, loud := false,
    hold := .run, readyAt := now, issuedAt := now, arrivedBy := .seq, only := none,
    words := 0 }

/-- The lowest-placed held sibling under a record takes a freed table entry (R33). -/
def Group.promote (g : Group) (j : Nat) (entry : Option Nat) : Group :=
  match entry with
  | none => g
  | some e =>
    let held := g.splits.filter fun x => x.parent = some j ∧ x.entry = none
    match held.foldl (fun (b : Option Split) x => match b with
        | none => some x
        | some y => if x.rank < y.rank then some x else some y) none with
    | none => g
    | some x => g.modSplit x.id fun y => { y with entry := some e }

/-- An arrival or a removal returns the group's demoted and spinning splits to issue (R37, 09 R106); a split whose count
has reached 64 is demoted. -/
def Group.wake (g : Group) : Group :=
  { g with splits := g.splits.map fun x => match x.hold with
      | .demoted _ => { x with hold := .run, quiet := 0 }
      | .spinh _ => { x with hold := .run }
      | .run => if 64 ≤ x.quiet then { x with quiet := 0 } else x
      | _ => x }

/-- Fusion: when every child of a record has arrived, one split stands at J (R33). -/
def Group.fuse (g : Group) (now j : Nat) : Group :=
  match g.join? j with
  | none => g
  | some r =>
    if g.children j ≠ 0 ∨ r.arrived.isEmpty then g
    else
      let sp : Split := { Split.fresh g.nextId (r.arrived.foldl (· ||| ·) 0) (r.j.getD 0) now with
        rpc := r.saved, parent := r.parent, entry := g.freeEntry, rank := r.rank }
      { g with splits := g.splits ++ [sp], joins := g.joins.filter (·.id ≠ j), nextId := g.nextId + 1 }

/-- Arrival: the split leaves the table and its mask joins its record (R33). -/
def Group.arrive (g : Group) (now : Nat) (sp : Split) : Group :=
  match sp.parent with
  | none => g
  | some j =>
    let g := (g.landSplits [sp.id]).wake
    let g := { g with
      splits := g.splits.filter (·.id ≠ sp.id)
      joins := g.joins.map fun (r : Join) => if r.id = j then { r with arrived := r.arrived ++ [sp.mask] } else r }
    (g.promote j sp.entry).fuse now j

/-- A record left with a single child is dissolved: the child takes its place and its saved RPC (R33). -/
def Group.dissolve (g : Group) (r : Join) : Group :=
  { g with
    splits := g.splits.map fun x =>
      if x.parent = some r.id then { x with parent := r.parent, rpc := r.saved, rank := r.rank } else x
    joins := (g.joins.filter (·.id ≠ r.id)).map fun x =>
      if x.parent = some r.id then { x with parent := r.parent, saved := r.saved, rank := r.rank } else x }

/-- What a removal leaves of its record, and of the records above it (R33). -/
def Group.settleRecord (g : Group) (now : Nat) : Nat → Nat → Group
  | 0, _ => g
  | fuel + 1, j =>
    match g.join? j with
    | none => g
    | some r =>
      if g.children j = 0 then
        if r.arrived.isEmpty then
          let g := { g with joins := g.joins.filter (·.id ≠ j) }
          (match r.parent with
            | none => g
            | some p => g.settleRecord now fuel p)
        else g.fuse now j
      else if g.children j = 1 ∧ r.arrived.isEmpty then g.dissolve r
      else g

/-- Removal of a split, which counts as an arrival (R33). -/
def Group.removeSplit (g : Group) (now : Nat) (sp : Split) : Group :=
  let g := (g.landSplits [sp.id]).wake
  let g := { g with splits := g.splits.filter (·.id ≠ sp.id) }
  match sp.parent with
  | none => g
  | some j => (g.promote j sp.entry).settleRecord now 64 j

/-- Every split that stands at its reconvergence address where it would next issue arrives (R33). -/
def Group.settle (now : Nat) : Nat → Group → Group
  | 0, g => g
  | fuel + 1, g =>
    match g.splits.find? fun x => x.hold = .run ∧ x.entry.isSome ∧ x.parent.isSome ∧ x.rpc = some x.pc with
    | none => g
    | some sp => (g.arrive now sp).settle now fuel

/-- The automatic jump (R26, R27): the lone split of a group without an occupied lane stands at the refill point. -/
def Group.autoJump (g : Group) (now : Nat) (refill : DWord) : Group :=
  let g := g.landSplits (g.splits.map (·.id))
  { g with splits := [Split.fresh g.nextId 0 refill now], joins := [], nextId := g.nextId + 1 }

/-- A split has ended its instruction and stands at an address: with the arrivals that follow, or with the automatic jump
when its group's lanes were vacated meanwhile (R27). -/
def Group.boundary (g : Group) (now sp : Nat) : Group :=
  match (g.split? sp).bind (·.leave) with
  | some refill => g.autoJump now refill
  | none => g.settle now 64

/-- Moving a split to an address, with what follows at the boundary. -/
def Group.move (g : Group) (now sp : Nat) (pc : DWord) (a : Arrived) : Group :=
  (g.modSplit sp fun x => { x with pc := pc, arrivedBy := a, only := none, hold := .run, words := 0, bar := none }).boundary
    now sp

/-- Divergence (R33): one child per direction, the child of lane 0's direction first and the others in ascending order
of their lowest lane; the first takes the parent's entry, the others free entries while any remain. DESIGN CHOICE (log entry
82): every child starts with a quiet count of 0, for which the diverging branch itself does not count. -/
def Group.diverge (g : Group) (now : Nat) (sp : Split) (j : Option DWord) (dirs : List (Word × DWord × Arrived)) : Group :=
  let g := g.landSplits [sp.id]
  let dirs := sortBy (fun d => lowLane d.1) dirs
  let rec' : Join := { id := g.nextId, j := j, saved := sp.rpc, parent := sp.parent, rank := sp.rank, arrived := [] }
  let g := { g with splits := g.splits.filter (·.id ≠ sp.id), joins := g.joins ++ [rec'], nextId := g.nextId + 1 }
  let place (p : Group × Nat) (d : Word × DWord × Arrived) : Group × Nat :=
    let e := if p.2 = 0 then sp.entry else p.1.freeEntry
    ({ p.1 with
        splits := p.1.splits ++ [{ Split.fresh p.1.nextId d.1 d.2.1 now with
          rpc := j, parent := some rec'.id, entry := e, rank := p.2, arrivedBy := d.2.2, readyAt := sp.readyAt,
          issuedAt := sp.issuedAt }]
        nextId := p.1.nextId + 1 }, p.2 + 1)
  (dirs.foldl place (g, 0)).1.settle now 64

/-- The lanes of every split and arrived child that hold one of the lanes lose it; empty splits and arrived children are
removed, with what that leaves of their records, and a split that now stands at its reconvergence address arrives (R33). -/
def Group.dropLanes (g : Group) (now : Nat) (lanes : Word) : Group :=
  let emptied := (g.joins.filter fun (r : Join) => r.arrived.any fun m => m &&& ~~~lanes = 0).map (·.id)
  let g := { g with
    splits := g.splits.map fun (x : Split) => { x with mask := x.mask &&& ~~~lanes }
    joins := g.joins.map fun (r : Join) =>
      { r with arrived := (r.arrived.map fun (m : Word) => m &&& ~~~lanes).filter (· ≠ 0) } }
  let g := emptied.foldl (fun g j => g.wake.settleRecord now 64 j) g
  let gone := (g.splits.filter (·.mask = 0)).map (·.id)
  (gone.foldl (fun g i => match g.split? i with | some x => g.removeSplit now x | none => g) g).settle now 64

/-- A split is within an instruction: it is held there, and not by the spin detector. -/
def Split.midway (x : Split) : Bool := match x.hold with
  | .run | .demoted _ => false
  | _ => true

/-- Lanes become vacant and parked (R23, R26): they leave their splits. A group left without an occupied lane makes the
automatic jump, at the end of the instruction of a split that is within one (R27, log entry 83); of the split whose own
instruction vacates them this is the end. -/
def Group.vacate (g : Group) (now : Nat) (lanes : Word) (refill : DWord) (sp : Option Nat) : Group :=
  let g := { g with occ := g.occ &&& ~~~lanes }
  if g.occ ≠ 0 then g.dropLanes now lanes
  else match g.splits.find? fun x => some x.id ≠ sp ∧ x.midway = true with
    | none => g.autoJump now refill
    | some x =>
      let g := g.landSplits ((g.splits.map (·.id)).filter (· ≠ x.id))
      { g with
        splits := [{ x with mask := 0, rpc := none, parent := none, entry := some 0, rank := 0, leave := some refill }]
        joins := [] }

/-- The quiet count of a split after a backward branch (R36): a loud stretch resets it. At 64 the split no longer issues
and is demoted (R37). -/
def Split.backward (x : Split) : Split :=
  if x.loud then { x with quiet := 0, loud := false } else { x with quiet := x.quiet + 1 }

end Sys2Proof.Machine
end

