-- ==== Sys2Proof/Machine/Ops.lean ====
section
/-! DEFINITION. The operations that every meaning shares: issuing (the checks of Table 5.5 steps 5 to 8, R49), writing
results (R57), counters and operations in flight (14 R208), counting items, retiring groups and teams (03 R31, R41), and
taking a fault: `contain` is the one shared operation that writes the fault record and lets containment act (03 R38 to
R40, 26 R321 to R325). -/

namespace Sys2Proof.Machine

/-! ## The issuing split -/

/-- The issuing split with its group and team. -/
structure Iss where
  r : SRef
  tm : Team
  g : Group
  sp : Split
  deriving DecidableEq, Repr

/-- A team's splits act: it runs, or runs on in its notice interval (26 R337). -/
def Team.acting (t : Team) : Bool := match t.st with
  | .running | .notice _ => true
  | _ => false

/-- The split that a reference names, in a team that has not been stopped. -/
def State.at? (s : State) (r : SRef) : Option Iss :=
  match s.team? r.team with
  | none => none
  | some tm => if !tm.acting then none else match tm.group? r.grp with
    | none => none
    | some g => match g.split? r.split with
      | none => none
      | some sp => some ⟨r, tm, g, sp⟩

/-- The split that is selected to issue. -/
def State.issuer (s : State) : Option Iss := s.sel.bind s.at?

/-- The same split after the state has changed. -/
def Iss.re (x : Iss) (s : State) : Option Iss := s.at? x.r

/-- The launch of the issuing team. -/
def Iss.launch (x : Iss) (s : State) : Option Launch := s.launch? x.tm.launch

/-- The context whose tables translate for the team. -/
def Team.ctx (t : Team) (s : State) : Nat := ((s.launch? t.launch).map (·.ctx)).getD 0

/-- The bench of a group (03 R16). -/
def Iss.bench (x : Iss) : Nat := x.g.grp % 4

/-- The scratch size S of the team. -/
def Team.scrSize (t : Team) (s : State) : Nat := ((s.launch? t.launch).map (·.kern.scratch)).getD 0

/-- The lanes of R5. -/
def Iss.active (x : Iss) (h : Hdr) : Word := x.g.active x.sp h

/-- An effective register number. -/
def Iss.eff (x : Iss) (h : Hdr) (r : Reg) : Nat := x.g.eff x.sp.id h.xs r

/-- Changing the issuing group. -/
def State.modG (s : State) (r : SRef) (f : Group → Group) : State := s.modGroup r.team r.grp f

/-- The address of the next instruction (09 R97). -/
def Iss.next (x : Iss) (h : Hdr) : DWord := x.sp.pc + BitVec.ofNat 64 (4 * h.len.words)

/-! ## Results and stall counts (05 R57, R58) -/

/-- The registers that an instruction reads and writes, as (class, number): 0 vector, 1 class 0x1, 2 mask, 4 tile. -/
def Group.touches (g : Group) (sp : Nat) (xs : BitVec 2) (os : List Opnd) : List (Nat × Nat) :=
  os.flatMap fun o =>
    let b := g.eff sp xs o.reg
    let c := match o.cls with | .v => 0 | .s => 1 | .s63 => 1 | .k => 2 | .a => 4
    (List.range o.cnt).map fun i => (c, b + i)

/-- The destinations that have the fixed timing of the instruction's slot; %flg is one (R130), and so is k0, although the
write to it is discarded (log entry 70). -/
def Group.fixedDests (g : Group) (sp : Nat) (h : Hdr) (i : Instr) : List (Nat × Nat) :=
  g.touches sp h.xs (i.opnds.filter (·.wr)) ++ (if i.setsFlags then [(3, 0)] else [])

/-- A split has consumed an issue slot and its stall count: the distances of its writes shrink, and other splits' YIELDs
see that it issued (R58, 09 R105). -/
def Group.consume (g : Group) (now sp st : Nat) (loud : Bool) : Group :=
  let g := { g with splits := g.splits.map fun (x : Split) =>
    if x.id = sp then { x with readyAt := now + st + 1, issuedAt := now, loud := x.loud || loud }
    else match x.hold with
      | .yield till seen => { x with hold := .yield till (if seen.contains sp then seen else sp :: seen) }
      | _ => x }
  { g with
    pend := (g.pend.map fun (e : Pend) => if e.split = sp then { e with dist := e.dist - (st + 1) } else e).filter
      fun e => !(e.landed && e.dist == 0)
    score := (g.score.map fun (e : Score) => if e.split = sp then { e with dist := e.dist - (st + 1) } else e).filter
      fun e => e.dist ≠ 0 }

/-- A write that changes a value (R36); a write to k0 is none (R54). -/
def Group.changes (g : Group) (sp : Nat) (w : Loc × DWord × DWord) : Bool :=
  let m := w.2.1 &&& w.1.width
  w.1 != .k 0 && (g.newest sp w.1 ^^^ w.2.2) &&& m != 0

/-- Entering fixed-latency writes (R57): place, mask and value; k0 takes none (R54). -/
def Group.enter (g : Group) (now sp lat : Nat) (dests : List (Nat × Nat)) (ws : List (Loc × DWord × DWord)) : Group :=
  let ws := ws.filter (·.1 ≠ .k 0)
  { g with
    pend := g.pend ++ ws.map fun w =>
      { split := sp, loc := w.1, mask := w.2.1 &&& w.1.width, old := g.newest sp w.1,
        new := (g.newest sp w.1 &&& ~~~w.2.1) ||| (w.2.2 &&& w.2.1 &&& w.1.width), dist := lat, landsAt := now + lat,
        landed := false }
    score := g.score ++ dests.map fun d => { split := sp, cls := d.1, reg := d.2, dist := lat }
    badRegs := (ws.foldl (fun g w => g.rectify w.1 w.2.1) g).badRegs }

/-- Completing an instruction whose only effect is to go on at the next address. -/
def Iss.pass (x : Iss) (h : Hdr) (loud : Bool) (s : State) : State :=
  s.modG x.r fun g => (g.consume s.now x.sp.id h.st.toNat loud).move s.now x.sp.id (x.next h) .seq

/-- Completing an instruction with fixed-latency results. -/
def Iss.finish (x : Iss) (i : Instr) (h : Hdr) (lat : Nat) (ws : List (Loc × DWord × DWord)) (s : State) : State :=
  s.modG x.r fun g =>
    ((g.enter s.now x.sp.id lat (g.fixedDests x.sp.id h i) ws).consume s.now x.sp.id h.st.toNat
      (ws.any (g.changes x.sp.id))).move s.now x.sp.id (x.next h) .seq

/-- Completing an instruction with interlocked results, which the next instruction already finds (R57, 09 R103). -/
def Iss.finishNow (x : Iss) (h : Hdr) (ws : List (Loc × DWord × DWord)) (s : State) : State :=
  s.modG x.r fun g =>
    let loud := ws.any (g.changes x.sp.id)
    let g := ws.foldl (fun g w => g.writeNow w.1 w.2.1 w.2.2) g
    (g.consume s.now x.sp.id h.st.toNat loud).move s.now x.sp.id (x.next h) .seq

/-- Holding the split at its instruction. -/
def Iss.hold (x : Iss) (h : Hdr) (hd : Hold) (loud : Bool) (s : State) : State :=
  s.modG x.r fun g => (g.consume s.now x.sp.id h.st.toNat loud).modSplit x.sp.id fun y => { y with hold := hd }

/-- A held split passes its instruction of some words. -/
def State.passHeld (s : State) (r : SRef) (words : Nat) : State :=
  s.modG r fun g => match g.split? r.split with
    | none => g
    | some x => g.move s.now r.split (x.pc + BitVec.ofNat 64 (4 * words)) .seq

/-- All ones. -/
def ones : DWord := 0xFFFFFFFFFFFFFFFF

/-- Per-lane results in a vector register. -/
def vecW (n : Nat) (lanes : Word) (f : Nat → Word) : List (Loc × DWord × DWord) :=
  (lanesOf lanes).map fun l => (.v n l, ones, (f l).setWidth 64)

/-- Per-lane 64-bit results in a pair. -/
def pairW (n : Nat) (lanes : Word) (f : Nat → DWord) : List (Loc × DWord × DWord) :=
  (lanesOf lanes).flatMap fun l =>
    [(.v n l, ones, (f l).setWidth 32 |>.setWidth 64), (.v (n + 1) l, ones, f l >>> 32)]

/-- A scalar result. -/
def sclW (n : Nat) (v : DWord) : List (Loc × DWord × DWord) := [(.s n, ones, v)]

/-- Bits of a mask register. -/
def maskW (n : Nat) (bits v : Word) : List (Loc × DWord × DWord) := [(.k n, bits.setWidth 64, v.setWidth 64)]

/-! ## Counters and operations in flight (14 R208, 12 R188) -/

/-- Regions overlap (12 R188). -/
def Region.overlaps (a b : Region) : Bool :=
  a.sp == b.sp && (a.wr || b.wr) && decide (a.lo < b.hi) && decide (b.lo < a.hi)

/-- An operation that waits for its trigger or runs. -/
def Group.op? (g : Group) (i : Nat) : Option Op := g.ops.find? (·.id = i)

/-- Changing an operation. -/
def Group.modOp (g : Group) (i : Nat) (f : Op → Op) : Group :=
  { g with ops := g.ops.map fun o => if o.id = i then f o else o }

/-- The value of a counter (R208). -/
def Group.ctr (g : Group) (n : Nat) : Nat := (g.ctrs.getD n []).length

/-- Regions share a byte, in whatever direction (12 R167). -/
def Region.meets (a b : Region) : Bool := a.sp == b.sp && decide (a.lo < b.hi) && decide (b.lo < a.hi)

/-- The operation is an access of the group itself that has not been performed: of classes 0x8 and 0x9. -/
def Op.unperformed (o : Op) : Bool := !o.engine && !o.fp.isEmpty

/-- The operations before a number that a new operation must follow: for an engine operation the engine operations whose
footprints overlap its own (12 R188) and every access that the group issued before it (12 R186); for an access of the group
the earlier accesses to bytes of its own (12 R167). -/
def Group.edges (g : Group) (engine : Bool) (fp : List Region) (before : Nat) : List Nat :=
  (g.ops.filter fun o => decide (o.id < before) &&
    (if engine then o.unperformed || o.fp.any fun a => fp.any a.overlaps
     else !o.engine && o.fp.any fun a => fp.any a.meets)).map (·.id)

/-- A new operation of the issuing split: it takes its place on its counter and its edges in the checker. -/
def Iss.addOp (x : Iss) (now : Nat) (kind : OpKind) (ctrs : List Nat) (engine : Bool) (fp : List Region)
    (bn : Option Nat) (bytes : Nat) (trig : Option TrigWait) (g : Group) (ord : Order := .rlx) (sc : Scope := .grp) :
    Group :=
  let deps := g.edges engine fp g.nextOp
  { g with
    ops := g.ops ++ [{
      id := g.nextOp, kind := kind, nth := ctrs.map fun n => (n, g.ctot.getD n 0), pc := x.sp.pc, split := x.sp.id, mask := x.sp.mask, ord := ord, scope := sc
      ages := (List.range 32).map g.ageOf, items := (List.range 32).map g.itemOf, deps := deps, fp := fp, bn := bn
      bytes := bytes, trig := trig, engine := engine, waitRetry := false, abandoned := false, done := false, at_ := now }]
    ctrs := ctrs.foldl (fun l n => l.modify n (· ++ [(g.nextOp, false)])) g.ctrs
    ctot := ctrs.foldl (fun l n => l.modify n (· + 1)) g.ctot
    nextOp := g.nextOp + 1 }

/-- A counter is full, or the checker holds 32 operations: the issue waits (R208, 12 R188). -/
def Group.full (g : Group) (ctrs : List Nat) (engine : Bool) : Bool :=
  (ctrs.any fun n => decide (1023 ≤ g.ctr n)) ||
  (engine && 32 ≤ (g.ops.filter fun o => o.engine && !o.done).length)

/-- The completed prefix of a counter has counted down (R208). -/
def countDown (l : List (Nat × Bool)) : List (Nat × Bool) := l.dropWhile (·.2)

/-- An operation has completed: it leaves the checker, and its counter counts down when those before it have (R208). -/
def Group.opDone (g : Group) (i : Nat) : Group :=
  { g with
    ops := (g.ops.filter (·.id ≠ i)).map fun (o : Op) => { o with deps := o.deps.filter (· ≠ i) }
    ctrs := g.ctrs.map fun c => countDown (c.map fun p => if p.1 = i then (p.1, true) else p) }

/-- A remote operation has completed locally: it leaves the checker and its counters, and stays on record until its
destinations have answered (28 R358, R361). -/
def Group.opLocal (g : Group) (i : Nat) : Group :=
  { g with
    ops := g.ops.map fun (o : Op) =>
      if o.id = i then { o with done := true, fp := [], bn := none } else { o with deps := o.deps.filter (· ≠ i) }
    ctrs := g.ctrs.map fun c => countDown (c.map fun p => if p.1 = i then (p.1, true) else p) }

/-- An operation has completed on one of its counters alone (18 R268). -/
def Group.ctrDone (g : Group) (i n : Nat) : Group :=
  { g with ctrs := g.ctrs.modify n fun c => countDown (c.map fun p => if p.1 = i then (p.1, true) else p) }

/-- An operation may perform its accesses: it has fired, nothing that it depends on is in flight, and no lane of it waits
for a RETRY. -/
def Op.free (o : Op) : Bool := o.trig.isNone && o.deps.isEmpty && !o.abandoned

/-! ## Items, blocks and retirement (03 R18 to R31, R41) -/

/-- The feed of a fed launch: the items appended and whether its queue is closed, as they stand or, once another launch feeds
on that queue, as they stood (22 R297). -/
def State.feed (s : State) (l : Launch) : Nat × Bool :=
  l.fedEnd.getD ((s.queue l.desc.qnum).appended, (s.queue l.desc.qnum).closed)

/-- The number of items of a launch so far: N, or the appended items of its queue (22 R298). -/
def State.itemCount (s : State) (l : Launch) : Nat := if l.desc.fed then (s.feed l).1 else l.desc.items

/-- First item of a block. -/
def Launch.blkLo (l : Launch) (j : Nat) : Nat := j * 2 ^ l.desc.lblk
/-- End of a block among the items there are. -/
def State.blkHi (s : State) (l : Launch) (j : Nat) : Nat := min (l.blkLo (j + 1)) (s.itemCount l)

/-- The number of blocks of a launch so far (R18). -/
def State.blockCount (s : State) (l : Launch) : Nat := (s.itemCount l + 2 ^ l.desc.lblk - 1) / 2 ^ l.desc.lblk

/-- Whether a block of the launch has not been drawn, or has returned to the queue (R19, R40). -/
def State.undrawn (s : State) (l : Launch) : Bool := decide (l.blks.length + l.blkDone.length < s.blockCount l)

/-- The launch of a node of a queue's graph: the one created last. -/
def State.nodeLaunch? (s : State) (queue node : Nat) : Option Launch :=
  s.launches.reverse.find? fun l => l.queue = queue ∧ l.node = node

/-- The producer blocks that a consumer block needs under a dependency descriptor, as an interval [lo, hi]; none for an
empty range (24 R312). The block count of a fed producer is unbounded until its queue closes (22 R298). -/
def State.depRange (s : State) (l : Launch) (d : Dep) (j : Nat) : Option (Nat × Nat) :=
  let at_ (o : Int) : Int := Int.fdiv (d.a * j + o) d.d
  let lo := max 0 (at_ d.lo)
  let hi := match s.nodeLaunch? l.queue d.pnode with
    | none => -1
    | some p => if p.desc.fed && !(s.feed p).2 then at_ d.hi else min ((s.blockCount p : Int) - 1) (at_ d.hi)
  if lo ≤ hi then some (lo.toNat, hi.toNat) else none

/-- Freeing the ring slots of fed items that have been counted (22 R297). -/
def LQueue.free (q : LQueue) (items : List Nat) : LQueue :=
  let ahead := q.freedAhead ++ items
  let rec go : Nat → Nat → List Nat → Nat × List Nat
    | 0, f, a => (f, a)
    | n + 1, f, a => if a.contains f then go n (f + 1) (a.erase f) else (f, a)
  let r := go ahead.length q.freed ahead
  { q with freed := r.1, freedAhead := r.2 }

/-- How an item ends (R41). -/
inductive Ending where
  | exited | killed | lost
  deriving DecidableEq, Repr

/-- Counting items of a launch (R41): the launch's counts, its blocks' counts, and the slots of its ring. -/
def State.countItems (s : State) (lid : Nat) (e : Ending) (items : List Nat) : State :=
  match s.launch? lid with
  | none => s
  | some l =>
    let n := items.length
    let s := s.modLaunch lid fun l =>
      { l with
        exited := if e = .exited then l.exited + n else l.exited
        killed := if e = .killed then l.killed + n else l.killed
        lost := if e = .lost then l.lost + n else l.lost
        blks := l.blks.map fun (b : Blk) =>
          let k := (items.filter fun i => i / 2 ^ l.desc.lblk = b.blk).length
          if k = 0 then b else { b with counted := b.counted + k, last := s.now } }
    if l.desc.fed then s.modQueue l.desc.qnum (·.free items) else s

/-- The address of the refill point (R28). -/
def Team.refillPc (t : Team) (s : State) : DWord :=
  match s.launch? t.launch with
  | none => 0
  | some l => l.kern.entry + BitVec.ofNat 64 l.kern.refill

/-- The items of lanes of a group. -/
def Group.itemsOf (g : Group) (lanes : Word) : List Nat := (lanesOf lanes).map fun l => (g.itemOf l).toNat

/-- A held block has given out its last item (22 R298: a block of an open queue is not exhausted before B items). -/
def State.exhausted (s : State) (l : Launch) (h : Held) : Bool :=
  decide (l.blkLo (h.blk + 1) ≤ h.pos) ||
  (decide (s.blkHi l h.blk ≤ h.pos) && (!l.desc.fed || (s.feed l).2))

/-- A team asks for a block, unless a request of it waits already (R19). -/
def Team.ask (t : Team) (now : Nat) (b : Bool) : Team :=
  if b && !t.wantBlk then { t with wantBlk := true, asked := now } else t

/-- When the current block is exhausted the next becomes current (R19); one whose first item has been handed out already
asks for another (log entry 71). -/
def State.shift (s : State) (l : Launch) (t : Team) : Team :=
  if (t.cur.map (s.exhausted l)).getD true then
    { t with cur := t.nxt, nxt := none }.ask s.now (match t.nxt with
      | some k => k.pos ≠ l.blkLo k.blk
      | none => false)
  else t

/-- A retired team: undispensed items of its current block are counted as killed, a next block from which none was
dispensed returns to the queue (R31), unfired triggered operations are discarded (14 R221), and its resources fall
free. -/
def State.retireTeam (s : State) (t : Nat) : State :=
  match s.team? t with
  | none => s
  | some tm => match s.launch? tm.launch with
    | none => s
    | some l =>
      let tm := s.shift l tm
      let rest (o : Option Held) : List Nat := match o with
        | none => []
        | some h => (List.range (s.blkHi l h.blk - h.pos)).map (h.pos + ·)
      let back (o : Option Held) : Bool := match o with
        | none => false
        | some h => h.pos = l.blkLo h.blk
      let s := s.countItems l.id .killed (rest tm.cur)
      let s := if back tm.nxt then
          (match tm.nxt with
            | some h => s.modLaunch l.id fun l =>
                { l with returned := l.returned ++ [h.blk], blks := l.blks.filter (·.blk ≠ h.blk) }
            | none => s)
        else s.countItems l.id .killed (rest tm.nxt)
      let s := s.modTeam t fun tm =>
        { tm with
          st := .retired, cur := none, nxt := none, wantBlk := false
          groups := tm.groups.map fun (g : Group) =>
                    (g.ops.filter (·.trig.isSome)).foldl (fun g o => g.opDone o.id) g }
      let s := match tm.st with
        | .saved slot => s.modLaunch l.id fun l => { l with slots := l.slots.erase slot }
        | _ => s
      s.modCore tm.core fun c => { c with slots := c.slots.filter (·.2.1 ≠ t) }

/-! ## Group barriers (14 R207) -/

/-- The groups that a barrier of the team or of its cluster takes in, as (team, group), with whether each is live. -/
def State.barGroups (s : State) (tm : Team) (cluster : Bool) : List (Nat × Nat × Bool) :=
  let ts := if cluster then s.teams.filter fun t => t.launch = tm.launch ∧ t.clus = tm.clus else [tm]
  ts.flatMap fun t => t.groups.map fun g => (t.id, g.grp, g.live)

/-- The open instance of a team's or its cluster's barrier. -/
def State.barInst (s : State) (tm : Team) (cluster : Bool) : BarInst :=
  if cluster then ((s.clusterOf? tm).map (·.barInst)).getD { num := 0, arrived := [], expect := none, fixed := false }
  else tm.barInst

/-- Changing the open instance. -/
def State.setBarInst (s : State) (tm : Team) (cluster : Bool) (b : BarInst) : State :=
  if cluster then (match s.clusterOf? tm with
    | some c => s.modCluster c.id fun c => { c with barInst := b }
    | none => s)
  else s.modTeam tm.id fun t => { t with barInst := b }

/-- The number of groups that have not retired. -/
def State.barLive (s : State) (tm : Team) (cluster : Bool) : Nat := ((s.barGroups tm cluster).filter (·.2.2)).length

/-- The complete instances of a team's or its cluster's barrier whose departures are still to come. -/
def State.barDone (s : State) (tm : Team) (cluster : Bool) : List BarInst :=
  if cluster then ((s.clusterOf? tm).map (·.barDone)).getD [] else tm.barDone

/-- Changing the complete instances. -/
def State.setBarDone (s : State) (tm : Team) (cluster : Bool) (l : List BarInst) : State :=
  if cluster then (match s.clusterOf? tm with
    | some c => s.modCluster c.id fun c => { c with barDone := l }
    | none => s)
  else s.modTeam tm.id fun t => { t with barDone := l }

/-- The expected count of an open instance at this moment (14 R207). -/
def State.barExpect (s : State) (tm : Team) (cluster : Bool) (b : BarInst) : Nat :=
  if b.fixed then b.expect.getD 0 else s.barLive tm cluster

/-- An instance whose arrivals equal its expected count is complete, and the next one opens (14 R207). -/
def State.closeBar (s : State) (t : Nat) (cluster : Bool) : State :=
  match s.team? t with
  | none => s
  | some tm =>
    let b := s.barInst tm cluster
    if !b.arrived.isEmpty && decide (s.barExpect tm cluster b ≤ b.arrived.length) then
      (s.setBarDone tm cluster (s.barDone tm cluster ++ [b])).setBarInst tm cluster
        { num := b.num + 1, arrived := [], expect := none, fixed := false }
    else s

/-- Every record of a group's slot in the core is cleared (12 R182). -/
def State.clearRaces (s : State) (core t gi : Nat) : State :=
  let slot := (s.core core).slotOf t gi
  let clr (m : Map (List Race)) : Map (List Race) :=
    (m.map fun p => (p.1, p.2.filter (·.slot ≠ slot))).filter (!·.2.isEmpty)
  (s.modCore core fun c => { c with race := clr c.race }).modTeam t fun t => { t with scrRace := clr t.scrRace }

/-- A group retires (R31): its slot and registers fall free, its arrivals at rendezvous are withdrawn, the expected
count of an open barrier instance falls (14 R207), and the team retires with its last group. -/
def State.retireGroup (s : State) (t gi : Nat) : State :=
  match s.team? t with
  | none => s
  | some tm =>
    let s := s.modTeam t fun tm =>
      { (tm.modGroup gi fun g => { g with
          live := false, splits := [], joins := [], occ := 0, pend := [], score := []
          vregs := [], sregs := [], kregs := [], tiles := [], tflags := [], xp := none, efaults := []
          ops := g.ops.map fun (o : Op) => { o with waitRetry := false } }) with
        quartArr := tm.quartArr.filter (·.2.2.grp ≠ gi)
        spanArr := tm.spanArr.filter (·.2.2.grp ≠ gi) }
    let s := (s.closeBar t false).closeBar t true
    let s := s.clearRaces tm.core t gi
    let s := s.modCore tm.core fun c => { c with slots := c.slots.filter fun x => !(x.2.1 = t && x.2.2 = gi) }
    match s.team? t with
    | none => s
    | some tm => if tm.groups.all (!·.live) then s.retireTeam t else s

/-- Every occupied lane's item is counted as killed and the group retires (Table 3.5, R108). -/
def State.killGroup (s : State) (t gi : Nat) : State :=
  match s.team? t with
  | none => s
  | some tm => match tm.group? gi with
    | none => s
    | some g => if g.live then (s.countItems tm.launch .killed (g.itemsOf g.occ)).retireGroup t gi else s

/-- Every group of the team is killed (Table 3.5). -/
def State.killTeam (s : State) (t : Nat) : State :=
  match s.team? t with
  | none => s
  | some tm =>
    let s := tm.groups.foldl (fun s g => s.killGroup t g.grp) s
    match s.team? t with
    | none => s
    | some tm => if tm.st = .retired then s else s.retireTeam t

/-- The launch ends with status KILLED and every team is killed (Table 3.5, R368). -/
def State.killLaunch (s : State) (l : Nat) : State :=
  let s := s.modLaunch l fun x => { x with killing := true, suspended := false, reports := [], held := [] }
  (s.teams.filter fun t => t.launch = l ∧ t.st ≠ .retired).foldl (fun s t => s.killTeam t.id) s

/-! ## Taking a fault (03 R38 to R40, 26 R321 to R325) -/

/-- A fault as it enters containment: cause, origin level (0 item to 4 grid), lanes, address, detail, the pages that failed
to translate, the PC and split mask of its record, whether an engine operation raised it, and whether the split holds no
decoded instruction (R39). -/
structure FInfo where
  cause : Cause
  level : Nat
  lanes : Word
  addr : DWord
  detail : DWord
  pages : List (DWord × Bool × Nat)
  pc : DWord
  split : Word
  eng : Bool
  fetch : Bool
  deriving DecidableEq, Repr

/-- Code of an action in FREC0 (Table 26.2). -/
def Action.code : Action → Nat
  | .ign => 0 | .retry => 1 | .kself => 2 | .kparent => 3

/-- The level and action that absorb a fault; none when it leaves the grid (R39). -/
def absorb (policy : List Action) (f : FInfo) : Option (Nat × Action) :=
  (List.range 5).findSome? fun lv =>
    if lv < f.level then none
    else match policy.getD lv .kparent with
      | .kparent => none
      | .ign => if f.fetch then none else some (lv, .ign)
      | .retry => if f.cause.retryable then some (lv, .retry) else none
      | .kself => some (lv, .kself)

/-- The iteration of an expansion that a lane holds: owner position, inner index and t (22 R286). -/
def Group.iterOf (g : Group) (lane : Nat) : Option (Nat × Nat × Nat) := g.xp.bind fun e => (e.iter.getD lane none)

/-- The first group of the span that a group's expansion covers. -/
def Group.spanBase (g : Group) : Nat := match g.xp with
  | some e => g.grp / e.span.size * e.span.size
  | none => g.grp

/-- The distinct pages of a record, ascending (R324). -/
def pageList (ps : List (DWord × Bool × Nat)) : List (DWord × Bool × Nat) := sortBy (fun p => p.1.toNat) ps.dedup

/-- FREC0 to FREC7 (Table 26.2). -/
def frecOf (tm : Team) (g : Group) (f : FInfo) (seq absorbL action : Nat) : List DWord :=
  let n (x : Nat) : DWord := BitVec.ofNat 64 x
  let ps := pageList f.pages
  let lane := lowLane f.lanes
  let it := if f.lanes = 0 then none else g.iterOf lane
  let (item, inner) := match it with
    | some (o, j, _) => (match tm.group? (g.spanBase + o / 32) with
        | some og => ((og.itemOf (o % 32)).toNat, j)
        | none => (0, j))
    | none => (if f.lanes = 0 then 0 else (g.itemOf lane).toNat, 0)
  let lvl := match ps with
    | (_, _, l) :: _ => l
    | [] => 0
  let detail := match f.cause with
    | .page | .prot => lvl + (if f.fetch then 8 else 0)
    | _ => f.detail.toNat
  [ n (seq * 2 ^ 32 + min ps.length 32 * 2 ^ 24 + (if 32 < ps.length then 2 ^ 23 else 0)
      + (if it.isSome then 2 ^ 22 else 0) + (if f.eng then 2 ^ 21 else 0) + action * 2 ^ 19 + absorbL * 2 ^ 16
      + f.level * 2 ^ 8 + f.cause.code),
    f.pc,
    n (f.split.toNat * 2 ^ 32 + f.lanes.toNat),
    n ((if f.lanes = 0 then 0 else lane) * 2 ^ 48 + item),
    f.addr,
    n detail,
    n ((if f.lanes = 0 then 0 else (g.ageOf lane).toNat) * 2 ^ 32 + inner),
    n (g.grp * 2 ^ 32 + tm.num) ]

/-- The split descriptors of a CONVERGE record (R323, R35): mask, state (0 issuable, 1 held, 2 arrived) and PC. -/
def Group.convergeList (g : Group) : List (Word × Nat × DWord) :=
  (g.splits.map fun x => (x.mask, if x.entry.isSome then 0 else 1, x.pc)) ++
  (g.joins.flatMap fun r => r.arrived.map fun m => (m, 2, r.j.getD 0))

/-- A log entry of 1 KiB (R323). -/
def logEntry (frec : List DWord) (pages : List (DWord × Bool × Nat)) (conv : List (Word × Nat × DWord)) : List Byte :=
  let pad (n : Nat) (l : List Byte) : List Byte := l ++ List.replicate (n - l.length) 0
  let pg := ((pageList pages).take 32).flatMap fun p =>
    natLe 8 (p.1.toNat / 8192 * 8192 + (if p.2.1 then 8 else 0) + p.2.2)
  let cv := (conv.take 32).flatMap fun c => natLe 4 c.1.toNat ++ natLe 4 c.2.1 ++ natLe 8 c.2.2.toNat
  pad 1024 (pad 320 (frec.flatMap (fun x => natLe 8 x.toNat) ++ pg) ++ cv)

/-- Appending an entry to a launch's fault log: entry n lies at n mod 1,024, and LOGN counts (R323, R340). -/
def State.logFault (s : State) (lid : Nat) (entry : List Byte) : State :=
  match s.launch? lid with
  | none => s
  | some l =>
    let s := s.devWrite l.ctx (l.desc.save.toNat + 4096 + l.nfault % 1024 * 1024) entry
    let s := s.devWrite l.ctx (l.desc.save.toNat + 8) (natLe 8 (l.nfault + 1))
    s.modLaunch lid fun l => { l with nfault := l.nfault + 1 }

/-- Setting the killed bit of an owner in every member of the span (22 R295). -/
def Team.killOwner (tm : Team) (g : Group) (o : Nat) : Team :=
  { tm with groups := tm.groups.map fun (x : Group) =>
      match g.xp, x.xp with
      | some e, some y =>
        if x.grp / e.span.size = g.grp / e.span.size then { x with xp := some { y with killed := y.killed.set o true } } else x
      | _, _ => x }

/-- The owner position of a lane that is an owner of the active expansion (22 R285, R286). -/
def Group.ownerOf (g : Group) (lane : Nat) : Option Nat := match g.xp with
  | none => none
  | some e =>
    let o := 32 * (g.grp % e.span.size) + lane
    if (e.lens.getD o 0) ≠ 0 then some o else none

/-- Item-level KSELF (Table 3.5, 22 R295): a lane with an iteration, or an owner, marks the owner killed and stays; any
other lane is vacated as by EXIT and its item counted as killed. For a fetch fault every lane is vacated and the split
removed (05 R47, 09 R100), although it marks the owners killed too (DESIGN CHOICE, log entry 84). -/
def State.killLanes (s : State) (r : SRef) (lanes : Word) (fetch : Bool) : State :=
  match s.team? r.team with
  | none => s
  | some tm => match tm.group? r.grp with
    | none => s
    | some g =>
      let owner (l : Nat) : Option Nat := match g.iterOf l with
        | some (o, _, _) => some o
        | none => g.ownerOf l
      let s := s.modTeam r.team fun tm => ((lanesOf lanes).filterMap owner).foldl (fun tm o => tm.killOwner g o) tm
      let out := maskBy fun l => lanes.getLsbD l && g.occ.getLsbD l && (fetch || (owner l).isNone)
      if out = 0 then s
      else (s.countItems tm.launch .killed (g.itemsOf out)).modGroup r.team r.grp fun g =>
        g.vacate s.now out (tm.refillPc s) (some r.split)

/-- KSELF at a level, for lanes of a split's group (Table 3.5). -/
def State.kself (s : State) (tm : Team) (lv : Nat) (r : SRef) (lanes : Word) (fetch : Bool) : State :=
  if lv = 0 then s.killLanes r lanes fetch
  else if lv = 1 then s.killGroup tm.id r.grp
  else if lv = 2 then s.killTeam tm.id
  else if lv = 3 then
    (s.teams.filter fun t => t.launch = tm.launch ∧ t.clus = tm.clus).foldl (fun s t => s.killTeam t.id) s
  else s.killLaunch tm.launch

/-- How a fault was disposed of: IGN at a level, held for an answer (the whole instruction, or its faulting lanes, to be
reissued), or ended. -/
inductive Disp where
  | ign (level : Nat)
  | held (whole : Bool)
  | killed
  deriving DecidableEq, Repr

/-- A launch suspended beyond the grid: its teams are pre-empted without a notice interval (R40, R337). -/
def State.suspend (s : State) (lid seq : Nat) : State :=
  let s := (s.modLaunch lid fun l => { l with suspended := true, held := [] }).tell (.suspended lid seq)
  { s with teams := s.teams.map fun (t : Team) =>
      if t.launch = lid then (match t.st with
        | .running | .notice _ => { t with st := .notice s.now, why := some .grid }
        | _ => t) else t }

/-- TAKING A FAULT: the record is written to FREC0 to FREC7 before containment acts (R322); the policies are consulted
from the origin level upward (R39); the action has the effect of Table 3.5, the faulting split standing still meanwhile;
IGN, KSELF and what leaves the grid are logged (R40); RETRY and what leaves the grid wait for an answer (R368). -/
def State.contain (s : State) (r : SRef) (f : FInfo) (eng : Option EFault := none) : State × Disp :=
  match s.team? r.team with
  | none => (s, .killed)
  | some tm => match tm.group? r.grp, s.launch? tm.launch with
    | some g, some l =>
      let seq := l.seq + 1
      let a := absorb l.desc.policy f
      let (lv, act) := a.getD (7, .kparent)
      let frec := frecOf tm g f seq lv act.code
      let s := (s.modLaunch l.id fun l => { l with seq := seq }).modGroup r.team r.grp fun g => { g with frec := frec }
      let s := s.modGroup r.team r.grp fun g => g.landSplits [r.split]
      let entry := logEntry frec f.pages (if f.cause = .converge then g.convergeList else [])
      let held := ((g.split? r.split).map (·.hold)).getD .run
      let held := match held with | .fault _ => .run | h => h
      let rep : Report :=
        { seq := seq, team := r.team, grp := r.grp, split := r.split, level := f.level,
          cause := some f.cause, lanes := f.lanes, grid := a.isNone, trapStop := false, held := held, eng := eng, fetch := f.fetch }
      let hold (s : State) := (s.modLaunch l.id fun l => { l with reports := l.reports ++ [rep] }).modSplit r fun x =>
        { x with hold := .fault seq }
      match a with
      | none => ((hold ((s.logFault l.id entry).tell (.delivered l.id seq entry))).suspend l.id seq, .held (f.level != 0))
      | some (lvl, .retry) => (hold (s.tell (.delivered l.id seq entry)), .held (lvl != 0))
      | some (lvl, .ign) => (s.logFault l.id entry, .ign lvl)
      | some (_, .kparent) => (s, .killed)
      | some (lvl, .kself) =>
        let was := ((g.split? r.split).map (·.hold)).getD .run
        let s := ((s.logFault l.id entry).modSplit r fun x => { x with hold := .fault seq }).kself tm lvl r f.lanes f.fetch
        (s.modSplit r fun x => if x.hold = .fault seq then { x with hold := was } else x, .killed)
    | _, _ => (s, .killed)

/-- A precise fault of group level or above at the issuing instruction: under IGN the split goes on after it without
effect (Table 3.5). -/
def Iss.groupFault (x : Iss) (h : Hdr) (c : Cause) (addr : DWord) (s : State) : State :=
  let f : FInfo :=
    { cause := c, level := max 1 c.level, lanes := 0, addr := addr, detail := 0, pages := [],
      pc := x.sp.pc, split := x.sp.mask, eng := false, fetch := false }
  match s.contain x.r f with
  | (s, .ign _) => x.pass h false s
  | (s, _) => s

/-- What the item-level faults of an instruction leave: the state, the lanes under item-level IGN (their destinations
become 0), the lanes that wait for an answer, and whether the whole instruction waits. -/
structure FOut where
  s : State
  ign : Word
  wait : Word
  whole : Bool

/-- Joining the faults of one cause into a record (R323, R324). -/
def Iss.faultOf (x : Iss) (c : Cause) (fs : List LFault) : FInfo :=
  let fs := sortBy (·.lane) (fs.filter (·.cause = c))
  let pg := match c with
    | .page | .prot => fs.flatMap (·.pages)
    | _ => []
  let lanes := maskOf (fs.map (·.lane))
  let f := fs.head?
  { cause := c, level := if x.sp.mask = 0 then 1 else 0, lanes := if x.sp.mask = 0 then 0 else lanes,
    addr := (f.map (·.addr)).getD 0, detail := (f.map (·.detail)).getD 0, pages := pg, pc := x.sp.pc, split := x.sp.mask,
    eng := false, fetch := false }

/-- The item-level faults of one instruction: each distinct cause makes its own record and pass, in ascending order of
code (R323); a pass whose action ended the split ends the rest. -/
def Iss.itemFaults (x : Iss) (fs : List LFault) (s : State) : FOut :=
  (sortBy Cause.code (fs.map (·.cause)).dedup).foldl (fun o c =>
    match x.re o.s with
    | none => o
    | some _ =>
      let f := x.faultOf c fs
      match o.s.contain x.r f with
      | (s, .ign lv) => { o with s := s, ign := if lv = 0 then o.ign ||| f.lanes else o.ign }
      | (s, .held whole) => { o with s := s, wait := o.wait ||| f.lanes, whole := o.whole || whole }
      | (s, .killed) => { o with s := s }) ⟨s, 0, 0, false⟩

/-- A U-kind instruction's item-level cause applies to every lane of the split, or to the group when there is none
(09 R113). -/
def Iss.uniFault (x : Iss) (c : Cause) (addr : DWord) (pages : List (DWord × Bool × Nat)) : List LFault :=
  if x.sp.mask = 0 then [⟨0, c, addr, pages, 0⟩] else (lanesOf x.sp.mask).map fun l => ⟨l, c, addr, pages, 0⟩

/-- After the faults of an instruction: it goes on with its results, unless its split has gone or waits for an answer; a
waiting split reissues for the waiting lanes only (Table 3.5). -/
def Iss.afterFaults (x : Iss) (o : FOut) (go : State → State) : State :=
  match x.re o.s with
  | none => o.s
  | some y =>
    match y.sp.hold with
    | .fault _ => o.s.modSplit x.r fun z =>
        { z with only := if o.wait = 0 ∨ o.whole then z.only else some o.wait }
    | _ => if y.sp.id = x.sp.id ∧ y.sp.pc = x.sp.pc then go o.s else o.s

/-- A U-kind instruction that faults before it has any effect; under item-level IGN it writes zero to its destinations. -/
def Iss.uniFaults (x : Iss) (h : Hdr) (fs : List LFault) (zero : List (Loc × DWord × DWord)) (s : State) : State :=
  let o := x.itemFaults fs s
  x.afterFaults o fun s => if o.ign = 0 then x.pass h false s else x.finishNow h zero s

/-! ## Issue checks (Table 5.5, steps 5 to 8) -/

/-- The allotment of a register class (R52). -/
def allot (k : Kernel) : RCls → Nat
  | .v => k.vregs | .s => k.sregs | .s63 => k.sregs | .k => 16 | .a => k.acc

/-- Step 7: the effective numbers of an operand lie in the allotment, with its alignment (R52, R53). -/
def Group.boundOk (g : Group) (k : Kernel) (sp : Nat) (xs : BitVec 2) (o : Opnd) : Bool :=
  if o.cls = .s ∧ 64 ≤ o.reg.num.toNat ∧ ¬ o.reg.ix then true
  else
    let b := g.eff sp xs o.reg
    decide (b + o.cnt ≤ allot k o.cls) && (o.al ≤ 1 || b % o.al == 0)

/-- Instructions that admit only k0 and the never guard: the matrix class, the bulk instructions and REFILL (R35, R56). -/
def needsK0 (op : Nat) : Bool :=
  (0xB0 ≤ op && op ≤ 0xBC) || [0x08, 0xA1, 0xA2, 0xC0, 0xC1, 0xC4, 0xD0, 0xD1, 0xD3].contains op

/-- Step 6: the convergence and guard rules. -/
def convergeOk (op : Nat) (h : Hdr) (g : Group) : Bool :=
  !(opKind op == .c || needsK0 op) || (g.oneSplit && (!needsK0 op || h.g == 0))

/-- Flags that an instruction reads or writes, as a scoreboard entry. -/
def usesFlags (i : Instr) : Bool :=
  i.setsFlags || (match i with
    | .flgk .. | .flgrd .. => true
    | .mov _ _ _ (.special n) => n == 0x0C
    | _ => false)

/-- Step 8: a stall distance is too short, with GCTL.SBCHK = 1: a read or write of a destination of the split's own
premature fixed-latency write (R58), or a read of, or fixed-latency write to, a destination of a pending variable-latency
one (R59). -/
def Group.stallShort (g : Group) (sp : Nat) (h : Hdr) (op : Nat) (i : Instr) (os : List Opnd) : Bool :=
  g.gctl.getLsbD 0 &&
  (let xs := if os.any (·.reg.ix) then [(1, 64 + h.xs.toNat)] else []
   let gd := if h.g = 0 then [] else [(2, h.g.toNat)]
   let fl := if usesFlags i then [(3, 0)] else []
   let fixed := match opTiming op with
     | .fixed _ => true
     | _ => false
   (g.score.any fun e => e.split == sp && e.dist ≠ 0 &&
      (g.touches sp h.xs os ++ xs ++ gd ++ fl).contains (e.cls, e.reg)) ||
   (g.ops.any fun o => (g.touches sp h.xs (os.filter fun o => o.rd || fixed) ++ xs ++ gd).any o.pends))

/-- Whether an instruction reads a register with an uncorrectable error (26 R326). -/
def Group.readsBad (g : Group) (sp : Nat) (h : Hdr) (os : List Opnd) : Bool :=
  !g.badRegs.isEmpty &&
  (let uses := g.touches sp h.xs (os.filter (·.rd)) ++ (if h.g = 0 then [] else [(2, h.g.toNat)]) ++
      (if os.any (·.reg.ix) then [(1, 64 + h.xs.toNat)] else [])
   g.badRegs.any fun l => match l with
     | .v n _ => uses.contains (0, n)
     | .s n => uses.contains (1, n)
     | .k n => uses.contains (2, n)
     | .a n _ => uses.contains (4, n)
     | .flg _ => false)

/-- What keeps an instruction from its effect at steps 5 to 8 of Table 5.5: the never guard, a group-level fault, or the
RANGE of a slot count (18 R255). -/
inductive Barrier where
  | never
  | group (c : Cause)
  | slots
  deriving DecidableEq, Repr

/-- The kernel of the team's launch. -/
def Iss.kern (x : Iss) (s : State) : Kernel :=
  ((s.launch? x.tm.launch).map fun (l : Launch) => l.kern).getD ⟨0, 0, 0, 0, 0, 0, 0, 0, 0, 0, 0⟩

/-- The value of an instruction's slot count register. -/
def Iss.slotReg (x : Iss) (i : Instr) (h : Hdr) : Option Nat := i.slotReg.map fun r => (x.g.sr x.sp.id (x.eff h r)).toNat

/-- Steps 5 to 8 of Table 5.5, in order: the first that stops the instruction. -/
def Iss.check (x : Iss) (i : Instr) (h : Hdr) (op : Nat) (s : State) : Option Barrier :=
  let n := x.slotReg i h
  let late := i.slotOpnds (n.getD 0)
  if h.never then some .never
  else if !convergeOk op h x.g then some (.group .converge)
  else if !i.opnds.all (x.g.boundOk (x.kern s) x.sp.id h.xs) then some (.group .regbound)
  else if n.any fun n => decide (n < 1 ∨ 16 < n) then some .slots
  else if !late.all (x.g.boundOk (x.kern s) x.sp.id h.xs) then some (.group .regbound)
  else if x.g.stallShort x.sp.id h op i (i.opnds ++ late) then some (.group .stallshort)
  else if x.g.readsBad x.sp.id h (i.opnds ++ late) then some (.group .dataerr)
  else none

/-- Steps 5 to 8 of Table 5.5, then the instruction's own checks and effect. -/
def Iss.issue (x : Iss) (i : Instr) (h : Hdr) (op : Nat) (body : Iss → State → State) (s : State) : State :=
  match x.check i h op s with
  | none => body x s
  | some .never => x.pass h false s
  | some (.group c) => x.groupFault h c 0 s
  | some .slots => x.uniFaults h (x.uniFault .range 0 []) [] s

/-- The meaning of a machine instruction: its issue by the selected split. -/
def withIssue (i : Instr) (s : State) (body : Iss → State → State) : Host.Outcome State Fault Refusal :=
  match s.issuer, i.head with
  | some x, some (h, op) => .next (x.issue i h op body s)
  | _, _ => .fault .noIssuer

/-- The U rule (R56): a failing guard leaves only the issue slot, and opens no stall distance (log entry 24). -/
def uniform (h : Hdr) (body : Iss → State → State) (x : Iss) (s : State) : State :=
  if x.g.uGuard x.sp.id h then body x s else x.pass h false s

/-! ## Regions and synchronization (12 R182) -/

/-- A group's region number grows by 1; at the wrap every record of its slot in the core is cleared (R182). -/
def State.bumpRegion (s : State) (t gi : Nat) : State :=
  match s.team? t with
  | none => s
  | some tm => match tm.group? gi with
    | none => s
    | some g =>
      let s := s.modGroup t gi fun g => { g with region := g.region + 1 }
      if g.region ≠ 255 then s
      else s.clearRaces tm.core t gi

end Sys2Proof.Machine
end

