-- ==== Sys2Proof/Machine/Start.lean ====
section
/-! DEFINITION. A group and a team as they start (03 R22, 12 R160 to R162, 14 R210), and the placing of one instruction for
the host's question which instruction `step` runs next. -/

namespace Sys2Proof.Machine

/-- A group as it starts: lanes vacant, one live split with an empty mask at the entry instruction, registers cleared
(R22); tiles and counters zero (16 R226, 14 R208). -/
def Group.start (grp : Nat) (entry : DWord) (now : Nat) : Group :=
  { grp := grp, live := true, vregs := [], sregs := [], kregs := [], tiles := [], tflags := [], occ := 0, item := [],
    age := [], flg := [], gctl := 0, gsr := 0, frec := List.replicate 8 0, region := 0,
    splits := [Split.fresh 0 0 entry now], joins := [], nextId := 1, pend := [], score := [], ops := [],
    ctrs := [[], [], [], [], []], ctot := [0, 0, 0, 0, 0], nextOp := 0, efaults := [], xp := none, mmaqs := 0, spans := 0, barAt := 0,
    yielded := false, badRegs := [] }

/-- A barrier register as the team starts (14 Table 14.9). -/
def BarReg.start : BarReg := { arrb := 0, expb := 0, phase := false, arrm := 0, expm := 0 }

/-- An instance of a group barrier that nothing has arrived at. -/
def BarInst.start (n : Nat) : BarInst := { num := n, arrived := [], expect := none, fixed := false }

/-- A team as it starts. -/
def Team.start (id launch num clus pos core : Nat) (k : Kernel) (handles : Map Byte) (now : Nat)
    (scrOff : Nat := 0) : Team :=
  { id := id, launch := launch, num := num, clus := clus, pos := pos, core := core, st := .running, why := none,
    groups := (List.range k.team).map fun g => Group.start g k.entry now, scratch := [], scrBad := [], tags := [],
    bars := List.replicate 16 BarReg.start, cur := none, nxt := none, wantBlk := true, barInst := BarInst.start 0, barDone := [],
    quartArr := [], spanArr := [], scrRace := [], handles := handles, startedAt := now, recordOk := true,
    scrOff := scrOff }

/-- A launch as it is created (03 R18, R41). -/
def Launch.create (id ctx queue node : Nat) (d : LDesc) (k : Kernel) (const0 : Map Byte) (now : Nat) : Launch :=
  { id := id, ctx := ctx, queue := queue, node := node, desc := d, kern := k, const0 := const0, st := .running, suspended := false, paused := false,
    killing := false, exited := 0, killed := 0, lost := 0, nfault := 0, seq := 0, returned := [],
    blks := [], blkDone := [], nextTeam := 0, nextClus := 0, started := false, reports := [], usedCores := [],
    slots := [], lastStart := [], partCores := [], partOk := false, held := [], createdAt := now }

/-! ## Placing one instruction -/

/-- The kernel under which a placed instruction runs: one group with every register. -/
def placedKernel : Kernel :=
  { entry := 0x4000, refill := 0x400, vregs := 256, sregs := 64, acc := 32, team := 1, clw := 1, clh := 1, scratch := 0,
    tags := 0, fresh := 0 }

/-- The launch under which a placed instruction runs. -/
def placedDesc : LDesc :=
  { items := 32, lblk := 5, prio := 0, inh := true, stagger := 0, policy := [.retry, .kparent, .kparent, .kparent, .kparent],
    const := 0, csize := 0, fed := false, part := false, qnum := 0, ring := 0, nslot := 0, pcores := 0, htab := 0,
    mcast := List.replicate 16 0, dep0 := none, dep1 := none, save := 0, doneAt := 0 }

/-- Five table entries that map the page at virtual 0x4000 for execution, and the bytes there. -/
def placedWrites (bs : List Byte) : List (Nat × List Byte) :=
  [ (0x210000, natLe 8 0x212001), (0x212000, natLe 8 0x214001), (0x214000, natLe 8 0x216001),
    (0x216000, natLe 8 0x218001), (0x218010, natLe 8 0x200013), (0x200000, bs) ]

/-- An instruction placed where a team that has just started fetches: package up, context 0, launch 0, team 0. -/
def State.place (s : State) (bs : List Byte) : State :=
  let s := (placedWrites bs).foldl (fun s w => s.homeWrite w.1 w.2) s
  let drop (l : List TlbEnt) : List TlbEnt := l.filter (·.ctx ≠ 0)
  { s with
    pkg := .up
    cores := s.cores.map fun c => (c.1, { c.2 with tlb := drop c.2.tlb, btlb := c.2.btlb.filter (·.2.ctx ≠ 0) })
    dies := s.dies.map fun (d : Die) => { d with tlb := drop d.tlb }
    ctxs := { id := 0, root := 0x210000, vf := 0, bins := [] } :: s.ctxs.filter (·.id ≠ 0)
    launches := Launch.create 0 0 0 0 placedDesc placedKernel [] s.now :: s.launches.filter (·.id ≠ 0)
    teams := Team.start 0 0 0 0 0 0 placedKernel [] s.now :: s.teams.filter (·.id ≠ 0)
    clusters := { id := 0, launch := 0, num := 0, teams := [0], barInst := BarInst.start 0, barDone := [] } :: s.clusters.filter (·.id ≠ 0)
    nextLaunch := max s.nextLaunch 1, nextTeamId := max s.nextTeamId 1
    agenda := .issue ⟨0, 0, 0⟩ :: s.agenda }

end Sys2Proof.Machine
end

