-- ==== Sys2Proof/WellFormed.lean ====
section
/-! DEFINITION. Well-formedness of an instruction: the static checks of Table 5.5 (05 R49, steps 2 to 4) all hold,
so that the instruction has an encoding that decodes to it. Events have no encoding and are not well-formed. -/

namespace Sys2Proof

/-- The static checks of Table 5.5 hold (R49). -/
def Instr.wellFormed (i : Instr) : Bool := i.lenOk && i.opOk && i.formOk

end Sys2Proof
end

