-- ==== Sys2Proof/Decode.lean ====
section
/-! DEFINITION. Decoding and encoding (05_encoding). `unpack0`, `unpack1` take the fields of words 0 and 1 (Tables 5.1
and 5.3), `parse` reads them into an instruction, `toFields` gives the fields of an instruction, and `decode` applies
steps 1 to 4 of Table 5.5: a word is accepted only where `toFields` gives its fields back, so that every unused field
is 0 (R48). The encoder comes after the decoder, from the same tables. -/

namespace Sys2Proof

/-- The fields of word 1 (Table 5.3). -/
structure W1 where
  md : BitVec 2
  xs : BitVec 2
  ixc : Bool
  ixb : Bool
  ixa : Bool
  ixd : Bool
  c : BitVec 8
  b : BitVec 8
  a : BitVec 8
  deriving DecidableEq, Repr

/-- The fields of an instruction: those of word 0 (Table 5.1), word 1 as it stands, word 2 and the literal. -/
structure Fields where
  sub : BitVec 6
  d : BitVec 8
  gn : Bool
  g : BitVec 4
  st : BitVec 3
  op : BitVec 8
  len : Len
  w1 : Word
  w2 : Word
  lit : DWord
  deriving DecidableEq, Repr

/-- The fields of word 1 (Table 5.3). -/
def unpack1 (w : Word) : W1 :=
  { md := w.extractLsb' 30 2, xs := w.extractLsb' 28 2, ixc := w.getLsbD 27, ixb := w.getLsbD 26, ixa := w.getLsbD 25,
    ixd := w.getLsbD 24, c := w.extractLsb' 16 8, b := w.extractLsb' 8 8, a := w.extractLsb' 0 8 }

/-- Word 1 of its fields (Table 5.3). -/
def pack1 (f : W1) : Word :=
  f.md ++ f.xs ++ BitVec.ofBool f.ixc ++ BitVec.ofBool f.ixb ++ BitVec.ofBool f.ixa ++ BitVec.ofBool f.ixd ++
    f.c ++ f.b ++ f.a

/-- The fields of five words, the first being word 0 (Tables 5.1 and 5.2); words beyond the length are not looked at. -/
def unpack0 (w0 w1 w2 w3 w4 : Word) : Fields :=
  let l := Len.ofCode (w0.extractLsb' 0 2)
  { sub := w0.extractLsb' 26 6, d := w0.extractLsb' 18 8, gn := w0.getLsbD 17, g := w0.extractLsb' 13 4,
    st := w0.extractLsb' 10 3, op := w0.extractLsb' 2 8, len := l,
    w1 := if l = .w1 then 0 else w1,
    w2 := if l = .w1 ∨ l = .w2 then 0 else w2,
    lit := if l = .w5 then w4 ++ w3 else 0 }

/-- Word 0 of an instruction's fields (Table 5.1). -/
def pack0 (f : Fields) : Word :=
  f.sub ++ f.d ++ BitVec.ofBool f.gn ++ f.g ++ f.st ++ f.op ++ f.len.code

/-- The words of an instruction's fields (Table 5.2, R44). -/
def Fields.words (f : Fields) : List Word :=
  match f.len with
  | .w1 => [pack0 f]
  | .w2 => [pack0 f, f.w1]
  | .w3 => [pack0 f, f.w1, f.w2]
  | .w5 => [pack0 f, f.w1, f.w2, f.lit.extractLsb' 0 32, f.lit.extractLsb' 32 32]

/-! ## Reading fields -/

/-- The MOD field. -/
def Fields.md (f : Fields) : BitVec 2 := (unpack1 f.w1).md
/-- The header of an instruction with the word 1 of Table 5.3. -/
def Fields.hdr (f : Fields) : Hdr := ⟨f.len, f.st, f.g, f.gn, (unpack1 f.w1).xs⟩
/-- The header of a branch form, which has no XS. -/
def Fields.hdrB (f : Fields) : Hdr := ⟨f.len, f.st, f.g, f.gn, 0⟩
/-- Register field D. -/
def Fields.rd (f : Fields) : Reg := ⟨f.d, (unpack1 f.w1).ixd⟩
/-- Register field A. -/
def Fields.ra (f : Fields) : Reg := ⟨(unpack1 f.w1).a, (unpack1 f.w1).ixa⟩
/-- Register field B. -/
def Fields.rb (f : Fields) : Reg := ⟨(unpack1 f.w1).b, (unpack1 f.w1).ixb⟩
/-- Register field C. -/
def Fields.rc (f : Fields) : Reg := ⟨(unpack1 f.w1).c, (unpack1 f.w1).ixc⟩
/-- Bits of SUB. -/
def Fields.subN (f : Fields) (lo n : Nat) : Nat := (f.sub.extractLsb' lo n).toNat
/-- The type code SUB{4:0}. -/
def Fields.ty (f : Fields) : Option ElemTy := ElemTy.fromNat (f.subN 0 5)
/-- A type from bits of the C field. -/
def Fields.tyC (f : Fields) : Option ElemTy := ElemTy.fromNat ((unpack1 f.w1).c.extractLsb' 0 5).toNat
/-- A rounding code from C{7:5} (Table 10.3). -/
def Fields.rndC (f : Fields) : Option RndCode := RndCode.fromNat ((unpack1 f.w1).c.extractLsb' 5 3).toNat
/-- The B operand of the vector classes by MOD (Table 5.13). -/
def Fields.bsrc (f : Fields) : Option BSrc :=
  if f.md = 0 then some (.vec f.rb) else if f.md = 1 then some (.scl f.rb) else if f.md = 2 then some (.imm f.w2) else none
/-- The B operand of the scalar class by MOD (Table 5.13). -/
def Fields.ssrc (f : Fields) : Option SSrc :=
  if f.md = 0 then some (.reg f.rb)
  else if f.md = 1 then some (if f.len = .w5 then .lit f.lit else .imm f.w2) else none
/-- SUB of class 0x4 (Table 5.13). -/
def Fields.fmod (f : Fields) : Option FMod := do
  let t ← ElemTy.ofFcode (f.subN 0 2)
  let r ← RndCode.fromNat (f.subN 2 3)
  return ⟨t, r, f.sub.getLsbD 5⟩
/-- The join offset of a branch form, as 32 bits (Table 5.4). -/
def Fields.jo (f : Fields) : Word := if f.len = .w3 then f.w1 else (f.w1.extractLsb' 16 16).signExtend 32
/-- The target offset of a branch form, as 32 bits (Table 5.4). -/
def Fields.tgt (f : Fields) : Word := if f.len = .w3 then f.w2 else (f.w1.extractLsb' 0 16).signExtend 32
/-- The memory operand (Tables 14.1 and 14.2). -/
def Fields.mem (f : Fields) : Option Mem := do
  let m ← if f.md = 0 then some AddrMode.sv else if f.md = 1 then some .s else if f.md = 2 then some .v else none
  let sc ← Scope.fromNat (f.w2.extractLsb' 9 3).toNat
  let o ← Order.fromNat (f.w2.extractLsb' 4 2).toNat
  return ⟨f.ra, f.rb, m, f.w2.extractLsb' 12 20, sc, f.w2.getLsbD 8, f.w2.extractLsb' 6 2, o⟩
/-- The condition of BRC (Table 9.2); in the per-lane kinds D{5:4} is 0. -/
def Fields.brCond (f : Fields) : Option BrCond :=
  let k := f.d.extractLsb' 6 2
  if k = 0 ∨ k = 1 then
    if f.d.extractLsb' 4 2 = 0 then some (.lane (f.d.extractLsb' 0 4) (k = 1)) else none
  else if k = 2 then some (.nz (f.d.extractLsb' 0 6)) else some (.z (f.d.extractLsb' 0 6))
/-- The barrier register that D names when D{4} = 1 (R214). -/
def Fields.barD (f : Fields) : Option (BitVec 4) := if f.d.getLsbD 4 then some (f.d.extractLsb' 0 4) else none
/-- The value of BINIT, BARV and BEXP (R211). -/
def Fields.barVal (f : Fields) : Option BarVal :=
  if f.md = 0 then some (.reg f.rb) else if f.md = 1 then some (.imm f.w2) else if f.md = 2 then some (.imm6 f.sub)
  else none
/-- The parity of BWAIT and BTEST (R212). -/
def Fields.parVal (f : Fields) : Option ParVal :=
  if f.md = 0 then some (.reg f.rb) else if f.md = 2 then some (.imm (f.sub.getLsbD 0)) else none
/-- The status word of the gather class (Table 18.2). -/
def Fields.stat (f : Fields) : Option GStat :=
  if f.len = .w3 then some ⟨f.w2.extractLsb' 0 8, f.w2.extractLsb' 8 8, f.w2.extractLsb' 16 4⟩ else none
/-- The slot count of the gather class (R252). -/
def Fields.nsrc (f : Fields) : Option NSrc :=
  if f.md = 0 then some (.reg f.rc) else if f.md = 2 then some (.imm (unpack1 f.w1).c) else none
/-- The queue target (R299). -/
def Fields.enqTgt (f : Fields) : Option EnqTgt :=
  if f.md = 0 then some (.reg f.rb) else if f.md = 1 then some (.imm (f.w2.extractLsb' 0 6)) else none
/-- The peer of the remote class (R353). -/
def Fields.peer (f : Fields) : Option Peer :=
  if f.md = 0 then some (.vec f.ra) else if f.md = 1 then some (.scl f.ra) else none
/-- The barrier register of the remote class (Table 28.2). -/
def Fields.barR (f : Fields) : Option (BitVec 4) := if f.w2.getLsbD 4 then some (f.w2.extractLsb' 0 4) else none

/-- Class 0x0 (Table 9.1). -/
def Fields.parse0 (f : Fields) : Nat → Option Instr
  | 0x0 => some (.nop f.hdr)
  | 0x1 => some (.bra f.hdrB f.jo f.tgt)
  | 0x2 => do return .brc f.hdrB (← f.brCond) f.jo f.tgt
  | 0x3 => some (.brx f.hdrB f.jo (f.w1.extractLsb' 0 8))
  | 0x4 => some (.call f.hdrB f.d f.jo f.tgt)
  | 0x5 => some (.ret f.hdr f.d)
  | 0x6 => some (.land f.hdr)
  | 0x7 => some (.exit f.hdr)
  | 0x8 => some (.refill f.hdr f.d)
  | 0x9 => some (.yield f.hdr)
  | 0xA => some (.spinh f.hdr f.sub)
  | 0xB => some (.syncs f.hdr)
  | 0xC => some (.halt f.hdr)
  | 0xD => some (.loop f.hdrB f.d f.tgt)
  | _ => none

/-- Class 0x1 (Table 9.4). -/
def Fields.parse1 (f : Fields) : Nat → Option Instr
  | 0x0 =>
    if f.len = .w1 then some (.smovImm6 f.hdr f.d f.sub)
    else if f.sub = 1 then (if f.md = 0 then some (.smov f.hdr f.rd (.special (unpack1 f.w1).b)) else none)
    else do return .smov f.hdr f.rd (.src (← f.ssrc))
  | 0x1 => do return .sadd f.hdr f.rd f.ra (← f.ssrc)
  | 0x2 => do return .ssub f.hdr f.rd f.ra (← f.ssrc)
  | 0x3 => do
    let m ← if f.sub = 0 then some MulHalf.lo else if f.sub = 1 then some .hi else if f.sub = 2 then some .hiu else none
    return .smul f.hdr m f.rd f.ra (← f.ssrc)
  | 0x4 => some (.smad f.hdr f.rd f.ra f.rb f.rc)
  | 0x5 => do return .sdiv f.hdr (f.sub.getLsbD 0) (f.sub.getLsbD 1) f.rd f.ra (← f.ssrc)
  | 0x6 => do return .sand f.hdr f.rd f.ra (← f.ssrc)
  | 0x7 => do return .sor f.hdr f.rd f.ra (← f.ssrc)
  | 0x8 => do return .sxor f.hdr f.rd f.ra (← f.ssrc)
  | 0x9 => do return .sshl f.hdr f.rd f.ra (← f.ssrc)
  | 0xA => do return .sshr f.hdr f.rd f.ra (← f.ssrc)
  | 0xB => do return .ssar f.hdr f.rd f.ra (← f.ssrc)
  | 0xC => do return .scmp f.hdr (← CondCode.fromNat (f.subN 0 4)) f.rd f.ra (← f.ssrc)
  | 0xD => some (.ssel f.hdr f.rd f.ra f.rb f.rc)
  | 0xE => do return .srdv f.hdr (f.sub.getLsbD 0) f.rd f.ra (← f.ssrc)
  | 0xF => do return .sldk f.hdr f.rd (← f.ssrc)
  | _ => none

/-- Class 0x2 (Table 9.9). -/
def Fields.parse2 (f : Fields) : Nat → Option Instr
  | 0x0 => do
    let t ← f.ty
    let b ← if f.sub.getLsbD 5 then (if f.md = 0 then some (MovSrc.special (unpack1 f.w1).b) else none)
      else if f.md = 2 ∧ f.len = .w5 then some (.lit f.lit) else f.bsrc.map .src
    return .mov f.hdr t f.rd b
  | 0x1 => do return .add f.hdr (← f.ty) f.rd f.ra (← f.bsrc)
  | 0x2 => do return .sub f.hdr (← f.ty) f.rd f.ra (← f.bsrc)
  | 0x3 => do return .mul f.hdr (f.sub.getLsbD 5) (← f.ty) f.rd f.ra (← f.bsrc)
  | 0x4 => do return .mulh f.hdr (← f.ty) f.rd f.ra (← f.bsrc)
  | 0x5 => do return .mad f.hdr (f.sub.getLsbD 5) (← f.ty) f.rd f.ra (← f.bsrc) f.rc
  | 0x6 => do return .adc f.hdr (← f.ty) f.rd f.ra (← f.bsrc) f.rc
  | 0x7 => do return .sbb f.hdr (← f.ty) f.rd f.ra (← f.bsrc) f.rc
  | 0x8 => do return .min f.hdr (← f.ty) f.rd f.ra (← f.bsrc)
  | 0x9 => do return .max f.hdr (← f.ty) f.rd f.ra (← f.bsrc)
  | 0xA => do return .abs f.hdr (f.sub.getLsbD 5) (← f.ty) f.rd (← f.bsrc)
  | 0xB => do return .neg f.hdr (f.sub.getLsbD 5) (← f.ty) f.rd (← f.bsrc)
  | 0xC => do return .addsat f.hdr (← f.ty) f.rd f.ra (← f.bsrc)
  | 0xD => do return .subsat f.hdr (← f.ty) f.rd f.ra (← f.bsrc)
  | 0xE => do return .lea f.hdr (← f.ty) f.rd f.ra (← f.bsrc) (unpack1 f.w1).c
  | _ => none

/-- Class 0x3 (Table 9.10). -/
def Fields.parse3 (f : Fields) : Nat → Option Instr
  | 0x0 => do return .and f.hdr (← f.ty) f.rd f.ra (← f.bsrc)
  | 0x1 => do return .or f.hdr (← f.ty) f.rd f.ra (← f.bsrc)
  | 0x2 => do return .xor f.hdr (← f.ty) f.rd f.ra (← f.bsrc)
  | 0x3 => do return .not f.hdr (← f.ty) f.rd (← f.bsrc)
  | 0x4 => do return .andn f.hdr (← f.ty) f.rd f.ra (← f.bsrc)
  | 0x5 => do return .shl f.hdr (← f.ty) f.rd f.ra (← f.bsrc)
  | 0x6 => do return .shr f.hdr (← f.ty) f.rd f.ra (← f.bsrc)
  | 0x7 => do return .sar f.hdr (← f.ty) f.rd f.ra (← f.bsrc)
  | 0x8 => do return .rot f.hdr (← f.ty) f.rd f.ra (← f.bsrc)
  | 0x9 => do return .popc f.hdr (← f.ty) f.rd (← f.bsrc)
  | 0xA => do return .clz f.hdr (← f.ty) f.rd (← f.bsrc)
  | 0xB => do return .bfe f.hdr (← f.ty) f.rd f.ra (← f.bsrc)
  | 0xC => do return .bfi f.hdr (← f.ty) f.rd f.ra (← f.bsrc) f.rc
  | 0xD => do return .sel f.hdr (← f.ty) f.rd f.ra (← f.bsrc) f.rc
  | 0xE => do return .cmp f.hdr (← CondCode.fromNat (unpack1 f.w1).c.toNat) (f.sub.getLsbD 5) (← f.ty) f.rd f.ra (← f.bsrc)
  | 0xF => do return .prmb f.hdr f.rd f.ra (← f.bsrc) f.rc
  | _ => none

/-- Class 0x4 (Table 10.1). -/
def Fields.parse4 (f : Fields) : Nat → Option Instr
  | 0x0 => do return .fadd f.hdr (← f.fmod) f.rd f.ra (← f.bsrc)
  | 0x1 => do return .fsub f.hdr (← f.fmod) f.rd f.ra (← f.bsrc)
  | 0x2 => do return .fmul f.hdr (← f.fmod) f.rd f.ra (← f.bsrc)
  | 0x3 => do return .fma f.hdr (← f.fmod) f.rd f.ra (← f.bsrc) f.rc
  | 0x4 => do return .fmin f.hdr (← f.fmod) f.rd f.ra (← f.bsrc)
  | 0x5 => do return .fmax f.hdr (← f.fmod) f.rd f.ra (← f.bsrc)
  | 0x6 => do return .fcmp f.hdr (← f.fmod) (← FCond.fromNat (unpack1 f.w1).c.toNat) f.rd f.ra (← f.bsrc)
  | 0x7 => do return .fcls f.hdr (← f.fmod) (unpack1 f.w1).c f.rd (← f.bsrc)
  | 0x8 => do return .frnd f.hdr (← f.fmod) f.rd (← f.bsrc)
  | 0x9 => do return .fscl f.hdr (← f.fmod) f.rd f.ra (← f.bsrc)
  | 0xA => do return .fdot2 f.hdr (← f.fmod) f.rd f.ra (← f.bsrc) f.rc
  | 0xB => do return .pfma f.hdr (← f.fmod) f.rd f.ra (← f.bsrc) f.rc
  | 0xC => do return .pfadd f.hdr (← f.fmod) f.rd f.ra (← f.bsrc)
  | 0xD => do return .pfmul f.hdr (← f.fmod) f.rd f.ra (← f.bsrc)
  | _ => none

/-- Class 0x5 (Table 10.3). -/
def Fields.parse5 (f : Fields) : Nat → Option Instr
  | 0x0 => do
    return .cvt f.hdr (← f.ty) (f.sub.getLsbD 5) (← f.rndC) (← f.tyC) ((unpack1 f.w1).a.getLsbD 0) f.rd (← f.bsrc)
  | 0x1 => do return .cvtr f.hdr (← f.ty) (f.sub.getLsbD 5) f.rd f.ra (← f.bsrc)
  | 0x2 => do return .frcp f.hdr (f.sub.getLsbD 5) f.rd (← f.bsrc)
  | 0x3 => do return .frsq f.hdr (f.sub.getLsbD 5) f.rd (← f.bsrc)
  | 0x4 => do return .fex2 f.hdr (f.sub.getLsbD 5) f.rd (← f.bsrc)
  | 0x5 => do return .flg2 f.hdr (f.sub.getLsbD 5) f.rd (← f.bsrc)
  | 0x6 => do return .fsin f.hdr (f.sub.getLsbD 5) f.rd (← f.bsrc)
  | 0x7 => do return .fcos f.hdr (f.sub.getLsbD 5) f.rd (← f.bsrc)
  | 0x8 => do return .fdiv f.hdr (← f.fmod) f.rd f.ra (← f.bsrc)
  | 0x9 => do return .fsqrt f.hdr (← f.fmod) f.rd (← f.bsrc)
  | 0xA => do return .qscl f.hdr (f.sub.getLsbD 5) (← f.ty) f.rd (← f.bsrc)
  | 0xB => do return .qpack f.hdr (← f.rndC) (← f.ty) f.rd f.ra (← f.bsrc)
  | 0xC => do return .qunp f.hdr (← f.rndC) (← f.ty) f.rd f.ra (← f.bsrc)
  | 0xD => do return .rnsenc f.hdr (← f.ty) f.rd (← f.bsrc)
  | 0xE => do return .rnsdec f.hdr f.rd (← f.bsrc)
  | _ => none

/-- Class 0x6 (Table 10.4). -/
def Fields.parse6 (f : Fields) : Nat → Option Instr
  | 0x0 => some (.kand f.hdr f.rd f.ra f.rb)
  | 0x1 => some (.kor f.hdr f.rd f.ra f.rb)
  | 0x2 => some (.kxor f.hdr f.rd f.ra f.rb)
  | 0x3 => some (.knot f.hdr f.rd f.rb)
  | 0x4 => do
    let m ← if f.sub = 0 then some KMovDir.kk else if f.sub = 1 then some .ks else if f.sub = 2 then some .sk else none
    return .kmov f.hdr m f.rd f.rb
  | 0x5 => do
    let m ← if f.sub = 0 then some VoteMode.all else if f.sub = 1 then some .any else if f.sub = 2 then some .ballot
      else none
    return .vote f.hdr m f.rd f.ra
  | 0x6 => some (.kpop f.hdr f.rd f.rb)
  | 0x7 => some (.kfind f.hdr (f.sub.getLsbD 0) f.rd f.rb)
  | 0x8 => some (.flgk f.hdr f.sub f.rd)
  | 0x9 => some (.flgclr f.hdr f.sub)
  | 0xA => some (.flgrd f.hdr f.rd)
  | 0xB => do
    let m ← if f.sub = 0 then some LaneSel.occ else if f.sub = 1 then some .vac else if f.sub = 2 then some .spl else none
    return .lanek f.hdr m f.rd
  | _ => none

/-- Class 0x7 (Table 10.5). -/
def Fields.parse7 (f : Fields) : Nat → Option Instr
  | 0x0 => do return .shfl f.hdr (ShflMode.ofCode (f.sub.extractLsb' 0 2)) (f.sub.getLsbD 2) f.rd f.ra (← f.bsrc)
  | 0x1 => do return .pushw f.hdr (f.sub.getLsbD 2) f.rd f.ra (← f.bsrc) f.rc
  | 0x2 => do
    let b ← if f.sub.getLsbD 0 then some none else f.bsrc.map some
    return .bcast f.hdr (f.sub.getLsbD 2) f.rd f.ra b
  | 0x3 => do return .redu f.hdr (f.sub.getLsbD 5) (← RedOp.fromNat (f.subN 0 4)) (f.sub.getLsbD 4) f.rd f.ra
  | 0x4 => do return .scan f.hdr (f.sub.getLsbD 5) (← RedOp.fromNat (f.subN 0 4)) (f.sub.getLsbD 4) f.rd f.ra
  | 0x5 => some (.confl f.hdr (f.sub.getLsbD 2) f.rd f.ra f.rc)
  | 0x6 => some (.matchk f.hdr (f.sub.getLsbD 2) f.rd f.ra)
  | 0x7 => do return .segscan f.hdr (f.sub.getLsbD 5) (← RedOp.fromNat (f.subN 0 4)) (f.sub.getLsbD 4) f.rd f.ra f.rc
  | 0x8 => do return .gsort f.hdr (f.sub.getLsbD 5) (← f.ty) f.rd f.ra
  | _ => none

/-- Class 0x8 (Tables 14.4 and 14.6). -/
def Fields.parse8 (f : Fields) : Nat → Option Instr
  | 0x0 => do return .ld f.hdr (f.sub.extractLsb' 0 3) (f.sub.getLsbD 3) f.rd (← f.mem)
  | 0x1 => do return .st f.hdr (f.sub.extractLsb' 0 3) (f.sub.getLsbD 3) f.rd (← f.mem)
  | 0x2 => do return .lds f.hdr (f.sub.extractLsb' 0 3) (f.sub.getLsbD 3) f.rd (← f.mem)
  | 0x3 => do return .sts f.hdr (f.sub.extractLsb' 0 3) (f.sub.getLsbD 3) f.rd (← f.mem)
  | 0x4 => do return .ldk f.hdr (f.sub.extractLsb' 0 3) (f.sub.getLsbD 3) f.rd (← f.mem)
  | 0x5 => do return .stk f.hdr (f.sub.extractLsb' 0 3) (f.sub.getLsbD 3) f.rd (← f.mem)
  | 0x6 => do return .lookup f.hdr f.rd (← f.bsrc)
  | 0x7 => do return .tagset f.hdr (f.sub.getLsbD 0) f.ra (← f.bsrc)
  | 0x8 => do return .taginv f.hdr (← f.bsrc)
  | 0x9 => do return .pref f.hdr (f.sub.getLsbD 0) (← f.mem)
  | 0xA => do return .lda f.hdr (f.sub.extractLsb' 0 3) f.rd (← f.mem)
  | 0xB => do return .str f.hdr (f.sub.extractLsb' 0 3) f.rd (← f.mem)
  | 0xC => do return .ldsb f.hdr (f.sub.extractLsb' 0 5) f.rd (← f.mem)
  | _ => none

/-- Class 0x9 (Tables 14.7 and 14.8, R206, R207). -/
def Fields.parse9 (f : Fields) : Nat → Option Instr
  | 0x0 => do return .atom f.hdr (← AtomOp.fromNat (f.subN 0 3)) (ElemTy.ofAtomCode (f.subN 3 3)) f.rd (← f.mem) f.rc
  | 0x1 => do return .cas f.hdr (f.sub = 0b011000) f.rd (← f.mem) f.rc
  | 0x2 => do return .atoms f.hdr (← AtomOp.fromNat (f.subN 0 3)) (ElemTy.ofAtomCode (f.subN 3 3)) f.rd (← f.mem) f.rc
  | 0x3 => do return .cass f.hdr (f.sub = 0b011000) f.rd (← f.mem) f.rc
  | 0x4 => do return .red f.hdr (← AtomOp.fromNat (f.subN 0 3)) (ElemTy.ofAtomCode (f.subN 3 3)) (← f.mem) f.rc
  | 0x5 => do return .fence f.hdr (← Order.fromNat (f.subN 0 2)) (← Scope.fromNat (f.subN 2 3))
  | 0x6 => do return .acq f.hdr (← Scope.fromNat (f.subN 2 3))
  | 0x7 => do return .rel f.hdr (← Scope.fromNat (f.subN 2 3))
  | 0x8 => some (if f.len = .w1 then .bar f.hdr else .barCounted f.hdr f.ra)
  | 0x9 => some (if f.len = .w1 then .cbar f.hdr else .cbarCounted f.hdr f.ra)
  | _ => none

/-- Class 0xA (R209 to R220). -/
def Fields.parseA (f : Fields) : Nat → Option Instr
  | 0x0 => some (.cpa f.hdr f.barD (f.sub.extractLsb' 0 2) (CopyDir.ofCode (f.sub.extractLsb' 2 2)) f.ra f.rb
      (f.w2.extractLsb' 0 16) (f.w2.extractLsb' 16 16))
  | 0x1 => some (.tcopy f.hdr f.barD (CopyDir.ofCode (f.sub.extractLsb' 0 2)) (f.sub.getLsbD 2) f.ra f.rb
      (if f.len = .w5 then .lit f.lit else .reg f.rc))
  | 0x2 => some (.tcopym f.hdr f.barD (f.sub.getLsbD 2) f.ra f.rb (if f.len = .w5 then .lit f.lit else .reg f.rc)
      (f.w2.extractLsb' 0 4))
  | 0x3 => do return .binit f.hdr (f.d.extractLsb' 0 4) (← f.barVal)
  | 0x4 => do return .barv f.hdr (f.d.extractLsb' 0 4) (← f.barVal)
  | 0x5 => do return .bexp f.hdr (f.d.extractLsb' 0 4) (← f.barVal)
  | 0x6 => do return .bwait f.hdr (f.d.extractLsb' 0 4) (← f.parVal)
  | 0x7 => do return .btest f.hdr f.rd ((unpack1 f.w1).a.extractLsb' 0 4) (← f.parVal)
  | 0x8 => do
    let t ← if f.md = 0 then some (WaitThr.reg f.rb) else if f.md = 1 then some .word
      else if f.md = 2 then some (.imm f.sub) else none
    return .waitn f.hdr f.d t
  | 0x9 => do
    let t ← if f.md = 0 then some (TrigThr.reg f.rb) else if f.md = 1 then some (.imm f.w2) else none
    return .trig f.hdr (if f.d.getLsbD 7 then .bar (f.d.extractLsb' 0 4) else .ctr (f.d.extractLsb' 0 3)) t
  | _ => none

/-- Class 0xB (Tables 16.4 to 16.6, R235). -/
def Fields.parseB (f : Fields) : Nat → Option Instr
  | 0x0 => do
    return .mma f.hdr (f.sub.getLsbD 5) (← f.ty) (← f.tyC) (← AccTy.fromNat ((unpack1 f.w1).c.extractLsb' 5 2).toNat)
      f.rd f.ra f.rb
  | 0x1 => do
    return .mmaq f.hdr (f.sub.getLsbD 5) (← f.ty) (← f.tyC) (← AccTy.fromNat ((unpack1 f.w1).c.extractLsb' 5 2).toNat)
      f.rd f.ra f.rb
  | 0x2 => do
    return .mmv f.hdr (← f.ty) (← ElemTy.fromNat (f.w2.extractLsb' 10 5).toNat)
      (← AccTy.fromNat (f.w2.extractLsb' 15 2).toNat) f.rd f.ra (unpack1 f.w1).b (unpack1 f.w1).c
      (f.w2.extractLsb' 0 7) (f.w2.extractLsb' 7 3)
  | 0x3 => some (.mlutb f.hdr f.rd f.ra)
  | 0x4 => some (.mlut f.hdr (LutMode.ofCode (f.sub.extractLsb' 0 2)) (f.sub.getLsbD 5) f.rd f.ra f.rb)
  | 0x5 => some (.rcvt f.hdr f.rd f.ra)
  | 0x6 => do return .scacc f.hdr (← f.ty) f.rd f.ra f.rb f.rc
  | 0x7 => some (.accz f.hdr f.rd)
  | 0x8 => some (.accrd f.hdr (f.sub.extractLsb' 0 5) f.rd f.ra (unpack1 f.w1).c)
  | 0x9 => some (.accwr f.hdr (f.sub.extractLsb' 0 5) f.rd f.rb (unpack1 f.w1).c)
  | 0xA => some (.accld f.hdr f.rd f.ra)
  | 0xB => some (.accst f.hdr f.rd f.ra)
  | 0xC => some (.accstat f.hdr (f.sub.getLsbD 0) f.rd f.ra)
  | _ => none

/-- Class 0xC (Tables 18.2, 18.3 and 20.2, R270, R271). -/
def Fields.parseC (f : Fields) : Nat → Option Instr
  | 0x0 => do
    return .gather f.hdr (GMode.ofCode (f.sub.extractLsb' 0 2)) (f.sub.getLsbD 2) (f.sub.getLsbD 3) f.d
      (unpack1 f.w1).a f.rb (← f.nsrc) f.stat
  | 0x1 => do
    return .scatr f.hdr (← SMode.fromNat (f.subN 0 2)) (f.sub.getLsbD 2) (f.sub.getLsbD 3) f.d
      (unpack1 f.w1).a f.rb (← f.nsrc) f.stat
  | 0x2 => do
    return .scatw f.hdr (f.sub.getLsbD 2) (f.sub.getLsbD 3) f.d (unpack1 f.w1).a f.rb (← f.nsrc) f.stat
  | 0x3 => some (.gstat f.hdr (f.sub.getLsbD 0) f.rd)
  | 0x4 => some (.klook f.hdr (f.sub.getLsbD 2) (f.sub.getLsbD 3) f.d (unpack1 f.w1).a (unpack1 f.w1).b
      (unpack1 f.w1).c f.stat)
  | 0x5 => some (.kgrad f.hdr (f.sub.getLsbD 2) f.d (unpack1 f.w1).b (unpack1 f.w1).c f.stat)
  | 0x6 => some (.hdesc f.hdr f.sub f.rd f.ra f.rb)
  | _ => none

/-- Class 0xD (R288 to R301). -/
def Fields.parseD (f : Fields) : Nat → Option Instr
  | 0x0 => do
    let s ← if f.sub = 0 then some Span.one else if f.sub = 1 then some .two else if f.sub = 2 then some .four else none
    return .xpnd f.hdr s f.ra f.rb
  | 0x1 => some (.xnext f.hdr (f.sub.getLsbD 0) f.rd (unpack1 f.w1).c (unpack1 f.w1).b)
  | 0x2 => some (.xstat f.hdr f.sub f.rd)
  | 0x3 => do return .segred f.hdr (← RedOp.fromNat (f.subN 0 4)) f.rd f.ra
  | 0x4 => some (.xabort f.hdr)
  | 0x5 => do return .enq f.hdr (f.sub.getLsbD 0) f.rd f.ra (← f.enqTgt)
  | 0x6 => do return .enqb f.hdr f.rd f.ra f.rc (← f.enqTgt)
  | 0x7 => some (.qstat f.hdr f.sub f.rd f.rb)
  | _ => none

/-- Class 0xE (Tables 28.2 and 28.3, R361, R363). -/
def Fields.parseE (f : Fields) : Nat → Option Instr
  | 0x0 => do return .rwr f.hdr (f.sub.extractLsb' 0 4) (← f.peer) f.rb f.rc f.barR
  | 0x1 => do return .rrd f.hdr (f.sub.extractLsb' 0 4) (← f.peer) f.rb f.rc f.barR
  | 0x2 => do
    return .rred f.hdr (← AtomOp.fromNat (f.subN 0 3)) (ElemTy.ofAtomCode (f.subN 3 3)) (f.w2.extractLsb' 8 4)
      (f.w2.extractLsb' 16 12) (← f.peer) f.rb f.rc f.barR
  | 0x3 => do return .rflag f.hdr (FlagOp.ofCode (f.sub.extractLsb' 0 2)) (f.sub.getLsbD 2) (← f.peer) f.rb f.rc f.barR
  | 0x4 => some (.csig f.hdr f.sub f.rd f.ra f.rb)
  | 0x5 => some (.rfence f.hdr)
  | _ => none

/-- Class 0xF (Table 26.4). -/
def Fields.parseF (f : Fields) : Nat → Option Instr
  | 0x0 => some (.csrr f.hdr f.sub f.rd)
  | 0x1 => some (.csrw f.hdr f.sub f.ra)
  | 0x2 => some (.trap f.hdr f.sub)
  | 0x3 => some (.brk f.hdr f.sub)
  | 0x4 => some (.cyc f.hdr f.d)
  | _ => none

/-- The instruction that the fields name, by class and slot (Table 5.11). -/
def Fields.parse (f : Fields) : Option Instr :=
  let n := (f.op.extractLsb' 0 4).toNat
  match (f.op.extractLsb' 4 4).toNat with
  | 0x0 => f.parse0 n
  | 0x1 => f.parse1 n
  | 0x2 => f.parse2 n
  | 0x3 => f.parse3 n
  | 0x4 => f.parse4 n
  | 0x5 => f.parse5 n
  | 0x6 => f.parse6 n
  | 0x7 => f.parse7 n
  | 0x8 => f.parse8 n
  | 0x9 => f.parse9 n
  | 0xA => f.parseA n
  | 0xB => f.parseB n
  | 0xC => f.parseC n
  | 0xD => f.parseD n
  | 0xE => f.parseE n
  | _ => f.parseF n

/-! ## Writing fields: the encoder -/

/-- Fields with the word 1 of Table 5.3: header, OP, SUB, the four register fields, MOD and word 2. -/
def mkF (h : Hdr) (op : BitVec 8) (sub : BitVec 6) (d a b c : Reg) (md : BitVec 2 := 0) (w2 : Word := 0)
    (lit : DWord := 0) : Fields :=
  { sub := sub, d := d.num, gn := h.gn, g := h.g, st := h.st, op := op, len := h.len,
    w1 := pack1 ⟨md, h.xs, c.ix, b.ix, a.ix, d.ix, c.num, b.num, a.num⟩, w2 := w2, lit := lit }

/-- Fields of a one-word form. -/
def mk1 (h : Hdr) (op : BitVec 8) (sub : BitVec 6) (d : BitVec 8) : Fields := mkF h op sub (.plain d) .zero .zero .zero

/-- Fields of a branch form (Table 5.4). -/
def mkBr (h : Hdr) (op d : BitVec 8) (jo t : Word) : Fields :=
  { sub := 0, d := d, gn := h.gn, g := h.g, st := h.st, op := op, len := h.len,
    w1 := if h.len = .w3 then jo else jo.extractLsb' 0 16 ++ t.extractLsb' 0 16,
    w2 := if h.len = .w3 then t else 0, lit := 0 }

/-- The B field of a vector-class operand. -/
def BSrc.reg : BSrc → Reg
  | .vec r | .scl r => r
  | .imm _ => .zero
/-- MOD of a vector-class operand. -/
def BSrc.md : BSrc → BitVec 2
  | .vec _ => 0 | .scl _ => 1 | .imm _ => 2
/-- Word 2 of a vector-class operand. -/
def BSrc.w2 : BSrc → Word
  | .imm w => w
  | _ => 0

/-- Fields of a form with a vector-class B operand. -/
def mkB (h : Hdr) (op : BitVec 8) (sub : BitVec 6) (d a : Reg) (b : BSrc) (c : Reg) : Fields :=
  mkF h op sub d a b.reg c b.md b.w2

/-- Fields of a form with a scalar-class B operand. -/
def mkS (h : Hdr) (op : BitVec 8) (sub : BitVec 6) (d a : Reg) (b : SSrc) : Fields :=
  match b with
  | .reg r => mkF h op sub d a r .zero
  | .imm w => mkF h op sub d a .zero .zero 1 w
  | .lit x => mkF h op sub d a .zero .zero 1 0 x

/-- SUB of a typed form: the modifier bit and the type code (Table 5.13). -/
def subT (m : Bool) (t : ElemTy) : BitVec 6 := BitVec.ofBool m ++ t.code
/-- SUB with the .64 bit at 2. -/
def sub64 (w : Bool) : BitVec 6 := 0#3 ++ BitVec.ofBool w ++ 0#2
/-- SUB of the reductions (Table 10.5). -/
def subR (m : Bool) (w : Bool) (op : RedOp) : BitVec 6 := BitVec.ofBool m ++ BitVec.ofBool w ++ op.code
/-- SUB of the atomics (Table 14.7). -/
def subA (op : AtomOp) (t : ElemTy) : BitVec 6 := t.atomCode ++ op.code
/-- SUB of a sized access (R193). -/
def subM (ma : Bool) (sz : BitVec 3) : BitVec 6 := 0#2 ++ BitVec.ofBool ma ++ sz
/-- C with a rounding code (Table 10.3). -/
def cRnd (r : RndCode) (t : BitVec 5) : Reg := .plain (r.code ++ t)

/-- Word 2 of a memory operand (Table 14.1). -/
def Mem.w2 (m : Mem) : Word :=
  m.disp ++ m.scope.code ++ BitVec.ofBool m.ixz ++ m.sc ++ m.ord.code ++ 0#4

/-- Fields of a form with a memory operand; the third field is C. -/
def mkM (h : Hdr) (op : BitVec 8) (sub : BitVec 6) (d : Reg) (m : Mem) (c : Reg := .zero) : Fields :=
  mkF h op sub d m.sa m.vb c m.mode.code m.w2

/-- D of a copy: the barrier register (R214). -/
def barField (b : Option (BitVec 4)) : BitVec 8 :=
  match b with
  | none => 0
  | some n => 0b0001#4 ++ n

/-- Word 2 of the remote forms (Table 28.2). -/
def remW2 (ncon : BitVec 12) (z : BitVec 4) (b : Option (BitVec 4)) : Word :=
  0#4 ++ ncon ++ 0#4 ++ z ++ 0#3 ++ (match b with | none => 0#5 | some n => 1#1 ++ n)

/-- A and MOD of a peer (R353). -/
def Peer.reg : Peer → Reg
  | .vec r | .scl r => r
/-- MOD of a peer (R353). -/
def Peer.md : Peer → BitVec 2
  | .vec _ => 0 | .scl _ => 1

/-- Fields of GATHER, SCATR and SCATW (Table 18.2). -/
def mkG (h : Hdr) (op : BitVec 8) (sub : BitVec 6) (sd sh : BitVec 8) (vi : Reg) (n : NSrc) (st : Option GStat) : Fields :=
  mkF h op sub (.plain sd) (.plain sh) vi (match n with | .reg r => r | .imm k => .plain k)
    (match n with | .reg _ => 0 | .imm _ => 2)
    (match st with | none => 0 | some g => 0#12 ++ g.km ++ g.vw ++ g.vs)

/-- Fields of BINIT, BARV and BEXP (R211). -/
def mkBar (h : Hdr) (op : BitVec 8) (b : BitVec 4) (v : BarVal) : Fields :=
  match v with
  | .reg r => mkF h op 0 (.ofK b) .zero r .zero
  | .imm w => mkF h op 0 (.ofK b) .zero .zero .zero 1 w
  | .imm6 i => mkF h op i (.ofK b) .zero .zero .zero 2

/-- Fields of BWAIT and BTEST (R212). -/
def mkPar (h : Hdr) (op : BitVec 8) (d a : Reg) (p : ParVal) : Fields :=
  match p with
  | .reg r => mkF h op 0 d a r .zero
  | .imm b => mkF h op (0#5 ++ BitVec.ofBool b) d a .zero .zero 2

/-- Fields of ENQ and ENQB (R299). -/
def mkEnq (h : Hdr) (op : BitVec 8) (sub : BitVec 6) (d a c : Reg) (q : EnqTgt) : Fields :=
  match q with
  | .reg r => mkF h op sub d a r c
  | .imm w => mkF h op sub d a .zero c 1 (w.setWidth 32)

/-- D of BRC (Table 9.2). -/
def BrCond.code : BrCond → BitVec 8
  | .lane k neg => 0#1 ++ BitVec.ofBool neg ++ 0#2 ++ k
  | .nz s => 0b10#2 ++ s
  | .z s => 0b11#2 ++ s

/-- The fields of a machine instruction, from the encoding tables (05, 09, 10, 14, 16, 18, 20, 22, 26, 28). -/
def Instr.toFields : Instr → Option Fields
  | .nop h => some (mk1 h 0x00 0 0)
  | .bra h jo t => some (mkBr h 0x01 0 jo t)
  | .brc h c jo t => some (mkBr h 0x02 c.code jo t)
  | .brx h jo va => some (mkBr h 0x03 0 jo (va.setWidth 32))
  | .call h sd jo t => some (mkBr h 0x04 sd jo t)
  | .ret h sd => some (mk1 h 0x05 0 sd)
  | .land h => some (mk1 h 0x06 0 0)
  | .exit h => some (mk1 h 0x07 0 0)
  | .refill h kd => some (mk1 h 0x08 0 kd)
  | .yield h => some (mk1 h 0x09 0 0)
  | .spinh h w => some (mk1 h 0x0A w 0)
  | .syncs h => some (mk1 h 0x0B 0 0)
  | .halt h => some (mk1 h 0x0C 0 0)
  | .loop h c t => some (mkBr h 0x0D c 0 t)
  | .smovImm6 h sd i => some (mk1 h 0x10 i sd)
  | .smov h sd b => match b with
      | .src b => some (mkS h 0x10 0 sd .zero b)
      | .special n => some (mkF h 0x10 1 sd .zero (.plain n) .zero)
  | .sadd h sd sa b => some (mkS h 0x11 0 sd sa b)
  | .ssub h sd sa b => some (mkS h 0x12 0 sd sa b)
  | .smul h m sd sa b => some (mkS h 0x13 (match m with | .lo => 0 | .hi => 1 | .hiu => 2) sd sa b)
  | .smad h sd sa sb sc => some (mkF h 0x14 0 sd sa sb sc)
  | .sdiv h u r sd sa b => some (mkS h 0x15 (0#4 ++ BitVec.ofBool r ++ BitVec.ofBool u) sd sa b)
  | .sand h sd sa b => some (mkS h 0x16 0 sd sa b)
  | .sor h sd sa b => some (mkS h 0x17 0 sd sa b)
  | .sxor h sd sa b => some (mkS h 0x18 0 sd sa b)
  | .sshl h sd sa b => some (mkS h 0x19 0 sd sa b)
  | .sshr h sd sa b => some (mkS h 0x1A 0 sd sa b)
  | .ssar h sd sa b => some (mkS h 0x1B 0 sd sa b)
  | .scmp h cc kd sa b => some (mkS h 0x1C (0#2 ++ cc.code) kd sa b)
  | .ssel h sd sa sb kc => some (mkF h 0x1D 0 sd sa sb kc)
  | .srdv h w sd va b => some (mkS h 0x1E (0#5 ++ BitVec.ofBool w) sd va b)
  | .sldk h sd b => some (mkS h 0x1F 0 sd .zero b)
  | .mov h t vd b => match b with
      | .src b => some (mkB h 0x20 (subT false t) vd .zero b .zero)
      | .lit x => some (mkF h 0x20 (subT false t) vd .zero .zero .zero 2 0 x)
      | .special n => some (mkF h 0x20 (subT true t) vd .zero (.plain n) .zero)
  | .add h t vd va b => some (mkB h 0x21 (subT false t) vd va b .zero)
  | .sub h t vd va b => some (mkB h 0x22 (subT false t) vd va b .zero)
  | .mul h w t vd va b => some (mkB h 0x23 (subT w t) vd va b .zero)
  | .mulh h t vd va b => some (mkB h 0x24 (subT false t) vd va b .zero)
  | .mad h w t vd va b vc => some (mkB h 0x25 (subT w t) vd va b vc)
  | .adc h t vd va b kc => some (mkB h 0x26 (subT false t) vd va b kc)
  | .sbb h t vd va b kc => some (mkB h 0x27 (subT false t) vd va b kc)
  | .min h t vd va b => some (mkB h 0x28 (subT false t) vd va b .zero)
  | .max h t vd va b => some (mkB h 0x29 (subT false t) vd va b .zero)
  | .abs h s t vd b => some (mkB h 0x2A (subT s t) vd .zero b .zero)
  | .neg h s t vd b => some (mkB h 0x2B (subT s t) vd .zero b .zero)
  | .addsat h t vd va b => some (mkB h 0x2C (subT false t) vd va b .zero)
  | .subsat h t vd va b => some (mkB h 0x2D (subT false t) vd va b .zero)
  | .lea h t vd va b sh => some (mkB h 0x2E (subT false t) vd va b (.plain sh))
  | .and h t vd va b => some (mkB h 0x30 (subT false t) vd va b .zero)
  | .or h t vd va b => some (mkB h 0x31 (subT false t) vd va b .zero)
  | .xor h t vd va b => some (mkB h 0x32 (subT false t) vd va b .zero)
  | .not h t vd b => some (mkB h 0x33 (subT false t) vd .zero b .zero)
  | .andn h t vd va b => some (mkB h 0x34 (subT false t) vd va b .zero)
  | .shl h t vd va b => some (mkB h 0x35 (subT false t) vd va b .zero)
  | .shr h t vd va b => some (mkB h 0x36 (subT false t) vd va b .zero)
  | .sar h t vd va b => some (mkB h 0x37 (subT false t) vd va b .zero)
  | .rot h t vd va b => some (mkB h 0x38 (subT false t) vd va b .zero)
  | .popc h t vd b => some (mkB h 0x39 (subT false t) vd .zero b .zero)
  | .clz h t vd b => some (mkB h 0x3A (subT false t) vd .zero b .zero)
  | .bfe h t vd va b => some (mkB h 0x3B (subT false t) vd va b .zero)
  | .bfi h t vd va b vc => some (mkB h 0x3C (subT false t) vd va b vc)
  | .sel h t vd va b kc => some (mkB h 0x3D (subT false t) vd va b kc)
  | .cmp h cc l t kd va b => some (mkB h 0x3E (subT l t) kd va b (.plain (0#4 ++ cc.code)))
  | .prmb h vd va b vc => some (mkB h 0x3F (subT false .z32) vd va b vc)
  | .fadd h f vd va b => some (mkB h 0x40 f.code vd va b .zero)
  | .fsub h f vd va b => some (mkB h 0x41 f.code vd va b .zero)
  | .fmul h f vd va b => some (mkB h 0x42 f.code vd va b .zero)
  | .fma h f vd va b vc => some (mkB h 0x43 f.code vd va b vc)
  | .fmin h f vd va b => some (mkB h 0x44 f.code vd va b .zero)
  | .fmax h f vd va b => some (mkB h 0x45 f.code vd va b .zero)
  | .fcmp h f cc kd va b => some (mkB h 0x46 f.code kd va b (.plain cc.code))
  | .fcls h f set kd b => some (mkB h 0x47 f.code kd .zero b (.plain set))
  | .frnd h f vd b => some (mkB h 0x48 f.code vd .zero b .zero)
  | .fscl h f vd va b => some (mkB h 0x49 f.code vd va b .zero)
  | .fdot2 h f vd va b vc => some (mkB h 0x4A f.code vd va b vc)
  | .pfma h f vd va b vc => some (mkB h 0x4B f.code vd va b vc)
  | .pfadd h f vd va b => some (mkB h 0x4C f.code vd va b .zero)
  | .pfmul h f vd va b => some (mkB h 0x4D f.code vd va b .zero)
  | .cvt h td s r ts ftz vd b =>
      some (mkB h 0x50 (subT s td) vd (.plain (0#7 ++ BitVec.ofBool ftz)) b (cRnd r ts.code))
  | .cvtr h td s vd va b => some (mkB h 0x51 (subT s td) vd va b .zero)
  | .frcp h z vd b => some (mkB h 0x52 (BitVec.ofBool z ++ 0#5) vd .zero b .zero)
  | .frsq h z vd b => some (mkB h 0x53 (BitVec.ofBool z ++ 0#5) vd .zero b .zero)
  | .fex2 h z vd b => some (mkB h 0x54 (BitVec.ofBool z ++ 0#5) vd .zero b .zero)
  | .flg2 h z vd b => some (mkB h 0x55 (BitVec.ofBool z ++ 0#5) vd .zero b .zero)
  | .fsin h z vd b => some (mkB h 0x56 (BitVec.ofBool z ++ 0#5) vd .zero b .zero)
  | .fcos h z vd b => some (mkB h 0x57 (BitVec.ofBool z ++ 0#5) vd .zero b .zero)
  | .fdiv h f vd va b => some (mkB h 0x58 f.code vd va b .zero)
  | .fsqrt h f vd b => some (mkB h 0x59 f.code vd .zero b .zero)
  | .qscl h p t vd b => some (mkB h 0x5A (subT p t) vd .zero b .zero)
  | .qpack h r t vd va b => some (mkB h 0x5B (subT false t) vd va b (cRnd r 0))
  | .qunp h r t vd va b => some (mkB h 0x5C (subT false t) vd va b (cRnd r 0))
  | .rnsenc h t vd b => some (mkB h 0x5D (subT false t) vd .zero b .zero)
  | .rnsdec h vd b => some (mkB h 0x5E (subT false .s32) vd .zero b .zero)
  | .kand h kd ka kb => some (mkF h 0x60 0 kd ka kb .zero)
  | .kor h kd ka kb => some (mkF h 0x61 0 kd ka kb .zero)
  | .kxor h kd ka kb => some (mkF h 0x62 0 kd ka kb .zero)
  | .knot h kd kb => some (mkF h 0x63 0 kd .zero kb .zero)
  | .kmov h m d b => some (mkF h 0x64 (match m with | .kk => 0 | .ks => 1 | .sk => 2) d .zero b .zero)
  | .vote h m kd ka => some (mkF h 0x65 (match m with | .all => 0 | .any => 1 | .ballot => 2) kd ka .zero .zero)
  | .kpop h sd kb => some (mkF h 0x66 0 sd .zero kb .zero)
  | .kfind h hi sd kb => some (mkF h 0x67 (0#5 ++ BitVec.ofBool hi) sd .zero kb .zero)
  | .flgk h f kd => some (mkF h 0x68 f kd .zero .zero .zero)
  | .flgclr h s => some (mkF h 0x69 s .zero .zero .zero .zero)
  | .flgrd h vd => some (mkF h 0x6A 0 vd .zero .zero .zero)
  | .lanek h s kd => some (mkF h 0x6B (match s with | .occ => 0 | .vac => 1 | .spl => 2) kd .zero .zero .zero)
  | .shfl h m w vd va b => some (mkB h 0x70 (0#3 ++ BitVec.ofBool w ++ m.code) vd va b .zero)
  | .pushw h w vd va b kc => some (mkB h 0x71 (sub64 w) vd va b kc)
  | .bcast h w vd va b => match b with
      | none => some (mkF h 0x72 (0#3 ++ BitVec.ofBool w ++ 0b01#2) vd va .zero .zero)
      | some b => some (mkB h 0x72 (sub64 w) vd va b .zero)
  | .redu h s op w d va => some (mkF h 0x73 (subR s w op) d va .zero .zero)
  | .scan h e op w vd va => some (mkF h 0x74 (subR e w op) vd va .zero .zero)
  | .confl h w vd va kc => some (mkF h 0x75 (sub64 w) vd va .zero kc)
  | .matchk h w vd va => some (mkF h 0x76 (sub64 w) vd va .zero .zero)
  | .segscan h e op w vd va kc => some (mkF h 0x77 (subR e w op) vd va .zero kc)
  | .gsort h ds t vd va => some (mkF h 0x78 (subT ds t) vd va .zero .zero)
  | .ld h sz ma vd m => some (mkM h 0x80 (subM ma sz) vd m)
  | .st h sz ma vd m => some (mkM h 0x81 (subM ma sz) vd m)
  | .lds h sz ma vd m => some (mkM h 0x82 (subM ma sz) vd m)
  | .sts h sz ma vd m => some (mkM h 0x83 (subM ma sz) vd m)
  | .ldk h sz ma sd m => some (mkM h 0x84 (subM ma sz) sd m)
  | .stk h sz ma sd m => some (mkM h 0x85 (subM ma sz) sd m)
  | .lookup h vd k => some (mkB h 0x86 0 vd .zero k .zero)
  | .tagset h ks key e => some (mkB h 0x87 (0#5 ++ BitVec.ofBool ks) .zero key e .zero)
  | .taginv h e => some (mkB h 0x88 0 .zero .zero e .zero)
  | .pref h l1 m => some (mkM h 0x89 (0#5 ++ BitVec.ofBool l1) .zero m)
  | .lda h sz vd m => some (mkM h 0x8A (subM false sz) vd m)
  | .str h sz vd m => some (mkM h 0x8B (subM false sz) vd m)
  | .ldsb h n vd m => some (mkM h 0x8C (0#1 ++ n) vd m)
  | .atom h op t vd m vc => some (mkM h 0x90 (subA op t) vd m vc)
  | .cas h w vd m vc => some (mkM h 0x91 (if w then 0b011000 else 0b001000) vd m vc)
  | .atoms h op t vd m vc => some (mkM h 0x92 (subA op t) vd m vc)
  | .cass h w vd m vc => some (mkM h 0x93 (if w then 0b011000 else 0b001000) vd m vc)
  | .red h op t m vc => some (mkM h 0x94 (subA op t) .zero m vc)
  | .fence h o s => some (mk1 h 0x95 (0#1 ++ s.code ++ o.code) 0)
  | .acq h s => some (mk1 h 0x96 (0#1 ++ s.code ++ 0#2) 0)
  | .rel h s => some (mk1 h 0x97 (0#1 ++ s.code ++ 0#2) 0)
  | .bar h => some (mk1 h 0x98 0 0)
  | .barCounted h sa => some (mkF h 0x98 0 .zero sa .zero .zero)
  | .cbar h => some (mk1 h 0x99 0 0)
  | .cbarCounted h sa => some (mkF h 0x99 0 .zero sa .zero .zero)
  | .cpa h b size dir src dst ds dd =>
      some (mkF h 0xA0 (0#2 ++ dir.code ++ size) (.plain (barField b)) src dst .zero 0 (dd ++ ds))
  | .tcopy h b dir dscr src dst desc =>
      some (mkF h 0xA1 (0#3 ++ BitVec.ofBool dscr ++ dir.code) (.plain (barField b)) src dst
        (match desc with | .reg r => r | .lit _ => .zero) 0 0 (match desc with | .reg _ => 0 | .lit x => x))
  | .tcopym h b dscr src dst desc id =>
      some (mkF h 0xA2 (0#3 ++ BitVec.ofBool dscr ++ 0#2) (.plain (barField b)) src dst
        (match desc with | .reg r => r | .lit _ => .zero) 0 (0#28 ++ id) (match desc with | .reg _ => 0 | .lit x => x))
  | .binit h b v => some (mkBar h 0xA3 b v)
  | .barv h b v => some (mkBar h 0xA4 b v)
  | .bexp h b v => some (mkBar h 0xA5 b v)
  | .bwait h b p => some (mkPar h 0xA6 (.ofK b) .zero p)
  | .btest h kd b p => some (mkPar h 0xA7 kd (.ofK b) p)
  | .waitn h n t => match t with
      | .reg r => some (mkF h 0xA8 0 (.plain n) .zero r .zero)
      | .imm i => some (mkF h 0xA8 i (.plain n) .zero .zero .zero 2)
      | .word => some (mkF h 0xA8 0 (.plain n) .zero .zero .zero 1)
  | .trig h c t =>
      let d : BitVec 8 := match c with
        | .ctr n => 0#5 ++ n
        | .bar b => 0b1000#4 ++ b
      match t with
      | .reg r => some (mkF h 0xA9 0 (.plain d) .zero r .zero)
      | .imm w => some (mkF h 0xA9 0 (.plain d) .zero .zero .zero 1 w)
  | .mma h y ta tb tc ad va vb => some (mkF h 0xB0 (subT y ta) ad va vb (.plain (0#1 ++ tc.code ++ tb.code)))
  | .mmaq h y ta tb tc ad va vb => some (mkF h 0xB1 (subT y ta) ad va vb (.plain (0#1 ++ tc.code ++ tb.code)))
  | .mmv h tw tv tc ad vx sw ss nr nv =>
      some (mkF h 0xB2 (subT false tw) ad vx (.plain sw) (.plain ss) 0 (0#15 ++ tc.code ++ tv.code ++ nv ++ nr))
  | .mlutb h ad va => some (mkF h 0xB3 (subT false .s8) ad va .zero .zero)
  | .mlut h m y ad aa vb => some (mkF h 0xB4 (BitVec.ofBool y ++ 0#3 ++ m.code) ad aa vb .zero)
  | .rcvt h ad aa => some (mkF h 0xB5 0 ad aa .zero .zero)
  | .scacc h tp ad aa vb vc => some (mkF h 0xB6 (subT false tp) ad aa vb vc)
  | .accz h ad => some (mkF h 0xB7 0 ad .zero .zero .zero)
  | .accrd h n vd aa c => some (mkF h 0xB8 (0#1 ++ n) vd aa .zero (.plain c))
  | .accwr h n ad vb c => some (mkF h 0xB9 (0#1 ++ n) ad .zero vb (.plain c))
  | .accld h ad sa => some (mkF h 0xBA 0 ad sa .zero .zero)
  | .accst h ad sa => some (mkF h 0xBB 0 ad sa .zero .zero)
  | .accstat h clr sd aa => some (mkF h 0xBC (0#5 ++ BitVec.ofBool clr) sd aa .zero .zero)
  | .gather h m tr f32 sd sh vi n sx =>
      some (mkG h 0xC0 (0#2 ++ BitVec.ofBool f32 ++ BitVec.ofBool tr ++ m.code) sd sh vi n sx)
  | .scatr h m tr f32 sd sh vi n sx =>
      some (mkG h 0xC1 (0#2 ++ BitVec.ofBool f32 ++ BitVec.ofBool tr ++ m.code) sd sh vi n sx)
  | .scatw h tr f32 sd sh vi n sx =>
      some (mkG h 0xC2 (0#2 ++ BitVec.ofBool f32 ++ BitVec.ofBool tr ++ 0#2) sd sh vi n sx)
  | .gstat h clr sd => some (mkF h 0xC3 (0#5 ++ BitVec.ofBool clr) sd .zero .zero .zero)
  | .klook h tr f32 sd sq sh sk sx =>
      some (mkF h 0xC4 (0#2 ++ BitVec.ofBool f32 ++ BitVec.ofBool tr ++ 0#2) (.plain sd) (.plain sq) (.plain sh) (.plain sk) 0
        (match sx with | none => 0 | some g => 0#12 ++ g.km ++ g.vw ++ g.vs))
  | .kgrad h tr sg sh sk sx =>
      some (mkF h 0xC5 (0#3 ++ BitVec.ofBool tr ++ 0#2) (.plain sg) .zero (.plain sh) (.plain sk) 0
        (match sx with | none => 0 | some g => 0#12 ++ g.km ++ g.vw ++ g.vs))
  | .hdesc h f sd sh sb => some (mkF h 0xC6 f sd sh sb .zero)
  | .xpnd h s vs vl => some (mkF h 0xD0 (0#4 ++ s.code) .zero vs vl .zero)
  | .xnext h it vd kc sb => some (mkF h 0xD1 (0#5 ++ BitVec.ofBool it) vd .zero (.plain sb) (.plain kc))
  | .xstat h f sd => some (mkF h 0xD2 f sd .zero .zero .zero)
  | .segred h op vd va => some (mkF h 0xD3 (0#2 ++ op.code) vd va .zero .zero)
  | .xabort h => some (mk1 h 0xD4 0 0)
  | .enq h cl vd va q => some (mkEnq h 0xD5 (0#5 ++ BitVec.ofBool cl) vd va .zero q)
  | .enqb h vd va vc q => some (mkEnq h 0xD6 0 vd va vc q)
  | .qstat h f sd sb => some (mkF h 0xD7 f sd .zero sb .zero)
  | .rwr h z p vb vc b => some (mkF h 0xE0 (0#2 ++ z) .zero p.reg vb vc p.md (remW2 0 0 b))
  | .rrd h z p vb vc b => some (mkF h 0xE1 (0#2 ++ z) .zero p.reg vb vc p.md (remW2 0 0 b))
  | .rred h op t z nc p vb vc b => some (mkF h 0xE2 (subA op t) .zero p.reg vb vc p.md (remW2 nc z b))
  | .rflag h op w p vb vc b =>
      some (mkF h 0xE3 (0#3 ++ BitVec.ofBool w ++ op.code) .zero p.reg vb vc p.md (remW2 0 0 b))
  | .csig h f sd sp sr => some (mkF h 0xE4 f sd sp sr .zero)
  | .rfence h => some (mk1 h 0xE5 0 0)
  | .csrr h n sd => some (mkF h 0xF0 n sd .zero .zero .zero)
  | .csrw h n sa => some (mkF h 0xF1 n .zero sa .zero .zero)
  | .trap h c => some (mk1 h 0xF2 c 0)
  | .brk h c => some (mk1 h 0xF3 c 0)
  | .cyc h sd => some (mk1 h 0xF4 0 sd)
  | _ => none

/-! ## Decoding -/

/-- What decoding answers: an instruction that passed steps 1 to 4 of Table 5.5, or the fault of the first step that
failed. A reserved OP is the row RESERVED_OPCODE, whose meaning raises ILLOP. -/
inductive Decoded where
  | instr (i : Instr)
  | illop
  | illform
  deriving DecidableEq, Repr

/-- Steps 2 to 4 of Table 5.5 on the fields of an assigned slot. -/
def Fields.decode (f : Fields) : Decoded :=
  if ((opLens f.op.toNat).getD []).contains f.len then
    match f.parse with
    | none => .illop
    | some i =>
      if i.toFields = some f ∧ i.opOk = true then (if i.formOk then .instr i else .illform) else .illop
  else .illform

/-- Decoding of the five words from an instruction's address on (Table 5.5, steps 1 to 4). -/
def decodeWords (w0 w1 w2 w3 w4 : Word) : Decoded :=
  if (opLens (w0.extractLsb' 2 8).toNat).isNone then .instr (.reservedOpcode w0)
  else (unpack0 w0 w1 w2 w3 w4).decode

/-- Words that an instruction occupies, by the L field of its first word (Table 5.2, R44). -/
def wordsOf (w0 : Word) : Nat := (Len.ofCode (w0.extractLsb' 0 2)).words

/-- The common fields of a first word, whatever its OP (Table 5.1). -/
def hdrOf (w0 : Word) : Hdr :=
  { len := Len.ofCode (w0.extractLsb' 0 2), st := w0.extractLsb' 10 3, g := w0.extractLsb' 13 4, gn := w0.getLsbD 17,
    xs := 0 }

/-- A little-endian word of a byte list; bytes beyond its end read as 0 (R1). -/
def wordAt (bs : List Byte) (k : Nat) : Word :=
  bs.getD (4 * k + 3) 0 ++ bs.getD (4 * k + 2) 0 ++ bs.getD (4 * k + 1) 0 ++ bs.getD (4 * k) 0

/-- Decoding of any byte list, from its first byte (R44). -/
def decodeBytes (bs : List Byte) : Decoded :=
  decodeWords (wordAt bs 0) (wordAt bs 1) (wordAt bs 2) (wordAt bs 3) (wordAt bs 4)

/-- The words of a machine instruction. -/
def Instr.encode (i : Instr) : List Word :=
  match i with
  | .reservedOpcode w0 => [w0]
  | _ => match i.toFields with
    | some f => f.words
    | none => []

/-- The bytes of a word, the lowest address first (R1). -/
def wordBytes (w : Word) : List Byte :=
  [w.extractLsb' 0 8, w.extractLsb' 8 8, w.extractLsb' 16 8, w.extractLsb' 24 8]

/-- The bytes of a machine instruction, at ascending addresses (R44). -/
def Instr.encodeBytes (i : Instr) : List Byte := i.encode.flatMap wordBytes

/-- The bytes of an instruction whose bits are `w`, bit 0 being the least significant bit of its first word; five words,
the bits above `nbits` zero. -/
def tableBytes (nbits w : Nat) : List Byte :=
  (List.range 20).map fun k => BitVec.ofNat 8 ((w % 2 ^ nbits) / 2 ^ (8 * k))

/-- The instruction that the decoder reads from an instruction whose bits are `w`, numbered as the opcode table numbers
them: bit 0 is the least significant bit of the first word. -/
def decodeTableWord (nbits w : Nat) : Option Instr :=
  match decodeBytes (tableBytes nbits w) with
  | .instr i => some i
  | _ => none

end Sys2Proof
end

