-- ==== Sys2Proof/Machine/Fetch.lean ====
section
/-! DEFINITION. Fetching an instruction's bytes (05 R47) and the target checks of a split that has arrived by a transfer
(09 R100). -/

namespace Sys2Proof.Machine

/-- What a fetch finds. -/
inductive Fetched where
  | word (bs : List Byte)
  | fault (f : FInfo)
  deriving DecidableEq, Repr

/-- A fetch fault: for the lanes of the split, or for the group when its mask is empty (R47, R100). -/
def Iss.fetchFault (x : Iss) (c : Cause) (pages : List (DWord × Bool × Nat)) (detail : DWord := 0) : FInfo :=
  let g := x.sp.mask = 0 || c = .dataerr
  { cause := c, level := if g then 1 else 0, lanes := if g then 0 else x.sp.mask, addr := x.sp.pc, detail := detail,
    pages := pages, pc := x.sp.pc, split := x.sp.mask, eng := false, fetch := true }

/-- The bytes at an address through an execute mapping, or the fault. -/
def State.fetchBytes (s : State) (x : Iss) (a n : Nat) : Except FInfo (List Byte) :=
  match s.transBytes x.bench x.tm.core (x.tm.ctx s) .fetch 0 (BitVec.ofNat 64 a) n with
  | .error e => .error (x.fetchFault e.cause e.pages e.detail)
  | .ok bs =>
    if bs.any fun b => s.dieBad (dieOf x.tm.core) b.pa then .error (x.fetchFault .dataerr [])
    else .ok (bs.map fun b => s.dieByte (dieOf x.tm.core) b.pa)

/-- The bytes of the instruction at an address. -/
def State.instrBytes (s : State) (x : Iss) (a : Nat) : Except FInfo (List Byte) :=
  match s.fetchBytes x a 4 with
  | .error e => .error e
  | .ok w => let n := wordsOf (wordAt w 0)
    if n = 1 then .ok w else s.fetchBytes x a (4 * n)

/-- The fetch of a split, with the target checks in their order (R100): canonical form, alignment, translation, and for
a BRX target other than its next address, the landing. -/
def State.fetch (s : State) (x : Iss) : Fetched :=
  let a := x.sp.pc.toNat
  if noncanon a then .fault (x.fetchFault .noncanon [])
  else if a % 4 ≠ 0 then .fault (x.fetchFault .misalign [])
  else match s.instrBytes x a with
    | .error e => .fault e
    | .ok bs => match x.sp.arrivedBy with
      | .brx fall =>
        let w := wordAt bs 0
        if x.sp.pc ≠ fall ∧ ¬ (w.extractLsb' 0 2 = 0 ∧ w.extractLsb' 2 8 = 0x06) then .fault (x.fetchFault .landing [])
        else .word bs
      | _ => .word bs

/-- The TLB effect of a fetch (26 R335). -/
def State.fetchFill (s : State) (x : Iss) (n : Nat) : State :=
  s.fillTlb x.bench x.tm.core (x.tm.ctx s) [x.sp.pc.toNat, x.sp.pc.toNat + n - 1]

/-- A split may issue: its team runs (or is in a notice interval that lets it run), its group is live, it holds a table
entry, nothing holds it, and its stall count has passed (03 R34, 26 R337). -/
def State.canIssue (s : State) (x : Iss) : Bool :=
  (match x.tm.st with
   | .running => true
   | .notice _ => x.tm.why ≠ some .grid
   | _ => false) &&
  x.g.live && x.sp.entry.isSome && x.sp.hold == .run && decide (x.sp.quiet < 64) &&
  decide (x.sp.readyAt ≤ s.now)

/-- A fetch fault is contained; no action lets the split pass (R39). -/
def Iss.takeFetchFault (x : Iss) (f : FInfo) (s : State) : State := (s.contain x.r f).1

/-- A word whose decoding failed: ILLOP or ILLFORM at group level, raised even under the never guard (R49). -/
def Iss.decodeFault (x : Iss) (c : Cause) (w0 : Word) (s : State) : State := x.groupFault (hdrOf w0) c 0 s

end Sys2Proof.Machine
end

