-- ==== Sys2Proof/Machine/Engine.lean ====
section
/-! DEFINITION. Engine operations in common: barrier updates (14 R211, R213), engine faults kept for an observing
instruction (14 R219), and their delivery. -/

namespace Sys2Proof.Machine

/-! ## Barrier registers (14 R210 to R213) -/

/-- `update()` of R211: none when it refuses the change. -/
def BarReg.update (b : BarReg) : Option BarReg :=
  if b.expm < b.arrm ∨ (b.arrm = b.expm ∧ b.expb < b.arrb) then none
  else if b.arrm = b.expm ∧ b.arrb = b.expb then
    some { b with phase := !b.phase, arrm := 0, arrb := 0, expb := 0 }
  else some b

/-- Arriving members and bytes: none is BARMISUSE (R211, R213). ARRB counts beyond its 32 bits: the spec gives no wrap and
no fault there (log entry 73). -/
def BarReg.arrive (b : BarReg) (members bytes : Nat) : Option BarReg :=
  if b.expm = 0 then none else { b with arrm := b.arrm + members, arrb := b.arrb + bytes }.update

/-- A barrier register of a team. -/
def Team.bar (t : Team) (n : Nat) : BarReg := t.bars.getD n { arrb := 0, expb := 0, phase := false, arrm := 0, expm := 0 }

/-- Setting a barrier register. -/
def Team.setBar (t : Team) (n : Nat) (b : BarReg) : Team := { t with bars := t.bars.set n b }

/-! ## Engine faults (14 R219) -/

/-- Keeping an engine fault for the group's observing instruction. -/
def State.keepFault (s : State) (t gi : Nat) (f : EFault) : State :=
  s.modGroup t gi fun g => if g.live then { g with efaults := g.efaults ++ [f] } else g

/-- One update of a team's barrier register for a completed operation of a group (R213); a refused one becomes an engine
fault of that group, which is the last attempt when it follows an IGN (R219). -/
def State.barUpdateOn (s : State) (t gi : Nat) (o : Op) (last : Bool) (target : Nat) : State :=
  match o.bn, s.team? target with
  | some n, some tm =>
    (match (tm.bar n).arrive 1 o.bytes with
      | some b => s.modTeam target fun tm => tm.setBar n b
      | none => s.keepFault t gi
          { op := o, cause := .barmisuse, lanes := o.mask, addr := 0, pages := [], detail := 0, remote := false, stands := last,
            bar := some target })
  | _, _ => s

/-- The barrier updates of a completed operation: its team's register, or that of every member of a TCOPYM (R213,
R217). -/
def State.barUpdate (s : State) (t gi : Nat) (o : Op) (last : Bool) : State :=
  match o.kind with
  | .tcopy _ _ _ _ _ _ _ (m :: ms) => (m :: ms).foldl (fun s target => s.barUpdateOn t gi o last target) s
  | _ => s.barUpdateOn t gi o last t

/-- What IGN of an engine fault does: the operation's barrier update, for a refused update that one again; nothing once
the fault stands (R219, 18 R260). -/
def State.ignoreEngine (s : State) (t gi : Nat) (f : EFault) : State :=
  if f.stands then s
  else match f.bar with
    | some target => s.barUpdateOn t gi f.op true target
    | none => s.barUpdate t gi f.op true

/-- The lanes of an engine fault that still hold the same items (R219). -/
def Group.sameItems (g : Group) (o : Op) (lanes : Word) : Word :=
  maskBy fun l => lanes.getLsbD l && o.mask.getLsbD l && g.occ.getLsbD l && (o.ages.getD l 0) == g.ageOf l

/-- Raising an engine fault at an observing instruction: on the lanes that still hold their items, else at group level
(R219). -/
def Iss.engineFault (x : Iss) (f : EFault) (s : State) : State × Disp :=
  let lanes := x.g.sameItems f.op f.lanes
  let lv := if f.cause.level = 2 then 2 else if lanes = 0 then 1 else f.cause.level
  let s := s.modG x.r fun g => { g with efaults := g.efaults.erase f }
  let i : FInfo :=
    { cause := f.cause, level := lv, lanes := if lv = 0 then lanes else 0, addr := f.addr, detail := f.detail,
      pages := f.pages ++ (f.own.filter fun p => lv != 0 || lanes.getLsbD p.1).flatMap (·.2), pc := f.op.pc, split := x.sp.mask, eng := true, fetch := false }
  match s.contain x.r i (some f) with
  | (s, .ign lv) => (s.ignoreEngine x.r.team x.r.grp f, .ign lv)
  | r => r

/-- Raising the engine faults that an instruction observes, one after another; it goes on only when each has been
absorbed without holding or ending its split (R219). -/
def Iss.observeN (sel : EFault → Bool) (go : Iss → State → State) : Nat → Iss → State → State
  | 0, x, s => go x s
  | fuel + 1, x, s =>
    match x.g.efaults.find? sel with
    | none => go x s
    | some f =>
      let r := x.engineFault f s
      match x.re r.1 with
      | none => r.1
      | some y => match y.sp.hold with
        | .fault _ => r.1
        | _ => if y.sp.pc = x.sp.pc then y.observeN sel go fuel r.1 else r.1

/-- Raising every engine fault that an instruction observes: an ignored one may leave the refused updates of at most twelve
barrier registers behind, which stand (R217, R219). -/
def Iss.observe (sel : EFault → Bool) (go : Iss → State → State) (x : Iss) (s : State) : State :=
  x.observeN sel go (13 * x.g.efaults.length + 1) s

/-- An engine fault that a WAITN on a counter with a threshold observes: the first (issued − T) operations are covered
(R209, R219); a fault of a remote write waits for RFENCE or REFILL (28 R359). -/
def EFault.covered (f : EFault) (g : Group) (n t : Nat) : Bool :=
  !f.remote && f.op.nth.any fun p => p.1 == n && decide (t + p.2 + 1 ≤ g.ctot.getD n 0)

/-- An engine operation ends: with its barrier updates, or with the faults it has found, which its group's observing
instruction raises; either way its counters count down (R213, R219). -/
def State.endEngine (s : State) (t gi : Nat) (o : Op) (fs : List EFault) : State :=
  let s := if fs.isEmpty then s.barUpdate t gi o false else fs.foldl (fun s f => s.keepFault t gi f) s
  s.modGroup t gi fun g => g.opDone o.id

end Sys2Proof.Machine
end

