-- ==== Sys2Proof/Machine/Float.lean ====
section
/-! DEFINITION. Number formats and exact arithmetic (07): every floating-point result is one exact real value rounded
once. Exact values are fractions of integers; `roundTo` is the one place where a value is rounded and its flags are
computed. Flags are numbered as in Table 7.4: 0 NV, 1 DZ, 2 OF, 3 UF, 4 NX. -/

namespace Sys2Proof.Machine

/-- Rounding modes (R77). -/
inductive RMode where
  | rn | rz | rm | rp
  deriving DecidableEq, Repr

/-- The value of a floating-point code (R71): a NaN, an infinity, or sign, integer significand and exponent. -/
inductive FVal where
  | nan (sig : Bool)
  | inf (neg : Bool)
  | fin (neg : Bool) (m : Nat) (e : Int)
  deriving DecidableEq, Repr

/-- An exact real value n / d with d positive (R4). -/
structure Ex where
  n : Int
  d : Nat
  deriving DecidableEq, Repr

/-- A delivered result and the flags it raises. -/
structure FRes where
  bits : Nat
  fl : BitVec 5
  deriving DecidableEq, Repr

/-- Flags of a list of flag numbers (Table 7.4). -/
def flags (nv dz o u nx : Bool) : BitVec 5 :=
  BitVec.ofBool nx ++ BitVec.ofBool u ++ BitVec.ofBool o ++ BitVec.ofBool dz ++ BitVec.ofBool nv

/-- NV alone. -/
def fNV : BitVec 5 := 1
/-- DZ alone. -/
def fDZ : BitVec 5 := 2
/-- OF and NX, which every overflow sets (R77). -/
def fOFNX : BitVec 5 := 0b10100
/-- NX alone. -/
def fNX : BitVec 5 := 0b10000
/-- UF and NX (R80). -/
def fUFNX : BitVec 5 := 0b11000

/-- Fraction bits of a format (Table 7.1). -/
def fracBits : ElemTy → Nat
  | .f32 => 23 | .f16 => 10 | .bf16 => 7 | .e4m3 => 3 | .e5m2 => 2 | .e2m1 => 1 | _ => 23
/-- Exponent bits of a format (Table 7.1). -/
def expBits : ElemTy → Nat
  | .f32 | .bf16 => 8 | .f16 | .e5m2 => 5 | .e4m3 => 4 | .e2m1 => 2 | _ => 8
/-- Bias of a format (Table 7.1). -/
def bias : ElemTy → Nat
  | .f32 | .bf16 => 127 | .f16 | .e5m2 => 15 | .e4m3 => 7 | .e2m1 => 1 | _ => 127
/-- The code of +inf (Table 7.1), in the formats that have it. -/
def infCode (t : ElemTy) : Nat := (2 ^ expBits t - 1) * 2 ^ fracBits t
/-- The code of the largest finite value (Table 7.1). -/
def maxCode : ElemTy → Nat
  | .e4m3 => 0x7E
  | .e2m1 => 7
  | t => infCode t - 1
/-- The canonical NaN (Table 7.1, R76); E2M1 has none, and a NaN becomes +0 there (Table 7.3). -/
def nanCode : ElemTy → Nat
  | .f32 => 0x7FC00000 | .f16 => 0x7E00 | .bf16 => 0x7FC0 | .e5m2 => 0x7E | .e4m3 => 0x7F | _ => 0
/-- The formats with infinities (Table 7.1). -/
def hasInf : ElemTy → Bool
  | .f32 | .f16 | .bf16 | .e5m2 => true
  | _ => false
/-- A sign bit above a code. -/
def withSign (t : ElemTy) (neg : Bool) (c : Nat) : Nat := if neg then c + 2 ^ (t.bits - 1) else c

/-- The value of a code (R71). -/
def decodeF (t : ElemTy) (x : Nat) : FVal :=
  let w := fracBits t
  let neg := x / 2 ^ (t.bits - 1) % 2 = 1
  let e := x / 2 ^ w % 2 ^ expBits t
  let f := x % 2 ^ w
  if hasInf t && e == 2 ^ expBits t - 1 then
    if f = 0 then .inf neg else .nan (f < 2 ^ (w - 1))
  else if t == .e4m3 && e == 15 && f == 7 then .nan false
  else if e = 0 then .fin neg f (1 - (bias t : Int) - w)
  else .fin neg (2 ^ w + f) ((e : Int) - bias t - w)

/-- Whether a code is a subnormal (R71). -/
def isSub (t : ElemTy) (x : Nat) : Bool := x / 2 ^ fracBits t % 2 ^ expBits t == 0 && x % 2 ^ fracBits t != 0

/-- Reading an input: under flushing a subnormal is a zero of its sign (R80). -/
def inF (t : ElemTy) (flush : Bool) (x : Nat) : FVal :=
  match decodeF t x with
  | .fin neg m e => if flush && isSub t x then .fin neg 0 0 else .fin neg m e
  | v => v

/-- A power of two as a fraction. -/
def Ex.pow2 (e : Int) : Ex := if 0 ≤ e then ⟨2 ^ e.toNat, 1⟩ else ⟨1, 2 ^ (-e).toNat⟩
/-- Zero. -/
def Ex.zero : Ex := ⟨0, 1⟩
/-- An integer. -/
def Ex.ofInt (i : Int) : Ex := ⟨i, 1⟩
/-- Product. -/
def Ex.mul (a b : Ex) : Ex := ⟨a.n * b.n, a.d * b.d⟩
/-- Sum, over the larger denominator where one divides the other. -/
def Ex.add (a b : Ex) : Ex :=
  if a.d % b.d = 0 then ⟨a.n + b.n * (a.d / b.d : Nat), a.d⟩
  else if b.d % a.d = 0 then ⟨a.n * (b.d / a.d : Nat) + b.n, b.d⟩
  else ⟨a.n * b.d + b.n * a.d, a.d * b.d⟩
/-- Negation. -/
def Ex.neg (a : Ex) : Ex := ⟨-a.n, a.d⟩
/-- Absolute value. -/
def Ex.abs (a : Ex) : Ex := ⟨a.n.natAbs, a.d⟩
/-- Order. -/
def Ex.lt (a b : Ex) : Bool := decide (a.n * b.d < b.n * a.d)
/-- Order. -/
def Ex.le (a b : Ex) : Bool := decide (a.n * b.d ≤ b.n * a.d)
/-- Equality of values. -/
def Ex.eq (a b : Ex) : Bool := decide (a.n * b.d = b.n * a.d)

/-- The exact value of a finite code; 0 for the others. -/
def FVal.ex : FVal → Ex
  | .fin neg m e => (Ex.pow2 e).mul ⟨if neg then -(m : Int) else m, 1⟩
  | _ => .zero
/-- Sign of a value. -/
def FVal.neg : FVal → Bool
  | .fin n _ _ => n
  | .inf n => n
  | .nan _ => false
/-- A NaN. -/
def FVal.isNan : FVal → Bool
  | .nan _ => true
  | _ => false
/-- A signalling NaN. -/
def FVal.isSig : FVal → Bool
  | .nan s => s
  | _ => false
/-- An infinity. -/
def FVal.isInf : FVal → Bool
  | .inf _ => true
  | _ => false
/-- A zero. -/
def FVal.isZero : FVal → Bool
  | .fin _ 0 _ => true
  | _ => false
/-- The value with its sign flipped. -/
def FVal.flip : FVal → FVal
  | .fin n m e => .fin (!n) m e
  | .inf n => .inf (!n)
  | v => v

/-- Rounding n / d to an integer in a mode, for a value of the given sign; and whether it was inexact (R77). -/
def roundNat (md : RMode) (neg : Bool) (n d : Nat) : Nat × Bool :=
  let q := n / d
  let r := n % d
  let up := match md with
    | .rn => decide (d < 2 * r) || (decide (2 * r = d) && decide (q % 2 = 1))
    | .rz => false
    | .rm => neg && r != 0
    | .rp => !neg && r != 0
  (if up then q + 1 else q, r != 0)

/-- The exponent of the leading bit of n / d (both positive). -/
def ilog2 (n d : Nat) : Int :=
  let e : Int := (Nat.log2 n : Int) - Nat.log2 d
  if 0 ≤ e then (if n < d * 2 ^ e.toNat then e - 1 else e) else (if n * 2 ^ (-e).toNat < d then e - 1 else e)

/-- n / d divided by 2^q, as a fraction. -/
def scaleDown (n d : Nat) (q : Int) : Nat × Nat := if 0 ≤ q then (n, d * 2 ^ q.toNat) else (n * 2 ^ (-q).toNat, d)

/-- The overflow result of a sign in a format (R77, Table 7.3). -/
def overflowF (t : ElemTy) (md : RMode) (sat neg : Bool) : FRes :=
  let toInf := match md with
    | .rn => true
    | .rz => false
    | .rm => neg
    | .rp => !neg
  let c := if sat || !toInf || t == .e2m1 then withSign t neg (maxCode t)
    else if hasInf t then withSign t neg (infCode t) else nanCode t
  ⟨c, fOFNX⟩

/-- Rounding of one exact value into a format (R75, R77, R80): the sign of an exact zero is given, tininess is
detected after rounding, and under flushing a subnormal result becomes a zero of its sign. -/
def roundTo (t : ElemTy) (md : RMode) (sat flush zneg : Bool) (x : Ex) : FRes :=
  if x.n = 0 then ⟨withSign t zneg 0, 0⟩
  else
    let neg := decide (x.n < 0)
    let n := x.n.natAbs
    let w := fracBits t
    let emin : Int := 1 - (bias t : Int)
    let e := ilog2 n x.d
    let q : Int := (if e < emin then emin else e) - w
    let s := scaleDown n x.d q
    let (k, nx) := roundNat md neg s.1 s.2
    let code : Int := (q + w + bias t - 1) * 2 ^ w + k
    let tiny := decide (e < emin - 1) || (decide (e = emin - 1) &&
      (let s' := scaleDown n x.d (e - w)
       decide ((roundNat md neg s'.1 s'.2).1 < 2 ^ (w + 1))))
    if (maxCode t : Int) < code then overflowF t md sat neg
    else if flush && decide (code < 2 ^ w) && decide (0 < code) then ⟨withSign t neg 0, fUFNX⟩
    else ⟨withSign t neg code.toNat, flags false false false (tiny && nx) nx⟩

/-- RN_F32 of an exact value, an exact zero being +0 (R4). -/
def rnF32 (x : Ex) : Nat := (roundTo .f32 .rn false false false x).bits

/-- The canonical NaN with NV. -/
def nanNV (t : ElemTy) : FRes := ⟨nanCode t, fNV⟩
/-- The canonical NaN, with NV when a signalling NaN came in (R76). -/
def nanOf (t : ElemTy) (sig : Bool) : FRes := ⟨nanCode t, if sig then fNV else 0⟩
/-- An infinity. -/
def infRes (t : ElemTy) (neg : Bool) : FRes := ⟨withSign t neg (infCode t), 0⟩

/-- a × b + c, exact before the one rounding (R132); special values follow IEEE 754-2019 and R76. -/
def fmaF (t : ElemTy) (md : RMode) (flush : Bool) (a b c : FVal) : FRes :=
  let zi := (a.isInf && b.isZero) || (a.isZero && b.isInf)
  let sig := a.isSig || b.isSig || c.isSig
  if zi then nanNV t
  else if a.isNan || b.isNan || c.isNan then nanOf t sig
  else
    let pneg := a.neg != b.neg
    if a.isInf || b.isInf then
      if c.isInf && c.neg != pneg then nanNV t else infRes t pneg
    else if c.isInf then infRes t c.neg
    else
      let p := a.ex.mul b.ex
      let zneg := if p.n = 0 && c.isZero && pneg == c.neg then pneg else md == .rm
      roundTo t md false flush zneg (p.add c.ex)

/-- One, exactly. -/
def FVal.one : FVal := .fin false 1 0

/-- a + b (R132). -/
def addF (t : ElemTy) (md : RMode) (flush : Bool) (a b : FVal) : FRes := fmaF t md flush a .one b
/-- a − b (R132). -/
def subF (t : ElemTy) (md : RMode) (flush : Bool) (a b : FVal) : FRes := fmaF t md flush a .one b.flip

/-- a × b (R132). -/
def mulF (t : ElemTy) (md : RMode) (flush : Bool) (a b : FVal) : FRes :=
  if (a.isInf && b.isZero) || (a.isZero && b.isInf) then nanNV t
  else if a.isNan || b.isNan then nanOf t (a.isSig || b.isSig)
  else if a.isInf || b.isInf then infRes t (a.neg != b.neg)
  else roundTo t md false flush (a.neg != b.neg) (a.ex.mul b.ex)

/-- An exact quotient of finite values, the divisor not zero. -/
def Ex.div (a b : Ex) : Ex :=
  if b.n < 0 then ⟨-(a.n * b.d), a.d * b.n.natAbs⟩ else ⟨a.n * b.d, a.d * b.n.natAbs⟩

/-- a / b (R142). -/
def divF (t : ElemTy) (md : RMode) (sat flush : Bool) (a b : FVal) : FRes :=
  let neg := a.neg != b.neg
  if a.isNan || b.isNan then nanOf t (a.isSig || b.isSig)
  else if (a.isInf && b.isInf) || (a.isZero && b.isZero) then nanNV t
  else if a.isInf then infRes t neg
  else if b.isInf then ⟨withSign t neg 0, 0⟩
  else if b.isZero then ⟨withSign t neg (infCode t), fDZ⟩
  else roundTo t md sat flush neg (a.ex.div b.ex)

/-- The integer square root, bit by bit from 2^k down. -/
def isqrtGo (n : Nat) : Nat → Nat → Nat
  | 0, r => r
  | k + 1, r => isqrtGo n k (if (r + 2 ^ k) * (r + 2 ^ k) ≤ n then r + 2 ^ k else r)

/-- The integer square root. -/
def isqrt (n : Nat) : Nat := isqrtGo n (Nat.log2 n / 2 + 1) 0

/-- The square root of a finite positive value as a fraction, with a sticky last bit when it is not exact. -/
def sqrtEx (m : Nat) (e : Int) : Ex :=
  let odd := e % 2 = 1
  let m' := if odd then 2 * m else m
  let e' := if odd then e - 1 else e
  let r := isqrt (m' * 2 ^ 128)
  (Ex.pow2 (e' / 2 - 65)).mul ⟨(2 * r + (if r * r = m' * 2 ^ 128 then 0 else 1) : Nat), 1⟩

/-- √b (R142). -/
def sqrtF (t : ElemTy) (md : RMode) (flush : Bool) (b : FVal) : FRes :=
  match b with
  | .nan s => nanOf t s
  | .inf neg => if neg then nanNV t else infRes t false
  | .fin neg m e =>
    if m = 0 then ⟨withSign t neg 0, 0⟩ else if neg then nanNV t else roundTo t md false flush false (sqrtEx m e)

/-- The order of two values without NaN, −0 and +0 being equal. -/
def ltF (a b : FVal) : Bool :=
  match a, b with
  | .nan _, _ | _, .nan _ => false
  | .inf true, .inf true => false
  | .inf true, _ => true
  | _, .inf true => false
  | .inf false, _ => false
  | _, .inf false => true
  | a, b => a.ex.lt b.ex
/-- Equality of two values, −0 and +0 being equal; a NaN equals nothing. -/
def eqF (a b : FVal) : Bool :=
  match a, b with
  | .nan _, _ | _, .nan _ => false
  | .inf x, .inf y => x == y
  | .inf _, _ | _, .inf _ => false
  | a, b => a.ex.eq b.ex
/-- As `ltF`, with −0 ordered below +0 (R133). -/
def ltZ (a b : FVal) : Bool := ltF a b || (eqF a b && a.isZero && a.neg && !b.neg)

/-- The smaller or larger operand (R133): codes and their values; one NaN gives the other operand. -/
def minmaxF (t : ElemTy) (max : Bool) (x : Nat) (a : FVal) (y : Nat) (b : FVal) : FRes :=
  let fl : BitVec 5 := if a.isSig || b.isSig then fNV else 0
  if a.isNan && b.isNan then ⟨nanCode t, fl⟩
  else if a.isNan then ⟨y, fl⟩
  else if b.isNan then ⟨x, fl⟩
  else ⟨if (if max then ltZ a b else ltZ b a) then y else x, fl⟩

/-- The code of an input after flushing (R80): a flushed subnormal is a zero of its sign. -/
def flushCode (t : ElemTy) (flush : Bool) (x : Nat) : Nat :=
  if flush && isSub t x then withSign t (decodeF t x).neg 0 else x

/-- FCMP's condition and whether it sets NV (Table 10.2). -/
def fcmpF (c : FCond) (a b : FVal) : Bool × Bool :=
  let un := a.isNan || b.isNan
  let sig := a.isSig || b.isSig
  match c with
  | .eq => (eqF a b, sig)
  | .ne => (!eqF a b, sig)
  | .lt => (ltF a b, un)
  | .le => (ltF a b || eqF a b, un)
  | .gt => (ltF b a, un)
  | .ge => (ltF b a || eqF a b, un)
  | .un => (un, sig)
  | .or => (!un, sig)

/-- FCLS (R135): whether a code falls in a class of the set and passes its sign filter. -/
def fclsF (t : ElemTy) (set : BitVec 8) (x : Nat) : Bool :=
  let v := decodeF t x
  let k := match v with
    | .nan s => if s then 0 else 1
    | .inf _ => 2
    | .fin _ m _ => if m = 0 then 5 else if isSub t x then 4 else 3
  let neg := x / 2 ^ (t.bits - 1) % 2 = 1
  set.getLsbD k && ((!set.getLsbD 6 && !set.getLsbD 7) || (if neg then set.getLsbD 7 else set.getLsbD 6))

/-- Rounding an exact value to an integer (R78). -/
def roundInt (md : RMode) (x : Ex) : Int × Bool :=
  let (k, nx) := roundNat md (x.n < 0) x.n.natAbs x.d
  (if x.n < 0 then -(k : Int) else k, nx)

/-- FRND (R136): the integral value of the same type; a zero result keeps the sign. -/
def frndF (t : ElemTy) (md : RMode) (flush : Bool) (x : Nat) : FRes :=
  match inF t flush x with
  | .nan s => nanOf t s
  | .inf n => infRes t n
  | .fin neg m e =>
    let (k, nx) := roundInt md (FVal.fin neg m e).ex
    ⟨(roundTo t md false false neg (.ofInt k)).bits, if nx then fNX else 0⟩

/-- FSCL (R136): a × 2^n exactly, rounded once. -/
def fsclF (t : ElemTy) (md : RMode) (flush : Bool) (a : FVal) (n : Int) : FRes :=
  match a with
  | .nan s => nanOf t s
  | .inf neg => infRes t neg
  | .fin neg m e =>
    let n' := if n < -1000 then -1000 else if 1000 < n then 1000 else n
    if m = 0 then ⟨withSign t neg 0, 0⟩ else roundTo t md false flush neg ((FVal.fin neg m e).ex.mul (.pow2 n'))

/-- The largest value of an integer type. -/
def intMax (t : ElemTy) : Int := if t.signed then 2 ^ (t.bits - 1) - 1 else 2 ^ t.bits - 1
/-- The smallest value of an integer type. -/
def intMin (t : ElemTy) : Int := if t.signed then -(2 ^ (t.bits - 1)) else 0
/-- The value of an n-bit integer code, extended per type (R72). -/
def intVal (t : ElemTy) (x : Nat) : Int :=
  let y := x % 2 ^ t.bits
  if t.signed && decide (2 ^ (t.bits - 1) ≤ y) then (y : Int) - 2 ^ t.bits else y
/-- The code of an integer modulo 2^n (R85). -/
def intCode (t : ElemTy) (i : Int) : Nat := (i % (2 ^ t.bits : Int)).toNat
/-- Clamping to a type's range. -/
def clampInt (t : ElemTy) (i : Int) : Int := if i < intMin t then intMin t else if intMax t < i then intMax t else i

/-- A floating-point value to an integer type (R78): a NaN gives 0 with NV, out of range the nearest bound with NV. -/
def toIntF (t : ElemTy) (md : RMode) (v : FVal) : FRes :=
  match v with
  | .nan _ => ⟨0, fNV⟩
  | .inf neg => ⟨intCode t (if neg then intMin t else intMax t), fNV⟩
  | v =>
    let (k, nx) := roundInt md v.ex
    if clampInt t k = k then ⟨intCode t k, if nx then fNX else 0⟩ else ⟨intCode t (clampInt t k), fNV⟩

/-- A value into a floating-point format (R77, Table 7.3). -/
def toFmt (t : ElemTy) (md : RMode) (sat flush : Bool) (v : FVal) : FRes :=
  match v with
  | .nan s => if t == .e2m1 then ⟨0, fNV⟩ else nanOf t s
  | .inf neg =>
    if t == .e2m1 || sat then ⟨withSign t neg (maxCode t), fOFNX⟩
    else if t == .e4m3 then nanNV t
    else infRes t neg
  | .fin neg m e => roundTo t md sat flush neg (FVal.fin neg m e).ex

/-- CVTR's stochastic rounding (R79) with the 16-bit value q. -/
def cvtrF (t : ElemTy) (sat : Bool) (q : Nat) (v : FVal) : FRes :=
  match v with
  | .fin neg m e =>
    if m = 0 then ⟨withSign t neg 0, 0⟩
    else
      let x := (FVal.fin neg m e).ex.abs
      let n := x.n.natAbs
      let w := fracBits t
      let emin : Int := 1 - (bias t : Int)
      let le := ilog2 n x.d
      let k : Int := (if le < emin then emin else le) - w
      let s := scaleDown n x.d k
      let f := s.1 / s.2
      let r := s.1 % s.2
      let up := decide (q < r * 2 ^ 16 / s.2)
      let c : Int := (k + w + bias t - 1) * 2 ^ w + (if up then f + 1 else f : Nat)
      let nx := r != 0
      let fin := decide (c < 2 ^ w)
      if (maxCode t : Int) < c then
        overflowF t .rn sat neg
      else ⟨withSign t neg c.toNat, flags false false false (fin && nx) nx⟩
  | v => toFmt t .rn sat false v

/-- CVT between any two types other than RX3 (R140), on element 0 of the source. -/
def cvtF (td ts : ElemTy) (md : RMode) (sat flush : Bool) (x : Nat) : FRes :=
  if ts.isFloat then
    let v := inF ts flush (x % 2 ^ ts.bits)
    if td.isFloat then toFmt td md sat flush v else toIntF td md v
  else
    let i := intVal ts x
    if td.isFloat then
      roundTo td md sat false false (.ofInt i)
    else ⟨intCode td (if sat then clampInt td i else i), 0⟩

/-- The exact sum of F32 values, rounded once (R155): NaN and opposite infinities give the canonical NaN, an exact
zero sum is +0 (−0 under .RM) unless every term is −0. -/
def sumF32 (md : RMode) (xs : List Nat) : Nat :=
  let vs := xs.map (decodeF .f32)
  if vs.any (·.isNan) || (vs.any (fun v => v.isInf && v.neg) && vs.any (fun v => v.isInf && !v.neg)) then nanCode .f32
  else if vs.any (·.isInf) then withSign .f32 (vs.any (fun v => v.isInf && v.neg)) (infCode .f32)
  else
    let zneg := vs.all (fun v => v.isZero && v.neg) || md == .rm
    (roundTo .f32 md false false zneg (vs.foldl (fun a v => a.add v.ex) .zero)).bits

/-- FDOT2 (R137): c + a0·b0 + a1·b1 exactly, rounded once to F32. -/
def fdot2F (md : RMode) (flush : Bool) (a0 b0 a1 b1 c : FVal) : FRes :=
  let bad (a b : FVal) : Bool := (a.isInf && b.isZero) || (a.isZero && b.isInf)
  let sig := [a0, b0, a1, b1, c].any (·.isSig)
  if bad a0 b0 || bad a1 b1 then nanNV .f32
  else if [a0, b0, a1, b1, c].any (·.isNan) then nanOf .f32 sig
  else
    let n0 := a0.neg != b0.neg
    let n1 := a1.neg != b1.neg
    let infs := (if a0.isInf || b0.isInf then [n0] else []) ++ (if a1.isInf || b1.isInf then [n1] else []) ++
      (if c.isInf then [c.neg] else [])
    if infs.contains true && infs.contains false then nanNV .f32
    else match infs with
      | n :: _ => infRes .f32 n
      | [] =>
        let p0 := a0.ex.mul b0.ex
        let p1 := a1.ex.mul b1.ex
        let allNeg := p0.n = 0 && n0 && p1.n = 0 && n1 && c.isZero && c.neg
        roundTo .f32 md false flush (allNeg || md == .rm) ((p0.add p1).add c.ex)

/-- QSCL's largest quantized magnitude (R94). -/
def qmax : ElemTy → Nat
  | .e4m3 => 448 | .e5m2 => 57344 | .e2m1 => 6 | .s8 => 127 | .z8 => 255 | .s4 => 7 | .z4 => 15 | _ => 1

/-- QSCL (R94): the scale of an amax, and the power-of-two rounding. -/
def qsclF (t : ElemTy) (p2 : Bool) (x : Nat) : FRes :=
  match decodeF .f32 x with
  | .nan _ => nanNV .f32
  | .inf _ => nanNV .f32
  | .fin _ m e =>
    if m = 0 then ⟨0x3F800000, 0⟩
    else
      let s := (roundTo .f32 .rp false false false ((FVal.fin false m e).ex.div (.ofInt (qmax t)))).bits
      let s := if p2 && s % 2 ^ 23 != 0 then
          (if s < 2 ^ 23 then 2 ^ (Nat.log2 (2 * s - 1)) else (s / 2 ^ 23 + 1) * 2 ^ 23) else s
      if s < 2 ^ 23 then ⟨2 ^ 23, 0b01000⟩ else ⟨s, 0⟩

/-- One element of QPACK (R144): y = x / s exactly, then to the target type. -/
def qpackF (t : ElemTy) (md : RMode) (x s : Nat) : FRes :=
  let a := decodeF .f32 x
  let b := decodeF .f32 s
  let neg := a.neg != b.neg
  let sig : BitVec 5 := if a.isSig || b.isSig then fNV else 0
  let ofV (v : FVal) (fl : BitVec 5) : FRes :=
    let r := if t.isFloat then toFmt t md true false v
      else match v with
        | .nan _ => ⟨0, fNV⟩
        | .inf n => ⟨intCode t (if n then intMin t else intMax t), fOFNX⟩
        | .fin .. => ⟨0, 0⟩
    ⟨r.bits, r.fl ||| fl⟩
  if a.isNan || b.isNan then ofV (.nan (a.isSig || b.isSig)) sig
  else if (a.isInf && b.isInf) || (a.isZero && b.isZero) then ofV (.nan false) fNV
  else if a.isInf then ofV (.inf neg) 0
  else if b.isZero then ofV (.inf neg) fDZ
  else
    let y : Ex := if b.isInf then .zero else a.ex.div b.ex
    if t.isFloat then
      (if y.n = 0 then ⟨withSign t neg 0, 0⟩ else roundTo t md true false neg y)
    else
      let (k, nx) := roundInt md y
      if clampInt t k = k then ⟨intCode t k, if nx then fNX else 0⟩ else ⟨intCode t (clampInt t k), fOFNX⟩

/-- One element of QUNP (R144): value × s, exact, one rounding to F32. A NaN element gives the canonical NaN. -/
def qunpF (t : ElemTy) (md : RMode) (x s : Nat) : FRes :=
  let v : FVal := if t.isFloat then decodeF t x
    else let i := intVal t x
      .fin (i < 0) i.natAbs 0
  match v with
  | .nan _ => ⟨nanCode .f32, if (decodeF .f32 s).isSig then fNV else 0⟩
  | v => mulF .f32 md false v (decodeF .f32 s)

/-! ## RX3 (R73, R91, R92) -/

/-- An RX3 word of an integer (R145): its residues, SLAB 0. -/
def rx3Of (x : Int) : Nat := (x % 253).toNat * 65536 + (x % 255).toNat * 256 + (x % 256).toNat

/-- The integer that an RX3 word represents (R91), its fields reduced as R92 gives. -/
def rx3Val (w : Nat) : Int :=
  let x := (w % 256 * 171 * 64515 + w / 256 % 256 % 255 * 127 * 64768 + w / 65536 % 256 % 253 * 211 * 65280) % 16515840
  if 8257920 ≤ x then (x : Int) - 16515840 else x

/-- Channel-by-channel addition, SLAB 0 (R92). -/
def rx3Add (a b : Nat) : Nat :=
  (a / 65536 % 256 + b / 65536 % 256) % 253 * 65536 + (a / 256 % 256 + b / 256 % 256) % 255 * 256 + (a % 256 + b % 256) % 256

end Sys2Proof.Machine
end

