-- ==== Sys2Proof/Machine/Scalar.lean ====
section
/-! DEFINITION. Class 0x1: scalar instructions (09 R112 to R118), with the special registers (03 R17, 05 R55) and the
operand values that the other classes share (05 Table 5.13). -/

namespace Sys2Proof.Machine

/-- The fixed latency of an instruction's slot (Table 5.12). -/
def lat (i : Instr) : Nat :=
  match i.head with
  | some (_, op) => (match opTiming op with | .fixed l => l | _ => 0)
  | none => 0

/-- A fixed-latency result of a machine instruction. -/
def Iss.result (x : Iss) (i : Instr) (h : Hdr) (ws : List (Loc × DWord × DWord)) (s : State) : State :=
  x.finish i h (lat i) ws s

/-- The value of a scalar B operand (Table 5.13). -/
def Iss.sB (x : Iss) (h : Hdr) : SSrc → DWord
  | .reg r => x.g.sr x.sp.id (x.eff h r)
  | .imm w => w.signExtend 64
  | .lit v => v

/-- The value of a class 0x1 register field. -/
def Iss.sR (x : Iss) (h : Hdr) (r : Reg) : DWord := x.g.sr x.sp.id (x.eff h r)

/-- The value of a mask register field. -/
def Iss.kR (x : Iss) (h : Hdr) (r : Reg) : Word := x.g.kr x.sp.id (x.eff h r)

/-- The 32-bit value of a vector B operand in a lane (Table 5.13, R120). -/
def Iss.b32 (x : Iss) (h : Hdr) (lane : Nat) : BSrc → Word
  | .vec r => x.g.vr x.sp.id (x.eff h r) lane
  | .scl r => (x.sR h r).setWidth 32
  | .imm w => w

/-- The 64-bit value of a vector B operand; an immediate is extended as `sg` says (R120). -/
def Iss.b64 (x : Iss) (h : Hdr) (sg : Bool) (lane : Nat) : BSrc → DWord
  | .vec r => x.g.vr64 x.sp.id (x.eff h r) lane
  | .scl r => x.sR h r
  | .imm w => if sg then w.signExtend 64 else w.setWidth 64

/-- The value of a vector register field in a lane: a pair for a 64-bit type. -/
def Iss.vE (x : Iss) (h : Hdr) (t : ElemTy) (r : Reg) (lane : Nat) : DWord :=
  if t.is64 then x.g.vr64 x.sp.id (x.eff h r) lane else (x.g.vr x.sp.id (x.eff h r) lane).setWidth 64

/-- The value of a vector B operand in a lane for a type. -/
def Iss.bE (x : Iss) (h : Hdr) (t : ElemTy) (b : BSrc) (lane : Nat) : DWord :=
  if t.is64 then x.b64 h t.signed lane b else (x.b32 h lane b).setWidth 64

/-- Per-lane results of a type: a pair for a 64-bit type. -/
def elemW (t : ElemTy) (n : Nat) (lanes : Word) (f : Nat → DWord) : List (Loc × DWord × DWord) :=
  if t.is64 then pairW n lanes f else vecW n lanes fun l => (f l).setWidth 32

/-! ## Special registers (Table 3.2, Table 5.9) -/

/-- %cyc: the cycles of the group's core since its reset (24 R320). -/
def Iss.cyc (x : Iss) (s : State) : DWord := BitVec.ofNat 64 (s.now - (s.core x.tm.core).resetAt)

/-- The value of a special register in a lane; the 64-bit value of %cyc is `Iss.cyc`. -/
def Iss.special (x : Iss) (s : State) (n : Nat) (lane : Nat) : Word :=
  let w (k : Nat) : Word := BitVec.ofNat 32 k
  match n with
  | 0x00 => w lane
  | 0x01 => (x.g.itemOf lane).setWidth 32
  | 0x02 => (x.g.itemOf lane >>> 32).setWidth 32
  | 0x03 => x.g.ageOf lane
  | 0x04 => w x.g.grp
  | 0x05 => w (x.g.grp / 4)
  | 0x06 => w x.tm.num
  | 0x07 => w (x.tm.clus * 16 + x.tm.pos)
  | 0x08 => match x.g.xp with
    | some e => if (e.iter.getD lane none).isSome then e.own.getD lane 0xFFFFFFFF else 0xFFFFFFFF
    | none => 0xFFFFFFFF
  | 0x09 => w s.pkgNum
  | 0x0A => (x.cyc s).setWidth 32
  | 0x0B => (x.cyc s >>> 32).setWidth 32
  | 0x0C => (x.g.rd x.sp.id (.flg lane)).setWidth 32
  | _ => 0

/-! ## The scalar instructions -/

/-- A scalar result under the U rule (R112). -/
def scalarOp (i : Instr) (h : Hdr) (sd : Reg) (f : Iss → State → DWord) (s : State) : Host.Outcome State Fault Refusal :=
  withIssue i s <| uniform h fun x s => x.result i h (sclW (x.eff h sd) (f x s)) s

/-- SMOV of a 6-bit immediate (R115). -/
def execSmovImm6 (h : Hdr) (sd : BitVec 8) (i : BitVec 6) (s : State) : Host.Outcome State Fault Refusal :=
  scalarOp (.smovImm6 h sd i) h (.plain sd) (fun _ _ => i.signExtend 64) s

/-- SMOV of a register, an immediate or a special register (R115). -/
def execSmov (h : Hdr) (sd : Reg) (b : SMovSrc) (s : State) : Host.Outcome State Fault Refusal :=
  scalarOp (.smov h sd b) h sd (fun x s => match b with
    | .src b => x.sB h b
    | .special n => if n = 0x0A then x.cyc s else (x.special s n.toNat 0).setWidth 64) s

/-- SADD (R114). -/
def execSadd (h : Hdr) (sd sa : Reg) (b : SSrc) (s : State) : Host.Outcome State Fault Refusal :=
  scalarOp (.sadd h sd sa b) h sd (fun x _ => x.sR h sa + x.sB h b) s

/-- SSUB (R114). -/
def execSsub (h : Hdr) (sd sa : Reg) (b : SSrc) (s : State) : Host.Outcome State Fault Refusal :=
  scalarOp (.ssub h sd sa b) h sd (fun x _ => x.sR h sa - x.sB h b) s

/-- The half of a 64 × 64-bit product (Table 9.4). -/
def mulHalf (m : MulHalf) (a b : DWord) : DWord :=
  match m with
  | .lo => a * b
  | .hi => BitVec.ofInt 64 (a.toInt * b.toInt / 2 ^ 64)
  | .hiu => BitVec.ofNat 64 (a.toNat * b.toNat / 2 ^ 64)

/-- SMUL (R114). -/
def execSmul (h : Hdr) (m : MulHalf) (sd sa : Reg) (b : SSrc) (s : State) : Host.Outcome State Fault Refusal :=
  scalarOp (.smul h m sd sa b) h sd (fun x _ => mulHalf m (x.sR h sa) (x.sB h b)) s

/-- SMAD (R114). -/
def execSmad (h : Hdr) (sd sa sb sc : Reg) (s : State) : Host.Outcome State Fault Refusal :=
  scalarOp (.smad h sd sa sb sc) h sd (fun x _ => x.sR h sa * x.sR h sb + x.sR h sc) s

/-- Quotient or remainder, truncating toward zero, with the edge cases of Table 9.6 (R116). -/
def sdivVal (u rem : Bool) (a b : DWord) : DWord :=
  if b = 0 then (if rem then a else ones)
  else if u then BitVec.ofNat 64 (if rem then a.toNat % b.toNat else a.toNat / b.toNat)
  else BitVec.ofInt 64 (if rem then a.toInt.tmod b.toInt else a.toInt.tdiv b.toInt)

/-- SDIV (R116). -/
def execSdiv (h : Hdr) (u rem : Bool) (sd sa : Reg) (b : SSrc) (s : State) : Host.Outcome State Fault Refusal :=
  scalarOp (.sdiv h u rem sd sa b) h sd (fun x _ => sdivVal u rem (x.sR h sa) (x.sB h b)) s

/-- SAND (R114). -/
def execSand (h : Hdr) (sd sa : Reg) (b : SSrc) (s : State) : Host.Outcome State Fault Refusal :=
  scalarOp (.sand h sd sa b) h sd (fun x _ => x.sR h sa &&& x.sB h b) s

/-- SOR (R114). -/
def execSor (h : Hdr) (sd sa : Reg) (b : SSrc) (s : State) : Host.Outcome State Fault Refusal :=
  scalarOp (.sor h sd sa b) h sd (fun x _ => x.sR h sa ||| x.sB h b) s

/-- SXOR (R114). -/
def execSxor (h : Hdr) (sd sa : Reg) (b : SSrc) (s : State) : Host.Outcome State Fault Refusal :=
  scalarOp (.sxor h sd sa b) h sd (fun x _ => x.sR h sa ^^^ x.sB h b) s

/-- SSHL (R114): a count of 64 or more gives 0. -/
def execSshl (h : Hdr) (sd sa : Reg) (b : SSrc) (s : State) : Host.Outcome State Fault Refusal :=
  scalarOp (.sshl h sd sa b) h sd (fun x _ =>
    let c := x.sB h b
    if c < 64 then x.sR h sa <<< c.toNat else 0) s

/-- SSHR (R114): a count of 64 or more gives 0. -/
def execSshr (h : Hdr) (sd sa : Reg) (b : SSrc) (s : State) : Host.Outcome State Fault Refusal :=
  scalarOp (.sshr h sd sa b) h sd (fun x _ =>
    let c := x.sB h b
    if c < 64 then x.sR h sa >>> c.toNat else 0) s

/-- SSAR (R114): the sign is copied, by at most 63. -/
def execSsar (h : Hdr) (sd sa : Reg) (b : SSrc) (s : State) : Host.Outcome State Fault Refusal :=
  scalarOp (.ssar h sd sa b) h sd (fun x _ => (x.sR h sa).sshiftRight (min (x.sB h b).toNat 63)) s

/-- A condition code on 64-bit values (Table 9.7). -/
def scmpHolds (cc : CondCode) (a b : DWord) : Bool :=
  match cc with
  | .eq => a == b
  | .ne => a != b
  | .lt => a.slt b
  | .le => a.sle b
  | .gt => b.slt a
  | .ge => b.sle a
  | .ltu => a.ult b
  | .leu => a.ule b
  | .gtu => b.ult a
  | .geu => b.ule a

/-- SCMP: kD becomes all ones or 0 (R117). -/
def execScmp (h : Hdr) (cc : CondCode) (kd sa : Reg) (b : SSrc) (s : State) : Host.Outcome State Fault Refusal :=
  withIssue (.scmp h cc kd sa b) s <| uniform h fun x s =>
    x.result (.scmp h cc kd sa b) h
      (maskW (x.eff h kd) 0xFFFFFFFF (if scmpHolds cc (x.sR h sa) (x.sB h b) then 0xFFFFFFFF else 0)) s

/-- SSEL (R114). -/
def execSsel (h : Hdr) (sd sa sb kc : Reg) (s : State) : Host.Outcome State Fault Refusal :=
  scalarOp (.ssel h sd sa sb kc) h sd (fun x _ => if x.kR h kc ≠ 0 then x.sR h sa else x.sR h sb) s

/-- SRDV: one lane of a vector register, 0 when the lane is vacant (R118). -/
def execSrdv (h : Hdr) (w64 : Bool) (sd va : Reg) (b : SSrc) (s : State) : Host.Outcome State Fault Refusal :=
  scalarOp (.srdv h w64 sd va b) h sd (fun x _ =>
    let l := (x.sB h b).toNat % 32
    if x.g.occ.getLsbD l then
      (if w64 then x.g.vr64 x.sp.id (x.eff h va) l else (x.g.vr x.sp.id (x.eff h va) l).setWidth 64)
    else 0) s

end Sys2Proof.Machine
end

