-- ==== Sys2Proof/Machine/Integer.lean ====
section
/-! DEFINITION. Class 0x2: vector integer instructions (09 R120 to R124). -/

namespace Sys2Proof.Machine

/-- The fields of a packed element (07 R74). -/
def fieldsOf (t : ElemTy) (x : Nat) : List Nat := (List.range (32 / t.bits)).map fun i => x / 2 ^ (t.bits * i) % 2 ^ t.bits

/-- Packing fields, the first lowest (07 R74). -/
def packFields (t : ElemTy) (l : List Nat) : Nat := l.foldr (fun v a => v + 2 ^ t.bits * a) 0

/-- An integer operation on one element: packed types act on each field (R120, 07 R85). -/
def intElem2 (t : ElemTy) (f : Int → Int → Int) (a b : DWord) : DWord :=
  BitVec.ofNat 64 (if t.inP then
    packFields t ((fieldsOf t a.toNat).zipWith (fun x y => intCode t (f (intVal t x) (intVal t y))) (fieldsOf t b.toNat))
  else intCode t (f (intVal t a.toNat) (intVal t b.toNat)))

/-- A one-operand integer operation on one element. -/
def intElem1 (t : ElemTy) (f : Int → Int) (b : DWord) : DWord := intElem2 t (fun _ y => f y) 0 b

/-- Per-lane results of a type from a per-lane function. -/
def vecOp (i : Instr) (h : Hdr) (t : ElemTy) (vd : Reg) (f : Iss → State → Nat → DWord) (s : State) :
    Host.Outcome State Fault Refusal :=
  withIssue i s fun x s => x.result i h (elemW t (x.eff h vd) (x.active h) (f x s)) s

/-- A two-operand integer instruction. -/
def intOp (i : Instr) (h : Hdr) (t : ElemTy) (vd va : Reg) (b : BSrc) (f : Int → Int → Int) (s : State) :
    Host.Outcome State Fault Refusal :=
  vecOp i h t vd (fun x _ l => intElem2 t f (x.vE h t va l) (x.bE h t b l)) s

/-- MOV (R121, R124). -/
def execMov (h : Hdr) (t : ElemTy) (vd : Reg) (b : MovSrc) (s : State) : Host.Outcome State Fault Refusal :=
  vecOp (.mov h t vd b) h t vd (fun x s l => match b with
    | .src b => x.bE h t b l
    | .lit v => v
    | .special n => if t.is64 then x.cyc s else (x.special s n.toNat l).setWidth 64) s

/-- ADD (R121). -/
def execAdd (h : Hdr) (t : ElemTy) (vd va : Reg) (b : BSrc) (s : State) : Host.Outcome State Fault Refusal :=
  intOp (.add h t vd va b) h t vd va b (· + ·) s

/-- SUB (R121). -/
def execSub (h : Hdr) (t : ElemTy) (vd va : Reg) (b : BSrc) (s : State) : Host.Outcome State Fault Refusal :=
  intOp (.sub h t vd va b) h t vd va b (· - ·) s

/-- The type of a .WIDE result: a pair of the signedness of the sources (R121). -/
def wideTy (wide : Bool) (t : ElemTy) : ElemTy := if wide then (if t.signed then .s64 else .z64) else t

/-- MUL, and MUL.WIDE into a pair (R121). -/
def execMul (h : Hdr) (wide : Bool) (t : ElemTy) (vd va : Reg) (b : BSrc) (s : State) :
    Host.Outcome State Fault Refusal :=
  vecOp (.mul h wide t vd va b) h (wideTy wide t) vd (fun x _ l =>
    BitVec.ofNat 64 (intCode (wideTy wide t) (intVal t (x.vE h t va l).toNat * intVal t (x.bE h t b l).toNat))) s

/-- MULH: the high half of the product (R121). -/
def execMulh (h : Hdr) (t : ElemTy) (vd va : Reg) (b : BSrc) (s : State) : Host.Outcome State Fault Refusal :=
  intOp (.mulh h t vd va b) h t vd va b (fun a b => a * b / 2 ^ t.bits) s

/-- MAD, and MAD.WIDE with a pair addend and result (R121). -/
def execMad (h : Hdr) (wide : Bool) (t : ElemTy) (vd va : Reg) (b : BSrc) (vc : Reg) (s : State) :
    Host.Outcome State Fault Refusal :=
  vecOp (.mad h wide t vd va b vc) h (wideTy wide t) vd (fun x _ l =>
    BitVec.ofNat 64 (intCode (wideTy wide t) (intVal t (x.vE h t va l).toNat * intVal t (x.bE h t b l).toNat +
      intVal (wideTy wide t) (x.vE h (wideTy wide t) vc l).toNat))) s

/-- ADC and SBB on one element: the result and the carry or borrow (R122). -/
def carryElem (sub : Bool) (t : ElemTy) (a b : DWord) (c : Bool) : DWord × Bool :=
  let m := 2 ^ t.bits
  let (a, b, c) := (a.toNat % m, b.toNat % m, c.toNat)
  if sub then (BitVec.ofNat 64 ((a + m + m - b - c) % m), decide (a < b + c))
  else (BitVec.ofNat 64 ((a + b + c) % m), decide (m ≤ a + b + c))

/-- ADC and SBB: the carry through the bits of kC (R122). -/
def carryOp (i : Instr) (sub : Bool) (h : Hdr) (t : ElemTy) (vd va : Reg) (b : BSrc) (kc : Reg) (s : State) :
    Host.Outcome State Fault Refusal :=
  withIssue i s fun x s =>
    let k := x.kR h kc
    let r (l : Nat) := carryElem sub t (x.vE h t va l) (x.bE h t b l) (k.getLsbD l)
    let act := x.active h
    x.result i h (elemW t (x.eff h vd) act (fun l => (r l).1) ++
      maskW (x.eff h kc) act (maskBy fun l => act.getLsbD l && (r l).2)) s

/-- ADC (R122). -/
def execAdc (h : Hdr) (t : ElemTy) (vd va : Reg) (b : BSrc) (kc : Reg) (s : State) : Host.Outcome State Fault Refusal :=
  carryOp (.adc h t vd va b kc) false h t vd va b kc s

/-- SBB (R122). -/
def execSbb (h : Hdr) (t : ElemTy) (vd va : Reg) (b : BSrc) (kc : Reg) (s : State) : Host.Outcome State Fault Refusal :=
  carryOp (.sbb h t vd va b kc) true h t vd va b kc s

/-- MIN (R121). -/
def execMin (h : Hdr) (t : ElemTy) (vd va : Reg) (b : BSrc) (s : State) : Host.Outcome State Fault Refusal :=
  intOp (.min h t vd va b) h t vd va b (fun a b => if a ≤ b then a else b) s

/-- MAX (R121). -/
def execMax (h : Hdr) (t : ElemTy) (vd va : Reg) (b : BSrc) (s : State) : Host.Outcome State Fault Refusal :=
  intOp (.max h t vd va b) h t vd va b (fun a b => if a ≤ b then b else a) s

/-- ABS, and ABS.SAT (R121). -/
def execAbs (h : Hdr) (sat : Bool) (t : ElemTy) (vd : Reg) (b : BSrc) (s : State) : Host.Outcome State Fault Refusal :=
  vecOp (.abs h sat t vd b) h t vd (fun x _ l =>
    intElem1 t (fun v => if sat ∧ intMax t < v.natAbs then intMax t else v.natAbs) (x.bE h t b l)) s

/-- NEG, and NEG.SAT (R121). -/
def execNeg (h : Hdr) (sat : Bool) (t : ElemTy) (vd : Reg) (b : BSrc) (s : State) : Host.Outcome State Fault Refusal :=
  vecOp (.neg h sat t vd b) h t vd (fun x _ l =>
    intElem1 t (fun v => if sat ∧ intMax t < -v then intMax t else -v) (x.bE h t b l)) s

/-- ADDSAT (R121). -/
def execAddsat (h : Hdr) (t : ElemTy) (vd va : Reg) (b : BSrc) (s : State) : Host.Outcome State Fault Refusal :=
  intOp (.addsat h t vd va b) h t vd va b (fun a b => clampInt t (a + b)) s

/-- SUBSAT (R121). -/
def execSubsat (h : Hdr) (t : ElemTy) (vd va : Reg) (b : BSrc) (s : State) : Host.Outcome State Fault Refusal :=
  intOp (.subsat h t vd va b) h t vd va b (fun a b => clampInt t (a - b)) s

/-- LEA: a 64-bit address in a pair (R123). -/
def execLea (h : Hdr) (t : ElemTy) (vd va : Reg) (b : BSrc) (sh : BitVec 8) (s : State) :
    Host.Outcome State Fault Refusal :=
  withIssue (.lea h t vd va b sh) s fun x s =>
    x.result (.lea h t vd va b sh) h (pairW (x.eff h vd) (x.active h) fun l =>
      x.b64 h true l b + BitVec.ofInt 64 (intVal t (x.vE h t va l).toNat * 2 ^ sh.toNat)) s

end Sys2Proof.Machine
end

