-- ==== Sys2Proof/Machine/Logic.lean ====
section
/-! DEFINITION. Class 0x3: logic and bit instructions (09 R125 to R129). -/

namespace Sys2Proof.Machine

/-- A bitwise instruction (R125). -/
def bitOp (i : Instr) (h : Hdr) (t : ElemTy) (vd va : Reg) (b : BSrc) (f : DWord → DWord → DWord) (s : State) :
    Host.Outcome State Fault Refusal :=
  vecOp i h t vd (fun x _ l => f (x.vE h t va l) (x.bE h t b l)) s

/-- AND (R125). -/
def execAnd (h : Hdr) (t : ElemTy) (vd va : Reg) (b : BSrc) (s : State) : Host.Outcome State Fault Refusal :=
  bitOp (.and h t vd va b) h t vd va b (· &&& ·) s

/-- OR (R125). -/
def execOr (h : Hdr) (t : ElemTy) (vd va : Reg) (b : BSrc) (s : State) : Host.Outcome State Fault Refusal :=
  bitOp (.or h t vd va b) h t vd va b (· ||| ·) s

/-- XOR (R125). -/
def execXor (h : Hdr) (t : ElemTy) (vd va : Reg) (b : BSrc) (s : State) : Host.Outcome State Fault Refusal :=
  bitOp (.xor h t vd va b) h t vd va b (· ^^^ ·) s

/-- NOT (R125). -/
def execNot (h : Hdr) (t : ElemTy) (vd : Reg) (b : BSrc) (s : State) : Host.Outcome State Fault Refusal :=
  vecOp (.not h t vd b) h t vd (fun x _ l => ~~~(x.bE h t b l)) s

/-- ANDN: a AND NOT b (R125). -/
def execAndn (h : Hdr) (t : ElemTy) (vd va : Reg) (b : BSrc) (s : State) : Host.Outcome State Fault Refusal :=
  bitOp (.andn h t vd va b) h t vd va b (fun a b => a &&& ~~~b) s

/-- A shift of one element by a 32-bit count (R126). -/
def shiftOp (i : Instr) (h : Hdr) (t : ElemTy) (vd va : Reg) (b : BSrc) (f : Nat → Nat → Nat) (s : State) :
    Host.Outcome State Fault Refusal :=
  vecOp i h t vd (fun x _ l =>
    BitVec.ofNat 64 (f ((x.vE h t va l).toNat % 2 ^ t.bits) (x.b32 h l b).toNat % 2 ^ t.bits)) s

/-- SHL (R126). -/
def execShl (h : Hdr) (t : ElemTy) (vd va : Reg) (b : BSrc) (s : State) : Host.Outcome State Fault Refusal :=
  shiftOp (.shl h t vd va b) h t vd va b (fun a c => if c < t.bits then a * 2 ^ c else 0) s

/-- SHR (R126). -/
def execShr (h : Hdr) (t : ElemTy) (vd va : Reg) (b : BSrc) (s : State) : Host.Outcome State Fault Refusal :=
  shiftOp (.shr h t vd va b) h t vd va b (fun a c => if c < t.bits then a / 2 ^ c else 0) s

/-- SAR (R126). -/
def execSar (h : Hdr) (t : ElemTy) (vd va : Reg) (b : BSrc) (s : State) : Host.Outcome State Fault Refusal :=
  shiftOp (.sar h t vd va b) h t vd va b (fun a c =>
    let v : Int := if 2 ^ (t.bits - 1) ≤ a then (a : Int) - 2 ^ t.bits else a
    intCode t (v / 2 ^ min c (t.bits - 1))) s

/-- ROT: rotation to the left (R126). -/
def execRot (h : Hdr) (t : ElemTy) (vd va : Reg) (b : BSrc) (s : State) : Host.Outcome State Fault Refusal :=
  shiftOp (.rot h t vd va b) h t vd va b (fun a c => a * 2 ^ (c % t.bits) + a / 2 ^ (t.bits - c % t.bits)) s

/-- The number of 1 bits among the low n. -/
def countOnes (n x : Nat) : Nat := ((List.range n).filter x.testBit).length

/-- The number of leading 0 bits of an n-bit value. -/
def leadZeros (n x : Nat) : Nat := if x = 0 then n else n - 1 - Nat.log2 x

/-- A bit count into a single register (R125). -/
def countOp (i : Instr) (h : Hdr) (t : ElemTy) (vd : Reg) (b : BSrc) (f : Nat → Nat → Nat) (s : State) :
    Host.Outcome State Fault Refusal :=
  withIssue i s fun x s => x.result i h (vecW (x.eff h vd) (x.active h) fun l =>
    BitVec.ofNat 32 (f t.bits ((x.bE h t b l).toNat % 2 ^ t.bits))) s

/-- POPC (R125). -/
def execPopc (h : Hdr) (t : ElemTy) (vd : Reg) (b : BSrc) (s : State) : Host.Outcome State Fault Refusal :=
  countOp (.popc h t vd b) h t vd b countOnes s

/-- CLZ (R125). -/
def execClz (h : Hdr) (t : ElemTy) (vd : Reg) (b : BSrc) (s : State) : Host.Outcome State Fault Refusal :=
  countOp (.clz h t vd b) h t vd b leadZeros s

/-- BFE on one element: position b{7:0}, width b{15:8} (R127). -/
def bfeElem (t : ElemTy) (a : Nat) (b : Word) : Nat :=
  let p := b.toNat % 256
  let w := b.toNat / 256 % 256
  let f := (intVal t a / 2 ^ p) % 2 ^ w
  intCode t (if t.signed ∧ w > 0 ∧ 2 ^ (w - 1) ≤ f then f - 2 ^ w else f)

/-- BFI on one element (R127). -/
def bfiElem (t : ElemTy) (a c : Nat) (b : Word) : Nat :=
  let p := b.toNat % 256
  let w := b.toNat / 256 % 256
  let m := (2 ^ w - 1) * 2 ^ p % 2 ^ t.bits
  let full := 2 ^ t.bits - 1
  ((c % 2 ^ t.bits) &&& (full - m)) ||| ((a * 2 ^ p % 2 ^ t.bits) &&& m)

/-- BFE (R127). -/
def execBfe (h : Hdr) (t : ElemTy) (vd va : Reg) (b : BSrc) (s : State) : Host.Outcome State Fault Refusal :=
  vecOp (.bfe h t vd va b) h t vd (fun x _ l => BitVec.ofNat 64 (bfeElem t (x.vE h t va l).toNat (x.b32 h l b))) s

/-- BFI (R127). -/
def execBfi (h : Hdr) (t : ElemTy) (vd va : Reg) (b : BSrc) (vc : Reg) (s : State) : Host.Outcome State Fault Refusal :=
  vecOp (.bfi h t vd va b vc) h t vd (fun x _ l =>
    BitVec.ofNat 64 (bfiElem t ((x.vE h t va l).toNat % 2 ^ t.bits) (x.vE h t vc l).toNat (x.b32 h l b))) s

/-- SEL (R125). -/
def execSel (h : Hdr) (t : ElemTy) (vd va : Reg) (b : BSrc) (kc : Reg) (s : State) : Host.Outcome State Fault Refusal :=
  vecOp (.sel h t vd va b kc) h t vd (fun x _ l =>
    if (x.kR h kc).getLsbD l then x.vE h t va l else x.bE h t b l) s

/-- A condition on exact values (Table 9.7); the unsigned codes are reserved in CMP. -/
def intCond (cc : CondCode) (a b : Int) : Bool :=
  match cc with
  | .eq => decide (a = b)
  | .ne => decide (a ≠ b)
  | .lt | .ltu => decide (a < b)
  | .le | .leu => decide (a ≤ b)
  | .gt | .gtu => decide (b < a)
  | .ge | .geu => decide (b ≤ a)

/-- CMP: per-lane bits of kD (R128). -/
def execCmp (h : Hdr) (cc : CondCode) (land : Bool) (t : ElemTy) (kd va : Reg) (b : BSrc) (s : State) :
    Host.Outcome State Fault Refusal :=
  withIssue (.cmp h cc land t kd va b) s fun x s =>
    let act := x.active h
    let old := x.kR h kd
    x.result (.cmp h cc land t kd va b) h (maskW (x.eff h kd) act (maskBy fun l => act.getLsbD l &&
      (!land || old.getLsbD l) && intCond cc (intVal t (x.vE h t va l).toNat) (intVal t (x.bE h t b l).toNat))) s

/-- PRMB on one element: four byte selectors (R129). -/
def prmbElem (a b c : Word) : Word :=
  let src : DWord := b ++ a
  let sel (i : Nat) : Byte :=
    let q := c.toNat / 2 ^ (4 * i) % 16
    if 8 ≤ q then 0 else src.extractLsb' (8 * (q % 8)) 8
  sel 3 ++ sel 2 ++ sel 1 ++ sel 0

/-- PRMB (R129). -/
def execPrmb (h : Hdr) (vd va : Reg) (b : BSrc) (vc : Reg) (s : State) : Host.Outcome State Fault Refusal :=
  vecOp (.prmb h vd va b vc) h .z32 vd (fun x _ l =>
    (prmbElem ((x.vE h .z32 va l).setWidth 32) (x.b32 h l b) ((x.vE h .z32 vc l).setWidth 32)).setWidth 64) s

end Sys2Proof.Machine
end

