-- ==== Sys2Proof/Machine/Flags.lean ====
section
/-! DEFINITION. What every floating-point instruction shares (10 R130): the rounding mode, flushing, the flags of the
active lanes (07 R81) and FPTRAP (07 R83). -/

namespace Sys2Proof.Machine

/-- The mode that GCTL.RND holds (07 Table 7.5). -/
def Group.rnd (g : Group) : RMode :=
  match (g.gctl.extractLsb' 1 2).toNat with
  | 0 => .rn | 1 => .rz | 2 => .rm | _ => .rp

/-- The mode of a rounding code (05 Table 5.7). -/
def Group.mode (g : Group) : RndCode → RMode
  | .gctl => g.rnd | .rn => .rn | .rz => .rz | .rm => .rm | .rp => .rp

/-- GCTL.FTZ. -/
def Group.ftz (g : Group) : Bool := g.gctl.getLsbD 3

/-- The trap enables, in the order of the flags (07 Table 7.5). -/
def Group.te (g : Group) : BitVec 5 := g.gctl.extractLsb' 4 5

/-- What a floating-point instruction delivers in a lane: places with masks and values, and the flags it raises. -/
structure LaneOut where
  ws : List (Loc × DWord × DWord)
  fl : BitVec 5

/-- The flags that a lane's result ORs into %flg (R130). -/
def flagW (l : Nat) (fl : BitVec 5) : List (Loc × DWord × DWord) :=
  if fl = 0 then [] else [(.flg l, fl.setWidth 64, fl.setWidth 64)]

/-- Completing with fixed timing, or, while a trap is enabled, with the result landed (R130). -/
def Iss.fpFinish (x : Iss) (i : Instr) (h : Hdr) (ws : List (Loc × DWord × DWord)) (s : State) : State :=
  if x.g.te = 0 then x.result i h ws s else x.finishNow h ws s

/-- A floating-point instruction (R130): its lanes' results and flags, or FPTRAP for the lanes that would set an enabled
flag. In that case no lane's destination or flag is written, but under item-level IGN the trapping lanes receive 0 and the
others their results and flags (R83). -/
def fpOp (i : Instr) (h : Hdr) (f : Iss → State → Nat → LaneOut) (s : State) : Host.Outcome State Fault Refusal :=
  withIssue i s fun x s =>
    let outs := (lanesOf (x.active h)).map fun l => (l, f x s l)
    let all (o : Nat × LaneOut) := o.2.ws ++ flagW o.1 o.2.fl
    let traps := outs.filter fun o => o.2.fl &&& x.g.te != 0
    if traps.isEmpty then x.fpFinish i h (outs.flatMap all) s
    else
      let o := x.itemFaults (traps.map fun o => .plain o.1 .fptrap 0) s
      x.afterFaults { o with wait := 0 } fun s =>
        if o.ign = 0 then x.pass h false s
        else x.finishNow h (outs.flatMap fun q =>
          if q.2.fl &&& x.g.te != 0 then q.2.ws.map fun w => (w.1, w.2.1, 0) else all q) s

/-- A result of one 32-bit element. -/
def one (n : Nat) (l : Nat) (r : FRes) : LaneOut := ⟨[(.v n l, ones, BitVec.ofNat 64 r.bits)], r.fl⟩

/-- A result of one bit of a mask register. -/
def oneBit (n : Nat) (l : Nat) (b : Bool) (fl : BitVec 5) : LaneOut :=
  ⟨[(.k n, 1#64 <<< l, if b then 1#64 <<< l else 0)], fl⟩

/-- A vector element as a number. -/
def Iss.vN (x : Iss) (h : Hdr) (r : Reg) (l : Nat) : Nat := (x.g.vr x.sp.id (x.eff h r) l).toNat

/-- A B operand's element as a number. -/
def Iss.bN (x : Iss) (h : Hdr) (b : BSrc) (l : Nat) : Nat := (x.b32 h l b).toNat

/-- The mode, and whether flushing is in force (07 R80), for the SUB field of class 0x4. -/
def Iss.fpMode (x : Iss) (f : FMod) : RMode × Bool := (x.g.mode f.rnd, f.ftz || x.g.ftz)

end Sys2Proof.Machine
end

