-- ==== Sys2Proof/Machine/Masks.lean ====
section
/-! DEFINITION. Class 0x6: masks, flags and votes (10 R146 to R149). -/

namespace Sys2Proof.Machine

/-- A U-kind instruction that writes a whole mask register (R146). -/
def maskOp (i : Instr) (h : Hdr) (kd : Reg) (f : Iss → Word) (s : State) : Host.Outcome State Fault Refusal :=
  withIssue i s <| uniform h fun x s => x.result i h (maskW (x.eff h kd) 0xFFFFFFFF (f x)) s

/-- KAND (Table 10.4). -/
def execKand (h : Hdr) (kd ka kb : Reg) (s : State) : Host.Outcome State Fault Refusal :=
  maskOp (.kand h kd ka kb) h kd (fun x => x.kR h ka &&& x.kR h kb) s

/-- KOR (Table 10.4). -/
def execKor (h : Hdr) (kd ka kb : Reg) (s : State) : Host.Outcome State Fault Refusal :=
  maskOp (.kor h kd ka kb) h kd (fun x => x.kR h ka ||| x.kR h kb) s

/-- KXOR (Table 10.4). -/
def execKxor (h : Hdr) (kd ka kb : Reg) (s : State) : Host.Outcome State Fault Refusal :=
  maskOp (.kxor h kd ka kb) h kd (fun x => x.kR h ka ^^^ x.kR h kb) s

/-- KNOT (Table 10.4). -/
def execKnot (h : Hdr) (kd kb : Reg) (s : State) : Host.Outcome State Fault Refusal :=
  maskOp (.knot h kd kb) h kd (fun x => ~~~x.kR h kb) s

/-- KMOV: between masks, from a class 0x1 register, or to one (Table 10.4). -/
def execKmov (h : Hdr) (dir : KMovDir) (d b : Reg) (s : State) : Host.Outcome State Fault Refusal :=
  withIssue (.kmov h dir d b) s <| uniform h fun x s =>
    x.result (.kmov h dir d b) h (match dir with
      | .kk => maskW (x.eff h d) 0xFFFFFFFF (x.kR h b)
      | .ks => maskW (x.eff h d) 0xFFFFFFFF ((x.sR h b).setWidth 32)
      | .sk => sclW (x.eff h d) ((x.kR h b).setWidth 64)) s

/-- What VOTE writes (R149). -/
def voteVal (m : VoteMode) (act k : Word) : Word :=
  match m with
  | .all => if k &&& act = act then 0xFFFFFFFF else 0
  | .any => if k &&& act ≠ 0 then 0xFFFFFFFF else 0
  | .ballot => k &&& act

/-- VOTE (R149). -/
def execVote (h : Hdr) (m : VoteMode) (kd ka : Reg) (s : State) : Host.Outcome State Fault Refusal :=
  withIssue (.vote h m kd ka) s fun x s =>
    x.result (.vote h m kd ka) h (maskW (x.eff h kd) 0xFFFFFFFF (voteVal m (x.active h) (x.kR h ka))) s

/-- KPOP (Table 10.4). -/
def execKpop (h : Hdr) (sd kb : Reg) (s : State) : Host.Outcome State Fault Refusal :=
  scalarOp (.kpop h sd kb) h sd (fun x _ => BitVec.ofNat 64 (popCount (x.kR h kb))) s

/-- KFIND: the lowest or highest set bit; 32 when there is none (Table 10.4). -/
def execKfind (h : Hdr) (hi : Bool) (sd kb : Reg) (s : State) : Host.Outcome State Fault Refusal :=
  scalarOp (.kfind h hi sd kb) h sd (fun x _ =>
    let ls := lanesOf (x.kR h kb)
    BitVec.ofNat 64 (if hi then ls.getLastD 32 else ls.headD 32)) s

/-- FLGK: one flag of every active lane into its bit of kD (R148). -/
def execFlgk (h : Hdr) (f : BitVec 6) (kd : Reg) (s : State) : Host.Outcome State Fault Refusal :=
  withIssue (.flgk h f kd) s fun x s =>
    let act := x.active h
    x.result (.flgk h f kd) h (maskW (x.eff h kd) act
      (maskBy fun l => act.getLsbD l && (x.g.rd x.sp.id (.flg l)).getLsbD f.toNat)) s

/-- FLGCLR: clears the listed flags of the active lanes (R148). -/
def execFlgclr (h : Hdr) (set : BitVec 6) (s : State) : Host.Outcome State Fault Refusal :=
  withIssue (.flgclr h set) s fun x s =>
    x.result (.flgclr h set) h ((lanesOf (x.active h)).map fun l => (.flg l, set.setWidth 64, 0)) s

/-- FLGRD: the flags of every active lane (R148). -/
def execFlgrd (h : Hdr) (vd : Reg) (s : State) : Host.Outcome State Fault Refusal :=
  withIssue (.flgrd h vd) s fun x s =>
    x.result (.flgrd h vd) h (vecW (x.eff h vd) (x.active h) fun l => (x.g.rd x.sp.id (.flg l)).setWidth 32) s

/-- LANEK: the lane set that the selector names (R147). -/
def execLanek (h : Hdr) (sel : LaneSel) (kd : Reg) (s : State) : Host.Outcome State Fault Refusal :=
  maskOp (.lanek h sel kd) h kd (fun x => match sel with
    | .occ => x.g.occ
    | .vac => ~~~x.g.occ
    | .spl => x.sp.mask) s

end Sys2Proof.Machine
end

