-- ==== Sys2Proof/Machine/Lanes.lean ====
section
/-! DEFINITION. Class 0x7: cross-lane instructions (10 R150 to R158). The participating lanes are the active lanes; a
lane that does not participate contributes the value of 03 Table 3.3 and keeps its registers. -/

namespace Sys2Proof.Machine

/-- A vector register's element of 32 or 64 bits. -/
def Iss.vW (x : Iss) (h : Hdr) (w64 : Bool) (r : Reg) (l : Nat) : DWord :=
  if w64 then x.g.vr64 x.sp.id (x.eff h r) l else (x.g.vr x.sp.id (x.eff h r) l).setWidth 64

/-- Results of 32 or 64 bits in the participating lanes. -/
def laneW (w64 : Bool) (n : Nat) (lanes : Word) (f : Nat → DWord) : List (Loc × DWord × DWord) :=
  if w64 then pairW n lanes f else vecW n lanes fun l => (f l).setWidth 32

/-- SHFL's source lane; none keeps the lane's own value (R151). -/
def shflLane (m : ShflMode) (l : Nat) (b : Word) : Option Nat :=
  match m with
  | .idx => some (b.toNat % 32)
  | .up => if l < b.toNat then none else some (l - b.toNat)
  | .down => if 31 < l + b.toNat then none else some (l + b.toNat)
  | .xor => some (l ^^^ (b.toNat % 32))

/-- SHFL (R151). -/
def execShfl (h : Hdr) (m : ShflMode) (w64 : Bool) (vd va : Reg) (b : BSrc) (s : State) :
    Host.Outcome State Fault Refusal :=
  withIssue (.shfl h m w64 vd va b) s fun x s =>
    let act := x.active h
    x.result (.shfl h m w64 vd va b) h (laneW w64 (x.eff h vd) act fun l =>
      match shflLane m l (x.b32 h l b) with
      | none => x.vW h w64 va l
      | some src => if act.getLsbD src then x.vW h w64 va src else 0) s

/-- The source lanes that PUSHW delivers to a destination, ascending (R152). -/
def pushTo (act : Word) (dst : Nat → Nat) (d : Nat) : List Nat := (lanesOf act).filter fun l => dst l = d

/-- PUSHW: the highest-numbered source wins; kC marks the lanes that received two or more (R152). -/
def execPushw (h : Hdr) (w64 : Bool) (vd va : Reg) (b : BSrc) (kc : Reg) (s : State) :
    Host.Outcome State Fault Refusal :=
  withIssue (.pushw h w64 vd va b kc) s fun x s =>
    let act := x.active h
    let src := pushTo act fun l => (x.b32 h l b).toNat % 32
    x.result (.pushw h w64 vd va b kc) h
      (laneW w64 (x.eff h vd) act (fun d => match (src d).getLast? with | some l => x.vW h w64 va l | none => 0) ++
        maskW (x.eff h kc) 0xFFFFFFFF (maskBy fun d => act.getLsbD d && decide (2 ≤ (src d).length))) s

/-- BCAST: the lane of sB or word 2, or with .FIRST the lowest participating lane (R153). -/
def execBcast (h : Hdr) (w64 : Bool) (vd va : Reg) (b : Option BSrc) (s : State) : Host.Outcome State Fault Refusal :=
  withIssue (.bcast h w64 vd va b) s fun x s =>
    let act := x.active h
    let src := match b with
      | some b => (x.b32 h 0 b).toNat % 32
      | none => lowLane act
    let v : DWord := if act.getLsbD src then x.vW h w64 va src else 0
    x.result (.bcast h w64 vd va b) h (laneW w64 (x.eff h vd) act fun _ => v) s

/-! ## Reductions and scans (R154 to R156) -/

/-- The identity of an operation (03 Table 3.3, Table 10.6). -/
def redIdent (op : RedOp) (w64 : Bool) : Nat :=
  let n := if w64 then 64 else 32
  match op with
  | .add | .or | .xor | .maxz => 0
  | .mins => 2 ^ (n - 1) - 1
  | .maxs => 2 ^ (n - 1)
  | .minz | .and => 2 ^ n - 1
  | .fadd => 0x80000000
  | .fmin => 0x7F800000
  | .fmax => 0xFF800000

/-- The signed value of an element of 32 or 64 bits. -/
def sgn (w64 : Bool) (x : Nat) : Int := intVal (if w64 then .s64 else .s32) x

/-- One step of an integer operation (Table 10.6). -/
def redStep (op : RedOp) (w64 : Bool) (a b : Nat) : Nat :=
  let n := if w64 then 64 else 32
  match op with
  | .add => (a + b) % 2 ^ n
  | .mins => if sgn w64 b < sgn w64 a then b else a
  | .maxs => if sgn w64 a < sgn w64 b then b else a
  | .minz => Nat.min a b
  | .maxz => Nat.max a b
  | .and => a &&& b
  | .or => a ||| b
  | .xor => a ^^^ b
  | _ => a

/-- F32 MIN or MAX of the contributions of a range (R155): NaN contributions are ignored unless every participating lane
contributes one; the identities of lanes that do not participate do not count for this. -/
def redMinMax (max : Bool) (xs : List Nat) : Nat :=
  let id := if max then 0xFF800000 else 0x7F800000
  let nums := xs.filter fun c => !(decodeF .f32 c).isNan
  if xs.isEmpty then id
  else match nums with
    | [] => nanCode .f32
    | c :: cs => cs.foldl (fun a b =>
        let (p, q) := (decodeF .f32 a, decodeF .f32 b)
        if (if max then ltZ p q else ltZ q p) then b else a) c

/-- Combining the contributions of the participating lanes of a range; the identities of the others change nothing
(R154, R155). -/
def redCombine (op : RedOp) (w64 : Bool) (md : RMode) (xs : List Nat) : Nat :=
  match op with
  | .fadd => if xs.isEmpty then redIdent op w64 else sumF32 md xs
  | .fmin => redMinMax false xs
  | .fmax => redMinMax true xs
  | _ => xs.foldl (redStep op w64) (redIdent op w64)

/-- The combination of the participating lanes among some lanes, of a vector register. -/
def Iss.reduce (x : Iss) (h : Hdr) (op : RedOp) (w64 : Bool) (va : Reg) (lanes : List Nat) : DWord :=
  BitVec.ofNat 64 (redCombine op w64 x.g.rnd
    ((lanes.filter ((x.active h).getLsbD ·)).map fun l => (x.vW h w64 va l).toNat))

/-- REDU: the result in every participating lane, or with .S in a class 0x1 register (R156). -/
def execRedu (h : Hdr) (toS : Bool) (op : RedOp) (w64 : Bool) (d va : Reg) (s : State) :
    Host.Outcome State Fault Refusal :=
  withIssue (.redu h toS op w64 d va) s fun x s =>
    let v := x.reduce h op w64 va (List.range 32)
    x.result (.redu h toS op w64 d va) h
      (if toS then sclW (x.eff h d) v else laneW w64 (x.eff h d) (x.active h) fun _ => v) s

/-- The lanes whose contributions a scan combines at a lane, from the lane where it starts (R156). -/
def scanLanes (excl : Bool) (start l : Nat) : List Nat :=
  (List.range (if excl then l else l + 1)).filter (start ≤ ·)

/-- SCAN (R156). -/
def execScan (h : Hdr) (excl : Bool) (op : RedOp) (w64 : Bool) (vd va : Reg) (s : State) :
    Host.Outcome State Fault Refusal :=
  withIssue (.scan h excl op w64 vd va) s fun x s =>
    x.result (.scan h excl op w64 vd va) h (laneW w64 (x.eff h vd) (x.active h) fun l =>
      x.reduce h op w64 va (scanLanes excl 0 l)) s

/-- The nearest head at or below a lane; lane 0 is always one (R156). -/
def headOf (k : Word) (l : Nat) : Nat := ((List.range (l + 1)).filter fun i => i = 0 || k.getLsbD i).getLastD 0

/-- SEGSCAN: a scan that starts afresh at each head of kC (R156). -/
def execSegscan (h : Hdr) (excl : Bool) (op : RedOp) (w64 : Bool) (vd va kc : Reg) (s : State) :
    Host.Outcome State Fault Refusal :=
  withIssue (.segscan h excl op w64 vd va kc) s fun x s =>
    let k := x.kR h kc
    x.result (.segscan h excl op w64 vd va kc) h (laneW w64 (x.eff h vd) (x.active h) fun l =>
      x.reduce h op w64 va (scanLanes excl (headOf k l) l)) s

/-! ## Comparing and sorting (R157, R158) -/

/-- The participating lanes whose key equals a lane's. -/
def Iss.equals (x : Iss) (h : Hdr) (w64 : Bool) (va : Reg) (l : Nat) : Word :=
  maskBy fun m => (x.active h).getLsbD m && x.vW h w64 va m == x.vW h w64 va l

/-- CONFL: the lower lanes with the same key, and in kC the leaders (R157). -/
def execConfl (h : Hdr) (w64 : Bool) (vd va kc : Reg) (s : State) : Host.Outcome State Fault Refusal :=
  withIssue (.confl h w64 vd va kc) s fun x s =>
    let act := x.active h
    let lower (l : Nat) : Word := x.equals h w64 va l &&& (1#32 <<< l - 1)
    x.result (.confl h w64 vd va kc) h
      (vecW (x.eff h vd) act lower ++
        maskW (x.eff h kc) 0xFFFFFFFF (maskBy fun l => act.getLsbD l && lower l == 0)) s

/-- MATCH: all participating lanes with the same key (R157). -/
def execMatchk (h : Hdr) (w64 : Bool) (vd va : Reg) (s : State) : Host.Outcome State Fault Refusal :=
  withIssue (.matchk h w64 vd va) s fun x s =>
    x.result (.matchk h w64 vd va) h (vecW (x.eff h vd) (x.active h) (x.equals h w64 va)) s

/-- Whether a key of GSORT comes before another in ascending order (R158): for F32 −0 before +0, and every NaN after
+inf and equal to every other. -/
def sortLt (t : ElemTy) (a b : Nat) : Bool :=
  if t = .f32 then
    let (p, q) := (decodeF .f32 a, decodeF .f32 b)
    if p.isNan then false else if q.isNan then true else ltZ p q
  else intVal t a < intVal t b

/-- Inserting a lane after the lanes whose keys do not come after its own. -/
def sortIns (lt : Nat → Nat → Bool) (l : Nat) : List Nat → List Nat
  | [] => [l]
  | y :: ys => if lt l y then l :: y :: ys else y :: sortIns lt l ys

/-- The participating lanes in the order of their keys, equal keys in ascending lane order (R158). -/
def sortLanes (lt : Nat → Nat → Bool) (ls : List Nat) : List Nat := ls.foldl (fun acc l => sortIns lt l acc) []

/-- GSORT: the sorted keys, and the source lane of each (R158). -/
def execGsort (h : Hdr) (desc : Bool) (t : ElemTy) (vd va : Reg) (s : State) : Host.Outcome State Fault Refusal :=
  withIssue (.gsort h desc t vd va) s fun x s =>
    let ls := lanesOf (x.active h)
    let key (l : Nat) : Word := x.g.vr x.sp.id (x.eff h va) l
    let lt (a b : Nat) : Bool :=
      if desc then sortLt t (key b).toNat (key a).toNat else sortLt t (key a).toNat (key b).toNat
    let order := ls.zip (sortLanes lt ls)
    x.result (.gsort h desc t vd va) h (order.flatMap fun p =>
      [(.v (x.eff h vd) p.1, ones, (key p.2).setWidth 64),
       (.v (x.eff h vd + 1) p.1, ones, BitVec.ofNat 64 p.2)]) s

end Sys2Proof.Machine
end

