-- ==== Sys2Proof/Machine/Plain.lean ====
section
/-! DEFINITION. What the accesses of classes 0x8 and 0x9 share: addresses (14 R191 to R193), checks (R199), race records
(12 R181 to R184), operations in flight with their order (12 R167, R171), faults of an instruction that has been
counted (R208), and the performing of an access at its point of performance (R168, R179, R195, R204). -/

namespace Sys2Proof.Machine

/-! ## Addresses and checks -/

/-- ext(vB)·2^SC, exactly (R192). -/
def Iss.index (x : Iss) (h : Hdr) (m : Mem) (l : Nat) : Int :=
  let v := x.g.vr x.sp.id (x.eff h m.vb) l
  (if m.ixz then (v.toNat : Int) else v.toInt) * 2 ^ m.sc.toNat

/-- A lane's global address (Table 14.2). -/
def Iss.gAddr (x : Iss) (h : Hdr) (m : Mem) (l : Nat) : DWord :=
  let d := m.disp.signExtend 64
  match m.mode with
  | .sv => x.sR h m.sa + BitVec.ofInt 64 (x.index h m l) + d
  | .s => x.sR h m.sa + d
  | .v => x.g.vr64 x.sp.id (x.eff h m.vb) l + d

/-- A lane's scratch address, computed exactly (Table 14.2); sA is read as signed in both modes that use it (log entry
72). -/
def Iss.sAddr (x : Iss) (h : Hdr) (m : Mem) (l : Nat) : Int :=
  match m.mode with
  | .sv => (x.sR h m.sa).toInt + x.index h m l + m.disp.toInt
  | .s => (x.sR h m.sa).toInt + m.disp.toInt
  | .v => (x.g.vr x.sp.id (x.eff h m.vb) l).toNat + m.disp.toInt

/-- Checking n global bytes at an address, with the uncorrectable errors that a read consumes (R199, 26 R326). -/
def Iss.reachG (x : Iss) (s : State) (nd : Need) (l : Nat) (va : DWord) (n : Nat) (ma : Bool) : Except LFault Where :=
  match s.checkGlob x.bench x.tm.core (x.tm.ctx s) nd l va n ma with
  | .error e => .error e
  | .ok bs => if nd.r && s.grpBad x.tm.core bs then .error (.plain l .dataerr va) else .ok (.glb va bs)

/-- Checking n scratch bytes at an address. -/
def Iss.reachS (x : Iss) (s : State) (nd : Need) (l : Nat) (a : Int) (n : Nat) (ma : Bool) : Except LFault Where :=
  match checkScr (x.tm.scrSize s) l a n ma with
  | .error e => .error e
  | .ok off => if nd.r && x.tm.scrDamaged off n then .error (.plain l .dataerr (BitVec.ofInt 64 a)) else .ok (.scr off n)

/-! ## Race records -/

/-- The lines and words of some byte addresses. -/
def lineWords (as : List Nat) : List (Nat × BitVec 16) :=
  (as.map (· / 64)).dedup.map fun k =>
    (k, as.foldl (fun m a => if a / 64 = k then m ||| (1#16 <<< (a % 64 / 4)) else m) 0)

/-- The lines and words that an access touches for the race records; UC bytes are not covered (R184). -/
def Where.words : Where → List (Nat × BitVec 16)
  | .scr off n => lineWords ((List.range n).map (off + ·))
  | .glb _ bs => lineWords ((bs.filter (!·.uc)).map (·.pa))

/-- The race records of a line: of the team's scratch, or of the core's L1 (R181). -/
def State.races (s : State) (t core : Nat) (w : Where) (line : Nat) : List Race :=
  match w with
  | .scr _ _ => ((s.team? t).map fun tm => Map.get [] tm.scrRace line).getD []
  | .glb _ _ => Map.get [] (s.core core).race line

/-- The other party's record and the word that an access conflicts with (R183). -/
def Iss.raceHit (x : Iss) (s : State) (w : Where) (wr : Bool) : Option (Race × Nat) :=
  let slot := (s.core x.tm.core).slotOf x.r.team x.r.grp
  w.words.findSome? fun p => (List.range 16).findSome? fun i =>
    if p.2.getLsbD i then (s.raceHit x.tm.core slot (s.races x.r.team x.tm.core w p.1) i wr).map (·, i) else none

/-- The MEMRACE of a lane: the detail names the other party's team, %grp and word (26 Table 26.2). -/
def Iss.raceFault (x : Iss) (s : State) (l : Nat) (a : DWord) (r : Race) (word : Nat) : LFault :=
  let (t, g) := match (s.core x.tm.core).slots.find? (·.1 = r.slot) with
    | some (_, t, g) => (((s.team? t).map (·.num)).getD 0, g)
    | none => (0, 0)
  { lane := l, cause := .memrace, addr := a, pages := [], detail := BitVec.ofNat 64 (word * 2 ^ 38 + g * 2 ^ 32 + t) }

/-- Recording an access (R183). -/
def Iss.raceNote (x : Iss) (s : State) (w : Where) (wr : Bool) : State :=
  let slot := (s.core x.tm.core).slotOf x.r.team x.r.grp
  w.words.foldl (fun s p =>
    let rs := s.raceNote x.tm.core slot x.g.region (s.races x.r.team x.tm.core w p.1) p.2 wr
    match w with
    | .scr _ _ => s.modTeam x.r.team fun t => { t with scrRace := Map.put t.scrRace p.1 rs }
    | .glb _ _ => s.modCore x.tm.core fun c => { c with race := Map.put c.race p.1 rs }) s

/-- What the lanes of an instruction reach: the checked accesses and the faults. -/
structure Reached where
  s : State
  accs : List (Nat × Where)
  fs : List LFault

/-- Address of an access, for a fault record. -/
def Where.addr : Where → DWord
  | .scr off _ => BitVec.ofNat 64 off
  | .glb va _ => va

/-- Checking lane after lane; a plain access is also checked against the race records and recorded (R183, R199). -/
def Iss.reachAll (x : Iss) (plain wr : Bool) (reach : Nat → Except LFault Where) (lanes : List Nat) (s : State) :
    Reached :=
  let r := lanes.foldl (fun (o : Reached) l =>
    match reach l with
    | .error e => { o with fs := o.fs ++ [e] }
    | .ok w => match (if plain then x.raceHit o.s w wr else none) with
      | some (c, i) => { o with fs := o.fs ++ [x.raceFault o.s l w.addr c i] }
      | none => { o with s := if plain then x.raceNote o.s w wr else o.s, accs := o.accs ++ [(l, w)] }) ⟨s, [], []⟩
  { r with s := r.s.fillTlb x.bench x.tm.core (x.tm.ctx s) (r.accs.flatMap fun a => match a.2 with
      | .scr _ _ => []
      | .glb va bs => [va.toNat, va.toNat + bs.length - 1]) }

/-! ## Operations in flight -/

/-- Runs of consecutive physical addresses. -/
def physRuns : List PByte → List (Nat × Nat)
  | [] => []
  | b :: bs => match physRuns bs with
    | (lo, hi) :: more => if lo = b.pa + 1 then (b.pa, hi) :: more else (b.pa, b.pa + 1) :: (lo, hi) :: more
    | [] => [(b.pa, b.pa + 1)]

/-- The regions of an access of classes 0x8 and 0x9: by address, and for global bytes by physical address too. -/
def Where.regions (team : Nat) (wr : Bool) : Where → List Region
  | .scr off n => [⟨.scratch team, off, off + n, wr⟩]
  | .glb va bs => ⟨.glob, va.toNat, va.toNat + bs.length, wr⟩ ::
      (physRuns bs).map fun r => ⟨.phys, r.1, r.2, wr⟩

/-- The operation that a reissue under RETRY belongs to (R208). -/
def Iss.waiting (x : Iss) : Option Op :=
  if x.sp.only.isNone then none
  else x.g.ops.find? fun o => o.waitRetry && o.pc == x.sp.pc && o.split == x.sp.id

/-- Joining the accesses of a reissue to those that still wait. -/
def OpKind.join : OpKind → OpKind → OpKind
  | .load rd sz a, .load _ _ b => .load rd sz (a ++ b)
  | .loadBlock rd n a, .loadBlock _ _ b => .loadBlock rd n (a ++ b)
  | .store n a, .store _ b => .store n (a ++ b)
  | .atomic op t rd a, .atomic _ _ _ b => .atomic op t rd (a ++ b)
  | .lookup rd a, .lookup _ b => .lookup rd (a ++ b)
  | .tagset a, .tagset b => .tagset (a ++ b)
  | .copy a, .copy b => .copy (a ++ b)
  | .value a, .value b => .value (a ++ b)
  | .enq c b q d rows res bad, .enq _ _ _ _ more _ _ => .enq c b q d (sortBy (·.lane) (rows ++ more)) res bad
  | .rwr n a, .rwr _ b => .rwr n (sortBy (·.lane) (a ++ b))
  | .rrd n a, .rrd _ b => .rrd n (sortBy (·.lane) (a ++ b))
  | .rred op t n c a, .rred _ _ _ _ b => .rred op t n c (sortBy (·.lane) (a ++ b))
  | .gather q, .gather r => .gather { q with
      lanes := q.lanes ||| r.lanes, recs := q.recs ||| r.recs, sels := q.sels ++ r.sels, slots := sortBy (·.pos) (q.slots ++ r.slots) }
  | .rflag op w a, .rflag _ _ b => .rflag op w (sortBy (·.lane) (a ++ b))
  | _, k => k

/-- Issuing an operation, or giving a waiting one the lanes that are reissued; answers its number (R208). -/
def Iss.place (x : Iss) (now : Nat) (kind : OpKind) (ctrs : List Nat) (engine : Bool) (fp : List Region)
    (bn : Option Nat) (bytes : Nat) (ord : Order) (sc : Scope) (g : Group) : Group × Nat :=
  match x.waiting with
  | some o => (g.modOp o.id fun o =>
      { o with kind := o.kind.join kind, fp := o.fp ++ fp, deps := o.deps ++ g.edges engine fp o.id, waitRetry := false,
               done := false }, o.id)
  | none => (x.addOp now kind ctrs engine fp bn bytes none g ord sc, g.nextOp)

/-- After an instruction's operation has been issued: the lanes under item-level IGN receive 0, lanes that wait for an
answer keep the operation open, and the split passes, unless it has gone or waits (Table 3.5, R208). -/
def Iss.settleOp (x : Iss) (h : Hdr) (op : Nat) (loud : Bool) (zero : Word → List (Loc × DWord × DWord)) (o : FOut) :
    State :=
  let s := o.s.modG x.r fun g =>
    let g := (zero o.ign).foldl (fun g w => g.writeNow w.1 w.2.1 w.2.2) g
    if o.wait ≠ 0 ∧ ¬ o.whole ∧ g.live then g.modOp op fun p => { p with waitRetry := true } else g
  x.afterFaults { o with s := s } fun s => x.pass h loud s

/-- A counted instruction whose lanes' accesses have been checked: the operation is issued, its faults are contained, and
the split goes on (R195, R199, R208). -/
def Iss.issueOp (x : Iss) (h : Hdr) (kind : OpKind) (ctr : Nat) (fp : List Region) (ord : Order) (sc : Scope)
    (loud : Bool) (fs : List LFault) (zero : Word → List (Loc × DWord × DWord)) (s : State) : State :=
  match s.team? x.r.team with
  | none => s
  | some tm => match tm.group? x.r.grp with
    | none => s
    | some g =>
      let (g', op) := x.place s.now kind [ctr] false fp none 0 ord sc g
      let s := s.modG x.r fun _ => g'
      let s := if ord = .rlx ∨ x.waiting.isSome then s else s.bumpRegion x.r.team x.r.grp
      if fs.isEmpty then x.pass h loud s else x.settleOp h op loud zero (x.itemFaults fs s)

/-- A U-kind access that faults, for the lanes of the split or for the group (R113, R197): it is counted once; under
item-level IGN its destination becomes 0. -/
def Iss.uniOpFault (x : Iss) (h : Hdr) (empty : OpKind) (ctr : Nat) (zero : List (Loc × DWord × DWord)) (f : LFault)
    (s : State) : State :=
  let o := x.itemFaults (x.uniFault f.cause f.addr f.pages |>.map fun e => { e with detail := f.detail }) s
  let place (s : State) (wait : Bool) : State := s.modG x.r fun g =>
    if g.live then
      let (g', op) := x.place s.now empty [ctr] false [] none 0 .rlx .grp g
      g'.modOp op fun p => { p with waitRetry := wait }
    else g
  let s := if o.ign ≠ 0 then place o.s false else if o.wait ≠ 0 ∧ ¬ o.whole then place o.s true else o.s
  x.afterFaults { o with s := s } fun s => if o.ign = 0 then x.pass h false s else x.finishNow h zero s

/-- The operation kinds that complete by MEMORY_ACCESS_COMPLETION. -/
def OpKind.isAccess : OpKind → Bool
  | .load .. | .loadBlock .. | .loadK .. | .const .. | .store .. | .atomic .. | .lookup .. | .tagset .. | .value .. => true
  | _ => false

/-- An operation with an access of classes 0x8 and 0x9 still to be performed. -/
def Op.pendingAccess (o : Op) : Bool := !o.done && o.kind.isAccess && match o.kind with
  | .value _ => false
  | _ => true

/-- Whether the group still has an earlier access of classes 0x8 and 0x9 that has not been performed (R171). -/
def Group.openBefore (g : Group) (first : Nat) : Bool :=
  g.ops.any fun o => decide (o.id < first) && !o.engine && o.pendingAccess

/-- An access that reads memory or scratch. -/
def OpKind.readsMem : OpKind → Bool
  | .load .. | .loadBlock .. | .loadK .. | .const .. | .atomic .. => true
  | _ => false

/-- The group still has an earlier access that reads and has not been performed: an acquire fence takes its cache actions
after it, so that a later load cannot return an older value (12 R174, Table 12.4; log entry 85). -/
def Group.readsBefore (g : Group) (first : Nat) : Bool :=
  g.ops.any fun o => decide (o.id < first) && !o.engine && o.pendingAccess && o.kind.readsMem

/-- The order has a release side. -/
def rels : Order → Bool
  | .rel | .ar => true
  | _ => false

/-- The order has an acquire side. -/
def acqs : Order → Bool
  | .acq | .ar => true
  | _ => false

/-- The order actions of an instruction without an active lane: as a fence of the same order and scope, but without an
access; a release waits for the group's earlier accesses, an acquire for those that read (R171, R174). -/
def Iss.emptyOrder (x : Iss) (h : Hdr) (ord : Order) (sc : Scope) (s : State) : State :=
  if ord = .rlx then x.pass h false s
  else if (rels ord && x.g.openBefore x.g.nextOp) || (acqs ord && x.g.readsBefore x.g.nextOp) then s
  else x.pass h false ((s.orderActs x.tm.core ord sc).bumpRegion x.r.team x.r.grp)

/-- An acquire of the group, before an operation, that has not completed: no later access of the group is performed
before it (R171). -/
def Group.acquireOpen (g : Group) (id : Nat) : Bool :=
  (g.ops.any fun o => decide (o.id < id) && acqs o.ord && !o.done) ||
  (g.splits.any fun x => match x.hold with
    | .fence o _ _ _ first => acqs o && decide (first ≤ id)
    | _ => false)

/-- A release fence of the group, before an operation, is still held: no later store or atomic of the group is performed
before it (R174, Table 12.4). -/
def Group.releaseOpen (g : Group) (id : Nat) : Bool :=
  g.splits.any fun x => match x.hold with
    | .fence o _ _ _ first => rels o && decide (first ≤ id)
    | .rfence first _ _ => decide (first ≤ id)
    | _ => false

/-- A store or an atomic. -/
def OpKind.writesMem : OpKind → Bool
  | .store .. | .atomic .. => true
  | _ => false

/-- An access of the group at issue to some bytes must wait: for an earlier access to them (12 R167), for an earlier acquire,
and a write for an earlier release fence (R171, R174). -/
def Iss.mustWait (x : Iss) (fp : List Region) (wr : Bool := false) : Bool :=
  !(x.g.edges false fp x.g.nextOp).isEmpty || x.g.acquireOpen x.g.nextOp || (wr && x.g.releaseOpen x.g.nextOp)

/-- The operation's accesses may be performed: it has fired, what it must follow has been performed, no acquire before it
is open, no release fence before a store or an atomic is held, and if it releases every earlier access of the group has been
performed (R171, R174, R188). -/
def Group.mayGo (g : Group) (o : Op) : Bool :=
  o.free && !g.acquireOpen o.id && (!o.kind.writesMem || !g.releaseOpen o.id) && (!rels o.ord || !g.openBefore o.id)

/-! ## Performing -/

/-- The bytes of an access as the group reads them. -/
def State.accRead (s : State) (tm : Team) : Where → List Byte
  | .scr off n => ((s.team? tm.id).getD tm).scrRead off n
  | .glb _ bs => s.grpRead tm.core bs

/-- The cache effect of a read. -/
def State.accTouch (s : State) (tm : Team) : Where → State
  | .scr _ _ => s
  | .glb _ bs => s.grpTouch tm.core bs

/-- Writing the bytes of an access. -/
def State.accWrite (s : State) (tm : Team) (w : Where) (d : List Byte) : State :=
  match w with
  | .scr off _ => s.modTeam tm.id fun t => t.scrWrite off d
  | .glb _ bs => s.grpWrite tm.core (bs.zip d)

/-- A loaded element, extended per Table 14.3 to w bits. -/
def extend (sz : BitVec 3) (w : Nat) (x : Nat) : Nat :=
  if sz = 1 then intCode (if w = 64 then .s64 else .s32) (intVal .s8 x)
  else if sz = 3 then intCode (if w = 64 then .s64 else .s32) (intVal .s16 x)
  else if sz = 7 ∧ w = 64 then intCode .s64 (intVal .s32 x)
  else x

/-- A number as n consecutive registers of a lane. -/
def regsW (rd n lane x : Nat) : List (Loc × DWord × DWord) :=
  (List.range n).map fun i => (.v (rd + i) lane, ones, BitVec.ofNat 64 (x / 2 ^ (32 * i) % 2 ^ 32))

/-- An atomic's new value (R204). -/
def atomVal (op : AtomOp) (t : ElemTy) (old v : Nat) : Nat :=
  match op with
  | .add => if t = .rx3 then rx3Add old v
      else if t.isFloat then (addF t .rn false (decodeF t old) (decodeF t v)).bits
      else (old + v) % 2 ^ t.bits
  | .min => if intVal t v < intVal t old then v else old
  | .max => if intVal t old < intVal t v then v else old
  | .and => old &&& v
  | .or => old ||| v
  | .xor => old ^^^ v
  | .exch => v

/-- An atomic on global bytes first makes its own core's earlier stores to the line visible at the place of performance
and drops that core's copy (R167, R179). -/
def State.atomPrep (s : State) (core : Nat) (bs : List PByte) : State :=
  ((bs.filter (!·.uc)).map (·.pa / 64)).dedup.foldl (fun s k =>
    let s := s.evictL1 core k
    if homeDie (64 * k) = some (dieOf core) then s else (s.wbDie (dieOf core) k).evictDc (dieOf core) k) s

/-- The bytes that an atomic finds at its place of performance: the scratch bank, the home die's cache, or for UC memory
itself (R179, R205). -/
def State.atomRead (s : State) (tm : Team) (w : Where) : List Byte :=
  match w with
  | .scr off n => ((s.team? tm.id).getD tm).scrRead off n
  | .glb _ bs => bs.map fun b => if b.uc then s.mem.get 0 b.pa else s.homeByte b.pa

/-- Writing an atomic's bytes at its place; RED is performed in memory after the home die cache has written back and
dropped its copy (R179), UC atomics in memory (R205). -/
def State.atomWrite (s : State) (tm : Team) (red : Bool) (w : Where) (d : List Byte) : State :=
  match w with
  | .scr off _ => s.modTeam tm.id fun t => t.scrWrite off d
  | .glb _ bs => match bs with
    | [] => s
    | b :: _ =>
      let runs := lineRuns b.pa d
      if b.uc then runs.foldl (fun s r => s.memLine r.1 r.2.1 r.2.2) s
      else if red then runs.foldl (fun s r => (s.homeFlush r.1).memLine r.1 r.2.1 r.2.2) s
      else s.homeWrite b.pa d

/-- Writing some bytes of a lane's access. -/
def State.storeBytes (s : State) (tm : Team) (w : Where) (d : List Byte) (m : BitVec 16) : State :=
  match w with
  | .scr off n => s.modTeam tm.id fun t => (List.range n).foldl (fun t i =>
      if m.getLsbD i then t.scrWrite (off + i) [d.getD i 0] else t) t
  | .glb _ bs => s.grpWrite tm.core (((bs.zip d).zipIdx.filter fun p => m.getLsbD p.2).map (·.1))

/-- The bytes of a lane's access that a store still has to write; where two lanes write one byte the highest-numbered
lane's remains (R168), so the bytes that a later lane of the list writes too are left to it. -/
def Where.bytes : Where → List (Bool × Nat)
  | .scr off n => (List.range n).map fun i => (true, off + i)
  | .glb _ bs => bs.map fun b => (false, b.pa)

/-- Writing some bytes of the lanes of a store, in lane order; a byte that a higher lane writes as well is that lane's. -/
def State.storeLanes (s : State) (tm : Team) (n : Nat) (accs : List LaneAcc) (sel : LaneAcc → BitVec 16) : State :=
  (accs.zipIdx).foldl (fun s p =>
    let later := ((accs.drop (p.2 + 1)).flatMap fun a => a.at_.bytes)
    let mine := (p.1.at_.bytes.zipIdx.foldl (fun (m : BitVec 16) b =>
      if later.contains b.1 then m else m ||| (1#16 <<< b.2)) 0)
    s.storeBytes tm p.1.at_ (natLe n p.1.data.toNat) (sel p.1 &&& mine)) s

/-- What performing an operation gives: the state, the register writes, and whether it wrote memory or scratch, or as an
atomic changed it (03 R36). -/
structure Performed where
  s : State
  ws : List (Loc × DWord × DWord)
  wrote : Bool

/-- The value that a lane of an atomic leaves: its operation's, or for a compare and swap (no operation) its own operand
where the old value equals the comparand (R204). -/
def atomStep (op : Option AtomOp) (t : ElemTy) (a : LaneAcc) (old : Nat) : Nat :=
  let v := a.data.toNat % 2 ^ t.bits
  match op with
  | some o => atomVal o t old v
  | none => if old = a.cmp.toNat % 2 ^ t.bits then v else old

/-- Performing the lanes of an atomic in ascending lane order (R168, R204). -/
def State.doAtomic (s : State) (tm : Team) (op : Option AtomOp) (t : ElemTy) (rd : Option Nat) (accs : List LaneAcc) :
    Performed :=
  let n := t.bits / 8
  let s := accs.foldl (fun s a => match a.at_ with
    | .scr _ _ => s
    | .glb _ bs => s.atomPrep tm.core bs) s
  accs.foldl (fun (p : Performed) a =>
    let old := leNat (p.s.atomRead tm a.at_)
    let new := atomStep op t a old
    let writes := op.isSome || old == a.cmp.toNat % 2 ^ t.bits
    { s := if writes then p.s.atomWrite tm rd.isNone a.at_ (natLe n new) else p.s
      ws := p.ws ++ (match rd with | some r => regsW r t.regs a.lane old | none => [])
      wrote := p.wrote || new != old }) ⟨s, [], false⟩

/-- The lowest-numbered valid tag entry with a key (12 R162). -/
def Team.tagFind (tm : Team) (key : DWord) : Word :=
  match List.find? (fun (e : Nat × Option DWord) => e.2 == some key) tm.tags with
  | some e => BitVec.ofNat 32 e.1
  | none => 0xFFFFFFFF

/-- The bytes that a lane loads: those that pieces have read already, and the others now (12 R169). -/
def State.loadBytes (s : State) (tm : Team) (a : LaneAcc) : List Byte :=
  if a.got = 0 then s.accRead tm a.at_
  else (s.accRead tm a.at_).zipIdx.map fun p => if a.got.getLsbD p.2 then a.data.extractLsb' (8 * p.2) 8 else p.1

/-- The rest of a store: whole, or without the pieces performed already (12 R169). -/
def State.storeRest (s : State) (tm : Team) (n : Nat) (accs : List LaneAcc) : State :=
  if accs.all (·.got == 0) then accs.foldl (fun s a => s.accWrite tm a.at_ (natLe n a.data.toNat)) s
  else s.storeLanes tm n accs fun a => ~~~a.got

/-- Performing the accesses of a load, store, atomic or tag operation (R195, R198, R204, R200). SLDK delivers the block's
doubleword with the writes made while the launch runs, or without them (09 R119: which is free, log entry 2). -/
def State.doAccess (s : State) (tm : Team) (k : OpKind) : Performed :=
  match k with
  | .load rd sz accs =>
    { s := accs.foldl (fun s a => s.accTouch tm a.at_) s
      ws := accs.flatMap fun a => regsW rd (szRegs sz) a.lane (extend sz 32 (leNat (s.loadBytes tm a)))
      wrote := false }
  | .loadBlock rd n accs =>
    { s := s, ws := accs.flatMap fun a => regsW rd n a.lane (leNat (s.loadBytes tm a)), wrote := false }
  | .loadK sd sz a =>
    { s := s.accTouch tm a.at_, ws := sclW sd (BitVec.ofNat 64 (extend sz 64 (leNat (s.loadBytes tm a)))), wrote := false }
  | .const sd bs first =>
    let seen := (Config.freeWord s.free).getLsbD 0
    { s := { s.grpTouch tm.core bs with free := s.free + 1 }
      ws := sclW sd (if seen then BitVec.ofNat 64 (leNat (s.grpRead tm.core bs)) else first), wrote := false }
  | .store n accs =>
    { s := s.storeRest tm n accs, ws := [], wrote := !accs.isEmpty }
  | .atomic op t rd accs => s.doAtomic tm op t rd accs
  | .lookup rd ks =>
    { s := s, ws := ks.map fun p => (.v rd p.1, ones, (((s.team? tm.id).getD tm).tagFind p.2).setWidth 64), wrote := false }
  | .tagset es =>
    { s := s.modTeam tm.id fun t => { t with tags := es.foldl (fun m e => Map.set none m e.1 e.2) t.tags }, ws := [],
      wrote := false }
  | .value ls => { s := s, ws := ls.map fun p => (p.1, ones, p.2), wrote := false }
  | _ => ⟨s, [], false⟩

/-- What remains of an operation once the accesses of its lanes so far are performed. -/
def OpKind.spent : OpKind → OpKind
  | .load rd sz _ => .load rd sz []
  | .loadBlock rd n _ => .loadBlock rd n []
  | .store n _ => .store n []
  | .atomic op t rd _ => .atomic op t rd []
  | .lookup rd _ => .lookup rd []
  | .tagset _ => .tagset []
  | .const _ _ _ => .value []
  | .loadK _ _ _ => .value []
  | k => k

/-- Landing register results of an operation, but where a later write has overtaken them (R57); they make its split loud
when they change a value (03 R36). -/
def Group.landOp (g : Group) (p : Op) (ws : List (Loc × DWord × DWord)) (loud : Bool) : Group :=
  if !g.live then g
  else
    let ws := (ws.map fun w => (w.1, p.lands w.1 w.2.1, w.2.2)).filter (·.2.1 ≠ 0)
    let l := loud || ws.any fun w => (g.file w.1 ^^^ w.2.2) &&& w.2.1 &&& w.1.width != 0
    let g := ws.foldl (fun g w => g.writeAs p.id w.1 w.2.1 w.2.2) g
    { g with splits := g.splits.map fun (x : Split) => if x.id = p.split then { x with loud := x.loud || l } else x }

/-- An operation's accesses have been performed so far: what follows it need not wait, and it stays in flight with what
remains of it. -/
def Group.opPerformed (g : Group) (i : Nat) (k : OpKind) : Group :=
  { g with ops := g.ops.map fun (o : Op) =>
      if o.id = i then { o with kind := k, fp := [] } else { o with deps := o.deps.filter (· ≠ i) } }

/-- An operation of the package with its team and group. -/
def State.op? (s : State) (o : ORef) : Option (Team × Group × Op) :=
  match s.team? o.team with
  | none => none
  | some tm => match tm.group? o.grp with
    | none => none
    | some g => (g.op? o.op).map fun p => (tm, g, p)

/-- An atomic on scratch, which takes no cache action at .TEAM or narrower (R205). -/
def OpKind.onScratch : OpKind → Bool
  | .atomic _ _ _ accs => accs.any fun a => match a.at_ with
      | .scr _ _ => true
      | .glb _ _ => false
  | _ => false

/-- Performing an operation with its order: a release before it, an acquire after it (R171, R172, R196, R205). -/
def State.performOp (s : State) (tm : Team) (o : Op) : Performed :=
  let sc := if o.kind.onScratch && (o.scope == .team) then .grp else o.scope
  let s := if rels o.ord then s.release tm.core sc else s
  let p := s.doAccess tm o.kind
  { p with s := if acqs o.ord then p.s.acquire tm.core sc else p.s }

/-! ## Releases in progress (R165, R172, R206) -/

/-- A fence's or RFENCE's order, scope, markers, how many are placed, and its first later operation. -/
def Hold.release : Hold → Option (Order × Scope × List (FifoRef × Nat) × Nat × Nat)
  | .fence o sc ms p f => some (o, sc, ms, p, f)
  | .rfence f ms p => some (.ar, .sys, ms, p, f)
  | _ => none

/-- The same hold with other markers. -/
def Hold.withMarks (hd : Hold) (ms : List (FifoRef × Nat)) (p : Nat) : Hold :=
  match hd with
  | .fence o sc _ _ f => .fence o sc ms p f
  | .rfence f _ _ => .rfence f ms p
  | x => x

/-- A dirty-line FIFO. -/
def State.fifo (s : State) : FifoRef → List FEnt
  | .core c => (s.core c).fifo
  | .die d => (s.die d).fifo

/-- A marker after the newest entry of a FIFO (R165). -/
def State.placeMark (s : State) (f : FifoRef) : State :=
  let m := FEnt.mark s.nextMark
  let s := match f with
    | .core c => s.modCore c fun y => { y with fifo := y.fifo ++ [m] }
    | .die d => s.modDie d fun y => { y with fifo := y.fifo ++ [m] }
  { s with nextMark := s.nextMark + 1 }

/-- The FIFOs that a release at a scope drains, in order (Table 12.3). -/
def drains (core : Nat) : Scope → List FifoRef
  | .grp => []
  | .team | .clus => [.core core]
  | .pkg | .sys => [.core core, .die (dieOf core)]

/-- The pending markers of a FIFO. -/
def markCount (f : List FEnt) : Nat := (f.filter fun e => match e with | .mark _ => true | .line _ => false).length

/-- A held release goes on: once the group's earlier accesses are performed it places its marker in the core's FIFO (16
may be pending), and once that has drained its marker in the die cache's (R165, R171). -/
def State.pushRelease (s : State) (r : SRef) : State :=
  match s.at? r with
  | none => s
  | some x => match x.sp.hold.release with
    | none => s
    | some (o, sc, ms, p, f) =>
      let due := (drains x.tm.core sc)[p]?
      let clear := ms.all fun m => !(s.fifo m.1).contains (.mark m.2)
      match due with
      | some q =>
        if rels o ∧ clear ∧ ¬ x.g.openBefore f ∧ markCount (s.fifo q) < 16 then
          (s.placeMark q).modSplit r fun y => { y with hold := y.hold.withMarks (ms ++ [(q, s.nextMark)]) (p + 1) }
        else s
      | none => s

/-- Every held release of the package goes on as far as it can. -/
def State.pushReleases (s : State) : State :=
  (s.teams.flatMap fun t => t.groups.flatMap fun g => g.splits.map fun x => (⟨t.id, g.grp, x.id⟩ : SRef)).foldl
    State.pushRelease s

/-- A held fence may end: for a release the earlier accesses are performed and every marker has drained, for an acquire the
earlier accesses that read are performed (R174, log entry 85). -/
def Iss.released (x : Iss) (s : State) : Bool :=
  match x.sp.hold.release with
  | none => false
  | some (o, sc, ms, p, f) =>
    (!acqs o || !x.g.readsBefore f) && (!rels o || (!x.g.openBefore f && decide ((drains x.tm.core sc).length ≤ p) &&
      ms.all fun m => !(s.fifo m.1).contains (.mark m.2)))

/-- MEMORY_ACCESS_COMPLETION: a load, store, atomic, RED or tag operation is performed, its results land and its counter
counts down; lanes that wait under RETRY keep it open (R195, R204, R208). -/
def execMemoryAccessCompletion (o : ORef) (s : State) : Host.Outcome State Fault Refusal :=
  match s.op? o with
  | none => .next s
  | some (tm, g, p) =>
    if p.kind.isAccess && !p.done && g.mayGo p then
      let r := s.performOp tm p
      .next (r.s.modGroup o.team o.grp fun g =>
        let g := g.landOp p r.ws r.wrote
        if p.waitRetry then g.opPerformed p.id p.kind.spent else g.opDone p.id).pushReleases
    else .next s

/-- A load, LOOKUP or atomic is performed and its elements have still to land (05 R59). -/
def State.performEarly (s : State) (o : ORef) : State :=
  match s.op? o with
  | none => s
  | some (tm, g, p) =>
    if p.kind.isAccess && !p.done && !p.waitRetry && g.mayGo p && acqs p.ord == false then
      let r := s.performOp tm p
      r.s.modGroup o.team o.grp fun g => (g.opPerformed p.id (.value (r.ws.map fun w => (w.1, w.2.2)))).modOp p.id
        fun q => { q with ord := .rlx }
    else s

/-! ## Pieces (12 R169) -/

/-- The pieces of an access of n bytes from an offset i on, at an address: the largest aligned ones of up to 8 bytes, as
(offset, size). -/
def pieces (a : Nat) : Nat → Nat → Nat → List (Nat × Nat)
  | 0, _, _ => []
  | fuel + 1, i, n =>
    if n ≤ i then []
    else
      let sz := if (a + i) % 8 = 0 ∧ i + 8 ≤ n then 8 else if (a + i) % 4 = 0 ∧ i + 4 ≤ n then 4
        else if (a + i) % 2 = 0 ∧ i + 2 ≤ n then 2 else 1
      (i, sz) :: pieces a fuel (i + sz) n

/-- The first byte's address and the number of bytes of an access. -/
def Where.span : Where → Nat × Nat
  | .scr off n => (off, n)
  | .glb va bs => (va.toNat, bs.length)

/-- The bytes of an access that its k-th piece covers, as a mask. DESIGN CHOICE (log entry 86): of a block of LDSB only pieces
of its first 16 bytes are performed apart, and two words of one aligned 8 bytes together. -/
def LaneAcc.piece (a : LaneAcc) (k : Nat) : BitVec 16 :=
  match (pieces a.at_.span.1 16 0 a.at_.span.2)[k]? with
  | some (i, n) => (List.range n).foldl (fun m j => m ||| (1#16 <<< (i + j))) 0
  | none => 0

/-- The k-th piece of every lane's access is performed before the others: a load keeps the bytes that it has read. -/
def OpKind.piece (s : State) (tm : Team) (k : Nat) : OpKind → OpKind
  | .load rd sz accs => .load rd sz (accs.map go)
  | .loadBlock rd n accs => .loadBlock rd n (accs.map go)
  | .loadK sd sz a => .loadK sd sz (go a)
  | .store n accs => .store n (accs.map fun a => { a with got := a.got ||| a.piece k })
  | o => o
where
  /-- A load's piece. -/
  go (a : LaneAcc) : LaneAcc :=
    let m := a.piece k &&& ~~~a.got
    let bs := s.accRead tm a.at_
    { a with
      got := a.got ||| m
      data := (List.range 16).foldl (fun d i =>
        if m.getLsbD i then (d &&& ~~~(0xFF#128 <<< (8 * i))) ||| ((bs.getD i 0).setWidth 128 <<< (8 * i)) else d) a.data }

/-- One piece of a load or store is performed apart from the rest (R169). -/
def State.performPiece (s : State) (o : ORef) (k : Nat) : State :=
  match s.op? o with
  | none => s
  | some (tm, g, p) =>
    if !p.done && g.mayGo p then
      let s := if rels p.ord then s.release tm.core p.scope else s
      let s' := match p.kind with
        | .store n accs => s.storeLanes tm n accs fun a => a.piece k &&& ~~~a.got
        | _ => s
      s'.modGroup o.team o.grp fun g => g.modOp p.id fun q => { q with kind := q.kind.piece s tm k }
    else s

/-- One element of a performed operation lands (05 R59); a whole s register at once (DESIGN CHOICE, log entry 87). -/
def State.landPart (s : State) (o : ORef) (i : Nat) : State :=
  match s.op? o with
  | none => s
  | some (_, _, p) => match p.kind with
    | .value ls => match ls[i]? with
      | none => s
      | some w => s.modGroup o.team o.grp fun g =>
          (g.landOp p [(w.1, ones, w.2)] false).modOp p.id fun q => { q with kind := .value (ls.eraseIdx i) }
    | _ => s

end Sys2Proof.Machine
end

