-- ==== Sys2Proof/Machine/LoadStore.lean ====
section
/-! DEFINITION. Class 0x8: loads, stores, the tag table and prefetch (14 R194 to R201), and SLDK (09 R119). -/

namespace Sys2Proof.Machine

/-- The data of a store: the registers of a lane (R195). -/
def Iss.dataOf (x : Iss) (h : Hdr) (vd : Reg) (n lane : Nat) : BitVec 128 :=
  BitVec.ofNat 128 (((List.range n).map fun i => (x.g.vr x.sp.id (x.eff h vd + i) lane).toNat * 2 ^ (32 * i)).sum)

/-- One access of a lane. -/
def laneAcc (data : BitVec 128) (p : Nat × Where) : LaneAcc := { lane := p.1, at_ := p.2, data := data, cmp := 0 }

/-- The regions of accesses. -/
def accRegions (team : Nat) (wr : Bool) (accs : List (Nat × Where)) : List Region :=
  accs.flatMap fun p => p.2.regions team wr

/-- Zeros in n registers of some lanes. -/
def zeroRegs (rd n : Nat) (lanes : Word) : List (Loc × DWord × DWord) :=
  (lanesOf lanes).flatMap fun l => regsW rd n l 0

/-- A load of the active lanes (R195). -/
def Iss.load (x : Iss) (h : Hdr) (glob : Bool) (sz : BitVec 3) (ma : Bool) (vd : Reg) (m : Mem) (ord : Order)
    (s : State) : State :=
  let act := x.active h
  if act = 0 then x.emptyOrder h ord m.scope s
  else if x.waiting.isNone && x.g.full [0] false then s
  else
    let n := szBytes sz
    let rd := x.eff h vd
    let r := x.reachAll true false (fun l =>
      if glob then x.reachG s .read l (x.gAddr h m l) n ma else x.reachS s .read l (x.sAddr h m l) n ma) (lanesOf act) s
    x.issueOp h (.load rd sz (r.accs.map (laneAcc 0))) 0 (accRegions x.r.team false r.accs) ord m.scope false r.fs
      (zeroRegs rd (szRegs sz)) r.s

/-- A store of the active lanes (R195). -/
def Iss.store (x : Iss) (h : Hdr) (glob : Bool) (sz : BitVec 3) (ma : Bool) (vd : Reg) (m : Mem) (ord : Order)
    (s : State) : State :=
  let act := x.active h
  if act = 0 then x.emptyOrder h ord m.scope s
  else if x.waiting.isNone && x.g.full [1] false then s
  else
    let n := szBytes sz
    let r := x.reachAll true true (fun l =>
      if glob then x.reachG s .write l (x.gAddr h m l) n ma else x.reachS s .write l (x.sAddr h m l) n ma) (lanesOf act) s
    x.issueOp h (.store n (r.accs.map fun p => laneAcc (x.dataOf h vd (szRegs sz) p.1) p)) 1
      (accRegions x.r.team true r.accs) ord m.scope true r.fs (fun _ => []) r.s

/-- LD (R194, R195). -/
def execLd (h : Hdr) (sz : BitVec 3) (ma : Bool) (vd : Reg) (m : Mem) (s : State) : Host.Outcome State Fault Refusal :=
  withIssue (.ld h sz ma vd m) s fun x s => x.load h true sz ma vd m .rlx s

/-- ST (R194, R195). -/
def execSt (h : Hdr) (sz : BitVec 3) (ma : Bool) (vd : Reg) (m : Mem) (s : State) : Host.Outcome State Fault Refusal :=
  withIssue (.st h sz ma vd m) s fun x s => x.store h true sz ma vd m .rlx s

/-- LDS (R194, R195). -/
def execLds (h : Hdr) (sz : BitVec 3) (ma : Bool) (vd : Reg) (m : Mem) (s : State) : Host.Outcome State Fault Refusal :=
  withIssue (.lds h sz ma vd m) s fun x s => x.load h false sz ma vd m .rlx s

/-- STS (R194, R195). -/
def execSts (h : Hdr) (sz : BitVec 3) (ma : Bool) (vd : Reg) (m : Mem) (s : State) : Host.Outcome State Fault Refusal :=
  withIssue (.sts h sz ma vd m) s fun x s => x.store h false sz ma vd m .rlx s

/-- LDA: a single-copy atomic load with its order and scope (R196). -/
def execLda (h : Hdr) (sz : BitVec 3) (vd : Reg) (m : Mem) (s : State) : Host.Outcome State Fault Refusal :=
  withIssue (.lda h sz vd m) s fun x s => x.load h true sz false vd m m.ord s

/-- STR: a single-copy atomic store with its order and scope (R196). -/
def execStr (h : Hdr) (sz : BitVec 3) (vd : Reg) (m : Mem) (s : State) : Host.Outcome State Fault Refusal :=
  withIssue (.str h sz vd m) s fun x s => x.store h true sz false vd m m.ord s

/-- LDK: one access for the group, into a scalar register (R197). -/
def execLdk (h : Hdr) (sz : BitVec 3) (ma : Bool) (sd : Reg) (m : Mem) (s : State) : Host.Outcome State Fault Refusal :=
  withIssue (.ldk h sz ma sd m) s <| uniform h fun x s =>
    if x.waiting.isNone && x.g.full [0] false then s
    else
      let r := x.reachAll true false (fun _ => x.reachG s .read 0 (x.gAddr h m 0) (szBytes sz) ma) [0] s
      match r.fs, r.accs with
      | f :: _, _ => x.uniOpFault h (.value []) 0 (sclW (x.eff h sd) 0) f r.s
      | [], a :: _ => x.issueOp h (.loadK (x.eff h sd) sz (laneAcc 0 a)) 0 (accRegions x.r.team false r.accs) .rlx .grp
          false [] (fun _ => []) r.s
      | [], [] => r.s

/-- STK: one access for the group, of a scalar register (R197). -/
def execStk (h : Hdr) (sz : BitVec 3) (ma : Bool) (sd : Reg) (m : Mem) (s : State) : Host.Outcome State Fault Refusal :=
  withIssue (.stk h sz ma sd m) s <| uniform h fun x s =>
    if x.waiting.isNone && x.g.full [1] false then s
    else
      let n := szBytes sz
      let r := x.reachAll true true (fun _ => x.reachG s .write 0 (x.gAddr h m 0) n ma) [0] s
      match r.fs with
      | f :: _ => x.uniOpFault h (.store n []) 1 [] f r.s
      | [] => x.issueOp h (.store n (r.accs.map (laneAcc ((x.sR h sd).setWidth 128)))) 1
          (accRegions x.r.team true r.accs) .rlx .grp true [] (fun _ => []) r.s

/-- LDSB: n consecutive words of scratch into n registers of each lane (R198). -/
def execLdsb (h : Hdr) (n : BitVec 5) (vd : Reg) (m : Mem) (s : State) : Host.Outcome State Fault Refusal :=
  withIssue (.ldsb h n vd m) s fun x s =>
    let act := x.active h
    let k := n.toNat + 1
    let rd := x.eff h vd
    if act = 0 then x.pass h false s
    else if x.waiting.isNone && x.g.full [0] false then s
    else
      let r := x.reachAll true false (fun l =>
        let a := x.sAddr h m l
        if a % 4 ≠ 0 then .error (.plain l .misalign (BitVec.ofInt 64 a)) else x.reachS s .read l a (4 * k) true)
        (lanesOf act) s
      x.issueOp h (.loadBlock rd k (r.accs.map (laneAcc 0))) 0 (accRegions x.r.team false r.accs) .rlx .grp false r.fs
        (zeroRegs rd k) r.s

/-- SLDK: a doubleword of the launch's constant block, on n0 (09 R119). -/
def execSldk (h : Hdr) (sd : Reg) (b : SSrc) (s : State) : Host.Outcome State Fault Refusal :=
  withIssue (.sldk h sd b) s <| uniform h fun x s =>
    let o := x.sB h b
    match x.launch s with
    | none => s
    | some l =>
      if x.waiting.isNone && x.g.full [0] false then s
      else
        let va := l.desc.const + o
        let bad (c : Cause) (a : DWord) : Except LFault Where := .error (.plain 0 c a)
        let r := x.reachAll false false (fun _ =>
          if o.toNat % 8 ≠ 0 then bad .misalign va
          else if o.toInt < 0 ∨ (l.desc.csize : Int) < o.toInt + 8 then bad .range va
          else x.reachG s .read 0 va 8 true) [0] s
        match r.fs, r.accs with
        | f :: _, _ => x.uniOpFault h (.value []) 0 (sclW (x.eff h sd) 0) f r.s
        | [], (_, .glb _ bs) :: _ =>
          let first := BitVec.ofNat 64 (leNat ((List.range 8).map fun i => l.const0.get 0 (o.toNat + i)))
          x.issueOp h (.const (x.eff h sd) bs first) 0 [] .rlx .grp false [] (fun _ => []) r.s
        | [], _ => r.s

/-! ## Tag table and prefetch (R200, R201) -/

/-- The region of the tag table: the tag operations of a group take effect in issue order (12 R163). -/
def tagRegion : List Region := [⟨.tags, 0, 1, true⟩]

/-- LOOKUP: the entry that holds a key, or all ones (R200). -/
def execLookup (h : Hdr) (vd : Reg) (key : BSrc) (s : State) : Host.Outcome State Fault Refusal :=
  withIssue (.lookup h vd key) s fun x s =>
    let act := x.active h
    if act = 0 then x.pass h false s
    else if x.g.full [0] false then s
    else x.issueOp h (.lookup (x.eff h vd) ((lanesOf act).map fun l => (l, x.b64 h true l key))) 0 tagRegion .rlx .grp
      false [] (fun _ => []) s

/-- Writing tag entries: each lane's entry must lie below T (R200). -/
def Iss.tagWrite (x : Iss) (h : Hdr) (entry : BSrc) (key : Nat → Option DWord) (s : State) : State :=
  let act := x.active h
  let t := ((x.launch s).map (·.kern.tags)).getD 0
  if act = 0 then x.pass h false s
  else if x.waiting.isNone && x.g.full [1] false then s
  else
    let es := (lanesOf act).map fun l => (l, (x.b32 h l entry).toNat)
    let bad := es.filter fun (e : Nat × Nat) => decide (t ≤ e.2)
    x.issueOp h (.tagset ((es.filter fun (e : Nat × Nat) => decide (e.2 < t)).map fun e => (e.2, key e.1))) 1 tagRegion .rlx .grp false
      (bad.map fun e => .plain e.1 .range 0) (fun _ => []) s

/-- TAGSET: a key into an entry, V := 1 (R200). -/
def execTagset (h : Hdr) (keyS : Bool) (key : Reg) (entry : BSrc) (s : State) : Host.Outcome State Fault Refusal :=
  withIssue (.tagset h keyS key entry) s fun x s =>
    x.tagWrite h entry (fun l => some (if keyS then x.sR h key else x.g.vr64 x.sp.id (x.eff h key) l)) s

/-- TAGINV: V := 0 (R200). -/
def execTaginv (h : Hdr) (entry : BSrc) (s : State) : Host.Outcome State Fault Refusal :=
  withIssue (.taginv h entry) s fun x s => x.tagWrite h entry (fun _ => none) s

/-- Bringing the line of an address into L1 or the die cache, clean; an address that would fault, or is UC, is dropped
(R201). -/
def Iss.prefetch (x : Iss) (l1 : Bool) (va : DWord) (s : State) : State :=
  let a := va.toNat / 64 * 64
  if noncanon va.toNat then s
  else match s.transBytes x.bench x.tm.core (x.tm.ctx s) .read 0 (BitVec.ofNat 64 a) 64 with
    | .error _ => s
    | .ok bs =>
      let s := s.fillTlb x.bench x.tm.core (x.tm.ctx s) [a]
      if bs.any (·.uc) then s
      else if l1 then s.grpTouch x.tm.core bs
      else bs.foldl (fun s b =>
        let d := dieOf x.tm.core
        if (lineOf (s.die d).dc (b.pa / 64)).valid.getLsbD (b.pa % 64) then s
        else s.dieFill d b.pa (s.homeByte b.pa)) s

/-- PREF: asks for the lines of the active lanes; it counts on no counter and faults nowhere (R201). -/
def execPref (h : Hdr) (l1 : Bool) (m : Mem) (s : State) : Host.Outcome State Fault Refusal :=
  withIssue (.pref h l1 m) s fun x s =>
    x.pass h false (((lanesOf (x.active h)).map (x.gAddr h m)).dedup.foldl (fun s a => x.prefetch l1 a s) s)

end Sys2Proof.Machine
end

