-- ==== Sys2Proof/Machine/Atomics.lean ====
section
/-! DEFINITION. Class 0x9: atomics (14 R202 to R205). -/

namespace Sys2Proof.Machine

/-- The check of an atomic's global access: host memory raises PROT (R205). -/
def Iss.reachAtom (x : Iss) (s : State) (l : Nat) (va : DWord) (n : Nat) : Except LFault Where :=
  match s.checkGlob x.bench x.tm.core (x.tm.ctx s) .rmw l va n false with
  | .error e => .error e
  | .ok bs =>
    if bs.any fun b => b.pa / 2 ^ 40 = 1 then
      let lvl := match s.leaf l x.bench x.tm.core (x.tm.ctx s) va.toNat with | .ok e => e.lvl | .error _ => 0
      .error { lane := l, cause := .prot, addr := va,
               pages := [(BitVec.ofNat 64 (va.toNat / 8192 * 8192), true, lvl)], detail := BitVec.ofNat 64 lvl }
    else if bs.any fun b => s.homeBad b.pa then .error (.plain l .dataerr va)
    else .ok (.glb va bs)

/-- An atomic of the active lanes: its operand and, for compare and swap, its comparand are read at issue (R204). -/
def Iss.atomic (x : Iss) (h : Hdr) (glob : Bool) (op : Option AtomOp) (t : ElemTy) (vd : Option Reg) (m : Mem) (vc : Reg)
    (s : State) : State :=
  let act := x.active h
  let ctr := if vd.isSome then 0 else 1
  if act = 0 then x.emptyOrder h m.ord m.scope s
  else if x.waiting.isNone && x.g.full [ctr] false then s
  else
    let n := t.bits / 8
    let rd := vd.map (x.eff h)
    let r := x.reachAll false true (fun l =>
      if glob then x.reachAtom s l (x.gAddr h m l) n else x.reachS s .rmw l (x.sAddr h m l) n false) (lanesOf act) s
    let acc (p : Nat × Where) : LaneAcc :=
      { lane := p.1, at_ := p.2, data := (x.vE h t vc p.1).setWidth 128
        cmp := match vd with
          | some v => x.vE h t v p.1
          | none => 0 }
    x.issueOp h (.atomic op t rd (r.accs.map acc)) ctr (accRegions x.r.team true r.accs) m.ord m.scope false r.fs
      (fun z => match rd with
        | some d => zeroRegs d t.regs z
        | none => []) r.s

/-- The type of CAS and CASS (R202). -/
def casTy (w64 : Bool) : ElemTy := if w64 then .z64 else .z32

/-- ATOM (R203, R204). -/
def execAtom (h : Hdr) (op : AtomOp) (t : ElemTy) (vd : Reg) (m : Mem) (vc : Reg) (s : State) :
    Host.Outcome State Fault Refusal :=
  withIssue (.atom h op t vd m vc) s fun x s => x.atomic h true (some op) t (some vd) m vc s

/-- CAS (R203, R204). -/
def execCas (h : Hdr) (w64 : Bool) (vd : Reg) (m : Mem) (vc : Reg) (s : State) : Host.Outcome State Fault Refusal :=
  withIssue (.cas h w64 vd m vc) s fun x s => x.atomic h true none (casTy w64) (some vd) m vc s

/-- ATOMS (R203, R204). -/
def execAtoms (h : Hdr) (op : AtomOp) (t : ElemTy) (vd : Reg) (m : Mem) (vc : Reg) (s : State) :
    Host.Outcome State Fault Refusal :=
  withIssue (.atoms h op t vd m vc) s fun x s => x.atomic h false (some op) t (some vd) m vc s

/-- CASS (R203, R204). -/
def execCass (h : Hdr) (w64 : Bool) (vd : Reg) (m : Mem) (vc : Reg) (s : State) : Host.Outcome State Fault Refusal :=
  withIssue (.cass h w64 vd m vc) s fun x s => x.atomic h false none (casTy w64) (some vd) m vc s

/-- RED (R203, R204). -/
def execRed (h : Hdr) (op : AtomOp) (t : ElemTy) (m : Mem) (vc : Reg) (s : State) :
    Host.Outcome State Fault Refusal :=
  withIssue (.red h op t m vc) s fun x s => x.atomic h true (some op) t none m vc s

end Sys2Proof.Machine
end

