-- ==== Sys2Proof/Machine/Fences.lean ====
section
/-! DEFINITION. Class 0x9: fences (14 R206, 12 R165, R172, R173) and group barriers (14 R207), with the events that end
their holds. -/

namespace Sys2Proof.Machine

/-! ## Fences -/

/-- Issuing a fence: the split is held until its cache actions have finished (R206). -/
def Iss.fence (x : Iss) (h : Hdr) (o : Order) (sc : Scope) (s : State) : State :=
  (x.hold h (.fence o sc [] 0 x.g.nextOp) true s).pushRelease x.r

/-- FENCE (R206, R173). -/
def execFence (h : Hdr) (o : Order) (sc : Scope) (s : State) : Host.Outcome State Fault Refusal :=
  withIssue (.fence h o sc) s <| uniform h fun x s => x.fence h o sc s

/-- ACQ: an acquire fence (R173, R206). -/
def execAcq (h : Hdr) (sc : Scope) (s : State) : Host.Outcome State Fault Refusal :=
  withIssue (.acq h sc) s <| uniform h fun x s => x.fence h .acq sc s

/-- REL: a release fence (R173, R206). -/
def execRel (h : Hdr) (sc : Scope) (s : State) : Host.Outcome State Fault Refusal :=
  withIssue (.rel h sc) s <| uniform h fun x s => x.fence h .rel sc s

/-- RELEASE_DRAIN_COMPLETE: the entries older than a FIFO's oldest marker have been written back; the marker leaves
(R165). -/
def execReleaseDrainComplete (f : FifoRef) (s : State) : Host.Outcome State Fault Refusal :=
  let q := s.fifo f
  match q.dropWhile fun e => match e with | .line _ => true | .mark _ => false with
  | [] => .next s
  | m :: _ =>
    let ls := q.takeWhile (· ≠ m)
    let s := ls.foldl (fun s e => match e, f with
      | .line k, .core c => s.wbL1 c k
      | .line k, .die d => s.wbDie d k
      | .mark _, _ => s) s
    let s := match f with
      | .core c => s.modCore c fun y => { y with fifo := y.fifo.filter (· ≠ m) }
      | .die d => s.modDie d fun y => { y with fifo := y.fifo.filter (· ≠ m) }
    .next s.pushReleases

/-- FENCE_COMPLETE: a held fence's release has finished; its acquire takes effect and the split goes on in a new region
(R172, R182). -/
def execFenceComplete (r : SRef) (s : State) : Host.Outcome State Fault Refusal :=
  match s.at? r with
  | none => .next s
  | some x => match x.sp.hold with
    | .fence o sc _ _ _ =>
      if x.released s then
        let s := if acqs o then s.acquire x.tm.core sc else s
        .next ((s.passHeld r 1).bumpRegion r.team r.grp)
      else .next s
    | _ => .next s

/-! ## Group barriers (R207) -/

/-- A group's arrival with an expected count, given or that of the L = 00 form; BARMISUSE for a count out of range, one
that differs from the instance's, or an arrival too many (R207). A split that was stopped after its arrival only departs: it
waits on while its instance is open or completing, and goes on where that has completed meanwhile (R222, 26 R339). -/
def Iss.barArrive (x : Iss) (h : Hdr) (cluster : Bool) (count : Option DWord) (s : State) : State :=
  let b := s.barInst x.tm cluster
  let me := (x.r.team, x.r.grp)
  let wait (s : State) : State := x.hold h (.bar cluster b.num h.len.words) true s
  let past := match x.sp.bar with
    | some (c, i) => if c = cluster ∧ i ≠ b.num then some i else none
    | none => none
  if let some i := past then
    if (s.barDone x.tm cluster).any (·.num == i) then x.hold h (.bar cluster i h.len.words) true s else x.pass h true s
  else if b.arrived.contains me then wait s
  else
    let total := (s.barGroups x.tm cluster).length
    let c : Nat := match count with
      | some v => v.toNat
      | none => s.barLive x.tm cluster
    let bad := (count.isSome && (c == 0 || decide (total < c))) ||
      (!b.arrived.isEmpty && c != s.barExpect x.tm cluster b) || decide (c < b.arrived.length + 1)
    if bad then x.groupFault h .barmisuse 0 s
    else
      let b := { b with arrived := b.arrived ++ [me]
                        expect := if count.isSome then some c else b.expect
                        fixed := b.fixed || count.isSome }
      let s := (s.setBarInst x.tm cluster b).modG x.r fun g => { g with barAt := g.nextOp }
      ((wait s).bumpRegion x.r.team x.r.grp).closeBar x.r.team cluster

/-- BAR (R207). -/
def execBar (h : Hdr) (s : State) : Host.Outcome State Fault Refusal :=
  withIssue (.bar h) s <| uniform h fun x s => x.barArrive h false none s

/-- BAR with the expected count in sA (R207). -/
def execBarCounted (h : Hdr) (sa : Reg) (s : State) : Host.Outcome State Fault Refusal :=
  withIssue (.barCounted h sa) s <| uniform h fun x s => x.barArrive h false (some (x.sR h sa)) s

/-- CBAR (R207). -/
def execCbar (h : Hdr) (s : State) : Host.Outcome State Fault Refusal :=
  withIssue (.cbar h) s <| uniform h fun x s => x.barArrive h true none s

/-- CBAR with the expected count in sA (R207). -/
def execCbarCounted (h : Hdr) (sa : Reg) (s : State) : Host.Outcome State Fault Refusal :=
  withIssue (.cbarCounted h sa) s <| uniform h fun x s => x.barArrive h true (some (x.sR h sa)) s

/-- The splits that wait at an instance, with the length of their instructions. -/
def State.barWaiters (s : State) (tm : Team) (cluster : Bool) (inst : Nat) : List (SRef × Nat) :=
  ((s.barGroups tm cluster).filter (·.2.2)).flatMap fun p => match s.group? p.1 p.2.1 with
    | none => []
    | some g => g.splits.filterMap fun x => match x.hold with
        | .bar c i n => if c = cluster ∧ i = inst then some (⟨p.1, p.2.1, x.id⟩, n) else none
        | _ => none

/-- BAR_INSTANCE_COMPLETE: at a complete instance, once what its groups accessed before is performed, the arrivals'
releases and the departures' acquires take their cache actions (.TEAM, or .CLUS for CBAR) and the waiting splits go on
(R207, 12 R172, Table 12.4). -/
def execBarInstanceComplete (team : Nat) (cluster : Bool) (s : State) : Host.Outcome State Fault Refusal :=
  match s.team? team with
  | none => .next s
  | some tm => match s.barDone tm cluster with
    | [] => .next s
    | b :: more =>
      let ready := tm.acting && b.arrived.all fun a => match s.group? a.1 a.2 with
      | none => true
      | some g => !g.openBefore g.barAt
      if ready then
        let cores := (b.arrived.filterMap fun a => (s.team? a.1).map (·.core)).dedup
        let sc : Scope := if cluster then .clus else .team
        let ws := s.barWaiters tm cluster b.num
        let s := cores.foldl (fun s c => s.release c sc) s
        let s := cores.foldl (fun s c => s.acquire c sc) s
        let s := s.setBarDone tm cluster more
        .next (ws.foldl (fun s w => s.passHeld w.1 w.2) s)
      else .next s

end Sys2Proof.Machine
end

