-- ==== Sys2Proof/Machine/Async.lean ====
section
/-! DEFINITION. Class 0xA: copies, barrier registers and waits (14 R209 to R219), with the events that complete them. -/

namespace Sys2Proof.Machine

/-! ## Operations built at issue, by the split itself or by TRIG (R220) -/

/-- An engine operation ready to be issued. -/
structure Built where
  kind : OpKind
  ctrs : List Nat
  fp : List Region
  bn : Option Nat
  bytes : Nat

/-- Issuing a built operation whose checks found faults in some lanes; it counts once (R208, R214). It is loud, but for an
append (03 R36). -/
def Iss.issueBuilt (x : Iss) (h : Hdr) (b : Built) (fs : List LFault) (s : State)
    (zero : Word → List (Loc × DWord × DWord) := fun _ => []) (loud : Bool := true) : State :=
  match s.team? x.r.team with
  | none => s
  | some tm => match tm.group? x.r.grp with
    | none => s
    | some g =>
      let (g', op) := x.place s.now b.kind b.ctrs true b.fp b.bn b.bytes .rlx .grp g
      let s := s.modG x.r fun _ => g'
      if fs.isEmpty then x.pass h loud s else x.settleOp h op loud zero (x.itemFaults fs s)

/-! ## CPA (R214) -/

/-- The global side of a direction: source, destination. -/
def copyGlob (d : CopyDir) : Bool × Bool :=
  match d with
  | .gs => (true, false) | .sg => (false, true) | .gg => (true, true) | .ss => (false, false)

/-- An end's address: a pair on the global side, a zero-extended register on the scratch side, plus the displacement; that
the register is read as unsigned is log entry 72. -/
def Iss.cpaAddr (x : Iss) (h : Hdr) (glob : Bool) (r : Reg) (d : BitVec 16) (l : Nat) : DWord :=
  (if glob then x.g.vr64 x.sp.id (x.eff h r) l else (x.g.vr x.sp.id (x.eff h r) l).setWidth 64) + d.signExtend 64

/-- Checking both ends of a lane's copy, step by step (R214). -/
def State.checkCopy (s : State) (bench core ctx size : Nat) (dir : CopyDir) (n l : Nat) (src dst : DWord) :
    Except LFault (Where × Where) :=
  let (gs, gd) := copyGlob dir
  let ends := [(gs, src, Need.read), (gd, dst, Need.write)]
  let bad (c : Cause) (p : Bool × DWord × Need → Bool) : Option LFault := (ends.find? p).map fun e => .plain l c e.2.1
  match (bad .noncanon fun e => e.1 && (noncanon e.2.1.toNat || noncanon (e.2.1.toNat + n - 1))).orElse (fun _ =>
      (bad .misalign fun e => e.2.1.toNat % n != 0).orElse fun _ =>
      bad .range fun e => !e.1 && (decide (e.2.1.toInt < 0) || decide ((size : Int) < e.2.1.toInt + n))) with
  | some f => .error f
  | none =>
    let tr (e : Bool × DWord × Need) : Except LFault Where :=
      if e.1 then (match s.transBytes bench core ctx e.2.2 l e.2.1 n with
        | .error f => .error f
        | .ok bs => .ok (.glb e.2.1 bs))
      else .ok (.scr e.2.1.toNat n)
    match tr (gs, src, .read), tr (gd, dst, .write) with
    | .ok a, .ok b => .ok (a, b)
    | .error f, .error g => .error { f with pages := f.pages ++ g.pages }
    | .error f, .ok _ => .error f
    | .ok _, .error g => .error g

/-- The hull of some addresses of n bytes on one side (12 Table 12.6). -/
def hullOf (team : Nat) (glob wr : Bool) (as : List DWord) (n : Nat) : List Region :=
  let vs : List Int := as.map fun a => if glob then a.toNat else a.toInt
  match vs with
  | [] => []
  | v :: vs => [⟨if glob then .glob else .scratch team, vs.foldl min v, vs.foldl max v + n, wr⟩]

/-- CPA's operation: its lanes with their addresses, unchecked when TRIG fires it (R214, R219, R220). -/
def Iss.buildCpa (x : Iss) (h : Hdr) (bar : Option (BitVec 4)) (size : BitVec 2) (dir : CopyDir) (src dst : Reg)
    (ds dd : BitVec 16) (raw : Bool) (s : State) : Built × List LFault :=
  let n := 4 * 2 ^ size.toNat
  let (gs, gd) := copyGlob dir
  let ls := lanesOf (x.active h)
  let es := ls.map fun l => (l, x.cpaAddr h gs src ds l, x.cpaAddr h gd dst dd l)
  let fp := hullOf x.r.team gs false (es.map (·.2.1)) n ++ hullOf x.r.team gd true (es.map (·.2.2)) n
  let b (k : OpKind) : Built := { kind := k, ctrs := [2], fp := fp, bn := bar.map (·.toNat), bytes := n * ls.length }
  if raw then (b (.cpaRaw n dir es), [])
  else
    let cs := es.map fun e =>
      (e.1, s.checkCopy x.bench x.tm.core (x.tm.ctx s) (x.tm.scrSize s) dir n e.1 e.2.1 e.2.2)
    (b (.copy (cs.filterMap fun c => match c.2 with | .ok (p, q) => some (c.1, p, q) | .error _ => none)),
     cs.filterMap fun c => match c.2 with | .error f => some f | .ok _ => none)

/-- CPA (R214). -/
def execCpa (h : Hdr) (bar : Option (BitVec 4)) (size : BitVec 2) (dir : CopyDir) (src dst : Reg) (ds dd : BitVec 16)
    (s : State) : Host.Outcome State Fault Refusal :=
  withIssue (.cpa h bar size dir src dst ds dd) s fun x s =>
    if x.waiting.isNone && x.g.full [2] true then s
    else
      let (b, fs) := x.buildCpa h bar size dir src dst ds dd false s
      x.issueBuilt h b fs s

/-! ## TCOPY and TCOPYM (R215 to R217) -/

/-- A copy descriptor (Table 14.10): element size, extents, strides. -/
structure CopyDesc where
  esz : Nat
  ns : List Nat
  ss : List Int
  ds : List Int

/-- A little-endian field of some bytes. -/
def fieldOf (bs : List Byte) (off n : Nat) : Nat := leNat ((bs.drop off).take n)

/-- Decoding a copy descriptor; none when its fields break the limits (R215). -/
def copyDesc (bs : List Byte) : Option CopyDesc :=
  let hdr := fieldOf bs 0 4
  let rank := hdr % 8
  let esz := 2 ^ (hdr / 16 % 4)
  let ns := (List.range 6).map fun k => fieldOf bs (8 + 4 * k) 4
  let str (o : Nat) : List Int := (List.range 6).map fun k => (BitVec.ofNat 64 (fieldOf bs (o + 8 * k) 8)).toInt
  let ok := 1 ≤ rank ∧ rank ≤ 6 ∧ hdr = rank + hdr / 16 % 4 * 16 ∧ fieldOf bs 4 4 = 0 ∧ (∀ n ∈ ns, 1 ≤ n) ∧
    (∀ n ∈ ns.drop rank, n = 1) ∧ ns.foldl (· * ·) esz < 2 ^ 32
  if ok then some { esz := esz, ns := ns, ss := str 32, ds := str 80 } else none

/-- The hull of a box from a base (R216). -/
def boxHull (base : Int) (ns : List Nat) (st : List Int) (esz : Nat) : Int × Int :=
  let ext := (ns.zip st).map fun p => ((p.1 : Int) - 1) * p.2
  (base + (ext.map (min 0)).sum, base + (ext.map (max 0)).sum + esz)

/-- A base as an address: scratch bases are read as signed (R216). -/
def baseOf (glob : Bool) (a : DWord) : Int := if glob then a.toNat else a.toInt

/-- The bytes of a copy descriptor, read at issue for the group (R215, R216); its MISALIGN is found first (DESIGN CHOICE, log
entry 89). -/
def Iss.readDesc (x : Iss) (dscr : Bool) (a : DWord) (s : State) : Except LFault (List Byte) :=
  if a.toNat % 128 ≠ 0 then .error (.plain 0 .misalign a)
  else match (if dscr then x.reachS s .read 0 a.toInt 128 true else x.reachG s .read 0 a 128 true) with
    | .error f => .error f
    | .ok w => .ok (s.accRead x.tm w)

/-- The member teams of a multicast identifier; none for one that the launch did not define or that leaves the issuing
team out (R217). -/
def Iss.members (x : Iss) (s : State) (id : BitVec 4) : Option (List Nat) :=
  match x.launch s with
  | none => none
  | some l =>
    let m : BitVec 16 := l.desc.mcast.getD id.toNat 0
    if m.getLsbD x.tm.pos then
      some ((s.teams.filter fun t => t.launch = x.tm.launch ∧ t.clus = x.tm.clus ∧ m.getLsbD t.pos = true ∧
        t.st ≠ .retired).map (·.id))
    else none

/-- The operation of TCOPY, or with an identifier of TCOPYM, with its precise checks (R215 to R217); the faults of the
descriptor come before those of the identifier (DESIGN CHOICE, log entry 89). -/
def Iss.buildTcopy (x : Iss) (h : Hdr) (bar : Option (BitVec 4)) (dir : CopyDir) (dscr : Bool) (src dst : Reg)
    (desc : DescSrc) (id : Option (BitVec 4)) (s : State) : Except LFault Built :=
  let da := match desc with
    | .reg r => x.sR h r
    | .lit v => v
  let (gs, gd) := copyGlob dir
  let size : Int := x.tm.scrSize s
  let fail (c : Cause) (a : DWord) : Except LFault Built := .error (.plain 0 c a)
  match x.readDesc dscr da s with
  | .error f => .error f
  | .ok bs => match copyDesc bs, id.map (x.members s) with
    | none, _ => fail .range da
    | _, some none => fail .range da
    | some d, ms =>
      let a := x.sR h src
      let b := x.sR h dst
      let hs := boxHull (baseOf gs a) d.ns d.ss d.esz
      let hd := boxHull (baseOf gd b) d.ns d.ds d.esz
      let out (g : Bool) (q : Int × Int) : Bool := !g && (decide (q.1 < 0) || decide (size < q.2))
      let non (g : Bool) (q : Int × Int) : Bool :=
        g && (decide (q.1 < 0) || noncanonHull q.1.toNat q.2.toNat)
      if (a.toNat % d.esz ≠ 0 ∨ b.toNat % d.esz ≠ 0) ∨ (d.ss ++ d.ds).any (fun (st : Int) => st % (d.esz : Int) ≠ 0) then
        fail .misalign (if a.toNat % d.esz ≠ 0 then a else b)
      else if out gs hs || out gd hd then fail .range (if out gs hs then a else b)
      else if non gs hs || non gd hd then fail .noncanon (if non gs hs then a else b)
      else .ok {
        kind := .tcopy dir a b d.esz d.ns d.ss d.ds (match ms with | some (some l) => l | _ => [])
        ctrs := [2]
        fp := [⟨if gs then .glob else .scratch x.r.team, hs.1, hs.2, false⟩,
               ⟨if gd then .glob else .scratch x.r.team, hd.1, hd.2, true⟩]
        bn := bar.map (·.toNat), bytes := d.ns.foldl (· * ·) d.esz }

/-- Where a copy descriptor lies; nothing is read of one that cannot be reached. -/
def Iss.descRegion (x : Iss) (h : Hdr) (dscr : Bool) (desc : DescSrc) (s : State) : List Region :=
  let da := match desc with
    | .reg r => x.sR h r
    | .lit v => v
  match (if dscr then x.reachS s .read 0 da.toInt 128 true else x.reachG s .read 0 da 128 true) with
  | .ok w => w.regions x.r.team false
  | .error _ => []

/-- Issuing TCOPY or TCOPYM. -/
def Iss.tcopy (x : Iss) (h : Hdr) (bar : Option (BitVec 4)) (dir : CopyDir) (dscr : Bool) (src dst : Reg)
    (desc : DescSrc) (id : Option (BitVec 4)) (s : State) : State :=
  if x.g.full [2] true || x.mustWait (x.descRegion h dscr desc s) then s
  else match x.buildTcopy h bar dir dscr src dst desc id s with
    | .error f => x.uniFaults h ((x.uniFault f.cause f.addr f.pages).map fun e => { e with detail := f.detail }) [] s
    | .ok b => x.issueBuilt h b [] s

/-- TCOPY (R216). -/
def execTcopy (h : Hdr) (bar : Option (BitVec 4)) (dir : CopyDir) (dscr : Bool) (src dst : Reg) (desc : DescSrc)
    (s : State) : Host.Outcome State Fault Refusal :=
  withIssue (.tcopy h bar dir dscr src dst desc) s fun x s => x.tcopy h bar dir dscr src dst desc none s

/-- TCOPYM (R217). -/
def execTcopym (h : Hdr) (bar : Option (BitVec 4)) (dscr : Bool) (src dst : Reg) (desc : DescSrc) (id : BitVec 4)
    (s : State) : Host.Outcome State Fault Refusal :=
  withIssue (.tcopym h bar dscr src dst desc id) s fun x s => x.tcopy h bar .gs dscr src dst desc (some id) s

/-! ## Performing copies -/

/-- The bytes of an end as an engine operation reads them. -/
def State.engFrom (s : State) (tm : Team) : Where → List Byte
  | .scr off n => ((s.team? tm.id).getD tm).scrRead off n
  | .glb _ bs => s.engRead tm.core bs

/-- Whether an end holds uncorrectable bytes. -/
def State.engDamaged (s : State) (tm : Team) : Where → Bool
  | .scr off n => ((s.team? tm.id).getD tm).scrDamaged off n
  | .glb _ bs => s.engBad tm.core bs

/-- Writing an end as an engine operation. -/
def State.engTo (s : State) (tm : Team) (w : Where) (d : List Byte) : State :=
  match w with
  | .scr off _ => s.modTeam tm.id fun t => t.scrWrite off d
  | .glb _ bs => s.engWrite tm.core (bs.zip d)

/-- The core writes back the dirty L1 bytes that an end reads (12 R186). -/
def State.engReady (s : State) (tm : Team) : Where → State
  | .scr _ _ => s
  | .glb _ bs => s.engPrep tm.core bs

/-- An engine fault for the lanes of the operation's split (R219). -/
def opFault (o : Op) (f : LFault) (lanes : Word) : EFault :=
  { op := o, cause := f.cause, lanes := lanes, addr := f.addr, pages := f.pages, detail := f.detail, remote := false, stands := false,
    bar := none }

/-- The faults of an operation's lanes, one for each distinct cause in ascending order; the first alone makes the
operation's barrier update under IGN. Each applies to the whole split mask (R219), so a PAGE or PROT takes the pages of every
lane with either cause (26 R324). -/
def opFaults (o : Op) (fs : List LFault) : List EFault :=
  let tr (c : Cause) : Bool := c == .page || c == .prot
  let es := (sortBy Cause.code (fs.map (·.cause)).dedup).filterMap fun c =>
    ((fs.find? (·.cause = c)).map fun f => { opFault o f o.mask with
      pages := [], own := if tr c then (fs.filter fun f => tr f.cause).map fun f => (f.lane, f.pages) else [] })
  match es with
  | [] => []
  | e :: es => e :: es.map fun f => { f with stands := true }

/-- CPA's accesses: every read precedes every write, and the highest lane's bytes remain (R214). -/
def State.runCopy (s : State) (tm : Team) (o : Op) (es : List (Nat × Where × Where)) : State × List EFault :=
  let s := (s.engHull tm.core (tm.ctx s) o.fp)
  let s := es.foldl (fun s e => s.engReady tm e.2.1) s
  let bad := es.filter fun e => s.engDamaged tm e.2.1
  if bad.isEmpty then
    let ds := es.map fun e => (e.2.2, s.engFrom tm e.2.1)
    (ds.foldl (fun s d => s.engTo tm d.1 d.2) s, [])
  else (s, [opFault o (.plain 0 .dataerr ((bad.head?.map fun e => e.2.1.addr).getD 0)) (maskOf (bad.map (·.1)))])

/-- The index vectors of a box, the first index fastest (R216). -/
def indices : List Nat → List (List Nat)
  | [] => [[]]
  | n :: ns => (indices ns).flatMap fun r => (List.range n).map fun i => i :: r

/-- Σ ik·Sk. -/
def dotStride (i : List Nat) (st : List Int) : Int := ((i.zip st).map fun p => (p.1 : Int) * p.2).sum

/-- An element's end while the copy runs: scratch, or translated global bytes (R219). -/
def State.elemAt (s : State) (bench : Nat) (tm : Team) (ctx : Nat) (glob : Bool) (nd : Need) (a : Int) (n : Nat) :
    Except LFault Where :=
  if glob then (match s.transBytes bench tm.core ctx nd 0 (BitVec.ofInt 64 a) n with
    | .error f => .error f
    | .ok bs => .ok (.glb (BitVec.ofInt 64 a) bs))
  else .ok (.scr a.toNat n)

/-- TCOPY's accesses, element by element in order (R216). A fault ends the copy; of the elements before the faulting one
a free number has been written (R219, log entry 2). Where source and destination may overlap, each element takes the
source's bytes from before the copy or as they stand, which is free (log entry 2). A TCOPYM writes every member. -/
def State.runTcopy (s : State) (tm : Team) (o : Op) (bench : Nat) (dir : CopyDir) (src dst : DWord) (esz : Nat)
    (ns : List Nat) (ss ds : List Int) (members : List Nat) : State × List EFault :=
  let (gs, gd) := copyGlob dir
  let ctx := tm.ctx s
  let es := (indices ns).map fun i =>
    (s.elemAt bench tm ctx gs .read (baseOf gs src + dotStride i ss) esz,
     s.elemAt bench tm ctx gd .write (baseOf gd dst + dotStride i ds) esz)
  let good : List (Except LFault (Where × Where)) := es.map fun e => match e with
    | (.ok a, .ok b) => if s.engDamaged tm a then .error (LFault.plain 0 .dataerr a.addr) else .ok (a, b)
    | (.error f, _) => .error f
    | (_, .error f) => .error f
  let bad := good.findSome? fun e => match e with | .error f => some f | .ok _ => none
  let pre := good.takeWhile fun e => match e with | .ok _ => true | .error _ => false
  let k := if bad.isSome then (Config.freeWord s.free).toNat % (pre.length + 1) else pre.length
  let todo := (pre.take k).filterMap fun e => match e with | .ok p => some p | .error _ => none
  let s := todo.foldl (fun s p => s.engReady tm p.1) (s.engHull tm.core ctx o.fp)
  let s0 := s
  let put (s : State) (w : Where) (d : List Byte) : State := match w, members with
    | .scr off _, m :: ms => (m :: ms).foldl (fun s t => s.modTeam t fun t => t.scrWrite off d) s
    | w, _ => s.engTo tm w d
  let r := todo.foldl (fun (p : State × Nat) e =>
    let late := gs == gd && (Config.freeWord (s0.free + 1 + p.2)).getLsbD 0
    (put p.1 e.2 ((if late then p.1 else s0).engFrom tm e.1), p.2 + 1)) (s, 0)
  ({ r.1 with free := s0.free + 1 + r.2 }, match bad with
    | some f => [opFault o f o.mask]
    | none => [])

/-- COPY_COMPLETION: a CPA, TCOPY or TCOPYM performs its accesses, counts down n2 and makes its barrier update (R213 to
R219). -/
def execCopyCompletion (o : ORef) (s : State) : Host.Outcome State Fault Refusal :=
  match s.op? o with
  | none => .next s
  | some (tm, g, p) =>
    if !g.mayGo p then .next s
    else match p.kind with
      | .copy es =>
        let (s, fs) := s.runCopy tm p es
        if p.waitRetry ∧ fs.isEmpty then .next (s.modGroup o.team o.grp fun g => g.modOp p.id fun q => { q with kind := .copy [] })
        else .next (s.endEngine o.team o.grp p fs)
      | .cpaRaw n dir es =>
        let cs := es.map fun e => (e.1, s.checkCopy (o.grp % 4) tm.core (tm.ctx s) (tm.scrSize s) dir n e.1 e.2.1 e.2.2)
        let fs := cs.filterMap fun c => match c.2 with | .error f => some f | .ok _ => none
        let ok := cs.filterMap fun c => match c.2 with | .ok (a, b) => some (c.1, a, b) | .error _ => none
        if fs.isEmpty then
          let (s, fs) := s.runCopy tm p ok
          .next (s.endEngine o.team o.grp p fs)
        else .next (s.endEngine o.team o.grp p (opFaults p fs))
      | .tcopy dir src dst esz ns ss ds ms =>
        let (s, fs) := s.runTcopy tm p (o.grp % 4) dir src dst esz ns ss ds ms
        .next (s.endEngine o.team o.grp p fs)
      | _ => .next s

/-! ## Barrier registers (R210 to R212) -/

/-- The value of BINIT, BARV and BEXP (R211). -/
def Iss.barVal (x : Iss) (h : Hdr) : BarVal → Nat
  | .reg r => (x.sR h r).toNat
  | .imm w => w.toNat
  | .imm6 w => w.toNat

/-- Changing a barrier register of the team and going on. -/
def Iss.setBar (x : Iss) (h : Hdr) (n : Nat) (b : BarReg) (loud : Bool) (s : State) : State :=
  x.pass h loud (s.modTeam x.r.team fun t => t.setBar n b)

/-- BINIT; an operation in flight that names the register may be another member team's TCOPYM (R211, R217). -/
def execBinit (h : Hdr) (b : BitVec 4) (v : BarVal) (s : State) : Host.Outcome State Fault Refusal :=
  withIssue (.binit h b v) s <| uniform h fun x s =>
    let r := x.tm.bar b.toNat
    let n := x.barVal h v
    let busy := s.teams.any fun t => t.groups.any fun g => g.ops.any fun o => o.bn == some b.toNat &&
      (match o.kind with
        | .tcopy _ _ _ _ _ _ _ (m :: ms) => (m :: ms).contains x.r.team
        | _ => t.id == x.r.team)
    if r.arrm ≠ 0 ∨ r.arrb ≠ 0 ∨ r.expb ≠ 0 ∨ busy = true ∨ n < 1 ∨ 1023 < n then x.groupFault h .barmisuse 0 s
    else
      let new : BarReg := { arrb := 0, expb := 0, phase := false, arrm := 0, expm := n }
      x.setBar h b.toNat new (new != r) s

/-- BARV: an arrival with v members, a release at .TEAM once the group's earlier accesses are performed (R211, Table
12.4), and a new region (12 R182). -/
def execBarv (h : Hdr) (b : BitVec 4) (v : BarVal) (s : State) : Host.Outcome State Fault Refusal :=
  withIssue (.barv h b v) s <| uniform h fun x s =>
    let r := x.tm.bar b.toNat
    let n := x.barVal h v
    if x.g.openBefore x.g.nextOp then s
    else if r.expm = 0 ∨ n < 1 then x.groupFault h .barmisuse 0 s
    else match ({ r with arrm := r.arrm + n } : BarReg).update with
      | none => x.groupFault h .barmisuse 0 s
      | some q => (x.setBar h b.toNat q true (s.release x.tm.core .team)).bumpRegion x.r.team x.r.grp

/-- BEXP (R211). -/
def execBexp (h : Hdr) (b : BitVec 4) (v : BarVal) (s : State) : Host.Outcome State Fault Refusal :=
  withIssue (.bexp h b v) s <| uniform h fun x s =>
    let r := x.tm.bar b.toNat
    let n := x.barVal h v
    if r.expm = 0 ∨ 2 ^ 32 ≤ r.expb + n then x.groupFault h .barmisuse 0 s
    else match ({ r with expb := r.expb + n } : BarReg).update with
      | none => x.groupFault h .barmisuse 0 s
      | some q => x.setBar h b.toNat q true s

/-- The parity of BWAIT and BTEST (R212). -/
def Iss.parity (x : Iss) (h : Hdr) : ParVal → Bool
  | .reg r => (x.sR h r).getLsbD 0
  | .imm p => p

/-- The engine faults that a wait on a barrier register observes (R219). -/
def onBar (b : Nat) (f : EFault) : Bool := !f.remote && f.op.bn == some b

/-- A phase is observed as complete: an acquire at .TEAM and a new region (R212). -/
def Iss.phaseSeen (x : Iss) (s : State) : State := (s.acquire x.tm.core .team).bumpRegion x.r.team x.r.grp

/-- BWAIT: holds the split until PHASE ≠ p (R212), after the engine faults it observes (R219). -/
def execBwait (h : Hdr) (b : BitVec 4) (p : ParVal) (s : State) : Host.Outcome State Fault Refusal :=
  withIssue (.bwait h b p) s <| uniform h <| Iss.observe (onBar b.toNat) (fun x s =>
    let r := x.tm.bar b.toNat
    if r.expm = 0 then x.groupFault h .barmisuse 0 s
    else if r.phase ≠ x.parity h p then x.pass h false (x.phaseSeen s)
    else x.hold h (.bwait b.toNat (x.parity h p)) false s)

/-- BWAIT_RETURN: the phase has flipped, or an engine fault has come that the wait observes (R212, R219). -/
def execBwaitReturn (r : SRef) (s : State) : Host.Outcome State Fault Refusal :=
  match s.at? r with
  | none => .next s
  | some x => match x.sp.hold with
    | .bwait b p => .next (x.observe (onBar b) (fun x s =>
        if (x.tm.bar b).phase ≠ p then (x.phaseSeen s).passHeld r 2 else s) s)
    | _ => .next s

/-- BTEST: kD becomes all ones when PHASE ≠ p, else 0 (R212). -/
def execBtest (h : Hdr) (kd : Reg) (b : BitVec 4) (p : ParVal) (s : State) : Host.Outcome State Fault Refusal :=
  withIssue (.btest h kd b p) s <| uniform h <| Iss.observe (onBar b.toNat) (fun x s =>
    let r := x.tm.bar b.toNat
    if r.expm = 0 then x.groupFault h .barmisuse 0 s
    else
      let done := r.phase ≠ x.parity h p
      x.result (.btest h kd b p) h (maskW (x.eff h kd) 0xFFFFFFFF (if done then 0xFFFFFFFF else 0))
        (if done then x.phaseSeen s else s))

/-! ## WAITN (R209) -/

/-- WAITN's threshold. -/
def Iss.waitThr (x : Iss) (h : Hdr) : WaitThr → Nat
  | .reg r => (x.sR h r).toNat
  | .imm t => t.toNat
  | .word => 0

/-- WAITN: holds the split until the counter is at most T, then starts a new region; it raises the engine faults that it
observes (R209, R219). -/
def execWaitn (h : Hdr) (n : BitVec 8) (t : WaitThr) (s : State) : Host.Outcome State Fault Refusal :=
  withIssue (.waitn h n t) s <| uniform h fun x s =>
    let thr := x.waitThr h t
    x.observe (fun f => f.covered x.g n.toNat thr) (fun x s =>
      if x.g.ctr n.toNat ≤ thr then (x.pass h false s).bumpRegion x.r.team x.r.grp
      else x.hold h (.waitn n.toNat thr) false s) s

/-- WAITN_RETURN: the counter has fallen to the threshold, or an engine fault has come that the wait observes (R209,
R219). -/
def execWaitnReturn (r : SRef) (s : State) : Host.Outcome State Fault Refusal :=
  match s.at? r with
  | none => .next s
  | some x => match x.sp.hold with
    | .waitn n t => .next (x.observe (fun f => f.covered x.g n t) (fun x s =>
        if x.g.ctr n ≤ t then (s.passHeld r 2).bumpRegion r.team r.grp else s) s)
    | _ => .next s

/-! ## Triggered operations (R221) -/

/-- The condition of an armed operation holds. -/
def TrigWait.holds (w : TrigWait) (tm : Team) (g : Group) : Bool :=
  match w with
  | .ctr n ops t => decide (((g.ctrs.getD n []).filter fun p => ops.contains p.1).length ≤ t)
  | .bar b p => (tm.bar b).phase != p

/-- TRIGGER_FIRE: an armed operation whose condition holds is released to perform (R221). -/
def execTriggerFire (o : ORef) (s : State) : Host.Outcome State Fault Refusal :=
  match s.op? o with
  | none => .next s
  | some (tm, g, p) => match p.trig with
    | none => .next s
    | some w =>
      if w.holds tm g && tm.acting then
        .next (s.modGroup o.team o.grp fun g => g.modOp p.id fun q => { q with trig := none })
      else .next s

end Sys2Proof.Machine
end

