-- ==== Sys2Proof/Machine/Matrix.lean ====
section
/-! DEFINITION. Class 0xB: the matrix array and the accumulator tiles (16 R223 to R245), with the arithmetic of 07 R86 to
R95 and the events of the array. A synchronous form is complete when it has issued (R230); an asynchronous form is an
engine operation on n3 whose sources and vacancy are taken at issue (R224, R229). -/

namespace Sys2Proof.Machine

/-! ## Tiles (R224, R226) -/

/-- The 1,024 elements of a tile, row by row. -/
def Group.tileWords (g : Group) (a : Nat) : List Word :=
  Map.dense 0 1024 (1024 * a) (Map.range g.tiles (1024 * a) (1024 * a + 1024))

/-- Writing the elements of a tile that `cov` names, the other words of the list being as they were: an uncorrectable
element that is written is correct again (26 R326). -/
def Group.putTile (g : Group) (a : Nat) (ws : List Word) (cov : Nat → Bool := fun _ => true) : Group :=
  { g with
    tiles := Map.splice 0 g.tiles (1024 * a) (ws.take 1024)
    badRegs := g.badRegs.filter fun l => match l with
      | .a n i => !(n == a && cov i)
      | _ => true }

/-- An element of a tile that a footprint names holds an uncorrectable error (26 R326). -/
def Group.tilesBad (g : Group) (fp : List Region) : Bool :=
  g.badRegs.any fun l => match l with
    | .a n _ => fp.any fun r => decide (r.sp = .tile ∧ r.lo ≤ n ∧ (n : Int) < r.hi)
    | _ => false

/-- Setting sticky flags of a tile: bit 0 OF, bit 1 SAT (R88). -/
def Group.tileFlags (g : Group) (a : Nat) (f : BitVec 2) : Group :=
  { g with tflags := g.tflags.set 0 a (g.tflags.get 0 a ||| f) }

/-- Elements with the flags they raise. -/
abbrev Els := List (Word × BitVec 2)

/-- Computing every element (i, j) of a tile from its old value. -/
def mapTile (ws : List Word) (f : Nat → Nat → Word → Word × BitVec 2) : Els :=
  ws.zipIdx.map fun p => f (p.2 / 32) (p.2 % 32) p.1

/-- Writing computed elements and their flags. -/
def Group.putEls (g : Group) (a : Nat) (es : Els) (cov : Nat → Bool := fun _ => true) : Group :=
  (g.putTile a (es.map (·.1)) cov).tileFlags a (es.foldl (fun f e => f ||| e.2) 0)

/-- The SLAB field of a tile: the largest among its elements (Table 16.2). -/
def Group.slab (g : Group) (a : Nat) : Nat := (g.tileWords a).foldl (fun m w => max m (w.toNat / 2 ^ 24)) 0

/-- Tile regions of a footprint (12 R188). -/
def tileFp (a n : Nat) (wr : Bool) : Region := ⟨.tile, a, (a + n : Nat), wr⟩

/-- A pending asynchronous form touches the same tiles: the instruction is held (R228). -/
def Group.tilesBusy (g : Group) (fp : List Region) : Bool := g.ops.any fun o => o.fp.any fun a => fp.any a.overlaps

/-- The last pending asynchronous form that writes a tile. -/
def Group.lastOn (g : Group) (a : Nat) : Option Op :=
  g.ops.reverse.find? fun o => o.fp.any fun r => r.wr && r.overlaps (tileFp a 1 true)

/-- The slab count that a pending form will leave in a tile, where the form is on the RNS path. -/
def OpKind.slabOn : OpKind → Nat → Option Nat
  | .mma d _ _ _ _ _ _ sl, a => sl[a - d]?
  | _, _ => none

/-- The slab count of a tile, counting every earlier instruction on it, completed or not (R227); none while a pending form
of another path has still to write it. -/
def Group.slabNow (g : Group) (a : Nat) : Option Nat :=
  match g.lastOn a with
  | none => some (g.slab a)
  | some o => o.kind.slabOn a

/-! ## Operands (R224) -/

/-- The values of the elements of packed words (R74). -/
def unpackF (t : ElemTy) (ws : List Word) : List FVal :=
  ws.flatMap fun w => (List.range (32 / t.bits)).map fun i => decodeF t (w.toNat / 2 ^ (t.bits * i) % 2 ^ t.bits)

/-- The integers of the elements of packed words; S4 and Z4 are extended (R225). -/
def unpackI (t : ElemTy) (ws : List Word) : List Int :=
  ws.flatMap fun w => (List.range (32 / t.bits)).map fun i => intVal t (w.toNat / 2 ^ (t.bits * i) % 2 ^ t.bits)

/-- The registers of an operand, lane by lane; a vacant lane's are not read (R229). -/
def Iss.laneRegs (x : Iss) (base n : Nat) : List (List Word) :=
  (List.range 32).map fun l =>
    if x.g.occ.getLsbD l then (List.range n).map fun i => x.g.vr x.sp.id (base + i) l else []

/-- The format of a floating-point accumulator. -/
def accFmt : AccTy → ElemTy
  | .wide => .f32 | .f16 => .f16 | .bf16 => .bf16

/-! ## The floating-point path (07 R86, R87) -/

/-- The order key of a code, −0 just below +0. -/
def codeKey (t : ElemTy) (c : Nat) : Int :=
  if c < 2 ^ (t.bits - 1) then c else -((c : Int) - 2 ^ (t.bits - 1)) - 1
/-- The code of an order key. -/
def ofCodeKey (t : ElemTy) (k : Int) : Nat := if 0 ≤ k then k.toNat else 2 ^ (t.bits - 1) + (-k - 1).toNat

/-- A product inf × 0. -/
def invMul (a b : FVal) : Bool := (a.isInf && b.isZero) || (a.isZero && b.isInf)

/-- A sum of finite products and c, rounded once; an overflow gives ±inf with OF, or in a narrow format the largest finite
value with SAT (R87). `mag` is |c| + Σ|aᵢbᵢ|: where it is not zero the value v may be any within 2^−22 of it, and `pick`
chooses the result among those that the bound allows; a zero result is +0 (R86; log entry 4). -/
def accRound (t : ElemTy) (allNeg : Bool) (sum mag : Ex) (pick : Nat) : Word × BitVec 2 :=
  if mag.n = 0 then (BitVec.ofNat 32 (withSign t allNeg 0), 0)
  else
    let b := mag.mul (.pow2 (-22))
    let lo := codeKey t (roundTo t .rn false false false (sum.add b.neg)).bits
    let hi := codeKey t (roundTo t .rn false false false (sum.add b)).bits
    let k := codeKey t (pick % 2 ^ t.bits)
    let c := ofCodeKey t (if k < lo then lo else if hi < k then hi else k)
    let neg := decide (2 ^ (t.bits - 1) ≤ c)
    if c % 2 ^ (t.bits - 1) = infCode t then
      if t = .f32 then (BitVec.ofNat 32 c, 1) else (BitVec.ofNat 32 (withSign t neg (maxCode t)), 2)
    else if c % 2 ^ (t.bits - 1) = 0 then (0, 0)
    else (BitVec.ofNat 32 c, 0)

/-- One element of C after a floating-point matrix instruction (R86, R87): c and the pairs of factors, and whether its row
or column holds a NaN. -/
def accElem (t : ElemTy) (c : Word) (nan : Bool) (ps : List (FVal × FVal)) (pick : Nat) : Word × BitVec 2 :=
  let cv := decodeF t (c.toNat % 2 ^ t.bits)
  let infs := (ps.filter fun p => p.1.isInf || p.2.isInf).map (fun p => p.1.neg != p.2.neg) ++
    (if cv.isInf then [cv.neg] else [])
  if nan || cv.isNan || (ps.any fun p => invMul p.1 p.2) || (infs.contains true && infs.contains false) then
    (BitVec.ofNat 32 (nanCode t), 0)
  else match infs with
    | n :: _ => (BitVec.ofNat 32 (withSign t n (infCode t)), 0)
    | [] =>
      let qs := ps.map fun p => p.1.ex.mul p.2.ex
      let allNeg := cv.neg && ps.all fun p => p.1.neg != p.2.neg
      accRound t allNeg (qs.foldl Ex.add cv.ex) ((qs.map Ex.abs).foldl Ex.add cv.ex.abs) pick

/-- Adding an integer sum to the residues of an RX3 word, and setting its SLAB field (R89, R227). -/
def rnsElem (c : Word) (s : Int) (slab : Nat) : Word :=
  let r (f m : Nat) : Nat := (((c.toNat / f % 256 : Nat) + s) % (m : Int)).toNat
  BitVec.ofNat 32 (slab * 2 ^ 24 + r (2 ^ 16) 253 * 2 ^ 16 + r (2 ^ 8) 255 * 2 ^ 8 + r 1 256)

/-- C := C + A·B on one tile (R232): rows and columns with their occupancies, the slab count, and the first of the free
values for the elements. -/
def mmaTile (ta tb : ElemTy) (tc : AccTy) (rows : List (List Word)) (rocc : Word) (cols : List (List Word)) (cocc : Word)
    (slab : Option Nat) (free : Nat) (ws : List Word) : Els :=
  match slab with
  | some sl =>
    let a := rows.map (unpackI ta)
    let b := cols.map (unpackI tb)
    mapTile ws fun i j w =>
      let s : Int := if rocc.getLsbD i && cocc.getLsbD j then
          (((a.getD i []).zip (b.getD j [])).map fun p => p.1 * p.2).sum
        else 0
      if rocc.getLsbD i && cocc.getLsbD j then (rnsElem w s sl, 0)
      else ((w &&& 0xFFFFFF) ||| BitVec.ofNat 32 (sl * 2 ^ 24), 0)
  | none =>
    let a := (rows.map (unpackF ta)).map fun r => (r, r.any (·.isNan))
    let b := (cols.map (unpackF tb)).map fun r => (r, r.any (·.isNan))
    mapTile ws fun i j w =>
      if rocc.getLsbD i && cocc.getLsbD j then
        let r := a.getD i ([], false)
        let c := b.getD j ([], false)
        accElem (accFmt tc) w (r.2 || c.2) (r.1.zip c.1) (Config.freeWord (free + 32 * i + j)).toNat
      else (w, 0)

/-- C := C + A·B on the tiles of MMA or MMAQ: tile d + t takes the columns of member t. -/
def Group.runMma (g : Group) (d : Nat) (ta tb : ElemTy) (tc : AccTy) (rows : List (List Word)) (occ : Word)
    (cols : List (List (List Word) × Word)) (slabs : List Nat) (free : Nat) : Group :=
  cols.zipIdx.foldl (fun g c =>
    g.putEls (d + c.2) (mmaTile ta tb tc rows occ c.1.1 c.1.2 slabs[c.2]? (free + 1024 * c.2) (g.tileWords (d + c.2)))) g

/-! ## Issuing -/

/-- A synchronous form completes: its tiles are interlocked (R228), so the next instruction finds them. -/
def Iss.tileDone (x : Iss) (h : Hdr) (f : Group → Group) (s : State) : State :=
  s.modG x.r fun g => ((f g).consume s.now x.sp.id h.st.toNat true).move s.now x.sp.id (x.next h) .seq

/-- An asynchronous form queues on its bench's array, in the order of issue (R228, Table 16.3). -/
def State.queueMat (s : State) (core : Nat) (o : ORef) (cc lat : Nat) : State :=
  s.modCore core fun c => { c with
    matq := c.matq ++ [{ bench := o.grp % 4, team := o.team, grp := o.grp, op := o.op, cc := cc, lat := lat, started := none }] }

/-- Issuing an asynchronous form: it counts once on n3 and enters the checker (R228). -/
def Iss.issueMat (x : Iss) (h : Hdr) (kind : OpKind) (fp : List Region) (cc lat : Nat) (s : State) : State :=
  if x.g.full [3] true then s
  else
    (x.issueBuilt h { kind := kind, ctrs := [3], fp := fp, bn := none, bytes := 0 } [] s).queueMat x.tm.core
      ⟨x.r.team, x.r.grp, x.g.nextOp⟩ cc lat

/-- The slab weight of a pair of types (R90). -/
def slabWeight (ta tb : ElemTy) : Nat := (if ta.signed then 1 else 2) * (if tb.signed then 1 else 2)

/-- What R227 finds at issue for some tiles: the new counts, an overflow, or that a pending form has still to write one. -/
inductive Slabs where
  | none | ok (l : List Nat) | over | wait
  deriving DecidableEq, Repr

/-- The slab check of R227 over the destination tiles. -/
def Group.slabCheck (g : Group) (ta tb : ElemTy) (d n : Nat) : Slabs :=
  if ta.isFloat then .none
  else
    let cs := (List.range n).map fun t => g.slabNow (d + t)
    if cs.any (·.isNone) then .wait
    else
      let ns := cs.map fun c => c.getD 0 + slabWeight ta tb
      if ns.any fun n => decide (5 < n) then .over else .ok ns

/-- The counts that a check allows. -/
def Slabs.list : Slabs → List Nat
  | .ok l => l
  | _ => []

/-- MMA (R231, R232). -/
def execMma (h : Hdr) (async : Bool) (ta tb : ElemTy) (tc : AccTy) (ad va vb : Reg) (s : State) :
    Host.Outcome State Fault Refusal :=
  withIssue (.mma h async ta tb tc ad va vb) s fun x s =>
    let d := x.eff h ad
    match x.g.slabCheck ta tb d 1 with
    | .wait => s
    | .over => x.groupFault h .rnsovf 0 s
    | sl =>
      let rows := x.laneRegs (x.eff h va) (matRegs ta)
      let cols := [(x.laneRegs (x.eff h vb) (matRegs tb), x.g.occ)]
      let fp := [tileFp d 1 true]
      if async then x.issueMat h (.mma d ta tb tc rows x.g.occ cols sl.list) fp 16 20 s
      else if x.g.tilesBusy fp then s
      else { x.tileDone h (·.runMma d ta tb tc rows x.g.occ cols sl.list s.free) s with free := s.free + 1024 }

/-! ## MMAQ (R233, R234) -/

/-- The arrivals of a quartet at an instance. -/
def Team.quartet (t : Team) (q inst : Nat) : List QuartArr :=
  (t.quartArr.filter fun a => a.1 = q ∧ a.2.1 = inst).map (·.2.2)

/-- MMAQ: after the team-size check and the slab check the group arrives at the next instance of its quartet and is held;
an arrival beside a member that has retired takes QUARTET (R233, R234). -/
def execMmaq (h : Hdr) (async : Bool) (ta tb : ElemTy) (tc : AccTy) (ad va vb : Reg) (s : State) :
    Host.Outcome State Fault Refusal :=
  withIssue (.mmaq h async ta tb tc ad va vb) s fun x s =>
    let d := x.eff h ad
    let q := x.r.grp / 4
    let fp := [tileFp d 4 true]
    if x.tm.groups.length % 4 ≠ 0 then x.groupFault h .quartet 0 s
    else match x.g.slabCheck ta tb d 4 with
    | .wait => s
    | .over => x.groupFault h .rnsovf 0 s
    | _ =>
      if (async && x.g.full [3] true) || (!async && x.g.tilesBusy fp) then s
      else
        let n := x.g.mmaqs
        let s := s.modG x.r fun g => { g with mmaqs := n + 1 }
        if x.tm.groups.any fun g => g.grp / 4 == q && !g.live then x.groupFault h .quartet 0 s
        else
          let rows := x.laneRegs (x.eff h va) (matRegs ta)
          let cols := x.laneRegs (x.eff h vb) (matRegs tb)
          let op := if async then some x.g.nextOp else none
          let s := if async then s.modG x.r fun g =>
              x.addOp s.now (.mma d ta tb tc rows x.g.occ [] ((g.slabCheck ta tb d 4).list)) [3] true fp none 0 none g
            else s
          let a : QuartArr := { grp := x.r.grp, split := x.sp.id, async := async, ta := ta, tb := tb, tc := tc, d := d,
                                rows := rows, cols := cols, occ := x.g.occ, op := op }
          x.hold h (.mmaq n) true (s.modTeam x.r.team fun t => { t with quartArr := t.quartArr ++ [(q, n, a)] })

/-- A member whose instance fails takes QUARTET at its MMAQ, without its count (R234). -/
def State.failQuart (s : State) (t : Nat) (a : QuartArr) : State :=
  let s := s.modGroup t a.grp fun g => match a.op with
    | some o => g.opDone o
    | none => g
  let r : SRef := ⟨t, a.grp, a.split⟩
  match s.at? r with
  | none => s
  | some x =>
    let s := s.modSplit r fun y => { y with hold := .run }
    x.groupFault ⟨.w2, 0, 0, false, 0⟩ .quartet 0 s

/-- A member's operation takes its place on its bench's array: an asynchronous one is queued, a synchronous one is
complete and its split passes (R228, R230, R233). -/
def State.passQuart (s : State) (t core : Nat) (cols : List (List (List Word) × Word)) (a : QuartArr) : State :=
  let r : SRef := ⟨t, a.grp, a.split⟩
  match a.op with
  | some o =>
    let s := s.modGroup t a.grp fun g => g.modOp o fun p => match p.kind with
      | .mma d ta tb tc rows occ _ sl => { p with kind := .mma d ta tb tc rows occ cols sl }
      | _ => p
    (s.queueMat core ⟨t, a.grp, o⟩ 64 68).passHeld r 2
  | none =>
    let s := { s.modGroup t a.grp (fun g => g.runMma a.d a.ta a.tb a.tc a.rows a.occ cols
      ((g.slabCheck a.ta a.tb a.d 4).list) s.free) with free := s.free + 4096 }
    s.passHeld r 2

/-- QUARTET_RENDEZVOUS: the fourth member has arrived, and every member's operation is queued; members whose SUB or C
differ, or beside a member that has retired, take QUARTET (R233, R234). -/
def execQuartetRendezvous (team quartet : Nat) (s : State) : Host.Outcome State Fault Refusal :=
  match s.team? team with
  | none => .next s
  | some tm =>
    let insts := (tm.quartArr.filter (·.1 = quartet)).map (·.2.1)
    match insts with
    | [] => .next s
    | i :: is =>
      let n := is.foldl min i
      let as := sortBy (·.grp) (tm.quartet quartet n)
      let s' := s.modTeam team fun t => { t with quartArr := t.quartArr.filter fun a => !(a.1 = quartet ∧ a.2.1 = n) }
      let gone := tm.groups.any fun g => g.grp / 4 == quartet && !g.live
      let same := match as with
        | [] => true
        | a :: as => as.all fun b => (b.async, b.ta, b.tb, b.tc) == (a.async, a.ta, a.tb, a.tc)
      if gone then .next (as.foldl (fun s a => s.failQuart team a) s')
      else if as.length < 4 then .next s
      else if same then
        .next (as.foldl (fun s a => s.passQuart team tm.core (as.map fun b => (b.cols, b.occ)) a) s')
      else .next (as.foldl (fun s a => s.failQuart team a) s')

/-! ## MMV (R235, R236) -/

/-- The bytes of a row of MMV: K elements, K by the vector type. -/
def mmvBytes (tw tv : ElemTy) : Nat := 32 * 96 * 8 / tv.bits * tw.bits / 8

/-- MMV: its checks, and the operation on n3 with the vectors captured (R235, R236). -/
def execMmv (h : Hdr) (tw tv : ElemTy) (tc : AccTy) (ad vx : Reg) (sw ss : BitVec 8) (nr : BitVec 7) (nv : BitVec 3)
    (s : State) : Host.Outcome State Fault Refusal :=
  withIssue (.mmv h tw tv tc ad vx sw ss nr nv) s fun x s =>
    let d := x.eff h ad
    let w := x.sR h (.plain sw)
    let st := x.sR h (.plain ss)
    let hi := w.toNat + nr.toNat * st.toNat + mmvBytes tw tv
    if w.toNat % 16 ≠ 0 ∨ st.toNat % 16 ≠ 0 then x.uniFaults h (x.uniFault .misalign w []) [] s
    else if noncanonHull w.toNat hi then x.uniFaults h (x.uniFault .noncanon w []) [] s
    else
      let xs := (List.range (nv.toNat + 1)).map fun v => x.laneRegs (x.eff h vx + 24 * v) 24
      x.issueMat h (.mmv d tw tv tc w st (nr.toNat + 1) xs x.g.occ)
        [tileFp d 1 true, ⟨.glob, w.toNat, hi, false⟩] 16 16 s

/-- The words of little-endian bytes. -/
def wordsOf : List Byte → List Word
  | a :: b :: c :: d :: l => BitVec.ofNat 32 (leNat [a, b, c, d]) :: wordsOf l
  | _ => []

/-- MMV's elements: rows and vectors as factor lists of the lanes that were occupied (R236). -/
def mmvTile (tw tv : ElemTy) (tc : AccTy) (rows : List (List Byte)) (xs : List (List (List Word))) (occ : Word)
    (free : Nat) (ws : List Word) : Els :=
  let e := 96 * 8 / tv.bits
  let lanes := lanesOf occ
  let rv := rows.map fun r =>
    let f := unpackF tw (wordsOf r)
    lanes.flatMap fun l => (f.drop (e * l)).take e
  let xv := xs.map fun v => lanes.flatMap fun l => unpackF tv (v.getD l [])
  mapTile ws fun i j w =>
    let r := 32 * (j / 8) + i
    let v := j % 8
    if r < rows.length ∧ v < xs.length then
      let a := rv.getD r []
      let b := xv.getD v []
      accElem (accFmt tc) w (a.any (·.isNan) || b.any (·.isNan)) (a.zip b) (Config.freeWord (free + 32 * i + j)).toNat
    else (w, 0)

/-- Streaming MMV's rows through the die caches; a translation fault or an uncorrectable error ends it (R236). -/
def State.mmvRows (s : State) (tm : Team) (bench : Nat) (w st : DWord) (nr n : Nat) :
    State × Except LFault (List (List Byte)) :=
  let rs := (List.range nr).map fun r =>
    let a := w + BitVec.ofNat 64 (r * st.toNat)
    match s.transBytes bench tm.core (tm.ctx s) .read 0 a n with
    | .error f => (Except.error f : Except LFault Where)
    | .ok bs => .ok (.glb a bs)
  let fs := rs.filterMap fun r => match r with | .error f => some f | .ok _ => none
  let ok := rs.filterMap fun r => match r with | .ok w => some w | .error _ => none
  match fs with
  | f :: fs => (s, .error { f with pages := f.pages ++ fs.flatMap (·.pages) })
  | [] =>
    let s := ok.foldl (fun s w => s.engReady tm w) s
    match ok.find? (s.engDamaged tm ·) with
    | some w => (s, .error (.plain 0 .dataerr w.addr))
    | none => (s, .ok (ok.map (s.engFrom tm ·)))

/-! ## Table lookup (R237 to R239) -/

/-- MLUTB's tables of one row: 24 tables of 16 sums of four activations (R238). -/
def lutRow (a : List Int) : List Int :=
  (List.range 384).map fun e =>
    let m := e % 16
    let q := (a.drop (4 * (e / 16))).take 4
    ((List.range 4).map fun b => if m.testBit b then q.getD b 0 else 0).sum

/-- Two S16 values packed in a word. -/
def pack16 (lo hi : Int) : Word := BitVec.ofInt 16 hi ++ BitVec.ofInt 16 lo

/-- MLUTB (R238). -/
def execMlutb (h : Hdr) (ad va : Reg) (s : State) : Host.Outcome State Fault Refusal :=
  withIssue (.mlutb h ad va) s fun x s =>
    let d := x.eff h ad
    if x.g.tilesBusy [tileFp d 6 true] then s
    else
      let rows := (x.laneRegs (x.eff h va) 24).map fun r => lutRow (unpackI .s8 r)
      x.tileDone h (fun g => (List.range 6).foldl (fun g t =>
        g.putEls (d + t) (mapTile (g.tileWords (d + t)) fun i j w =>
          if x.g.occ.getLsbD i then
            let r := rows.getD i []
            (pack16 (r.getD (64 * t + 2 * j) 0) (r.getD (64 * t + 2 * j + 1) 0), 0)
          else (w, 0)) fun e => x.g.occ.getLsbD (e / 32)) g) s

/-- The S16 entries of the tables of every row (R238). -/
def Group.lutTables (g : Group) (a : Nat) : List (List Int) :=
  let ts := (List.range 6).map fun t => g.tileWords (a + t)
  (List.range 32).map fun i => ts.flatMap fun ws => ((ws.drop (32 * i)).take 32).flatMap fun w =>
    [(w.setWidth 16).toInt, (w.extractLsb' 16 16).toInt]

/-- Bits 4g to 4g + 3 of a plane of three registers. -/
def nibble (p : List Word) (g : Nat) : Nat := (p.getD (g / 8) 0).toNat / 2 ^ (4 * (g % 8)) % 16

/-- The sum that MLUT adds to an element (R239): the tables of its row and the planes of its column. -/
def lutSum (m : LutMode) (t : List Int) (p : List Word) : Int :=
  ((List.range 24).map fun g =>
    let v (k : Nat) : Int := t.getD (16 * g + k) 0
    let m0 := nibble p g
    let m1 := nibble (p.drop 3) g
    match m with
    | .b1 => v m0
    | .b1pm => 2 * v m0 - v 15
    | .b2 => v m0 + 2 * v m1
    | .b2s => v m0 - 2 * v m1).sum

/-- MLUT's effect (R239). -/
def Group.runMlut (g : Group) (m : LutMode) (d a : Nat) (planes : List (List Word)) (occ : Word) : Group :=
  let ts := g.lutTables a
  g.putEls d (mapTile (g.tileWords d) fun i j w =>
    if occ.getLsbD i && occ.getLsbD j then (w + BitVec.ofInt 32 (lutSum m (ts.getD i []) (planes.getD j [])), 0) else (w, 0))

/-- MLUT (R239). -/
def execMlut (h : Hdr) (m : LutMode) (async : Bool) (ad aa vb : Reg) (s : State) : Host.Outcome State Fault Refusal :=
  withIssue (.mlut h m async ad aa vb) s fun x s =>
    let d := x.eff h ad
    let a := x.eff h aa
    let two := match m with
      | .b1 | .b1pm => false
      | .b2 | .b2s => true
    let planes := x.laneRegs (x.eff h vb) (if two then 6 else 3)
    let fp := [tileFp d 1 true, tileFp a 6 false]
    if async then x.issueMat h (.mlut m d a planes x.g.occ) fp (if two then 8 else 4) (if two then 12 else 8) s
    else if x.g.tilesBusy fp then s
    else x.tileDone h (·.runMlut m d a planes x.g.occ) s

/-! ## The array (R228) -/

/-- An operation may start: it has met its rendezvous, and the checker lets it go. -/
def Op.matReady (o : Op) : Bool := o.free && match o.kind with
  | .mma _ _ _ _ _ _ cols _ => !cols.isEmpty
  | _ => true

/-- The power island of a core: 32 cores on each of islands 0 to 11 (01 Table 1.4, 30 R376). -/
def islandOf (core : Nat) : Nat := core / 32

/-- MATRIX_OP_START: the oldest operation queued on a bench's array starts when the array is free; on an island whose
grant is below its demand the start is delayed, how long being free (R228, log entry 2). -/
def execMatrixOpStart (core bench : Nat) (s : State) : Host.Outcome State Fault Refusal :=
  let c := s.core core
  let live (q : MatQ) : Bool := ((s.op? ⟨q.team, q.grp, q.op⟩).map fun _ => true).getD false
  let s := s.modCore core fun c => { c with matq := c.matq.filter live }
  match (c.matq.filter live).find? fun q => q.bench == bench && q.started.isNone with
  | none => .next s
  | some q =>
    match s.op? ⟨q.team, q.grp, q.op⟩ with
    | none => .next s
    | some (_, _, p) =>
      if !p.matReady || decide (s.now < c.matFree.getD bench 0) then .next s
      else if s.grants.getD (islandOf core) 0 < s.demand.getD (islandOf core) 0 ∧ (Config.freeWord s.free).getLsbD 0 then
        .next { s with free := s.free + 1 }
      else .next ({ s with free := s.free + 1 }.modCore core fun c => { c with
        matFree := c.matFree.set bench (s.now + q.cc)
        matq := c.matq.map fun y => if y = q then { y with started := some s.now } else y })

/-- MATRIX_ASYNC_COMPLETION: a started asynchronous form writes its tiles and counts down n3; MMV that meets a fault while
streaming leaves its tile unchanged (R228, R236), and so does a form one of whose tiles holds an uncorrectable error (26
R326). -/
def execMatrixAsyncCompletion (o : ORef) (s : State) : Host.Outcome State Fault Refusal :=
  match s.op? o with
  | none => .next s
  | some (tm, _, p) =>
    match (s.core tm.core).matq.find? fun q => q.team == o.team && q.grp == o.grp && q.op == o.op with
    | none => .next s
    | some q =>
      let due := match q.started with
        | none => false
        | some t => decide (t + q.lat ≤ s.now)
      if !due then .next s
      else
        let s := s.modCore tm.core fun c => { c with matq := c.matq.filter (· ≠ q) }
        let put (s : State) (n : Nat) (f : Group → Group) : State :=
          { s.modGroup o.team o.grp (fun g => if g.live then f g else g) with free := s.free + n }
        if ((s.group? o.team o.grp).map fun g => g.tilesBad p.fp).getD false then
          .next (s.endEngine o.team o.grp p [opFault p (.plain 0 .dataerr 0) p.mask])
        else match p.kind with
        | .mma d ta tb tc rows occ cols sl =>
          .next ((put s 4096 fun g => g.runMma d ta tb tc rows occ cols sl s.free).endEngine o.team o.grp p [])
        | .mlut m d a planes occ => .next ((put s 0 (·.runMlut m d a planes occ)).endEngine o.team o.grp p [])
        | .mmv d tw tv tc w st nr xs occ =>
          (match (s.engHull tm.core (tm.ctx s) p.fp).mmvRows tm (o.grp % 4) w st nr (mmvBytes tw tv) with
          | (s, .ok rows) =>
            .next ((put s 1024 fun g => g.putEls d (mmvTile tw tv tc rows xs occ s.free (g.tileWords d))).endEngine
              o.team o.grp p [])
          | (s, .error f) => .next (s.endEngine o.team o.grp p [opFault p f p.mask]))
        | _ => .next s

/-! ## Tile instructions (R240 to R245) -/

/-- RCVT (R241): the residues are read as R92 gives and reconstructed as R91 gives. -/
def execRcvt (h : Hdr) (ad aa : Reg) (s : State) : Host.Outcome State Fault Refusal :=
  withIssue (.rcvt h ad aa) s fun x s =>
    let d := x.eff h ad
    let a := x.eff h aa
    if x.g.tilesBusy [tileFp d 1 true, tileFp a 1 false] then s
    else x.tileDone h (fun g => g.putTile d ((g.tileWords a).map fun w => BitVec.ofInt 32 (rx3Val w.toNat))) s

/-- One element of SCACC (07 R95): a + sA × sB × p, rounded once; zeros have the signs of R86. -/
def scaccElem (a sa sb p : FVal) : Word × BitVec 2 :=
  let fs := [sa, sb, p]
  let inf := fs.any (·.isInf)
  let neg := (sa.neg != sb.neg) != p.neg
  if a.isNan || fs.any (·.isNan) || (inf && fs.any (·.isZero)) || (inf && a.isInf && a.neg != neg) then
    (BitVec.ofNat 32 (nanCode .f32), 0)
  else if inf then (BitVec.ofNat 32 (withSign .f32 neg (infCode .f32)), 0)
  else if a.isInf then (BitVec.ofNat 32 (withSign .f32 a.neg (infCode .f32)), 0)
  else
    let pr := (sa.ex.mul sb.ex).mul p.ex
    let r := (roundTo .f32 .rn false false (pr.n = 0 && neg && a.isZero && a.neg) (a.ex.add pr)).bits
    (BitVec.ofNat 32 r, if r % 2 ^ 31 = infCode .f32 then 1 else 0)

/-- SCACC (R242). -/
def execScacc (h : Hdr) (tp : ElemTy) (ad aa vb vc : Reg) (s : State) : Host.Outcome State Fault Refusal :=
  withIssue (.scacc h tp ad aa vb vc) s fun x s =>
    let d := x.eff h ad
    let a := x.eff h aa
    if x.g.tilesBusy [tileFp d 1 true, tileFp a 1 false] then s
    else
      let v (r : Reg) : List FVal := (List.range 32).map fun l => decodeF .f32 (x.g.vr x.sp.id (x.eff h r) l).toNat
      let sa := v vb
      let sb := v vc
      let val (w : Word) : FVal :=
        if tp = .f32 then decodeF .f32 w.toNat else .fin (decide (w.toInt < 0)) w.toInt.natAbs 0
      x.tileDone h (fun g =>
        let p := g.tileWords a
        g.putEls d ((mapTile (g.tileWords d) fun _ _ w => (w, 0)).zip p |>.zipIdx.map fun e =>
          let i := e.2 / 32
          let j := e.2 % 32
          if x.g.occ.getLsbD i && x.g.occ.getLsbD j then
            scaccElem (decodeF .f32 e.1.1.1.toNat) (sa.getD i .one) (sb.getD j .one) (val e.1.2)
          else e.1.1)) s

/-- ACCZ (R243): every element, OF, SAT and SLAB become 0. -/
def execAccz (h : Hdr) (ad : Reg) (s : State) : Host.Outcome State Fault Refusal :=
  withIssue (.accz h ad) s fun x s =>
    let d := x.eff h ad
    if x.g.tilesBusy [tileFp d 1 true] then s
    else x.tileDone h (fun g => { g.putTile d (List.replicate 1024 0) with tflags := g.tflags.set 0 d 0 }) s

/-- ACCRD (R243). -/
def execAccrd (h : Hdr) (n : BitVec 5) (vd aa : Reg) (c : BitVec 8) (s : State) : Host.Outcome State Fault Refusal :=
  withIssue (.accrd h n vd aa c) s fun x s =>
    let a := x.eff h aa
    if x.g.tilesBusy [tileFp a 1 false] then s
    else
      let ws := x.g.tileWords a
      let out := (List.range (n.toNat + 1)).flatMap fun t =>
        vecW (x.eff h vd + t) x.g.occ fun i => ws.getD (32 * i + c.toNat + t) 0
      x.tileDone h (fun g => out.foldl (fun g w => g.writeNow w.1 w.2.1 w.2.2) g) s

/-- ACCWR (R243): the words as they stand, SLAB bits included. -/
def execAccwr (h : Hdr) (n : BitVec 5) (ad vb : Reg) (c : BitVec 8) (s : State) : Host.Outcome State Fault Refusal :=
  withIssue (.accwr h n ad vb c) s fun x s =>
    let d := x.eff h ad
    if x.g.tilesBusy [tileFp d 1 true] then s
    else
      let src := x.laneRegs (x.eff h vb) (n.toNat + 1)
      x.tileDone h (fun g => g.putEls d (mapTile (g.tileWords d) fun i j w =>
        if x.g.occ.getLsbD i ∧ c.toNat ≤ j ∧ j ≤ c.toNat + n.toNat then
          ((src.getD i []).getD (j - c.toNat) 0, 0)
        else (w, 0)) fun e =>
          x.g.occ.getLsbD (e / 32) && decide (c.toNat ≤ e % 32 ∧ e % 32 ≤ c.toNat + n.toNat)) s

/-- A whole-tile move: its checks (R244), the race records as a plain scratch access, and its effect. DESIGN CHOICE (log entry
88): its 1,024 element accesses are performed in one step. -/
def Iss.tileMove (x : Iss) (h : Hdr) (d : Nat) (sa : Reg) (st : Bool) (go : Nat → State → State) (s : State) : State :=
  let a := x.sR h sa
  if x.g.tilesBusy [tileFp d 1 (!st)] then s
  else if a.toInt % 4 ≠ 0 then x.uniFaults h (x.uniFault .misalign a []) [] s
  else if a.toInt < 0 ∨ (x.tm.scrSize s : Int) < a.toInt + 4096 then x.uniFaults h (x.uniFault .range a []) [] s
  else
    let w : Where := .scr a.toNat 4096
    if x.mustWait (w.regions x.r.team st) st then s
    else if !st && x.tm.scrDamaged a.toNat 4096 then x.uniFaults h (x.uniFault .dataerr a []) [] s
    else match x.raceHit s w st with
      | some (r, i) =>
        x.uniFaults h ((x.uniFault .memrace a []).map fun e => { e with detail := (x.raceFault s 0 a r i).detail }) [] s
      | none => go a.toNat (x.raceNote s w st)

/-- ACCLD (R244). -/
def execAccld (h : Hdr) (ad sa : Reg) (s : State) : Host.Outcome State Fault Refusal :=
  withIssue (.accld h ad sa) s fun x s =>
    let d := x.eff h ad
    x.tileMove h d sa false (fun a s => x.tileDone h (·.putTile d (wordsOf (x.tm.scrRead a 4096))) s) s

/-- ACCST (R244). -/
def execAccst (h : Hdr) (ad sa : Reg) (s : State) : Host.Outcome State Fault Refusal :=
  withIssue (.accst h ad sa) s fun x s =>
    let d := x.eff h ad
    x.tileMove h d sa true (fun a s => x.tileDone h id
      (s.modTeam x.r.team fun t => t.scrWrite a ((x.g.tileWords d).flatMap fun w => natLe 4 w.toNat))) s

/-- ACCSTAT (R245): the status of a tile; with .CLR its OF and SAT are cleared after they are read. -/
def execAccstat (h : Hdr) (clr : Bool) (sd aa : Reg) (s : State) : Host.Outcome State Fault Refusal :=
  withIssue (.accstat h clr sd aa) s fun x s =>
    let a := x.eff h aa
    if x.g.tilesBusy [tileFp a 1 true] then s
    else
      let v : DWord := BitVec.ofNat 64 (x.g.slab a * 256 + (x.g.tflags.get 0 a).toNat)
      x.tileDone h (fun g =>
        let g := if clr then { g with tflags := g.tflags.set 0 a 0 } else g
        g.writeNow (.s (x.eff h sd)) ones v) s

end Sys2Proof.Machine
end

