-- ==== Sys2Proof/Machine/Gather.lean ====
section
/-! DEFINITION. Class 0xC, gather and scatter (18): tensor handles, row placement, per-index faults, pooling, the scatter
combiner and the home engines' updates, GSTAT and HDESC, with the events of a request's path. -/

namespace Sys2Proof.Machine

/-! ## Tensor handles (R246 to R248) -/

/-- The bytes of an entry of the context's handle table, as the team took it when it last started or resumed (R246). -/
def Team.handleBytes (t : Team) (i : Nat) : List Byte := (List.range 64).map fun j => t.handles.get 0 (64 * i + j)

/-- The largest local row of a handle (R247, R248). -/
def maxLocal (shard nrows pkgn : Nat) : Nat :=
  if shard = 0 then (nrows + pkgn - 1) / pkgn - 1 else if shard = 1 then (nrows - 1) / pkgn else nrows - 1

/-- Decoding an entry; it is unbound when V = 0 or a condition of R247 holds (Table 18.1). -/
def handleOf (bs : List Byte) : Handle :=
  let ctl := fieldOf bs 0 4
  let nrows := fieldOf bs 8 8
  let base := fieldOf bs 16 8
  let lo := fieldOf bs 24 2
  let pn := fieldOf bs 26 2
  let fmt := ElemTy.fromNat (ctl / 4 % 32)
  let shard := ctl / 128 % 4
  let place := ctl / 512 % 2 = 1
  let die := ctl / 1024 % 16
  let rb := 4 * (ctl / 2 ^ 14 % 4096 + 1)
  let ok := ctl % 2 = 1 ∧ fmt.isSome ∧ shard ≠ 3 ∧ ctl < 2 ^ 26 ∧ fieldOf bs 28 36 = 0 ∧ base < 2 ^ 56 ∧
    (place → base / 2 ^ 52 = 0xD ∧ base / 2 ^ 48 % 16 = die) ∧ (¬ place → base / 2 ^ 52 ≠ 0xD) ∧
    1 ≤ nrows ∧ nrows < 2 ^ 32 ∧ 1 ≤ pn ∧ pn ≤ 4096 ∧ lo ≤ 4095 ∧ lo + pn ≤ 4096 ∧
    base + (maxLocal shard nrows pn + 1) * rb ≤ 2 ^ 56
  { bound := decide ok, wr := ctl / 2 % 2 = 1, fmt := fmt.getD .f32, shard := shard, place := place, die := die, rb := rb,
    seed := fieldOf bs 4 4, nrows := nrows, base := base, pkglo := lo, pkgn := pn }

/-- The handle that a number names; a number at or above 4,096 names none. -/
def Team.handle (t : Team) (i : DWord) : Handle :=
  let h := handleOf (t.handleBytes (i.toNat % 4096))
  if i.toNat < 4096 then h else { h with bound := false }

/-- The home package and local row of a row (R248). -/
def Handle.place? (h : Handle) (x : Nat) : Nat × Nat :=
  if h.shard = 0 then
    let q := (h.nrows + h.pkgn - 1) / h.pkgn
    (h.pkglo + x / q, x % q)
  else if h.shard = 1 then (h.pkglo + x % h.pkgn, x / h.pkgn)
  else (h.pkglo + (x ^^^ h.seed) * 0x9E3779B9 % 2 ^ 32 / 2 ^ 12 % h.pkgn, x)

/-- The address of a row on its package (R248). -/
def Handle.rowAddr (h : Handle) (x : Nat) : DWord := BitVec.ofNat 64 (h.base + (h.place? x).2 * h.rb)

/-- Elements of a row. -/
def Handle.elems (h : Handle) : Nat := h.rb * 8 / h.fmt.bits

/-- eb of R251. -/
def Handle.eb (h : Handle) (f32 : Bool) : Nat := if f32 then 4 * h.elems else h.rb

/-- The whole tensor, as a footprint (12 Table 12.6). -/
def Handle.fp (h : Handle) (wr : Bool) : Region :=
  ⟨.glob, h.base, (h.base + (maxLocal h.shard h.nrows h.pkgn + 1) * h.rb : Nat), wr⟩

/-- F32, F16, BF16, E4M3 and E5M2. -/
def pooled : ElemTy → Bool
  | .f32 | .f16 | .bf16 | .e4m3 | .e5m2 => true
  | _ => false

/-- The forms of GATHER that a type admits (Table 18.4). -/
def gatherAdmits (m : GMode) (f32 : Bool) (t : ElemTy) : Bool :=
  (match m with
    | .plain => true
    | .sum => pooled t || t == .s32 || t == .z32 || t == .rx3
    | .max => pooled t || t == .s32 || t == .z32
    | .wsum => pooled t) && (!f32 || pooled t)

/-- The forms of SCATR that a type admits (Table 18.4). -/
def scatrAdmits (m : SMode) (f32 : Bool) (t : ElemTy) : Bool :=
  (match m with
    | .add => t.inF || t == .s32 || t == .z32 || t == .rx3
    | .max | .min => t.inF || t == .s32 || t == .z32) && (!f32 || t.inF)

/-- The forms of SCATW that a type admits (Table 18.4). -/
def scatwAdmits (f32 : Bool) (t : ElemTy) : Bool := !f32 || pooled t

/-! ## Issue (R255, R256) -/

/-- The first failing check of a list: ILLFORM at group level, the others for the lanes of the split; under item-level IGN
vS and kM stay as they are (log entry 74). -/
def Iss.firstFault (x : Iss) (h : Hdr) (cs : List (Bool × Cause × DWord)) (go : State → State) (s : State) : State :=
  match cs.find? (·.1) with
  | none => go s
  | some (_, .illform, a) => x.groupFault h .illform a s
  | some (_, c, a) => x.uniFaults h (x.uniFault c a []) [] s

/-- A scratch hull leaves the window. -/
def outside (size : Nat) (a : Int) (n : Nat) : Bool := decide (a < 0) || decide ((size : Int) < a + n)

/-- The checks of R255 that follow step 8, in order. -/
def gatherChecks (size : Nat) (hd : Handle) (admits : Bool) (a : DWord) (hull : Nat) (wr : Bool) :
    List (Bool × Cause × DWord) :=
  [(!hd.bound, .range, 0), (!admits, .illform, 0), (a.toInt % 4 ≠ 0, .misalign, a),
   (outside size a.toInt hull, .range, a), (wr && !hd.wr, .prot, 0)]

/-- A slot of an operation: RANGE and MISALIGN are found at once (R257). -/
def Handle.slot (h : Handle) (lane pos : Nat) (idx wt : Word) : GSlot :=
  let x := idx.toNat
  { lane := lane, pos := pos, idx := idx, wt := wt, pkg := (h.place? x).1, va := h.rowAddr x,
    cause := if h.nrows ≤ x then some .range else if h.base % 4 ≠ 0 then some .misalign else none,
    pages := [], row := [], got := false, placed := false }

/-- The value of the slot count operand (R252). -/
def Iss.slotCount (x : Iss) (h : Hdr) : NSrc → Nat
  | .reg r => (x.sR h r).toNat
  | .imm n => n.toNat

/-- The non-null slots of the participating lanes (R250). -/
def Iss.slots (x : Iss) (h : Hdr) (hd : Handle) (lanes : Word) (vi : Reg) (n : Nat) (vw : Option Nat) : List GSlot :=
  (lanesOf lanes).flatMap fun l => (List.range n).filterMap fun k =>
    let i := x.g.vr x.sp.id (x.eff h vi + k) l
    if i = 0xFFFFFFFF then none
    else some (hd.slot l (n * l + k) i (match vw with
      | some w => x.g.vr x.sp.id (w + k) l
      | none => 0))

/-- GATHER (R252 to R256). -/
def execGather (h : Hdr) (m : GMode) (trap f32 : Bool) (sd sh : BitVec 8) (vi : Reg) (n : NSrc) (stat : Option GStat)
    (s : State) : Host.Outcome State Fault Refusal :=
  withIssue (.gather h m trap f32 sd sh vi n stat) s fun x s =>
    let hn := x.sR h (.plain sh)
    let hd := x.tm.handle hn
    let a := x.sR h (.plain sd)
    let k := x.slotCount h n
    let size := if m == .plain then 32 * k * hd.rb else 32 * hd.eb f32
    x.firstFault h (gatherChecks (x.tm.scrSize s) hd (gatherAdmits m f32 hd.fmt) a size false) (fun s =>
      if x.g.full [4] true then s
      else
        let q : GOp := {
          mode := m, f32 := f32, trap := trap, key := none, hnum := hn.toNat, h := hd, base := a.toInt, n := k,
          lanes := x.g.occ, slots := x.slots h hd x.g.occ vi k (stat.bind fun g => if m == .wsum then some g.vw.toNat else none),
          stat := stat, parts := [], sent := false }
        x.issueBuilt h { kind := .gather q, ctrs := [4], bn := none, bytes := 0,
                         fp := [hd.fp false, ⟨.scratch x.r.team, a.toInt, a.toInt + size, true⟩] } [] s) s

/-- Issuing SCATR, or SCATW without an operation (R252 to R256, R268). -/
def Iss.issueScatter (x : Iss) (h : Hdr) (op : Option SMode) (trap f32 : Bool) (sd sh : BitVec 8) (vi : Reg) (n : NSrc)
    (stat : Option GStat) (s : State) : State :=
  let hn := x.sR h (.plain sh)
  let hd := x.tm.handle hn
  let a := x.sR h (.plain sd)
  let k := x.slotCount h n
  let size := 32 * k * hd.eb f32
  let lanes := if op.isSome then x.g.occ else x.active h
  let ctrs := if op.isSome then [1, 4] else [4]
  let admits := match op with
    | some m => scatrAdmits m f32 hd.fmt
    | none => scatwAdmits f32 hd.fmt
  x.firstFault h (gatherChecks (x.tm.scrSize s) hd admits a size true) (fun s =>
    if x.g.full ctrs true then s
    else
      let q : SOp := {
        op := op, f32 := f32, trap := trap, hnum := hn.toNat, h := hd, base := a.toInt, n := k, lanes := lanes,
        slots := x.slots h hd lanes vi k none, stat := stat, key := none, read := false, upds := [] }
      x.issueBuilt h { kind := .scatter q, ctrs := ctrs, bn := none, bytes := 0,
                       fp := [hd.fp true, ⟨.scratch x.r.team, a.toInt, a.toInt + size, false⟩] } [] s) s

/-- SCATR (R252 to R256). -/
def execScatr (h : Hdr) (m : SMode) (trap f32 : Bool) (sd sh : BitVec 8) (vi : Reg) (n : NSrc) (stat : Option GStat)
    (s : State) : Host.Outcome State Fault Refusal :=
  withIssue (.scatr h m trap f32 sd sh vi n stat) s fun x s => x.issueScatter h (some m) trap f32 sd sh vi n stat s

/-- SCATW (R252 to R256). -/
def execScatw (h : Hdr) (trap f32 : Bool) (sd sh : BitVec 8) (vi : Reg) (n : NSrc) (stat : Option GStat) (s : State) :
    Host.Outcome State Fault Refusal :=
  withIssue (.scatw h trap f32 sd sh vi n stat) s fun x s => x.issueScatter h none trap f32 sd sh vi n stat s

/-! ## Pooled arithmetic (R263, Table 18.6) -/

/-- An element in F32, exactly; a NaN becomes the canonical one. -/
def toF32 (t : ElemTy) (x : Nat) : Nat := (cvtF .f32 t .rn false false x).bits

/-- x ⊕ y of a sum: F32 with one rounding, integers modulo 2^32, RX3 channel by channel. -/
def sumStep (t : ElemTy) (a b : Nat) : Nat :=
  if t = .rx3 then rx3Add a b
  else if t.isFloat then (addF .f32 .rn false (decodeF .f32 a) (decodeF .f32 b)).bits
  else (a + b) % 2 ^ 32

/-- x ⊕ y of a maximum or minimum. -/
def pickStep (t : ElemTy) (max : Bool) (a b : Nat) : Nat :=
  if t.isFloat then (minmaxF .f32 max a (decodeF .f32 a) b (decodeF .f32 b)).bits
  else if max then (if intVal t a < intVal t b then b else a)
  else (if intVal t b < intVal t a then b else a)

/-- x ⊕ y between partial results. -/
def poolComb (m : GMode) (t : ElemTy) (a b : Nat) : Nat :=
  match m with
  | .max => pickStep t true a b
  | _ => sumStep t a b

/-- The first term of a fold: a term w·x, or an element. -/
def poolFirst (m : GMode) (t : ElemTy) (w x : Nat) : Nat :=
  match m with
  | .wsum => (mulF .f32 .rn false (decodeF .f32 w) (decodeF t x)).bits
  | _ => if t = .rx3 then rx3Add x 0 else if t.isFloat then toF32 t x else x

/-- A further term of a fold: a weighted one is rounded once with its sum. -/
def poolStep (m : GMode) (t : ElemTy) (acc w x : Nat) : Nat :=
  match m with
  | .wsum => (fmaF .f32 .rn false (decodeF .f32 w) (decodeF t x) (decodeF .f32 acc)).bits
  | _ => poolComb m t acc (poolFirst m t w x)

/-- fold(y1, …, yj) over terms (weight, element). -/
def poolFold (m : GMode) (t : ElemTy) : List (Nat × Nat) → Nat
  | [] => 0
  | (w, x) :: l => l.foldl (fun a p => poolStep m t a p.1 p.2) (poolFirst m t w x)

/-- fold over partial results. -/
def combFold (m : GMode) (t : ElemTy) : List Nat → Nat
  | [] => 0
  | x :: l => l.foldl (poolComb m t) x

/-- A row as read at its home: its weight, its bytes and their physical addresses. -/
structure RowRead where
  wt : Word
  bs : List Byte
  pas : List Nat

/-- A package's partial of a bag: per element, the terms fold per home die of the element, and the dies fold ascending
(R248, R263). -/
def packagePartial (m : GMode) (t : ElemTy) (elems : Nat) (rows : List RowRead) : List Word :=
  let n := t.bits / 8
  (List.range elems).map fun e =>
    let terms := rows.map fun r => (r.pas.getD (n * e) 0 / 2 ^ 36, r.wt.toNat, leNat ((r.bs.drop (n * e)).take n))
    let dies := sortBy id (terms.map (·.1)).dedup
    BitVec.ofNat 32 (combFold m t (dies.map fun d => poolFold m t ((terms.filter (·.1 = d)).map (·.2))))

/-- An output element: in F32 as it is, else as CVT.RN.SAT to the handle's type (Table 18.6). -/
def poolOut (t : ElemTy) (f32 : Bool) (x : Nat) : List Byte :=
  if f32 then natLe 4 x
  else if t.isFloat then natLe (t.bits / 8) (cvtF t .f32 .rn true false x).bits
  else natLe 4 x

/-- The output row of a lane: packages ascending (R263). -/
def GOp.outRow (q : GOp) (lane : Nat) : List Byte :=
  let ps := sortBy (·.2.1) (q.parts.filter (·.1 = lane))
  if ps.isEmpty then List.replicate (q.h.eb q.f32) 0
  else (List.range q.h.elems).flatMap fun e =>
    poolOut q.h.fmt q.f32 (combFold q.mode q.h.fmt (ps.map fun p => (p.2.2.getD e 0).toNat))

/-! ## The path of a gather (R261 to R264) -/

/-- A package can be reached: this one, or a peer that an endpoint table names and that is not lost (28 R350). -/
def State.reachable (s : State) (p : Nat) : Bool :=
  p == s.pkgNum || (match s.peers.find? (·.1 = p) with
    | some (_, t) => !t.down
    | none => false)

/-- The path over which the next packet of an unordered flow is sprayed: round-robin over the path set, skipping congested
paths; where all are congested, the next one (28 R349, log entry 81). -/
def PeerTab.spray (t : PeerTab) : Option Nat × PeerTab :=
  let n := t.paths.length
  let order := (List.range n).map fun i => (t.next + i) % n
  let k := ((order.find? fun i => !t.cong.contains (t.paths.getD i 0)).orElse fun _ => order.head?).getD 0
  (t.paths[k]?, { t with next := k + 1 })

/-- The path of the next packet to a peer. -/
def State.sprayTo (s : State) (peer : Nat) : Option Nat × State :=
  match s.peers.find? (·.1 = peer) with
  | none => (none, s)
  | some (_, t) => (t.spray.1, { s with peers := s.peers.map fun e => if e.1 = peer then (peer, t.spray.2) else e })

/-- A request of an operation to another package goes into the retransmit store, from which it is sent again until it is
answered (28 R350, R352); a CSIG's travels in the small-message class, the others are sprayed (28 R349, R351). -/
def State.post (s : State) (o : ORef) (peer k : Nat) (spray : Bool) : State :=
  let (path, s) := if spray then s.sprayTo peer else (none, s)
  let tm := s.team? o.team
  { s with
    nextPkt := s.nextPkt + 1
    store := s.store ++ [{
      id := s.nextPkt, peer := peer, ctx := (tm.map (·.ctx s)).getD 0, msg := .request, op := o, xfer := k
      launch := (tm.map (·.launch)).getD 0, tries := 0, firstAt := s.now, sentAt := s.now, arrived := false, path := path }] }

/-- A reply to another package goes into the retransmit store too, until it is acknowledged; one of a RUD flow is sprayed
(R349, R350, Table 28.1; log entry 91). -/
def State.reply (s : State) (peer : Nat) (spray : Bool) (m : Outbox) : State :=
  let (path, s) := if spray then s.sprayTo peer else (none, s)
  { s.send m with
    nextPkt := s.nextPkt + 1
    replies := s.replies ++ [{ id := s.nextPkt, peer := peer, msg := m, tries := 0, firstAt := s.now, sentAt := s.now, path := path }] }

/-- A request has been answered. -/
def State.answered (s : State) (o : ORef) (peer k : Nat) : State :=
  { s with store := s.store.filter fun p => !(p.msg == .request && p.op == o && p.peer == peer && p.xfer == k) }

/-- Before a core's engine operation reads rows, its earlier stores reach their home (12 R186). -/
def State.readyRow (s : State) (core : Nat) (bs : List PByte) : State :=
  ((bs.filter (!·.uc)).map (·.pa / 64)).dedup.foldl (fun s k =>
    let s := s.wbL1 core k
    if homeDie (64 * k) = some (dieOf core) then s else s.wbDie (dieOf core) k) s

/-- A row's bytes at its home die cache, or the fault of its slot (R257, R264). -/
def State.fetchRow (s : State) (ctx : Nat) (va : DWord) (rb : Nat) : Except LFault (List PByte × List Byte) :=
  match s.transRow ctx .read va rb with
  | .error f => .error f
  | .ok bs =>
    if bs.any fun b => s.homeBad b.pa then .error (.plain 0 .dataerr va)
    else .ok (bs, bs.map fun b => s.homeByte b.pa)

/-- A slot waits for its row. -/
def GSlot.open_ (t : GSlot) : Bool := t.cause.isNone && !t.got

/-- A slot with its fault. -/
def GSlot.failed (t : GSlot) (f : LFault) : GSlot := { t with cause := some f.cause, pages := f.pages, detail := f.detail }

/-- This package's part of a gather: its rows are translated and read, identical rows alike (R262), and pooled bags give
this package's partials. -/
def State.serveGather (s : State) (core ctx : Nat) (q : GOp) : State × GOp :=
  let mine (t : GSlot) : Bool := t.open_ && t.pkg == s.pkgNum
  let s := (q.slots.filter mine).foldl (fun s t => match s.transRow ctx .read t.va q.h.rb with
    | .ok bs => s.readyRow core bs
    | .error _ => s) s
  let rs := q.slots.map fun t => (t, if mine t then some (s.fetchRow ctx t.va q.h.rb) else none)
  let slots := rs.map fun r => match r.2 with
    | none => r.1
    | some (.error f) => r.1.failed f
    | some (.ok (_, b)) => { r.1 with got := true, row := if q.mode == .plain then b else [] }
  let reads := rs.filterMap fun r => match r.2 with
    | some (.ok (bs, b)) => some (r.1.lane, ({ wt := r.1.wt, bs := b, pas := bs.map (·.pa) } : RowRead))
    | _ => none
  let parts := if q.mode == .plain then []
    else ((reads.map (·.1)).dedup).map fun l =>
      (l, s.pkgNum, packagePartial q.mode q.h.fmt q.h.elems ((reads.filter (·.1 = l)).map (·.2)))
  (s, { q with slots := slots, parts := q.parts ++ parts })

/-- GATHER_REQUEST_ARRIVAL. An own operation's index list is split by home package: this package's part is served, and a
request goes to each other package, or NETFAULT to its slots (R257, R263). A peer's request is served and answered. -/
def execGatherRequestArrival (q : GatherReq) (s : State) : Host.Outcome State Fault Refusal :=
  match q with
  | .own o =>
    (match s.op? o with
    | none => .next s
    | some (tm, g, p) => match p.kind with
      | .gather q =>
        if q.sent || p.waitRetry || !g.mayGo p then .next s
        else
          let (s, q) := (s.engHull tm.core (tm.ctx s) p.fp).serveGather tm.core (tm.ctx s) q
          let far := ((q.slots.filter (·.open_)).map (·.pkg)).dedup
          let slots := q.slots.map fun t =>
            if t.open_ && !s.reachable t.pkg then { t with cause := some .netfault } else t
          let s := (far.filter s.reachable).foldl (fun s k => (s.send (.gatherReq o k)).post o k 0 true) s
          .next (s.modGroup o.team o.grp fun g => g.modOp p.id fun p =>
            { p with kind := .gather { q with slots := slots, sent := true } })
      | _ => .next s)
  | .peer r => if s.pkg ≠ .up then .next s else
    let elems := r.rb * 8 / r.fmt.bits
    let pieces := r.bags.flatMap fun b =>
      let rs := b.2.map fun x => (x, s.fetchRow r.ctx x.2.1 r.rb)
      let bad := rs.filterMap fun x => match x.2 with
        | .error f => some ({ pos := x.1.1, ans := .refused f.cause f.pages f.detail } : GPiece)
        | .ok _ => none
      let ok := rs.filterMap fun x => match x.2 with
        | .ok (bs, d) => some (x.1.1, ({ wt := x.1.2.2, bs := d, pas := bs.map (·.pa) } : RowRead))
        | .error _ => none
      bad ++ (if r.mode == .plain then ok.map fun x => { pos := x.1, ans := .done x.2.bs }
        else if ok.isEmpty then []
        else [{ pos := b.1, ans := .done ((packagePartial r.mode r.fmt elems (ok.map (·.2))).flatMap fun w => natLe 4 w.toNat) }])
    .next (s.reply r.src true (.gatherAns r pieces))

/-- Taking one piece of a reply of a package (R263): a plain piece serves its position; a pooled piece is the package's
partial of a lane's bag, or the fault of a slot. -/
def GOp.take (q : GOp) (pkg : Nat) (pc : GPiece) : GOp :=
  match pc.ans with
  | .refused c pages detail =>
    { q with slots := q.slots.map fun t =>
        if t.pos = pc.pos ∧ t.pkg = pkg ∧ t.open_ then { t with cause := some c, pages := pages, detail := detail } else t }
  | .done bs =>
    if q.mode == .plain then
      { q with slots := q.slots.map fun t =>
          if t.pos = pc.pos ∧ t.pkg = pkg ∧ t.open_ ∧ bs.length = q.h.rb then { t with got := true, row := bs } else t }
    else if (q.slots.any fun t => t.lane == pc.pos && t.pkg == pkg && t.open_) && bs.length == 4 * q.h.elems then
      { q with
        slots := q.slots.map fun t => if t.lane = pc.pos ∧ t.pkg = pkg ∧ t.open_ then { t with got := true } else t
        parts := q.parts ++ [(pc.pos, pkg, wordsOf bs)] }
    else q

/-- Writing bytes of a team's scratch at an exact offset. -/
def State.putScratch (s : State) (t : Nat) (a : Int) (bs : List Byte) : State := s.modTeam t fun tm => tm.scrWrite a.toNat bs

/-- Writing the rows of a plain gather that have come to their positions; a fault's position receives zero bytes (R257,
R261). -/
def State.placeRows (s : State) (t : Nat) (q : GOp) (which : GSlot → Bool) : State × GOp :=
  let due (x : GSlot) : Bool := q.mode == .plain && !x.placed && which x && (x.got || x.cause.isSome)
  let s := (q.slots.filter due).foldl (fun s x =>
    s.putScratch t (q.base + x.pos * q.h.rb) (if x.got then x.row else List.replicate q.h.rb 0)) s
  (s, { q with slots := q.slots.map fun x => if due x then { x with placed := true } else x })

/-- GATHER_REPLY_ARRIVAL: pieces of another package's reply are taken, or with this package's own number its own rows, and
the plain rows that have come are written to scratch (R263, R264). The reply of a gather that pre-emption has abandoned is
dropped (R272). -/
def execGatherReplyArrival (o : ORef) (pkg : Nat) (pieces : List GPiece) (s : State) :
    Host.Outcome State Fault Refusal :=
  match s.op? o with
  | none => .next s
  | some (_, _, p) => match p.kind with
    | .gather q =>
      if p.abandoned then .next (s.answered o pkg 0)
      else if !q.sent then .next s
      else
        let q := if pkg = s.pkgNum then q else pieces.foldl (fun q pc => q.take pkg pc) q
        let s := if q.slots.any fun t => t.open_ && t.pkg == pkg then s else s.answered o pkg 0
        let (s, q) := s.placeRows o.team q fun x => x.pkg = pkg ∧ x.got
        .next (s.modGroup o.team o.grp fun g => g.modOp p.id fun p => { p with kind := .gather q })
    | _ => .next s

/-! ## Status (R258 to R260, R269) -/

/-- The bit of a cause in GSR and, from bit 16, in the status word (Tables 18.5 and 18.8). -/
def causeBit : Cause → Nat
  | .range => 1 | .page => 2 | .prot => 4 | .misalign => 8 | .dataerr => 16 | .netfault => 32 | _ => 0

/-- The causes of some slots, as bits. -/
def causeBits (ts : List GSlot) : Nat := ts.foldl (fun m t => m ||| (t.cause.map causeBit).getD 0) 0

/-- The ending of a gather-class operation (R258, R259, R260, R269): status and mask for the lanes that hold the same
items, GSR, the fault of .TRAP, and the counter. `per` is the number of positions of a lane. DESIGN CHOICE (log entry 90): the
fault of a SCATR, which counts on n1 and n4, is observed on n4 only, and its reissue counts on n4 only. -/
def State.gatherEnd (s : State) (o : ORef) (p : Op) (slots : List GSlot) (per : Nat) (lanes : Word) (stat : Option GStat)
    (key trap : Bool) : State :=
  let bad := slots.filter (·.cause.isSome)
  let of (l : Nat) : List GSlot := bad.filter (·.lane = l)
  let mask (l : Nat) : Nat := (of l).foldl (fun m t => m ||| 2 ^ (t.pos % per)) 0
  let s := s.modGroup o.team o.grp fun g =>
    if !g.live then g
    else
      let ls := g.sameItems p lanes
      let g := match stat with
        | none => g
        | some st =>
          let word (l : Nat) : DWord := BitVec.ofNat 64 (causeBits (of l) * 2 ^ 16 + (if key then 0 else mask l))
          let ws := (lanesOf ls).flatMap fun l =>
            if key then [(Loc.v st.vs.toNat l, ones, BitVec.ofNat 64 (mask l)), (Loc.v (st.vs.toNat + 1) l, ones, word l)]
            else [(Loc.v st.vs.toNat l, ones, word l)]
          let km := maskBy fun l => ls.getLsbD l && decide (mask l ≠ 0)
          g.landOp p (ws ++ maskW st.km.toNat 0xFFFFFFFF km) false
      if bad.isEmpty then g
      else
        let nf := g.gsr.toNat / 2 ^ 32
        { g with gsr := BitVec.ofNat 64 ((if nf = 2 ^ 32 - 1 then nf else nf + 1) * 2 ^ 32 +
            (g.gsr.toNat % 64 ||| causeBits bad)) }
  let fs : List EFault := if !trap then []
    else match sortBy (·.pos) bad with
      | [] => []
      | t :: _ =>
        let c := t.cause.getD .range
        [{ op := { p with nth := p.nth.filter (·.1 = 4) }, cause := c, lanes := maskOf (bad.map (·.lane)),
           addr := if c = .range then 0 else t.va,
           pages := [], detail := t.detail, remote := false, stands := true, bar := none
           own := if c = .page ∨ c = .prot then bad.map fun t => (t.lane, t.pages) else [] }]
  s.endEngine o.team o.grp p fs

/-- A gather has its last piece: what is left is written to scratch, and it ends (R259, R261, R263). -/
def State.endGather (s : State) (o : ORef) (p : Op) (q : GOp) : State :=
  let (s, q) := s.placeRows o.team q fun _ => true
  let s := if q.mode == .plain then s
    else (lanesOf q.lanes).foldl (fun s l => s.putScratch o.team (q.base + (l * q.h.eb q.f32 : Nat)) (q.outRow l)) s
  s.gatherEnd o p q.slots (if q.key.isSome then 32 else q.n) q.lanes q.stat q.key.isSome q.trap

/-- GATHER_COMPLETION (R259). -/
def execGatherCompletion (o : ORef) (s : State) : Host.Outcome State Fault Refusal :=
  match s.op? o with
  | none => .next s
  | some (_, g, p) => match p.kind with
    | .gather q => if q.key.isNone && g.mayGo p && q.slots.all (!·.open_) then .next (s.endGather o p q) else .next s
    | _ => .next s

/-! ## Scatter (R265 to R268) -/

/-- An element of a source row as the combiner reads it: F32 in the float cases. -/
def srcElem (t : ElemTy) (f32 : Bool) (bs : List Byte) (e : Nat) : Nat :=
  if f32 then toF32 .f32 (leNat ((bs.drop (4 * e)).take 4))
  else
    let n := t.bits / 8
    let x := leNat ((bs.drop (n * e)).take n)
    if t = .rx3 then rx3Add x 0 else if t.isFloat then toF32 t x else x

/-- x ⊕ y of the combiner (Table 18.7). -/
def scatStep (m : SMode) (t : ElemTy) (a b : Nat) : Nat :=
  match m with
  | .add => sumStep t a b
  | .max => pickStep t true a b
  | .min => pickStep t false a b

/-- upd(old, v) at the home engine (Table 18.7). -/
def scatUpd (m : SMode) (t : ElemTy) (old v : Nat) : Nat :=
  if t.isFloat then
    match m with
    | .add => (addF t .rn false (decodeF t old) (decodeF .f32 v)).bits
    | .max => (toFmt t .rn false false (decodeF .f32 (pickStep .f32 true (toF32 t old) v))).bits
    | .min => (toFmt t .rn false false (decodeF .f32 (pickStep .f32 false (toF32 t old) v))).bits
  else scatStep m t old v

/-- A row converted as CVT.RN.SAT from F32 (R266). -/
def cvtRow (t : ElemTy) (elems : Nat) (bs : List Byte) : List Byte :=
  (List.range elems).flatMap fun e =>
    natLe (t.bits / 8) (cvtF t .f32 .rn true false (leNat ((bs.drop (4 * e)).take 4))).bits

/-- The updates of a scatter: one for each distinct row that some position names, from the source row of each position
(R265, R266). A KGRAD's terms are w·g, folded as weighted sums (20 R281). -/
def SOp.combine (q : SOp) (ts : List (GSlot × List Byte)) : List SUpd :=
  let ts := sortBy (fun t => t.1.pos) (ts.filter (·.1.cause.isNone))
  let rows := (ts.map (·.1.idx)).dedup
  rows.filterMap fun i =>
    let mine := ts.filter (·.1.idx = i)
    match mine.head? with
    | none => none
    | some f =>
      let vals := match q.op with
        | none => []
        | some m => (List.range q.h.elems).map fun e =>
            BitVec.ofNat 32 (if q.key.isSome then
                poolFold .wsum .f32 (mine.map fun t => (t.1.wt.toNat, leNat ((t.2.drop (4 * e)).take 4)))
              else match mine.map fun t => srcElem q.h.fmt q.f32 t.2 e with
                | [] => 0
                | x :: l => l.foldl (scatStep m q.h.fmt) x)
      let row := if q.op.isSome then [] else
        let b := ((mine.getLast?).map (·.2)).getD []
        if q.f32 then cvtRow q.h.fmt q.h.elems b else b
      some { idx := i, pkg := f.1.pkg, va := f.1.va, poss := mine.map (·.1.pos), vals := vals, row := row, done := false,
             cause := none, pages := [] }

/-- The slots of a scatter: those of its index registers, or of a KGRAD's record area as it is read (20 R274, R281). -/
def SOp.readSlots (q : SOp) (tm : Team) : List GSlot :=
  match q.key with
  | none => q.slots
  | some (rec, k) => (lanesOf q.lanes).flatMap fun l => (List.range k).filterMap fun r =>
      let w (j : Nat) : Word := BitVec.ofNat 32 (leNat (tm.scrRead (rec + 256 * l + 4 * j) 4))
      if w r = 0xFFFFFFFF then none else some (q.h.slot l (32 * l + r) (w r) (w (32 + r)))

/-- Where a position's source row lies (R251, 20 R274). -/
def SOp.srcAt (q : SOp) (t : GSlot) : Nat × Nat :=
  match q.key with
  | none => ((q.base + t.pos * q.h.eb q.f32).toNat, q.h.eb q.f32)
  | some _ => ((q.base + t.lane * (4 * q.h.elems)).toNat, 4 * q.h.elems)

/-- The updates of unreachable packages are refused, and those of other packages are sent (R257). -/
def State.sendUpdates (s : State) (o : ORef) (ups : List SUpd) : State × List SUpd :=
  let ups := ups.map fun u => if s.reachable u.pkg then u else { u with done := true, cause := some .netfault }
  (ups.zipIdx.foldl (fun s u => if u.1.done || u.1.pkg == s.pkgNum then s
    else (s.send (.scatterUpd o u.2)).post o u.1.pkg u.2 true) s, ups)

/-- The combiner reads every source byte and makes the updates, which are sent (R265, R268); RETRY sends the refused ones
again as they were made (R260). -/
def State.readScatter (s : State) (o : ORef) (tm : Team) (q : SOp) : State × SOp :=
  let slots := if q.again then q.slots else (q.readSlots tm).map fun t =>
    let a := q.srcAt t
    if t.cause.isNone && tm.scrDamaged a.1 a.2 then { t with cause := some .dataerr } else t
  let (s, ups) := s.sendUpdates o (if q.again then q.upds
    else q.combine (slots.map fun t => (t, tm.scrRead (q.srcAt t).1 (q.srcAt t).2)))
  (s, { q with slots := slots, read := true, upds := ups })

/-- SCATR_SOURCE_READ: the source has been read, and SCATR's n1 operation completes (R268); a SCATW or KGRAD reads its
source so too. -/
def execScatrSourceRead (o : ORef) (s : State) : Host.Outcome State Fault Refusal :=
  match s.op? o with
  | none => .next s
  | some (tm, g, p) => match p.kind with
    | .scatter q =>
      if q.read || !g.mayGo p then .next s
      else
        let (s, q) := s.readScatter o tm q
        .next (s.modGroup o.team o.grp fun g =>
          (g.modOp p.id fun p => { p with kind := .scatter q }).ctrDone p.id 1)
    | _ => .next s

/-- The home lehr engine's update of a row, every element in one indivisible step, in memory after the home die cache has
written back and dropped its copy (R267, 12 R179); or its refusal. -/
def State.applyRow (s : State) (core : Option Nat) (ctx : Nat) (op : Option SMode) (t : ElemTy) (va : DWord) (rb : Nat)
    (vals : List Word) (row : List Byte) : State × Option LFault :=
  match s.transRow ctx (if op.isSome then .rmw else .write) va rb with
  | .error f => (s, some f)
  | .ok bs =>
    let s := match core with
      | some c => s.atomPrep c bs
      | none => s
    if bs.any fun b => s.homeBad b.pa then (s, some (.plain 0 .dataerr va))
    else
      let old := bs.map fun b => s.homeByte b.pa
      let n := t.bits / 8
      let new := match op with
        | none => row
        | some m => (List.range (rb * 8 / t.bits)).flatMap fun e =>
            natLe n (scatUpd m t (leNat ((old.drop (n * e)).take n)) (vals.getD e 0).toNat)
      ((runsOf (bs.zip new)).foldl (fun s r =>
        (lineRuns r.1.pa r.2).foldl (fun s x => (s.homeFlush x.1).memLine x.1 x.2.1 x.2.2) s) s, none)

/-- Changing one update of a scatter. -/
def SOp.setUpd (q : SOp) (k : Nat) (f : SUpd → SUpd) : SOp := { q with upds := q.upds.modify k f }

/-- SCATTER_UPDATE_ARRIVAL: an update is applied at its home, or another package's answer is taken, or another package's
update is applied and answered (R265, R267). -/
def execScatterUpdateArrival (u : ScatUpd) (s : State) : Host.Outcome State Fault Refusal :=
  let set (o : ORef) (q : SOp) (s : State) : State :=
    s.modGroup o.team o.grp fun g => g.modOp o.op fun p => { p with kind := .scatter q }
  match u with
  | .own o k =>
    (match s.op? o with
    | some (tm, _, { kind := .scatter q, .. }) =>
      (match q.upds[k]? with
      | some d =>
        if d.done || d.pkg != s.pkgNum || !q.read then .next s
        else
          let r := s.applyRow (some tm.core) (tm.ctx s) q.op q.h.fmt d.va q.h.rb d.vals d.row
          .next (set o (q.setUpd k fun d =>
            { d with
              done := true, cause := r.2.map (·.cause), pages := (r.2.map (·.pages)).getD []
              detail := (r.2.map (·.detail)).getD 0 }) r.1)
      | none => .next s)
    | _ => .next s)
  | .answer o k c pages detail =>
    (match s.op? o with
    | some (_, _, { kind := .scatter q, .. }) =>
      (match q.upds[k]? with
      | some d =>
        if d.done || d.pkg == s.pkgNum || !q.read then .next s
        else .next (set o (q.setUpd k fun d => { d with done := true, cause := c, pages := pages, detail := detail })
            (s.answered o d.pkg k))
      | none => .next s)
    | _ => .next s)
  | .peer u => if s.pkg ≠ .up then .next s else
    let row := u.vals.flatMap fun w => natLe 4 w.toNat
    let r := s.applyRow none u.ctx u.op u.fmt u.addr u.rb u.vals row
    .next (r.1.reply u.src true (.scatterAns u.src (r.2.map (·.cause)) ((r.2.map (·.pages)).getD []) ((r.2.map (·.detail)).getD 0)))

/-- SCATTER_COMPLETION: every update has been performed or refused; a refused row marks every position that names it
(R258, R265, R268), and the L1 lines that the tensor overlaps are invalidated (12 R186). -/
def execScatterCompletion (o : ORef) (s : State) : Host.Outcome State Fault Refusal :=
  match s.op? o with
  | some (tm, _, p) =>
    (match p.kind with
    | .scatter q =>
      if q.read && q.upds.all (·.done) then
        let slots := q.slots.map fun t =>
          match q.upds.find? fun u => u.cause.isSome && u.poss.contains t.pos with
          | some u => { t with cause := u.cause, pages := u.pages, detail := u.detail }
          | none => t
        .next ((s.engHull tm.core (tm.ctx s) p.fp).gatherEnd o p slots (if q.key.isSome then 32 else q.n) q.lanes q.stat
          q.key.isSome q.trap)
      else .next s
    | _ => .next s)
  | none => .next s

/-! ## Reissue under RETRY and a lost peer (R260, 28 R350) -/

/-- A slot to be fetched anew; RANGE and MISALIGN stand. -/
def GSlot.again (h : Handle) (t : GSlot) : GSlot := h.slot t.lane t.pos t.idx t.wt

/-- The operation that RETRY reissues for the lanes with a fault: a plain gather's faulting slots, a pooled gather's whole
bags, a scatter's refused updates (R260, 20 R282). -/
def OpKind.again (k : OpKind) : OpKind :=
  match k with
  | .gather q =>
    let bad := maskOf ((q.slots.filter (·.cause.isSome)).map (·.lane))
    .gather { q with
      lanes := bad, parts := [], sent := false
      slots := (q.slots.filter fun t => if q.mode == .plain then t.cause.isSome else bad.getLsbD t.lane).map
        (GSlot.again q.h) }
  | .scatter q =>
    let ups := (q.upds.filter (·.cause.isSome)).map fun u => { u with done := false, cause := none, pages := [], detail := 0 }
    let bad := maskOf ((q.slots.filter fun t => t.cause.isSome || ups.any (·.poss.contains t.pos)).map (·.lane))
    .scatter { q with lanes := bad, upds := ups, read := false, again := true, slots := q.slots.filter fun t => bad.getLsbD t.lane }
  | k => k

/-- A lost peer ends what waits on it with NETFAULT (28 R350). -/
def OpKind.lose (k : OpKind) (peer : Nat) : OpKind :=
  match k with
  | .gather q => .gather (if q.sent then { q with slots := q.slots.map fun t =>
      if t.open_ && t.pkg == peer then { t with cause := some .netfault } else t } else q)
  | .scatter q => .scatter { q with upds := q.upds.map fun u =>
      if !u.done && u.pkg == peer then { u with done := true, cause := some .netfault } else u }
  | k => k

/-! ## GSTAT and HDESC (R269 to R271) -/

/-- GSTAT (R270). -/
def execGstat (h : Hdr) (clr : Bool) (sd : Reg) (s : State) : Host.Outcome State Fault Refusal :=
  withIssue (.gstat h clr sd) s <| uniform h fun x s =>
    x.result (.gstat h clr sd) h (sclW (x.eff h sd) x.g.gsr)
      (if clr then s.modG x.r fun g => { g with gsr := 0 } else s)

/-- HDESC: the entry as stored, or the place of a row (R271). -/
def execHdesc (h : Hdr) (f : BitVec 6) (sd sh sb : Reg) (s : State) : Host.Outcome State Fault Refusal :=
  withIssue (.hdesc h f sd sh sb) s <| uniform h fun x s =>
    let hn := x.sR h sh
    let bs := x.tm.handleBytes (hn.toNat % 4096)
    let hd := x.tm.handle hn
    let row := x.sR h sb
    let bad := decide (4096 ≤ hn.toNat) || (f != 0 && !hd.bound) || (decide (4 ≤ f.toNat) && decide (hd.nrows ≤ row.toNat))
    if x.g.full [0] false then s
    else if bad then x.uniOpFault h (.value []) 0 (sclW (x.eff h sd) 0) (.plain 0 .range 0) s
    else
      let v : DWord :=
        if f.toNat < 4 then BitVec.ofNat 64 (fieldOf bs (8 * f.toNat) 8)
        else if f = 4 then BitVec.ofNat 64 (hd.place? row.toNat).1
        else hd.rowAddr row.toNat
      x.issueOp h (.hdesc (x.eff h sd) v) 0 [] .rlx .grp false [] (fun _ => []) s

/-- HDESC_COMPLETION: sD is written and n0 counts down (R271). -/
def execHdescCompletion (o : ORef) (s : State) : Host.Outcome State Fault Refusal :=
  match s.op? o with
  | some (_, _, p) =>
    (match p.kind with
    | .hdesc sd v => .next (s.modGroup o.team o.grp fun g => (g.landOp p (sclW sd v) false).opDone p.id)
    | _ => .next s)
  | none => .next s

end Sys2Proof.Machine
end

