-- ==== Sys2Proof/Machine/Transc.lean ====
section
/-! DEFINITION. The approximate functions (07 R84, Table 7.6): the special results exactly, and for every other input the
implementation's own function of the input, kept within the stated bound. The bound is computed from an enclosure of the
exact result in fixed point. -/

namespace Sys2Proof.Machine

/-- floor(π · 2^512). -/
def piFix : Nat :=
  42121870893450636219446821484559388105255997313489254605594685088103805782276098919793885372247726346443771296916333485327292916625599161542353774203832599
/-- floor(ln 2 · 2^256). -/
def ln2Fix : Nat := 80260960185991308862233904206310070533990667611589946606122867505419956976171

/-- The sum of the Taylor series of exp at y / 2^p, terms from `k` on, with `t` the current term. -/
def expSeries (p y : Nat) : Nat → Nat → Nat → Nat
  | 0, _, _ => 0
  | n + 1, k, t => t + expSeries p y n (k + 1) (t * y / 2 ^ p / (k + 1))

/-- 2^f for f = y / 2^256 in [0, 1), below by at most 2^-248: fixed point with 256 bits. -/
def exp2Fix (y : Nat) : Nat := expSeries 256 (y * ln2Fix / 2 ^ 256) 60 0 (2 ^ 256)

/-- The series of atanh: terms t^(2j+1) / (2j+1), with `t` the current power. -/
def atanhSeries (p t2 : Nat) : Nat → Nat → Nat → Nat
  | 0, _, _ => 0
  | n + 1, k, t => t / k + atanhSeries p t2 n (k + 2) (t * t2 / 2 ^ p)

/-- log2 of m / d in [1, 2), within 2^-224 of it, in fixed point with 256 bits. -/
def log2Fix (m d : Nat) : Nat :=
  let t := (m - d) * 2 ^ 256 / (m + d)
  2 * atanhSeries 256 (t * t / 2 ^ 256) 80 1 t * 2 ^ 256 / ln2Fix

/-- The alternating series of sine and cosine at r / 2^512, with `t` the current term and `k` its index. -/
def trigSeries (r2 : Nat) : Nat → Nat → Int → Int
  | 0, _, _ => 0
  | n + 1, k, t => t + trigSeries r2 n (k + 2) (-(t * r2 / 2 ^ 512 / ((k + 1) * (k + 2) : Nat)))

/-- sin or cos of x · 2^-512 (x an integer, |x| below 2^640), within 2^-340 of it, in fixed point with 512 bits. -/
def trigFix (cosine : Bool) (x : Int) : Int :=
  let r := (x % (2 * piFix : Int)).toNat
  let r2 := r * r / 2 ^ 512
  if cosine then trigSeries r2 64 0 (2 ^ 512) else trigSeries r2 64 1 r

/-- The order key of a finite F32 code. -/
def keyF32 (c : Nat) : Int := if c < 2 ^ 31 then c else -((c : Int) - 2 ^ 31)
/-- The code of an order key. -/
def ofKeyF32 (k : Int) : Nat := if 0 ≤ k then k.toNat else 2 ^ 31 + (-k).toNat

/-- The implementation's value kept within the values that the bound allows (R84): between the .RM rounding of the low
end and the .RP rounding of the high end. A zero inside the interval keeps the sign that the implementation gives it, a
value outside becomes the nearer end, +0 where that is a zero, and an exact result below the normal range, of which R84
states no accuracy, is held to the same bound (log entry 3). -/
def clampApprox (y : Word) (lo hi : Ex) : Nat :=
  let l := keyF32 (roundTo .f32 .rm false false false lo).bits
  let u := keyF32 (roundTo .f32 .rp false false false hi).bits
  let k := keyF32 y.toNat
  if k < l then ofKeyF32 l else if u < k then ofKeyF32 u else y.toNat

/-- The flags of an approximated result: NX always, UF when it is subnormal or zero, OF when it is infinite (R77); under
flushing a subnormal becomes a zero of its sign (R80, R84). -/
def approxRes (ftz : Bool) (c : Nat) : FRes :=
  let sub := c % 2 ^ 31 < 2 ^ 23
  if c % 2 ^ 31 = infCode .f32 then ⟨c, fOFNX⟩ else
  if ftz && isSub .f32 c then ⟨withSign .f32 (2 ^ 31 ≤ c) 0, fUFNX⟩ else ⟨c, if sub then fUFNX else fNX⟩

/-- A fraction times (1 + k · 2^-n). -/
def Ex.near (x : Ex) (k : Int) (n : Nat) : Ex := x.mul ⟨2 ^ n + k, 2 ^ n⟩

/-- The interval of a relative bound 2^-n around a value of either sign, enclosed by `lo` and `hi`, which are one where the
value is known exactly. -/
def relBound (y : Word) (lo hi : Ex) (n : Nat) : Nat :=
  if lo.n < 0 then clampApprox y (lo.near 1 n) (hi.near (-1) n) else clampApprox y (lo.near (-1) n) (hi.near 1 n)

/-- FRCP (Table 7.6). -/
def frcpF (ftz : Bool) (x : Nat) : FRes :=
  match inF .f32 ftz x with
  | .nan s => nanOf .f32 s
  | .inf n => ⟨withSign .f32 n 0, 0⟩
  | .fin n m e =>
    if m = 0 then ⟨withSign .f32 n (infCode .f32), fDZ⟩
    else
      let r := Ex.div (.ofInt 1) (FVal.fin n m e).ex
      if (Ex.mk ((2 ^ 24 - 1) * 2 ^ 104) 1).lt r.abs then ⟨withSign .f32 n (infCode .f32), fOFNX⟩
      else approxRes ftz (relBound (Config.frcpApprox (BitVec.ofNat 32 x)) r r 12)

/-- FRSQ (Table 7.6). -/
def frsqF (ftz : Bool) (x : Nat) : FRes :=
  match inF .f32 ftz x with
  | .nan s => nanOf .f32 s
  | .inf n => if n then nanNV .f32 else ⟨0, 0⟩
  | .fin n m e =>
    if m = 0 then ⟨withSign .f32 n (infCode .f32), fDZ⟩
    else if n then nanNV .f32
    else
      -- 1 / sqrt(x): exact where x is the square of a fraction, else by the integer root of 2^600 / x
      let y := Config.frsqApprox (BitVec.ofNat 32 x)
      let sq := sqrtEx m e
      if (sq.mul sq).eq (FVal.fin false m e).ex then
        let r := Ex.div (.ofInt 1) sq
        approxRes ftz (relBound y r r 12)
      else
        let v := (Ex.div (.pow2 600) (FVal.fin false m e).ex)
        let q := isqrt (v.n.toNat / v.d)
        approxRes ftz (relBound y ⟨q, 2 ^ 300⟩ ⟨q + 1, 2 ^ 300⟩ 12)

/-- FEX2 (Table 7.6). -/
def fex2F (ftz : Bool) (x : Nat) : FRes :=
  match inF .f32 ftz x with
  | .nan s => nanOf .f32 s
  | .inf n => if n then ⟨0, 0⟩ else ⟨infCode .f32, 0⟩
  | .fin n m e =>
    let v := (FVal.fin n m e).ex
    if m = 0 then ⟨0x3F800000, 0⟩
    else if (Ex.ofInt 128).le v then ⟨infCode .f32, fOFNX⟩
    else
      let y := Config.fex2Approx (BitVec.ofNat 32 x)
      if v.lt (.ofInt (-200)) then approxRes ftz (clampApprox y .zero (.pow2 (-200)))
      else
        let i := v.n / v.d
        let f := ((v.n - i * v.d) * 2 ^ 256 / v.d).toNat
        let q := exp2Fix f
        let pad : Int := if f = 0 then 0 else 2 ^ 8
        let sc := Ex.pow2 (i - 256)
        approxRes ftz (relBound y (sc.mul ⟨q - pad, 1⟩) (sc.mul ⟨q + pad, 1⟩) 22)

/-- FLG2 (Table 7.6). -/
def flg2F (ftz : Bool) (x : Nat) : FRes :=
  match inF .f32 ftz x with
  | .nan s => nanOf .f32 s
  | .inf n => if n then nanNV .f32 else ⟨infCode .f32, 0⟩
  | .fin n m e =>
    if m = 0 then ⟨withSign .f32 true (infCode .f32), fDZ⟩
    else if n then nanNV .f32
    else
      let v := (FVal.fin false m e).ex
      if v.eq (.ofInt 1) then ⟨0, 0⟩
      else
        let k := Nat.log2 m
        let q : Int := (log2Fix m (2 ^ k) : Int) + ((e + k) * 2 ^ 256)
        let pad : Int := if m = 2 ^ k then 0 else 2 ^ 32
        let y := Config.flg2Approx (BitVec.ofNat 32 x)
        let lo : Ex := ⟨q - pad, 2 ^ 256⟩
        let hi : Ex := ⟨q + pad, 2 ^ 256⟩
        approxRes ftz (if (Ex.mk 1 2).le v && v.le (.ofInt 2) then
            clampApprox y (lo.add ⟨-1, 2 ^ 22⟩) (hi.add ⟨1, 2 ^ 22⟩)
          else relBound y lo hi 22)

/-- FSIN and FCOS (Table 7.6): the bound grows with |x|. -/
def trigF (cosine ftz : Bool) (x : Nat) : FRes :=
  match inF .f32 ftz x with
  | .nan s => nanOf .f32 s
  | .inf _ => nanNV .f32
  | .fin n m e =>
    if m = 0 then (if cosine then ⟨0x3F800000, 0⟩ else ⟨withSign .f32 n 0, 0⟩)
    else
      let v := (FVal.fin n m e).ex
      let b := (Ex.mk 1 (2 ^ 21)).add (v.abs.mul ⟨1, 2 ^ 38⟩)
      let y := if cosine then Config.fcosApprox (BitVec.ofNat 32 x) else Config.fsinApprox (BitVec.ofNat 32 x)
      let c : Ex := ⟨trigFix cosine (v.n * 2 ^ 512 / v.d), 2 ^ 512⟩
      let w : Ex := b.add ⟨1, 2 ^ 340⟩
      approxRes ftz (clampApprox y (c.add w.neg) (c.add w))

end Sys2Proof.Machine
end

