-- ==== Sys2Proof/Machine/Keys.lean ====
section
/-! DEFINITION. The key lookup unit (20): KLOOK's selection and its gather phase, and KGRAD. -/

namespace Sys2Proof.Machine

/-- The parameter word (Table 20.1): NK, k and REC; none when it breaks a limit (R273). -/
def keyParams (w : DWord) : Option (Nat × Nat × Nat) :=
  let nk := w.toNat % 2 ^ 13
  let k := w.toNat / 2 ^ 16 % 64
  if w.toNat / 2 ^ 13 % 8 = 0 ∧ w.toNat / 2 ^ 22 % 2 ^ 10 = 0 ∧ w.toNat / 2 ^ 32 % 4 = 0 ∧ 1 ≤ nk ∧ nk ≤ 4096 ∧
      1 ≤ k ∧ k ≤ 32 ∧ k ≤ nk then
    some (nk, k, w.toNat / 2 ^ 32)
  else none

/-- The checks of R276, in order: the scratch bases with the sizes of their hulls. A REC that is no multiple of 4 breaks
Table 20.1 and gives RANGE (log entry 75). -/
def keyChecks (size : Nat) (bad : Bool) (hd : Handle) (admits : Bool) (as : List (DWord × Nat)) (wr : Bool) :
    List (Bool × Cause × DWord) :=
  [(bad, .range, 0), (!hd.bound, .range, 0), (!admits, .illform, 0)] ++
  as.map (fun a => (decide (a.1.toInt % 4 ≠ 0), .misalign, a.1)) ++
  as.map (fun a => (outside size a.1.toInt a.2, .range, a.1)) ++ [(wr && !hd.wr, .prot, 0)]

/-! ## Selection (R278) -/

/-- The place of an F32 code in the ranking order: larger values first; −0 and +0 are equal, and every NaN is below
−inf. -/
def rankKey (c : Nat) : Nat :=
  (2 ^ 33 - (match decodeF .f32 c with
    | .nan _ => -2 ^ 32
    | _ => keyF32 c)).toNat

/-- The first k of some entries by a key, earlier ones first among equals. -/
def topBy {α : Type} (k : Nat) (key : α → Nat) (l : List α) : List α := l.foldl (fun acc x => (insBy key x acc).take k) []

/-- RN_F32(exp(d)) for d ≤ 0: exp(d) = 2^(−t) with t = −d / ln 2, from an enclosure far below half a unit in the last place
of the result (07 R75). -/
def expF32 (c : Nat) : Nat :=
  match decodeF .f32 c with
  | .nan _ => nanCode .f32
  | .inf neg => if neg then 0 else infCode .f32
  | .fin neg m e =>
    if m = 0 then 0x3F800000
    else if !neg then infCode .f32
    else
      let x := (FVal.fin false m e).ex
      let t := x.n.natAbs * 2 ^ 512 / (x.d * ln2Fix)
      let q := t / 2 ^ 256 + 1
      if 200 < q then 0
      else
        let f := 2 ^ 256 * q - t
        let y : Nat := if f = 2 ^ 256 then 2 ^ 257 else exp2Fix f
        (roundTo .f32 .rn false false false ((Ex.pow2 (-(256 + q : Nat) : Int)).mul (.ofInt y))).bits

/-- x + y and x − y and x / y in F32, rounded to nearest. -/
def addR (a b : Nat) : Nat := (addF .f32 .rn false (decodeF .f32 a) (decodeF .f32 b)).bits
/-- RN_F32(x − y). -/
def subR (a b : Nat) : Nat := (subF .f32 .rn false (decodeF .f32 a) (decodeF .f32 b)).bits
/-- RN_F32(x / y). -/
def divR (a b : Nat) : Nat := (divF .f32 .rn false false (decodeF .f32 a) (decodeF .f32 b)).bits

/-- The k chosen keys of a lane with their weights, in rank order (R278). -/
def selectKeys (nk k : Nat) (as bs : List Nat) : List (Nat × Nat) :=
  let top (l : List Nat) : List (Nat × Nat) := topBy k (fun p => rankKey p.1) l.zipIdx
  let cands := sortBy (·.2) ((top as).flatMap fun a => (top bs).map fun b => (addR a.1 b.1, a.2 * nk + b.2))
  let best := topBy k (fun p => rankKey p.1) cands
  let s0 := ((best.head?).map (·.1)).getD 0
  let es := best.map fun p => expF32 (subR p.1 s0)
  let z := match es with
    | [] => 0
    | e :: es => es.foldl addR e
  (best.zip es).map fun p => (p.1.2, divR p.2 z)

/-- The words of a lane's record: k indices and weights, null indices and +0 beyond (R278). -/
def recordWords (sel : List (Nat × Nat)) : List Nat :=
  (List.range 32).map (fun r => ((sel[r]?).map (·.1)).getD 0xFFFFFFFF) ++
  (List.range 32).map (fun r => ((sel[r]?).map (·.2)).getD 0)

/-- The scores of a lane: NK half-A and NK half-B (R274). -/
def Team.scores (tm : Team) (sq nk lane : Nat) : List Nat × List Nat :=
  let at_ (a : Nat) : List Nat := (List.range nk).map fun i => leNat (tm.scrRead (a + 4 * i) 4)
  (at_ (sq + 8 * nk * lane), at_ (sq + 8 * nk * lane + 4 * nk))

/-! ## KLOOK (R275 to R280) -/

/-- KLOOK: its checks, and the hold while the unit selects (R276, R277). The hold begins once every earlier access of the
group has been performed. -/
def execKlook (h : Hdr) (trap f32 : Bool) (sd sq sh sk : BitVec 8) (stat : Option GStat) (s : State) :
    Host.Outcome State Fault Refusal :=
  withIssue (.klook h trap f32 sd sq sh sk stat) s fun x s =>
    let hn := x.sR h (.plain sh)
    let hd := x.tm.handle hn
    let a := x.sR h (.plain sd)
    let q := x.sR h (.plain sq)
    let ps := keyParams (x.sR h (.plain sk))
    let (nk, k, rec) := ps.getD (1, 1, 0)
    x.firstFault h (keyChecks (x.tm.scrSize s) ps.isNone hd (gatherAdmits .wsum f32 hd.fmt)
        [(a, 32 * hd.eb f32), (q, 256 * nk), (BitVec.ofNat 64 rec, 8192)] false) (fun s =>
      if x.g.ops.any Op.unperformed || x.g.acquireOpen x.g.nextOp || x.g.releaseOpen x.g.nextOp then s
      else
        let lanes := x.active h
        let cc := (8 * nk * popCount lanes + 191) / 192 + 2 * k + 24
        let g : GOp := {
          mode := .wsum, f32 := f32, trap := trap, key := some rec, hnum := hn.toNat, h := hd, base := a.toInt, n := k,
          lanes := lanes, slots := [], stat := stat, parts := [], sent := false }
        x.hold h (.klook (s.now + cc) g q.toNat nk k rec) true s) s

/-- The records of some lanes are written, unless a lane's race fault suppresses its record (R279). -/
def State.writeRecords (s : State) (t : Nat) (rec : Nat) (sels : List (Nat × List (Nat × Nat))) (skip : Word) : State :=
  sels.foldl (fun s e =>
    if skip.getLsbD e.1 then s
    else s.putScratch t (rec + 256 * e.1 : Nat) ((recordWords e.2).flatMap (natLe 4))) s

/-- The gather phase of a KLOOK begins, or a reissue for lanes that waited joins it; while lanes wait for an answer it sends
nothing (R277, R280, 14 R208). -/
def Iss.startKlook (x : Iss) (q : GOp) (rec : Nat) (wait : Bool) (s : State) : State :=
  s.modG x.r fun g =>
    if !g.live then g
    else
      let (g, i) := ({ x with g := g } : Iss).place s.now (.gather q) [4] true
        [q.h.fp false, ⟨.scratch x.r.team, q.base, q.base + (32 * q.h.eb q.f32 : Nat), true⟩,
         ⟨.scratch x.r.team, rec, (rec + 8192 : Nat), true⟩] none 0 .rlx .grp g
      g.modOp i fun p => { p with waitRetry := wait }

/-- KLOOK_SELECTION_END: the unit has read the scores and writes the records, checked and recorded as plain scratch stores
and as accesses of the group itself, which await no engine operation (log entry 76); n4 rises and the gather phase begins
(R277 to R280). Lanes whose record is refused are left out of it; those that RETRY holds join it when they are
reissued. DESIGN CHOICE (log entry 92): an uncorrectable score is the DATAERR of its lane at the held KLOOK, and under IGN the
lane writes no record and its row is that of an empty bag. -/
def execKlookSelectionEnd (r : SRef) (s : State) : Host.Outcome State Fault Refusal :=
  match s.at? r with
  | none => .next s
  | some x => match x.sp.hold with
    | .klook till q sq nk k rec =>
      if s.now < till ∨ (x.waiting.isNone = true ∧ x.g.full [4] true = true) then .next s
      else
        let hurt (l : Nat) : Bool := x.tm.scrDamaged (sq + 8 * nk * l) (8 * nk)
        let sels := (lanesOf q.lanes).map fun l =>
          let sc := x.tm.scores sq nk l
          (l, selectKeys nk k sc.1 sc.2)
        let reach := x.reachAll true true (fun l =>
          if hurt l then .error (.plain l .dataerr (BitVec.ofNat 64 (sq + 8 * nk * l)))
          else .ok (.scr (rec + 256 * l) 256)) (lanesOf q.lanes) s
        let skip := maskOf (reach.fs.map (·.lane))
        let s := reach.s.writeRecords r.team rec sels skip
        let slots := sels.flatMap fun e => if hurt e.1 then [] else
          e.2.zipIdx.map fun p => q.h.slot e.1 (32 * e.1 + p.2) (BitVec.ofNat 32 p.1.1) (BitVec.ofNat 32 p.1.2)
        let q := { q with slots := slots, recs := q.lanes &&& ~~~skip, sels := sels }
        let go (q : GOp) (s : State) : State :=
          ((x.startKlook q rec false s).modSplit r fun y => { y with hold := .run }).passHeld r
            (if q.stat.isSome then 3 else 2)
        if reach.fs.isEmpty then .next (go q s)
        else
          let f := x.itemFaults reach.fs s
          let out := skip &&& ~~~f.ign
          let q := { q with lanes := q.lanes &&& ~~~out, slots := slots.filter fun t => !out.getLsbD t.lane }
          .next (x.afterFaults { f with s := if f.wait = 0 ∨ f.whole then f.s else x.startKlook q rec true f.s } (go q))
    | _ => .next s

/-- KLOOK_GATHER_COMPLETION: the weighted gather has its last piece, and its rows and status are written (R280, R282). -/
def execKlookGatherCompletion (o : ORef) (s : State) : Host.Outcome State Fault Refusal :=
  match s.op? o with
  | none => .next s
  | some (_, g, p) => match p.kind with
    | .gather q => if q.key.isSome && !p.waitRetry && g.mayGo p && q.slots.all (!·.open_) then .next (s.endGather o p q) else .next s
    | _ => .next s

/-! ## KGRAD (R281) -/

/-- KGRAD: its checks, and its operation on n4, which reads the record and the gradient rows later (R276, R281). -/
def execKgrad (h : Hdr) (trap : Bool) (sg sh sk : BitVec 8) (stat : Option GStat) (s : State) :
    Host.Outcome State Fault Refusal :=
  withIssue (.kgrad h trap sg sh sk stat) s fun x s =>
    let hn := x.sR h (.plain sh)
    let hd := x.tm.handle hn
    let a := x.sR h (.plain sg)
    let ps := keyParams (x.sR h (.plain sk))
    let (_, k, rec) := ps.getD (1, 1, 0)
    let size := 32 * (4 * hd.elems)
    x.firstFault h (keyChecks (x.tm.scrSize s) ps.isNone hd hd.fmt.inF
        [(a, size), (BitVec.ofNat 64 rec, 8192)] true) (fun s =>
      if x.g.full [4] true then s
      else
        let q : SOp := {
          op := some .add, f32 := true, trap := trap, hnum := hn.toNat, h := hd, base := a.toInt, n := 32,
          lanes := x.active h, slots := [], stat := stat, key := some (rec, k), read := false, upds := [] }
        x.issueBuilt h { kind := .scatter q, ctrs := [4], bn := none, bytes := 0,
                         fp := [hd.fp true, ⟨.scratch x.r.team, a.toInt, a.toInt + size, false⟩,
                                ⟨.scratch x.r.team, rec, (rec + 8192 : Nat), false⟩] } [] s) s

end Sys2Proof.Machine
end

