-- ==== Sys2Proof/Machine/Expand.lean ====
section
/-! DEFINITION. Class 0xD, the expand unit (22 R285 to R296): XPND, XNEXT and SEGRED with the rendezvous of their span,
XSTAT and XABORT. -/

namespace Sys2Proof.Machine

/-! ## Spans (R285) -/

/-- The members of a span of some size that a group belongs to. -/
def Team.span (t : Team) (g size : Nat) : List Group := t.groups.filter fun x => x.grp / size = g / size

/-- The arrivals of the members of a span. -/
def Team.spanArrs (t : Team) (g size : Nat) : List SpanArr :=
  sortBy (·.grp) (((t.spanArr.map (·.2.2)).filter fun a => a.grp / size = g / size))

/-- A lane without an iteration reads this as %own (R287). -/
def noOwner : Word := 0xFFFFFFFF

/-- Changing a group's expansion state. -/
def Group.modXp (g : Group) (f : Expand → Expand) : Group := { g with xp := g.xp.map f }

/-! ## Endings (R288, R293) -/

/-- A held member takes a fault of its instruction at group level or above. -/
def State.failSpan (s : State) (t : Nat) (c : Cause) (a : SpanArr) : State :=
  let r : SRef := ⟨t, a.grp, a.split⟩
  match s.at? r with
  | none => s
  | some x => x.groupFault ⟨.w2, 0, 0, false, 0⟩ c 0 (s.modSplit r fun y => { y with hold := .run })

/-- The end of an expansion in the members of its span (R293): every %own becomes invalid, and each killed owner's lane is
vacated as by EXIT with its item counted as killed; a member left without an occupied lane jumps at its next instruction
boundary. -/
def State.endExpansion (s : State) (t g size : Nat) : State :=
  match s.team? t with
  | none => s
  | some tm => (tm.span g size).foldl (fun s m =>
    match m.xp with
    | none => s
    | some e =>
      let dead := maskBy fun l => e.killed.getD (32 * (m.grp % size) + l) false && m.occ.getLsbD l
      let s := s.modGroup t m.grp fun m => { m with xp := none }
      if dead = 0 then s
      else (s.countItems tm.launch .killed (m.itemsOf dead)).modGroup t m.grp fun m => m.vacate s.now dead (tm.refillPc s) none) s

/-- A lane's %own names an owner (R287). -/
def Group.owned (g : Group) : Bool := g.xp.any fun e => e.own.any (· != noOwner)

/-- A split has written a register with another value, or not (03 R36). -/
def Group.louden (g : Group) (sp : Nat) (b : Bool) : Group := g.modSplit sp fun x => { x with loud := x.loud || b }

/-- A held member's instruction completes with some results under interlock; it is loud when they change a register, or %own
has changed (03 R36). -/
def State.passSpan (s : State) (t : Nat) (a : SpanArr) (ws : List (Loc × DWord × DWord)) (own : Bool := false) : State :=
  (s.modGroup t a.grp fun g =>
    ws.foldl (fun g w => g.writeNow w.1 w.2.1 w.2.2) (g.louden a.split (own || ws.any (g.changes a.split)))).passHeld
      ⟨t, a.grp, a.split⟩ 2

/-- kC and sB of XNEXT become 0, and SEGRED has no effect (R290, R291). -/
def SpanArr.idle (a : SpanArr) : List (Loc × DWord × DWord) :=
  match a.kind with
  | .xnext _ => maskW (a.dst.getD 1 0) 0xFFFFFFFF 0 ++ sclW (a.dst.getD 2 0) 0
  | _ => []

/-! ## XPND (R288) -/

/-- The prefix sums of some lengths. -/
def prefixes : Nat → List Word → List Nat
  | _, [] => []
  | p, n :: l => p :: prefixes (p + n.toNat) l

/-- The beginning of an expansion in every member, or RANGE on the lanes with a length when T reaches 2^32. -/
def State.beginExpansion (s : State) (t : Nat) (sp : Span) (as : List SpanArr) : State :=
  let col (i : Nat) (a : SpanArr) : List Word :=
    (List.range 32).map fun l => if a.occ.getLsbD l then (a.vals.getD i []).getD l 0 else 0
  let lens := as.flatMap (col 1)
  let total := (lens.map (·.toNat)).sum
  if 2 ^ 32 ≤ total then
    as.foldl (fun s a =>
      let r : SRef := ⟨t, a.grp, a.split⟩
      match s.at? r with
      | none => s
      | some x =>
        let ls := (List.range 32).filter fun l => (col 1 a).getD l 0 ≠ 0
        if ls.isEmpty then s.passSpan t a []
        else
          let s := s.modSplit r fun y => { y with hold := .run }
          x.afterFaults (x.itemFaults (ls.map fun l => .plain l .range 0) s) fun s => s.passSpan t a []) s
  else
    let e : Expand := {
      span := sp, starts := as.flatMap (col 0), lens := lens, pre := prefixes 0 lens, total := total, cur := 0,
      rounds := 0, killed := List.replicate (32 * sp.size) false, own := List.replicate 32 noOwner,
      iter := List.replicate 32 none }
    as.foldl (fun s a => (s.modGroup t a.grp fun g => { g with xp := some e }).passSpan t a []) s

/-! ## XNEXT (R290) -/

/-- The owner of an iteration: its position with its prefix. -/
def Expand.ownerAt (e : Expand) (t : Nat) : Option (Nat × Nat) :=
  ((e.pre.zip e.lens).zipIdx.find? fun p => decide (p.1.1 ≤ t ∧ t < p.1.1 + p.1.2.toNat)).map fun p => (p.2, p.1.1)

/-- What a round deals to one worker: its member, its lane, and the iteration (owner, inner index, t) if one is left. -/
structure Dealt where
  grp : Nat
  lane : Nat
  it : Option (Nat × Nat × Nat)

/-- The workers of a span in order, with what the round deals to each. -/
def deal (e : Expand) (ms : List Group) : List Dealt :=
  let ws := ms.flatMap fun m => (lanesOf m.occ).map fun l => (m.grp, l)
  ws.zipIdx.map fun w =>
    let t := e.cur + w.2
    { grp := w.1.1, lane := w.1.2,
      it := if t < e.total then (e.ownerAt t).map fun o => (o.1, t - o.2, t) else none }

/-- The results and the new state of one member in a round. -/
def State.dealMember (s : State) (t : Nat) (e : Expand) (ms : List Group) (ds : List Dealt) (n : Nat) (a : SpanArr) :
    State :=
  let mine := ds.filter (·.grp = a.grp)
  let valid (o : Nat) : Bool := !e.killed.getD o false
  let vd := a.dst.getD 0 0
  let item := match a.kind with
    | .xnext i => i
    | _ => false
  let base := a.grp / e.span.size * e.span.size
  let ws := mine.flatMap fun d => match d.it with
    | none => []
    | some (o, j, _) =>
      let v (k : Nat) (x : Word) : Loc × DWord × DWord := (.v (vd + k) d.lane, ones, x.setWidth 64)
      let it : BitVec 48 := match ms.find? (·.grp = base + o / 32) with
        | some m => m.itemOf (o % 32)
        | none => 0
      [v 0 (e.starts.getD o 0 + BitVec.ofNat 32 j), v 1 (BitVec.ofNat 32 j)] ++
      (if item then [v 2 (it.setWidth 32), v 3 ((it >>> 32).setWidth 32)] else [])
  let km := maskBy fun l => mine.any fun d => d.lane == l && (match d.it with
    | some (o, _, _) => valid o
    | none => false)
  let find (l : Nat) : Option (Nat × Nat × Nat) := (mine.find? (·.lane = l)).bind (·.it)
  let own := (List.range 32).map fun l => ((find l).map fun i => BitVec.ofNat 32 i.1).getD noOwner
  let old := ((s.group? t a.grp).bind (·.xp)).map (·.own)
  let s := s.modGroup t a.grp fun g => g.modXp fun e =>
    { e with
      cur := e.cur + n, rounds := e.rounds + 1
      own := own
      iter := (List.range 32).map fun l => (find l).filter fun i => valid i.1 }
  s.passSpan t a (ws ++ maskW (a.dst.getD 1 0) 0xFFFFFFFF km ++ sclW (a.dst.getD 2 0) (BitVec.ofNat 64 n)) (old != some own)

/-- One round of XNEXT (R290). -/
def State.nextRound (s : State) (t size : Nat) (as : List SpanArr) : State :=
  match as, s.team? t with
  | a :: _, some tm =>
    let ms := tm.span a.grp size
    match ms.findSome? (·.xp) with
    | none => as.foldl (fun s a => s.passSpan t a a.idle) s
    | some e =>
      if e.total ≤ e.cur then
        (as.foldl (fun s a => s.passSpan t a a.idle (((s.group? t a.grp).map (·.owned)).getD false)) s).endExpansion
          t a.grp size
      else
        let ds := deal e ms
        let n := min ds.length (e.total - e.cur)
        as.foldl (fun s a => s.dealMember t e ms ds n a) s
  | _, _ => s

/-! ## SEGRED (R291) -/

/-- One step of SEGRED's fold. -/
def segStep (op : RedOp) (a b : Nat) : Nat :=
  match op with
  | .fadd => sumStep .f32 a b
  | .fmin => redMinMax false [a, b]
  | .fmax => redMinMax true [a, b]
  | op => redStep op false a b

/-- SEGRED over the arrived members: the terms of each owner that is not killed, in ascending t, onto the owner's own
register (R291). -/
def State.segFold (s : State) (t size : Nat) (as : List SpanArr) (op : RedOp) : State :=
  match as, s.team? t with
  | a :: _, some tm =>
    let ms := tm.span a.grp size
    match ms.findSome? (·.xp) with
    | none => as.foldl (fun s a => s.passSpan t a []) s
    | some e =>
      let terms : List (Nat × Nat × Nat) := as.flatMap fun a =>
        let it := ((ms.find? (·.grp = a.grp)).bind (·.xp)).map (·.iter) |>.getD []
        (lanesOf a.occ).filterMap fun l => (it.getD l none).map fun i =>
          (i.1, i.2.2, ((a.vals.getD 0 []).getD l 0).toNat)
      let owners := (sortBy id (terms.map (·.1)).dedup).filter fun o => !e.killed.getD o false
      as.foldl (fun s a =>
        let ws := owners.filterMap fun o =>
          if o / 32 = a.grp % size then
            (s.group? t a.grp).map fun g =>
              let v := a.dst.getD 0 0
              let old := (g.vr a.split v (o % 32)).toNat
              let mine := sortBy (·.2.1) (terms.filter (·.1 = o))
              (Loc.v v (o % 32), ones, BitVec.ofNat 64 (mine.foldl (fun acc x => segStep op acc x.2.2) old))
          else none
        s.passSpan t a ws) s
  | _, _ => s

/-! ## The rendezvous (R288 to R291) -/

/-- Performing an instruction whose members have all arrived: with differing SUB (for SEGRED also D) every member takes
QUARTET; XPND in a member with an active expansion is XBUSY in every member (R288). -/
def State.performSpan (s : State) (t size : Nat) (as : List SpanArr) : State :=
  match as with
  | [] => s
  | a :: bs =>
    if bs.any fun b => b.kind ≠ a.kind then as.foldl (fun s a => s.failSpan t .quartet a) s
    else match a.kind with
      | .xpnd sp =>
        if (as.any fun a => ((s.group? t a.grp).bind (·.xp)).isSome) then as.foldl (fun s a => s.failSpan t .xbusy a) s
        else s.beginExpansion t sp as
      | .xnext _ => s.nextRound t size as
      | .segred op _ => s.segFold t size as op

/-- The members that have arrived leave the rendezvous. -/
def State.takeSpan (s : State) (t : Nat) (as : List SpanArr) : State :=
  s.modTeam t fun tm => { tm with spanArr := tm.spanArr.filter fun a => !as.contains a.2.2 }

/-- Arriving at the rendezvous of a span: a span of 1 is performed at once; otherwise the split is held; beside a member
that has retired the arrival takes QUARTET (R288). -/
def Iss.arriveSpan (x : Iss) (h : Hdr) (size : Nat) (a : SpanArr) (s : State) : State :=
  let n := x.g.spans
  let s := s.modG x.r fun g => { g with spans := n + 1 }
  if x.tm.groups.length % size ≠ 0 then x.groupFault h .quartet 0 s
  else if (x.tm.span x.r.grp size).any (!·.live) then x.groupFault h .quartet 0 s
  else
    let s := x.hold h (.span n) false s
    if size = 1 then s.performSpan x.r.team 1 [a]
    else s.modTeam x.r.team fun t => { t with spanArr := t.spanArr ++ [(size, n, a)] }

/-- SPAN_RENDEZVOUS: the span that a held member of the team belongs to. All members have arrived and the instruction is
performed; a member that has retired, or an arrival whose SUB differs, gives QUARTET to those that have arrived (R288). -/
def execSpanRendezvous (team grp : Nat) (s : State) : Host.Outcome State Fault Refusal :=
  match s.team? team with
  | none => .next s
  | some tm => match tm.spanArr.find? (·.2.2.grp = grp) with
    | none => .next s
    | some (size, _, a) =>
      let as := tm.spanArrs grp size
      let ms := tm.span grp size
      let bad := ms.any (!·.live) || (as.length == ms.length && as.any fun b => b.kind ≠ a.kind)
      if bad then .next (as.foldl (fun s a => s.failSpan team .quartet a) (s.takeSpan team as))
      else if as.length < ms.length then .next s
      else .next ((s.takeSpan team as).performSpan team size as)

/-- The span of a group's active expansion; without one the group is alone. -/
def Group.spanSize (g : Group) : Nat := (g.xp.map (·.span.size)).getD 1

/-- The lanes' values of a register, in lane order. -/
def Iss.column (x : Iss) (n : Nat) : List Word := (List.range 32).map fun l => x.g.vr x.sp.id n l

/-- XPND (R288). -/
def execXpnd (h : Hdr) (sp : Span) (vs vl : Reg) (s : State) : Host.Outcome State Fault Refusal :=
  withIssue (.xpnd h sp vs vl) s fun x s =>
    x.arriveSpan h sp.size
      { grp := x.r.grp, split := x.sp.id, kind := .xpnd sp, dst := [],
        vals := [x.column (x.eff h vs), x.column (x.eff h vl)], occ := x.g.occ } s

/-- XNEXT (R289, R290). -/
def execXnext (h : Hdr) (item : Bool) (vd : Reg) (kc sb : BitVec 8) (s : State) : Host.Outcome State Fault Refusal :=
  withIssue (.xnext h item vd kc sb) s fun x s =>
    x.arriveSpan h x.g.spanSize
      { grp := x.r.grp, split := x.sp.id, kind := .xnext item, dst := [x.eff h vd, kc.toNat, sb.toNat], vals := [],
        occ := x.g.occ } s

/-- SEGRED (R291). -/
def execSegred (h : Hdr) (op : RedOp) (vd va : Reg) (s : State) : Host.Outcome State Fault Refusal :=
  withIssue (.segred h op vd va) s fun x s =>
    x.arriveSpan h x.g.spanSize
      { grp := x.r.grp, split := x.sp.id, kind := .segred op vd.num.toNat, dst := [x.eff h vd],
        vals := [x.column (x.eff h va)], occ := x.g.occ } s

/-! ## XSTAT and XABORT (R292, R293) -/

/-- XSTAT's values (Table 22.2). -/
def xstatVal (g : Group) (f : Nat) : Nat :=
  match g.xp with
  | none => 0
  | some e =>
    if f = 0 then e.total
    else if f = 1 then e.cur
    else if f = 2 then e.rounds
    else 1 + e.span.code.toNat * 2 + g.grp % e.span.size * 8 + (if e.killed.any id then 32 else 0)

/-- XSTAT (R292). -/
def execXstat (h : Hdr) (f : BitVec 6) (sd : Reg) (s : State) : Host.Outcome State Fault Refusal :=
  withIssue (.xstat h f sd) s <| uniform h fun x s =>
    x.result (.xstat h f sd) h (sclW (x.eff h sd) (BitVec.ofNat 64 (xstatVal x.g f.toNat))) s

/-- XABORT: the span's expansion ends at once, and members held at a rendezvous of XNEXT or SEGRED complete it as for an
inactive expansion (R293). -/
def execXabort (h : Hdr) (s : State) : Host.Outcome State Fault Refusal :=
  withIssue (.xabort h) s <| uniform h fun x s =>
    match x.g.xp with
    | none => x.pass h false s
    | some e =>
      let size := e.span.size
      let as := (x.tm.spanArrs x.r.grp size).filter fun a => match a.kind with
        | .xpnd _ => false
        | _ => true
      let s := x.pass h x.g.owned (s.takeSpan x.r.team as)
      let s := as.foldl (fun s a => s.passSpan x.r.team a a.idle) s
      s.endExpansion x.r.team x.r.grp size

end Sys2Proof.Machine
end

