-- ==== Sys2Proof/Machine/Queues.lean ====
section
/-! DEFINITION. Class 0xD, work queues (22 R297 to R302): ENQ, ENQB and QSTAT, the appends that the Marver die makes, and
the closing of a fed queue. -/

namespace Sys2Proof.Machine

/-- The launch that a context's fed queue feeds (R297, R299). -/
def State.fedQueue? (s : State) (ctx q : Nat) : Option Launch :=
  if q < 64 then (match (s.queue q).fedBy.bind s.launch? with
    | some l => if l.ctx = ctx then some l else none
    | none => none)
  else none

/-- A bin set of a context (Table 22.5). -/
def State.binSet? (s : State) (ctx b : Nat) : Option BinSet :=
  if b < 16 then (s.ctx? ctx).bind fun c => c.bins.get none b else none

/-- The class of a length: the first whose bound is at least it, or the last (R299). -/
def BinSet.classOf (b : BinSet) (n : Nat) : Nat :=
  (b.bounds.findIdx? fun x => decide (n ≤ x)).getD (b.bounds.length - 1)

/-- The target operand of ENQ and ENQB. -/
def Iss.enqTgt (x : Iss) (h : Hdr) : EnqTgt → Nat
  | .reg r => (x.sR h r).toNat
  | .imm q => q.toNat

/-- Checking a lane's source row: MISALIGN, RANGE (R299). -/
def checkRow (size lane off : Nat) : Option LFault :=
  if off % 16 ≠ 0 then some (.plain lane .misalign (BitVec.ofNat 64 off))
  else if size < off + 16 then some (.plain lane .range (BitVec.ofNat 64 off))
  else none

/-- Issuing ENQ or ENQB: the rows of its faultless active lanes, each with its queue and class, appended by an engine
operation that counts once on n1; a target that does not exist raises RANGE and appends nothing (R299, R300). -/
def Iss.enqueue (x : Iss) (h : Hdr) (close bins : Bool) (vd va : Reg) (tgt : Nat) (qs : Option (List Nat))
    (cls : Nat → Nat) (s : State) : State :=
  if x.waiting.isNone && x.g.full [1] true then s
  else
    let d := x.eff h vd
    let zero (m : Word) := vecW d m fun _ => 0
    let b (close : Bool) (rows : List ERow) (fp : List Region) : Built :=
      { kind := .enq close bins tgt d rows [] [], ctrs := [1], fp := fp, bn := none, bytes := 0 }
    match qs with
    | none => x.issueBuilt h (b false [] []) (x.uniFault .range 0 []) s zero false
    | some qs =>
      let ls := (lanesOf (x.active h)).map fun l => (l, (x.g.vr x.sp.id (x.eff h va) l).toNat)
      let fs := ls.filterMap fun p => checkRow (x.tm.scrSize s) p.1 p.2
      let ok := ls.filter fun p => (checkRow (x.tm.scrSize s) p.1 p.2).isNone
      let fp := qs.map (fun q => ⟨.queue, q, q + 1, true⟩) ++
        hullOf x.r.team false false (ls.map fun p => BitVec.ofNat 64 p.2) 16
      let row (p : Nat × Nat) : ERow := { lane := p.1, off := p.2, cls := cls p.1, q := qs.getD (cls p.1) 0 }
      x.issueBuilt h (b close (ok.map row) fp) fs s zero false

/-- ENQ (R299). -/
def execEnq (h : Hdr) (close : Bool) (vd va : Reg) (q : EnqTgt) (s : State) : Host.Outcome State Fault Refusal :=
  withIssue (.enq h close vd va q) s fun x s =>
    let t := x.enqTgt h q
    x.enqueue h close false vd va t ((s.fedQueue? (x.tm.ctx s) t).map fun _ => [t]) (fun _ => 0) s

/-- ENQB (R299). -/
def execEnqb (h : Hdr) (vd va vc : Reg) (b : EnqTgt) (s : State) : Host.Outcome State Fault Refusal :=
  withIssue (.enqb h vd va vc b) s fun x s =>
    let t := x.enqTgt h b
    let set := s.binSet? (x.tm.ctx s) t
    let cls (l : Nat) : Nat := (set.map fun y => y.classOf (x.g.vr x.sp.id (x.eff h vc) l).toNat).getD 0
    x.enqueue h false true vd va t (set.map (·.qs)) cls s

/-! ## Appending -/

/-- The free slots of a fed queue's ring (R297). -/
def LQueue.room (q : LQueue) (nslot : Nat) : Nat := nslot - (q.appended - q.freed)

/-- An operation that has appended some of its rows to a queue and still has others for it: the items of an ENQ are
consecutive, so no other append to the queue is made meanwhile (R299). -/
def OpKind.midAppend (k : OpKind) (q : Nat) : Bool :=
  match k with
  | .enq _ bins _ _ rows res _ => !bins && !res.isEmpty && rows.any (·.q == q)
  | _ => false

/-- Another operation is in the middle of its appends to a queue. -/
def State.appending (s : State) (o : ORef) (q : Nat) : Bool :=
  s.teams.any fun t => t.groups.any fun g => g.ops.any fun p =>
    !(t.id == o.team && g.grp == o.grp && p.id == o.op) && p.kind.midAppend q

/-- Clearing the bit of a block in a bitmap, with the rest of its byte where it is the byte's first (24 R313). -/
def State.clearBit (s : State) (ctx : Nat) (bitmap : DWord) (b : Nat) : State :=
  let a := bitmap.toNat + b / 8
  let old := ((s.devRead ctx a 1).headD 0)
  s.devWrite ctx a [if b % 8 = 0 then 0 else old &&& ~~~(1#8 <<< (b % 8))]

/-- A block of a fed producer opens with the append of its first item: its completion bits are cleared (24 R313, log entry
52). -/
def State.openBlock (s : State) (l : Launch) (n : Nat) : State :=
  if n % 2 ^ l.desc.lblk = 0 then l.bitmaps.foldl (fun s b => s.clearBit l.ctx b (n / 2 ^ l.desc.lblk)) s else s

/-- What becomes of one row: it waits, it is refused with a cause, or it is appended as an item. -/
inductive Appended where
  | waits
  | refused (c : Cause)
  | item (n : Nat) (s : State)

/-- Appending one row (R297, R299): refused by a closed queue or for an uncorrectable source, waiting while the ring is
full, else written at its slot as the next item; an item of a block whose team has retired is counted as killed. DESIGN CHOICE
(log entry 93): a row whose queue is no fed queue of the context is refused as by a closed one. -/
def State.append1 (s : State) (o : ORef) (ctx : Nat) (r : ERow) : Appended :=
  match s.fedQueue? ctx r.q, s.team? o.team with
  | some l, some tm =>
    let q := s.queue r.q
    if q.closed then .refused .range
    else if s.appending o r.q || q.room l.desc.nslot == 0 then .waits
    else if tm.scrDamaged r.off 16 then .refused .dataerr
    else
      let s := s.devWrite l.ctx (l.desc.ring.toNat + 16 * (q.appended % l.desc.nslot)) (tm.scrRead r.off 16)
      let s := (s.openBlock l q.appended).modQueue r.q fun q => { q with appended := q.appended + 1 }
      let orphan := l.blks.any fun b => b.blk == q.appended / 2 ^ l.desc.lblk &&
        (match s.team? b.team with | some t => t.st == .retired | none => true)
      .item q.appended (if orphan then s.countItems l.id .killed [q.appended] else s)
  | _, _ => .refused .range

/-- The progress of an operation's appends: the rows left, the results, the refusals, the queues that wait. -/
structure Appends where
  s : State
  left : List ERow
  res : List (Nat × Word)
  bad : List (Nat × Cause)
  stuck : List Nat

/-- Appending rows in order; a row that waits holds back the later rows of its queue. -/
def State.appendRows (s : State) (o : ORef) (ctx : Nat) (bins : Bool) (rows : List ERow) : Appends :=
  rows.foldl (fun p r =>
    if p.stuck.contains r.q then { p with left := p.left ++ [r] }
    else match p.s.append1 o ctx r with
      | .waits => { p with left := p.left ++ [r], stuck := r.q :: p.stuck }
      | .refused c => { p with bad := p.bad ++ [(r.lane, c)] }
      | .item n s => { p with s := s, res := p.res ++ [(r.lane, BitVec.ofNat 32 (if bins then r.cls else n))] })
    ⟨s, [], [], [], []⟩

/-- QUEUE_APPEND: the rows of an ENQ or ENQB that find room are appended; after the last, .CLOSE closes the queue, vD
receives its results, refused rows become engine faults, and n1 counts down (R299, 14 R219). While RETRY holds lanes of
it the rows wait too, so that they stay in lane order, until pre-emption drains them (R302). -/
def execQueueAppend (o : ORef) (s : State) : Host.Outcome State Fault Refusal :=
  match s.op? o with
  | none => .next s
  | some (tm, g, p) => match p.kind with
    | .enq close bins tgt vd rows res bad =>
      if (p.waitRetry && tm.acting) || !g.mayGo p then .next s
      else
        let r := s.appendRows o (tm.ctx s) bins rows
        let res := res ++ r.res
        let bad := bad ++ r.bad
        if !r.left.isEmpty || p.waitRetry then
          .next (r.s.modGroup o.team o.grp fun g => (g.modOp p.id fun p =>
            { p with kind := .enq close bins tgt vd r.left res bad }).louden p.split (!r.res.isEmpty))
        else
          let s := if close then r.s.modQueue tgt fun q => { q with closed := true } else r.s
          let s := s.modGroup o.team o.grp fun g =>
            let m := g.sameItems p (maskOf (res.map (·.1)))
            g.landOp p (vecW vd m fun l => ((res.find? (·.1 = l)).map (·.2)).getD 0) (!r.res.isEmpty)
          let fs := (sortBy Cause.code (bad.map (·.2)).dedup).map fun c =>
            opFault p (.plain 0 c 0) (maskOf ((bad.filter (·.2 = c)).map (·.1)))
          .next (s.endEngine o.team o.grp p fs)
    | _ => .next s

/-- QUEUE_CLOSE: system software closes a fed queue (R297). -/
def execQueueClose (q : Nat) (s : State) : Host.Outcome State Fault Refusal :=
  .next (if (s.queue q).fedBy.isSome then s.modQueue q fun q => { q with closed := true } else s)

/-! ## QSTAT (R301) -/

/-- QSTAT: RANGE for a number that is no fed queue of the context; the reading is made at the Marver die (R301). -/
def execQstat (h : Hdr) (f : BitVec 6) (sd sb : Reg) (s : State) : Host.Outcome State Fault Refusal :=
  withIssue (.qstat h f sd sb) s <| uniform h fun x s =>
    let q := (x.sR h sb).toNat
    if x.waiting.isNone && x.g.full [0] false then s
    else if (s.fedQueue? (x.tm.ctx s) q).isNone then
      x.uniOpFault h (.value []) 0 (sclW (x.eff h sd) 0) (.plain 0 .range 0) s
    else x.issueOp h (.qstat (x.eff h sd) f.toNat q) 0 [] .rlx .grp false [] (fun _ => []) s

/-- The slots of the ring whose items have ended, each free when its own item ends (R297, R301). -/
def LQueue.slotsFree (q : LQueue) (nslot : Nat) : Nat := nslot - (q.appended - q.freed - q.freedAhead.length)

/-- A reading of a fed queue (R301). -/
def LQueue.stat (q : LQueue) (nslot f : Nat) : Nat :=
  if f = 0 then q.appended else if f = 1 then q.dispensed
  else if f = 2 then (if q.closed then 1 else 0) else q.slotsFree nslot

/-- QSTAT_COMPLETION: the counts are read, sD is written and n0 counts down (R301). -/
def execQstatCompletion (o : ORef) (s : State) : Host.Outcome State Fault Refusal :=
  match s.op? o with
  | some (_, _, p) =>
    (match p.kind with
    | .qstat sd f q =>
      let n := (((s.queue q).fedBy.bind s.launch?).map fun l => l.desc.nslot).getD 0
      .next (s.modGroup o.team o.grp fun g =>
        (g.landOp p (sclW sd (BitVec.ofNat 64 ((s.queue q).stat n f))) false).opDone p.id)
    | _ => .next s)
  | none => .next s

end Sys2Proof.Machine
end

