-- ==== Sys2Proof/Machine/Remote.lean ====
section
/-! DEFINITION. Class 0xE (28 R353 to R364): remote writes, reads, reductions and flags, their capture in the retransmit
store, their arrival at a destination, RFENCE and CSIG. -/

namespace Sys2Proof.Machine

/-! ## Issue (R353, R354) -/

/-- The peer that a lane names. -/
def Iss.peer (x : Iss) (h : Hdr) (p : Peer) (l : Nat) : Nat :=
  match p with
  | .vec r => (x.g.vr x.sp.id (x.eff h r) l).toNat
  | .scl r => (x.sR h r).toNat

/-- The checks of a lane, in order (R354): the peer, the canonical form of its first and last byte (01 R11, log entry 77),
the alignment of both sides to min(size, 16), the scratch bytes. -/
def checkRemote (size : Nat) (t : RXfer) (n : Nat) (scr : Bool) : Option LFault :=
  let m := min n 16
  let off : DWord := BitVec.ofNat 64 t.off
  if 4096 ≤ t.peer then some (.plain t.lane .range 0)
  else if noncanon t.va.toNat ∨ noncanon (t.va.toNat + n - 1) then some (.plain t.lane .noncanon t.va)
  else if t.va.toNat % m ≠ 0 then some (.plain t.lane .misalign t.va)
  else if scr ∧ t.off % m ≠ 0 then some (.plain t.lane .misalign off)
  else if scr ∧ size < t.off + n then some (.plain t.lane .range off)
  else none

/-- A remote instruction's operation on n4, whose footprint is its scratch side, and the faults of its lanes (R354, R358, 12
Table 12.6). -/
def Iss.buildRemote (x : Iss) (h : Hdr) (p : Peer) (vb : Reg) (off : Option Reg) (n : Nat) (wr : Bool)
    (bar : Option (BitVec 4)) (data : Nat → List Byte) (kind : List RXfer → OpKind) (s : State) : Built × List LFault :=
  let ts : List RXfer := (lanesOf (x.active h)).map fun l =>
    { lane := l, peer := x.peer h p l, va := x.g.vr64 x.sp.id (x.eff h vb) l,
      off := (off.map fun r => (x.g.vr x.sp.id (x.eff h r) l).toNat).getD 0, data := data l, pkt := none, done := false,
      cause := none, pages := [] }
  let chk (t : RXfer) : Option LFault := checkRemote (x.tm.scrSize s) t n off.isSome
  let fp := if off.isSome then hullOf x.r.team false wr (ts.map fun t => BitVec.ofNat 64 t.off) n else []
  ({ kind := kind (ts.filter fun t => (chk t).isNone), ctrs := [4], fp := fp, bn := bar.map (·.toNat), bytes := 0 },
   ts.filterMap chk)

/-- Issuing a remote instruction: it counts once, even without an active lane (R358). -/
def Iss.issueRemote (x : Iss) (h : Hdr) (b : Built × List LFault) (s : State) : State :=
  if x.waiting.isNone && x.g.full [4] true then s else x.issueBuilt h b.1 b.2 s

/-- Bytes of a size code (R353). -/
def remoteSize (z : BitVec 4) : Nat := 2 ^ (z.toNat + 2)

/-- RWR's operation (R355). -/
def Iss.buildRwr (x : Iss) (h : Hdr) (z : BitVec 4) (peer : Peer) (vb vc : Reg) (bar : Option (BitVec 4)) (s : State) :
    Built × List LFault :=
  x.buildRemote h peer vb (some vc) (remoteSize z) false bar (fun _ => []) (.rwr (remoteSize z)) s

/-- RWR (R355). -/
def execRwr (h : Hdr) (z : BitVec 4) (peer : Peer) (vb vc : Reg) (bar : Option (BitVec 4)) (s : State) :
    Host.Outcome State Fault Refusal :=
  withIssue (.rwr h z peer vb vc bar) s fun x s => x.issueRemote h (x.buildRwr h z peer vb vc bar s) s

/-- RRD (R355). -/
def execRrd (h : Hdr) (z : BitVec 4) (peer : Peer) (vb vc : Reg) (bar : Option (BitVec 4)) (s : State) :
    Host.Outcome State Fault Refusal :=
  withIssue (.rrd h z peer vb vc bar) s fun x s =>
    x.issueRemote h (x.buildRemote h peer vb (some vc) (remoteSize z) true bar (fun _ => []) (.rrd (remoteSize z)) s) s

/-- RRED's operation (R357): NCON contributions, the field's value plus 1. -/
def Iss.buildRred (x : Iss) (h : Hdr) (op : AtomOp) (t : ElemTy) (z : BitVec 4) (ncon : BitVec 12) (peer : Peer)
    (vb vc : Reg) (bar : Option (BitVec 4)) (s : State) : Built × List LFault :=
  x.buildRemote h peer vb (some vc) (remoteSize z) false bar (fun _ => []) (.rred op t (remoteSize z) (ncon.toNat + 1)) s

/-- RRED (R357). -/
def execRred (h : Hdr) (op : AtomOp) (t : ElemTy) (z : BitVec 4) (ncon : BitVec 12) (peer : Peer) (vb vc : Reg)
    (bar : Option (BitVec 4)) (s : State) : Host.Outcome State Fault Refusal :=
  withIssue (.rred h op t z ncon peer vb vc bar) s fun x s =>
    x.issueRemote h (x.buildRred h op t z ncon peer vb vc bar s) s

/-- RFLAG's operation: the operand is captured at issue (R356). -/
def Iss.buildRflag (x : Iss) (h : Hdr) (op : FlagOp) (w64 : Bool) (peer : Peer) (vb vc : Reg) (bar : Option (BitVec 4))
    (s : State) : Built × List LFault :=
  let n := if w64 then 8 else 4
  let v (l : Nat) : Nat :=
    if w64 then (x.g.vr64 x.sp.id (x.eff h vc) l).toNat else (x.g.vr x.sp.id (x.eff h vc) l).toNat
  x.buildRemote h peer vb none n false bar (fun l => natLe n (v l)) (.rflag op w64) s

/-- RFLAG (R356). -/
def execRflag (h : Hdr) (op : FlagOp) (w64 : Bool) (peer : Peer) (vb vc : Reg) (bar : Option (BitVec 4)) (s : State) :
    Host.Outcome State Fault Refusal :=
  withIssue (.rflag h op w64 peer vb vc bar) s fun x s => x.issueRemote h (x.buildRflag h op w64 peer vb vc bar s) s

/-! ## Transfers of an operation -/

/-- The transfers of a remote operation. -/
def OpKind.xfers : OpKind → List RXfer
  | .rwr _ ts | .rrd _ ts | .rred _ _ _ _ ts | .rflag _ _ ts => ts
  | _ => []

/-- The same operation with other transfers. -/
def OpKind.withXfers (k : OpKind) (ts : List RXfer) : OpKind :=
  match k with
  | .rwr n _ => .rwr n ts
  | .rrd n _ => .rrd n ts
  | .rred op t n c _ => .rred op t n c ts
  | .rflag op w _ => .rflag op w ts
  | k => k

/-- A remote operation. -/
def OpKind.isRemote : OpKind → Bool
  | .rwr .. | .rrd .. | .rred .. | .rflag .. => true
  | _ => false

/-- Bytes of one transfer. -/
def OpKind.xferSize : OpKind → Nat
  | .rwr n _ | .rrd n _ | .rred _ _ n _ _ => n
  | .rflag _ w _ => if w then 8 else 4
  | _ => 0

/-- The message of a transfer of an operation; a write carries how many lanes of its instruction write to its peer (none
bounds them while lanes wait for an answer, or once RETRY sends some again, R355). -/
def Op.msg (p : Op) (o : ORef) (ctx seq : Nat) (t : RXfer) : RMsg :=
  match p.kind with
  | .rrd n _ => .read ctx t.va n
  | .rred op ty _ c _ => .red ctx t.va op ty c seq t.data
  | .rflag op w _ => .flag ctx t.va op w (BitVec.ofNat 64 (leNat t.data))
  | k => .write ctx t.va t.data o t.lane (if p.waitRetry || t.again then 33 else (k.xfers.filter (·.peer = t.peer)).length)

/-- Bytes that a message keeps in the retransmit store. -/
def msgBytes : RMsg → Nat
  | .write _ _ d _ _ _ | .red _ _ _ _ _ _ d => d.length
  | .read _ _ _ | .request => 0
  | .flag _ _ _ w _ => if w then 8 else 4

/-- Bytes that a reply keeps in the retransmit store. -/
def replyBytes : Outbox → Nat
  | .readAns _ (.done d) => d.length
  | .gatherAns _ ps => (ps.map fun p => match p.ans with | .done d => d.length | .refused _ _ _ => 0).sum
  | .sigAns _ _ => 8
  | _ => 0

/-- Bytes captured in the retransmit store, of 64 MiB (R352). -/
def State.storeHeld (s : State) : Nat :=
  ((s.store.filter fun p => !p.arrived).map fun p => msgBytes p.msg).sum + (s.replies.map fun p => replyBytes p.msg).sum

/-- Changing the transfer of a lane. -/
def OpKind.modXfer (k : OpKind) (lane : Nat) (f : RXfer → RXfer) : OpKind :=
  k.withXfers (k.xfers.map fun t => if t.lane = lane then f t else t)

/-- A locally complete operation whose transfers have all been answered leaves the record. -/
def State.tidyRemote (s : State) (o : ORef) : State :=
  s.modGroup o.team o.grp fun g =>
    { g with ops := g.ops.filter fun p => !(p.id == o.op && p.done && p.kind.isRemote && p.kind.xfers.all (·.done)) }

/-- Keeping the refusal of a transfer for the group's next RFENCE or REFILL, together with other lanes' refusals of the
operation with the same cause (R359). -/
def Group.refuse (g : Group) (p : Op) (lane : Nat) (f : LFault) : Group :=
  let e : EFault := { op := p, cause := f.cause, lanes := 1#32 <<< lane, addr := f.addr, pages := [], detail := f.detail,
                      own := [(lane, f.pages)], remote := true, stands := true, bar := none }
  let same (x : EFault) : Bool := x.remote && x.op.id == p.id && x.cause == f.cause
  if !g.live then g
  else if g.efaults.any same then
    { g with efaults := g.efaults.map fun x => if same x then
        { x with op := p, lanes := x.lanes ||| e.lanes, own := x.own ++ e.own,
                 addr := if lane < lowLane x.lanes then e.addr else x.addr } else x }
  else { g with efaults := g.efaults ++ [e] }

/-- A transfer has been performed at its destination, or refused with a fault; an RRD's fault is kept with its lane
(R359). -/
def State.endXfer (s : State) (o : ORef) (lane : Nat) (data : List Byte) (f : Option LFault) : State :=
  let s := s.modGroup o.team o.grp fun g => match g.op? o.op with
    | none => g
    | some p =>
      let k := p.kind.modXfer lane fun t =>
        { t with done := true, cause := f.map (·.cause), pages := (f.map (·.pages)).getD [], detail := (f.map (·.detail)).getD 0,
                 data := match p.kind with | .rrd _ _ => data | _ => t.data }
      let g := g.modOp p.id fun p => { p with kind := k }
      match p.kind, f with
      | .rrd _ _, _ => g
      | _, some f => g.refuse { p with kind := k } lane f
      | _, none => g
  s.tidyRemote o

/-! ## Capture and local completion (R352, R358) -/

/-- No RFENCE of the group that is older than an operation is held, nor waits for the answer to a fault that it raised: the
operation may be sent (R361). -/
def State.maySend (s : State) (tm : Team) (g : Group) (id : Nat) : Bool :=
  let older (h : Hold) : Bool := match h with
    | .rfence f _ _ => decide (f ≤ id)
    | _ => false
  !(g.splits.any fun x => older x.hold) &&
  match s.launch? tm.launch with
  | none => true
  | some l => !l.reports.any fun r => r.team == tm.id && r.grp == g.grp && older r.held

/-- An earlier RFLAG of the group to the same peer, or an earlier RRED to the same target, still has a transfer to capture:
these go out in issue order (R356, R357, R360). -/
def Group.sendsFirst (g : Group) (p : Op) (t : RXfer) : Bool :=
  g.ops.any fun q => decide (q.id < p.id) && match q.kind, p.kind with
    | .rflag _ _ us, .rflag _ _ _ => us.any fun u => u.peer == t.peer && u.pkt.isNone && !u.done
    | .rred a b n _ us, .rred c d m _ _ =>
      a == c && b == d && n == m && us.any fun u => u.peer == t.peer && u.va == t.va && u.pkt.isNone && !u.done
    | _, _ => false

/-- An operation of the small-message class, whose packets are ordered and not sprayed (R349, R351). -/
def OpKind.small : OpKind → Bool
  | .rflag .. => true
  | .rrd n _ => decide (n ≤ 8)
  | _ => false

/-- Capturing one lane's payload and sending it: the scratch bytes are read, unless RETRY resends the captured copy, and a packet takes room in the store. A peer
that cannot be reached gives NETFAULT at once (R350, R352); uncorrectable scratch bytes give DATAERR. -/
def State.capture1 (s : State) (o : ORef) (t : RXfer) : State :=
  match s.op? o with
  | none => s
  | some (tm, g, p) =>
    let n := p.kind.xferSize
    let reads := match p.kind with | .rwr .. | .rred .. => true | _ => false
    let reads := reads && t.data.isEmpty
    let d := if reads then tm.scrRead t.off n else t.data
    let m := p.msg o (tm.ctx s) s.nextPkt { t with data := d }
    if t.pkt.isSome || t.done || g.sendsFirst p t || decide (2 ^ 26 < s.storeHeld + msgBytes m) then s
    else
      let set (f : RXfer → RXfer) (s : State) : State :=
        s.modGroup o.team o.grp fun g => g.modOp o.op fun p => { p with kind := p.kind.modXfer t.lane f }
      let s := set (fun t => { t with data := d }) s
      if reads ∧ tm.scrDamaged t.off n then
        s.endXfer o t.lane [] (some (.plain t.lane .dataerr (BitVec.ofNat 64 t.off)))
      else if !s.reachable t.peer then s.endXfer o t.lane [] (some (.plain t.lane .netfault t.va))
      else
        let s := set (fun t => { t with pkt := some s.nextPkt }) s
        let (path, s) := if p.kind.small then (none, s) else s.sprayTo t.peer
        { s with
          nextPkt := s.nextPkt + 1
          store := s.store ++ [{ id := s.nextPkt, peer := t.peer, ctx := tm.ctx s, msg := m, op := o, xfer := t.lane,
                                 launch := tm.launch, tries := 0, firstAt := s.now, sentAt := s.now, arrived := false
                                 path := path }] }

/-- RETRANSMIT_CAPTURE: the lanes of a remote operation whose payloads find room in the retransmit store are captured and
sent; an RRD's requests are sent (R352). -/
def execRetransmitCapture (o : ORef) (s : State) : Host.Outcome State Fault Refusal :=
  match s.op? o with
  | none => .next s
  | some (tm, g, p) =>
    if p.kind.isRemote && !p.done && g.mayGo p && s.maySend tm g p.id then
      .next (p.kind.xfers.foldl (fun s t => s.capture1 o t) s)
    else .next s

/-- REMOTE_LOCAL_COMPLETION: every payload of an RWR, RRED or RFLAG is captured; n4 counts down and the barrier arrival
carries n bytes for every lane that has been captured (R352, R358). -/
def execRemoteLocalCompletion (o : ORef) (s : State) : Host.Outcome State Fault Refusal :=
  match s.op? o with
  | none => .next s
  | some (_, g, p) => match p.kind with
    | .rrd _ _ => .next s
    | k =>
      if k.isRemote && !p.done && !p.waitRetry && g.mayGo p && k.xfers.all (fun t => t.pkt.isSome || t.done) then
        let s := s.barUpdate o.team o.grp { p with bytes := k.xferSize * (k.xfers.filter fun t => t.pkt.isSome || t.cause.isNone).length } false
        .next ((s.modGroup o.team o.grp fun g => g.opLocal p.id).tidyRemote o)
      else .next s

/-- An RRD places a lane's bytes, but where a higher lane placed its own before RETRY reissued this one (R355). -/
def Team.placeRead (tm : Team) (n : Nat) (ts : List RXfer) (t : RXfer) : Team :=
  let hid (a : Nat) : Bool := ts.any fun u => u.placed && decide (t.lane < u.lane ∧ u.off ≤ a ∧ a < u.off + n)
  if (List.range n).any fun i => hid (t.off + i) then
    (List.range n).foldl (fun tm i => if hid (t.off + i) then tm else tm.scrWrite (t.off + i) [t.data.getD i 0]) tm
  else tm.scrWrite t.off t.data

/-- The number of the instruction's first operation. -/
def Op.root (p : Op) : Nat := p.first.getD p.id

/-- The lanes that an RRD has placed are known to what RETRY has issued, or may issue, of the same instruction. -/
def Group.notePlaced (g : Group) (root : Nat) (news : List RXfer) : Group :=
  let note (p : Op) : Op := match p.kind with
    | .rrd n ts => if p.root = root then
        { p with kind := .rrd n (sortBy (·.lane) (ts.filter (fun t => news.all (·.lane != t.lane)) ++ news)) } else p
    | _ => p
  { g with ops := g.ops.map note, efaults := g.efaults.map fun e => { e with op := note e.op } }

/-- RRD_COMPLETION: with other packages' answers for lanes, every faultless lane's bytes are placed in scratch, the
highest-numbered lane last, and n4 counts down; the arrival carries every byte placed, those before a reissue too; faults
are kept for the observing instruction (R355, R358, R359). -/
def execRrdCompletion (o : ORef) (peers : List (Nat × RAns)) (s : State) : Host.Outcome State Fault Refusal :=
  match s.op? o with
  | none => .next s
  | some (_, g, p) => match p.kind with
    | .rrd n ts =>
      let ts := ts.map fun t =>
        if t.done || t.pkt.isNone || t.peer == s.pkgNum then t
        else match peers.find? (·.1 = t.lane) with
          | some (_, .done d) => if d.length = n then { t with done := true, data := d } else t
          | some (_, .refused c pages d) => { t with done := true, cause := some c, pages := pages, detail := d }
          | none => t
      if p.done || p.waitRetry || !g.mayGo p || ts.any (!·.done) then .next s
      else
        let good := ts.filter fun t => t.cause.isNone && !t.placed
        let bad := ts.filterMap fun t => t.cause.map fun c => (⟨t.lane, c, t.va, t.pages, t.detail⟩ : LFault)
        let s := { s with store := s.store.filter fun k => k.op ≠ o }
        let s := good.foldl (fun s t => s.modTeam o.team fun tm => tm.placeRead n ts t) s
        let news := good.map fun t => { t with placed := true }
        let s := s.modGroup o.team o.grp fun g => g.notePlaced p.root news
        let p := { p with kind := .rrd n (ts.map fun t => { t with placed := t.cause.isNone }), bytes := p.bytes + n * good.length }
        let fs := ((opFaults p bad).map fun e =>
          { e with
            lanes := maskOf ((bad.filter (·.cause = e.cause)).map (·.lane)), pages := []
            own := (bad.filter (·.cause = e.cause)).map fun f => (f.lane, f.pages)
            op := if e.stands then { e.op with bytes := 0 } else e.op })
        .next (s.endEngine o.team o.grp p fs)
    | _ => .next s

/-! ## At the destination (R355 to R357, R359) -/

/-- Writing bytes at their home die cache (R355); UC bytes in memory. -/
def State.homePut (s : State) (bs : List (PByte × Byte)) : State :=
  (runsOf bs).foldl (fun s r => if r.1.uc then s.ucWrite r.1.pa r.2 else s.homeWrite r.1.pa r.2) s

/-- Translating a remote address by this package's tables of the context (R355). -/
def State.transRemote (s : State) (ctx : Nat) (nd : Need) (va : DWord) (n : Nat) : Except LFault (List PByte) :=
  transAll (s.transHome ctx nd) 0 va n

/-- The new value of a flag's location (R356). -/
def flagVal (op : FlagOp) (w64 : Bool) (old v : Nat) : Nat :=
  match op with
  | .set => v
  | .add => (old + v) % 2 ^ (if w64 then 64 else 32)
  | .or => old ||| v
  | .maxu => max old v

/-- A lane's bytes of an RWR are written where no higher lane of the instruction has written already; once every lane has
been performed the instruction is forgotten (R355). A lone lane is written whole, unless RETRY has sent it after others. -/
def State.writeLane (s : State) (src : Nat) (instr : ORef) (lane count : Nat) (bs : List (PByte × Byte)) : State :=
  let same (w : LaneWrites) : Bool := w.src == src && w.instr == instr
  if count ≤ 1 ∧ s.wins.any same = false then s.homePut bs
  else
    let w := (s.wins.find? same).getD { src := src, instr := instr, count := count, lanes := [], bytes := [] }
    let mine := bs.filter fun b => !(w.bytes.any fun e => e.1 == b.1.pa && decide (lane < e.2))
    let w := { w with count := max w.count count, lanes := lane :: w.lanes,
                      bytes := (mine.map fun b => (b.1.pa, lane)) ++ w.bytes }
    let rest := s.wins.filter (!same ·)
    { s.homePut mine with wins := if w.count ≤ w.lanes.length then rest else w :: rest }

/-- Performing a package's write, read or flag update at its home: the state, with the bytes read or the fault. -/
def State.performMsg (s : State) (src : Nat) (m : RMsg) : State × Except LFault (List Byte) :=
  let bad (bs : List PByte) : Bool := bs.any fun b => s.homeBad b.pa
  match m with
  | .write ctx va d i lane n => match s.transRemote ctx .write va d.length with
    | .error f => (s, .error f)
    | .ok bs => (s.writeLane src i lane n (bs.zip d), .ok [])
  | .read ctx va n => match s.transRemote ctx .read va n with
    | .error f => (s, .error f)
    | .ok bs => if bad bs then (s, .error (.plain 0 .dataerr va)) else (s, .ok (bs.map fun b => s.homeByte b.pa))
  | .flag ctx va op w v =>
    let n := if w then 8 else 4
    (match s.transRemote ctx .rmw va n with
      | .error f => (s, .error f)
      | .ok bs =>
        if bad bs then (s, .error (.plain 0 .dataerr va))
        else
          let old := leNat (bs.map fun b => s.homeByte b.pa)
          (s.homePut (bs.zip (natLe n (flagVal op w old v.toNat))), .ok []))
  | .red .. | .request => (s, .ok [])

/-- Answering another package. -/
def answerOf : Except LFault (List Byte) → RAns
  | .ok d => .done d
  | .error f => .refused f.cause f.pages f.detail

/-- A packet of this package's own store that is addressed to this package. -/
def State.ownPacket? (s : State) (k : Nat) : Option Packet :=
  s.store.find? fun p => p.id == k && p.peer == s.pkgNum && !p.arrived

/-- An earlier packet must be performed first: an earlier flag of the group to the peer (R356), or an earlier contribution of
the group to the target (R360). -/
def State.packetWaits (s : State) (p : Packet) : Bool :=
  s.store.any fun q => decide (q.id < p.id) && q.peer == p.peer && q.op.team == p.op.team && q.op.grp == p.op.grp &&
    match q.msg, p.msg with
    | .flag .., .flag .. => true
    | .red _ a o t _ _ d, .red _ b o' t' _ _ e => !q.arrived && a == b && o == o' && t == t' && d.length == e.length
    | _, _ => false

/-- An arrival that is performed as it comes, for a kind of message, while the package is up: an own packet leaves the store
with its transfer; a peer's message is answered. -/
def State.arrive (s : State) (sel : RMsg → Bool) (answer : State → Nat → RMsg → RAns → State) (a : Arrival) : State :=
  if s.pkg ≠ .up then s
  else match a with
  | .own k => match s.ownPacket? k with
    | none => s
    | some p =>
      if sel p.msg && !s.packetWaits p then
        let (s, r) := s.performMsg s.pkgNum p.msg
        let s := { s with store := s.store.filter (·.id ≠ k) }
        (match r with
          | .ok d => s.endXfer p.op p.xfer d none
          | .error f => s.endXfer p.op p.xfer [] (some f))
      else s
  | .peer src m =>
    if sel m then
      let (s, r) := s.performMsg src m
      answer s src m (answerOf r)
    else s

/-- A write or a flag update is acknowledged, with its refusal if it has one (R352, R359). -/
def State.acknowledge (s : State) (src : Nat) (_ : RMsg) (a : RAns) : State := s.send (.ack src a)

/-- A read is replied to: over RUD, or in the small-message class when it is of at most 8 bytes (R351, Table 28.1). -/
def State.answerRead (s : State) (src : Nat) (m : RMsg) (a : RAns) : State :=
  let small := match m with | .read _ _ n => decide (n ≤ 8) | _ => false
  s.reply src (!small) (.readAns src a)

/-- REMOTE_WRITE_ARRIVAL (R355). -/
def execRemoteWriteArrival (a : Arrival) (s : State) : Host.Outcome State Fault Refusal :=
  .next (s.arrive (fun m => match m with | .write .. => true | _ => false) State.acknowledge a)

/-- REMOTE_READ_ARRIVAL (R355). -/
def execRemoteReadArrival (a : Arrival) (s : State) : Host.Outcome State Fault Refusal :=
  .next (s.arrive (fun m => match m with | .read .. => true | _ => false) State.answerRead a)

/-- REMOTE_FLAG_ARRIVAL (R356). -/
def execRemoteFlagArrival (a : Arrival) (s : State) : Host.Outcome State Fault Refusal :=
  .next (s.arrive (fun m => match m with | .flag .. => true | _ => false) State.acknowledge a)

/-! ## Reduction rounds (R357, R364) -/

/-- The tier of a package (R349); a package that no table names is at tier 0. -/
def State.tierOf (s : State) (pkg : Nat) : Nat := ((s.peers.find? (·.1 = pkg)).map fun p => p.2.tier).getD 0

/-- Schedule order: ascending tier of the source, then source package, then the order of sending (R357). -/
def State.schedule (s : State) (cs : List Contrib) : List Contrib :=
  sortBy (fun c => s.tierOf c.src) (sortBy (·.src) (sortBy (·.seq) cs))

/-- The signature of a round over its contributions in application order (R364). -/
def State.signature (s : State) (cs : List Contrib) : DWord :=
  cs.foldl (fun h c => (h ^^^ BitVec.ofNat 64 (c.src * 256 + s.tierOf c.src)) * 0x00000100000001B3) 0

/-- One contribution applied to the elements of a target (R357). -/
def contribute (op : AtomOp) (t : ElemTy) (old d : List Byte) : List Byte :=
  let n := t.bits / 8
  (List.range (old.length / n)).flatMap fun e =>
    natLe n (atomVal op t (leNat ((old.drop (n * e)).take n)) (leNat ((d.drop (n * e)).take n)))

/-- The end of a contribution: this package's own transfer ends, another package is answered. -/
def State.endContrib (s : State) (c : Contrib) (f : Option LFault) : State :=
  match c.pkt with
  | none => s.send (.ack c.src (match f with | none => .done [] | some f => .refused f.cause f.pages f.detail))
  | some k => match s.store.find? (·.id = k) with
    | none => s
    | some p => ({ s with store := s.store.filter (·.id ≠ k) }).endXfer p.op p.xfer [] f

/-- A round closes: its contributions are applied one at a time in schedule order, and its signature is kept (R357,
R364). -/
def State.closeRound (s : State) (r : Round) : State :=
  let cs := s.schedule r.got
  match s.transRemote r.ctx .rmw r.va r.size with
  | .error f => cs.foldl (fun s c => s.endContrib c (some f)) s
  | .ok bs =>
    if bs.any fun b => s.homeBad b.pa then cs.foldl (fun s c => s.endContrib c (some (.plain 0 .dataerr r.va))) s
    else
      let old := bs.map fun b => s.homeByte b.pa
      let new := cs.foldl (fun a c => contribute r.op r.ty a c.data) old
      let h := s.signature cs
      let s := s.homePut (bs.zip new)
      let s := { s with sigs := ⟨r.ctx, r.va, h⟩ :: s.sigs.filter fun g => !(g.ctx == r.ctx && g.va == r.va) }
      cs.foldl (fun s c => s.endContrib c none) s

/-- The same target (R357). -/
def Round.same (a b : Round) : Bool :=
  a.ctx == b.ctx && a.va == b.va && a.size == b.size && a.op == b.op && a.ty == b.ty

/-- The endpoint, of twelve, that holds a target's rounds (R357, log entry 80). -/
def Round.endpoint (r : Round) : Nat := Config.endpointOf r.ctx r.va % 12

/-- A contribution arrives: it opens a round, joins the open one, or is refused with RANGE for another NCON; the round
that it fills closes. None while its endpoint holds 16,384 open rounds and it would open one more (R357). -/
def State.joinRound (s : State) (c : Contrib) (r : Round) : Option State :=
  let accept (s : State) : State := match c.pkt with
    | none => s.send (.ack c.src (.done []))
    | some k => { s with store := s.store.map fun p => if p.id = k then { p with arrived := true } else p }
  match s.transRemote r.ctx .rmw r.va r.size with
  | .error f => some (s.endContrib c (some f))
  | .ok _ =>
    match s.rounds.find? r.same with
    | some q =>
      if q.ncon ≠ r.ncon then some (s.endContrib c (some (.plain 0 .range r.va)))
      else
        let q' := { q with got := q.got ++ [c] }
        let s := accept s
        some (if q.ncon ≤ q'.got.length then ({ s with rounds := s.rounds.filter (!r.same ·) }).closeRound q'
          else { s with rounds := s.rounds.map fun x => if r.same x then q' else x })
    | none =>
      if 16384 ≤ (s.rounds.filter fun q => q.endpoint == r.endpoint).length then none
      else
        let q := { r with got := [c] }
        let s := accept s
        some (if r.ncon ≤ 1 then s.closeRound q else { s with rounds := s.rounds ++ [q] })

/-- REDUCTION_CONTRIBUTION (R357). -/
def execReductionContribution (a : Arrival) (s : State) : Host.Outcome State Fault Refusal :=
  if s.pkg ≠ .up then .next s
  else match a with
  | .own k => (match s.ownPacket? k with
    | some p => (match p.msg with
      | .red ctx va op ty ncon seq d =>
        if s.packetWaits p then .next s else .next ((s.joinRound ⟨s.pkgNum, seq, d, some k⟩ ⟨ctx, va, d.length, op, ty, ncon, []⟩).getD s)
      | _ => .next s)
    | none => .next s)
  | .peer src m => match m with
    | .red ctx va op ty ncon seq d =>
      .next ((s.joinRound ⟨src, seq, d, none⟩ ⟨ctx, va, d.length, op, ty, ncon, []⟩).getD s)
    | _ => .next s

/-- ACK_RECEIVE: another package acknowledges a packet, which frees its capture; a refusal is kept as a fault. The first
acknowledgement of a contribution frees its capture, and a second one says that its round has been applied, or refuses
it (R352, R357, R359, R361). A reply that is acknowledged leaves the store. -/
def execAckReceive (pkt : Nat) (ans : RAns) (s : State) : Host.Outcome State Fault Refusal :=
  match s.store.find? (·.id = pkt) with
  | none => .next { s with replies := s.replies.filter (·.id ≠ pkt) }
  | some p =>
    if p.peer = s.pkgNum then .next s
    else
      let gone : State := { s with store := s.store.filter (·.id ≠ pkt) }
      let va : DWord := match p.msg with
        | .write _ a .. | .read _ a _ | .flag _ a _ _ _ | .red _ a _ _ _ _ _ => a
        | .request => 0
      match p.msg, ans with
      | .read .., _ | .request, _ => .next s
      | _, .refused c pages d =>
        .next (gone.endXfer p.op p.xfer [] (some { LFault.plain p.xfer c va with pages := pages, detail := d }))
      | .red .., .done _ =>
        if p.arrived then .next (gone.endXfer p.op p.xfer [] none)
        else .next { s with store := s.store.map fun q => if q.id = pkt then { q with arrived := true } else q }
      | _, .done _ => .next (gone.endXfer p.op p.xfer [] none)

/-- The transfers that RETRY resends: the refused lanes of a remote operation, from their captured copies (R359); an RRD
keeps those that it has placed. -/
def OpKind.resend (k : OpKind) (lanes : Word) : OpKind :=
  k.withXfers ((k.xfers.filter fun t => lanes.getLsbD t.lane || t.placed).map fun t =>
    if t.placed then t
    else { t with pkt := none, done := false, cause := none, pages := [], detail := 0, again := true })

/-! ## RFENCE (R361) -/

/-- RFENCE: a release at .SYS, then the split is held (R361). -/
def execRfence (h : Hdr) (s : State) : Host.Outcome State Fault Refusal :=
  withIssue (.rfence h) s <| uniform h fun x s =>
    (x.hold h (.rfence x.g.nextOp [] 0) true s).pushRelease x.r

/-- RFENCE_COMPLETE: the release has finished, every earlier remote write, reduction and flag of the group has been
performed or refused at its destination and every earlier RRD has completed; the pending faults are raised, and the split
goes on (R359, R361). -/
def execRfenceComplete (r : SRef) (s : State) : Host.Outcome State Fault Refusal :=
  match s.at? r with
  | none => .next s
  | some x => match x.sp.hold with
    | .rfence f _ _ =>
      if x.released s && !x.g.ops.any (fun p => decide (p.id < f) && p.kind.isRemote) then
        .next (x.observe (·.remote) (fun _ s => (s.passHeld r 1).bumpRegion r.team r.grp) s)
      else .next s
    | _ => .next s

/-! ## CSIG (R363) -/

/-- The signature of a target of this package, 0 when no round has closed there (R363). -/
def State.sigAt (s : State) (ctx : Nat) (va : DWord) : DWord :=
  ((s.sigs.find? fun g => g.ctx = ctx ∧ g.va = va).map (·.h)).getD 0

/-- CSIG: its request goes to the peer, or its answer is at hand (R363). -/
def execCsig (h : Hdr) (f : BitVec 6) (sd sp sr : Reg) (s : State) : Host.Outcome State Fault Refusal :=
  withIssue (.csig h f sd sp sr) s <| uniform h fun x s =>
    let p := (x.sR h sp).toNat
    let d := x.eff h sd
    if x.waiting.isNone && x.g.full [4] false then s
    else if 4096 ≤ p then x.uniOpFault h (.value []) 4 (sclW d 0) (.plain 0 .range 0) s
    else
      let o : ORef := ⟨x.r.team, x.r.grp, x.g.nextOp⟩
      let s := if f = 0 ∧ p ≠ s.pkgNum ∧ s.reachable p then (s.send (.sigReq o)).post o p 0 false else s
      x.issueOp h (.csig f.toNat p (x.sR h sr) d none) 4 [] .rlx .grp true [] (fun _ => []) s

/-- CSIG_REQUEST_ARRIVAL: the signature is read at the target's package (R363, R364). -/
def execCsigRequestArrival (q : SigReq) (s : State) : Host.Outcome State Fault Refusal :=
  match q with
  | .own o =>
    (match s.op? o with
    | some (tm, _, p) => (match p.kind with
      | .csig 0 peer va sd none =>
        if peer = s.pkgNum then
          .next (s.modGroup o.team o.grp fun g => g.modOp p.id fun p =>
            { p with kind := .csig 0 peer va sd (some (s.sigAt (tm.ctx s) va)) })
        else .next s
      | _ => .next s)
    | none => .next s)
  | .peer src ctx va => .next <| if s.pkg ≠ .up then s else s.reply src false (.sigAns src (s.sigAt ctx va))

/-- What a CSIG delivers: nothing yet, a value, or a fault. A peer that no table names gives NETFAULT (R350, R363). -/
def State.csigValue (s : State) (f peer : Nat) (res : Option DWord) (ans : Option RAns) : Option (Except Cause DWord) :=
  let tab := (s.peers.find? (·.1 = peer)).map (·.2)
  if f = 0 then
    if peer = s.pkgNum then res.map .ok
    else if !s.reachable peer then some (.error .netfault)
    else ans.map fun a => match a with
      | .done d => .ok (BitVec.ofNat 64 (leNat d))
      | .refused c _ _ => .error c
  else match tab with
    | none => if peer = s.pkgNum then some (.ok 0) else some (.error .netfault)
    | some t => some (.ok (BitVec.ofNat 64 (if f = 1 then t.paths.length else t.events)))

/-- CSIG_COMPLETION: sD is written and n4 counts down, or a fault is kept for the observing instruction (R363, 14 R219). -/
def execCsigCompletion (o : ORef) (peer : Option RAns) (s : State) : Host.Outcome State Fault Refusal :=
  match s.op? o with
  | none => .next s
  | some (_, _, p) => match p.kind with
    | .csig f q va sd res => (match s.csigValue f q res peer with
      | none => .next s
      | some (.ok v) => .next ((s.answered o q 0).modGroup o.team o.grp fun g => (g.landOp p (sclW sd v) false).opDone p.id)
      | some (.error c) => .next ((s.answered o q 0).endEngine o.team o.grp p [opFault p (.plain 0 c va) p.mask]))
    | _ => .next s

end Sys2Proof.Machine
end

