-- ==== Sys2Proof/Machine/Trigger.lean ====
section
/-! DEFINITION. TRIG (14 R220, R221): it and the engine instruction that follows it issue together as one unit. -/

namespace Sys2Proof.Machine

/-- The instructions that TRIG may arm, by OP. -/
def mayTrigger (op : Nat) : Bool := [0xA0, 0xA1, 0xA2, 0xE0, 0xE2, 0xE3].contains op

/-- The instruction at some bytes as a triggered one, with its header, or the fault of decoding it; none when it is not
one that TRIG may arm (R220). -/
def trigTarget (bs : List Byte) : Option (Except Cause (Instr × Hdr × Nat)) :=
  if !mayTrigger ((wordAt bs 0).extractLsb' 2 8).toNat then none
  else match decodeBytes bs with
    | .illop => some (.error .illop)
    | .illform => some (.error .illform)
    | .instr i => i.head.map fun p => .ok (i, p.1, p.2)

/-- The operation of a triggered instruction with the faults of its own checks; none while it must wait (R219, R220). -/
def Iss.buildTrig (y : Iss) (i : Instr) (s : State) : Option (Built × List LFault) :=
  let fail (f : LFault) : Built × List LFault :=
    ({ kind := .value [], ctrs := [], fp := [], bn := none, bytes := 0 },
     (y.uniFault f.cause f.addr f.pages).map fun e => { e with detail := f.detail })
  let copy (h : Hdr) (dscr : Bool) (d : DescSrc) (b : Except LFault Built) : Option (Built × List LFault) :=
    if y.mustWait (y.descRegion h dscr d s) then none
    else some (match b with | .ok b => (b, []) | .error f => fail f)
  match i with
  | .cpa h bar size dir src dst ds dd => some (y.buildCpa h bar size dir src dst ds dd true s)
  | .tcopy h bar dir dscr src dst d => copy h dscr d (y.buildTcopy h bar dir dscr src dst d none s)
  | .tcopym h bar dscr src dst d id => copy h dscr d (y.buildTcopy h bar .gs dscr src dst d (some id) s)
  | .rwr h z p vb vc bar => some (y.buildRwr h z p vb vc bar s)
  | .rred h op t z n p vb vc bar => some (y.buildRred h op t z n p vb vc bar s)
  | .rflag h op w p vb vc bar => some (y.buildRflag h op w p vb vc bar s)
  | _ => none

/-- The unit has issued, with or without effect: both issue slots and stall counts are consumed, and the split goes on
after the unit (R220, R221). -/
def Iss.passUnit (x : Iss) (h h2 : Hdr) (loud : Bool) (s : State) : State :=
  s.modG x.r fun g =>
    ((g.consume s.now x.sp.id h.st.toNat false).consume (s.now + h.st.toNat + 1) x.sp.id h2.st.toNat loud).move s.now
      x.sp.id (x.next h + BitVec.ofNat 64 (4 * h2.len.words)) .seq

/-- A precise group-level fault of one part of the unit, named by its PC; a split that passes goes on after the unit
(R220). -/
def Iss.unitFault (x : Iss) (h h2 : Hdr) (pc : DWord) (c : Cause) (s : State) : State :=
  let f : FInfo :=
    { cause := c, level := max 1 c.level, lanes := 0, addr := 0, detail := 0, pages := [], pc := pc, split := x.sp.mask,
      eng := false, fetch := false }
  match s.contain x.r f with
  | (s, .ign _) => x.passUnit h h2 false s
  | (s, _) => s

/-- The item-level faults of the triggered instruction's own checks: the unit issues nothing (R220). -/
def Iss.unitFaults (x y : Iss) (h h2 : Hdr) (fs : List LFault) (s : State) : State :=
  let o := y.itemFaults fs s
  x.afterFaults { o with whole := true } (x.passUnit h h2 false)

/-- The condition that TRIG names (R221): the operations on the counter now, or the barrier register and its parity. -/
def Iss.trigWait (x : Iss) (h : Hdr) (c : TrigCond) (t : TrigThr) : TrigWait :=
  let v : Nat := match t with
    | .reg r => (x.sR h r).toNat
    | .imm w => w.toNat
  match c with
  | .ctr n => .ctr n.toNat ((x.g.ctrs.getD n.toNat []).map (·.1)) v
  | .bar b => .bar b.toNat (v % 2 = 1)

/-- Arming the triggered operation; a condition that holds fires at once (R221). -/
def Iss.arm (x y : Iss) (h h2 : Hdr) (c : TrigCond) (t : TrigThr) (b : Built) (s : State) : State :=
  let w := x.trigWait h c t
  let trig := if w.holds x.tm x.g then none else some w
  x.passUnit h h2 true (s.modG x.r fun g => y.addOp s.now b.kind b.ctrs true b.fp b.bn b.bytes trig g)

/-- The split at the instruction that follows, as sequential execution reaches it. -/
def Iss.follow (x : Iss) (h : Hdr) : Iss := { x with sp := { x.sp with pc := x.next h, arrivedBy := .seq } }

/-- The unit of TRIG and the instruction that follows it (R220, R221). -/
def Iss.trig (x : Iss) (h : Hdr) (c : TrigCond) (t : TrigThr) (s : State) : State :=
  let y0 := x.follow h
  match s.fetch y0 with
  | .fault f => y0.takeFetchFault f s
  | .word bs =>
    let h0 := hdrOf (wordAt bs 0)
    match trigTarget bs with
    | none => x.unitFault h h0 x.sp.pc .illform s
    | some (.error e) => x.unitFault h h0 y0.sp.pc e s
    | some (.ok (i, h2, op2)) =>
      if h.never then x.passUnit h h2 false s
      else match x.check (.trig h c t) h 0xA9 s with
        | some (.group e) => x.unitFault h h2 x.sp.pc e s
        | _ =>
          if !x.g.uGuard x.sp.id h || h2.never then x.passUnit h h2 false s
          else
            let y : Iss := { y0 with g := x.g.consume s.now x.sp.id h.st.toNat false }
            match y.check i h2 op2 s with
            | some (.group e) => x.unitFault h h2 y.sp.pc e s
            | _ =>
              if 8 ≤ (x.g.ops.filter (·.trig.isSome)).length then s
              else match y.buildTrig i s with
                | none => s
                | some (b, fs) =>
                  if !fs.isEmpty then x.unitFaults y h h2 fs s
                  else if x.g.full b.ctrs true then s
                  else x.arm y h h2 c t b s

/-- The first word of a TRIG, which has L = 10 only: OP 0xA9 with another L makes no unit (R220). -/
def trigWord (w : Word) : Bool := w.extractLsb' 0 2 = 2 && w.extractLsb' 2 8 = 0xA9

/-- The words that a pass skips: of a TRIG, both instructions of its unit (R220). -/
def State.unitWords (s : State) (x : Iss) (bs : List Byte) : Nat :=
  let n := bs.length / 4
  if !trigWord (wordAt bs 0) then n
  else match s.fetch (x.follow (hdrOf (wordAt bs 0))) with
    | .fault _ => n
    | .word cs => n + cs.length / 4

/-- A word whose decoding failed; of a TRIG, its unit fails (R49, R220). -/
def Iss.takeDecodeFault (x : Iss) (c : Cause) (bs : List Byte) (s : State) : State :=
  let h := hdrOf (wordAt bs 0)
  if !trigWord (wordAt bs 0) then x.decodeFault c (wordAt bs 0) s
  else match s.fetch (x.follow h) with
    | .fault _ => x.decodeFault c (wordAt bs 0) s
    | .word cs => x.unitFault h (hdrOf (wordAt cs 0)) x.sp.pc c s

/-- TRIG (R220, R221). -/
def execTrig (h : Hdr) (c : TrigCond) (t : TrigThr) (s : State) : Host.Outcome State Fault Refusal :=
  match s.issuer with
  | none => .fault .noIssuer
  | some x => .next (x.trig h c t s)

end Sys2Proof.Machine
end

