-- ==== Sys2Proof/Machine/System.lean ====
section
/-! DEFINITION. Class 0xF (26 R327 to R331): control and status registers, TRAP, BRK and CYC; reserved OP slots (05 R61);
and the landing of fixed-latency results (05 R57). -/

namespace Sys2Proof.Machine

/-- GSTAT (26 Table 26.5): region, an active expansion, splits held and live, occupied lanes. -/
def Group.gstat (g : Group) : DWord :=
  BitVec.ofNat 64 (g.region.toNat * 2 ^ 32 + (if g.xp.isSome then 2 ^ 22 else 0) +
    (g.splits.filter fun x => x.entry.isNone).length * 2 ^ 16 +
    (g.splits.filter fun x => x.entry.isSome).length * 2 ^ 12 + popCount g.occ)

/-- XCUR (22 Table 22.1); 0 without an expansion. -/
def Group.xcur (g : Group) : DWord := match g.xp with
  | none => 0
  | some e => BitVec.ofNat 64 (e.total * 2 ^ 32 + e.cur)

/-- TCTL (26 Table 26.6): PREQ while a requested pre-emption has not stopped the team, and the groups not retired. -/
def Team.tctl (t : Team) : DWord :=
  BitVec.ofNat 64 ((match t.st with | .notice _ => 2 ^ 15 | _ => 0) + (t.groups.filter (·.live)).length)

/-- A control and status register (26 Table 26.3). -/
def Iss.csr (x : Iss) (n : BitVec 6) : DWord :=
  if n = 0x00 then x.g.gctl.setWidth 64
  else if n = 0x01 then x.g.gstat
  else if n = 0x10 then x.g.xcur
  else if n = 0x11 then x.tm.tctl
  else x.g.frec.getD (n.toNat - 8) 0

/-- CSRR (26 R328). -/
def execCsrr (h : Hdr) (n : BitVec 6) (sd : Reg) (s : State) : Host.Outcome State Fault Refusal :=
  withIssue (.csrr h n sd) s <| uniform h fun x s => x.result (.csrr h n sd) h (sclW (x.eff h sd) (x.csr n)) s

/-- CSRW: the nine bits of GCTL are written; every other register ignores the write (26 R327, R328). -/
def execCsrw (h : Hdr) (n : BitVec 6) (sa : Reg) (s : State) : Host.Outcome State Fault Refusal :=
  withIssue (.csrw h n sa) s <| uniform h fun x s =>
    let v : BitVec 9 := (x.sR h sa).setWidth 9
    if n = 0x00 then x.pass h (decide (v ≠ x.g.gctl)) (s.modG x.r fun g => { g with gctl := v }) else x.pass h false s

/-- TRAP and BRK (26 R331): the record is written, logged and delivered, without containment, and the split stops until
system software releases it; the record is a register that the split writes (03 R36). -/
def Iss.stop (x : Iss) (h : Hdr) (cause : Cause) (c : BitVec 6) (s : State) : State :=
  match x.launch s with
  | none => s
  | some l =>
    let seq := l.seq + 1
    let empty := x.sp.mask = 0
    let f : FInfo :=
      { cause := cause, level := if empty then 1 else 0, lanes := x.sp.mask, addr := 0, detail := c.setWidth 64,
        pages := [], pc := x.sp.pc, split := x.sp.mask, eng := false, fetch := false }
    let frec := frecOf x.tm x.g f seq 7 Action.kparent.code
    let rep : Report :=
      { seq := seq, team := x.r.team, grp := x.r.grp, split := x.r.split, level := f.level, cause := some cause,
        lanes := f.lanes, grid := false, trapStop := true, held := .run, eng := none }
    let s := s.modLaunch l.id fun l => { l with seq := seq, reports := l.reports ++ [rep] }
    let s := s.modG x.r fun g => { g.landSplits [x.r.split] with frec := frec }
    x.hold h (.stop seq) (frec != x.g.frec) ((s.logFault l.id (logEntry frec [] [])).tell (.delivered l.id seq (logEntry frec [] [])))

/-- TRAP (26 R331). -/
def execTrap (h : Hdr) (c : BitVec 6) (s : State) : Host.Outcome State Fault Refusal :=
  withIssue (.trap h c) s <| uniform h fun x s => x.stop h .syscall c s

/-- BRK (26 R331). -/
def execBrk (h : Hdr) (c : BitVec 6) (s : State) : Host.Outcome State Fault Refusal :=
  withIssue (.brk h c) s <| uniform h fun x s => x.stop h .brk c s

/-- CYC (26 R328, 24 R320). -/
def execCyc (h : Hdr) (sd : BitVec 8) (s : State) : Host.Outcome State Fault Refusal :=
  withIssue (.cyc h sd) s <| uniform h fun x s => x.result (.cyc h sd) h (sclW sd.toNat (x.cyc s)) s

/-- A word whose OP names a reserved slot: ILLOP, also under the never guard (05 R49, R61). -/
def execReservedOpcode (w0 : Word) (s : State) : Host.Outcome State Fault Refusal :=
  match s.issuer with
  | none => .fault .noIssuer
  | some x => .next (x.groupFault (hdrOf w0) .illop 0 s)

/-- Landing one write in flight, after earlier ones to its place (05 R57). -/
def Group.landAt (g : Group) (i : Nat) (now : Nat) : Group :=
  match g.pend[i]? with
  | none => g
  | some e =>
    if e.landed || decide (now < e.landsAt) then g
    else
      let due (p : Pend × Nat) : Bool := decide (p.2 ≤ i) && p.1.loc == e.loc && !p.1.landed
      let ps := g.pend.zipIdx
      let g' := ps.foldl (fun g p => if due p then g.land p.1 else g) g
      { g' with pend := (ps.map fun p => if due p then { p.1 with landed := true } else p.1).filter fun e =>
          !(e.landed && e.dist == 0) }

/-- RESULT_LANDING: the latency of a write in flight has passed and it lands in its destination (05 R57). -/
def execResultLanding (team grp idx : Nat) (s : State) : Host.Outcome State Fault Refusal :=
  .next (s.modGroup team grp fun g => g.landAt idx s.now)

end Sys2Proof.Machine
end

