-- ==== Sys2Proof/Machine/Launch.lean ====
section
/-! DEFINITION. Launches and the graph walker (24 R303 to R313): descriptors and the refusal of a launch, graphs and their
nodes, and the finishing of a node. -/

namespace Sys2Proof.Machine

/-! ## Descriptors (R303, R304, Tables 24.1, 24.2, 24.5) -/

/-- The first failing check of a list of (offset, fails). -/
def firstBad (cs : List (Nat × Bool)) : Option Nat := (cs.find? (·.2)).map (·.1)

/-- Whether some bytes are not all 0. -/
def nonZero (bs : List Byte) (off n : Nat) : Bool := fieldOf bs off n != 0

/-- A kernel descriptor (Table 24.1). -/
def kernelOf (bs : List Byte) : Kernel :=
  { entry := BitVec.ofNat 64 (fieldOf bs 0 8), refill := fieldOf bs 8 4, vregs := fieldOf bs 12 2,
    sregs := fieldOf bs 14 1, acc := fieldOf bs 15 1, team := fieldOf bs 16 1, clw := fieldOf bs 17 1,
    clh := fieldOf bs 18 1, scratch := fieldOf bs 20 4, tags := fieldOf bs 24 2,
    fresh := BitVec.ofNat 256 (fieldOf bs 32 32) }

/-- Groups on one bench of a team of G (05 R52). -/
def perBench (g : Nat) : Nat := (g + 3) / 4

/-- The refill offset names a REFILL without a guard (03 R28). -/
def State.refillOk (s : State) (ctx : Nat) (k : Kernel) : Bool :=
  match decodeBytes (s.devRead ctx (k.entry.toNat + k.refill) 4) with
  | .instr (.refill h _) => h.g == 0 && !h.gn
  | _ => false

/-- The first invalid field of a kernel descriptor (R305, 05 R52, Table 5.15). FRESH bits of registers beyond VREGS are taken
as they stand (DESIGN CHOICE, log entry 94). -/
def State.kernelBad (s : State) (ctx : Nat) (bs : List Byte) : Option Nat :=
  let k := kernelOf bs
  firstBad [
    (0, k.entry.toNat % 256 ≠ 0), (8, k.refill % 4 ≠ 0 || !s.refillOk ctx k),
    (12, k.vregs % 8 ≠ 0 || k.vregs < 8 || 256 < k.vregs || 2048 < perBench k.team * k.vregs),
    (14, k.sregs % 8 ≠ 0 || k.sregs < 8 || 64 < k.sregs), (15, 32 < k.acc || 32 < perBench k.team * k.acc),
    (16, k.team < 1 || 64 < k.team), (17, k.clw < 1 || 12 < k.clw),
    (18, k.clh < 1 || 8 < k.clh || 12 < k.clw * k.clh), (19, nonZero bs 19 1),
    (20, k.scratch % 256 ≠ 0 || 786432 < k.scratch), (24, 4096 < k.tags), (26, nonZero bs 26 6), (64, nonZero bs 64 64)]

/-- The action of a policy code (Table 24.2). -/
def actionOf (n : Nat) : Action := if n = 0 then .ign else if n = 1 then .retry else if n = 2 then .kself else .kparent

/-- A launch descriptor (Table 24.2), without its dependency descriptors. -/
def ldescOf (bs : List Byte) : LDesc :=
  let fl := fieldOf bs 36 4
  { items := fieldOf bs 8 8, lblk := fieldOf bs 16 1, prio := fieldOf bs 17 1 % 8, inh := fieldOf bs 17 1 / 8 % 2 = 1,
    stagger := fieldOf bs 18 2, policy := (List.range 5).map fun i => actionOf (fieldOf bs 20 4 / 4 ^ i % 4),
    const := BitVec.ofNat 64 (fieldOf bs 24 8), csize := fieldOf bs 32 4, fed := fl % 2 = 1, part := fl / 2 % 2 = 1,
    qnum := fl / 4 % 64, ring := BitVec.ofNat 64 (fieldOf bs 40 8), nslot := fieldOf bs 48 4, pcores := fieldOf bs 52 4,
    htab := BitVec.ofNat 64 (fieldOf bs 56 8),
    mcast := (List.range 16).map fun i => BitVec.ofNat 16 (fieldOf bs (64 + 2 * i) 2), dep0 := none, dep1 := none,
    save := BitVec.ofNat 64 (fieldOf bs 112 8), doneAt := BitVec.ofNat 64 (fieldOf bs 120 8) }

/-- NSLOT is a power of two from 16 to 2^24. -/
def slotsOk (n : Nat) : Bool := (List.range 21).any fun i => n == 2 ^ (i + 4)

/-- The first invalid field of a launch descriptor (R305). -/
def State.ldescBad (s : State) (bs : List Byte) (k : Kernel) : Option Nat :=
  let d := ldescOf bs
  let fl := fieldOf bs 36 4
  firstBad [
    (0, fieldOf bs 0 8 % 128 ≠ 0), (8, if d.fed then d.items ≠ 0 else 2 ^ 48 < d.items), (16, d.lblk < 5 || 16 < d.lblk),
    (17, 16 ≤ fieldOf bs 17 1), (20, 2 ^ 10 ≤ fieldOf bs 20 4), (24, d.const.toNat % 8 ≠ 0),
    (32, d.csize % 8 ≠ 0 || 65536 < d.csize), (36, 2 ^ 8 ≤ fl || (d.fed && (s.queue d.qnum).fedBy.isSome)),
    (40, if d.fed then d.ring.toNat % 16 ≠ 0 else d.ring ≠ 0), (48, if d.fed then !slotsOk d.nslot else d.nslot ≠ 0),
    (52, if d.part then d.pcores < 1 || 384 < d.pcores || d.pcores % (k.clw * k.clh) ≠ 0 else d.pcores ≠ 0),
    (96, fieldOf bs 96 8 % 32 ≠ 0), (104, fieldOf bs 104 8 % 32 ≠ 0), (120, d.doneAt.toNat % 64 ≠ 0)]

/-- A dependency descriptor (Table 24.5). -/
def depOf (bs : List Byte) : Dep :=
  { pnode := fieldOf bs 0 2, d := fieldOf bs 2 2, a := fieldOf bs 4 4, lo := (BitVec.ofNat 32 (fieldOf bs 8 4)).toInt,
    hi := (BitVec.ofNat 32 (fieldOf bs 12 4)).toInt, bitmap := BitVec.ofNat 64 (fieldOf bs 16 8) }

/-- A LAUNCH node that is a predecessor of another (R312). -/
def isProducer (nodes : List GNode) (p m : Nat) : Bool :=
  match nodes[p]? with
  | some n => n.ty == 0 && n.succ.contains (some m)
  | none => false

/-- The first invalid field of a dependency descriptor (R305). -/
def depBad (nodes : List GNode) (m : Nat) (bs : List Byte) : Option Nat :=
  let d := depOf bs
  firstBad [(0, !isProducer nodes d.pnode m), (2, d.d = 0), (16, d.bitmap.toNat % 8 ≠ 0), (24, nonZero bs 24 8)]

/-- A size rounded up to 4 KiB. -/
def to4k (n : Nat) : Nat := (n + 4095) / 4096 * 4096

/-- CRSIZE: the sections of a context record (26 R342, Table 26.11). -/
def crSize (k : Kernel) : Nat :=
  4096 + to4k (16 * k.tags) + to4k k.scratch +
  k.team * (to4k (16384 + 128 * k.vregs + 8 * k.sregs + 4160 * k.acc) + 12288 * 32)

/-- The first invalid field of a save area (26 R340). -/
def saveBad (bs : List Byte) (k : Kernel) : Option Nat :=
  let n := fieldOf bs 0 4
  let z := fieldOf bs 4 4
  firstBad [(0, n < 1 || 65535 < n), (4, z % 4096 ≠ 0 || z < crSize k), (16, nonZero bs 16 4080)]

/-- The descriptors of a launch: the descriptor with its dependencies, the kernel, and the bytes they came from. -/
structure Descs where
  lb : List Byte
  kb : List Byte
  db : List (Option (List Byte))
  sb : List Byte

/-- Reading the descriptors of a LAUNCH node (R303, R304, R312, 26 R340): the 128 bytes from ARG, whatever its alignment
(DESIGN CHOICE, log entry 94). -/
def State.readDescs (s : State) (ctx arg : Nat) : Descs :=
  let lb := s.devRead ctx arg 128
  let dep (o : Nat) : Option (List Byte) :=
    if fieldOf lb o 8 = 0 then none else some (s.devRead ctx (fieldOf lb o 8) 32)
  { lb := lb, kb := s.devRead ctx (fieldOf lb 0 8) 128, db := [dep 96, dep 104], sb := s.devRead ctx (fieldOf lb 112 8) 4096 }

/-- REASON of a refused launch: the first invalid field, structure by structure (R305). -/
def State.refusal (s : State) (ctx m : Nat) (nodes : List GNode) (d : Descs) : Option Nat :=
  let k := kernelOf d.kb
  let at_ (i : Nat) (o : Option Nat) : Option Nat := o.map fun f => i * 65536 + f
  ((at_ 0 (s.ldescBad d.lb k)).orElse fun _ => (at_ 1 (s.kernelBad ctx d.kb)).orElse fun _ =>
    (at_ 2 ((d.db.getD 0 none).bind (depBad nodes m))).orElse fun _ =>
    (at_ 3 ((d.db.getD 1 none).bind (depBad nodes m))).orElse fun _ => at_ 4 (saveBad d.sb k))

/-- The status code of a completion record (Table 24.3). -/
def LaunchSt.code : LaunchSt → Nat
  | .complete => 1 | .killed => 2 | .incomplete => 3 | .refused => 4 | .running | .ending => 0

/-- A completion record (Table 24.3). -/
def recordOf (st : LaunchSt) (reason exited killed lost nfault : Nat) : List Byte :=
  natLe 4 st.code ++ natLe 4 reason ++ natLe 8 exited ++ natLe 8 killed ++ natLe 8 lost ++ natLe 8 nfault ++ natLe 24 0

/-! ## Graphs (R308 to R311) -/

/-- A graph node (Table 24.4). -/
def gnodeOf (bs : List Byte) : GNode :=
  let sc (i : Nat) : Option Nat := let v := fieldOf bs (4 + 2 * i) 2; if v = 0xFFFF then none else some v
  { ty := fieldOf bs 0 1, npred := fieldOf bs 1 1, tile := fieldOf bs 2 1 % 2 = 1, succ := (List.range 4).map sc,
    arg := BitVec.ofNat 64 (fieldOf bs 16 8), pending := fieldOf bs 1 1, mark := false, state := 0 }

/-- The successors of a node. -/
def GNode.succs (n : GNode) : List Nat := n.succ.filterMap id

/-- The nodes reachable from some without passing through one of them, in as many rounds. -/
def reach (nodes : List GNode) (avoid : Nat) : Nat → List Nat → List Nat
  | 0, seen => seen
  | n + 1, seen =>
    let next := (seen ++ seen.flatMap fun i => ((nodes[i]?).map GNode.succs).getD []).dedup.filter (· ≠ avoid)
    if next.length = seen.length then seen else reach nodes avoid n next

/-- The body of a WHILE node (R310). -/
def bodyOf (nodes : List GNode) (w : Nat) : List Nat :=
  match nodes[w]? with
  | none => []
  | some n => match n.succ.getD 0 none with
    | none => []
    | some b => reach nodes w nodes.length (if b = w then [] else [b])

/-- An edge is the back edge of a WHILE node (R310). -/
def isBack (nodes : List GNode) (a b : Nat) : Bool :=
  match nodes[b]? with
  | some n => n.ty == 2 && (bodyOf nodes b).contains a
  | none => false

/-- A WHILE node keeps the conditions of R310. -/
def whileOk (nodes : List GNode) (w : Nat) : Bool :=
  let body := bodyOf nodes w
  let sink (i : Nat) : Bool := match nodes[i]? with
    | some n => n.ty == 3 && n.succ.getD 0 none == some w
    | none => false
  let inner := body.all fun i => match nodes[i]? with
    | none => false
    | some n => n.succ.zipIdx.all fun p => match p.1 with
        | none => true
        | some t => body.contains t || (t == w && sink i && p.2 == 0)
  let outer := nodes.zipIdx.all fun p => p.2 == w || body.contains p.2 || p.1.succs.all (!body.contains ·)
  inner && outer && body.any sink

/-- Removing, round by round, the nodes that no remaining edge enters; an acyclic graph leaves none. -/
def peel : Nat → List Nat → List (Nat × Nat) → List Nat
  | 0, ns, _ => ns
  | k + 1, ns, es =>
    let live := es.filter fun e => ns.contains e.1
    let rest := ns.filter fun n => live.any (·.2 == n)
    if rest.length = ns.length then ns else peel k rest live

/-- A graph keeps the rules of R308. -/
def graphOk (nodes : List GNode) : Bool :=
  let es := nodes.zipIdx.flatMap fun p => p.1.succs.map fun t => (p.2, t)
  let fwd := es.filter fun e => !isBack nodes e.1 e.2
  nodes.all (fun n => decide (n.ty ≤ 3) && n.succs.all fun t => decide (t < nodes.length)) &&
  nodes.all (fun n => n.ty != 1 || (n.succ.drop 2).all (·.isNone)) &&
  nodes.zipIdx.all (fun p => p.1.ty != 2 || whileOk nodes p.2) &&
  (peel nodes.length (List.range nodes.length) fwd).isEmpty

/-- The graph has ended when nothing is on its way and no node runs (R309). -/
def LQueue.rest (q : LQueue) : LQueue :=
  if q.arrivals.isEmpty ∧ q.nodes.all (·.state ≠ 1) then { q with busy := false } else q

/-- PLACE_GRAPH: a task graph is placed in a launch queue that holds none in progress, and its nodes without incoming edges
run; a graph that breaks the rules is refused whole (R308, R309), and so is a queue of another function than the
context's (30 R367). -/
def execPlaceGraph (queue ctx : Nat) (addr : DWord) (n : Nat) (s : State) : Host.Outcome State Fault Refusal :=
  if s.pkg ≠ .up ∨ 64 ≤ queue ∨ 65536 ≤ n ∨ (s.queue queue).busy = true ∨
      s.vfOfQueue queue ≠ ((s.ctx? ctx).map (·.vf)).getD 0 then .next (s.tell .refusedCmd)
  else
    let nodes := (List.range n).map fun i => gnodeOf (s.devRead ctx (addr.toNat + 32 * i) 32)
    if graphOk nodes then
      .next (s.modQueue queue fun q =>
        ({ q with ctx := ctx, nodes := nodes, busy := true,
                  arrivals := (nodes.zipIdx.filter fun p => p.1.npred = 0).map fun p => ⟨p.2, false, false, true⟩ } :
          LQueue).rest)
    else .next (s.tell (.refusedGraph queue))

/-! ## The walker -/

/-- Changing a node of a queue. -/
def LQueue.modNode (q : LQueue) (m : Nat) (f : GNode → GNode) : LQueue := { q with nodes := q.nodes.modify m f }

/-- A node of a queue. -/
def LQueue.node? (q : LQueue) (m : Nat) : Option GNode := q.nodes[m]?

/-- Sending a run or a skip from a node to another (R309, R310). -/
def LQueue.send (q : LQueue) (frm : Nat) (skip : Bool) (dst : Nat) : LQueue :=
  { q with arrivals := q.arrivals ++ [⟨dst, skip, isBack q.nodes frm dst, false⟩] }

/-- Sending on several edges. -/
def LQueue.sends (q : LQueue) (frm : Nat) (skip : Bool) (dsts : List Nat) : LQueue :=
  dsts.foldl (fun q t => q.send frm skip t) q

/-- The edges of a node into nodes with the TILE bit, or the others (R311). -/
def LQueue.edgesTo (q : LQueue) (m : Nat) (tile : Bool) : List Nat :=
  (((q.node? m).map GNode.succs).getD []).filter fun t => ((q.node? t).map (·.tile)).getD false == tile

/-- A node is skipped: it sends skip on each edge (R309). -/
def LQueue.skipNode (q : LQueue) (m : Nat) : LQueue :=
  (q.modNode m fun n => { n with state := 3 }).sends m true (((q.node? m).map GNode.succs).getD [])

/-- A node finishes: it sends run on each edge on which it has not sent already (R309, R311). -/
def LQueue.finishNode (q : LQueue) (m : Nat) (tileSent : Bool) : LQueue :=
  (q.modNode m fun n => { n with state := 2 }).sends m false
    (if tileSent then q.edgesTo m false else ((q.node? m).map GNode.succs).getD [])

/-- The completion bitmaps of a producer node: of each LAUNCH node of the graph whose dependency descriptors name it
(R313). -/
def State.bitmaps (s : State) (q : LQueue) (m : Nat) : List DWord :=
  (q.nodes.flatMap fun n => if n.ty = 0 then
      (s.readDescs q.ctx n.arg.toNat).db.filterMap fun b => b.bind fun b =>
        if (depOf b).pnode = m then some (depOf b).bitmap else none
    else []).dedup

/-- The bits that the walker clears before a producer's first team starts (R313): each bitmap, with a number of blocks. A fed
producer has no count of blocks yet (22 R298): those that a consumer with a known number of items can need (log entry 52). -/
def State.clears (s : State) (q : LQueue) (m : Nat) (blocks : Option Nat) : List (DWord × Nat) :=
  (q.nodes.flatMap fun n => if n.ty = 0 then
      let ds := s.readDescs q.ctx n.arg.toNat
      let c := ldescOf ds.lb
      let last : Int := ((c.items + 2 ^ c.lblk - 1) / 2 ^ c.lblk : Nat) - 1
      ds.db.filterMap fun b => (b.map depOf).bind fun d =>
        if d.pnode = m then
          some (d.bitmap, blocks.getD (if c.fed then 0 else (Int.fdiv (d.a * last + d.hi) d.d + 1).toNat))
        else none
    else []).dedup

/-- A sparse copy of some bytes as the device reads them: those that are not 0. -/
def State.snapshot (s : State) (ctx va n : Nat) : Map Byte :=
  let blocks := (pagesOf va n).flatMap fun p => match s.devAddr ctx p with
    | none => []
    | some pa => (List.range 4).map fun i => (p + 2048 * i, (resolvePa (pa + 2048 * i)).getD 0)
  blocks.foldl (fun m b =>
    let cached := match homeDie b.2 with
      | none => []
      | some d => (s.die d).dc.filterMap fun (e : Nat × Line) =>
          if decide (b.2 / 64 ≤ e.1 ∧ e.1 < b.2 / 64 + 32) then some e.1 else none
    let cand := ((Map.range s.mem b.2 (b.2 + 2048)).map (·.1) ++
      cached.flatMap fun k => (List.range 64).map fun i => 64 * k + i).dedup
    cand.foldl (fun m a =>
      let v := b.1 + (a - b.2)
      if va ≤ v ∧ v < va + n then Map.set 0 m (v - va) (s.homeByte a) else m) m) []

/-- Creating and starting the launch of a LAUNCH node, or refusing it: a refused launch writes its record and its node is
skipped (R305, R309). A producer's bitmaps are cleared before its first team starts (R313); of a fed one the bits of other
blocks as those open (log entry 52). Its fault log starts empty (26 R340). -/
def State.createLaunch (s : State) (qn m : Nat) (n : GNode) : State :=
  let q := s.queue qn
  let ds := s.readDescs q.ctx n.arg.toNat
  match s.refusal q.ctx m q.nodes ds with
  | some r =>
    let s := s.devWrite q.ctx (ldescOf ds.lb).doneAt.toNat (recordOf .refused r 0 0 0 0)
    s.modQueue qn (·.skipNode m)
  | none =>
    let d := { ldescOf ds.lb with dep0 := (ds.db.getD 0 none).map depOf, dep1 := (ds.db.getD 1 none).map depOf }
    let nb := if d.fed then none else some ((d.items + 2 ^ d.lblk - 1) / 2 ^ d.lblk)
    let maps := s.bitmaps q m
    let s := (s.clears q m nb).foldl (fun s b => s.devWrite q.ctx b.1.toNat (List.replicate ((b.2 + 7) / 8) 0)) s
    let s := s.devWrite q.ctx (d.save.toNat + 8) (natLe 8 0)
    let l := { Launch.create s.nextLaunch q.ctx qn m d (kernelOf ds.kb) (s.snapshot q.ctx d.const.toNat d.csize) s.now with
      bitmaps := maps }
    let s := { s with launches := s.launches ++ [l], nextLaunch := s.nextLaunch + 1,
                      partWait := if d.part then s.partWait ++ [l.id] else s.partWait }
    let s := if d.fed then s.modQueue d.qnum fun q =>
        { q with fedBy := some l.id, appended := 0, dispensed := 0, freed := 0, freedAhead := [], closed := false }
      else s
    s.modQueue qn (·.modNode m fun n => { n with state := 1 })

/-- The condition word of a node (R309, R311). -/
def State.condition (s : State) (q : LQueue) (n : GNode) : Nat := leNat (s.devRead q.ctx n.arg.toNat 8)

/-- Running a node (R309, R310). -/
def State.runNode (s : State) (qn m : Nat) (n : GNode) : State :=
  let q := s.queue qn
  let dst (i : Nat) : List Nat := (n.succ.getD i none).toList
  if n.ty = 0 then s.createLaunch qn m n
  else if n.ty = 1 then
    let i := if s.condition q n = 0 then 0 else 1
    s.modQueue qn fun q => ((q.modNode m fun n => { n with state := 2 }).sends m false (dst i)).sends m true (dst (1 - i))
  else if n.ty = 2 then
    if s.condition q n = 0 then
      s.modQueue qn fun q => (q.modNode m fun n => { n with state := 2 }).sends m false (dst 1)
    else
      let body := bodyOf q.nodes m
      s.modQueue qn fun q =>
        let q := body.foldl (fun q b => q.modNode b fun n =>
          { n with pending := n.npred, mark := false, state := 0 }) q
        (q.modNode m fun n => { n with state := 1 }).sends m false (dst 0)
  else s.modQueue qn (·.finishNode m false)

/-- An arrival reaches a node (R309, R310): the start of a node without incoming edges runs it; one on a back edge runs its
WHILE node again, if that runs; any other counts, none beyond NPRED, and at 0 the node runs or is skipped. -/
def State.arrival (s : State) (queue : Nat) (a : GArr) : State :=
  match (s.queue queue).node? a.node with
  | none => s
  | some n =>
    if a.first then s.runNode queue a.node n
    else if a.back then (if n.state = 1 then s.runNode queue a.node n else s)
    else if n.pending = 0 then s
    else
      let n := { n with pending := n.pending - 1, mark := n.mark || !a.skip }
      let s := s.modQueue queue fun q => q.modNode a.node fun _ => n
      if n.pending ≠ 0 then s
      else if !n.mark then s.modQueue queue (·.skipNode a.node)
      else s.runNode queue a.node n

/-- GRAPH_NODE_ARRIVAL: the oldest arrival of a queue's graph reaches its node (R309). -/
def execGraphNodeArrival (queue : Nat) (s : State) : Host.Outcome State Fault Refusal :=
  match (s.queue queue).arrivals with
  | [] => .next s
  | a :: more =>
    .next (((s.modQueue queue fun q => { q with arrivals := more }).arrival queue a).modQueue queue (·.rest))

end Sys2Proof.Machine
end

