-- ==== Sys2Proof/Machine/Sched.lean ====
section
/-! DEFINITION. Scheduling (24 R307, R312 to R318): dependences, priorities, the placing of teams and clusters, blocks,
priority pre-emption, reserved partitions and the completion of a launch. -/

namespace Sys2Proof.Machine

/-- The first number from one on, among some, that satisfies a predicate. -/
def firstFrom (p : Nat → Bool) : Nat → Nat → Option Nat
  | 0, _ => none
  | n + 1, j => if p j then some j else firstFrom p n (j + 1)

/-! ## Blocks (R312 to R314) -/

/-- A block of a launch is complete (R313): its bit is set; a fed producer's also by the package's own count. Every block
of a skipped or completed producer counts as set. -/
def State.depMet (s : State) (l : Launch) (d : Dep) (j : Nat) : Bool :=
  match (s.queue l.queue).node? d.pnode with
  | none => true
  | some n =>
    if 2 ≤ n.state then true
    else match s.nodeLaunch? l.queue d.pnode, s.depRange l d j with
      | none, _ => false
      | some _, none => true
      | some p, some (lo, hi) =>
        (firstFrom (fun b =>
          !((s.devRead l.ctx (d.bitmap.toNat + b / 8) 1).headD 0).getLsbD (b % 8) || (p.desc.fed && !p.blkDone.contains b))
          (hi + 1 - lo) lo).isNone

/-- The dependences of a consumer block are met. -/
def State.blockMet (s : State) (l : Launch) (j : Nat) : Bool :=
  (l.desc.dep0.toList ++ l.desc.dep1.toList).all fun d => s.depMet l d j

/-- A block has been drawn, or has returned to the queue. -/
def Launch.everDrawn (l : Launch) (j : Nat) : Bool :=
  (l.blks.any (·.blk == j)) || l.blkDone.contains j || l.returned.contains j

/-- The block that a request takes: a returned one first, else the lowest never drawn, among those whose dependences are
met (R314). -/
def State.nextBlock (s : State) (l : Launch) : Option Nat :=
  ((sortBy id l.returned).find? (s.blockMet l)).orElse fun _ =>
    firstFrom (fun j => !l.everDrawn j && s.blockMet l j) (s.blockCount l) 0

/-- The launch is ready: it has a block that a team could draw (R316, R317). -/
def State.ready (s : State) (l : Launch) : Bool :=
  l.st == .running && !l.suspended && !l.paused && !l.killing && (!l.desc.part || l.partOk) && (s.nextBlock l).isSome

/-- The teams of a cluster. -/
def State.mates (s : State) (t : Team) : List Team := s.teams.filter fun x => x.launch = t.launch ∧ x.clus = t.clus

/-- A stopped cluster that the scheduler may resume (R316, 26 R341). -/
def State.resumable (s : State) (t : Team) : Bool :=
  t.pos == 0 && (s.mates t).any (fun x => x.st != .retired) &&
  (s.mates t).all (fun x => x.st == .retired || (!x.acting && x.st != .held && x.why == some .priority)) &&
  ((s.launch? t.launch).map fun l => l.st == .running && !l.suspended && !l.killing).getD false

/-- The pre-empted cluster of a launch that the scheduler may resume first, by its first team. -/
def State.resumes (s : State) (l : Launch) : Option Team := s.teams.find? fun t => t.launch == l.id && s.resumable t

/-- The launch has work for a cluster: a block that a team could draw, or a pre-empted cluster with the blocks it holds (R316,
R317). -/
def State.wants (s : State) (l : Launch) : Bool := s.ready l || (s.resumes l).isSome

/-- The cores that a launch holds return to the pool once it has no block ready, nor a pre-empted cluster (R317). -/
def State.dropHeld (s : State) (lid : Nat) : State :=
  match s.launch? lid with
  | none => s
  | some l => if s.wants l then s else s.modLaunch lid fun l => { l with held := [] }

/-- A team's request for a block is served (03 R19, R314). -/
def State.drawBlock (s : State) (t : Nat) : State :=
  match s.team? t with
  | none => s
  | some tm => match s.launch? tm.launch with
    | none => s
    | some l => match s.nextBlock l with
      | none => s
      | some j =>
        let s := s.modTeam t (s.shift l)
        let h : Held := { blk := j, pos := l.blkLo j }
        ((s.modLaunch l.id fun l => { l with
          returned := l.returned.erase j
          blks := l.blks ++ [{ blk := j, team := t, drawn := s.now, counted := 0, last := s.now }] }).modTeam t fun tm =>
            if tm.cur.isNone then { tm with cur := some h, wantBlk := false }
            else { tm with nxt := some h, wantBlk := false }).dropHeld l.id

/-- The team of a launch whose request for a block is the next to be served: the oldest one, of teams that run (R18, R314). -/
def State.nextAsk (s : State) (l : Launch) : Option Team :=
  (sortBy (·.asked) (sortBy (·.id) (s.teams.filter fun t =>
    t.launch == l.id && t.acting && t.wantBlk && (s.shift l t).nxt.isNone))).head?

/-- BLOCK_DRAW: a team's pending request is served in its turn, once a block's dependences are met (R18, R314). -/
def execBlockDraw (team : Nat) (s : State) : Host.Outcome State Fault Refusal :=
  match s.team? team with
  | none => .next s
  | some tm => match s.launch? tm.launch with
    | none => .next s
    | some l =>
      .next (if (s.nextAsk l).any (·.id == team) && !l.killing && !l.suspended then s.drawBlock team else s)

/-- The number of items that a drawn block will have counted when it is complete (R313, 22 R298). -/
def State.blockSize (s : State) (l : Launch) (j : Nat) : Nat :=
  if l.desc.fed && !(s.feed l).2 then 2 ^ l.desc.lblk else s.blkHi l j - l.blkLo j

/-- Operations of a team, issued between two times, are still in flight. -/
def Team.opsBetween (t : Team) (lo hi : Nat) : Bool :=
  t.groups.any fun g => g.ops.any fun o => !o.done && decide (lo ≤ o.at_ ∧ o.at_ ≤ hi)

/-- Setting a bit of a completion bitmap by an atomic OR at the home die cache (R313). -/
def State.setBit (s : State) (ctx : Nat) (map : DWord) (b : Nat) : State :=
  let a := map.toNat + b / 8
  s.devWrite ctx a [(s.devRead ctx a 1).headD 0 ||| (1#8 <<< (b % 8))]

/-- BLOCK_COMPLETE: every item of a drawn block has been counted and what its team issued meanwhile has completed; the
holding core releases at .PKG, and the block's bit is set in each consumer's bitmap (R313). -/
def execBlockComplete (launch block : Nat) (s : State) : Host.Outcome State Fault Refusal :=
  match s.launch? launch with
  | none => .next s
  | some l => match l.blks.find? (·.blk = block) with
    | none => .next s
    | some b =>
      let open_ := match s.team? b.team with
        | some t => t.opsBetween b.drawn b.last
        | none => false
      if b.counted ≠ s.blockSize l block ∨ b.counted = 0 ∨ open_ = true then .next s
      else
        let s := match s.team? b.team with
          | some t => s.release t.core .pkg
          | none => s
        let s := (s.bitmaps (s.queue l.queue) l.node).foldl (fun s m => s.setBit l.ctx m block) s
        .next (s.modLaunch launch fun l =>
          { l with blks := l.blks.filter (·.blk ≠ block), blkDone := l.blkDone ++ [block] })

/-! ## Priorities (R315) -/

/-- The descriptor of a LAUNCH node: of its launch, or as it would be created. -/
def State.nodeDesc (s : State) (qn m : Nat) (n : GNode) : LDesc :=
  if n.state = 1 then (match s.nodeLaunch? qn m with
    | some l => l.desc
    | none => ldescOf (s.devRead (s.queue qn).ctx n.arg.toNat 128))
  else ldescOf (s.devRead (s.queue qn).ctx n.arg.toNat 128)

/-- One of a launch's undrawn blocks depends on a producer (R315). -/
def State.needs (s : State) (l : Launch) (p : Nat) : Bool :=
  (l.desc.dep0.toList ++ l.desc.dep1.toList).any fun d => d.pnode == p &&
    (firstFrom (fun j => !l.blks.any (·.blk == j) && !l.blkDone.contains j && (s.depRange l d j).isSome)
      (s.blockCount l) 0).isSome

/-- A LAUNCH node waits on another of its graph (R315): its launch has undrawn blocks that depend on the other, or its node
waits for the arrival from the other, which has started and sends a run. -/
def State.waitsOn (s : State) (qn m p : Nat) : Bool :=
  let q := s.queue qn
  match q.node? m, q.node? p with
  | some n, some k =>
    n.ty == 0 && k.ty == 0 &&
    (if n.state = 1 then (match s.nodeLaunch? qn m with
        | some l => s.needs l p
        | none => false)
     else if n.state = 0 ∧ k.state ≤ 1 then
       k.succ.contains (some m) && !(n.tile && ((s.nodeLaunch? qn p).map (·.started)).getD false)
     else false)
  | _, _ => false

/-- The effective priority of a LAUNCH node, through chains of some length of waiting launches with INH (R315). -/
def State.nodePrio (s : State) (qn : Nat) : Nat → Nat → Nat
  | 0, _ => 0
  | k + 1, m =>
    match (s.queue qn).node? m with
    | none => 0
    | some n =>
      let ws := (List.range (s.queue qn).nodes.length).filter fun w => s.waitsOn qn w m &&
        (match (s.queue qn).node? w with
          | some x => (s.nodeDesc qn w x).inh
          | none => false)
      (ws.map (s.nodePrio qn k)).foldl max (s.nodeDesc qn m n).prio

/-- The effective priority of a launch (R315). -/
def State.prio (s : State) (l : Launch) : Nat :=
  max l.desc.prio (s.nodePrio l.queue ((s.queue l.queue).nodes.length + 1) l.node)

/-! ## Cores and rectangles (01 R10, 03 R15, 05 R52) -/

/-- A team keeps its core's resources: it runs, is being drained, or is held in place (26 R341). -/
def Team.onCore (t : Team) : Bool := t.acting || t.st == .held || t.st == .parked

/-- The live groups of the teams on a core, with their kernels, some teams left out. -/
def State.groupsOn (s : State) (core : Nat) (without : List Nat) : List (Group × Kernel) :=
  (s.teams.filter fun t => t.onCore && t.core == core && !without.contains t.id).flatMap fun t =>
    match s.launch? t.launch with
    | none => []
    | some l => (t.groups.filter (·.live)).map fun g => (g, l.kern)

/-- Scratch bytes taken by a window, which begins at a multiple of 768 (12 R160). -/
def windowBytes (n : Nat) : Nat := (n + 767) / 768 * 768

/-- The lowest offset of a core's scratchpad of 768 KiB, a multiple of 768, at which a window of some bytes finds room
beside those of the teams there, with some teams left out (12 R160; which one the scheduler takes is log entry 54). -/
def State.scrGap (s : State) (core n : Nat) (without : List Nat) : Option Nat :=
  let taken := ((s.teams.filter fun t => t.onCore && t.core == core && !without.contains t.id).map fun t =>
    (t.scrOff, t.scrOff + windowBytes (t.scrSize s))).filter fun p => decide (p.1 < p.2)
  (sortBy id (0 :: taken.map (·.2))).find? fun o =>
    decide (o + windowBytes n ≤ 786432) && taken.all fun p => decide (o + windowBytes n ≤ p.1 ∨ p.2 ≤ o)

/-- The resources of a core hold one more team of a kernel, with some teams left out (05 R52, 01 R10). -/
def State.fits (s : State) (core : Nat) (k : Kernel) (without : List Nat) : Bool :=
  let gs := s.groupsOn core without
  ((List.range 4).all fun b =>
    let here := gs.filter fun p => p.1.grp % 4 == b
    let add := ((List.range k.team).filter (· % 4 == b)).length
    decide (here.length + add ≤ 16) && decide ((here.map (·.2.vregs)).sum + add * k.vregs ≤ 2048) &&
    decide ((here.map (·.2.acc)).sum + add * k.acc ≤ 32)) &&
  (s.scrGap core k.scratch without).isSome

/-- A launch may use a core: the die is not in reset, no other launch has reserved or holds it, and its own partition
includes it (R317, R318). -/
def State.mayUse (s : State) (l : Launch) (core : Nat) : Bool :=
  decide (core < 384) && s.vfOfCore core == s.vfOf l && (!l.desc.part || l.partCores.contains core) &&
  s.launches.all fun x => x.id == l.id || (!x.partCores.contains core && !(x.held.contains core && s.wants x))

/-- A core can take one more team of a launch. -/
def State.takes (s : State) (l : Launch) (without : List Nat) (core : Nat) : Bool :=
  s.mayUse l core && s.fits core l.kern without

/-- The cores of a rectangle of a die's mesh of 12 columns and 8 rows, in cluster positions (03 Table 3.2). Core number
8·column + row within the die (30 R375). -/
def rectAt (die w h x y : Nat) : List Nat := (List.range (w * h)).map fun p => die * 96 + (x + p % w) * 8 + (y + p / w)

/-- Every place of a rectangle on a die. -/
def rects (die w h : Nat) : List (List Nat) :=
  (List.range (13 - w)).flatMap fun x => (List.range (9 - h)).map fun y => rectAt die w h x y

/-- The tile of the mesh, cut into rectangles of a cluster's size, that a core lies in; none beyond the last whole
rectangle. -/
def tileOf (w h core : Nat) : Option (Nat × Nat × Nat) :=
  let x := core % 96 / 8 / w
  let y := core % 8 / h
  if (x + 1) * w ≤ 12 ∧ (y + 1) * h ≤ 8 then some (dieOf core, x, y) else none

/-- A rectangle is one of the cluster positions of a partition (R318). -/
def onTile (w h : Nat) (r : List Nat) : Bool := (r.map (tileOf w h)).dedup.length == 1

/-- Every place of a cluster of a launch on a die that could take it; of a launch with a partition, the cluster positions of
that (R318). -/
def State.places (s : State) (l : Launch) (without : List Nat) (die : Nat) : List (List Nat) :=
  (rects die l.kern.clw l.kern.clh).filter fun r =>
    r.all (s.takes l without) && (!l.desc.part || onTile l.kern.clw l.kern.clh r)

/-- The places on a die where a pre-empted cluster may be resumed: one with a team held in place keeps that team's core, and
one held in place whole stays where it is (R316, R343). -/
def State.resumePlaces (s : State) (l : Launch) (t : Team) (without : List Nat) (die : Nat) : List (List Nat) :=
  let ms := (s.mates t).filter (·.st != .retired)
  let stays := ms.filter (·.st == .parked)
  if stays.length = ms.length then
    let here := ms.map (·.core)
    if here.all fun c => dieOf c == die && s.mayUse l c then [here] else []
  else (s.places l (stays.map (·.id) ++ without) die).filter fun r => stays.all fun x => r.getD x.pos 0 == x.core

/-- STAGGER holds back a start of the launch on an island of some cores (R316). -/
def Launch.staggered (l : Launch) (cores : List Nat) : Bool := cores.any fun c => l.lastStart.any (·.1 == islandOf c)

/-! ## The order of starts (R316) -/

/-- Something that could start or resume: pre-empted or new, effective priority, queue and launch, as a key in which the
earlier in the order is the smaller. -/
def State.startKey (s : State) (l : Launch) (resume : Bool) : Nat :=
  (((if resume then 0 else 1) * 8 + (7 - s.prio l)) * 64 + l.queue) * 2 ^ 32 + l.id

/-- No start that comes before one of a key could use a core of a place, at a place of its own that STAGGER does not hold back
(R316). -/
def State.firstHere (s : State) (key : Nat) (cores : List Nat) : Bool :=
  let could (l : Launch) (places : Nat → List (List Nat)) : Bool :=
    (List.range 4).any fun d => (places d).any fun r => r.any cores.contains && !l.staggered r
  !(s.launches.any fun l => decide (s.startKey l false < key) && s.ready l && could l (s.places l [])) &&
  !((s.teams.filter s.resumable).any fun t => match s.launch? t.launch with
    | none => false
    | some l => decide (s.startKey l true < key) && could l (s.resumePlaces l t []))

/-! ## Starting a cluster (R316, R307, 03 R16) -/

/-- Slots of the groups of a team on its core: each on its bench (03 R16). -/
def Core.assign (c : Core) (team : Nat) (gs : List Nat) : Core :=
  gs.foldl (fun c g =>
    match (List.range 64).find? fun k => decide (k % 4 = g % 4) && !c.slots.any (·.1 == k) with
    | some k => { c with slots := c.slots ++ [(k, team, g)] }
    | none => c) c

/-- A start or a resumption of a launch's teams on cores: STAGGER is set off, the cores are recorded, and each performs a
.SYS acquire (R307, R316). -/
def State.onStart (s : State) (l : Launch) (cores : List Nat) : State :=
  let s := s.modLaunch l.id fun l => { l with
    held := []
    usedCores := (l.usedCores ++ cores).dedup
    lastStart := if l.desc.stagger = 0 then l.lastStart
      else (cores.map islandOf).dedup.foldl (fun m i => Map.put m i s.now) l.lastStart }
  cores.foldl (fun s c => s.acquire c .sys) s

/-- The first team of a launch starts: its node sends on the edges into TILE nodes (R311). -/
def State.sendTile (s : State) (l : Launch) : State :=
  if l.started then s
  else (s.modLaunch l.id fun l => { l with started := true }).modQueue l.queue fun q =>
    if (q.node? l.node).isSome then q.sends l.node false (q.edgesTo l.node true) else q

/-- Starting one cluster of a launch on the cores of a place: its teams are numbered in order, and each draws its first
block (R314, R316, 03 R19, R22). -/
def State.startCluster (s : State) (l : Launch) (cores : List Nat) : State :=
  let s := (s.sendTile l).onStart l cores
  let handles := s.snapshot l.ctx l.desc.htab.toNat (4096 * 64)
  let new : List Team := cores.zipIdx.map fun p =>
    Team.start (s.nextTeamId + p.2) l.id (l.nextTeam + p.2) l.nextClus p.2 p.1 l.kern handles s.now
      ((s.scrGap p.1 l.kern.scratch []).getD 0)
  let cl : Cluster :=
    { id := s.nextTeamId, launch := l.id, num := l.nextClus, teams := new.map (·.id), barInst := BarInst.start 0,
      barDone := [] }
  let s := { s with
    teams := s.teams ++ new, nextTeamId := s.nextTeamId + new.length, clusters := s.clusters ++ [cl] }
  let s := s.modLaunch l.id fun l => { l with nextTeam := l.nextTeam + new.length, nextClus := l.nextClus + 1 }
  new.foldl (fun s t => (s.modCore t.core fun c => c.assign t.id (t.groups.map (·.grp))).drawBlock t.id) s

/-- TEAM_START: the scheduler starts the teams of one cluster of a launch on free cores, once the blocks that its other teams
have asked for are drawn (R18, R316). -/
def execTeamStart (launch : Nat) (cores : List Nat) (s : State) : Host.Outcome State Fault Refusal :=
  match s.launch? launch with
  | none => .next s
  | some l =>
    let ok := s.pkg == .up && s.ready l && (s.nextAsk l).isNone && !l.staggered cores &&
      ((List.range 4).any fun d => (s.places l [] d).contains cores) && s.firstHere (s.startKey l false) cores
    .next (if ok then s.startCluster l cores else s)

/-- STAGGER_EXPIRY: STAGGER cycles have passed since the launch's previous start on an island (R316). -/
def execStaggerExpiry (launch island : Nat) (s : State) : Host.Outcome State Fault Refusal :=
  match s.launch? launch with
  | none => .next s
  | some l => match Map.find? l.lastStart island with
    | none => .next s
    | some t =>
      .next (if t + l.desc.stagger ≤ s.now then s.modLaunch launch fun l => { l with lastStart := Map.del l.lastStart island }
        else s)

/-! ## Priority pre-emption (R317) -/

/-- Free slots of a launch's save area (26 R340). -/
def State.freeSlots (s : State) (l : Launch) : Nat := leNat (s.devRead l.ctx l.desc.save.toNat 4) - l.slots.length

/-- Requesting pre-emption of a team: PREQ is set and its notice interval begins (26 R337). -/
def State.request (s : State) (t : Nat) (why : PreWhy) : State :=
  s.modTeam t fun tm => if tm.st = .running then
      { tm with st := .notice s.now, why := some why, groups := tm.groups.map fun (g : Group) => { g with yielded := false } }
    else tm

/-- The save slots of a launch that no record holds and no team that is being stopped will need (26 R340). -/
def State.openSlots (s : State) (l : Launch) : Nat :=
  s.freeSlots l - (s.teams.filter fun t => t.launch == l.id && t.why.isSome && t.onCore).length

/-- A running cluster that a launch of some effective priority may pre-empt, on a die, by its first team (R317). -/
def State.victim (s : State) (prio die : Nat) (t : Team) : Bool :=
  t.pos == 0 && dieOf t.core == die && (s.mates t).any (·.st == .running) &&
  (s.mates t).all (fun x => x.st == .running || x.st == .retired) &&
  match s.launch? t.launch with
  | none => false
  | some l => decide (s.prio l < prio) && !l.desc.part && decide (1 ≤ s.openSlots l)

/-- The candidates of a die in the order of taking (R317). -/
def State.victims (s : State) (prio die : Nat) : List Team :=
  let key (t : Team) : Nat := ((s.launch? t.launch).map s.prio).getD 0
  sortBy key (sortBy (fun t => s.now - t.startedAt) ((sortBy (fun t => t.launch)
    (sortBy (·.num) (s.teams.filter (s.victim prio die)))).reverse))

/-- The places of the cluster for which a launch would pre-empt, with some teams left out: its pre-empted cluster before a
new one (R316, R317). -/
def State.wantPlaces (s : State) (l : Launch) (without : List Nat) (die : Nat) : List (List Nat) :=
  match s.resumes l with
  | some t => s.resumePlaces l t without die
  | none => s.places l without die

/-- The set of a die: the shortest run of candidates whose cores, with the free ones, hold the cluster, without those that
the place does not use; with the place (R317). -/
def State.dieSet (s : State) (l : Launch) (die : Nat) : Option (List Team × List Nat) :=
  let vs := s.victims (s.prio l) die
  (List.range vs.length).findSome? fun k =>
    let took := vs.take (k + 1)
    match s.wantPlaces l ((took.flatMap s.mates).map (·.id)) die with
    | [] => none
    | r :: _ => some (took.filter fun t => (s.mates t).any fun x => r.contains x.core, r)

/-- PRIORITY_PREEMPTION: a ready launch that cannot place a cluster, a new one or one that was pre-empted, takes the set of one
die: the fewest teams, then the lowest highest priority, then the first die; the cores of the set and those of the place are
held for it (R317). -/
def execPriorityPreemption (launch : Nat) (s : State) : Host.Outcome State Fault Refusal :=
  match s.launch? launch with
  | none => .next s
  | some l =>
    if !s.wants l then .next (s.dropHeld launch)
    else if !l.held.isEmpty || (List.range 4).any (fun d => !(s.wantPlaces l [] d).isEmpty) then .next s
    else
      let sets := (List.range 4).filterMap fun d => s.dieSet l d
      let teams (p : List Team × List Nat) : List Team := (p.1.flatMap s.mates).filter (·.st == .running)
      let top (p : List Team × List Nat) : Nat := (p.1.map fun t => ((s.launch? t.launch).map s.prio).getD 0).foldl max 0
      match sortBy (fun p => (teams p).length * 8 + top p) sets with
      | [] => .next s
      | p :: _ =>
        let s' := s.modLaunch launch fun l => { l with held := (p.2 ++ (teams p).map (·.core)).dedup }
        .next ((teams p).foldl (fun s t => s.request t.id .priority) s')

/-! ## Reserved partitions (R318) -/

/-- PARTITION_RESERVE: a free core is reserved for the oldest pending partition request, in whole cluster rectangles, while
at most four partitions are held (R318). -/
def execPartitionReserve (core : Nat) (s : State) : Host.Outcome State Fault Refusal :=
  match s.partWait with
  | [] => .next s
  | p :: more => match s.launch? p with
    | none => .next { s with partWait := more }
    | some l =>
      let others := (s.launches.filter fun x => x.id ≠ p ∧ ¬ x.partCores.isEmpty).length
      let tiles := (l.partCores.filterMap (tileOf l.kern.clw l.kern.clh)).dedup
      let ok := match tileOf l.kern.clw l.kern.clh core with
        | none => false
        | some t => tiles.contains t || decide (tiles.length < l.desc.pcores / (l.kern.clw * l.kern.clh))
      let free := decide (core < 384) && s.vfOfCore core == s.vfOf l && (s.groupsOn core []).isEmpty &&
        s.launches.all fun x => !x.partCores.contains core && !(x.held.contains core && s.wants x)
      if others < 4 ∧ ok = true ∧ free = true then
        let cs := l.partCores ++ [core]
        let whole := decide (l.desc.pcores ≤ cs.length)
        .next { s.modLaunch p (fun l => { l with partCores := cs, partOk := whole }) with
                partWait := if whole then more else s.partWait }
      else .next s

/-! ## Completion (R307) -/

/-- Every operation of a launch's teams has completed. -/
def State.quiet (s : State) (l : Launch) : Bool :=
  (s.teams.filter (·.launch == l.id)).all fun t => t.st == .retired && t.groups.all fun g => g.ops.all (·.done)

/-- The launch ends: a .SYS release on each core that ran one of its teams, the completion record, its partition and its
queue, and the finishing of its node (R307, R318, 22 R297). -/
def State.endLaunch (s : State) (l : Launch) : State :=
  let s := l.usedCores.foldl (fun s c => s.release c .sys) s
  let st : LaunchSt := if l.killing then .killed
    else if l.exited + l.killed + l.lost = s.itemCount l then .complete else .incomplete
  let s := s.devWrite l.ctx l.desc.doneAt.toNat (recordOf st 0 l.exited l.killed l.lost l.nfault)
  let s := s.modLaunch l.id fun l => { l with st := st, partCores := [], partOk := false, held := [], fedEnd := if l.desc.fed then some (s.feed l) else none }
  let s := if l.desc.fed then s.modQueue l.desc.qnum fun q => { q with fedBy := none } else s
  let s := { s with partWait := s.partWait.filter (· ≠ l.id) }
  (s.modQueue l.queue fun q =>
    if ((q.node? l.node).map (·.state)) = some 1 then (q.finishNode l.node l.started).rest else q).tell (.completed l.id)

/-- LAUNCH_COMPLETION: no block is left, every team has retired and every operation has completed (R307, 22 R298). -/
def execLaunchCompletion (launch : Nat) (s : State) : Host.Outcome State Fault Refusal :=
  match s.launch? launch with
  | none => .next s
  | some l =>
    let spent := l.killing || (!s.undrawn l && (!l.desc.fed || (s.feed l).2))
    .next (if l.st == .running && spent && !l.suspended && s.quiet l then s.endLaunch l else s)

end Sys2Proof.Machine
end

