-- ==== Sys2Proof/Machine/Preempt.lean ====
section
/-! DEFINITION. Pre-emption and resumption (26 R337 to R343, 14 R222, 16 R230, 18 R272, 20 R284, 22 R296, 28 R365). A
stopped team keeps its state in place; saving it frees its core, and its record is that state (log entry 9). -/

namespace Sys2Proof.Machine

/-! ## Stopping (R337, R338) -/

/-- What holds a split once it is stopped: time-outs keep their remainder, a YIELD or SYNCS counts as complete, and what
waits, or is complete or not begun, is executed again (03 R30, 09 R111, 14 R222, 16 R230, 20 R284, 22 R296, 28 R361). -/
def Hold.stopped (hd : Hold) (now : Nat) : Hold :=
  match hd with
  | .spinh till => .spinh (till - now)
  | .demoted till => .demoted (till - now)
  | .bar .. | .yield _ _ | .syncs | .refill _ _ | .bwait .. | .waitn .. | .fence .. | .rfence .. | .mmaq _ | .klook ..
  | .span _ => .run
  | hd => hd

/-- The same hold when the team goes on: time-outs run on (24 R320). -/
def Hold.again (hd : Hold) (now : Nat) : Hold :=
  match hd with
  | .spinh rem => .spinh (now + rem)
  | .demoted rem => .demoted (now + rem)
  | hd => hd

/-- An MMAQ arrival's count on n3 is undone (16 R230). -/
def Group.uncount (g : Group) (op : Nat) : Group :=
  { g with ops := g.ops.filter (·.id ≠ op)
           ctrs := g.ctrs.map fun c => c.filter (·.1 ≠ op)
           ctot := g.ctot.zipIdx.map fun p => if (g.ctrs.getD p.2 []).any (·.1 == op) then p.1 - 1 else p.1 }

/-- Operations that depend, directly or through others, on some first ones, with those. -/
def Group.closure (g : Group) (first : Op → Bool) : List Nat :=
  g.ops.foldl (fun l o => if first o || o.deps.any l.contains then l ++ [o.id] else l) []

/-- A GATHER, or a KLOOK in its gather phase, that is not an unfired triggered operation. -/
def Op.gathers (o : Op) : Bool := o.trig.isNone && match o.kind with
  | .gather _ => true
  | _ => false

/-- A split as it is stopped; one whose count has reached 64 is demoted (03 R37), and one that has arrived at a BAR or CBAR
keeps the instance, from which it departs later (14 R222). -/
def Split.stopped (x : Split) (now : Nat) : Split :=
  if x.hold = .run ∧ 64 ≤ x.quiet then { x with hold := .demoted (x.issuedAt + 4096 - now) }
  else { x with
    hold := x.hold.stopped now
    bar := match x.hold with
      | .bar c i _ => some (c, i)
      | _ => x.bar }

/-- A group is stopped: every fixed-latency result lands (05 R60), its splits stop at their boundaries, where one that
stands at its reconvergence address arrives, and its gathers are abandoned with what depends on them, unless that is an
unfired triggered operation (R338). -/
def Group.stopped (g : Group) (now : Nat) : Group :=
  let drop := g.closure Op.gathers
  let count (p : Hold → Bool) : Nat := (g.splits.filter fun x => p x.hold).length
  let q := count fun h => match h with | .mmaq _ => true | _ => false
  let n := count fun h => match h with | .span _ => true | _ => false
  let g := g.landSplits (g.splits.map (·.id))
  Group.settle now 64 { g with
    splits := g.splits.map (·.stopped now)
    mmaqs := g.mmaqs - q, spans := g.spans - n
    ops := g.ops.map fun o => if drop.contains o.id && o.trig.isNone then { o with abandoned := true } else o }

/-- Stopping a team: it is held on its core, and arrivals at rendezvous are withdrawn (R337, R338). -/
def State.stopTeam (s : State) (t : Nat) : State :=
  s.modTeam t fun tm =>
    let undone (g : Group) : Group := (tm.quartArr.filter (·.2.2.grp = g.grp)).foldl (fun g a => match a.2.2.op with
      | some o => g.uncount o
      | none => g) g
    { tm with st := .held, quartArr := [], spanArr := [], groups := tm.groups.map fun g => (undone g).stopped s.now }

/-- The operations of a group that the record keeps: abandoned ones, unfired triggered ones, those that wait for a RETRY,
and what depends on them. -/
def Group.kept (g : Group) : List Nat := g.closure fun o => o.abandoned || o.trig.isSome || o.waitRetry

/-- The lanes of an operation that do not wait for a RETRY have been performed: nothing of them is left. -/
def OpKind.idle : OpKind → Bool
  | .load _ _ accs | .loadBlock _ _ accs | .store _ accs | .atomic _ _ _ accs => accs.isEmpty
  | .loadK .. | .const .. => false
  | .lookup _ ks => ks.isEmpty
  | .tagset es => es.isEmpty
  | .copy es => es.isEmpty
  | .enq _ _ _ _ rows _ _ => rows.isEmpty
  | k => k.xfers.all fun t => t.pkt.isSome || t.done

/-- Every operation of the team that is drained has completed, remote ones locally, as well as other teams' copies into
its window (Table 26.9); of one that waits for a RETRY, the lanes that do not wait (22 R302). -/
def State.drained (s : State) (tm : Team) : Bool :=
  (tm.groups.all fun g => g.ops.all fun o =>
    o.done || (g.kept.contains o.id && (!o.waitRetry || o.abandoned || o.kind.idle))) &&
  s.teams.all fun x => x.id == tm.id || x.groups.all fun g => g.ops.all fun o => match o.kind with
    | .tcopy _ _ _ _ _ _ _ ms => o.trig.isSome || o.abandoned || !ms.contains tm.id
    | _ => true

/-- A stopped team has drained: a .SYS release is performed on its core and its race records are cleared; it is held in
place (R341, 12 R190). -/
def State.parkTeam (s : State) (t : Nat) : State :=
  match s.team? t with
  | none => s
  | some tm =>
    let s := s.release tm.core .sys
    let mine := ((s.core tm.core).slots.filter (·.2.1 = t)).map (·.1)
    (s.modCore tm.core fun c => { c with
      race := (c.race.map fun (p : Nat × List Race) => (p.1, p.2.filter fun r => !mine.contains r.slot)).filter (!·.2.isEmpty)
      }).modTeam t fun tm => { tm with st := .parked, scrRace := [] }

/-- The address of a slot of a launch's save area (Table 26.10). -/
def State.slotAddr (s : State) (l : Launch) (slot : Nat) : Nat :=
  l.desc.save.toNat + 4096 + 2 ^ 20 + slot * leNat (s.devRead l.ctx (l.desc.save.toNat + 4) 4)

/-- The bytes of a team's context record (R342): their layout, with the integrity tag, is the device's own. -/
def recordBytes (l : Launch) (tm : Team) : List Byte := (List.range (crSize l.kern)).map (Config.recordByte tm)

/-- Saving a parked team into a slot: its record is written there, and its core's resources fall free (R340, R342). -/
def State.saveTeam (s : State) (t slot : Nat) : State :=
  match s.team? t with
  | none => s
  | some tm => match s.launch? tm.launch with
    | none => s
    | some l =>
      let tm' := { tm with st := .saved slot, recordOk := true, record := [] }
      let tm' := { tm' with record := recordBytes l tm' }
      let s := s.devWrite l.ctx (s.slotAddr l slot) tm'.record
      ((s.modCore tm.core fun c => { c with slots := c.slots.filter (·.2.1 ≠ t) }).modTeam t fun _ => tm').modLaunch tm.launch
        fun l => { l with slots := l.slots ++ [slot] }

/-- A saved team's record stands in its slot as it was written (R342). -/
def State.intact (s : State) (l : Launch) (tm : Team) : Bool :=
  tm.recordOk && match tm.st with
    | .saved slot => s.devRead l.ctx (s.slotAddr l slot) (crSize l.kern) == tm.record
    | _ => true

/-- The lowest free slots of a launch's save area. -/
def State.slotsFree (s : State) (l : Launch) (n : Nat) : List Nat :=
  ((List.range (l.slots.length + n)).filter fun i => !l.slots.contains i).take n

/-- PREEMPTION_NOTICE_END. The notice interval of a cluster's teams is over (1,024 cc, or every group has executed YIELD,
or none is allowed): they are stopped together. Then, team by team: once it is drained it is held in place, and it is saved
while a slot is free (R337 to R341). -/
def execPreemptionNoticeEnd (team : Nat) (s : State) : Host.Outcome State Fault Refusal :=
  match s.team? team with
  | none => .next s
  | some tm =>
    let ms := (s.mates tm).filter (·.st != .retired)
    let ended (t : Team) : Bool := match t.st with
      | .notice since => t.why == some .grid || decide (since + 1024 ≤ s.now) || t.groups.all fun g => !g.live || g.yielded
      | _ => false
    if ms.all ended then .next (ms.foldl (fun s t => s.stopTeam t.id) s)
    else
      let s := if tm.st == .held && s.drained tm then s.parkTeam team else s
      match s.team? team, s.launch? tm.launch with
      | some tm, some l =>
        if tm.st = .parked ∧ 1 ≤ s.freeSlots l then .next (s.saveTeam team ((s.slotsFree l 1).headD 0)) else .next s
      | _, _ => .next s

/-! ## Resumption (R339, R343) -/

/-- The edges of an operation, rebuilt (12 R190). -/
def Group.reEdge (g : Group) (i : Nat) : Group :=
  g.modOp i fun o => { o with deps := g.edges o.engine o.fp o.id }

/-- Reissuing an abandoned gather: the handle is read again and its checks are made again; a failing one ends the operation
as an engine fault. First a KLOOK's captured selection rewrites the records that it had written (18 R272, 20 R283, R284). -/
def State.reissueGather (s : State) (o : ORef) (tm : Team) (p : Op) (q : GOp) : State :=
  let hd := tm.handle (BitVec.ofNat 64 q.hnum)
  let size := if q.key.isNone && q.mode == .plain then 32 * q.n * hd.rb else 32 * hd.eb q.f32
  let checks := gatherChecks (tm.scrSize s) hd (gatherAdmits q.mode q.f32 hd.fmt) (BitVec.ofInt 64 q.base) size false
  let p := { p with abandoned := false }
  let s := match q.key with
    | none => s
    | some rec => s.writeRecords o.team rec (q.sels.filter fun e => q.recs.getLsbD e.1) 0
  match checks.find? (·.1) with
  | some (_, c, a) => s.endEngine o.team o.grp p [opFault p (.plain 0 c a) p.mask]
  | none =>
    let q := { q with h := hd, slots := q.slots.map (GSlot.again hd), parts := [], sent := false }
    let fp := hd.fp false :: p.fp.drop 1
    s.modGroup o.team o.grp fun g => (g.modOp p.id fun _ => { p with kind := .gather q, fp := fp }).reEdge p.id

/-- Reissuing an abandoned operation in its place on its counters (R339). -/
def State.reissue (s : State) (o : ORef) : State :=
  match s.op? o with
  | none => s
  | some (tm, _, p) =>
    if !p.abandoned then s
    else match p.kind with
      | .gather q => s.reissueGather o tm p q
      | _ => s.modGroup o.team o.grp fun g => (g.modOp p.id fun p => { p with abandoned := false }).reEdge p.id

/-- The armed operations of a team whose condition holds fire (14 R221, R222). -/
def State.fireTriggers (s : State) (t : Nat) : State :=
  s.modTeam t fun tm => { tm with groups := tm.groups.map fun (g : Group) =>
    { g with ops := g.ops.map fun (o : Op) => { o with trig := o.trig.filter fun w => !w.holds tm g } } }

/-- A team goes on, on a core: its slot falls free, its handles are read anew, its time-outs run on, its abandoned
operations are reissued in issue order before its splits issue, and its triggered operations are armed again, of which one
whose condition the drain has met fires at once (R339, R343, 14 R222, 18 R246). -/
def State.restoreTeam (s : State) (t core : Nat) (handles : Map Byte) : State :=
  match s.team? t with
  | none => s
  | some tm =>
    let off := match tm.st with
      | .saved _ => (s.scrGap core (tm.scrSize s) [t]).getD 0
      | _ => tm.scrOff
    let s := match tm.st with
      | .saved slot => (s.modLaunch tm.launch fun l => { l with slots := l.slots.erase slot }).modCore core fun c =>
          c.assign t ((tm.groups.filter fun (g : Group) => g.live).map fun (g : Group) => g.grp)
      | _ => s
    let s := s.modTeam t fun tm =>
      { tm with
        st := .running, why := none, record := [], core := core, startedAt := s.now, handles := handles, scrOff := off
        groups := tm.groups.map fun (g : Group) =>
                  { g with splits := g.splits.map fun (x : Split) => { x with hold := x.hold.again s.now } } }
    let refs : List ORef := tm.groups.flatMap fun g => g.ops.map fun o => ⟨t, g.grp, o.id⟩
    (refs.foldl State.reissue s).fireTriggers t

/-- A record that was altered: the launch is suspended and reported as at grid KPARENT (26 R326, R342). -/
def State.badRecord (s : State) (tm : Team) : State :=
  match s.launch? tm.launch with
  | none => s
  | some l =>
    let seq := l.seq + 1
    let rep : Report :=
      { seq := seq, team := tm.id, grp := 0, split := 0, level := 2, cause := some .dataerr, lanes := 0, grid := true,
        trapStop := false, held := .run, eng := none }
    ((s.modLaunch l.id fun l => { l with seq := seq, reports := l.reports ++ [rep] }).tell
      (.badRecord l.id tm.id)).suspend l.id seq

/-- TEAM_RESUME: a stopped cluster's teams go on, in the order of starts and on cores that no ready cluster holds: a saved
team on the core of its position, one held in place there; each performs a .SYS acquire first (R316, R317, R341, R343, 24
R307). -/
def execTeamResume (team : Nat) (cores : List Nat) (s : State) : Host.Outcome State Fault Refusal :=
  match s.team? team with
  | none => .next s
  | some t0 => match (s.mates t0).find? (·.pos = 0), s.launch? t0.launch with
    | some tm, some l =>
      let ms := (s.mates tm).filter (·.st != .retired)
      let stays := (ms.filter (·.st == .parked)).map (·.id)
      let at_ (t : Team) : Nat := if stays.contains t.id then t.core else cores.getD t.pos 0
      let here := ms.map at_
      let placed := (List.range 4).any fun d => (s.resumePlaces l tm [] d).contains
        (if stays.length = ms.length then here else cores)
      let ok := s.resumable tm && !l.staggered here && placed && s.firstHere (s.startKey l true) here
      if !ok then .next s
      else match ms.find? (!s.intact l ·) with
        | some t => .next (s.badRecord t)
        | none =>
          let s := s.onStart l here
          let handles := s.snapshot l.ctx l.desc.htab.toNat (4096 * 64)
          .next (ms.foldl (fun s t => s.restoreTeam t.id (at_ t) handles) s)
    | _, _ => .next s

end Sys2Proof.Machine
end

