-- ==== Sys2Proof/Machine/Manage.lean ====
section
/-! DEFINITION. The management interface (30 R368): answers to faults (03 R40), RELEASE, PREEMPT and RESUME (26 R337),
translation invalidation (26 R336), SCRUB (26 R326) and the package number (28 R344). -/

namespace Sys2Proof.Machine

/-! ## Answers to faults (03 R40, R368) -/

/-- The split that a report stopped. -/
def Report.ref (r : Report) : SRef := ⟨r.team, r.grp, r.split⟩

/-- A split, whether or not its team acts. -/
def State.splitAt? (s : State) (r : SRef) : Option (Team × Group × Split) :=
  match s.team? r.team with
  | none => none
  | some tm => match tm.group? r.grp with
    | none => none
    | some g => (g.split? r.split).map fun x => (tm, g, x)

/-- A report that waits for RESOLVE. -/
def State.report? (s : State) (lid seq : Nat) (trap : Bool) : Option Report :=
  match s.launch? lid with
  | none => none
  | some l => if l.st = .running then l.reports.find? fun r => r.seq == seq && r.trapStop == trap else none

/-- A report has been answered. -/
def State.dropReport (s : State) (lid seq : Nat) : State :=
  s.modLaunch lid fun l => { l with reports := l.reports.filter (·.seq ≠ seq) }

/-- A suspended launch whose faults have all been answered resumes: teams that have not stopped continue, and the
scheduler resumes the others (R40, 26 R341). -/
def State.resumeLaunch (s : State) (lid : Nat) : State :=
  match s.launch? lid with
  | none => s
  | some l =>
    if !l.suspended || l.reports.any (·.grid) then s
    else
      let s := s.modLaunch lid fun l => { l with suspended := false }
      { s with teams := s.teams.map fun (t : Team) =>
          if t.launch = lid ∧ t.why = some .grid then (match t.st with
            | .notice _ => { t with st := .running, why := none }
            | .retired => t
            | _ => { t with why := some .priority }) else t }

/-- The kind of an operation that RETRY reissues for an engine fault: the refused lanes of a remote one, the faulting lanes
of a gather or scatter, otherwise the whole operation (14 R219, 18 R260, 28 R359). -/
def EFault.reissue (f : EFault) : OpKind :=
  match f.op.kind with
  | .rwr .. | .rrd .. | .rred .. | .rflag .. => f.op.kind.resend f.lanes
  | .gather _ | .scatter _ => f.op.kind.again
  | k => k

/-- Whether the reissue covers lanes of the operation only, so that its other faults stand. -/
def EFault.byLanes (f : EFault) : Bool :=
  match f.op.kind with
  | .rwr .. | .rrd .. | .rred .. | .rflag .. => true
  | _ => false

/-- Inserting an operation in the order of numbers. -/
def insertOp (o : Op) (l : List Op) : List Op :=
  l.filter (fun p => decide (p.id < o.id)) ++ o :: l.filter fun p => decide (o.id < p.id)

/-- RETRY of an engine fault: the operation is reissued. A remote transfer refused at its destination is sent again from
its captured copy under its number; any other operation is issued and counted again (14 R208, R219, 28 R359). -/
def Group.reissueFault (g : Group) (now : Nat) (f : EFault) : Group :=
  if !g.live then g
  else
    let o := { f.op with kind := f.reissue, first := some f.op.root, done := false, waitRetry := false, abandoned := false, trig := none, at_ := now }
    let g := { g with efaults := if f.byLanes then g.efaults else g.efaults.filter (·.op.id ≠ f.op.id) }
    if f.remote then
      match g.op? o.id with
      | some p =>
        let rest := p.kind.xfers.filter fun t => o.kind.xfers.all (·.lane != t.lane)
        g.modOp p.id fun p => { p with kind := p.kind.withXfers (sortBy (·.lane) (rest ++ o.kind.xfers)), done := false }
      | none => { g with ops := insertOp { o with fp := [], deps := [], bn := none } g.ops }
    else
      let id := g.nextOp
      let ns := o.nth.map (·.1)
      let o := { o with id := id, nth := ns.map fun n => (n, g.ctot.getD n 0), deps := g.edges o.engine o.fp id }
      { g with
        ops := g.ops ++ [o], nextOp := id + 1
        ctrs := ns.foldl (fun l n => l.modify n (· ++ [(id, false)])) g.ctrs
        ctot := ns.foldl (fun l n => l.modify n (· + 1)) g.ctot }

/-- A split that a fault stopped goes on once every report of its instruction is answered: an observing instruction as it
was, an instruction without a lane left to reissue at its next, any other at its instruction again, for the lanes that
RETRY reissues (Table 3.5, 14 R208). -/
def State.goOn (s : State) (lid : Nat) (r : Report) (pass : Bool) : State :=
  match s.launch? lid, s.splitAt? r.ref with
  | some l, some (tm, _, x) =>
    if l.reports.any fun q => q.ref == r.ref && !q.trapStop then s
    else match x.hold with
      | .fault _ =>
        if r.eng.isSome then
          s.modSplit r.ref fun y => { y with hold := if tm.acting then r.held else r.held.stopped s.now }
        else if x.only = some 0 ∨ (pass = true ∧ x.only = none) then
          (s.modG r.ref fun g => { g with ops := g.ops.map fun (o : Op) =>
            if o.waitRetry ∧ o.pc = x.pc ∧ o.split = x.id then { o with waitRetry := false } else o }).passHeld r.ref x.words
        else s.modSplit r.ref fun y => { y with hold := .run }
      | _ => s
  | _, _ => s

/-- RESOLVE with RESOLVED: the instruction, or the engine operation, is reissued as RETRY gives at the origin level, and
a launch suspended beyond the grid resumes (03 R40, R368). Other reports of the same instruction are awaited; if one of
them is answered with KILL, the whole instruction is still issued again. -/
def execResolveResolved (launch seq : Nat) (s : State) : Host.Outcome State Fault Refusal :=
  if s.pkg ≠ .up then .next (s.tell .refusedCmd)
  else match s.report? launch seq false with
  | none => .next (s.tell .refusedCmd)
  | some r =>
    let s := s.dropReport launch seq
    let s := match r.eng with
      | some f => s.modG r.ref fun g => g.reissueFault s.now f
      | none => s.modSplit r.ref fun x => if x.only.isNone then { x with words := 0 } else x
    .next ((s.goOn launch r false).resumeLaunch launch)

/-- RESOLVE with KILL: KSELF at the fault's origin level, then a suspended launch resumes; at item level the other lanes
pass the instruction (03 R40, R368). -/
def execResolveKill (launch seq : Nat) (s : State) : Host.Outcome State Fault Refusal :=
  if s.pkg ≠ .up then .next (s.tell .refusedCmd)
  else match s.report? launch seq false with
  | none => .next (s.tell .refusedCmd)
  | some r =>
    let s := s.dropReport launch seq
    let s := match s.team? r.team with
      | none => s
      | some tm => s.kself tm r.level r.ref r.lanes r.fetch
    let s := if r.eng.isSome then s
      else s.modSplit r.ref fun x => { x with only := x.only.map (· &&& ~~~r.lanes) }
    .next ((s.goOn launch r true).resumeLaunch launch)

/-- RESOLVE with END: the launch ends with status KILLED (03 R40, R368). -/
def execResolveEnd (launch seq : Nat) (s : State) : Host.Outcome State Fault Refusal :=
  if s.pkg ≠ .up then .next (s.tell .refusedCmd)
  else match s.report? launch seq false with
  | none => .next (s.tell .refusedCmd)
  | some _ => .next (s.killLaunch launch)

/-- RELEASE: a split stopped by TRAP or BRK goes on at its next instruction (26 R331, R368). -/
def execRelease (launch seq : Nat) (s : State) : Host.Outcome State Fault Refusal :=
  if s.pkg ≠ .up then .next (s.tell .refusedCmd)
  else match s.report? launch seq true with
  | none => .next (s.tell .refusedCmd)
  | some r =>
    let s := s.dropReport launch seq
    match s.splitAt? r.ref with
    | some (_, _, x) => .next (if x.hold = .stop seq then s.passHeld r.ref 1 else s)
    | none => .next s

/-! ## PREEMPT and RESUME (26 R337, R341) -/

/-- The teams that a command names, with the other teams of their clusters (26 R337). -/
def State.targets (s : State) : PreTgt → List Team
  | .launch l => s.teams.filter fun t => t.launch = l ∧ t.st ≠ .retired
  | .team i => match s.team? i with
    | none => []
    | some t => (s.mates t).filter fun x => x.st ≠ .retired

/-- A request of system software to stop a team; one stopped already is resumed only when system software asks. -/
def State.preemptTeam (s : State) (t : Team) : State :=
  (s.request t.id .system).modTeam t.id fun t => if t.why = some .priority then { t with why := some .system } else t

/-- A launch named by a command starts no team, or may start teams again (log entry 15). -/
def State.pause (s : State) (t : PreTgt) (b : Bool) : State :=
  match t with
  | .launch l => s.modLaunch l fun l => { l with paused := b, held := if b then [] else l.held }
  | .team _ => s

/-- PREEMPT: system software pre-empts a team with its cluster, or the teams of a launch (26 R337, R368). -/
def execPreempt (t : PreTgt) (s : State) : Host.Outcome State Fault Refusal :=
  if s.pkg ≠ .up then .next (s.tell .refusedCmd)
  else .next ((s.targets t).foldl State.preemptTeam (s.pause t true))

/-- Resuming one team: a request is withdrawn before the splits stop; a stopped team goes back to the scheduler (26 R337,
24 R316). A launch suspended by a fault waits for RESOLVE. -/
def Team.resumed (t : Team) : Team :=
  if t.why = some .grid then t
  else match t.st with
    | .notice _ => { t with st := .running, why := none }
    | .held | .parked | .saved _ => { t with why := some .priority }
    | _ => t

/-- RESUME (26 R337, R341, R368). -/
def execResume (t : PreTgt) (s : State) : Host.Outcome State Fault Refusal :=
  if s.pkg ≠ .up then .next (s.tell .refusedCmd)
  else .next ((s.targets t).foldl (fun s t => s.modTeam t.id Team.resumed) (s.pause t false))

/-! ## Invalidation (26 R336) -/

/-- INVALIDATE: an invalidation by context and range is requested. -/
def execInvalidate (ctx : Nat) (lo hi : DWord) (s : State) : Host.Outcome State Fault Refusal :=
  if s.pkg ≠ .up then .next (s.tell .refusedCmd)
  else .next { s with
    invals := s.invals ++ [{
      id := s.nextInval, ctx := ctx, lo := lo.toNat, hi := hi.toNat,
      olds := s.tlbAll.filter fun e => e.ctx == ctx && decide (e.base < hi.toNat ∧ lo.toNat < e.base + 2 ^ e.bits) }]
    nextInval := s.nextInval + 1 }

/-- An operation that holds translations made at its issue and has not been performed. -/
def Op.translated (o : Op) : Bool := !o.done && match o.kind with
  | .load .. | .loadBlock .. | .loadK .. | .const .. | .store .. | .atomic .. | .copy _ => true
  | _ => false

/-- An access of a context to some range has been translated and not performed. -/
def State.inFlight (s : State) (i : Inval) : Bool :=
  s.teams.any fun t => t.ctx s == i.ctx && t.groups.any fun g => g.ops.any fun o =>
    o.translated && o.fp.any fun r => r.sp == .glob && decide (r.lo < i.hi ∧ (i.lo : Int) < r.hi)

/-- INVALIDATION_COMPLETE: every access of the range that was translated has been performed, and no TLB of the package
keeps an entry of it (26 R335, R336). -/
def execInvalidationComplete (id : Nat) (s : State) : Host.Outcome State Fault Refusal :=
  match s.invals.find? (·.id = id) with
  | none => .next s
  | some i =>
    if s.inFlight i then .next s
    else .next (({ s.dropTlb (fun e => e.ctx == i.ctx && decide (e.base < i.hi ∧ i.lo < e.base + 2 ^ e.bits)) with
      invals := s.invals.filter (·.id ≠ id) }).tell (.invalidated id))

/-! ## SCRUB and SET_PKG -/

/-- SCRUB: scrubbing an ECC word of memory leaves an uncorrectable word as it is and reports it (26 R326). -/
def execScrub (word : Nat) (s : State) : Host.Outcome State Fault Refusal :=
  .next (if s.memBad.contains word then s.tell (.eccLeft word) else s)

/-- SET_PKG: the package number is set unless a launch runs (28 R344, R368). -/
def execSetPkg (n : Nat) (s : State) : Host.Outcome State Fault Refusal :=
  if s.pkg = .up ∧ n < 4096 ∧ s.launches.all (fun l => l.st != .running) = true then .next { s with pkgNum := n }
  else .next (s.tell .refusedCmd)

end Sys2Proof.Machine
end

