-- ==== Sys2Proof/Machine/Security.lean ====
section
/-! DEFINITION. The package as the host and the security processor see it (30): functions and TDISP interfaces, compute-die
reset, firmware and manifest, the security alarm, power and bring-up. -/

namespace Sys2Proof.Machine

/-! ## TDISP interfaces (R369, R370) -/

/-- The interfaces: PF1 to PF4 are 1 to 4, VF1 to VF64 are 5 to 68 (Table 30.1). -/
def isTdi (t : Nat) : Bool := decide (1 ≤ t ∧ t ≤ 68)

/-- The function is one of PF1 to PF4. -/
def isPf (t : Nat) : Bool := decide (1 ≤ t ∧ t ≤ 4)

/-- A TDI; one that nothing has locked is in CONFIG_UNLOCKED. -/
def State.tdi (s : State) (t : Nat) : Tdi := ((s.tdis.find? (·.1 = t)).map (·.2)).getD { st := .unlocked, keys := [] }

/-- Changing a TDI. -/
def State.modTdi (s : State) (t : Nat) (f : Tdi → Tdi) : State := { s with tdis := Map.put s.tdis t (f (s.tdi t)) }

/-- The keys of a function's IDE streams, at most 8; PF0 is function 0 (R369). -/
def State.agreeIde (s : State) (t : Nat) (k : BitVec 256) : State :=
  if s.pkg = .up ∧ t ≤ 68 ∧ (s.tdi t).keys.length < 8 then s.modTdi t fun x => { x with keys := x.keys ++ [k] }
  else s

/-- A TDISP request of an interface while the package is up; in the recovery state only PF0 enumerates (R377). -/
def State.tdisp (s : State) (t : Nat) (f : Tdi → State × TdispAns) : State :=
  if s.pkg = .up ∧ isTdi t = true then (let r := f (s.tdi t); r.1.tell (.tdisp t r.2)) else s

/-- Any other TDISP request receives ERROR with code UNSUPPORTED_REQUEST (R370). -/
def State.tdispOther (s : State) (t : Nat) : State := s.tdisp t fun _ => (s, .error .unsupportedRequest)

/-- GET_TDISP_VERSION (R370). -/
def execGetTdispVersion (t : Nat) (s : State) : Host.Outcome State Fault Refusal :=
  .next (s.tdisp t fun _ => (s, .version))

/-- GET_TDISP_CAPABILITIES (R370). -/
def execGetTdispCapabilities (t : Nat) (s : State) : Host.Outcome State Fault Refusal :=
  .next (s.tdisp t fun _ => (s, .capabilities))

/-- LOCK_INTERFACE_REQUEST: CONFIG_UNLOCKED becomes CONFIG_LOCKED (R370); in another state the answer is ERROR (log entry
7). -/
def execLockInterfaceRequest (t : Nat) (s : State) : Host.Outcome State Fault Refusal :=
  .next (s.tdisp t fun x =>
    if x.st = .unlocked then (s.modTdi t fun x => { x with st := .locked }, .locked) else (s, .error .invalidState))

/-- GET_DEVICE_INTERFACE_REPORT: in CONFIG_LOCKED and RUN (R370, log entry 7). -/
def execGetDeviceInterfaceReport (t : Nat) (s : State) : Host.Outcome State Fault Refusal :=
  .next (s.tdisp t fun x => (s, if x.st = .locked ∨ x.st = .run then .report else .error .invalidState))

/-- GET_DEVICE_INTERFACE_STATE (R370). -/
def execGetDeviceInterfaceState (t : Nat) (s : State) : Host.Outcome State Fault Refusal :=
  .next (s.tdisp t fun x => (s, .state x.st))

/-- START_INTERFACE_REQUEST: CONFIG_LOCKED becomes RUN (R370); in another state the answer is ERROR (log entry 7). -/
def execStartInterfaceRequest (t : Nat) (s : State) : Host.Outcome State Fault Refusal :=
  .next (s.tdisp t fun x =>
    if x.st = .locked then (s.modTdi t fun x => { x with st := .run }, .started) else (s, .error .invalidState))

/-- TDI_CONFIG_CHANGE: a change of the configuration in CONFIG_LOCKED or RUN moves the TDI to ERROR (R370). -/
def execTdiConfigChange (t : Nat) (s : State) : Host.Outcome State Fault Refusal :=
  .next (if s.pkg = .up ∧ isTdi t = true ∧ ((s.tdi t).st = .locked ∨ (s.tdi t).st = .run) then
    s.modTdi t fun x => { x with st := .error } else s)

/-- The measurement digests: of the firmware image and of the manifest, with SHAKE256 (R369). -/
def State.measurements (s : State) : List (BitVec 512) :=
  [Config.shake256 s.image, Config.shake256 (Config.manifestBytes s.manifest)]

/-- The answer of the device security manager: the response over the measurements, signed over its SHAKE256 digest with the
identity key while there is one (R369, R372). -/
def State.spdm (s : State) (req : List Byte) : List Byte :=
  let body := Config.spdmAnswer req s.measurements
  match s.identity with
  | some k => body ++ natLe 114 (Config.ed448Sign k (Config.shake256 body)).toNat
  | none => body

/-- SPDM_REQUEST: the device security manager answers over DOE (R369). -/
def execSpdmRequest (req : List Byte) (s : State) : Host.Outcome State Fault Refusal :=
  .next (if s.pkg = .up then s.tell (.spdm (s.spdm req)) else s)

/-! ## Compute-die reset (R371) -/

/-- The items that a team holds: those of its occupied lanes and the undispensed ones of its blocks. -/
def State.heldItems (s : State) (l : Launch) (t : Team) : List Nat :=
  let rest (o : Option Held) : List Nat := match o with
    | none => []
    | some h => (List.range (s.blkHi l h.blk - h.pos)).map (h.pos + ·)
  (t.groups.flatMap fun g => g.itemsOf g.occ) ++ rest t.cur ++ rest t.nxt

/-- A team on a die that is reset: its items are lost, its operations that have not completed are dropped, and it is gone
(R371). -/
def State.loseTeam (s : State) (t : Team) : State :=
  match s.launch? t.launch with
  | none => s
  | some l =>
    let s := s.countItems l.id .lost (s.heldItems l t)
    let kept (o : ORef) : Bool := o.team != t.id || match s.op? o with
      | some (_, _, p) => p.done
      | none => false
    let s := { s with store := s.store.filter fun p => kept p.op }
    s.modTeam t.id fun t => { t with
      st := .retired, cur := none, nxt := none, wantBlk := false, quartArr := [], spanArr := []
      groups := t.groups.map fun (g : Group) => { g with
        live := false, splits := [], joins := [], occ := 0, pend := [], score := [], vregs := [], sregs := [], kregs := []
        tiles := [], tflags := [], xp := none, efaults := [], ops := g.ops.filter (·.done)
        ctrs := [[], [], [], [], []] } }

/-- The loss of items enters grid containment (03 R41, R371): IGN logs it, KSELF ends the launch, anything else suspends
it. The cause byte of the entry is free (log entry 2). -/
def State.reportLoss (s : State) (lid team n : Nat) : State :=
  match s.launch? lid with
  | none => s
  | some l =>
    let seq := l.seq + 1
    let a := l.desc.policy.getD 4 .kparent
    let (lv, act) : Nat × Action := match a with
      | .ign => (4, .ign)
      | .kself => (4, .kself)
      | _ => (7, .kparent)
    let w : DWord := BitVec.ofNat 64 (seq * 2 ^ 32 + act.code * 2 ^ 19 + lv * 2 ^ 16 + 4 * 2 ^ 8 +
      (Config.freeWord s.free).toNat % 256)
    let s := { s with free := s.free + 1 }.modLaunch lid fun l => { l with seq := seq }
    let entry := logEntry (w :: List.replicate 7 0) [] []
    let s := (s.logFault lid entry).tell (.lostItems lid n)
    match a with
    | .ign => s
    | .kself => s.killLaunch lid
    | _ =>
      let rep : Report :=
        { seq := seq, team := team, grp := 0, split := 0, level := 4, cause := none, lanes := 0, grid := true,
          trapStop := false, held := .run, eng := none }
      ((s.modLaunch lid fun l => { l with reports := l.reports ++ [rep] }).tell (.delivered lid seq entry)).suspend lid seq

/-- A team of which an operation has not completed. -/
def Team.pending (t : Team) : Bool := t.groups.any fun g => g.ops.any (!·.done)

/-- The reset of a compute die: dirty bytes of its cache reach their home stacks and those of its L1s are discarded; its
teams' items are lost and their operations dropped, those that a retired team left in flight too; its caches and TLBs start anew (R371). The reset is one step: the accesses that
wait for it are those that come after it (log entry 13). -/
def State.resetDie (s : State) (d : Nat) : State :=
  let s := ((s.die d).dc.map (·.1)).foldl (fun s k => s.evictDc d k) s
  let ts := s.teams.filter fun t => dieOf t.core == d && (t.onCore || t.st == .retired && t.pending)
  let lost (l : Nat) : Nat := ((ts.filter (·.launch = l)).map fun t => match s.launch? l with
    | some x => (s.heldItems x t).length
    | none => 0).sum
  let hit := (ts.map fun t => (t.launch, t.id, lost t.launch)).foldl
    (fun (m : List (Nat × Nat × Nat)) p => if m.any (·.1 == p.1) then m else m ++ [p]) []
  let s := ts.foldl State.loseTeam s
  let s := (List.range 96).foldl (fun s c => s.modCore (d * 96 + c) fun _ => { Core.reset with resetAt := s.now }) s
  let s := s.modDie d fun _ => Die.reset
  hit.foldl (fun s p => s.reportLoss p.1 p.2.1 p.2.2) s

/-- The die of PF1 to PF4, which the manifest fixes (Table 30.1). -/
def State.dieOfPf (s : State) (pf : Nat) : Nat := s.manifest.pfMap.getD (pf - 1) 0

/-- FUNCTION_LEVEL_RESET of PF1 to PF4: that die is reset, its TDI moves to ERROR and its IDE keys are erased (R371). -/
def execFunctionLevelReset (pf : Nat) (s : State) : Host.Outcome State Fault Refusal :=
  .next (if s.pkg = .up ∧ isPf pf = true then
    (s.resetDie (s.dieOfPf pf)).modTdi pf fun _ => { st := .error, keys := [] } else s)

/-- The launches of a virtual function's contexts that have not ended. -/
def State.launchesOf (s : State) (vf : Nat) : List Launch :=
  s.launches.filter fun l => (l.st == .running || l.st == .ending) && ((s.ctx? l.ctx).map fun c => c.vf == vf).getD false

/-- The launches of a virtual function's contexts are pre-empted and ended with status KILLED (Table 30.1, R370). -/
def State.killVf (s : State) (vf : Nat) : State :=
  ((s.launchesOf vf).filter (·.st == .running)).foldl (fun s l => s.killLaunch l.id) s

/-- VF_FUNCTION_LEVEL_RESET (R367, Table 30.1). -/
def execVfFunctionLevelReset (vf : Nat) (s : State) : Host.Outcome State Fault Refusal :=
  .next (if s.pkg = .up ∧ 1 ≤ vf ∧ vf ≤ 64 then s.killVf vf else s)

/-- The answer to a STOP: the TDI returns to CONFIG_UNLOCKED. -/
def State.stopped (s : State) (t : Nat) : State :=
  (s.modTdi t fun _ => { st := .unlocked, keys := [] }).tell (.tdisp t .stopped)

/-- A VF's STOP is answered once its launches have ended (R370). -/
def State.stopAnswer (s : State) (t : Nat) : State :=
  if s.stopping.contains t ∧ (s.launchesOf (t - 4)).isEmpty = true then
    { s with stopping := s.stopping.filter (· ≠ t) }.stopped t
  else s

/-- STOP_INTERFACE_REQUEST: the IDE keys are erased; a PF's die is reset and the answer follows; a VF's launches are
pre-empted and end with status KILLED, and the answer follows when they have (R370, R371). -/
def execStopInterfaceRequest (t : Nat) (s : State) : Host.Outcome State Fault Refusal :=
  .next (if s.pkg = .up ∧ isTdi t = true then
    let s := s.modTdi t fun x => { x with keys := [] }
    if isPf t then (s.resetDie (s.dieOfPf t)).stopped t
    else { s.killVf (t - 4) with stopping := t :: s.stopping.filter (· ≠ t) }.stopAnswer t
  else s)

/-! ## The security alarm (R374) -/

/-- Erasing the keys of a link direction. -/
def Link.erase (l : Link) : Link := { l with keys := [none, none], rkeys := [none, none], fresh := false }

/-- The alarm's actions in order: keys, identity, dies, TDIs, the report; then the recovery state. Launches are lost and
write no record (R374). -/
def State.alarm (s : State) : State :=
  let s := { s with links := s.links.map Link.erase, sessionKeys := []
                    tdis := s.tdis.map fun (p : Nat × Tdi) => (p.1, { p.2 with keys := [] }) }
  let s := { s with identity := if s.manifest.eraseId then none else s.identity }
  let s := { s with
    teams := [], clusters := [], launches := [], queues := [], partWait := [], store := [], replies := [], invals := [], rounds := [], wins := [], stopping := [], ring := [] }
  let s := { s with tdis := (List.range 68).map fun i => (i + 1, { st := .error, keys := [] }) }
  { (s.tell (.alarm true)).tell (.alarm false) with pkg := .recovery }

/-- SECURITY_ALARM: tamper, a glitch or a die-to-die integrity failure (R374). -/
def execSecurityAlarm (_e : AlarmEv) (s : State) : Host.Outcome State Fault Refusal := .next s.alarm

/-! ## Firmware and manifest (R372, R373) -/

/-- An Ed448 signature over a SHAKE256 digest verifies under a key (R372). -/
def signed (key : Nat) (body : List Byte) (sig : BitVec 912) : Bool := Config.ed448Verify key (Config.shake256 body) sig

/-- An image verifies under a key that the manifest names (R372). -/
def State.imageOk (s : State) (img : List Byte) (sig : BitVec 912) : Bool := s.manifest.fwKeys.any fun k => signed k img sig

/-- FIRMWARE_UPDATE: an image with a valid signature under a key of the manifest is accepted; another is not run (R372). -/
def execFirmwareUpdate (img : Signed (List Byte)) (s : State) : Host.Outcome State Fault Refusal :=
  .next (if s.pkg = .off then s
    else if s.imageOk img.body img.sig then { s with image := img.body, imageSig := img.sig }.tell .updated
    else s.tell .updateRefused)

/-- MANIFEST_REPLACE: a manifest signed under the current signing key takes effect at the next package reset (R373). -/
def execManifestReplace (m : Signed Manifest) (s : State) : Host.Outcome State Fault Refusal :=
  .next (if s.pkg = .off then s
    else if signed s.manifest.signKey (Config.manifestBytes m.body) m.sig then
      { s with nextManifest := some m }.tell .updated
    else s.tell .updateRefused)

/-! ## Power (R375, R376) -/

/-- The current that the next grant may reach: the peak limit, at most 4.0 kW, and what keeps the average over the grants
of 10 ms at the sustained limit, at most 3.6 kW (R376). -/
def State.cap (s : State) : Nat :=
  let n := max 1 Config.gafferWindow
  min (min s.manifest.peak 4000) (min s.manifest.sustained 3600 * n - (s.past.take (n - 1)).sum)

/-- The current left for the compute islands once islands 12 to 15 have their demand (R376). -/
def State.budget (s : State) : Nat :=
  let cap := s.cap
  cap - ((List.range 4).map fun i => s.demand.getD (12 + i) 0).sum

/-- GAFFER_GRANT: islands 12 to 15 are granted their demand, and the compute islands share the rest in proportion to
demand (R376, log entry 6). -/
def execGafferGrant (s : State) : Host.Outcome State Fault Refusal :=
  let total := ((List.range 12).map fun i => s.demand.getD i 0).sum
  let share (d : Nat) : Nat := if total ≤ s.budget then d else d * s.budget / total
  let grant (i : Nat) : Nat := if i < 12 then share (s.demand.getD i 0) else s.demand.getD i 0
  let gs := (List.range 16).map grant
  .next (if s.pkg = .up then { s with grants := gs, past := (gs.sum :: s.past).take (Config.gafferWindow - 1) } else s)

/-- POWER_EVENT: power-good drops, or the inlet temperature lies beyond the manifest's limit: every compute grant falls
to one eighth of its island's peak, and the event is reported (R376). -/
def execPowerEvent (e : PowerEv) (s : State) : Host.Outcome State Fault Refusal :=
  let bad := match e with
    | .powerGoodDrop => true
    | .inlet t => decide (s.manifest.inletLimit < t)
  let floor (g : Nat × Nat) : Nat := if g.2 < 12 then min g.1 (Config.islandPeak g.2 / 8) else g.1
  .next (if s.pkg = .up ∧ bad = true then { s with grants := s.grants.zipIdx.map floor }.tell .powerLow else s)

/-! ## Bring-up and package reset (R373, R377) -/

/-- A fresh key of 256 bits (28 R346; log entry 2). -/
def freshKey (n : Nat) : BitVec 256 :=
  Config.freeWord n ++ Config.freeWord (n + 1) ++ Config.freeWord (n + 2) ++ Config.freeWord (n + 3)

/-- The manifest in flash verifies under the key that signed it (R373). -/
def State.manifestGood (s : State) : Bool := signed s.manKey (Config.manifestBytes s.manifest) s.manSig

/-- BRING_UP: the firmware is verified under the manifest's keys and the manifest under its own (R372, R373); unless a later
step fails the links' sixteen directions (01 R9) receive their first keys, the functions enumerate and the scheduler accepts
graphs; a failing step leaves the recovery state (R377). -/
def execBringUp (s : State) : Host.Outcome State Fault Refusal :=
  .next (if s.pkg ≠ .off then s
    else
      let fw := s.imageOk s.image s.imageSig
      let s := { s with fwOk := fw, manifestOk := s.manifestGood }
      if !s.fwOk || !s.manifestOk || s.badStep.isSome then { s with pkg := .recovery }
      else { s with
        pkg := .up, free := s.free + 64
        links := linkEnds.zipIdx.map fun e => Link.start e.1 (freshKey (s.free + 4 * e.2)) })

/-- PF0's telemetry is read, in the recovery state too: a word of it is free (R377, log entry 2). -/
def State.readTelemetry (s : State) : State :=
  if s.pkg = .off then s else { s with free := s.free + 1 }.tell (.telemetry (Config.freeWord s.free))

/-- PACKAGE_RESET: everything starts as at reset, under the replaced manifest, which the key that was current signed; what
lies outside the package, the flash and the identity key stay (R367, R373; log entry 12). -/
def execPackageReset (s : State) : Host.Outcome State Fault Refusal :=
  .next { State.reset with
    free := s.free, agenda := s.agenda, mem := Map.range s.mem (2 ^ 40) (2 ^ 41), manifest := (s.nextManifest.map (·.body)).getD s.manifest
    manSig := (s.nextManifest.map (·.sig)).getD s.manSig
    manKey := if s.nextManifest.isSome then s.manifest.signKey else s.manKey
    image := s.image, imageSig := s.imageSig, identity := s.identity, hostOut := s.hostOut, outbox := s.outbox }

end Sys2Proof.Machine
end

