-- ==== Sys2Proof/Machine/Fabric.lean ====
section
/-! DEFINITION. The package's networks (28 R345 to R352): die-to-die links with their keys, replay and spilling, and the
paths to other packages. -/

namespace Sys2Proof.Machine

/-! ## Link keys (R346) -/

/-- Changing a link direction. -/
def State.modLink (s : State) (i : Nat) (f : Link → Link) : State := { s with links := s.links.modify i f }

/-- The index of a key slot. -/
def slotIx (b : Bool) : Nat := if b then 1 else 0

/-- The idle slot still holds a key under which a flit may have to be received again. -/
def Link.idleBusy (l : Link) : Bool :=
  ((l.rkeys.getD (slotIx (!l.slot)) none).isSome && (l.fresh || l.replay.any fun e => e.2.1 != l.slot))

/-- INSTALL_KEY: a link key goes into the idle slot of the direction, which ends a stall for want of a key; a session key
replaces the one with its number (R346, 30 R368). While the idle slot is still in use the command is refused (log
entry 11). -/
def execInstallKey (t : KeyTgt) (key : BitVec 256) (s : State) : Host.Outcome State Fault Refusal :=
  if s.pkg ≠ .up then .next (s.tell .refusedCmd)
  else match t with
    | .session n => .next { s with sessionKeys := Map.put s.sessionKeys n key }
    | .link i => match s.links[i]? with
      | none => .next (s.tell .refusedCmd)
      | some l =>
        if l.idleBusy then .next (s.tell .refusedCmd)
        else
          let k := slotIx (!l.slot)
          .next (s.modLink i fun l =>
            { l with keys := l.keys.set k (some key), rkeys := l.rkeys.set k (some key), fresh := true, stalled := false })

/-- LINK_KEY_EXHAUSTED: a sender that has sent 2^47 flits under one key stalls until a new key is installed (R346). -/
def execLinkKeyExhausted (i : Nat) (s : State) : Host.Outcome State Fault Refusal :=
  .next (s.modLink i fun l => if 2 ^ 47 ≤ l.sent ∧ ¬ l.fresh then { l with stalled := true } else l)

/-- OLD_KEY_ERASE: the receiver erases the old key once it has seen the new slot and no flit under the old one remains in
the sender's replay buffer (R346). -/
def execOldKeyErase (i : Nat) (s : State) : Host.Outcome State Fault Refusal :=
  .next (s.modLink i fun l =>
    if !l.fresh && l.rslot == l.slot && l.replay.all fun e => e.2.1 == l.slot then
      { l with keys := l.keys.set (slotIx (!l.slot)) none, rkeys := l.rkeys.set (slotIx (!l.slot)) none }
    else l)

/-! ## Flits (R345, R346) -/

/-- A packet is queued on a channel. -/
def State.queuePacket (s : State) (i vc p : Nat) : State :=
  s.modLink i fun l =>
    let q := Map.get [] l.chans vc
    { l with chans := Map.set [] l.chans vc (q ++ [p]), since := if q.isEmpty then Map.put l.since vc s.now else l.since }

/-- The header of a flit in the clear, as the tag authenticates it. -/
def flitHead (seq : BitVec 48) (slot : Bool) (vc : Nat) : BitVec 64 :=
  seq ++ (if slot then 1#1 else 0#1) ++ BitVec.ofNat 15 vc

/-- The flit of a sequence number, as the sender encrypts it. -/
def Link.flit (l : Link) (i : Nat) (e : Nat × Bool × Nat × Nat) : Option Flit :=
  match l.keys.getD (slotIx e.2.1) none with
  | none => none
  | some k =>
    let seq := BitVec.ofNat 48 e.1
    let c := Config.aesGcm k (Config.linkNonce seq.toNat i e.2.1) (flitHead seq e.2.1 e.2.2.1) (BitVec.ofNat 1792 e.2.2.2)
    some { seq := seq, slot := e.2.1, vc := e.2.2.1, cipher := c.1, tag := c.2, crcOk := true }

/-- The sender may send a flit: it is not stalled for a key and its replay buffer has room (R345, R346). -/
def Link.maySend (l : Link) : Bool := !l.stalled && decide (l.replay.length < 256)

/-- FLIT_SEND: the head packet of the lowest channel with one and nothing spilled before it (R347) goes out as the next flit, under the key in use, or under a
newly installed one at a free flit boundary (log entry 2); it stays in the replay buffer of 256 flits (R345, R346). -/
def execFlitSend (i : Nat) (s : State) : Host.Outcome State Fault Refusal :=
  match s.links[i]? with
  | none => .next s
  | some l =>
    match List.find? (fun (c : Nat × List Nat) => !c.2.isEmpty && (Map.get [] l.spilled c.1).isEmpty) l.chans with
    | none => .next s
    | some c => match c.2 with
      | [] => .next s
      | p :: rest =>
        let flip := l.fresh && (decide (2 ^ 47 ≤ l.sent) || (Config.freeWord s.free).getLsbD 0)
        let slot := if flip then !l.slot else l.slot
        if !l.maySend || (l.keys.getD (slotIx slot) none).isNone ||
            (!flip && decide (2 ^ 47 ≤ l.sent)) then .next s
        else .next ({ s with free := s.free + 1 }.modLink i fun l =>
          { l with
            slot := slot, fresh := l.fresh && !flip, sent := (if flip then 0 else l.sent) + 1, seq := l.seq + 1
            replay := l.replay ++ [(l.seq, slot, c.1, p)]
            chans := Map.set [] l.chans c.1 rest, since := Map.put l.since c.1 s.now })

/-- FLIT_RECEIVE: a flit that fails its CRC is replayed; a tag mismatch causes one replay, and a second on the same
sequence number raises the security alarm; the expected flit is taken and leaves the replay buffer (R345, R346). -/
def execFlitReceive (i : Nat) (f : Flit) (s : State) : Host.Outcome State Fault Refusal :=
  match s.links[i]? with
  | none => .next s
  | some l =>
    if !f.crcOk || decide (f.seq.toNat ≠ l.expect % 2 ^ 48) then .next s
    else
      let bad : State := if l.mism = some l.expect then s.alarm else s.modLink i fun l => { l with mism := some l.expect }
      match l.rkeys.getD (slotIx f.slot) none with
      | none => .next bad
      | some k =>
        let o := Config.aesGcmOpen k (Config.linkNonce f.seq.toNat i f.slot) (flitHead f.seq f.slot f.vc) f.cipher
        if o.2 ≠ f.tag then .next bad
        else .next (s.modLink i fun l =>
          { l with
            expect := l.expect + 1, mism := none, rslot := f.slot
            replay := l.replay.filter fun e => decide (l.expect < e.1)
            got := l.got ++ [(f.vc, o.1.toNat)] })

/-! ## Spilling (R347) -/

/-- Bulk packets of a link are queued and not spilled. -/
def Link.bulkWaits (l : Link) : Bool := l.chans.any fun c => !Config.smallChannel c.1 && !c.2.isEmpty

/-- CHANNEL_SPILL: the packets of a channel whose head has not advanced for 65,536 cycles, counted in the model's one clock
(log entry 25), move to the glory region (R347); those of the small-message class never ahead of bulk traffic (R351). -/
def execChannelSpill (i vc : Nat) (s : State) : Host.Outcome State Fault Refusal :=
  .next (s.modLink i fun l =>
    let q := Map.get [] l.chans vc
    if q.isEmpty ∨ s.now < (Map.find? l.since vc).getD s.now + 65536 ∨ (Config.smallChannel vc && l.bulkWaits) = true then l
    else { l with chans := Map.set [] l.chans vc [], spilled := Map.set [] l.spilled vc (Map.get [] l.spilled vc ++ q) })

/-- CHANNEL_REINJECT: the channel can advance again, and its spilled packets go ahead of later ones, in their order
(R347). -/
def execChannelReinject (i vc : Nat) (s : State) : Host.Outcome State Fault Refusal :=
  .next (s.modLink i fun l =>
    let q := Map.get [] l.spilled vc
    if q.isEmpty || !l.maySend then l
    else { l with chans := Map.set [] l.chans vc (q ++ Map.get [] l.chans vc), spilled := Map.set [] l.spilled vc []
                  since := Map.put l.since vc s.now })

/-! ## Paths to a peer (R349, R350, R352) -/

/-- Changing the table of a peer. -/
def State.modPeer (s : State) (p : Nat) (f : PeerTab → PeerTab) : State :=
  { s with peers := s.peers.map fun e => if e.1 = p then (p, f e.2) else e }

/-- SET_PATHS: the path sets of a peer by tier; the lowest tier is in use. The count of events goes on, and an unreachable
peer stays so until a probe succeeds (R349, R350, R363). -/
def execSetPaths (peer : Nat) (tiers : List (Nat × List Nat)) (s : State) : Host.Outcome State Fault Refusal :=
  let ts := sortBy (·.1) tiers
  let ok := decide (peer < 4096) && decide ((ts.map (·.1)).Nodup) &&
    ts.all fun t => decide (t.1 < 8 ∧ 1 ≤ t.2.length ∧ t.2.length ≤ 256)
  match ts with
  | [] => .next (s.tell .refusedCmd)
  | t :: _ =>
    if s.pkg ≠ .up ∨ ok = false then .next (s.tell .refusedCmd)
    else
      let old := (s.peers.find? (·.1 = peer)).map (·.2)
      let tab : PeerTab :=
        { tiers := ts, tier := t.1, paths := t.2, removed := [], events := (old.map (·.events)).getD 0
          down := (old.map (·.down)).getD false }
      .next { s with peers := Map.put s.peers peer tab }

/-- A path of a peer is lost; with the last one of its tier the peer falls back to the next higher tier listed (R349). -/
def PeerTab.lose (t : PeerTab) (path : Nat) : PeerTab :=
  if !t.paths.contains path then t
  else
    let t := { t with paths := t.paths.erase path, removed := t.removed ++ [path], events := t.events + 1 }
    if !t.paths.isEmpty then t
    else match t.tiers.find? fun e => decide (t.tier < e.1) with
      | none => t
      | some e => { t with tier := e.1, paths := e.2, removed := t.removed.filter (!e.2.contains ·), events := t.events + 1 }

/-- PATH_TIMEOUT (R349). -/
def execPathTimeout (peer path : Nat) (s : State) : Host.Outcome State Fault Refusal :=
  .next (s.modPeer peer (·.lose path))

/-- PROBE_SUCCESS: a removed path is added again, and an unreachable peer is reachable again (R349, R350). -/
def execProbeSuccess (peer path : Nat) (s : State) : Host.Outcome State Fault Refusal :=
  .next (s.modPeer peer fun t =>
    let t := { t with down := false }
    if t.removed.contains path ∧ t.paths.length < 256 then
      { t with paths := t.paths ++ [path], removed := t.removed.erase path, events := t.events + 1 } else t)

/-- NSCC marks a path to a peer as congested, or no longer (R349). -/
def PeerTab.mark (t : PeerTab) (path : Nat) (on : Bool) : PeerTab :=
  { t with cong := if on then path :: t.cong.erase path else t.cong.erase path }

/-- An operation of this package that waits on a peer without a packet in the retransmit store. -/
def Op.awaits (o : Op) (peer : Nat) : Bool :=
  !o.done && match o.kind with
  | .gather q => q.sent && q.slots.any fun t => t.open_ && t.pkg == peer
  | .scatter q => q.read && q.upds.any fun u => !u.done && u.pkg == peer
  | .csig f p _ _ res => f == 0 && p == peer && res.isNone
  | _ => false

/-- A packet is still unacknowledged; a request, while its operation awaits the peer. -/
def State.unanswered (s : State) (p : Packet) : Bool :=
  match p.msg with
  | .request => (match s.op? p.op with
    | some (_, _, o) => o.awaits p.peer
    | none => false)
  | _ => !p.arrived

/-- RETRANSMIT_TIMEOUT: an unacknowledged packet is sent again from its captured copy, sprayed anew (R349, R352); a request
of an operation that no longer waits is dropped. So is an unacknowledged reply sent again. -/
def execRetransmitTimeout (pkt : Nat) (s : State) : Host.Outcome State Fault Refusal :=
  match s.store.find? fun p => p.id == pkt && p.peer != s.pkgNum with
  | none => match s.replies.find? fun p => p.id == pkt with
    | none => .next s
    | some p =>
      let (path, s) := if p.path.isSome then s.sprayTo p.peer else (none, s)
      .next { s with replies := s.replies.map fun q =>
        if q.id = pkt then { q with tries := q.tries + 1, sentAt := s.now, path := path } else q }
  | some p =>
    if s.unanswered p then
      let (path, s) := if p.path.isSome then s.sprayTo p.peer else (none, s)
      .next { s with store := s.store.map fun q =>
        if q.id = pkt then { q with tries := q.tries + 1, sentAt := s.now, path := path } else q }
    else .next (if p.msg = .request then { s with store := s.store.filter (·.id ≠ pkt) } else s)

/-- A packet to the peer has stayed unacknowledged for 32 retransmissions over at least 2^27 cycles, counted in the model's
one clock (R350, log entry 10). -/
def State.mayLose (s : State) (peer : Nat) : Bool :=
  (s.store.any fun p => p.peer == peer && s.unanswered p && decide (32 ≤ p.tries) && decide (p.firstAt + 2 ^ 27 ≤ s.now)) ||
  s.replies.any fun p => p.peer == peer && decide (32 ≤ p.tries) && decide (p.firstAt + 2 ^ 27 ≤ s.now)

/-- Every operation that waits on the peer ends with NETFAULT for the lanes or slots concerned, and the packets to it, replies
among them, are given up (R350). -/
def State.losePeer (s : State) (peer : Nat) : State :=
  let ps := s.store.filter fun p => p.peer == peer && p.msg != .request
  let s := { s with store := s.store.filter (·.peer ≠ peer), replies := s.replies.filter (·.peer ≠ peer) }
  let s := ps.foldl (fun s p => s.endXfer p.op p.xfer [] (some (.plain p.xfer .netfault (match p.msg with
    | .write _ a .. | .read _ a _ | .flag _ a _ _ _ | .red _ a _ _ _ _ _ => a
    | .request => 0)))) s
  { s with teams := s.teams.map fun (t : Team) => { t with groups := t.groups.map fun (g : Group) =>
      { g with ops := g.ops.map fun (o : Op) => { o with kind := o.kind.lose peer } } } }

/-- PEER_UNREACHABLE (R350). -/
def execPeerUnreachable (peer : Nat) (s : State) : Host.Outcome State Fault Refusal :=
  .next (if peer ≠ s.pkgNum ∧ s.mayLose peer = true then
    (s.modPeer peer fun t => { t with down := true }).losePeer peer else s)

end Sys2Proof.Machine
end

