-- ==== Sys2Proof/Machine/Choose.lean ====
section
/-! DEFINITION. What the package does by itself: the things that may come about in a state, of which a step with an empty
agenda takes one (log entry 1). An event whose condition does not hold passes without effect. -/

namespace Sys2Proof.Machine

/-- The splits of a core's bench in the order of issue: the one that issued least recently first, then the lower group
slot, then the lower table entry (24 R319). -/
def State.issueOrder (s : State) (core bench : Nat) : List SRef :=
  let all : List (SRef × Nat × Nat × Nat) := (s.teams.filter fun t => t.acting && t.core == core).flatMap fun t =>
    (t.groups.filter fun g => g.live && g.grp % 4 == bench).flatMap fun g =>
      (g.splits.filter fun (x : Split) => x.entry.isSome).filterMap fun x => match s.at? ⟨t.id, g.grp, x.id⟩ with
        | none => none
        | some y => if s.canIssue y then
            some (⟨t.id, g.grp, x.id⟩, x.issuedAt, (s.core core).slotOf t.id g.grp, x.entry.getD 0) else none
  (sortBy (fun p => p.2.1) (sortBy (fun p => p.2.2.1) (sortBy (fun p => p.2.2.2) all))).map (·.1)

/-- The events of an operation in flight. -/
def opEvents (o : ORef) (p : Op) : List Instr :=
  if p.trig.isSome then [.triggerFire o]
  else match p.kind with
  | .copy _ | .cpaRaw .. | .tcopy .. => [.copyCompletion o]
  | .mma .. | .mmv .. | .mlut .. => [.matrixAsyncCompletion o]
  | .gather q => [.gatherRequestArrival (.own o), if q.key.isSome then .klookGatherCompletion o else .gatherCompletion o]
  | .scatter q => .scatrSourceRead o :: ((List.range q.upds.length).map fun k => .scatterUpdateArrival (.own o k)) ++
      [.scatterCompletion o]
  | .enq .. => [.queueAppend o]
  | .rwr .. | .rred .. | .rflag .. => [.retransmitCapture o, .remoteLocalCompletion o]
  | .rrd .. => [.retransmitCapture o, .rrdCompletion o []]
  | .csig .. => [.csigRequestArrival (.own o), .csigCompletion o none]
  | .hdesc .. => [.hdescCompletion o]
  | .qstat .. => [.qstatCompletion o]
  | _ => [.memoryAccessCompletion o]

/-- The event that ends what holds a split. -/
def holdEvents (r : SRef) : Hold → List Instr
  | .refill _ _ => [.refillWake r]
  | .yield _ _ => [.yieldEnd r]
  | .spinh _ => [.spinhExpiry r]
  | .syncs => [.syncsReturn r]
  | .fence .. => [.fenceComplete r]
  | .bwait _ _ => [.bwaitReturn r]
  | .waitn _ _ => [.waitnReturn r]
  | .klook .. => [.klookSelectionEnd r]
  | .rfence .. => [.rfenceComplete r]
  | .demoted _ => [.demotionTimeout r]
  | _ => []

/-- The events of a group: landings, its splits, its operations. -/
def State.groupEvents (s : State) (t : Team) (g : Group) : List Instr :=
  (g.pend.zipIdx.filterMap fun p => if !p.1.landed && decide (p.1.landsAt ≤ s.now) then
    some (Instr.resultLanding t.id g.grp p.2) else none) ++
  (g.splits.flatMap fun (x : Split) =>
    (if 64 ≤ x.quiet && x.hold == .run then [Instr.splitDemotion ⟨t.id, g.grp, x.id⟩] else []) ++
      holdEvents ⟨t.id, g.grp, x.id⟩ x.hold) ++
  g.ops.flatMap fun o => if o.done then [] else opEvents ⟨t.id, g.grp, o.id⟩ o

/-- The first place at which a cluster of a launch may start now. -/
def State.somePlace (s : State) (l : Launch) : List (List Nat) :=
  (((List.range 4).flatMap fun d => s.places l [] d).filter (!l.staggered ·)).take 1

/-- The first place at which a pre-empted cluster may be resumed now. -/
def State.someResume (s : State) (l : Launch) (t : Team) : List (List Nat) :=
  (((List.range 4).flatMap fun d => s.resumePlaces l t [] d).filter (!l.staggered ·)).take 1

/-- The events of a team; of a retired one, the ends of the operations it left in flight (R108). -/
def State.teamEvents (s : State) (t : Team) : List Instr :=
  if t.st == .retired then
    t.groups.flatMap fun g => g.ops.flatMap fun o => if o.done then [] else opEvents ⟨t.id, g.grp, o.id⟩ o
  else
    t.groups.flatMap (s.groupEvents t) ++
    (if t.wantBlk then [Instr.blockDraw t.id] else []) ++
    (if t.barDone.isEmpty then [] else [.barInstanceComplete t.id false]) ++
    (match s.clusterOf? t with
      | some c => if c.barDone.isEmpty then [] else [Instr.barInstanceComplete t.id true]
      | none => []) ++
    (t.quartArr.map fun a => Instr.quartetRendezvous t.id a.1) ++
    (t.spanArr.map fun a => Instr.spanRendezvous t.id a.2.2.grp) ++
    (if t.why.isSome then [Instr.preemptionNoticeEnd t.id] else []) ++
    (if s.resumable t then
      (match s.launch? t.launch with
        | none => []
        | some l => (s.someResume l t).map (.teamResume t.id)) else [])

/-- The events of a launch: a start at the first place, its blocks, the scheduler's other actions, its completion. -/
def State.launchEvents (s : State) (l : Launch) : List Instr :=
  if l.st != .running then []
  else
    (if s.ready l then (s.somePlace l).map (Instr.teamStart l.id) else []) ++
    (if s.wants l then [.priorityPreemption l.id] else []) ++
    (l.blks.map fun b => Instr.blockComplete l.id b.blk) ++
    (l.lastStart.map fun (p : Nat × Nat) => Instr.staggerExpiry l.id p.1) ++
    [.launchCompletion l.id]

/-- The arrival of a packet that the package has sent to itself (28 R355). -/
def ownArrival (p : Packet) : Instr :=
  match p.msg with
  | .write .. => .remoteWriteArrival (.own p.id)
  | .read .. => .remoteReadArrival (.own p.id)
  | .flag .. => .remoteFlagArrival (.own p.id)
  | .red .. | .request => .reductionContribution (.own p.id)

/-- Every event that may come about inside the package. -/
def State.events (s : State) : List Instr :=
  s.teams.flatMap s.teamEvents ++ s.launches.flatMap s.launchEvents ++
  (s.queues.flatMap fun (q : Nat × LQueue) => if q.2.arrivals.isEmpty then [] else [Instr.graphNodeArrival q.1]) ++
  (s.cores.flatMap fun (c : Nat × Core) =>
    (if c.2.fifo.any fun e => match e with | .mark _ => true | .line _ => false then
      [Instr.releaseDrainComplete (.core c.1)] else []) ++
    (if c.2.matq.isEmpty then [] else (List.range 4).map fun b => Instr.matrixOpStart c.1 b)) ++
  (s.dies.zipIdx.flatMap fun d =>
    if d.1.fifo.any fun e => match e with | .mark _ => true | .line _ => false then
      [Instr.releaseDrainComplete (.die d.2)] else []) ++
  ((s.store.filter fun p => p.peer == s.pkgNum && !p.arrived).map ownArrival) ++
  (if s.partWait.isEmpty then [] else (List.range 384).map .partitionReserve) ++
  s.invals.map (fun (i : Inval) => .invalidationComplete i.id) ++
  (if s.now % 4096 = 0 then [.gafferGrant] else [])

end Sys2Proof.Machine
end

