-- ==== Sys2Proof/Machine/Control.lean ====
section
/-! DEFINITION. Class 0x0: control (09 R96 to R111, 03 R26 to R31), and the events that end its holds. -/

namespace Sys2Proof.Machine

/-! ## Transfers (R97) -/

/-- The split goes on at an address as a whole: results land first (05 R60), and a move to an address that is not above
the branch counts for the spin detector (R36, R110). -/
def Iss.goTo (x : Iss) (now : Nat) (pc : DWord) (a : Arrived) (g : Group) : Group :=
  let g := g.landSplits [x.sp.id]
  (g.modSplit x.sp.id fun y =>
    let y := { y with pc := pc, arrivedBy := a, only := none, hold := .run, bar := none }
    if pc ≤ x.sp.pc then y.backward else y).boundary now x.sp.id

/-- A transfer (R97): `cond` says for which lanes the condition holds, `empty` whether the lone empty split takes it. -/
def Iss.transfer (x : Iss) (h : Hdr) (cond : Nat → Bool) (empty : Bool) (target : DWord) (j : Option DWord)
    (pre : Group → Group) (loud : Bool) (s : State) : State :=
  let taken := maskBy fun l => (x.active h).getLsbD l && cond l
  let fall := x.sp.mask &&& ~~~taken
  let takes := if x.sp.mask = 0 then empty else taken != 0
  s.modG x.r fun g =>
    let g := if takes then pre g else g
    let g := g.consume s.now x.sp.id h.st.toNat (takes && loud)
    if !takes then g.move s.now x.sp.id (x.next h) .seq
    else if x.sp.mask = 0 ∨ fall = 0 then x.goTo s.now target .branch g
    else g.diverge s.now ((g.split? x.sp.id).getD x.sp) j [(taken, target, .branch), (fall, x.next h, .seq)]

/-- The target of a branch form (R97). -/
def Iss.target (x : Iss) (t : Word) : DWord := (x.sp.pc + 4 * t.signExtend 64) &&& 0xFFFFFFFFFFFFFF

/-- The reconvergence address of a branch form: P's RPC when Jo = 0 (R97, R33). -/
def Iss.joinAt (x : Iss) (jo : Word) : Option DWord :=
  if jo = 0 then x.sp.rpc else some (x.sp.pc + 4 * jo.signExtend 64)

/-- NOP: no effect beyond its issue slot and stall count (R109). -/
def execNop (h : Hdr) (s : State) : Host.Outcome State Fault Refusal :=
  withIssue (.nop h) s fun x s => x.pass h false s

/-- BRA: every lane of `active` takes the target (R98). -/
def execBra (h : Hdr) (jo t : Word) (s : State) : Host.Outcome State Fault Refusal :=
  withIssue (.bra h jo t) s fun x s =>
    x.transfer h (fun _ => true) (x.g.uGuard x.sp.id h) (x.target t) (x.joinAt jo) id false s

/-- BRC: per lane on a mask bit, or for every lane alike on a scalar register (R98). -/
def execBrc (h : Hdr) (c : BrCond) (jo t : Word) (s : State) : Host.Outcome State Fault Refusal :=
  withIssue (.brc h c jo t) s fun x s =>
    let cond : Nat → Bool := match c with
      | .lane k neg => let m := x.g.kr x.sp.id k.toNat; fun l => m.getLsbD l != neg
      | .nz n => let z := x.g.sr x.sp.id n.toNat == 0; fun _ => !z
      | .z n => let z := x.g.sr x.sp.id n.toNat == 0; fun _ => z
    let empty := match c with
      | .lane _ _ => false
      | _ => x.g.uGuard x.sp.id h && cond 0
    x.transfer h cond empty (x.target t) (x.joinAt jo) id false s

/-- BRX: one direction per distinct address of the active lanes; the other lanes, and those that name PC + 8, go on at
PC + 8 (R99). -/
def execBrx (h : Hdr) (jo : Word) (va : BitVec 8) (s : State) : Host.Outcome State Fault Refusal :=
  withIssue (.brx h jo va) s fun x s =>
    let next := x.next h
    let act := x.active h
    let addr (l : Nat) : DWord := if act.getLsbD l then x.g.vr64 x.sp.id va.toNat l else next
    let dirs := ((lanesOf x.sp.mask).map addr).dedup.map fun a =>
      (maskBy fun l => x.sp.mask.getLsbD l && addr l == a, a, Arrived.brx next)
    s.modG x.r fun g =>
      let g := g.consume s.now x.sp.id h.st.toNat false
      if act = 0 then g.move s.now x.sp.id next .seq
      else match dirs with
        | [(_, a, w)] => if a = next then g.move s.now x.sp.id next .seq else x.goTo s.now a w g
        | _ => g.diverge s.now ((g.split? x.sp.id).getD x.sp) (x.joinAt jo) dirs

/-- CALL: a branch that first writes the return address to sD, when it is taken (R101, R103). -/
def execCall (h : Hdr) (sd : BitVec 8) (jo t : Word) (s : State) : Host.Outcome State Fault Refusal :=
  withIssue (.call h sd jo t) s fun x s =>
    let w : Loc × DWord × DWord := (.s sd.toNat, ones, x.next h)
    x.transfer h (fun _ => true) (x.g.uGuard x.sp.id h) (x.target t) (x.joinAt jo) (fun g => g.writeNow w.1 w.2.1 w.2.2)
      (x.g.changes x.sp.id w) s

/-- RET: a branch to the address in sD whose J is P's RPC (R101). -/
def execRet (h : Hdr) (sd : BitVec 8) (s : State) : Host.Outcome State Fault Refusal :=
  withIssue (.ret h sd) s fun x s =>
    x.transfer h (fun _ => true) (x.g.uGuard x.sp.id h) (x.g.sr x.sp.id sd.toNat) x.sp.rpc id false s

/-- LAND: no effect of its own (R100). -/
def execLand (h : Hdr) (s : State) : Host.Outcome State Fault Refusal :=
  withIssue (.land h) s fun x s => x.pass h false s

/-- LOOP: decrements c and branches while it is not zero; it never diverges (R102, R103). -/
def execLoop (h : Hdr) (c : BitVec 8) (t : Word) (s : State) : Host.Outcome State Fault Refusal :=
  withIssue (.loop h c t) s <| uniform h fun x s =>
    let v := (x.g.sr x.sp.id c.toNat - 1) &&& (Loc.s c.toNat).width
    s.modG x.r fun g =>
      let g := (g.writeNow (.s c.toNat) ones v).consume s.now x.sp.id h.st.toNat true
      if v ≠ 0 then x.goTo s.now (x.target t) .branch g else g.move s.now x.sp.id (x.next h) .seq

/-! ## EXIT, HALT and REFILL (03 R26 to R31, 09 R104, R108) -/

/-- EXIT: the split passes; the items of the active lanes end; the lanes are vacated, an emptied split is removed, and a
group without an occupied lane makes the automatic jump (R26, R27). -/
def execExit (h : Hdr) (s : State) : Host.Outcome State Fault Refusal :=
  withIssue (.exit h) s fun x s =>
    let act := x.active h
    if act = 0 then x.pass h false s
    else if (lanesOf act).any fun l => (x.g.ownerOf l).isSome then x.groupFault h .xbusy 0 s
    else
      let s := s.countItems x.tm.launch .exited (x.g.itemsOf act)
      s.modG x.r fun g =>
        ((g.consume s.now x.sp.id h.st.toNat false).modSplit x.sp.id fun y =>
          { y with pc := x.next h, arrivedBy := .seq, only := none, hold := .run, words := 0, bar := none }).vacate s.now act
          (x.tm.refillPc s) (some x.sp.id)

/-- The log entry of a HALT: a record of cause 0 at group level that no level absorbs, with the launch's next
number (R108, 26 R321). -/
def Iss.haltEntry (x : Iss) (l : Launch) : List Byte :=
  let n (v : Nat) : DWord := BitVec.ofNat 64 v
  logEntry [n ((l.seq + 1) * 2 ^ 32 + 3 * 2 ^ 19 + 7 * 2 ^ 16 + 1 * 2 ^ 8), x.sp.pc, n (x.sp.mask.toNat * 2 ^ 32), 0, 0, 0,
    0, n (x.g.grp * 2 ^ 32 + x.tm.num)] [] []

/-- HALT: every occupied lane's item is killed, an entry with cause 0 is logged, and the group retires (R108). -/
def execHalt (h : Hdr) (s : State) : Host.Outcome State Fault Refusal :=
  withIssue (.halt h) s <| uniform h fun x s =>
    if x.g.xp.isSome then x.groupFault h .xbusy 0 s
    else match s.launch? x.tm.launch with
      | none => s
      | some l =>
        let s := (s.modLaunch l.id fun k => { k with seq := l.seq + 1 }).logFault l.id (x.haltEntry l)
        s.killGroup x.r.team x.r.grp

/-- Every item that a team's held blocks will ever have has been handed out. -/
def State.handedOut (s : State) (l : Launch) (t : Team) : Bool :=
  let done (o : Option Held) : Bool := match o with
    | none => true
    | some h => s.exhausted l h
  done t.cur && done t.nxt

/-- The launch has no items left for a team (R21, 22 R297): every block is drawn and what the team holds is handed out;
for a fed launch, its queue is closed and every appended item dispensed, by whatever team. -/
def State.noItems (s : State) (l : Launch) (t : Team) : Bool :=
  !s.undrawn l && s.handedOut l t && (!l.desc.fed || ((s.feed l).2 &&
    s.teams.all fun x => x.launch != l.id || x.st == .retired || s.handedOut l x))

/-- The next item of a held block that is there to be handed out. -/
def State.avail (s : State) (l : Launch) (o : Option Held) : Option Held :=
  o.filter fun h => h.pos < s.blkHi l h.blk

/-- Taking items for a dispensing request (R20): the lowest-numbered item of the current block, then of the next; for a
fed launch the lowest-numbered item of either (22 R298). The next block is requested when the first item of the current
one is handed out (R19). Answers the items and the team. -/
def State.takeItems (s : State) (l : Launch) : Nat → Team → List Nat × Team
  | 0, t => ([], s.shift l t)
  | n + 1, t =>
    let t := s.shift l t
    let fromCur (h : Held) : List Nat × Team :=
      let r := s.takeItems l n ({ t with cur := some { h with pos := h.pos + 1 } }.ask s.now (h.pos = l.blkLo h.blk))
      (h.pos :: r.1, r.2)
    let fromNxt (h : Held) : List Nat × Team :=
      let r := s.takeItems l n { t with nxt := some { h with pos := h.pos + 1 } }
      (h.pos :: r.1, r.2)
    match s.avail l t.cur, s.avail l t.nxt with
    | some h, some k => if l.desc.fed && k.pos < h.pos then fromNxt k else fromCur h
    | some h, none => fromCur h
    | none, some k => fromNxt k
    | none, none => ([], t)

/-- An earlier dispensing request of the team waits, ahead of one that arrived at a time (R20). -/
def Iss.behind (x : Iss) (since : Nat) : Bool :=
  x.tm.groups.any fun g => g.splits.any fun y => match y.hold with
    | .refill _ z => decide (z < since ∨ (z = since ∧ g.grp < x.r.grp))
    | _ => false

/-- Whether a REFILL that dispenses some items takes an acquire at .PKG: an item's block has a producer range, or the
launch is fed (24 R313, 22 R300). -/
def State.acquires (s : State) (l : Launch) (items : List Nat) : Bool :=
  l.desc.fed && !items.isEmpty || items.any fun i => (l.desc.dep0.toList ++ l.desc.dep1.toList).any fun d =>
    (s.depRange l d (i / 2 ^ l.desc.lblk)).isSome

/-- A register of every filled lane of the `.fresh` set becomes 0 (R29). -/
def Group.freshen (g : Group) (k : Kernel) (lanes : Word) : Group :=
  (List.range 256).foldl (fun g v =>
    if k.fresh.getLsbD v then (lanesOf lanes).foldl (fun g l => g.writeNow (.v v l) ones 0) g else g) g

/-- Filling the vacant lanes with items, in ascending order (R29). -/
def Group.fill (g : Group) (k : Kernel) (lanes : List Nat) (items : List Nat) : Group :=
  let ps := lanes.zip items
  let m := maskOf (ps.map (·.1))
  let g := ps.foldl (fun g p => { g with
    item := g.item.set 0 p.1 (BitVec.ofNat 48 p.2)
    age := g.age.set 0 p.1 (g.ageOf p.1 + 1)
    flg := g.flg.set 0 p.1 0 }) g
  let g := g.freshen k m
  { g with occ := g.occ ||| m }

/-- One dispensing request of a REFILL, which arrived at a time, and its completion; with no occupied lane and none left,
the group retires (R29 to R31). None while it must wait: for the requests that arrived before it, while the team holds an
item, or for an item (R20, R30). -/
def Iss.refill (x : Iss) (h : Hdr) (kd since : Nat) (s : State) : Option State :=
  match s.launch? x.tm.launch with
  | none => none
  | some l =>
    let vacant := (List.range 32).filter fun i => !x.g.occ.getLsbD i
    let r := s.takeItems l vacant.length x.tm
    if x.behind since ∧ ¬ (s.takeItems l 1 x.tm).1.isEmpty then none
    else if r.1.isEmpty ∧ x.g.occ = 0 ∧ ¬ s.noItems l x.tm then none
    else
      let s := s.modTeam x.r.team fun t => { t with
        cur := r.2.cur, nxt := r.2.nxt, wantBlk := r.2.wantBlk, asked := r.2.asked }
      let s := if l.desc.fed then s.modQueue l.desc.qnum fun q => { q with dispensed := q.dispensed + r.1.length } else s
      let s := if s.acquires l r.1 then s.acquire x.tm.core .pkg else s
      let m := maskOf ((vacant.zip r.1).map (·.1))
      let s := s.modG x.r fun g =>
        let g := (g.landSplits (g.splits.map (·.id))).fill l.kern vacant r.1
        let loud := m != 0 || (kd != 0 && g.kr x.sp.id kd != m)
        let g := (g.writeNow (.k kd) ones (m.setWidth 64)).consume s.now x.sp.id h.st.toNat loud
        (g.modSplit x.sp.id fun y => { y with mask := y.mask ||| m }).move s.now x.sp.id (x.next h) .seq
      some (if x.g.occ = 0 ∧ m = 0 then s.retireGroup x.r.team x.r.grp else s)

/-- REFILL: raises the engine faults that wait for it (14 R219, 28 R359), then fills vacant lanes, or waits while the
group has no occupied lane and an item may still come (R29, R30). -/
def execRefill (h : Hdr) (kd : BitVec 8) (s : State) : Host.Outcome State Fault Refusal :=
  withIssue (.refill h kd) s fun x s =>
    if x.g.xp.isSome then x.groupFault h .xbusy 0 s
    else Iss.observe (fun _ => true) (fun x s => match x.refill h kd.toNat s.now s with
      | some t => t
      | none => s.modG x.r fun g =>
          (g.landSplits [x.sp.id]).modSplit x.sp.id fun y => { y with hold := .refill kd.toNat s.now }) x s

/-- The header under which a waiting REFILL completes. -/
def refillHdr : Hdr := { len := .w1, st := 0, g := 0, gn := false, xs := 0 }

/-- REFILL_WAKE: an item has reached the team, or none is left; the REFILL completes (R30). -/
def execRefillWake (r : SRef) (s : State) : Host.Outcome State Fault Refusal :=
  match s.at? r with
  | none => .next s
  | some x => match x.sp.hold with
    | .refill kd since => .next ((x.refill refillHdr kd since s).getD s)
    | _ => .next s

/-! ## YIELD, SPINH, SYNCS (09 R105 to R107) -/

/-- The splits of a group that are issuable, other than one (R105). -/
def Group.otherIssuable (g : Group) (sp : Nat) : List Split :=
  g.splits.filter fun x => x.id ≠ sp ∧ x.entry.isSome ∧ x.hold = .run ∧ x.quiet < 64

/-- A split whose instruction is done but which issues nothing yet. -/
def Iss.doneButHeld (x : Iss) (h : Hdr) (hd : Hold) (g : Group) (now : Nat) : Group :=
  (g.consume now x.sp.id h.st.toNat false).modSplit x.sp.id fun y =>
    { y with pc := x.next h, arrivedBy := .seq, hold := hd, only := none }

/-- YIELD: gives up issue until every other issuable split of the group has issued, or for 64 cc; it returns demoted
splits to issue (R105, R37). -/
def execYield (h : Hdr) (s : State) : Host.Outcome State Fault Refusal :=
  withIssue (.yield h) s <| uniform h fun x s =>
    s.modG x.r fun g =>
      let g := { (g.landSplits [x.sp.id]).wake with yielded := true }
      if (g.otherIssuable x.sp.id).isEmpty then
        (g.consume s.now x.sp.id h.st.toNat false).move s.now x.sp.id (x.next h) .seq
      else (x.doneButHeld h (.yield (s.now + 64) []) g s.now).settle s.now 64

/-- YIELD_END: 64 cc have passed, or every other issuable split has issued since (R105). -/
def execYieldEnd (r : SRef) (s : State) : Host.Outcome State Fault Refusal :=
  match s.at? r with
  | none => .next s
  | some x => match x.sp.hold with
    | .yield till seen =>
      if till ≤ s.now ∨ (x.g.otherIssuable x.sp.id).all (fun y => seen.contains y.id) then
        .next (s.modG r fun g => (g.modSplit r.split fun y => { y with hold := .run }).boundary s.now r.split)
      else .next s
    | _ => .next s

/-- SPINH: holds the split for 16 × (w + 1) cc (R106). -/
def execSpinh (h : Hdr) (w : BitVec 6) (s : State) : Host.Outcome State Fault Refusal :=
  withIssue (.spinh h w) s <| uniform h fun x s =>
    s.modG x.r fun g => x.doneButHeld h (.spinh (s.now + 16 * (w.toNat + 1))) g s.now

/-- SPINH_EXPIRY: the hold has ended (R106). -/
def execSpinhExpiry (r : SRef) (s : State) : Host.Outcome State Fault Refusal :=
  match s.at? r with
  | none => .next s
  | some x => match x.sp.hold with
    | .spinh till =>
      if till ≤ s.now then
        .next (s.modG r fun g => (g.modSplit r.split fun y => { y with hold := .run }).boundary s.now r.split)
      else .next s
    | _ => .next s

/-- The split has a fixed-latency result that has not landed (R107). -/
def Group.unlanded (g : Group) (sp : Nat) : Bool := g.pend.any fun e => e.split = sp && !e.landed

/-- SYNCS: holds the split until every result it has issued has landed; the distance rule does not reach across (R107). -/
def execSyncs (h : Hdr) (s : State) : Host.Outcome State Fault Refusal :=
  withIssue (.syncs h) s <| uniform h fun x s =>
    s.modG x.r fun g =>
      if g.unlanded x.sp.id then x.doneButHeld h .syncs g s.now
      else (((g.consume s.now x.sp.id h.st.toNat false)).landSplits [x.sp.id]).move s.now x.sp.id (x.next h) .seq

/-- SYNCS_RETURN: every result of the split has landed (R107). -/
def execSyncsReturn (r : SRef) (s : State) : Host.Outcome State Fault Refusal :=
  match s.at? r with
  | none => .next s
  | some x => match x.sp.hold with
    | .syncs =>
      if x.g.pend.all fun e => e.split ≠ r.split || e.landed || decide (e.landsAt ≤ s.now) then
        .next (s.modG r fun g =>
          ((g.landSplits [r.split]).modSplit r.split fun y => { y with hold := .run }).boundary s.now r.split)
      else .next s
    | _ => .next s

/-! ## Spin detection (03 R36, R37) -/

/-- SPLIT_DEMOTION: 64 consecutive quiet backward branches have demoted the split, for 4,096 cc from the last of them
(R37). -/
def execSplitDemotion (r : SRef) (s : State) : Host.Outcome State Fault Refusal :=
  match s.at? r with
  | none => .next s
  | some x =>
    if 64 ≤ x.sp.quiet ∧ x.sp.hold = .run then
      .next (s.modSplit r fun y => { y with hold := .demoted (y.issuedAt + 4096) })
    else .next s

/-- DEMOTION_TIMEOUT: 4,096 cc have passed; the split may issue again with its count at 0 (R37). -/
def execDemotionTimeout (r : SRef) (s : State) : Host.Outcome State Fault Refusal :=
  match s.at? r with
  | none => .next s
  | some x => match x.sp.hold with
    | .demoted till =>
      if till ≤ s.now then .next (s.modSplit r fun y => { y with hold := .run, quiet := 0 }) else .next s
    | _ => .next s

end Sys2Proof.Machine
end

