-- ==== Sys2Proof/Machine/FloatOps.lean ====
section
/-! DEFINITION. Class 0x4: floating-point arithmetic (10 R131 to R138). -/

namespace Sys2Proof.Machine

/-- The element of an unpacked operand of a type: bits 15:0 of a 16-bit type (07 R74). -/
def elt (t : ElemTy) (x : Nat) : Nat := x % 2 ^ t.bits

/-- An arithmetic instruction on values, rounded once in the mode (R132). -/
def fpArith (i : Instr) (h : Hdr) (f : FMod) (vd va : Reg) (b : BSrc) (op : RMode → Bool → FVal → FVal → FRes)
    (s : State) : Host.Outcome State Fault Refusal :=
  fpOp i h (fun x _ l =>
    let (md, fz) := x.fpMode f
    one (x.eff h vd) l (op md fz (inF f.ty fz (elt f.ty (x.vN h va l))) (inF f.ty fz (elt f.ty (x.bN h b l))))) s

/-- FADD (R132). -/
def execFadd (h : Hdr) (f : FMod) (vd va : Reg) (b : BSrc) (s : State) : Host.Outcome State Fault Refusal :=
  fpArith (.fadd h f vd va b) h f vd va b (addF f.ty) s

/-- FSUB (R132). -/
def execFsub (h : Hdr) (f : FMod) (vd va : Reg) (b : BSrc) (s : State) : Host.Outcome State Fault Refusal :=
  fpArith (.fsub h f vd va b) h f vd va b (subF f.ty) s

/-- FMUL (R132). -/
def execFmul (h : Hdr) (f : FMod) (vd va : Reg) (b : BSrc) (s : State) : Host.Outcome State Fault Refusal :=
  fpArith (.fmul h f vd va b) h f vd va b (mulF f.ty) s

/-- FMA: exact before the one rounding (R132). -/
def execFma (h : Hdr) (f : FMod) (vd va : Reg) (b : BSrc) (vc : Reg) (s : State) : Host.Outcome State Fault Refusal :=
  fpOp (.fma h f vd va b vc) h (fun x _ l =>
    let (md, fz) := x.fpMode f
    let v (n : Nat) := inF f.ty fz (elt f.ty n)
    one (x.eff h vd) l (fmaF f.ty md fz (v (x.vN h va l)) (v (x.bN h b l)) (v (x.vN h vc l)))) s

/-- FMIN and FMAX return one of the inputs, after flushing if flushing applies (R133). -/
def fpMinMax (i : Instr) (max : Bool) (h : Hdr) (f : FMod) (vd va : Reg) (b : BSrc) (s : State) :
    Host.Outcome State Fault Refusal :=
  fpOp i h (fun x _ l =>
    let fz := (x.fpMode f).2
    let p := elt f.ty (x.vN h va l)
    let q := elt f.ty (x.bN h b l)
    one (x.eff h vd) l (minmaxF f.ty max (flushCode f.ty fz p) (inF f.ty fz p) (flushCode f.ty fz q) (inF f.ty fz q))) s

/-- FMIN (R133). -/
def execFmin (h : Hdr) (f : FMod) (vd va : Reg) (b : BSrc) (s : State) : Host.Outcome State Fault Refusal :=
  fpMinMax (.fmin h f vd va b) false h f vd va b s

/-- FMAX (R133). -/
def execFmax (h : Hdr) (f : FMod) (vd va : Reg) (b : BSrc) (s : State) : Host.Outcome State Fault Refusal :=
  fpMinMax (.fmax h f vd va b) true h f vd va b s

/-- FCMP: a bit of kD per active lane (R134). -/
def execFcmp (h : Hdr) (f : FMod) (cc : FCond) (kd va : Reg) (b : BSrc) (s : State) :
    Host.Outcome State Fault Refusal :=
  fpOp (.fcmp h f cc kd va b) h (fun x _ l =>
    let fz := (x.fpMode f).2
    let r := fcmpF cc (inF f.ty fz (elt f.ty (x.vN h va l))) (inF f.ty fz (elt f.ty (x.bN h b l)))
    oneBit (x.eff h kd) l r.1 (if r.2 then fNV else 0)) s

/-- FCLS: never flushes and sets no flag (R135). -/
def execFcls (h : Hdr) (f : FMod) (set : BitVec 8) (kd : Reg) (b : BSrc) (s : State) :
    Host.Outcome State Fault Refusal :=
  fpOp (.fcls h f set kd b) h (fun x _ l =>
    oneBit (x.eff h kd) l (fclsF f.ty set (elt f.ty (x.bN h b l))) 0) s

/-- FRND (R136). -/
def execFrnd (h : Hdr) (f : FMod) (vd : Reg) (b : BSrc) (s : State) : Host.Outcome State Fault Refusal :=
  fpOp (.frnd h f vd b) h (fun x _ l =>
    let (md, fz) := x.fpMode f
    one (x.eff h vd) l (frndF f.ty md fz (elt f.ty (x.bN h b l)))) s

/-- FSCL: a × 2^n, n the signed exponent operand (R136). -/
def execFscl (h : Hdr) (f : FMod) (vd va : Reg) (b : BSrc) (s : State) : Host.Outcome State Fault Refusal :=
  fpOp (.fscl h f vd va b) h (fun x _ l =>
    let (md, fz) := x.fpMode f
    one (x.eff h vd) l (fsclF f.ty md fz (inF f.ty fz (elt f.ty (x.vN h va l))) (x.b32 h l b).toInt)) s

/-- Element 0 or 1 of a packed pair of a 16-bit type (07 R74). -/
def elt16 (x i : Nat) : Nat := x / 2 ^ (16 * i) % 2 ^ 16

/-- FDOT2 (R137). -/
def execFdot2 (h : Hdr) (f : FMod) (vd va : Reg) (b : BSrc) (vc : Reg) (s : State) : Host.Outcome State Fault Refusal :=
  fpOp (.fdot2 h f vd va b vc) h (fun x _ l =>
    let (md, fz) := x.fpMode f
    let p := x.vN h va l
    let q := x.bN h b l
    let v (n i : Nat) := inF f.ty fz (elt16 n i)
    one (x.eff h vd) l (fdot2F md fz (v p 0) (v q 0) (v p 1) (v q 1) (inF .f32 fz (x.vN h vc l)))) s

/-- A packed result: both elements, with the flags of both (R138). -/
def packed (n l : Nat) (r : Nat → FRes) : LaneOut :=
  ⟨[(.v n l, ones, BitVec.ofNat 64 ((r 0).bits + 2 ^ 16 * (r 1).bits))], (r 0).fl ||| (r 1).fl⟩

/-- PFMA (R138). -/
def execPfma (h : Hdr) (f : FMod) (vd va : Reg) (b : BSrc) (vc : Reg) (s : State) : Host.Outcome State Fault Refusal :=
  fpOp (.pfma h f vd va b vc) h (fun x _ l =>
    let (md, fz) := x.fpMode f
    let v (n i : Nat) := inF f.ty fz (elt16 n i)
    packed (x.eff h vd) l fun i => fmaF f.ty md fz (v (x.vN h va l) i) (v (x.bN h b l) i) (v (x.vN h vc l) i)) s

/-- PFADD (R138). -/
def execPfadd (h : Hdr) (f : FMod) (vd va : Reg) (b : BSrc) (s : State) : Host.Outcome State Fault Refusal :=
  fpOp (.pfadd h f vd va b) h (fun x _ l =>
    let (md, fz) := x.fpMode f
    packed (x.eff h vd) l fun i =>
      addF f.ty md fz (inF f.ty fz (elt16 (x.vN h va l) i)) (inF f.ty fz (elt16 (x.bN h b l) i))) s

/-- PFMUL (R138). -/
def execPfmul (h : Hdr) (f : FMod) (vd va : Reg) (b : BSrc) (s : State) : Host.Outcome State Fault Refusal :=
  fpOp (.pfmul h f vd va b) h (fun x _ l =>
    let (md, fz) := x.fpMode f
    packed (x.eff h vd) l fun i =>
      mulF f.ty md fz (inF f.ty fz (elt16 (x.vN h va l) i)) (inF f.ty fz (elt16 (x.bN h b l) i))) s

end Sys2Proof.Machine
end

