-- ==== Sys2Proof/Machine/Convert.lean ====
section
/-! DEFINITION. Class 0x5: conversion, special functions, quantization and RX3 words (10 R139 to R145). -/

namespace Sys2Proof.Machine

/-- CVT between any two types but RX3, on element 0 (R140). -/
def execCvt (h : Hdr) (td : ElemTy) (sat : Bool) (rnd : RndCode) (ts : ElemTy) (ftz : Bool) (vd : Reg) (b : BSrc)
    (s : State) : Host.Outcome State Fault Refusal :=
  fpOp (.cvt h td sat rnd ts ftz vd b) h (fun x _ l =>
    let fz := ftz || (x.g.ftz && td.inF && ts.inF)
    let r := cvtF td ts (x.g.mode rnd) sat fz (x.bE h ts b l).toNat
    ⟨elemW td (x.eff h vd) (1#32 <<< l) (fun _ => BitVec.ofNat 64 r.bits), r.fl⟩) s

/-- CVTR: stochastic rounding with the 16 bits of the B operand (R141, 07 R79). -/
def execCvtr (h : Hdr) (td : ElemTy) (sat : Bool) (vd va : Reg) (b : BSrc) (s : State) :
    Host.Outcome State Fault Refusal :=
  fpOp (.cvtr h td sat vd va b) h (fun x _ l =>
    one (x.eff h vd) l (cvtrF td sat (x.bN h b l % 2 ^ 16) (decodeF .f32 (x.vN h va l)))) s

/-- An approximate function of one F32 operand (R142). -/
def approxOp (i : Instr) (h : Hdr) (ftz : Bool) (vd : Reg) (b : BSrc) (f : Bool → Nat → FRes) (s : State) :
    Host.Outcome State Fault Refusal :=
  fpOp i h (fun x _ l => one (x.eff h vd) l (f (ftz || x.g.ftz) (x.bN h b l))) s

/-- FRCP (R142). -/
def execFrcp (h : Hdr) (ftz : Bool) (vd : Reg) (b : BSrc) (s : State) : Host.Outcome State Fault Refusal :=
  approxOp (.frcp h ftz vd b) h ftz vd b frcpF s

/-- FRSQ (R142). -/
def execFrsq (h : Hdr) (ftz : Bool) (vd : Reg) (b : BSrc) (s : State) : Host.Outcome State Fault Refusal :=
  approxOp (.frsq h ftz vd b) h ftz vd b frsqF s

/-- FEX2 (R142). -/
def execFex2 (h : Hdr) (ftz : Bool) (vd : Reg) (b : BSrc) (s : State) : Host.Outcome State Fault Refusal :=
  approxOp (.fex2 h ftz vd b) h ftz vd b fex2F s

/-- FLG2 (R142). -/
def execFlg2 (h : Hdr) (ftz : Bool) (vd : Reg) (b : BSrc) (s : State) : Host.Outcome State Fault Refusal :=
  approxOp (.flg2 h ftz vd b) h ftz vd b flg2F s

/-- FSIN (R142). -/
def execFsin (h : Hdr) (ftz : Bool) (vd : Reg) (b : BSrc) (s : State) : Host.Outcome State Fault Refusal :=
  approxOp (.fsin h ftz vd b) h ftz vd b (trigF false) s

/-- FCOS (R142). -/
def execFcos (h : Hdr) (ftz : Bool) (vd : Reg) (b : BSrc) (s : State) : Host.Outcome State Fault Refusal :=
  approxOp (.fcos h ftz vd b) h ftz vd b (trigF true) s

/-- FDIV, correctly rounded (R142). -/
def execFdiv (h : Hdr) (f : FMod) (vd va : Reg) (b : BSrc) (s : State) : Host.Outcome State Fault Refusal :=
  fpArith (.fdiv h f vd va b) h f vd va b (fun md fz => divF f.ty md false fz) s

/-- FSQRT, correctly rounded (R142). -/
def execFsqrt (h : Hdr) (f : FMod) (vd : Reg) (b : BSrc) (s : State) : Host.Outcome State Fault Refusal :=
  fpOp (.fsqrt h f vd b) h (fun x _ l =>
    let (md, fz) := x.fpMode f
    one (x.eff h vd) l (sqrtF f.ty md fz (inF f.ty fz (elt f.ty (x.bN h b l))))) s

/-- QSCL: the scale of a block's largest magnitude (R143, 07 R94). -/
def execQscl (h : Hdr) (p2 : Bool) (t : ElemTy) (vd : Reg) (b : BSrc) (s : State) : Host.Outcome State Fault Refusal :=
  fpOp (.qscl h p2 t vd b) h (fun x _ l => one (x.eff h vd) l (qsclF t p2 (x.bN h b l))) s

/-- QPACK: k F32 registers divided by the scale, converted and packed (R144). -/
def execQpack (h : Hdr) (rnd : RndCode) (t : ElemTy) (vd va : Reg) (b : BSrc) (s : State) :
    Host.Outcome State Fault Refusal :=
  fpOp (.qpack h rnd t vd va b) h (fun x _ l =>
    let rs := (List.range (qCount t)).map fun i =>
      qpackF t (x.g.mode rnd) (x.g.vr x.sp.id (x.eff h va + i) l).toNat (x.bN h b l)
    ⟨[(.v (x.eff h vd) l, ones, BitVec.ofNat 64 (packFields t (rs.map (·.bits))))], rs.foldl (· ||| ·.fl) 0⟩) s

/-- QUNP: the packed elements times the scale, in k F32 registers (R144). -/
def execQunp (h : Hdr) (rnd : RndCode) (t : ElemTy) (vd va : Reg) (b : BSrc) (s : State) :
    Host.Outcome State Fault Refusal :=
  fpOp (.qunp h rnd t vd va b) h (fun x _ l =>
    let es := (fieldsOf t (x.vN h va l)).map fun e => qunpF t (x.g.mode rnd) e (x.bN h b l)
    ⟨(es.zip (List.range es.length)).map fun p => (.v (x.eff h vd + p.2) l, ones, BitVec.ofNat 64 p.1.bits),
     es.foldl (· ||| ·.fl) 0⟩) s

/-- RNSENC: the RX3 word of an integer (R145). -/
def execRnsenc (h : Hdr) (t : ElemTy) (vd : Reg) (b : BSrc) (s : State) : Host.Outcome State Fault Refusal :=
  fpOp (.rnsenc h t vd b) h (fun x _ l => one (x.eff h vd) l ⟨rx3Of (intVal t (x.bN h b l)), 0⟩) s

/-- RNSDEC: the integer that an RX3 word represents (R145, 07 R91). -/
def execRnsdec (h : Hdr) (vd : Reg) (b : BSrc) (s : State) : Host.Outcome State Fault Refusal :=
  fpOp (.rnsdec h vd b) h (fun x _ l => one (x.eff h vd) l ⟨intCode .s32 (rx3Val (x.bN h b l)), 0⟩) s

end Sys2Proof.Machine
end

