-- ==== Sys2Proof/Machine/Dispatch.lean ====
section
/-! DEFINITION. One arm per constructor of `Instr`, each a direct call of its meaning. -/

namespace Sys2Proof.Machine

def exec (i : Instr) (s : State) : Host.Outcome State Fault Refusal :=
  match i with
  | .nop h => Sys2Proof.Machine.execNop h s
  | .bra h jo t => Sys2Proof.Machine.execBra h jo t s
  | .brc h c jo t => Sys2Proof.Machine.execBrc h c jo t s
  | .brx h jo va => Sys2Proof.Machine.execBrx h jo va s
  | .call h sd jo t => Sys2Proof.Machine.execCall h sd jo t s
  | .ret h sd => Sys2Proof.Machine.execRet h sd s
  | .land h => Sys2Proof.Machine.execLand h s
  | .exit h => Sys2Proof.Machine.execExit h s
  | .refill h kd => Sys2Proof.Machine.execRefill h kd s
  | .refillWake r => Sys2Proof.Machine.execRefillWake r s
  | .yield h => Sys2Proof.Machine.execYield h s
  | .yieldEnd r => Sys2Proof.Machine.execYieldEnd r s
  | .spinh h w => Sys2Proof.Machine.execSpinh h w s
  | .spinhExpiry r => Sys2Proof.Machine.execSpinhExpiry r s
  | .syncs h => Sys2Proof.Machine.execSyncs h s
  | .syncsReturn r => Sys2Proof.Machine.execSyncsReturn r s
  | .halt h => Sys2Proof.Machine.execHalt h s
  | .loop h c t => Sys2Proof.Machine.execLoop h c t s
  | .splitDemotion r => Sys2Proof.Machine.execSplitDemotion r s
  | .demotionTimeout r => Sys2Proof.Machine.execDemotionTimeout r s
  | .smovImm6 h sd imm => Sys2Proof.Machine.execSmovImm6 h sd imm s
  | .smov h sd b => Sys2Proof.Machine.execSmov h sd b s
  | .sadd h sd sa b => Sys2Proof.Machine.execSadd h sd sa b s
  | .ssub h sd sa b => Sys2Proof.Machine.execSsub h sd sa b s
  | .smul h m sd sa b => Sys2Proof.Machine.execSmul h m sd sa b s
  | .smad h sd sa sb sc => Sys2Proof.Machine.execSmad h sd sa sb sc s
  | .sdiv h u rem sd sa b => Sys2Proof.Machine.execSdiv h u rem sd sa b s
  | .sand h sd sa b => Sys2Proof.Machine.execSand h sd sa b s
  | .sor h sd sa b => Sys2Proof.Machine.execSor h sd sa b s
  | .sxor h sd sa b => Sys2Proof.Machine.execSxor h sd sa b s
  | .sshl h sd sa b => Sys2Proof.Machine.execSshl h sd sa b s
  | .sshr h sd sa b => Sys2Proof.Machine.execSshr h sd sa b s
  | .ssar h sd sa b => Sys2Proof.Machine.execSsar h sd sa b s
  | .scmp h cc kd sa b => Sys2Proof.Machine.execScmp h cc kd sa b s
  | .ssel h sd sa sb kc => Sys2Proof.Machine.execSsel h sd sa sb kc s
  | .srdv h w64 sd va b => Sys2Proof.Machine.execSrdv h w64 sd va b s
  | .sldk h sd b => Sys2Proof.Machine.execSldk h sd b s
  | .mov h t vd b => Sys2Proof.Machine.execMov h t vd b s
  | .add h t vd va b => Sys2Proof.Machine.execAdd h t vd va b s
  | .sub h t vd va b => Sys2Proof.Machine.execSub h t vd va b s
  | .mul h wide t vd va b => Sys2Proof.Machine.execMul h wide t vd va b s
  | .mulh h t vd va b => Sys2Proof.Machine.execMulh h t vd va b s
  | .mad h wide t vd va b vc => Sys2Proof.Machine.execMad h wide t vd va b vc s
  | .adc h t vd va b kc => Sys2Proof.Machine.execAdc h t vd va b kc s
  | .sbb h t vd va b kc => Sys2Proof.Machine.execSbb h t vd va b kc s
  | .min h t vd va b => Sys2Proof.Machine.execMin h t vd va b s
  | .max h t vd va b => Sys2Proof.Machine.execMax h t vd va b s
  | .abs h sat t vd b => Sys2Proof.Machine.execAbs h sat t vd b s
  | .neg h sat t vd b => Sys2Proof.Machine.execNeg h sat t vd b s
  | .addsat h t vd va b => Sys2Proof.Machine.execAddsat h t vd va b s
  | .subsat h t vd va b => Sys2Proof.Machine.execSubsat h t vd va b s
  | .lea h t vd va b sh => Sys2Proof.Machine.execLea h t vd va b sh s
  | .and h t vd va b => Sys2Proof.Machine.execAnd h t vd va b s
  | .or h t vd va b => Sys2Proof.Machine.execOr h t vd va b s
  | .xor h t vd va b => Sys2Proof.Machine.execXor h t vd va b s
  | .not h t vd b => Sys2Proof.Machine.execNot h t vd b s
  | .andn h t vd va b => Sys2Proof.Machine.execAndn h t vd va b s
  | .shl h t vd va b => Sys2Proof.Machine.execShl h t vd va b s
  | .shr h t vd va b => Sys2Proof.Machine.execShr h t vd va b s
  | .sar h t vd va b => Sys2Proof.Machine.execSar h t vd va b s
  | .rot h t vd va b => Sys2Proof.Machine.execRot h t vd va b s
  | .popc h t vd b => Sys2Proof.Machine.execPopc h t vd b s
  | .clz h t vd b => Sys2Proof.Machine.execClz h t vd b s
  | .bfe h t vd va b => Sys2Proof.Machine.execBfe h t vd va b s
  | .bfi h t vd va b vc => Sys2Proof.Machine.execBfi h t vd va b vc s
  | .sel h t vd va b kc => Sys2Proof.Machine.execSel h t vd va b kc s
  | .cmp h cc land t kd va b => Sys2Proof.Machine.execCmp h cc land t kd va b s
  | .prmb h vd va b vc => Sys2Proof.Machine.execPrmb h vd va b vc s
  | .fadd h f vd va b => Sys2Proof.Machine.execFadd h f vd va b s
  | .fsub h f vd va b => Sys2Proof.Machine.execFsub h f vd va b s
  | .fmul h f vd va b => Sys2Proof.Machine.execFmul h f vd va b s
  | .fma h f vd va b vc => Sys2Proof.Machine.execFma h f vd va b vc s
  | .fmin h f vd va b => Sys2Proof.Machine.execFmin h f vd va b s
  | .fmax h f vd va b => Sys2Proof.Machine.execFmax h f vd va b s
  | .fcmp h f cc kd va b => Sys2Proof.Machine.execFcmp h f cc kd va b s
  | .fcls h f x2 kd b => Sys2Proof.Machine.execFcls h f x2 kd b s
  | .frnd h f vd b => Sys2Proof.Machine.execFrnd h f vd b s
  | .fscl h f vd va b => Sys2Proof.Machine.execFscl h f vd va b s
  | .fdot2 h f vd va b vc => Sys2Proof.Machine.execFdot2 h f vd va b vc s
  | .pfma h f vd va b vc => Sys2Proof.Machine.execPfma h f vd va b vc s
  | .pfadd h f vd va b => Sys2Proof.Machine.execPfadd h f vd va b s
  | .pfmul h f vd va b => Sys2Proof.Machine.execPfmul h f vd va b s
  | .cvt h td sat rnd ts ftz vd b => Sys2Proof.Machine.execCvt h td sat rnd ts ftz vd b s
  | .cvtr h td sat vd va b => Sys2Proof.Machine.execCvtr h td sat vd va b s
  | .frcp h ftz vd b => Sys2Proof.Machine.execFrcp h ftz vd b s
  | .frsq h ftz vd b => Sys2Proof.Machine.execFrsq h ftz vd b s
  | .fex2 h ftz vd b => Sys2Proof.Machine.execFex2 h ftz vd b s
  | .flg2 h ftz vd b => Sys2Proof.Machine.execFlg2 h ftz vd b s
  | .fsin h ftz vd b => Sys2Proof.Machine.execFsin h ftz vd b s
  | .fcos h ftz vd b => Sys2Proof.Machine.execFcos h ftz vd b s
  | .fdiv h f vd va b => Sys2Proof.Machine.execFdiv h f vd va b s
  | .fsqrt h f vd b => Sys2Proof.Machine.execFsqrt h f vd b s
  | .qscl h p2 t vd b => Sys2Proof.Machine.execQscl h p2 t vd b s
  | .qpack h rnd t vd va b => Sys2Proof.Machine.execQpack h rnd t vd va b s
  | .qunp h rnd t vd va b => Sys2Proof.Machine.execQunp h rnd t vd va b s
  | .rnsenc h t vd b => Sys2Proof.Machine.execRnsenc h t vd b s
  | .rnsdec h vd b => Sys2Proof.Machine.execRnsdec h vd b s
  | .kand h kd ka kb => Sys2Proof.Machine.execKand h kd ka kb s
  | .kor h kd ka kb => Sys2Proof.Machine.execKor h kd ka kb s
  | .kxor h kd ka kb => Sys2Proof.Machine.execKxor h kd ka kb s
  | .knot h kd kb => Sys2Proof.Machine.execKnot h kd kb s
  | .kmov h dir d b => Sys2Proof.Machine.execKmov h dir d b s
  | .vote h m kd ka => Sys2Proof.Machine.execVote h m kd ka s
  | .kpop h sd kb => Sys2Proof.Machine.execKpop h sd kb s
  | .kfind h hi sd kb => Sys2Proof.Machine.execKfind h hi sd kb s
  | .flgk h f kd => Sys2Proof.Machine.execFlgk h f kd s
  | .flgclr h x1 => Sys2Proof.Machine.execFlgclr h x1 s
  | .flgrd h vd => Sys2Proof.Machine.execFlgrd h vd s
  | .lanek h sel kd => Sys2Proof.Machine.execLanek h sel kd s
  | .shfl h m w64 vd va b => Sys2Proof.Machine.execShfl h m w64 vd va b s
  | .pushw h w64 vd va b kc => Sys2Proof.Machine.execPushw h w64 vd va b kc s
  | .bcast h w64 vd va b => Sys2Proof.Machine.execBcast h w64 vd va b s
  | .redu h toS op w64 d va => Sys2Proof.Machine.execRedu h toS op w64 d va s
  | .scan h excl op w64 vd va => Sys2Proof.Machine.execScan h excl op w64 vd va s
  | .confl h w64 vd va kc => Sys2Proof.Machine.execConfl h w64 vd va kc s
  | .matchk h w64 vd va => Sys2Proof.Machine.execMatchk h w64 vd va s
  | .segscan h excl op w64 vd va kc => Sys2Proof.Machine.execSegscan h excl op w64 vd va kc s
  | .gsort h desc t vd va => Sys2Proof.Machine.execGsort h desc t vd va s
  | .ld h sz ma vd m => Sys2Proof.Machine.execLd h sz ma vd m s
  | .st h sz ma vd m => Sys2Proof.Machine.execSt h sz ma vd m s
  | .lds h sz ma vd m => Sys2Proof.Machine.execLds h sz ma vd m s
  | .sts h sz ma vd m => Sys2Proof.Machine.execSts h sz ma vd m s
  | .ldk h sz ma sd m => Sys2Proof.Machine.execLdk h sz ma sd m s
  | .stk h sz ma sd m => Sys2Proof.Machine.execStk h sz ma sd m s
  | .lookup h vd key => Sys2Proof.Machine.execLookup h vd key s
  | .tagset h keyS key entry => Sys2Proof.Machine.execTagset h keyS key entry s
  | .taginv h entry => Sys2Proof.Machine.execTaginv h entry s
  | .pref h l1 m => Sys2Proof.Machine.execPref h l1 m s
  | .lda h sz vd m => Sys2Proof.Machine.execLda h sz vd m s
  | .str h sz vd m => Sys2Proof.Machine.execStr h sz vd m s
  | .ldsb h n vd m => Sys2Proof.Machine.execLdsb h n vd m s
  | .atom h op t vd m vc => Sys2Proof.Machine.execAtom h op t vd m vc s
  | .cas h w64 vd m vc => Sys2Proof.Machine.execCas h w64 vd m vc s
  | .atoms h op t vd m vc => Sys2Proof.Machine.execAtoms h op t vd m vc s
  | .cass h w64 vd m vc => Sys2Proof.Machine.execCass h w64 vd m vc s
  | .red h op t m vc => Sys2Proof.Machine.execRed h op t m vc s
  | .fence h o sc => Sys2Proof.Machine.execFence h o sc s
  | .acq h sc => Sys2Proof.Machine.execAcq h sc s
  | .rel h sc => Sys2Proof.Machine.execRel h sc s
  | .fenceComplete r => Sys2Proof.Machine.execFenceComplete r s
  | .releaseDrainComplete f => Sys2Proof.Machine.execReleaseDrainComplete f s
  | .bar h => Sys2Proof.Machine.execBar h s
  | .barCounted h sa => Sys2Proof.Machine.execBarCounted h sa s
  | .cbar h => Sys2Proof.Machine.execCbar h s
  | .cbarCounted h sa => Sys2Proof.Machine.execCbarCounted h sa s
  | .barInstanceComplete team cluster => Sys2Proof.Machine.execBarInstanceComplete team cluster s
  | .cpa h bar size dir src dst ds dd => Sys2Proof.Machine.execCpa h bar size dir src dst ds dd s
  | .tcopy h bar dir dscr src dst desc => Sys2Proof.Machine.execTcopy h bar dir dscr src dst desc s
  | .tcopym h bar dscr src dst desc id => Sys2Proof.Machine.execTcopym h bar dscr src dst desc id s
  | .binit h b v => Sys2Proof.Machine.execBinit h b v s
  | .barv h b v => Sys2Proof.Machine.execBarv h b v s
  | .bexp h b v => Sys2Proof.Machine.execBexp h b v s
  | .bwait h b p => Sys2Proof.Machine.execBwait h b p s
  | .bwaitReturn r => Sys2Proof.Machine.execBwaitReturn r s
  | .btest h kd b p => Sys2Proof.Machine.execBtest h kd b p s
  | .waitn h n t => Sys2Proof.Machine.execWaitn h n t s
  | .waitnReturn r => Sys2Proof.Machine.execWaitnReturn r s
  | .trig h c t => Sys2Proof.Machine.execTrig h c t s
  | .triggerFire o => Sys2Proof.Machine.execTriggerFire o s
  | .mma h async ta tb tc ad va vb => Sys2Proof.Machine.execMma h async ta tb tc ad va vb s
  | .mmaq h async ta tb tc ad va vb => Sys2Proof.Machine.execMmaq h async ta tb tc ad va vb s
  | .quartetRendezvous team quartet => Sys2Proof.Machine.execQuartetRendezvous team quartet s
  | .mmv h tw tv tc ad vx sw ss nr nv => Sys2Proof.Machine.execMmv h tw tv tc ad vx sw ss nr nv s
  | .mlutb h ad va => Sys2Proof.Machine.execMlutb h ad va s
  | .mlut h m async ad aa vb => Sys2Proof.Machine.execMlut h m async ad aa vb s
  | .matrixOpStart core bench => Sys2Proof.Machine.execMatrixOpStart core bench s
  | .rcvt h ad aa => Sys2Proof.Machine.execRcvt h ad aa s
  | .scacc h tp ad aa vb vc => Sys2Proof.Machine.execScacc h tp ad aa vb vc s
  | .accz h ad => Sys2Proof.Machine.execAccz h ad s
  | .accrd h n vd aa c => Sys2Proof.Machine.execAccrd h n vd aa c s
  | .accwr h n ad vb c => Sys2Proof.Machine.execAccwr h n ad vb c s
  | .accld h ad sa => Sys2Proof.Machine.execAccld h ad sa s
  | .accst h ad sa => Sys2Proof.Machine.execAccst h ad sa s
  | .accstat h clr sd aa => Sys2Proof.Machine.execAccstat h clr sd aa s
  | .gather h m trap f32 sd sh vi n stat => Sys2Proof.Machine.execGather h m trap f32 sd sh vi n stat s
  | .scatr h m trap f32 sd sh vi n stat => Sys2Proof.Machine.execScatr h m trap f32 sd sh vi n stat s
  | .scatw h trap f32 sd sh vi n stat => Sys2Proof.Machine.execScatw h trap f32 sd sh vi n stat s
  | .gstat h clr sd => Sys2Proof.Machine.execGstat h clr sd s
  | .klook h trap f32 sd sq sh sk stat => Sys2Proof.Machine.execKlook h trap f32 sd sq sh sk stat s
  | .klookSelectionEnd r => Sys2Proof.Machine.execKlookSelectionEnd r s
  | .kgrad h trap sg sh sk stat => Sys2Proof.Machine.execKgrad h trap sg sh sk stat s
  | .hdesc h f sd sh sb => Sys2Proof.Machine.execHdesc h f sd sh sb s
  | .gatherRequestArrival q => Sys2Proof.Machine.execGatherRequestArrival q s
  | .scatterUpdateArrival u => Sys2Proof.Machine.execScatterUpdateArrival u s
  | .xpnd h sp vs vl => Sys2Proof.Machine.execXpnd h sp vs vl s
  | .spanRendezvous team grp => Sys2Proof.Machine.execSpanRendezvous team grp s
  | .xnext h item vd kc sb => Sys2Proof.Machine.execXnext h item vd kc sb s
  | .xstat h f sd => Sys2Proof.Machine.execXstat h f sd s
  | .segred h op vd va => Sys2Proof.Machine.execSegred h op vd va s
  | .xabort h => Sys2Proof.Machine.execXabort h s
  | .enq h close vd va q => Sys2Proof.Machine.execEnq h close vd va q s
  | .enqb h vd va vc b => Sys2Proof.Machine.execEnqb h vd va vc b s
  | .queueAppend o => Sys2Proof.Machine.execQueueAppend o s
  | .qstat h f sd sb => Sys2Proof.Machine.execQstat h f sd sb s
  | .queueClose q => Sys2Proof.Machine.execQueueClose q s
  | .rwr h z peer vb vc bar => Sys2Proof.Machine.execRwr h z peer vb vc bar s
  | .rrd h z peer vb vc bar => Sys2Proof.Machine.execRrd h z peer vb vc bar s
  | .rred h op t z ncon peer vb vc bar => Sys2Proof.Machine.execRred h op t z ncon peer vb vc bar s
  | .rflag h op w64 peer vb vc bar => Sys2Proof.Machine.execRflag h op w64 peer vb vc bar s
  | .csig h f sd sp sr => Sys2Proof.Machine.execCsig h f sd sp sr s
  | .rfence h => Sys2Proof.Machine.execRfence h s
  | .rfenceComplete r => Sys2Proof.Machine.execRfenceComplete r s
  | .csrr h n sd => Sys2Proof.Machine.execCsrr h n sd s
  | .csrw h n sa => Sys2Proof.Machine.execCsrw h n sa s
  | .trap h c => Sys2Proof.Machine.execTrap h c s
  | .brk h c => Sys2Proof.Machine.execBrk h c s
  | .cyc h sd => Sys2Proof.Machine.execCyc h sd s
  | .resultLanding team grp idx => Sys2Proof.Machine.execResultLanding team grp idx s
  | .memoryAccessCompletion o => Sys2Proof.Machine.execMemoryAccessCompletion o s
  | .copyCompletion o => Sys2Proof.Machine.execCopyCompletion o s
  | .matrixAsyncCompletion o => Sys2Proof.Machine.execMatrixAsyncCompletion o s
  | .gatherCompletion o => Sys2Proof.Machine.execGatherCompletion o s
  | .scatrSourceRead o => Sys2Proof.Machine.execScatrSourceRead o s
  | .scatterCompletion o => Sys2Proof.Machine.execScatterCompletion o s
  | .klookGatherCompletion o => Sys2Proof.Machine.execKlookGatherCompletion o s
  | .remoteLocalCompletion o => Sys2Proof.Machine.execRemoteLocalCompletion o s
  | .rrdCompletion o peers => Sys2Proof.Machine.execRrdCompletion o peers s
  | .csigCompletion o peer => Sys2Proof.Machine.execCsigCompletion o peer s
  | .teamStart launch cores => Sys2Proof.Machine.execTeamStart launch cores s
  | .blockDraw team => Sys2Proof.Machine.execBlockDraw team s
  | .blockComplete launch block => Sys2Proof.Machine.execBlockComplete launch block s
  | .staggerExpiry launch island => Sys2Proof.Machine.execStaggerExpiry launch island s
  | .priorityPreemption launch => Sys2Proof.Machine.execPriorityPreemption launch s
  | .partitionReserve core => Sys2Proof.Machine.execPartitionReserve core s
  | .launchCompletion launch => Sys2Proof.Machine.execLaunchCompletion launch s
  | .graphNodeArrival queue => Sys2Proof.Machine.execGraphNodeArrival queue s
  | .preemptionNoticeEnd team => Sys2Proof.Machine.execPreemptionNoticeEnd team s
  | .teamResume team cores => Sys2Proof.Machine.execTeamResume team cores s
  | .invalidationComplete id => Sys2Proof.Machine.execInvalidationComplete id s
  | .ackReceive pkt ans => Sys2Proof.Machine.execAckReceive pkt ans s
  | .retransmitCapture o => Sys2Proof.Machine.execRetransmitCapture o s
  | .remoteWriteArrival a => Sys2Proof.Machine.execRemoteWriteArrival a s
  | .remoteReadArrival a => Sys2Proof.Machine.execRemoteReadArrival a s
  | .remoteFlagArrival a => Sys2Proof.Machine.execRemoteFlagArrival a s
  | .reductionContribution a => Sys2Proof.Machine.execReductionContribution a s
  | .gafferGrant => Sys2Proof.Machine.execGafferGrant s
  | .bringUp => Sys2Proof.Machine.execBringUp s
  | .reservedOpcode w0 => Sys2Proof.Machine.execReservedOpcode w0 s
  | .gatherReplyArrival o pkg pieces => Sys2Proof.Machine.execGatherReplyArrival o pkg pieces s
  | .hdescCompletion o => Sys2Proof.Machine.execHdescCompletion o s
  | .qstatCompletion o => Sys2Proof.Machine.execQstatCompletion o s
  | .csigRequestArrival q => Sys2Proof.Machine.execCsigRequestArrival q s
  | .scrub word => Sys2Proof.Machine.execScrub word s
  | .placeGraph queue ctx addr n => Sys2Proof.Machine.execPlaceGraph queue ctx addr n s
  | .resolveResolved launch seq => Sys2Proof.Machine.execResolveResolved launch seq s
  | .resolveKill launch seq => Sys2Proof.Machine.execResolveKill launch seq s
  | .resolveEnd launch seq => Sys2Proof.Machine.execResolveEnd launch seq s
  | .release launch seq => Sys2Proof.Machine.execRelease launch seq s
  | .preempt t => Sys2Proof.Machine.execPreempt t s
  | .resume t => Sys2Proof.Machine.execResume t s
  | .invalidate ctx lo hi => Sys2Proof.Machine.execInvalidate ctx lo hi s
  | .setPaths peer tiers => Sys2Proof.Machine.execSetPaths peer tiers s
  | .setPkg n => Sys2Proof.Machine.execSetPkg n s
  | .installKey t key => Sys2Proof.Machine.execInstallKey t key s
  | .flitSend link => Sys2Proof.Machine.execFlitSend link s
  | .flitReceive link f => Sys2Proof.Machine.execFlitReceive link f s
  | .linkKeyExhausted link => Sys2Proof.Machine.execLinkKeyExhausted link s
  | .oldKeyErase link => Sys2Proof.Machine.execOldKeyErase link s
  | .channelSpill link vc => Sys2Proof.Machine.execChannelSpill link vc s
  | .channelReinject link vc => Sys2Proof.Machine.execChannelReinject link vc s
  | .retransmitTimeout pkt => Sys2Proof.Machine.execRetransmitTimeout pkt s
  | .pathTimeout peer path => Sys2Proof.Machine.execPathTimeout peer path s
  | .probeSuccess peer path => Sys2Proof.Machine.execProbeSuccess peer path s
  | .peerUnreachable peer => Sys2Proof.Machine.execPeerUnreachable peer s
  | .powerEvent e => Sys2Proof.Machine.execPowerEvent e s
  | .securityAlarm e => Sys2Proof.Machine.execSecurityAlarm e s
  | .functionLevelReset pf => Sys2Proof.Machine.execFunctionLevelReset pf s
  | .packageReset => Sys2Proof.Machine.execPackageReset s
  | .firmwareUpdate img => Sys2Proof.Machine.execFirmwareUpdate img s
  | .manifestReplace m => Sys2Proof.Machine.execManifestReplace m s
  | .spdmRequest req => Sys2Proof.Machine.execSpdmRequest req s
  | .getTdispVersion tdi => Sys2Proof.Machine.execGetTdispVersion tdi s
  | .getTdispCapabilities tdi => Sys2Proof.Machine.execGetTdispCapabilities tdi s
  | .lockInterfaceRequest tdi => Sys2Proof.Machine.execLockInterfaceRequest tdi s
  | .getDeviceInterfaceReport tdi => Sys2Proof.Machine.execGetDeviceInterfaceReport tdi s
  | .getDeviceInterfaceState tdi => Sys2Proof.Machine.execGetDeviceInterfaceState tdi s
  | .startInterfaceRequest tdi => Sys2Proof.Machine.execStartInterfaceRequest tdi s
  | .stopInterfaceRequest tdi => Sys2Proof.Machine.execStopInterfaceRequest tdi s
  | .tdiConfigChange tdi => Sys2Proof.Machine.execTdiConfigChange tdi s
  | .vfFunctionLevelReset vf => Sys2Proof.Machine.execVfFunctionLevelReset vf s

end Sys2Proof.Machine
end

