-- ==== Sys2Proof/Machine/Run.lean ====
section
/-! DEFINITION. What one step of the package does: a split issues, an event comes about, or time passes. Each step takes
one choice, from the agenda that the surroundings hold, or the package's own when the agenda is empty. -/

namespace Sys2Proof.Machine

/-- Time passes by a number of cycles. -/
def State.after (s : State) (n : Nat) : State := { s with now := s.now + n }

/-- An outcome with time moved on. -/
def later (n : Nat) : Host.Outcome State Fault Refusal → Host.Outcome State Fault Refusal
  | .next s => .next (s.after n)
  | .fault f => .fault f
  | .refused r => .refused r

/-- A split's instruction is fetched, decoded and executed (R49); a fetch or decode fault is taken. -/
def issueNow (x : Iss) (s : State) : Host.Outcome State Fault Refusal :=
  match s.fetch x with
  | .fault f => .next (x.takeFetchFault f s)
  | .word bs =>
    let s := { (s.fetchFill x bs.length).modSplit x.r fun y => { y with words := s.unitWords x bs } with sel := some x.r }
    match decodeBytes bs with
    | .instr i => exec i s
    | .illop => .next (x.takeDecodeFault .illop bs s)
    | .illform => .next (x.takeDecodeFault .illform bs s)

/-- The instruction of a split cannot issue in this cycle: an interlock leaves the split where it is (24 R319). -/
def State.stalled (s : State) (r : SRef) : Bool :=
  match s.at? r with
  | none => true
  | some x => match issueNow x s with
    | .next t => (match t.at? r with
      | some y => y.sp.pc == x.sp.pc && y.sp.hold == x.sp.hold && y.sp.readyAt == x.sp.readyAt && y.sp.mask == x.sp.mask
      | none => false)
    | _ => false

/-- A split is its bench's choice: every split before it in the order of R319 cannot issue in this cycle. -/
def State.chosen (s : State) (x : Iss) : Bool :=
  ((s.issueOrder x.tm.core x.bench).takeWhile (· != x.r)).all s.stalled

/-- A split issues when it can and its bench chooses it (24 R319); otherwise the choice passes. -/
def issueStep (r : SRef) (s : State) : Host.Outcome State Fault Refusal :=
  match s.at? r with
  | none => .next s
  | some x => if s.canIssue x && s.chosen x then issueNow x s else .next s

/-- The split that a bench issues next (24 R319). -/
def State.picks (s : State) : List Choice :=
  ((s.teams.filter (·.acting)).map (·.core)).dedup.flatMap fun c => (List.range 4).flatMap fun b =>
    (((s.issueOrder c b).find? (!s.stalled ·)).toList).map .issue

/-- The package's own choice: bring-up first; then one of what may come about, taken in turn as time passes; else time
passes. -/
def State.ownChoice (s : State) : Choice :=
  if s.pkg = .off then .event .bringUp
  else
    let cs := s.picks ++ s.events.map .event ++ s.stopping.map .stopAnswer ++
      (if s.ring.isEmpty then [] else [.ringAct, .ringDone])
    (cs[s.now % cs.length]?).getD (.tick 1)

/-- The host writes bytes of memory: those of the glory region stay as they are (01 R12), and each byte has one name (01
R13). -/
def State.hostWrite (s : State) (pa : Nat) (bs : List Byte) : State :=
  bs.zipIdx.foldl (fun s b => match resolvePa (pa + b.2) with
    | some k => if k / 2 ^ 40 = 2 then s else s.ucWrite k [b.1]
    | none => s) s

/-- An uncorrectable error strikes an ECC word of memory (26 R326). -/
def State.softMem (s : State) (pa : Nat) : State :=
  match resolvePa pa with
  | some k => { s with memBad := if s.memBad.contains (k / 32) then s.memBad else k / 32 :: s.memBad }
  | none => s

/-! ## The management ring (30 R368) -/

/-- The commands of the management ring (Table 30.2). -/
def isCommand : Instr → Bool
  | .placeGraph .. | .resolveResolved .. | .resolveKill .. | .resolveEnd .. | .release .. | .preempt _ | .resume _
  | .invalidate .. | .setPaths .. | .setPkg _ | .installKey .. => true
  | _ => false

/-- An entry is written into the ring. -/
def State.ringWrite (s : State) (seq : Nat) (i : Instr) : State :=
  if isCommand i then { s with ring := s.ring ++ [{ seq := seq, cmd := i, acted := false, wait := none }] } else s

/-- The device acts on the first entry of the ring on which it has not acted; an INVALIDATE's entry waits for its
invalidation. -/
def State.ringAct (s : State) : Host.Outcome State Fault Refusal :=
  match s.ring.find? (!·.acted) with
  | none => .next s
  | some c =>
    let n := (s.ring.takeWhile (·.acted)).length
    let id := s.nextInval
    match exec c.cmd s with
    | .next s => .next { s with ring := s.ring.modify n fun c =>
        { c with acted := true, wait := if s.nextInval = id then none else some id } }
    | o => o

/-- The device completes commands in ring order (R368). -/
def State.ringDone (s : State) : State :=
  match s.ring with
  | [] => s
  | c :: more =>
    if c.acted && !(s.invals.any fun i => c.wait == some i.id) then { s with ring := more }.tell (.cmdDone c.seq) else s

/-! ## Assignments of PF0 (30 R367) -/

/-- A core joins the partition of a virtual function, or of none. -/
def State.assignCore (s : State) (core vf : Nat) : State :=
  if s.pkg = .up ∧ core < 384 ∧ vf ≤ 64 then { s with coreVf := Map.set 0 s.coreVf core vf } else s

/-- A launch queue is assigned to a virtual function, or to none. -/
def State.assignQueue (s : State) (q vf : Nat) : State :=
  if s.pkg = .up ∧ q < 64 ∧ vf ≤ 64 then { s with queueVf := Map.set 0 s.queueVf q vf } else s

/-- A context is set up, or changed, with the function that PF0 assigns it to; not before bring-up has ended, nor in the
recovery state (R377). -/
def State.setContext (s : State) (c : Context) : State :=
  if s.pkg = .up then { s with ctxs := c :: s.ctxs.filter (·.id ≠ c.id) } else s

/-- One choice. -/
def runChoice (c : Choice) (s : State) : Host.Outcome State Fault Refusal :=
  match c with
  | .issue r => later 1 (issueStep r s)
  | .event i => later 1 (exec i s)
  | .tick n => .next (s.after n)
  | .perform o => .next (s.performEarly o)
  | .piece o k => .next (s.performPiece o k)
  | .landPart o i => .next (s.landPart o i)
  | .evictL1 c k => .next (s.evictL1 c k)
  | .evictDc d k => .next (s.evictDc d k)
  | .evictTlb r ctx pg => .next (s.evictTlb r fun e => e.ctx == ctx && pg / 2 ^ e.bits * 2 ^ e.bits == e.base)
  | .hostWrite pa bs => .next (s.hostWrite pa bs)
  | .softMem pa => .next (s.softMem pa)
  | .softScratch t off => .next (s.modTeam t fun x => { x with scrBad := (off / 4) :: x.scrBad })
  | .softReg t g l => .next (s.modGroup t g fun x => { x with badRegs := l :: x.badRegs })
  | .alterRecord t => .next (s.modTeam t fun x => { x with recordOk := false })
  | .setContext c => .next (s.setContext c)
  | .setDemand ws => .next { s with demand := (List.range 16).map fun i => ws.getD i 0 }
  | .ideKey t k => .next (s.agreeIde t k)
  | .queuePacket l vc p => .next (s.queuePacket l vc p)
  | .congest p path on => .next (s.modPeer p (·.mark path on))
  | .portAddr i a => .next (if s.pkg = .up then { s with ports := s.ports.set i (some a) } else s)
  | .tdispOther t => .next (s.tdispOther t)
  | .stopAnswer t => .next (s.stopAnswer t)
  | .ringWrite seq i => .next (s.ringWrite seq i)
  | .ringAct => s.ringAct
  | .ringDone => .next s.ringDone
  | .assignCore c vf => .next (s.assignCore c vf)
  | .assignQueue q vf => .next (s.assignQueue q vf)
  | .bringUpFails n => .next (if 3 ≤ n ∧ n ≤ 5 then { s with badStep := some n } else s)
  | .telemetry => .next s.readTelemetry

/-- One step: the agenda's first choice, or the package's own. -/
def runStep (s : State) : Host.Outcome State Fault Refusal :=
  match s.agenda with
  | c :: rest => runChoice c { s with agenda := rest }
  | [] => runChoice s.ownChoice s

end Sys2Proof.Machine
end

