-- ==== Sys2Proof/Safety.lean ====
section
/-! DEFINITION. The terms that claims use: what a safe run is, the invariants that every step keeps, and the conditions
under which an instruction runs. -/

namespace Sys2Proof.Machine

/-! ## Runs and invariants -/

/-- Memory is in its canonical form: addresses strictly rising and no byte listed as 0, which an unlisted one reads. -/
def Memory.wf (m : Map Byte) : Bool := Map.wf 0 m

/-- A run that ends in no fault and no refusal. -/
def safeRun : Nat → State → Bool
  | 0, _ => true
  | n + 1, s => match step s with
    | .next t => safeRun n t
    | _ => false

/-! ## When an instruction runs -/

/-- The split `x` of `s` issues the instruction `i` with header `h`, and none of the checks of steps 5 to 8 of Table 5.5
stops it (05 R49). -/
def Issues (i : Instr) (h : Hdr) (x : Iss) (s : State) : Prop :=
  s.issuer = some x ∧ ∃ op, i.head = some (h, op) ∧ x.check i h op s = none

/-- `Issues`, with a guard that lets a U instruction take effect (05 R56). -/
def IssuesU (i : Instr) (h : Hdr) (x : Iss) (s : State) : Prop := Issues i h x s ∧ x.g.uGuard x.sp.id h = true

/-- Whenever it issues, the instruction completes with these fixed-latency results and nothing else (05 R57). -/
def Gives (i : Instr) (h : Hdr) (x : Iss) (s : State) (ws : List (Loc × DWord × DWord)) : Prop :=
  Issues i h x s → exec i s = .next (x.result i h ws s)

/-- As `Gives`, for a U instruction whose guard passes. -/
def GivesU (i : Instr) (h : Hdr) (x : Iss) (s : State) (ws : List (Loc × DWord × DWord)) : Prop :=
  IssuesU i h x s → exec i s = .next (x.result i h ws s)

/-- While no trap is enabled, the instruction completes with what each active lane delivers and ORs the lane's flags into
its %flg (10 R130). -/
def FpGives (i : Instr) (h : Hdr) (x : Iss) (s : State) (f : Nat → LaneOut) : Prop :=
  x.g.te = 0 → Gives i h x s ((lanesOf (x.active h)).flatMap fun l => (f l).ws ++ flagW l (f l).fl)

/-- FPTRAP under the default policies (07 R83, 03 R39): with no write of the group in flight, an instruction that would set
an enabled flag in some active lane writes no register and no flag, and the fault record has cause 0x11, item level and
exactly the active lanes that would set an enabled flag. -/
def FpTraps (i : Instr) (h : Hdr) (x : Iss) (s : State) (f : Nat → LaneOut) : Prop :=
  ∀ l0 : Launch, Issues i h x s → s.launch? x.tm.launch = some l0 →
    l0.desc.policy = [.retry, .kparent, .kparent, .kparent, .kparent] → x.g.pend = [] → x.sp.mask ≠ 0 →
    ((lanesOf (x.active h)).any fun l => (f l).fl &&& x.g.te != 0) = true →
    ∃ t g, exec i s = .next t ∧ t.group? x.r.team x.r.grp = some g ∧ (∀ loc, g.file loc = x.g.file loc) ∧ g.pend = [] ∧
      (g.frec.getD 0 0).toNat % 256 = 0x11 ∧ (g.frec.getD 0 0).toNat / 2 ^ 8 % 256 = 0 ∧
      (g.frec.getD 2 0).setWidth 32 = maskBy fun l => (x.active h).getLsbD l && (f l).fl &&& x.g.te != 0

/-- `P` holds of every instruction of class 0x4 with what it delivers in a lane: the result of its operation on the operands
as its type reads them, subnormals as zeros under .FTZ or GCTL.FTZ, rounded once in the field's mode or GCTL's (10 R130 to
R138). -/
def class4Lanes (P : Instr → Hdr → Iss → State → (Nat → LaneOut) → Prop) : Prop :=
  ∀ (h : Hdr) (f : FMod) (d va : Reg) (b : BSrc) (vc : Reg) (x : Iss) (s : State),
    let md := x.g.mode f.rnd
    let fz := f.ftz || x.g.ftz
    let a (l : Nat) : Nat := (x.g.vr x.sp.id (x.eff h va) l).toNat
    let c (l : Nat) : Nat := (x.g.vr x.sp.id (x.eff h vc) l).toNat
    let e (l : Nat) : Nat := (x.b32 h l b).toNat
    let v (n : Nat) : FVal := inF f.ty fz (n % 2 ^ f.ty.bits)
    let p (n i : Nat) : FVal := inF f.ty fz (n / 2 ^ (16 * i) % 2 ^ 16)
    let r := x.eff h d
    P (.fadd h f d va b) h x s (fun l => one r l (addF f.ty md fz (v (a l)) (v (e l)))) ∧
    P (.fsub h f d va b) h x s (fun l => one r l (subF f.ty md fz (v (a l)) (v (e l)))) ∧
    P (.fmul h f d va b) h x s (fun l => one r l (mulF f.ty md fz (v (a l)) (v (e l)))) ∧
    P (.fma h f d va b vc) h x s (fun l => one r l (fmaF f.ty md fz (v (a l)) (v (e l)) (v (c l)))) ∧
    P (.fmin h f d va b) h x s (fun l => one r l (minmaxF f.ty false (flushCode f.ty fz (a l % 2 ^ f.ty.bits))
      (v (a l)) (flushCode f.ty fz (e l % 2 ^ f.ty.bits)) (v (e l)))) ∧
    P (.fmax h f d va b) h x s (fun l => one r l (minmaxF f.ty true (flushCode f.ty fz (a l % 2 ^ f.ty.bits))
      (v (a l)) (flushCode f.ty fz (e l % 2 ^ f.ty.bits)) (v (e l)))) ∧
    (∀ cc, P (.fcmp h f cc d va b) h x s (fun l =>
      oneBit r l (fcmpF cc (v (a l)) (v (e l))).1 (if (fcmpF cc (v (a l)) (v (e l))).2 then fNV else 0))) ∧
    (∀ set, P (.fcls h f set d b) h x s (fun l => oneBit r l (fclsF f.ty set (e l % 2 ^ f.ty.bits)) 0)) ∧
    P (.frnd h f d b) h x s (fun l => one r l (frndF f.ty md fz (e l % 2 ^ f.ty.bits))) ∧
    P (.fscl h f d va b) h x s (fun l => one r l (fsclF f.ty md fz (v (a l)) (x.b32 h l b).toInt)) ∧
    P (.fdot2 h f d va b vc) h x s (fun l =>
      one r l (fdot2F md fz (p (a l) 0) (p (e l) 0) (p (a l) 1) (p (e l) 1) (inF .f32 fz (c l)))) ∧
    P (.pfma h f d va b vc) h x s (fun l =>
      packed r l fun i => fmaF f.ty md fz (p (a l) i) (p (e l) i) (p (c l) i)) ∧
    P (.pfadd h f d va b) h x s (fun l => packed r l fun i => addF f.ty md fz (p (a l) i) (p (e l) i)) ∧
    P (.pfmul h f d va b) h x s (fun l => packed r l fun i => mulF f.ty md fz (p (a l) i) (p (e l) i))

/-- `P` holds of every instruction of class 0x5 with what it delivers in a lane (10 R139 to R145); the approximate functions'
choice within their bound is free (log entry 3). -/
def class5Lanes (P : Instr → Hdr → Iss → State → (Nat → LaneOut) → Prop) : Prop :=
  ∀ (h : Hdr) (f : FMod) (t : ElemTy) (rnd : RndCode) (sat ftz p2 : Bool) (d va : Reg) (b : BSrc) (x : Iss) (s : State),
    let r := x.eff h d
    let e (l : Nat) : Nat := (x.b32 h l b).toNat
    let a (l : Nat) : Nat := (x.g.vr x.sp.id (x.eff h va) l).toNat
    let fz := f.ftz || x.g.ftz
    let v (n : Nat) : FVal := inF f.ty fz (n % 2 ^ f.ty.bits)
    (∀ ts, P (.cvt h t sat rnd ts ftz d b) h x s (fun l =>
      let q := cvtF t ts (x.g.mode rnd) sat (ftz || (x.g.ftz && t.inF && ts.inF)) (x.bE h ts b l).toNat
      ⟨elemW t r (1#32 <<< l) (fun _ => BitVec.ofNat 64 q.bits), q.fl⟩)) ∧
    P (.cvtr h t sat d va b) h x s (fun l => one r l (cvtrF t sat (e l % 2 ^ 16) (decodeF .f32 (a l)))) ∧
    P (.frcp h ftz d b) h x s (fun l => one r l (frcpF (ftz || x.g.ftz) (e l))) ∧
    P (.frsq h ftz d b) h x s (fun l => one r l (frsqF (ftz || x.g.ftz) (e l))) ∧
    P (.fex2 h ftz d b) h x s (fun l => one r l (fex2F (ftz || x.g.ftz) (e l))) ∧
    P (.flg2 h ftz d b) h x s (fun l => one r l (flg2F (ftz || x.g.ftz) (e l))) ∧
    P (.fsin h ftz d b) h x s (fun l => one r l (trigF false (ftz || x.g.ftz) (e l))) ∧
    P (.fcos h ftz d b) h x s (fun l => one r l (trigF true (ftz || x.g.ftz) (e l))) ∧
    P (.fdiv h f d va b) h x s (fun l => one r l (divF f.ty (x.g.mode f.rnd) false fz (v (a l)) (v (e l)))) ∧
    P (.fsqrt h f d b) h x s (fun l => one r l (sqrtF f.ty (x.g.mode f.rnd) fz (v (e l)))) ∧
    P (.qscl h p2 t d b) h x s (fun l => one r l (qsclF t p2 (e l))) ∧
    P (.qpack h rnd t d va b) h x s (fun l =>
      let q := (List.range (qCount t)).map fun i =>
        qpackF t (x.g.mode rnd) (x.g.vr x.sp.id (x.eff h va + i) l).toNat (e l)
      ⟨[(.v r l, ones, BitVec.ofNat 64 (packFields t (q.map (·.bits))))], q.foldl (· ||| ·.fl) 0⟩) ∧
    P (.qunp h rnd t d va b) h x s (fun l =>
      let q := (fieldsOf t (a l)).map fun y => qunpF t (x.g.mode rnd) y (e l)
      ⟨(q.zip (List.range q.length)).map fun y => (.v (r + y.2) l, ones, BitVec.ofNat 64 y.1.bits),
       q.foldl (· ||| ·.fl) 0⟩) ∧
    P (.rnsenc h t d b) h x s (fun l => one r l ⟨rx3Of (intVal t (e l)), 0⟩) ∧
    P (.rnsdec h d b) h x s (fun l => one r l ⟨intCode .s32 (rx3Val (e l)), 0⟩)

/-- The issuing split is alone in its group, hangs below no join record (03 R32), and is not about to go on at the refill
point (03 R27). -/
def Iss.lone (x : Iss) : Prop := x.g.splits = [x.sp] ∧ x.sp.parent = none ∧ x.sp.leave = none

/-- A split of a running team that is found where its reference says, in a group that lists it once. -/
def Iss.inPlace (x : Iss) (s : State) : Prop := s.at? x.r = some x

/-- None of the split's fixed-latency results has landed while its stall distance is still open (05 R57, R58). -/
def Iss.unlanded (x : Iss) : Prop := ∀ e ∈ x.g.pend, e.split = x.sp.id → e.landed = false

/-- Of the whole state only one group has changed, and it is now `g`. -/
def OnlyGroup (r : SRef) (g : Group) (s t : State) : Prop :=
  t = { s with teams := t.teams } ∧
  (∀ k, k ≠ r.team → t.team? k = s.team? k) ∧
  ∃ tm tm', s.team? r.team = some tm ∧ t.team? r.team = some tm' ∧ tm' = { tm with groups := tm'.groups } ∧
    (∀ k, k ≠ r.grp → tm'.group? k = tm.group? k) ∧ tm'.group? r.grp = some g

/-! ## Operations that are issued -/

/-- Every active lane reaches its bytes without a fault, and no race record of another group conflicts (14 R199, 12
R183). -/
def Iss.reaches (x : Iss) (h : Hdr) (s : State) (plain wr : Bool) (reach : Nat → Except LFault Where)
    (w : Nat → Where) : Prop :=
  ∀ l ∈ lanesOf (x.active h), reach l = .ok (w l) ∧ (plain = true → x.raceHit s (w l) wr = none)

/-- A counted instruction of the lone split is complete at issue: one operation, of which `P` holds, is the newest of the
group and of its counters, the split stands at the next instruction, and no register, no byte of memory and no other
group has changed (14 R195, R208). -/
def EntersOp (i : Instr) (h : Hdr) (x : Iss) (s : State) (ns : List Nat) (P : Op → Prop) : Prop :=
  ∃ t g o y, exec i s = .next t ∧ t.mem = s.mem ∧ t.group? x.r.team x.r.grp = some g ∧
    (∀ a b, (a, b) ≠ (x.r.team, x.r.grp) → t.group? a b = s.group? a b) ∧
    g.ops = x.g.ops ++ [o] ∧ o.id = x.g.nextOp ∧ o.done = false ∧ P o ∧
    g.ctrs = ns.foldl (fun c n => c.modify n (· ++ [(x.g.nextOp, false)])) x.g.ctrs ∧ (∀ loc, g.file loc = x.g.file loc) ∧
    g.splits = [y] ∧ y.mask = x.sp.mask ∧ y.pc = x.next h ∧ y.hold = .run

/-- An access of classes 0x8 and 0x9 enters, with its order and scope. -/
def Enters (i : Instr) (h : Hdr) (x : Iss) (s : State) (kind : OpKind) (n : Nat) (ord : Order) (sc : Scope) : Prop :=
  EntersOp i h x s [n] fun o => o.kind = kind ∧ o.ord = ord ∧ o.scope = sc ∧ o.engine = false

/-- A lone split in place that is not answering a RETRY, with room on its counters and in the dependency checker for an
engine operation. -/
def Iss.mayEngine (x : Iss) (s : State) (ns : List Nat) : Prop :=
  x.inPlace s ∧ x.lone ∧ x.sp.only = none ∧ x.g.full ns true = false

/-- A lone split in place that is not answering a RETRY, with active lanes and room on a counter. -/
def Iss.mayEnter (x : Iss) (h : Hdr) (s : State) (n : Nat) : Prop :=
  x.inPlace s ∧ x.lone ∧ x.sp.only = none ∧ x.active h ≠ 0 ∧ x.g.full [n] false = false

/-- An interlocked instruction of the lone split is complete: nothing is in flight for it, memory is as before, the split
stands at the next instruction, and `P` holds of the state and of the group (16 R230); of the operations in flight at most
which of their results have been overtaken has changed (05 R57). -/
def Completes (i : Instr) (h : Hdr) (x : Iss) (s : State) (P : State → Group → Prop) : Prop :=
  ∃ t g y, exec i s = .next t ∧ t.mem = s.mem ∧ t.group? x.r.team x.r.grp = some g ∧
    (∃ f : Op → List (Loc × DWord), g.ops = x.g.ops.map fun o => { o with skip := f o }) ∧ g.splits = [y] ∧ y.mask = x.sp.mask ∧ y.pc = x.next h ∧ y.hold = .run ∧ P t g

/-- An element of an accumulator tile. -/
def Loc.isTile : Loc → Bool
  | .a _ _ => true
  | _ => false

/-- Every register and flag of a group, but for the elements of its tiles, is as in another. -/
def Group.regsAs (g g0 : Group) : Prop := ∀ loc, loc.isTile = false → g.file loc = g0.file loc

/-- The device's write of some bytes at a virtual address stores a byte at the place `pa`: one of the pieces it is cut into
has `pa` among its bytes, at the place that the piece has when its turn comes. -/
def State.devStores (s : State) (ctx va : Nat) (bs : List Byte) (pa : Nat) : Prop :=
  ∃ pre c post k, lineCuts va bs = pre ++ c :: post ∧
    (pre.foldl (fun s c => s.devPut ctx c) s).devPlace ctx c.1 = some k ∧ k ≤ pa ∧ pa < k + c.2.length

/-! ## The caches -/

/-- The package has its four compute dies; every L1 and die cache is in canonical form, and every dirty byte of a line is
valid (01 R9, 12 R164, R166). -/
def State.cacheOk (s : State) : Prop :=
  s.dies.length = 4 ∧
  (∀ c, Map.wf Line.none (s.core c).l1 = true) ∧ (∀ d, Map.wf Line.none (s.die d).dc = true) ∧
  (∀ c k, (lineOf (s.core c).l1 k).dirty &&& ~~~(lineOf (s.core c).l1 k).valid = 0) ∧
  (∀ d k, (lineOf (s.die d).dc k).dirty &&& ~~~(lineOf (s.die d).dc k).valid = 0)

end Sys2Proof.Machine
end

