-- ==== Sys2Proof/Certificates/Slice0/Obligations.lean ====
section
/-! DEFINITION. The statements for the provers. Each says what the specification, or where its docstring says so this
model, requires of the machine. -/

open Sys2Proof Sys2Proof.Machine

/-- Words that the spec prints, or that follow from its tables, decode to the instruction they stand for, and illegal words
are refused with the cause that the spec gives. -/
def Obligations.WordsOfTheSpecDecode : Prop :=
  decodeWords 0 0 0 0 0 = .instr (.nop ⟨.w1, 0, 0, false, 0⟩) ∧
  decodeWords 0x00040020 0 0 0 0 = .instr (.refill ⟨.w1, 0, 0, false, 0⟩ 1) ∧
  decodeWords 0x00080009 0x00080006 0 0 0 = .instr (.brc ⟨.w2, 0, 0, false, 0⟩ (.lane 2 false) 8 6) ∧
  decodeWords 0x29080040 0 0 0 0 = .instr (.smovImm6 ⟨.w1, 0, 0, false, 0⟩ 66 10) ∧
  decodeWords 0x30080CFA 0x80020001 0 0 0 =
    .instr (.cmp ⟨.w3, 3, 0, false, 0⟩ .lt false .s32 ⟨2, false⟩ ⟨1, false⟩ (.imm 0)) ∧
  decodeWords 0x30280086 0x8000000B 0x3E8 0 0 =
    .instr (.add ⟨.w3, 0, 0, false, 0⟩ .s32 ⟨10, false⟩ ⟨11, false⟩ (.imm 1000)) ∧
  decodeWords 0x10127101 0x14000605 0 0 0 =
    .instr (.fadd ⟨.w2, 4, 3, true, 1⟩ ⟨.f32, .rn, false⟩ ⟨4, false⟩ ⟨5, false⟩ (.vec ⟨6, true⟩)) ∧
  decodeWords 0x00145DD1 0x00000001 0 0 0 =
    .instr (.scan ⟨.w2, 7, 2, false, 0⟩ false .add false ⟨5, false⟩ ⟨1, false⟩) ∧
  decodeWords 0x10080202 0x00000704 0x00010080 0 0 =
    .instr (.ld ⟨.w3, 0, 0, false, 0⟩ 4 false ⟨2, false⟩ ⟨⟨4, false⟩, ⟨7, false⟩, .sv, 16, .grp, false, 2, .rlx⟩) ∧
  decodeWords 0x38000254 0 0 0 0 = .instr (.fence ⟨.w1, 0, 0, false, 0⟩ .rel .pkg) ∧
  decodeWords 0x000002A1 0x80000000 0 0 0 = .instr (.waitn ⟨.w2, 0, 0, false, 0⟩ 0 (.imm 0)) ∧
  decodeWords 0x000802A6 0x40000000 0x00000001 0 0 = .instr (.trig ⟨.w3, 0, 0, false, 0⟩ (.ctr 2) (.imm 1)) ∧
  decodeWords 0x200002C1 0x00081800 0 0 0 =
    .instr (.mma ⟨.w2, 0, 0, false, 0⟩ false .s8 .s8 .wide ⟨0, false⟩ ⟨0, false⟩ ⟨24, false⟩) ∧
  decodeWords 0x000000BD 0 0 0 0 = .instr (.reservedOpcode 0x000000BD) ∧
  decodeWords 0x000200BD 0 0 0 0 = .instr (.reservedOpcode 0x000200BD) ∧
  decodeWords 0x30000084 0 0 0 0 = .illform ∧
  decodeWords 0x30280085 0xC0000605 0 0 0 = .illop ∧
  decodeWords 0x30280085 0x00030605 0 0 0 = .illop ∧
  decodeWords 0x30280085 0x8000000B 0 0 0 = .illform ∧
  decodeWords 0x1C127101 0x14000605 0 0 0 = .illop ∧
  decodeWords 0x10127101 0xD4000605 0 0 0 = .illop ∧
  decodeWords 0x10127100 0 0 0 0 = .illform

/-- Every well-formed instruction is read back from its words; five words at most, the missing ones zero. -/
def Obligations.EncodeThenDecodeIsIdentity : Prop :=
  ∀ i : Instr, i.wellFormed = true →
    decodeWords (i.encode.getD 0 0) (i.encode.getD 1 0) (i.encode.getD 2 0) (i.encode.getD 3 0) (i.encode.getD 4 0) =
      .instr i

/-- Decoding answers well-formed instructions only, and their encoding is the words they were read from. -/
def Obligations.DecodedWordsAreTheEncoding : Prop :=
  ∀ (w0 w1 w2 w3 w4 : Word) (i : Instr), decodeWords w0 w1 w2 w3 w4 = .instr i → i ≠ .reservedOpcode w0 →
    i.wellFormed = true ∧ i.encode = [w0, w1, w2, w3, w4].take (wordsOf w0)

/-- A step runs the decoded instruction of the split that the agenda names, or the agenda's event. The agenda and the one
cycle per step are the model's own (log entries 1 and 65). -/
def Obligations.StepRunsTheDecodedInstruction : Prop :=
  (∀ (s : State) (r : SRef) (rest : List Choice) (x : Iss) (bs : List Byte) (i : Instr),
    let s0 := { s with agenda := rest }
    s.agenda = .issue r :: rest → s0.at? r = some x → s0.canIssue x = true → s0.chosen x = true → s0.fetch x = .word bs →
    decodeBytes bs = .instr i →
    let s1 := { ((s0.fetchFill x bs.length).modSplit r fun y => { y with words := s0.unitWords x bs }) with sel := some r }
    step s = match exec i s1 with
      | .next t => .next { t with now := t.now + 1 }
      | .fault f => .fault f
      | .refused q => .refused q) ∧
  (∀ (s : State) (i : Instr) (rest : List Choice), s.agenda = .event i :: rest →
    step s = match exec i { s with agenda := rest } with
      | .next t => .next { t with now := t.now + 1 }
      | .fault f => .fault f
      | .refused q => .refused q)

/-- Under the never guard every machine instruction only passes (Table 5.5, step 5). -/
def Obligations.NeverGuardLeavesOnlyTheIssueSlot : Prop :=
  (∀ (i : Instr) (h : Hdr) (op : Nat) (x : Iss) (s : State),
    i.head = some (h, op) → op ≠ 0xA9 → s.issuer = some x → h.g = 0 → h.gn = true →
    exec i s = .next (x.pass h false s)) ∧
  (∀ (h : Hdr) (c : TrigCond) (t : TrigThr) (x : Iss) (s : State) (bs : List Byte) (i2 : Instr) (h2 : Hdr) (op2 : Nat),
    s.issuer = some x → h.g = 0 → h.gn = true → s.fetch (x.follow h) = .word bs →
    trigTarget bs = some (.ok (i2, h2, op2)) →
    exec (.trig h c t) s = .next (s.modG x.r fun g =>
      ((g.consume s.now x.sp.id h.st.toNat false).consume (s.now + h.st.toNat + 1) x.sp.id h2.st.toNat false).move s.now
        x.sp.id (x.next h + BitVec.ofNat 64 (4 * h2.len.words)) .seq))

/-- Steps 6 to 8 of Table 5.5 for every machine instruction: the first check that fails is the fault that is taken. -/
def Obligations.IssueChecksRaiseGroupFaults : Prop :=
  ∀ (i : Instr) (h : Hdr) (op : Nat) (x : Iss) (s : State),
    i.head = some (h, op) → op ≠ 0xA9 → s.issuer = some x → h.never = false →
    (opKind op = .c → (x.g.splits.length ≠ 1 ∨ x.g.joins ≠ []) → exec i s = .next (x.groupFault h .converge 0 s)) ∧
    (needsK0 op = true → h.g ≠ 0 → exec i s = .next (x.groupFault h .converge 0 s)) ∧
    (convergeOk op h x.g = true → ∀ o ∈ i.opnds, (o.cls = .v ∨ o.cls = .a ∨ o.reg.num.toNat < 64) →
      (allot (x.kern s) o.cls < x.g.eff x.sp.id h.xs o.reg + o.cnt ∨
        (2 ≤ o.al ∧ x.g.eff x.sp.id h.xs o.reg % o.al ≠ 0)) →
      exec i s = .next (x.groupFault h .regbound 0 s)) ∧
    (convergeOk op h x.g = true → i.opnds.all (x.g.boundOk (x.kern s) x.sp.id h.xs) = true → i.slotReg = none →
      i.slotOpnds 0 = [] → x.g.gctl.getLsbD 0 = true →
      (∃ e ∈ x.g.score, e.split = x.sp.id ∧ e.dist ≠ 0 ∧ (e.cls, e.reg) ∈ x.g.touches x.sp.id h.xs i.opnds) →
      exec i s = .next (x.groupFault h .stallshort 0 s))

/-- What a fixed-latency completion does, and all that it does. -/
def Obligations.ResultsEnterOnlyTheIssuingGroup : Prop :=
  ∀ (i : Instr) (h : Hdr) (x : Iss) (ws : List (Loc × DWord × DWord)) (s : State),
    x.inPlace s → x.lone → x.unlanded →
    ∃ g : Group, OnlyGroup x.r g s (x.result i h ws s) ∧
      g = { x.g with splits := g.splits, pend := g.pend, score := g.score, badRegs := g.badRegs } ∧
      g.splits = [{ x.sp with
        pc := x.next h, arrivedBy := .seq, only := none, hold := .run, words := 0, bar := none, leave := none
        readyAt := s.now + h.st.toNat + 1, issuedAt := s.now, loud := x.sp.loud || ws.any (x.g.changes x.sp.id) }] ∧
      (∀ loc, loc ≠ .k 0 → g.newest x.sp.id loc =
        (ws.filter (·.1 = loc)).foldl
          (fun v w => (v &&& ~~~(w.2.1 &&& loc.width)) ||| (w.2.2 &&& w.2.1 &&& loc.width)) (x.g.newest x.sp.id loc)) ∧
      g.newest x.sp.id (.k 0) = x.g.newest x.sp.id (.k 0)

/-- A premature read returns the value from before the instruction (R58). -/
def Obligations.PrematureReadGivesTheOldValue : Prop :=
  ∀ (i : Instr) (h : Hdr) (x : Iss) (loc : Loc) (m v : DWord) (s : State),
    x.inPlace s → x.lone → (∀ e ∈ x.g.pend, e.loc ≠ loc) → loc ≠ .k 0 →
    ∃ g : Group, (x.result i h [(loc, m, v)] s).group? x.r.team x.r.grp = some g ∧
      g.rd x.sp.id loc =
        if h.st.toNat + 1 < lat i then x.g.file loc
        else (x.g.file loc &&& ~~~(m &&& loc.width)) ||| (v &&& (m &&& loc.width))

/-- k0 reads as all ones and takes no write (R54). -/
def Obligations.K0IsHardWired : Prop :=
  (∀ g : Group, g.file (.k 0) = 0xFFFFFFFF) ∧
  (∀ (g : Group) (sp : Nat), (∀ e ∈ g.pend, e.loc ≠ .k 0) → g.kr sp 0 = 0xFFFFFFFF) ∧
  (∀ (g : Group) (m v : DWord), g.setFile (.k 0) m v = g) ∧
  (∀ (i : Instr) (h : Hdr) (x : Iss) (ws : List (Loc × DWord × DWord)) (s : State),
    x.result i h ws s = x.result i h (ws.filter (·.1 ≠ .k 0)) s) ∧
  (∀ (g : Group) (now sp lat : Nat) (ds : List (Nat × Nat)) (ws : List (Loc × DWord × DWord)),
    (∀ e ∈ g.pend, e.loc ≠ .k 0) → ∀ e ∈ (g.enter now sp lat ds ws).pend, e.loc ≠ .k 0)

/-- The scalar instructions of Table 9.4 and SMOV complete with one result each. -/
def Obligations.ScalarInstructionsWriteTheirValue : Prop :=
  ∀ (h : Hdr) (x : Iss) (s : State),
    (∀ sd v, GivesU (.smovImm6 h sd v) h x s [(.s sd.toNat, ones, v.signExtend 64)]) ∧
    (∀ sd b, GivesU (.smov h sd (.src b)) h x s [(.s (x.eff h sd), ones, x.sB h b)]) ∧
    (∀ sd, GivesU (.smov h sd (.special 0x0A)) h x s
      [(.s (x.eff h sd), ones, BitVec.ofNat 64 (s.now - (s.core x.tm.core).resetAt))]) ∧
    (∀ sd n, n ≠ 0x0A → GivesU (.smov h sd (.special n)) h x s
      [(.s (x.eff h sd), ones, (x.special s n.toNat 0).setWidth 64)]) ∧
    (∀ sd sa b, GivesU (.sadd h sd sa b) h x s [(.s (x.eff h sd), ones, x.sR h sa + x.sB h b)]) ∧
    (∀ sd sa b, GivesU (.ssub h sd sa b) h x s [(.s (x.eff h sd), ones, x.sR h sa - x.sB h b)]) ∧
    (∀ sd sa b, GivesU (.smul h .lo sd sa b) h x s [(.s (x.eff h sd), ones, x.sR h sa * x.sB h b)]) ∧
    (∀ sd sa b, GivesU (.smul h .hi sd sa b) h x s
      [(.s (x.eff h sd), ones, BitVec.ofInt 64 ((x.sR h sa).toInt * (x.sB h b).toInt / 2 ^ 64))]) ∧
    (∀ sd sa b, GivesU (.smul h .hiu sd sa b) h x s
      [(.s (x.eff h sd), ones, BitVec.ofNat 64 ((x.sR h sa).toNat * (x.sB h b).toNat / 2 ^ 64))]) ∧
    (∀ sd sa sb sc, GivesU (.smad h sd sa sb sc) h x s
      [(.s (x.eff h sd), ones, x.sR h sa * x.sR h sb + x.sR h sc)]) ∧
    (∀ sd sa b, GivesU (.sand h sd sa b) h x s [(.s (x.eff h sd), ones, x.sR h sa &&& x.sB h b)]) ∧
    (∀ sd sa b, GivesU (.sor h sd sa b) h x s [(.s (x.eff h sd), ones, x.sR h sa ||| x.sB h b)]) ∧
    (∀ sd sa b, GivesU (.sxor h sd sa b) h x s [(.s (x.eff h sd), ones, x.sR h sa ^^^ x.sB h b)]) ∧
    (∀ sd sa b, GivesU (.sshl h sd sa b) h x s
      [(.s (x.eff h sd), ones, if (x.sB h b).toNat < 64 then BitVec.ofNat 64 ((x.sR h sa).toNat * 2 ^ (x.sB h b).toNat) else 0)]) ∧
    (∀ sd sa b, GivesU (.sshr h sd sa b) h x s
      [(.s (x.eff h sd), ones, if (x.sB h b).toNat < 64 then BitVec.ofNat 64 ((x.sR h sa).toNat / 2 ^ (x.sB h b).toNat) else 0)]) ∧
    (∀ sd sa b, GivesU (.ssar h sd sa b) h x s
      [(.s (x.eff h sd), ones, BitVec.ofInt 64 ((x.sR h sa).toInt / 2 ^ min (x.sB h b).toNat 63))]) ∧
    (∀ sd sa sb kc, GivesU (.ssel h sd sa sb kc) h x s
      [(.s (x.eff h sd), ones, if x.kR h kc ≠ 0 then x.sR h sa else x.sR h sb)]) ∧
    (∀ w64 sd va b, GivesU (.srdv h w64 sd va b) h x s
      [(.s (x.eff h sd), ones,
        if x.g.occ.getLsbD ((x.sB h b).toNat % 32) then x.vW h w64 va ((x.sB h b).toNat % 32) else 0)]) ∧
    (∀ cc kd sa b, GivesU (.scmp h cc kd sa b) h x s
      [(.k (x.eff h kd), 0xFFFFFFFF, if scmpHolds cc (x.sR h sa) (x.sB h b) then 0xFFFFFFFF else 0)])

/-- SDIV by the cases of Table 9.6. -/
def Obligations.ScalarDivisionEdgeCases : Prop :=
  (∀ (h : Hdr) (x : Iss) (s : State) (u rem : Bool) (sd sa : Reg) (b : SSrc),
    GivesU (.sdiv h u rem sd sa b) h x s [(.s (x.eff h sd), ones, sdivVal u rem (x.sR h sa) (x.sB h b))]) ∧
  (∀ (u : Bool) (a : DWord), sdivVal u false a 0 = 0xFFFFFFFFFFFFFFFF ∧ sdivVal u true a 0 = a) ∧
  sdivVal false false 0x8000000000000000 0xFFFFFFFFFFFFFFFF = 0x8000000000000000 ∧
  sdivVal false true 0x8000000000000000 0xFFFFFFFFFFFFFFFF = 0 ∧
  (∀ a b : DWord, b ≠ 0 → sdivVal true false a b = a / b ∧ sdivVal true true a b = a % b) ∧
  (∀ a b : DWord, b ≠ 0 → a = b * sdivVal false false a b + sdivVal false true a b) ∧
  (∀ a b : DWord, b ≠ 0 →
    (sdivVal false true a b).toInt.natAbs < b.toInt.natAbs ∧
    ((sdivVal false true a b).toInt = 0 ∨ ((sdivVal false true a b).toInt < 0 ↔ a.toInt < 0)))

/-- The instructions of class 0x2, but ADC and SBB, complete with their element in every active lane. -/
def Obligations.VectorIntegerInstructionsWriteActiveLanes : Prop :=
  ∀ (h : Hdr) (t : ElemTy) (vd : Reg) (x : Iss) (s : State),
    (∀ b, Gives (.mov h t vd (.src b)) h x s (elemW t (x.eff h vd) (x.active h) fun l => x.bE h t b l)) ∧
    (∀ v, Gives (.mov h t vd (.lit v)) h x s (elemW t (x.eff h vd) (x.active h) fun _ => v)) ∧
    (∀ n, Gives (.mov h t vd (.special n)) h x s (elemW t (x.eff h vd) (x.active h) fun l =>
      if t.is64 then x.cyc s else (x.special s n.toNat l).setWidth 64)) ∧
    (∀ va b, Gives (.add h t vd va b) h x s (elemW t (x.eff h vd) (x.active h) fun l =>
      intElem2 t (fun a b => a + b) (x.vE h t va l) (x.bE h t b l))) ∧
    (∀ va b, Gives (.sub h t vd va b) h x s (elemW t (x.eff h vd) (x.active h) fun l =>
      intElem2 t (fun a b => a - b) (x.vE h t va l) (x.bE h t b l))) ∧
    (∀ va b, Gives (.mulh h t vd va b) h x s (elemW t (x.eff h vd) (x.active h) fun l =>
      intElem2 t (fun a b => a * b / 2 ^ t.bits) (x.vE h t va l) (x.bE h t b l))) ∧
    (∀ va b, Gives (.min h t vd va b) h x s (elemW t (x.eff h vd) (x.active h) fun l =>
      intElem2 t (fun a b => if a ≤ b then a else b) (x.vE h t va l) (x.bE h t b l))) ∧
    (∀ va b, Gives (.max h t vd va b) h x s (elemW t (x.eff h vd) (x.active h) fun l =>
      intElem2 t (fun a b => if a ≤ b then b else a) (x.vE h t va l) (x.bE h t b l))) ∧
    (∀ va b, Gives (.addsat h t vd va b) h x s (elemW t (x.eff h vd) (x.active h) fun l =>
      intElem2 t (fun a b => clampInt t (a + b)) (x.vE h t va l) (x.bE h t b l))) ∧
    (∀ va b, Gives (.subsat h t vd va b) h x s (elemW t (x.eff h vd) (x.active h) fun l =>
      intElem2 t (fun a b => clampInt t (a - b)) (x.vE h t va l) (x.bE h t b l))) ∧
    (∀ b, Gives (.abs h false t vd b) h x s (elemW t (x.eff h vd) (x.active h) fun l =>
      intElem1 t (fun v => v.natAbs) (x.bE h t b l))) ∧
    (∀ b, Gives (.abs h true t vd b) h x s (elemW t (x.eff h vd) (x.active h) fun l =>
      intElem1 t (fun v => min (v.natAbs : Int) (intMax t)) (x.bE h t b l))) ∧
    (∀ b, Gives (.neg h false t vd b) h x s (elemW t (x.eff h vd) (x.active h) fun l =>
      intElem1 t (fun v => -v) (x.bE h t b l))) ∧
    (∀ b, Gives (.neg h true t vd b) h x s (elemW t (x.eff h vd) (x.active h) fun l =>
      intElem1 t (fun v => min (-v) (intMax t)) (x.bE h t b l))) ∧
    (∀ wide va b, Gives (.mul h wide t vd va b) h x s (elemW (wideTy wide t) (x.eff h vd) (x.active h) fun l =>
      BitVec.ofNat 64 (intCode (wideTy wide t) (intVal t (x.vE h t va l).toNat * intVal t (x.bE h t b l).toNat)))) ∧
    (∀ wide va b vc, Gives (.mad h wide t vd va b vc) h x s (elemW (wideTy wide t) (x.eff h vd) (x.active h) fun l =>
      BitVec.ofNat 64 (intCode (wideTy wide t) (intVal t (x.vE h t va l).toNat * intVal t (x.bE h t b l).toNat +
        intVal (wideTy wide t) (x.vE h (wideTy wide t) vc l).toNat)))) ∧
    (∀ va b sh, Gives (.lea h t vd va b sh) h x s (pairW (x.eff h vd) (x.active h) fun l =>
      x.b64 h true l b + BitVec.ofInt 64 (intVal t (x.vE h t va l).toNat * 2 ^ sh.toNat)))

/-- What `intElem2` and the product of MUL, as `VectorIntegerInstructionsWriteActiveLanes` gives it, compute, by type. -/
def Obligations.IntegerElementsAreModular : Prop :=
  (∀ a b : DWord, intElem2 .z64 (fun a b => a + b) a b = a + b ∧ intElem2 .s64 (fun a b => a + b) a b = a + b ∧
    intElem2 .z64 (fun a b => a - b) a b = a - b ∧ intElem2 .s64 (fun a b => a - b) a b = a - b) ∧
  (∀ a b : DWord,
    (∀ t ∈ [ElemTy.s32, .z32], intElem2 t (fun a b => a + b) a b = ((a + b).setWidth 32).setWidth 64 ∧
      intElem2 t (fun a b => a - b) a b = ((a - b).setWidth 32).setWidth 64) ∧
    (∀ t ∈ [ElemTy.s16, .z16], intElem2 t (fun a b => a + b) a b = ((a + b).setWidth 16).setWidth 64 ∧
      intElem2 t (fun a b => a - b) a b = ((a - b).setWidth 16).setWidth 64) ∧
    (∀ t ∈ [ElemTy.s16, .z16, .s32, .z32, .s64, .z64],
      BitVec.ofNat 64 (intCode t (intVal t a.toNat * intVal t b.toNat)) = ((a * b).setWidth t.bits).setWidth 64)) ∧
  (∀ (t : ElemTy) (f : Int → Int → Int) (a b : DWord) (i : Nat), t ∈ [ElemTy.s8, .z8, .s4, .z4] → i < 32 / t.bits →
    (intElem2 t f a b).toNat / 2 ^ (t.bits * i) % 2 ^ t.bits =
      intCode t (f (intVal t (a.toNat / 2 ^ (t.bits * i) % 2 ^ t.bits)) (intVal t (b.toNat / 2 ^ (t.bits * i) % 2 ^ t.bits)))) ∧
  (∀ (t : ElemTy) (v : Int), t ∈ [ElemTy.s4, .z4, .s8, .z8, .s16, .z16, .s32, .z32, .s64, .z64] →
    intVal t (intCode t (clampInt t v)) = max (intMin t) (min v (intMax t)))

/-- ADC and SBB (R122). -/
def Obligations.AdcAndSbbCarryThroughTheMask : Prop :=
  (∀ (h : Hdr) (t : ElemTy) (vd va : Reg) (b : BSrc) (kc : Reg) (x : Iss) (s : State), t ∈ [ElemTy.s32, .z32, .s64, .z64] →
    let n := t.bits
    let a (l : Nat) : Int := (x.vE h t va l).toNat % 2 ^ n
    let c (l : Nat) : Int := (x.bE h t b l).toNat % 2 ^ n
    let k (l : Nat) : Int := if (x.kR h kc).getLsbD l then 1 else 0
    Gives (.adc h t vd va b kc) h x s
      (elemW t (x.eff h vd) (x.active h) (fun l => BitVec.ofInt 64 ((a l + c l + k l) % 2 ^ n)) ++
        maskW (x.eff h kc) (x.active h) (maskBy fun l => (x.active h).getLsbD l && decide (2 ^ n ≤ a l + c l + k l))) ∧
    Gives (.sbb h t vd va b kc) h x s
      (elemW t (x.eff h vd) (x.active h) (fun l => BitVec.ofInt 64 ((a l - c l - k l) % 2 ^ n)) ++
        maskW (x.eff h kc) (x.active h) (maskBy fun l => (x.active h).getLsbD l && decide (a l - c l - k l < 0))) ∧
    lat (.adc h t vd va b kc) = 4 ∧ lat (.sbb h t vd va b kc) = 4) ∧
  (∀ (n : Nat) (act v : Word) (l : Nat), l < 32 → act.getLsbD l = false →
    ∀ w ∈ maskW n act v, w.2.1.getLsbD l = false)

/-- The instructions of class 0x3, but BFE and BFI, complete with their result in every active lane. -/
def Obligations.LogicAndShiftsPerActiveLane : Prop :=
  ∀ (h : Hdr) (t : ElemTy) (vd : Reg) (x : Iss) (s : State),
    let n := t.bits
    let a (va : Reg) (l : Nat) : Nat := (x.vE h t va l).toNat % 2 ^ n
    let e (b : BSrc) (l : Nat) : Nat := (x.bE h t b l).toNat % 2 ^ n
    let c (b : BSrc) (l : Nat) : Nat := (x.b32 h l b).toNat
    let res (i : Instr) (f : Nat → DWord) : Prop := Gives i h x s (elemW t (x.eff h vd) (x.active h) f)
    (∀ va b, res (.and h t vd va b) fun l => x.vE h t va l &&& x.bE h t b l) ∧
    (∀ va b, res (.or h t vd va b) fun l => x.vE h t va l ||| x.bE h t b l) ∧
    (∀ va b, res (.xor h t vd va b) fun l => x.vE h t va l ^^^ x.bE h t b l) ∧
    (∀ b, res (.not h t vd b) fun l => ~~~x.bE h t b l) ∧
    (∀ va b, res (.andn h t vd va b) fun l => x.vE h t va l &&& ~~~x.bE h t b l) ∧
    (∀ va b, res (.shl h t vd va b) fun l =>
      BitVec.ofNat 64 (if c b l < n then a va l * 2 ^ c b l % 2 ^ n else 0)) ∧
    (∀ va b, res (.shr h t vd va b) fun l =>
      BitVec.ofNat 64 ((if c b l < n then a va l / 2 ^ c b l else 0) % 2 ^ n)) ∧
    (∀ va b, res (.sar h t vd va b) fun l =>
      BitVec.ofNat 64 (intCode t ((if 2 ^ (n - 1) ≤ a va l then (a va l : Int) - 2 ^ n else a va l) /
        2 ^ min (c b l) (n - 1)) % 2 ^ n)) ∧
    (∀ va b, res (.rot h t vd va b) fun l =>
      BitVec.ofNat 64 ((a va l * 2 ^ (c b l % n) + a va l / 2 ^ (n - c b l % n)) % 2 ^ n)) ∧
    (∀ va b kc, res (.sel h t vd va b kc) fun l => if (x.kR h kc).getLsbD l then x.vE h t va l else x.bE h t b l) ∧
    (∀ va b vc, Gives (.prmb h vd va b vc) h x s (vecW (x.eff h vd) (x.active h) fun l =>
      prmbElem (x.g.vr x.sp.id (x.eff h va) l) (x.b32 h l b) (x.g.vr x.sp.id (x.eff h vc) l))) ∧
    (∀ b, Gives (.popc h t vd b) h x s (vecW (x.eff h vd) (x.active h) fun l =>
      BitVec.ofNat 32 ((List.range n).filter (e b l).testBit).length)) ∧
    (∀ b, Gives (.clz h t vd b) h x s (vecW (x.eff h vd) (x.active h) fun l =>
      BitVec.ofNat 32 (if e b l = 0 then n else n - 1 - Nat.log2 (e b l)))) ∧
    (∀ cc kd va b, Gives (.cmp h cc false t kd va b) h x s
      [(.k (x.eff h kd), (x.active h).setWidth 64, (maskBy fun l => (x.active h).getLsbD l &&
        intCond cc (intVal t (x.vE h t va l).toNat) (intVal t (x.bE h t b l).toNat)).setWidth 64)]) ∧
    (∀ cc kd va b, Gives (.cmp h cc true t kd va b) h x s
      [(.k (x.eff h kd), (x.active h).setWidth 64, (maskBy fun l => (x.active h).getLsbD l &&
        (x.kR h kd).getLsbD l && intCond cc (intVal t (x.vE h t va l).toNat) (intVal t (x.bE h t b l).toNat)).setWidth 64)])

/-- BFE, BFI and PRMB (R127, R129). -/
def Obligations.BitFieldsAndByteSelection : Prop :=
  (∀ (h : Hdr) (t : ElemTy) (vd va : Reg) (b : BSrc) (x : Iss) (s : State), t ∈ [ElemTy.s32, .z32, .s64, .z64] →
    let n := t.bits
    let p (l : Nat) : Nat := (x.b32 h l b).toNat % 256
    let w (l : Nat) : Nat := (x.b32 h l b).toNat / 256 % 256
    let f (l : Nat) : Int := (intVal t (x.vE h t va l).toNat / 2 ^ p l) % 2 ^ w l
    Gives (.bfe h t vd va b) h x s (elemW t (x.eff h vd) (x.active h) fun l =>
      BitVec.ofInt 64 ((if t.signed ∧ 0 < w l ∧ 2 ^ (w l - 1) ≤ f l then f l - 2 ^ w l else f l) % 2 ^ n)) ∧
    (∀ vc, Gives (.bfi h t vd va b vc) h x s (elemW t (x.eff h vd) (x.active h) fun l =>
      let m : Nat := (2 ^ w l - 1) * 2 ^ p l
      BitVec.ofFnLE fun i : Fin 64 => decide (i.val < n) &&
        (if m.testBit i then ((x.vE h t va l).toNat % 2 ^ n * 2 ^ p l).testBit i
          else ((x.vE h t vc l).toNat % 2 ^ n).testBit i)))) ∧
  (∀ (a b c : Word) (i : Nat), i < 4 →
    (prmbElem a b c).extractLsb' (8 * i) 8 =
      if c.getLsbD (4 * i + 3) then 0
      else (b ++ a).extractLsb' (8 * ((c.extractLsb' (4 * i) 3).toNat)) 8) ∧
  (∀ (h : Hdr) (vd va : Reg) (b : BSrc) (vc : Reg) (x : Iss) (s : State),
    Gives (.prmb h vd va b vc) h x s (vecW (x.eff h vd) (x.active h) fun l =>
      prmbElem (x.g.vr x.sp.id (x.eff h va) l) (x.b32 h l b) (x.g.vr x.sp.id (x.eff h vc) l)))

/-- Class 0x4 with no trap enabled. -/
def Obligations.FloatArithmeticWritesResultsAndFlags : Prop := class4Lanes FpGives

/-- Class 0x5 with no trap enabled. The approximate functions' choice within their bound is free (log entry 3). -/
def Obligations.ConversionsWriteResultsAndFlags : Prop := class5Lanes FpGives

/-- FPTRAP under the default policies (R83, R39). -/
def Obligations.FptrapSuppressesEveryResult : Prop := class4Lanes FpTraps ∧ class5Lanes FpTraps

/-- The NaN rule (R76) and that of FMIN and FMAX (R133). -/
def Obligations.NanResultsAreCanonical : Prop :=
  ∀ (t : ElemTy) (md : RMode) (fz : Bool) (a b c : FVal), t ∈ [ElemTy.f32, .f16, .bf16] →
    let nan : Bool → FRes := fun s => ⟨if t = .f32 then 0x7FC00000 else if t = .f16 then 0x7E00 else 0x7FC0, if s then 1 else 0⟩
    (a.isNan || b.isNan →
      addF t md fz a b = nan (a.isSig || b.isSig) ∧ subF t md fz a b = nan (a.isSig || b.isSig) ∧
      mulF t md fz a b = nan (a.isSig || b.isSig) ∧ divF t md false fz a b = nan (a.isSig || b.isSig)) ∧
    (a.isNan → sqrtF t md fz a = nan a.isSig) ∧
    (a.isNan || b.isNan || c.isNan → ¬ (a.isInf ∧ b.isZero) → ¬ (a.isZero ∧ b.isInf) →
      fmaF t md fz a b c = nan (a.isSig || b.isSig || c.isSig)) ∧
    (∀ (mx : Bool) (x y : Nat), (a.isNan → ¬ b.isNan → minmaxF t mx x a y b = ⟨y, if a.isSig then 1 else 0⟩) ∧
      (¬ a.isNan → b.isNan → minmaxF t mx x a y b = ⟨x, if b.isSig then 1 else 0⟩) ∧
      (a.isNan → b.isNan → minmaxF t mx x a y b = nan (a.isSig || b.isSig))) ∧
    (∀ (i : Instr) (h : Hdr) (f : FMod) (d va : Reg) (vb : BSrc) (mx : Bool) (q : FRes) (x : Iss) (st : State) (n : Nat),
      f.ty = t → n < 32 → (x.active h).getLsbD n = true → Issues i h x st → x.inPlace st → x.lone → x.unlanded → x.g.te = 0 →
      (∀ e ∈ x.g.pend, e.loc ≠ .v (x.eff h d) n) →
      let e (y : Nat) : Nat := flushCode t (f.ftz || x.g.ftz) (y % 2 ^ t.bits)
      let u := (x.g.vr x.sp.id (x.eff h va) n).toNat
      let v := (x.b32 h n vb).toNat
      a = inF t (f.ftz || x.g.ftz) (u % 2 ^ t.bits) → b = inF t (f.ftz || x.g.ftz) (v % 2 ^ t.bits) →
      ((a.isNan ∨ b.isNan) ∧ q = nan (a.isSig || b.isSig) ∧
        (i = .fadd h f d va vb ∨ i = .fsub h f d va vb ∨ i = .fmul h f d va vb ∨ i = .fdiv h f d va vb) ∨
       (a.isNan ∧ ¬ b.isNan ∧ q = ⟨e v, if a.isSig then 1 else 0⟩ ∨ ¬ a.isNan ∧ b.isNan ∧ q = ⟨e u, if b.isSig then 1 else 0⟩ ∨
        a.isNan ∧ b.isNan ∧ q = nan (a.isSig || b.isSig)) ∧ i = (if mx then .fmax h f d va vb else .fmin h f d va vb)) →
      ∃ st' g, exec i st = .next st' ∧ st'.group? x.r.team x.r.grp = some g ∧
        g.newest x.sp.id (.v (x.eff h d) n) = BitVec.ofNat 64 q.bits ∧
        g.newest x.sp.id (.flg n) = x.g.newest x.sp.id (.flg n) ||| q.fl.setWidth 64)

/-- Rounding toward zero (R77). -/
def Obligations.RoundingTowardZeroTruncates : Prop :=
  ∀ (t : ElemTy) (zn : Bool) (x : Ex), t ∈ [ElemTy.f32, .f16, .bf16] → 0 < x.d → x.n ≠ 0 →
    let r := roundTo t .rz false false zn x
    let val (c : Nat) : Ex := (decodeF t c).ex
    let top : Ex := ⟨if t = .f16 then 2 ^ 16 else 2 ^ 128, 1⟩
    (top.le x.abs = true → r = ⟨withSign t (decide (x.n < 0)) (maxCode t), fOFNX⟩) ∧
    (x.abs.lt top = true → ∃ c, c ≤ maxCode t ∧ r.bits = withSign t (decide (x.n < 0)) c ∧
      (val c).le x.abs = true ∧ (c < maxCode t → x.abs.lt (val (c + 1)) = true) ∧
      (r.fl.getLsbD 4 = true ↔ (val c).lt x.abs = true) ∧ r.fl.getLsbD 2 = false ∧ r.fl.getLsbD 0 = false)

/-- The instructions of class 0x6 (Table 10.4, R147 to R149). -/
def Obligations.MaskInstructionsWriteTheirValue : Prop :=
  ∀ (h : Hdr) (d a b : Reg) (x : Iss) (s : State),
    let k (v : Word) : List (Loc × DWord × DWord) := [(.k (x.eff h d), 0xFFFFFFFF, v.setWidth 64)]
    GivesU (.kand h d a b) h x s (k (x.kR h a &&& x.kR h b)) ∧
    GivesU (.kor h d a b) h x s (k (x.kR h a ||| x.kR h b)) ∧
    GivesU (.kxor h d a b) h x s (k (x.kR h a ^^^ x.kR h b)) ∧
    GivesU (.knot h d b) h x s (k (~~~x.kR h b)) ∧
    GivesU (.kmov h .kk d b) h x s (k (x.kR h b)) ∧
    GivesU (.kmov h .ks d b) h x s (k ((x.sR h b).setWidth 32)) ∧
    GivesU (.kmov h .sk d b) h x s [(.s (x.eff h d), ones, (x.kR h b).setWidth 64)] ∧
    GivesU (.kpop h d b) h x s
      [(.s (x.eff h d), ones, BitVec.ofNat 64 ((List.range 32).filter ((x.kR h b).getLsbD ·)).length)] ∧
    GivesU (.kfind h false d b) h x s
      [(.s (x.eff h d), ones, BitVec.ofNat 64 (((List.range 32).find? ((x.kR h b).getLsbD ·)).getD 32))] ∧
    GivesU (.kfind h true d b) h x s
      [(.s (x.eff h d), ones, BitVec.ofNat 64 (((List.range 32).reverse.find? ((x.kR h b).getLsbD ·)).getD 32))] ∧
    GivesU (.lanek h .occ d) h x s (k x.g.occ) ∧
    GivesU (.lanek h .vac d) h x s (k (~~~x.g.occ)) ∧
    GivesU (.lanek h .spl d) h x s (k x.sp.mask) ∧
    Gives (.vote h .all d a) h x s (k (if x.kR h a &&& x.active h = x.active h then 0xFFFFFFFF else 0)) ∧
    Gives (.vote h .any d a) h x s (k (if x.kR h a &&& x.active h ≠ 0 then 0xFFFFFFFF else 0)) ∧
    Gives (.vote h .ballot d a) h x s (k (x.kR h a &&& x.active h)) ∧
    (∀ f : BitVec 6, Gives (.flgk h f d) h x s [(.k (x.eff h d), (x.active h).setWidth 64,
      (maskBy fun l => (x.active h).getLsbD l && (x.g.rd x.sp.id (.flg l)).getLsbD f.toNat).setWidth 64)]) ∧
    (∀ set : BitVec 6, Gives (.flgclr h set) h x s
      ((lanesOf (x.active h)).map fun l => (.flg l, set.setWidth 64, 0))) ∧
    Gives (.flgrd h d) h x s ((lanesOf (x.active h)).map fun l =>
      (.v (x.eff h d) l, ones, ((x.g.rd x.sp.id (.flg l)).setWidth 32).setWidth 64))

/-- The instructions of class 0x7 (R151 to R158). -/
def Obligations.CrossLaneInstructionsCombineActiveLanes : Prop :=
  ∀ (h : Hdr) (w64 : Bool) (d va : Reg) (x : Iss) (s : State),
    let act := x.active h
    let v (l : Nat) : DWord := x.vW h w64 va l
    let same (l m : Nat) : Bool := act.getLsbD m && v m == v l
    (∀ m b, Gives (.shfl h m w64 d va b) h x s (laneW w64 (x.eff h d) act fun l =>
      match m with
      | .idx => if act.getLsbD ((x.b32 h l b).toNat % 32) then v ((x.b32 h l b).toNat % 32) else 0
      | .up => if l < (x.b32 h l b).toNat then v l
          else if act.getLsbD (l - (x.b32 h l b).toNat) then v (l - (x.b32 h l b).toNat) else 0
      | .down => if 31 < l + (x.b32 h l b).toNat then v l
          else if act.getLsbD (l + (x.b32 h l b).toNat) then v (l + (x.b32 h l b).toNat) else 0
      | .xor => if act.getLsbD (l ^^^ ((x.b32 h l b).toNat % 32)) then v (l ^^^ ((x.b32 h l b).toNat % 32)) else 0)) ∧
    (∀ b kc, Gives (.pushw h w64 d va b kc) h x s
      (laneW w64 (x.eff h d) act (fun t => match (pushTo act (fun l => (x.b32 h l b).toNat % 32) t).getLast? with
          | some l => v l
          | none => 0) ++
        [(.k (x.eff h kc), 0xFFFFFFFF, (maskBy fun t => act.getLsbD t &&
          decide (2 ≤ (pushTo act (fun l => (x.b32 h l b).toNat % 32) t).length)).setWidth 64)])) ∧
    (∀ b, Gives (.bcast h w64 d va (some b)) h x s (laneW w64 (x.eff h d) act fun _ =>
      if act.getLsbD ((x.b32 h 0 b).toNat % 32) then v ((x.b32 h 0 b).toNat % 32) else 0)) ∧
    Gives (.bcast h w64 d va none) h x s (laneW w64 (x.eff h d) act fun _ =>
      if act.getLsbD (lowLane act) then v (lowLane act) else 0) ∧
    (∀ op, Gives (.redu h true op w64 d va) h x s [(.s (x.eff h d), ones, x.reduce h op w64 va (List.range 32))] ∧
      Gives (.redu h false op w64 d va) h x s
        (laneW w64 (x.eff h d) act fun _ => x.reduce h op w64 va (List.range 32)) ∧
      Gives (.scan h false op w64 d va) h x s
        (laneW w64 (x.eff h d) act fun l => x.reduce h op w64 va (scanLanes false 0 l)) ∧
      Gives (.scan h true op w64 d va) h x s
        (laneW w64 (x.eff h d) act fun l => x.reduce h op w64 va (scanLanes true 0 l)) ∧
      (∀ excl kc, Gives (.segscan h excl op w64 d va kc) h x s
        (laneW w64 (x.eff h d) act fun l => x.reduce h op w64 va (scanLanes excl (headOf (x.kR h kc) l) l)))) ∧
    (∀ kc, Gives (.confl h w64 d va kc) h x s
      (vecW (x.eff h d) act (fun l => maskBy (same l) &&& (1#32 <<< l - 1)) ++
        [(.k (x.eff h kc), 0xFFFFFFFF,
          (maskBy fun l => act.getLsbD l && maskBy (same l) &&& (1#32 <<< l - 1) == 0).setWidth 64)])) ∧
    Gives (.matchk h w64 d va) h x s (vecW (x.eff h d) act fun l => maskBy (same l)) ∧
    (∀ desc t, Gives (.gsort h desc t d va) h x s
      (let key (l : Nat) : Word := x.g.vr x.sp.id (x.eff h va) l
       let lt (a b : Nat) : Bool :=
         if desc then sortLt t (key b).toNat (key a).toNat else sortLt t (key a).toNat (key b).toNat
       ((lanesOf act).zip (sortLanes lt (lanesOf act))).flatMap fun p =>
         [(.v (x.eff h d) p.1, ones, (key p.2).setWidth 64), (.v (x.eff h d + 1) p.1, ones, BitVec.ofNat 64 p.2)]))

/-- Vacant lanes change no integer reduction (Table 3.3), GSORT sorts stably (R158), and the RX3 word of an integer
represents it (R73, R91). -/
def Obligations.ReductionsAndResiduesAreExact : Prop :=
  (∀ (op : RedOp) (w64 : Bool) (md : RMode) (xs ys : List Nat), op ∉ [RedOp.fadd, .fmin, .fmax] →
    (∀ v ∈ xs, v < 2 ^ (if w64 then 64 else 32)) →
    (xs.Perm ys → redCombine op w64 md xs = redCombine op w64 md ys) ∧
    redCombine op w64 md (xs ++ [redIdent op w64]) = redCombine op w64 md xs ∧
    (∀ v < 2 ^ (if w64 then 64 else 32), redCombine op w64 md [v] = v) ∧
    redCombine .add w64 md xs = xs.sum % 2 ^ (if w64 then 64 else 32)) ∧
  (∀ (key : Nat → Nat) (ls : List Nat), ls.Pairwise (· < ·) →
    let r := sortLanes (fun a b => decide (key a < key b)) ls
    r.Perm ls ∧ r.Pairwise fun a b => key a < key b ∨ (key a = key b ∧ a < b)) ∧
  (∀ x : Int, (rx3Val (rx3Of x) - x) % 16515840 = 0 ∧ -8257920 ≤ rx3Val (rx3Of x) ∧ rx3Val (rx3Of x) ≤ 8257919) ∧
  (∀ x : Int, -8257920 ≤ x → x ≤ 8257919 → rx3Val (rx3Of x) = x) ∧
  (∀ x y : Int, rx3Add (rx3Of x) (rx3Of y) = rx3Of (x + y))

/-- The branch forms of class 0x0 (R97 to R102). -/
def Obligations.BranchesTransferTheSplit : Prop :=
  ∀ (h : Hdr) (x : Iss) (s : State),
    (∀ jo t, Issues (.bra h jo t) h x s → exec (.bra h jo t) s =
      .next (x.transfer h (fun _ => true) (x.g.uGuard x.sp.id h) (x.target t) (x.joinAt jo) id false s)) ∧
    (∀ k neg jo t, Issues (.brc h (.lane k neg) jo t) h x s → exec (.brc h (.lane k neg) jo t) s =
      .next (x.transfer h (fun l => (x.g.kr x.sp.id k.toNat).getLsbD l != neg) false (x.target t) (x.joinAt jo) id false s)) ∧
    (∀ n jo t, Issues (.brc h (.nz n) jo t) h x s → exec (.brc h (.nz n) jo t) s =
      .next (x.transfer h (fun _ => x.g.sr x.sp.id n.toNat != 0) (x.g.uGuard x.sp.id h && x.g.sr x.sp.id n.toNat != 0)
        (x.target t) (x.joinAt jo) id false s)) ∧
    (∀ n jo t, Issues (.brc h (.z n) jo t) h x s → exec (.brc h (.z n) jo t) s =
      .next (x.transfer h (fun _ => x.g.sr x.sp.id n.toNat == 0) (x.g.uGuard x.sp.id h && x.g.sr x.sp.id n.toNat == 0)
        (x.target t) (x.joinAt jo) id false s)) ∧
    (∀ sd jo t, Issues (.call h sd jo t) h x s → exec (.call h sd jo t) s =
      .next (x.transfer h (fun _ => true) (x.g.uGuard x.sp.id h) (x.target t) (x.joinAt jo)
        (fun g => g.writeNow (.s sd.toNat) ones (x.next h)) (x.g.changes x.sp.id (.s sd.toNat, ones, x.next h)) s)) ∧
    (∀ sd, Issues (.ret h sd) h x s → exec (.ret h sd) s =
      .next (x.transfer h (fun _ => true) (x.g.uGuard x.sp.id h) (x.g.sr x.sp.id sd.toNat) x.sp.rpc id false s)) ∧
    (∀ c t, IssuesU (.loop h c t) h x s →
      let v := (x.g.sr x.sp.id c.toNat - 1) &&& (Loc.s c.toNat).width
      exec (.loop h c t) s = .next (s.modG x.r fun g =>
        let g := (g.writeNow (.s c.toNat) ones v).consume s.now x.sp.id h.st.toNat true
        if v = 0 then g.move s.now x.sp.id (x.next h) .seq else x.goTo s.now (x.target t) .branch g)) ∧
    (∀ jo va, Issues (.brx h jo va) h x s →
      let used (g : Group) := g.consume s.now x.sp.id h.st.toNat false
      let addr (n : Nat) : DWord := if (x.active h).getLsbD n then x.g.vr64 x.sp.id va.toNat n else x.next h
      (x.active h = 0 → exec (.brx h jo va) s = .next (x.pass h false s)) ∧
      (∀ a, x.active h ≠ 0 → (∀ n ∈ lanesOf x.sp.mask, addr n = a) → exec (.brx h jo va) s =
        .next (if a = x.next h then x.pass h false s
          else s.modG x.r fun g => x.goTo s.now a (.brx (x.next h)) (used g))) ∧
      (∀ l m, x.active h ≠ 0 → l ∈ lanesOf x.sp.mask → m ∈ lanesOf x.sp.mask → addr l ≠ addr m →
        ∃ dirs, exec (.brx h jo va) s = .next (s.modG x.r fun g =>
            (used g).diverge s.now (((used g).split? x.sp.id).getD x.sp) (x.joinAt jo) dirs) ∧
          ((dirs.map fun (d : Word × DWord × Arrived) => d.2.1).Nodup) ∧
          (∀ n ∈ lanesOf x.sp.mask, ∃ d ∈ dirs, d.1.getLsbD n = true ∧ d.2.1 = addr n) ∧
          (∀ d ∈ dirs, ∀ n < 32, d.1.getLsbD n = true → x.sp.mask.getLsbD n = true ∧ d.2.1 = addr n)))

/-- Divergence, movement and reconvergence of the lone split of a group (R33, R97). -/
def Obligations.TransferMovesOrDiverges : Prop :=
  (∀ (h : Hdr) (x : Iss) (cond : Nat → Bool) (empty loud : Bool) (target : DWord) (j : Option DWord) (s : State),
    x.inPlace s → x.lone → x.g.joins = [] → x.sp.entry = some 0 → x.sp.mask ≠ 0 →
    let m := maskOf ((lanesOf (x.active h)).filter cond)
    let rest := x.sp.mask &&& ~~~m
    let t := x.transfer h cond empty target j id loud s
    (m = 0 → t = x.pass h false s) ∧
    (m ≠ 0 → ∃ g, OnlyGroup x.r g s t ∧ (∀ e ∈ g.pend, e.split ≠ x.sp.id) ∧
      g = { x.g with
        splits := g.splits, joins := g.joins, nextId := g.nextId, pend := g.pend, score := g.score
        vregs := g.vregs, sregs := g.sregs, kregs := g.kregs, flg := g.flg } ∧
      (x.g.pend = [] → ∀ loc, g.file loc = x.g.file loc) ∧
      (rest = 0 → g.joins = [] ∧ g.splits = [{ x.sp with
        pc := target, arrivedBy := .branch, only := none, hold := .run, bar := none, readyAt := s.now + h.st.toNat + 1, issuedAt := s.now
        quiet := if target ≤ x.sp.pc then (if x.sp.loud || loud then 0 else x.sp.quiet + 1) else x.sp.quiet
        loud := if target ≤ x.sp.pc then false else x.sp.loud || loud }]) ∧
      (rest ≠ 0 → j ≠ some target → j ≠ some (x.next h) →
        g.joins = [{ id := x.g.nextId, j := j, saved := x.sp.rpc, parent := none, rank := x.sp.rank, arrived := [] }] ∧
        (g.splits.map fun y => (y.mask, y.pc)) = (if lowLane x.sp.mask = lowLane m
          then [(m, target), (rest, x.next h)] else [(rest, x.next h), (m, target)]) ∧
        (g.splits.map fun y => y.entry) = [some 0, some 1] ∧
        ∀ y ∈ g.splits, y.rpc = j ∧ y.parent = some x.g.nextId ∧ y.hold = .run))) ∧
  (∀ (g : Group) (now : Nat) (y : Split) (r : Join) (a : DWord) (m : Word) (w : Arrived),
    g.splits = [y] → g.joins = [r] → y.parent = some r.id → y.rpc = some a → y.entry.isSome → r.j = some a → r.parent = none →
    r.arrived = [m] → y.leave = none →
    ∃ z, (g.move now y.id a w).splits = [z] ∧ (g.move now y.id a w).joins = [] ∧ z.mask = m ||| y.mask ∧ z.pc = a ∧
      z.rpc = r.saved ∧ z.parent = none ∧ z.entry = some 0 ∧ z.hold = .run)

/-- The hints and waits of class 0x0 and the spin detector. -/
def Obligations.WaitsAndNoOpsOfClassZero : Prop :=
  (∀ (h : Hdr) (x : Iss) (s : State),
    (Issues (.nop h) h x s → exec (.nop h) s = .next (x.pass h false s)) ∧
    (Issues (.land h) h x s → exec (.land h) s = .next (x.pass h false s)) ∧
    (IssuesU (.yield h) h x s → exec (.yield h) s = .next (s.modG x.r fun g =>
      let g := { (g.landSplits [x.sp.id]).wake with yielded := true }
      if g.otherIssuable x.sp.id = [] then (g.consume s.now x.sp.id h.st.toNat false).move s.now x.sp.id (x.next h) .seq
      else (x.doneButHeld h (.yield (s.now + 64) []) g s.now).settle s.now 64)) ∧
    (∀ w, IssuesU (.spinh h w) h x s → exec (.spinh h w) s = .next (s.modG x.r fun g =>
      x.doneButHeld h (.spinh (s.now + 16 * (w.toNat + 1))) g s.now)) ∧
    (IssuesU (.syncs h) h x s → exec (.syncs h) s = .next (s.modG x.r fun g =>
      if ∃ e ∈ g.pend, e.split = x.sp.id ∧ e.landed = false then x.doneButHeld h .syncs g s.now
      else ((g.consume s.now x.sp.id h.st.toNat false).landSplits [x.sp.id]).move s.now x.sp.id (x.next h) .seq))) ∧
  (∀ (r : SRef) (x : Iss) (s : State), s.at? r = some x →
    let wake := s.modG r fun g => (g.modSplit r.split fun y => { y with hold := .run }).boundary s.now r.split
    (∀ till seen, x.sp.hold = .yield till seen →
      (till ≤ s.now ∨ ∀ y ∈ x.g.otherIssuable x.sp.id, y.id ∈ seen) → exec (.yieldEnd r) s = .next wake) ∧
    (∀ till, x.sp.hold = .spinh till → till ≤ s.now → exec (.spinhExpiry r) s = .next wake) ∧
    (x.sp.hold = .syncs → (∀ e ∈ x.g.pend, e.split = r.split → e.landed = true ∨ e.landsAt ≤ s.now) →
      exec (.syncsReturn r) s = .next (s.modG r fun g =>
        ((g.landSplits [r.split]).modSplit r.split fun y => { y with hold := .run }).boundary s.now r.split)) ∧
    (x.sp.hold = .run → 64 ≤ x.sp.quiet →
      exec (.splitDemotion r) s = .next (s.modSplit r fun y => { y with hold := .demoted (y.issuedAt + 4096) })) ∧
    (∀ till, x.sp.hold = .demoted till → till ≤ s.now →
      exec (.demotionTimeout r) s = .next (s.modSplit r fun y => { y with hold := .run, quiet := 0 })))

/-- How EXIT and HALT end items (R26, R27, R108), and that HALT writes its log entry and LOGN only (R323, R340). That a next
block begun early becomes current is log entry 71. -/
def Obligations.ExitAndHaltEndItems : Prop :=
  ∀ (h : Hdr) (x : Iss) (s : State) (l : Launch),
    x.inPlace s → s.launch? x.tm.launch = some l →
    (Issues (.exit h) h x s → (∃ n ∈ lanesOf (x.active h), (x.g.ownerOf n).isSome) →
      exec (.exit h) s = .next (x.groupFault h .xbusy 0 s)) ∧
    (Issues (.exit h) h x s → x.active h ≠ 0 → (∀ n ∈ lanesOf (x.active h), x.g.ownerOf n = none) →
      let act := x.active h
      ∃ t l' g, exec (.exit h) s = .next t ∧ t.mem = s.mem ∧ t.cores = s.cores ∧ t.dies = s.dies ∧
        t.launch? l.id = some l' ∧ l'.exited = l.exited + popCount act ∧ l'.killed = l.killed ∧ l'.lost = l.lost ∧
        t.group? x.r.team x.r.grp = some g ∧ g.occ = x.g.occ &&& ~~~act ∧ (∀ n, g.itemOf n = x.g.itemOf n) ∧
        (x.g.occ &&& ~~~act = 0 → (∀ y ∈ x.g.splits, y.id ≠ x.sp.id → y.midway = false) → g.joins = [] ∧ ∃ y, g.splits = [y] ∧ y.mask = 0 ∧ y.hold = .run ∧
          y.pc = l.kern.entry + BitVec.ofNat 64 l.kern.refill) ∧
        (x.g.occ &&& ~~~act ≠ 0 → x.lone → x.g.joins = [] → x.sp.mask &&& ~~~act ≠ 0 → g.joins = [] ∧
          ∃ y, g.splits = [y] ∧ y.mask = x.sp.mask &&& ~~~act ∧ y.pc = x.next h ∧ y.hold = .run)) ∧
    (IssuesU (.halt h) h x s → x.g.xp ≠ none → exec (.halt h) s = .next (x.groupFault h .xbusy 0 s)) ∧
    (IssuesU (.halt h) h x s → x.g.xp = none → x.g.live = true →
      ∃ t l' g, exec (.halt h) s = .next t ∧ t.launch? l.id = some l' ∧ l'.exited = l.exited ∧
        l'.nfault = l.nfault + 1 ∧ l'.seq = l.seq + 1 ∧
        t.group? x.r.team x.r.grp = some g ∧ g.live = false ∧ g.occ = 0 ∧
        ((∃ g ∈ x.tm.groups, g.grp ≠ x.r.grp ∧ g.live = true) → l'.killed = l.killed + popCount x.g.occ ∧
          ∀ k, k ≠ x.r.grp → t.group? x.r.team k = s.group? x.r.team k) ∧
        ((∀ g ∈ x.tm.groups, g.grp ≠ x.r.grp → g.live = false) →
          let tm := s.shift l x.tm
          let left (o : Option Held) : Nat := (o.map fun b => s.blkHi l b.blk - b.pos).getD 0
          (t.team? x.r.team).map (·.st) = some .retired ∧
          ((∃ b, tm.nxt = some b ∧ b.pos = l.blkLo b.blk ∧ l'.returned = l.returned ++ [b.blk] ∧
              l'.killed = l.killed + popCount x.g.occ + left tm.cur) ∨
            (∀ b, tm.nxt = some b → b.pos ≠ l.blkLo b.blk) ∧ l'.returned = l.returned ∧
              l'.killed = l.killed + popCount x.g.occ + left tm.cur + left tm.nxt)) ∧
        let at_ := l.desc.save.toNat + 4096 + l.nfault % 1024 * 1024
        ∀ pa, ¬ s.devStores l.ctx at_ (x.haltEntry l) pa →
          ¬ (s.devWrite l.ctx at_ (x.haltEntry l)).devStores l.ctx (l.desc.save.toNat + 8) (natLe 8 (l.nfault + 1)) pa →
          t.homeByte pa = s.homeByte pa)

/-- What REFILL does with the items that its team holds (R29 to R31). -/
def Obligations.RefillFillsVacantLanes : Prop :=
  (∀ (h : Hdr) (kd : BitVec 8) (x : Iss) (s : State) (l : Launch),
    x.inPlace s → s.launch? x.tm.launch = some l → x.g.xp = none → l.desc.fed = false → x.tm.nxt = none → x.g.pend = [] →
    let vacant := (List.range 32).filter fun i => !x.g.occ.getLsbD i
    (Issues (.refill h kd) h x s → x.g.efaults = [] → x.lone → x.g.joins = [] →
      (∀ b, x.tm.cur = some b → b.pos + vacant.length ≤ s.blkHi l b.blk → vacant ≠ [] → x.behind s.now = false →
        ∃ t g y, exec (.refill h kd) s = .next t ∧ t.group? x.r.team x.r.grp = some g ∧ g.occ = 0xFFFFFFFF ∧
          (∀ i n, vacant[i]? = some n → g.itemOf n = BitVec.ofNat 48 (b.pos + i) ∧ g.ageOf n = x.g.ageOf n + 1 ∧
            g.file (.flg n) = 0 ∧ ∀ v < 256, l.kern.fresh.getLsbD v = true → g.file (.v v n) = 0) ∧
          (∀ n < 32, x.g.occ.getLsbD n = true → g.itemOf n = x.g.itemOf n ∧ g.ageOf n = x.g.ageOf n ∧
            ∀ v, g.file (.v v n) = x.g.file (.v v n)) ∧
          (kd ≠ 0 → g.file (.k kd.toNat) = (maskOf vacant).setWidth 64) ∧
          g.splits = [y] ∧ y.mask = x.sp.mask ||| maskOf vacant ∧ y.pc = x.next h ∧ y.hold = .run ∧
          (let b' := { b with pos := b.pos + vacant.length }
          (t.team? x.r.team).map (·.cur) = some (if s.exhausted l b' then none else some b'))) ∧
      (∀ b, x.tm.cur = some b → b.pos < s.blkHi l b.blk → vacant ≠ [] → x.behind s.now = true →
        exec (.refill h kd) s = .next (s.modG x.r fun g =>
          (g.landSplits [x.sp.id]).modSplit x.sp.id fun y => { y with hold := .refill kd.toNat s.now })) ∧
      (x.tm.cur = none → x.g.occ ≠ 0 →
        ∃ t g, exec (.refill h kd) s = .next t ∧ t.group? x.r.team x.r.grp = some g ∧ g.occ = x.g.occ ∧
          (kd ≠ 0 → g.file (.k kd.toNat) = 0) ∧ ∃ y, g.splits = [y] ∧ y.mask = x.sp.mask ∧ y.pc = x.next h) ∧
      (x.tm.cur = none → x.g.occ = 0 → s.noItems l x.tm = true →
        ∃ t g, exec (.refill h kd) s = .next t ∧ t.group? x.r.team x.r.grp = some g ∧ g.live = false) ∧
      (x.tm.cur = none → x.g.occ = 0 → s.noItems l x.tm = false →
        exec (.refill h kd) s = .next (s.modG x.r fun g =>
          (g.landSplits [x.sp.id]).modSplit x.sp.id fun y => { y with hold := .refill kd.toNat s.now }))) ∧
    (∀ k z t, x.sp.hold = .refill k z → x.refill refillHdr k z s = some t → exec (.refillWake x.r) s = .next t)) ∧
  (∀ (h : Hdr) (kd : BitVec 8) (x : Iss) (s : State) (l : Launch),
    x.inPlace s → s.launch? x.tm.launch = some l → Issues (.refill h kd) h x s →
    let vacant := (List.range 32).filter fun i => !x.g.occ.getLsbD i
    let pool (o : Option Held) : List Nat := match o with
      | none => []
      | some b => (List.range (s.blkHi l b.blk - b.pos)).map (b.pos + ·)
    let src := if l.desc.fed then sortBy id (pool x.tm.cur ++ pool x.tm.nxt) else pool x.tm.cur ++ pool x.tm.nxt
    let items := src.take vacant.length
    let m := maskOf (vacant.take items.length)
    let held (r : SRef) (s : State) : State := s.modG r fun g =>
      (g.landSplits [r.split]).modSplit r.split fun y => { y with hold := .refill kd.toNat s.now }
    (x.g.xp ≠ none → exec (.refill h kd) s = .next (x.groupFault h .xbusy 0 s)) ∧
    (x.g.xp = none → ∀ f fs, x.g.efaults = f :: fs →
      let r := (x.engineFault f s).1
      ((x.re r = none ∨ ∃ y n, x.re r = some y ∧ y.sp.hold = .fault n) → exec (.refill h kd) s = .next r) ∧
      (∀ y, x.re r = some y → (∀ n, y.sp.hold ≠ .fault n) → y.sp.pc = x.sp.pc → y.g.efaults = [] →
        exec (.refill h kd) s = .next ((y.refill h kd.toNat r.now r).getD (held y.r r)))) ∧
    (x.g.xp = none → x.g.efaults = [] → src = [] → x.g.occ = 0 → s.noItems l x.tm = false →
      exec (.refill h kd) s = .next (held x.r s)) ∧
    (x.g.xp = none → x.g.efaults = [] → src = [] → x.g.occ = 0 → s.noItems l x.tm = true →
      ∃ t g, exec (.refill h kd) s = .next t ∧ t.group? x.r.team x.r.grp = some g ∧ g.live = false) ∧
    (x.g.xp = none → x.g.efaults = [] → x.g.pend = [] → x.lone → x.g.joins = [] → (src = [] ∨ x.behind s.now = false) →
      items ≠ [] ∨ x.g.occ ≠ 0 →
      ∃ t g y, exec (.refill h kd) s = .next t ∧ t.group? x.r.team x.r.grp = some g ∧ g.occ = x.g.occ ||| m ∧
        (∀ i n a : Nat, vacant[i]? = some n → items[i]? = some a → g.itemOf n = BitVec.ofNat 48 a ∧ g.ageOf n = x.g.ageOf n + 1 ∧
          g.file (.flg n) = 0 ∧ ∀ v < 256, l.kern.fresh.getLsbD v = true → g.file (.v v n) = 0) ∧
        (∀ n < 32, m.getLsbD n = false → g.itemOf n = x.g.itemOf n ∧ g.ageOf n = x.g.ageOf n ∧
          ∀ v, g.file (.v v n) = x.g.file (.v v n)) ∧
        (kd ≠ 0 → g.file (.k kd.toNat) = m.setWidth 64) ∧
        g.splits = [y] ∧ y.mask = x.sp.mask ||| m ∧ y.pc = x.next h ∧ y.hold = .run))

/-- The loads, the stores and the tag operations enter one operation each, which is performed at its completion event (log
entry 31); a scratch base is signed with an index too (log entry 72). -/
def Obligations.LoadsAndStoresEnterTheirAccesses : Prop :=
  (∀ (h : Hdr) (x : Iss) (s : State) (sz : BitVec 3) (ma : Bool) (vd : Reg) (m : Mem) (w : Nat → Where),
    let loads := (lanesOf (x.active h)).map fun l => laneAcc 0 (l, w l)
    let stores := (lanesOf (x.active h)).map fun l => laneAcc (x.dataOf h vd (szRegs sz) l) (l, w l)
    let rd (a : Bool) (l : Nat) := x.reachG s .read l (x.gAddr h m l) (szBytes sz) a
    let wr (a : Bool) (l : Nat) := x.reachG s .write l (x.gAddr h m l) (szBytes sz) a
    (Issues (.ld h sz ma vd m) h x s → x.mayEnter h s 0 → x.reaches h s true false (rd ma) w →
      Enters (.ld h sz ma vd m) h x s (.load (x.eff h vd) sz loads) 0 .rlx m.scope) ∧
    (Issues (.lds h sz ma vd m) h x s → x.mayEnter h s 0 →
      x.reaches h s true false (fun l => x.reachS s .read l (x.sAddr h m l) (szBytes sz) ma) w →
      Enters (.lds h sz ma vd m) h x s (.load (x.eff h vd) sz loads) 0 .rlx m.scope) ∧
    (Issues (.lda h sz vd m) h x s → x.mayEnter h s 0 → x.reaches h s true false (rd false) w →
      Enters (.lda h sz vd m) h x s (.load (x.eff h vd) sz loads) 0 m.ord m.scope) ∧
    (Issues (.st h sz ma vd m) h x s → x.mayEnter h s 1 → x.reaches h s true true (wr ma) w →
      Enters (.st h sz ma vd m) h x s (.store (szBytes sz) stores) 1 .rlx m.scope) ∧
    (Issues (.sts h sz ma vd m) h x s → x.mayEnter h s 1 →
      x.reaches h s true true (fun l => x.reachS s .write l (x.sAddr h m l) (szBytes sz) ma) w →
      Enters (.sts h sz ma vd m) h x s (.store (szBytes sz) stores) 1 .rlx m.scope) ∧
    (Issues (.str h sz vd m) h x s → x.mayEnter h s 1 → x.reaches h s true true (wr false) w →
      Enters (.str h sz vd m) h x s (.store (szBytes sz) stores) 1 m.ord m.scope)) ∧
  (∀ (h : Hdr) (x : Iss) (s : State) (sz : BitVec 3) (ma : Bool) (n : BitVec 5) (vd sd : Reg) (m : Mem) (w : Nat → Where)
      (a : Where),
    (Issues (.ldsb h n vd m) h x s → x.mayEnter h s 0 → (∀ l ∈ lanesOf (x.active h), 4 ∣ x.sAddr h m l) →
      x.reaches h s true false (fun l => x.reachS s .read l (x.sAddr h m l) (4 * (n.toNat + 1)) true) w →
      Enters (.ldsb h n vd m) h x s
        (.loadBlock (x.eff h vd) (n.toNat + 1) ((lanesOf (x.active h)).map fun l => laneAcc 0 (l, w l))) 0 .rlx .grp) ∧
    (IssuesU (.ldk h sz ma sd m) h x s → x.inPlace s → x.lone → x.sp.only = none → x.g.full [0] false = false →
      x.reachG s .read 0 (x.gAddr h m 0) (szBytes sz) ma = .ok a → x.raceHit s a false = none →
      Enters (.ldk h sz ma sd m) h x s (.loadK (x.eff h sd) sz (laneAcc 0 (0, a))) 0 .rlx .grp) ∧
    (IssuesU (.stk h sz ma sd m) h x s → x.inPlace s → x.lone → x.sp.only = none → x.g.full [1] false = false →
      x.reachG s .write 0 (x.gAddr h m 0) (szBytes sz) ma = .ok a → x.raceHit s a true = none →
      Enters (.stk h sz ma sd m) h x s (.store (szBytes sz) [laneAcc ((x.sR h sd).setWidth 128) (0, a)]) 1 .rlx .grp)) ∧
  (∀ (h : Hdr) (x : Iss) (s : State) (vd key : Reg) (b : BSrc) (keyS : Bool) (l : Launch),
    (Issues (.lookup h vd b) h x s → x.mayEnter h s 0 → Enters (.lookup h vd b) h x s
      (.lookup (x.eff h vd) ((lanesOf (x.active h)).map fun n => (n, x.b64 h true n b))) 0 .rlx .grp) ∧
    (Issues (.tagset h keyS key b) h x s → x.mayEnter h s 1 → x.launch s = some l →
      (∀ n ∈ lanesOf (x.active h), (x.b32 h n b).toNat < l.kern.tags) → Enters (.tagset h keyS key b) h x s
        (.tagset ((lanesOf (x.active h)).map fun n =>
          ((x.b32 h n b).toNat, some (if keyS then x.sR h key else x.g.vr64 x.sp.id (x.eff h key) n)))) 1 .rlx .grp) ∧
    (Issues (.taginv h b) h x s → x.mayEnter h s 1 → x.launch s = some l →
      (∀ n ∈ lanesOf (x.active h), (x.b32 h n b).toNat < l.kern.tags) → Enters (.taginv h b) h x s
        (.tagset ((lanesOf (x.active h)).map fun n => ((x.b32 h n b).toNat, none))) 1 .rlx .grp)) ∧
  (∀ (h : Hdr) (x : Iss) (s : State) (sz : BitVec 3) (ma keyS : Bool) (n : BitVec 5) (vd key : Reg) (b : BSrc) (m : Mem),
    x.active h = 0 →
    (∀ i ∈ [Instr.ld h sz ma vd m, .lds h sz ma vd m, .st h sz ma vd m, .sts h sz ma vd m, .ldsb h n vd m,
        .lookup h vd b, .tagset h keyS key b, .taginv h b],
      Issues i h x s → exec i s = .next (x.pass h false s)) ∧
    (∀ i ∈ [Instr.lda h sz vd m, .str h sz vd m], Issues i h x s →
      (m.ord = .rlx → exec i s = .next (x.pass h false s)) ∧
      (m.ord ≠ .rlx → rels m.ord = false ∨ x.g.openBefore x.g.nextOp = false →
        acqs m.ord = false ∨ x.g.readsBefore x.g.nextOp = false → exec i s =
        .next (x.pass h false ((s.orderActs x.tm.core m.ord m.scope).bumpRegion x.r.team x.r.grp))))) ∧
  (∀ (h : Hdr) (m : Mem) (x : Iss) (l : Nat),
    (m.mode = .s → x.gAddr h m l = x.sR h m.sa + m.disp.signExtend 64 ∧
      x.sAddr h m l = (x.sR h m.sa).toInt + m.disp.toInt) ∧
    (m.mode = .sv → m.ixz = true → x.gAddr h m l = x.sR h m.sa +
        ((x.g.vr x.sp.id (x.eff h m.vb) l).setWidth 64 <<< m.sc.toNat) + m.disp.signExtend 64 ∧
      x.sAddr h m l = (x.sR h m.sa).toInt + (x.g.vr x.sp.id (x.eff h m.vb) l).toNat * 2 ^ m.sc.toNat + m.disp.toInt) ∧
    (m.mode = .sv → m.ixz = false → x.gAddr h m l = x.sR h m.sa +
        ((x.g.vr x.sp.id (x.eff h m.vb) l).signExtend 64 <<< m.sc.toNat) + m.disp.signExtend 64 ∧
      x.sAddr h m l = (x.sR h m.sa).toInt + (x.g.vr x.sp.id (x.eff h m.vb) l).toInt * 2 ^ m.sc.toNat + m.disp.toInt) ∧
    (m.mode = .v → x.gAddr h m l = (x.g.vr x.sp.id (x.eff h m.vb + 1) l ++ x.g.vr x.sp.id (x.eff h m.vb) l) +
        m.disp.signExtend 64 ∧
      x.sAddr h m l = (x.g.vr x.sp.id (x.eff h m.vb) l).toNat + m.disp.toInt))

/-- The checks of an access, in the order of R199, and the walk (R332 to R334). That the last byte of an access counts for
NONCANON, ahead of MISALIGN, is log entry 77. -/
def Obligations.AccessFaultsFollowTheCheckOrder : Prop :=
  (∀ (s : State) (bench core ctx l n : Nat) (nd : Need) (va : DWord) (ma : Bool), 0 < n → n ≤ 16 →
    (2 ^ 56 ≤ va.toNat ∨ 2 ^ 56 < va.toNat + n →
      s.checkGlob bench core ctx nd l va n ma = .error (.plain l .noncanon va)) ∧
    (noncanon va.toNat = false → noncanon (va.toNat + n - 1) = false →
      (ma = false → va.toNat % n ≠ 0 → s.checkGlob bench core ctx nd l va n ma = .error (.plain l .misalign va)) ∧
      (∀ bs, s.checkGlob bench core ctx nd l va n ma = .ok bs → bs.length = n ∧ (ma = false → va.toNat % n = 0) ∧
        ∀ i, i < n → ∃ e b, bs[i]? = some b ∧ s.leaf l bench core ctx ((va.toNat + i) / 8192 * 8192) = .ok e ∧
          e.permits nd = true ∧ b.uc = e.perm.getLsbD 3) ∧
      (ma = true ∨ va.toNat % n = 0 → va.toNat / 8192 = (va.toNat + n - 1) / 8192 →
        let page := va.toNat / 8192 * 8192
        (∀ e, s.leaf l bench core ctx page = .ok e → e.permits nd = false →
          ∃ f, s.checkGlob bench core ctx nd l va n ma = .error f ∧ f.lane = l ∧ f.cause = .prot ∧ f.addr = va) ∧
        (∀ lvl, s.tlbHit bench core ctx page = none → s.invals = [] → s.walked ctx page = .error (.page, lvl) →
          s.checkGlob bench core ctx nd l va n ma = .error
            { lane := l, cause := .page, addr := va, pages := [(BitVec.ofNat 64 page, false, lvl)],
              detail := BitVec.ofNat 64 lvl })))) ∧
  (∀ (s : State) (ctx va : Nat),
    (s.ctx? ctx = none → s.walked ctx va = .error (.page, 4)) ∧
    (∀ c, s.ctx? ctx = some c → s.walked ctx va = s.walk ctx va 4 c.root)) ∧
  (∀ (s : State) (ctx va lvl tbl k : Nat),
    resolvePa (tbl + 8 * (va / 2 ^ (13 + 10 * lvl) % 1024)) = some k → tbl / 2 ^ 40 ≠ 2 →
    (∀ i < 8, s.homeBad (k + i) = false) →
    let e := leNat (s.homeRead k 8)
    let bit (n : Nat) : Bool := e.testBit n
    let pa := e / 2 ^ 13 % 2 ^ 35 * 2 ^ 13
    let bad := bit 0 = false ∨ 2 ^ 48 ≤ e ∨ e / 2 ^ 6 % 2 ^ 7 ≠ 0 ∨ (bit 1 = true ∧ 3 ≤ lvl) ∨ (bit 1 = false ∧ lvl = 0) ∨
      (bit 1 = false ∧ (bit 2 || bit 3 || bit 4 || bit 5) = true) ∨ (bit 1 = true ∧ bit 3 = true ∧ bit 4 = true) ∨
      (bit 1 = true ∧ ¬ 2 ^ (13 + 10 * lvl) ∣ pa) ∨ resolvePa pa = none ∨
      (bit 1 = true ∧ va / 2 ^ 52 = 0xD ∧ ¬ (pa / 2 ^ 40 = 0 ∧ pa / 2 ^ 36 % 16 = va / 2 ^ 48 % 16))
    (bad → s.walk ctx va lvl tbl = .error (.page, lvl)) ∧
    (¬ bad → bit 1 = true → s.walk ctx va lvl tbl = .ok
      { ctx := ctx, base := va / 2 ^ (13 + 10 * lvl) * 2 ^ (13 + 10 * lvl), bits := 13 + 10 * lvl, pa := pa,
        perm := BitVec.ofNat 4 (e / 4) }) ∧
    (∀ l, ¬ bad → bit 1 = false → lvl = l + 1 → s.walk ctx va lvl tbl = s.walk ctx va l pa)) ∧
  (∀ (size l n : Nat) (a : Int) (ma : Bool), 0 < n →
    checkScr size l a n ma =
      if ma = false ∧ ¬ (n : Int) ∣ a then .error (.plain l .misalign (BitVec.ofInt 64 a))
      else if 0 ≤ a ∧ a + n ≤ size then .ok a.toNat
      else .error (.plain l .range (BitVec.ofInt 64 a)))

/-- Performing the plain accesses, at their completion events (log entry 31). -/
def Obligations.AccessCompletionMovesTheBytes : Prop :=
  (∀ (s : State) (o : ORef) (tm : Team) (g : Group) (p : Op),
    s.op? o = some (tm, g, p) → p.done = false → p.waitRetry = false → g.live = true → g.mayGo p = true → p.ord = .rlx →
    p.skip = [] →
    let done (g' : Group) : Prop := g'.ctrs = (g.opDone p.id).ctrs ∧ ∀ q ∈ g'.ops, q.id ≠ p.id
    (∀ (rd : Nat) (sz : BitVec 3) (accs : List LaneAcc), p.kind = .load rd sz accs → (accs.map (·.lane)).Nodup →
      (∀ a ∈ accs, a.lane < 32 ∧ a.got = 0) →
      ∃ t g', exec (.memoryAccessCompletion o) s = .next t ∧ t.mem = s.mem ∧ t.group? o.team o.grp = some g' ∧
        (∀ a ∈ accs, ∀ i, i < szRegs sz → g'.file (.v (rd + i) a.lane) =
          BitVec.ofNat 64 (extend sz 32 (leNat (s.accRead tm a.at_)) / 2 ^ (32 * i) % 2 ^ 32)) ∧
        (∀ loc, (∀ a ∈ accs, ∀ i, i < szRegs sz → loc ≠ .v (rd + i) a.lane) → g'.file loc = g.file loc) ∧ done g') ∧
    (∀ (rd n : Nat) (accs : List LaneAcc), p.kind = .loadBlock rd n accs → (accs.map (·.lane)).Nodup →
      (∀ a ∈ accs, a.lane < 32 ∧ a.got = 0) →
      ∃ t g', exec (.memoryAccessCompletion o) s = .next t ∧ t.mem = s.mem ∧ t.group? o.team o.grp = some g' ∧
        (∀ a ∈ accs, ∀ i, i < n → g'.file (.v (rd + i) a.lane) =
          BitVec.ofNat 64 (leNat (s.accRead tm a.at_) / 2 ^ (32 * i) % 2 ^ 32)) ∧
        (∀ loc, (∀ a ∈ accs, ∀ i, i < n → loc ≠ .v (rd + i) a.lane) → g'.file loc = g.file loc) ∧ done g') ∧
    (∀ (sd : Nat) (sz : BitVec 3) (a : LaneAcc), p.kind = .loadK sd sz a → sd < 64 → a.got = 0 →
      ∃ t g', exec (.memoryAccessCompletion o) s = .next t ∧ t.mem = s.mem ∧ t.group? o.team o.grp = some g' ∧
        g'.file (.s sd) = BitVec.ofNat 64 (extend sz 64 (leNat (s.accRead tm a.at_))) ∧
        (∀ loc, loc ≠ .s sd → g'.file loc = g.file loc) ∧ done g') ∧
    (∀ (rd : Nat) (ks : List (Nat × DWord)), p.kind = .lookup rd ks → (ks.map (·.1)).Nodup → (∀ k ∈ ks, k.1 < 32) →
      ∃ t g', exec (.memoryAccessCompletion o) s = .next t ∧ t.group? o.team o.grp = some g' ∧
        (∀ k ∈ ks, g'.file (.v rd k.1) = (tm.tagFind k.2).setWidth 64) ∧
        (∀ loc, (∀ k ∈ ks, loc ≠ .v rd k.1) → g'.file loc = g.file loc) ∧ done g') ∧
    (∀ es : List (Nat × Option DWord), p.kind = .tagset es →
      ∃ t t' g', exec (.memoryAccessCompletion o) s = .next t ∧ t.mem = s.mem ∧ t.team? o.team = some t' ∧
        t.group? o.team o.grp = some g' ∧ done g' ∧
        (∀ pre e key post, es = pre ++ (e, key) :: post → (∀ q ∈ post, q.1 ≠ e) → Map.get none t'.tags e = key) ∧
        (∀ e, (∀ q ∈ es, q.1 ≠ e) → Map.get none t'.tags e = Map.get none tm.tags e)) ∧
    (∀ (n : Nat) (accs : List LaneAcc), p.kind = .store n accs → s.cacheOk →
      (∀ a ∈ accs, ∀ va bs, a.at_ = .glb va bs → bs.length = n) → (∀ a ∈ accs, a.got = 0) →
      ∃ t t' g', exec (.memoryAccessCompletion o) s = .next t ∧ t.team? o.team = some t' ∧ t.group? o.team o.grp = some g' ∧
        done g' ∧ (∀ loc, g'.file loc = g.file loc) ∧
        (∀ pre a post va bs i b, accs = pre ++ a :: post → a.at_ = .glb va bs → bs[i]? = some b →
          (∀ j c, bs[j]? = some c → j ≠ i → c.pa ≠ b.pa) →
          (∀ q ∈ post, ∀ v cs, q.at_ = .glb v cs → ∀ c ∈ cs, c.pa ≠ b.pa) →
          b.uc = false ∨ (accs = [a] ∧ ∀ c ∈ bs, c.uc = true) → t.grpRead tm.core [b] = [a.data.extractLsb' (8 * i) 8]) ∧
        (∀ pa, (∀ a ∈ accs, ∀ v cs, a.at_ = .glb v cs → ∀ c ∈ cs, c.pa ≠ pa) → t.l1Byte tm.core pa = s.l1Byte tm.core pa) ∧
        (∀ pre a post off m i, accs = pre ++ a :: post → a.at_ = .scr off m → i < n →
          (∀ q ∈ post, ∀ u v, q.at_ = .scr u v → ¬ (u ≤ off + i ∧ off + i < u + n)) →
          t'.scrByte (off + i) = a.data.extractLsb' (8 * i) 8) ∧
        (∀ y, (∀ a ∈ accs, ∀ u v, a.at_ = .scr u v → ¬ (u ≤ y ∧ y < u + n)) → t'.scrByte y = tm.scrByte y))) ∧
  (∀ (tm : Team) (key : DWord), (tm.tagFind key = 0xFFFFFFFF ∧ ∀ e ∈ tm.tags, e.2 ≠ some key) ∨
    ∃ pre e post, tm.tags = pre ++ (e, some key) :: post ∧ tm.tagFind key = BitVec.ofNat 32 e ∧
      ∀ q ∈ pre, q.2 ≠ some key) ∧
  (∀ b : Nat, b < 2 ^ 16 → extend 3 32 b = ((BitVec.ofNat 16 b).signExtend 32).toNat) ∧
  (∀ b : Nat, b < 2 ^ 8 → extend 1 32 b = ((BitVec.ofNat 8 b).signExtend 32).toNat) ∧
  (∀ b : Nat, b < 2 ^ 32 → extend 7 64 b = ((BitVec.ofNat 32 b).signExtend 64).toNat) ∧
  (∀ b w : Nat, extend 0 w b = b ∧ extend 2 w b = b ∧ extend 4 w b = b ∧ extend 5 w b = b ∧ extend 6 w b = b)

/-- SLDK, whose two possible values are log entry 35 and their choice free by log entry 2, and PREF. -/
def Obligations.ConstantLoadsAndPrefetch : Prop :=
  (∀ (h : Hdr) (sd : Reg) (b : SSrc) (x : Iss) (s : State) (l : Launch) (va : DWord) (bs : List PByte),
    IssuesU (.sldk h sd b) h x s → x.inPlace s → x.lone → x.sp.only = none → x.g.full [0] false = false →
    x.launch s = some l → (x.sB h b).toNat % 8 = 0 → 0 ≤ (x.sB h b).toInt → (x.sB h b).toInt + 8 ≤ l.desc.csize →
    x.reachG s .read 0 (l.desc.const + x.sB h b) 8 true = .ok (.glb va bs) →
    Enters (.sldk h sd b) h x s (.const (x.eff h sd) bs
      (BitVec.ofNat 64 (leNat ((List.range 8).map fun i => l.const0.get 0 ((x.sB h b).toNat + i))))) 0 .rlx .grp) ∧
  (∀ (s : State) (o : ORef) (tm : Team) (g : Group) (p : Op) (sd : Nat) (bs : List PByte) (first : DWord),
    s.op? o = some (tm, g, p) → p.done = false → p.waitRetry = false → g.live = true → g.mayGo p = true → p.ord = .rlx →
    p.kind = .const sd bs first → sd < 64 → p.skip = [] →
    ∃ t g', exec (.memoryAccessCompletion o) s = .next t ∧ t.mem = s.mem ∧ t.group? o.team o.grp = some g' ∧
      (g'.file (.s sd) = BitVec.ofNat 64 (leNat (s.grpRead tm.core bs)) ∨ g'.file (.s sd) = first) ∧
      (∀ loc, loc ≠ .s sd → g'.file loc = g.file loc)) ∧
  (∀ (h : Hdr) (l1 : Bool) (m : Mem) (x : Iss) (s : State), Issues (.pref h l1 m) h x s →
    ∃ s', exec (.pref h l1 m) s = .next (x.pass h false s') ∧ s' = { s with cores := s'.cores, dies := s'.dies } ∧
      (∀ c pa, s'.l1Byte c pa = s.l1Byte c pa) ∧ ∀ c, (s'.core c).fifo = (s.core c).fifo)

/-- The atomics: issue, operation, and lane order; they are performed at MEMORY_ACCESS_COMPLETION (log entry 31). -/
def Obligations.AtomicsUpdateOnceInLaneOrder : Prop :=
  (∀ (h : Hdr) (x : Iss) (s : State) (op : AtomOp) (t : ElemTy) (w64 : Bool) (vd vc : Reg) (m : Mem) (w : Nat → Where),
    let glb (u : ElemTy) (l : Nat) := x.reachAtom s l (x.gAddr h m l) (u.bits / 8)
    let scr (u : ElemTy) (l : Nat) := x.reachS s .rmw l (x.sAddr h m l) (u.bits / 8) false
    let accs (u : ElemTy) (cmp : Bool) := (lanesOf (x.active h)).map fun l =>
      ({ lane := l, at_ := w l, data := (x.vE h u vc l).setWidth 128, cmp := if cmp then x.vE h u vd l else 0 } : LaneAcc)
    let z := casTy w64
    (Issues (.atom h op t vd m vc) h x s → x.mayEnter h s 0 → x.reaches h s false true (glb t) w →
      Enters (.atom h op t vd m vc) h x s (.atomic (some op) t (some (x.eff h vd)) (accs t true)) 0 m.ord m.scope) ∧
    (Issues (.atoms h op t vd m vc) h x s → x.mayEnter h s 0 → x.reaches h s false true (scr t) w →
      Enters (.atoms h op t vd m vc) h x s (.atomic (some op) t (some (x.eff h vd)) (accs t true)) 0 m.ord m.scope) ∧
    (Issues (.red h op t m vc) h x s → x.mayEnter h s 1 → x.reaches h s false true (glb t) w →
      Enters (.red h op t m vc) h x s (.atomic (some op) t none (accs t false)) 1 m.ord m.scope) ∧
    (Issues (.cas h w64 vd m vc) h x s → x.mayEnter h s 0 → x.reaches h s false true (glb z) w →
      Enters (.cas h w64 vd m vc) h x s (.atomic none z (some (x.eff h vd)) (accs z true)) 0 m.ord m.scope) ∧
    (Issues (.cass h w64 vd m vc) h x s → x.mayEnter h s 0 → x.reaches h s false true (scr z) w →
      Enters (.cass h w64 vd m vc) h x s (.atomic none z (some (x.eff h vd)) (accs z true)) 0 m.ord m.scope) ∧
    (x.active h = 0 → ∀ i ∈ [Instr.atom h op t vd m vc, .atoms h op t vd m vc, .red h op t m vc, .cas h w64 vd m vc,
        .cass h w64 vd m vc], Issues i h x s →
      (m.ord = .rlx → exec i s = .next (x.pass h false s)) ∧
      (m.ord ≠ .rlx → rels m.ord = false ∨ x.g.openBefore x.g.nextOp = false →
        acqs m.ord = false ∨ x.g.readsBefore x.g.nextOp = false → exec i s =
        .next (x.pass h false ((s.orderActs x.tm.core m.ord m.scope).bumpRegion x.r.team x.r.grp))))) ∧
  (∀ a b : BitVec 32,
    atomVal .add .z32 a.toNat b.toNat = (a + b).toNat ∧ atomVal .exch .z32 a.toNat b.toNat = b.toNat ∧
    atomVal .and .z32 a.toNat b.toNat = (a &&& b).toNat ∧ atomVal .or .z32 a.toNat b.toNat = (a ||| b).toNat ∧
    atomVal .xor .z32 a.toNat b.toNat = (a ^^^ b).toNat ∧
    atomVal .min .z32 a.toNat b.toNat = (if b < a then b else a).toNat ∧
    atomVal .max .z32 a.toNat b.toNat = (if a < b then b else a).toNat ∧
    atomVal .min .s32 a.toNat b.toNat = (if b.slt a then b else a).toNat ∧
    atomVal .max .s32 a.toNat b.toNat = (if a.slt b then b else a).toNat) ∧
  (∀ a b : BitVec 64,
    atomVal .add .z64 a.toNat b.toNat = (a + b).toNat ∧ atomVal .add .s64 a.toNat b.toNat = (a + b).toNat ∧
    atomVal .min .z64 a.toNat b.toNat = (if b < a then b else a).toNat ∧
    atomVal .max .z64 a.toNat b.toNat = (if a < b then b else a).toNat ∧
    atomVal .min .s64 a.toNat b.toNat = (if b.slt a then b else a).toNat ∧
    atomVal .max .s64 a.toNat b.toNat = (if a.slt b then b else a).toNat) ∧
  (∀ (t : ElemTy) (a b : Nat), t ∈ [ElemTy.f32, .f16, .bf16] →
    let nan := if t = .f32 then 0x7FC00000 else if t = .f16 then 0x7E00 else 0x7FC0
    atomVal .add t a b = (addF t .rn false (decodeF t a) (decodeF t b)).bits ∧
    ((decodeF t a).isNan ∨ (decodeF t b).isNan → atomVal .add t a b = nan) ∧
    ((decodeF t a).isInf → (decodeF t b).isInf → (decodeF t a).neg ≠ (decodeF t b).neg → atomVal .add t a b = nan) ∧
    ((decodeF t a).isZero → (decodeF t b).isZero →
      atomVal .add t a b = if (decodeF t a).neg && (decodeF t b).neg then 2 ^ (t.bits - 1) else 0)) ∧
  (∀ a b : Nat,
    let ch (x i : Nat) : Nat := x / 256 ^ i % 256
    ch (atomVal .add .rx3 a b) 0 = (ch a 0 + ch b 0) % 256 ∧ ch (atomVal .add .rx3 a b) 1 = (ch a 1 + ch b 1) % 255 ∧
    ch (atomVal .add .rx3 a b) 2 = (ch a 2 + ch b 2) % 253 ∧ atomVal .add .rx3 a b / 256 ^ 3 = 0) ∧
  (∀ (s : State) (core k : Nat) (bs : List PByte), s.cacheOk → core < 384 → bs ≠ [] →
    (∀ b ∈ bs, b.uc = false ∧ b.pa / 64 = k ∧ b.pa < 12 * 2 ^ 36) →
    let l := lineOf (s.core core).l1 k
    let d := lineOf (s.die (dieOf core)).dc k
    (∀ q, q / 64 = k → (s.atomPrep core bs).homeByte q =
      if l.dirty.getLsbD (q % 64) then l.byte (q % 64)
      else if homeDie q ≠ some (dieOf core) ∧ d.dirty.getLsbD (q % 64) then d.byte (q % 64) else s.homeByte q) ∧
    ∀ q, q / 64 ≠ k → (s.atomPrep core bs).l1Byte core q = s.l1Byte core q) ∧
  (∀ (s : State) (o : ORef) (tm : Team) (g : Group) (p : Op) (op : Option AtomOp) (t : ElemTy) (rd : Option Nat)
      (accs : List LaneAcc),
    s.op? o = some (tm, g, p) → p.done = false → p.waitRetry = false → g.live = true → g.mayGo p = true → p.skip = [] →
    p.kind = .atomic op t rd accs → t ∈ [ElemTy.s32, .z32, .s64, .z64, .f32, .f16, .bf16, .rx3] →
    (accs.map (·.lane)).Nodup → (∀ a ∈ accs, a.lane < 32) → accs ≠ [] →
    let n := t.bits / 8
    let vals (v : Nat) (l : List LaneAcc) : Nat := l.foldl (fun v a => atomStep op t a v % 2 ^ t.bits) v
    let s0 := if rels p.ord then s.release tm.core (if p.kind.onScratch && (p.scope == .team) then .grp else p.scope) else s
    let landed (g' : Group) (v : Nat) : Prop :=
      g'.ctrs = (g.opDone p.id).ctrs ∧ (∀ q ∈ g'.ops, q.id ≠ p.id) ∧
      (∀ loc, (∀ r, rd = some r → ∀ a ∈ accs, ∀ i, i < t.regs → loc ≠ .v (r + i) a.lane) → g'.file loc = g.file loc) ∧
      ∀ r, rd = some r → ∀ pre a post, accs = pre ++ a :: post → ∀ i, i < t.regs →
        g'.file (.v (r + i) a.lane) = BitVec.ofNat 64 (vals v pre / 2 ^ (32 * i) % 2 ^ 32)
    (∀ off, (∀ a ∈ accs, a.at_ = .scr off n) →
      let v := leNat (tm.scrRead off n)
      ∃ u t' g', exec (.memoryAccessCompletion o) s = .next u ∧ u.team? o.team = some t' ∧ u.group? o.team o.grp = some g' ∧
        (p.ord = .rlx → u.mem = s.mem) ∧ leNat (t'.scrRead off n) = vals v accs ∧ landed g' v ∧
        ∀ y, ¬ (off ≤ y ∧ y < off + n) → t'.scrByte y = tm.scrByte y) ∧
    (∀ (va : DWord) (pa : Nat) (uc : Bool), s0.cacheOk → Memory.wf s0.mem = true → n ∣ pa → pa < 12 * 2 ^ 36 →
      (∀ a ∈ accs, a.at_ = .glb va ((List.range n).map fun i => ⟨pa + i, uc⟩)) →
      let s1 := accs.foldl (fun s _ => s.atomPrep tm.core ((List.range n).map fun i => ⟨pa + i, uc⟩)) s0
      let v := leNat (if uc then (List.range n).map fun i => s0.mem.get 0 (pa + i) else s1.homeRead pa n)
      ∃ u g', exec (.memoryAccessCompletion o) s = .next u ∧ u.group? o.team o.grp = some g' ∧ landed g' v ∧
        (uc = true → leNat ((List.range n).map fun i => u.mem.get 0 (pa + i)) = vals v accs ∧
          ∀ q, ¬ (pa ≤ q ∧ q < pa + n) → u.mem.get 0 q = s0.mem.get 0 q) ∧
        (uc = false → leNat (u.homeRead pa n) = vals v accs ∧ (∀ q, q / 64 ≠ pa / 64 → u.homeByte q = s1.homeByte q) ∧
          (rd ≠ none → ∀ q, ¬ (pa ≤ q ∧ q < pa + n) → u.homeByte q = s1.homeByte q))))

/-- Fences, drains and acquires. -/
def Obligations.FencesHoldUntilTheirWritesDrain : Prop :=
  (∀ (h : Hdr) (o : Order) (sc : Scope) (x : Iss) (s : State),
    let held (o : Order) := (x.hold h (.fence o sc [] 0 x.g.nextOp) true s).pushRelease x.r
    (IssuesU (.fence h o sc) h x s → exec (.fence h o sc) s = .next (held o)) ∧
    (IssuesU (.acq h sc) h x s → exec (.acq h sc) s = .next (held .acq)) ∧
    (IssuesU (.rel h sc) h x s → exec (.rel h sc) s = .next (held .rel))) ∧
  (∀ (s : State) (c m : Nat) (ks : List Nat) (rest : List FEnt), s.cacheOk → dieOf c < s.dies.length →
    (s.core c).fifo = ks.map .line ++ .mark m :: rest → m < s.nextMark →
    ∃ t, exec (.releaseDrainComplete (.core c)) s = .next t ∧
      (∀ k ∈ ks, (lineOf (t.core c).l1 k).dirty = 0) ∧ .mark m ∉ (t.core c).fifo ∧
      (∀ pa, t.l1Byte c pa = s.l1Byte c pa) ∧
      (∀ k ∈ ks, ∀ i, (lineOf (s.core c).l1 k).dirty.getLsbD i = true →
        t.dieByte (dieOf c) (64 * k + i) = s.l1Byte c (64 * k + i))) ∧
  (∀ (s : State) (d m : Nat) (ks : List Nat) (rest : List FEnt), s.cacheOk → d < s.dies.length →
    (s.die d).fifo = ks.map .line ++ .mark m :: rest → m < s.nextMark →
    ∃ t, exec (.releaseDrainComplete (.die d)) s = .next t ∧ .mark m ∉ (t.die d).fifo ∧
      (∀ pa, t.dieByte d pa = s.dieByte d pa) ∧
      (∀ k ∈ ks, ∀ i, (lineOf (s.die d).dc k).dirty.getLsbD i = true → t.homeByte (64 * k + i) = s.dieByte d (64 * k + i))) ∧
  (∀ (r : SRef) (x : Iss) (s : State) (o : Order) (sc : Scope) (ms : List (FifoRef × Nat)) (p f : Nat),
    s.at? r = some x → x.sp.hold = .fence o sc ms p f → x.released s = true →
    exec (.fenceComplete r) s =
      .next (((if acqs o then s.acquire x.tm.core sc else s).passHeld r 1).bumpRegion r.team r.grp)) ∧
  (∀ (s : State) (c pa : Nat), s.cacheOk → (lineOf (s.core c).l1 (pa / 64)).dirty.getLsbD (pa % 64) = false →
    (s.acquire c .team).l1Byte c pa = s.dieByte (dieOf c) pa ∧ (s.acquire c .clus).l1Byte c pa = s.dieByte (dieOf c) pa ∧
    ((lineOf (s.die (dieOf c)).dc (pa / 64)).dirty.getLsbD (pa % 64) = false →
      (∀ d, homeDie (pa / 64 * 64) = some d → d ≠ dieOf c →
        (s.acquire c .pkg).l1Byte c pa = s.homeByte pa ∧ (s.acquire c .sys).l1Byte c pa = s.homeByte pa) ∧
      (homeDie (pa / 64 * 64) = none → (s.acquire c .sys).l1Byte c pa = s.homeByte pa)))

/-- BAR, CBAR and the completion of an instance. -/
def Obligations.GroupBarriersCountArrivals : Prop :=
  (∀ (h : Hdr) (sa : Reg) (x : Iss) (s : State),
    (IssuesU (.bar h) h x s → exec (.bar h) s = .next (x.barArrive h false none s)) ∧
    (IssuesU (.cbar h) h x s → exec (.cbar h) s = .next (x.barArrive h true none s)) ∧
    (IssuesU (.barCounted h sa) h x s → exec (.barCounted h sa) s = .next (x.barArrive h false (some (x.sR h sa)) s)) ∧
    (IssuesU (.cbarCounted h sa) h x s → exec (.cbarCounted h sa) s = .next (x.barArrive h true (some (x.sR h sa)) s))) ∧
  (∀ (h : Hdr) (cl : Bool) (n : Option DWord) (x : Iss) (s : State), x.inPlace s → x.lone → x.tm.id = x.r.team →
    (cl = true → (s.clusterOf? x.tm).isSome) →
    let b := s.barInst x.tm cl
    (∀ i, x.sp.bar = some (cl, i) → i ≠ b.num → x.barArrive h cl n s =
      if ∃ d ∈ s.barDone x.tm cl, d.num = i then x.hold h (.bar cl i h.len.words) true s else x.pass h true s) ∧
    ((∀ i, x.sp.bar = some (cl, i) → i = b.num) →
    let c := (n.map (·.toNat)).getD (s.barLive x.tm cl)
    let total := (s.barGroups x.tm cl).length
    (b.arrived.contains (x.r.team, x.r.grp) = true →
      x.barArrive h cl n s = x.hold h (.bar cl b.num h.len.words) true s) ∧
    (b.arrived.contains (x.r.team, x.r.grp) = false →
      ((n ≠ none ∧ (c = 0 ∨ total < c)) ∨ (b.arrived ≠ [] ∧ c ≠ s.barExpect x.tm cl b) ∨ c ≤ b.arrived.length →
        x.barArrive h cl n s = x.groupFault h .barmisuse 0 s) ∧
      ((n = none ∨ (1 ≤ c ∧ c ≤ total)) → (b.arrived = [] ∧ b.fixed = false ∨ b.arrived ≠ [] ∧ c = s.barExpect x.tm cl b) →
        b.arrived.length < c →
        let t := x.barArrive h cl n s
        let b' : BarInst := { b with
          arrived := b.arrived ++ [(x.r.team, x.r.grp)], expect := if n = none then b.expect else some c
          fixed := b.fixed || n.isSome }
        t.mem = s.mem ∧ (∃ tm', t.team? x.r.team = some tm' ∧
          (b.arrived.length + 1 < c → t.barInst tm' cl = b' ∧ t.barDone tm' cl = s.barDone x.tm cl) ∧
          (b.arrived.length + 1 = c →
            t.barInst tm' cl = { num := b.num + 1, arrived := [], expect := none, fixed := false } ∧
            t.barDone tm' cl = s.barDone x.tm cl ++ [b'])) ∧
        ∃ g y, t.group? x.r.team x.r.grp = some g ∧ g.region = x.g.region + 1 ∧ (∀ loc, g.file loc = x.g.file loc) ∧
          g.splits = [y] ∧ y.pc = x.sp.pc ∧ y.hold = .bar cl b.num h.len.words)))) ∧
  (∀ (s : State) (team : Nat) (cl : Bool) (tm : Team) (b : BarInst) (more : List BarInst), s.team? team = some tm →
    tm.acting = true → (cl = true → (s.clusterOf? tm).isSome) → s.barDone tm cl = b :: more →
    (∀ a ∈ b.arrived, ∀ g, s.group? a.1 a.2 = some g → g.openBefore g.barAt = false) →
    ∃ t tm', exec (.barInstanceComplete team cl) s = .next t ∧ t.team? team = some tm' ∧
      t.barDone tm' cl = more ∧ t.barInst tm' cl = s.barInst tm cl ∧
      (((s.barWaiters tm cl b.num).map (·.1)).Nodup → ∀ r n g y, (r, n) ∈ s.barWaiters tm cl b.num →
        s.group? r.team r.grp = some g → g.splits = [y] → y.parent = none → y.leave = none →
        ∃ g' y', t.group? r.team r.grp = some g' ∧ g'.splits = [y'] ∧ y'.mask = y.mask ∧ y'.hold = .run ∧
          y'.pc = y.pc + BitVec.ofNat 64 (4 * n)))

/-- The barrier registers (R211, R212). That BARV releases at .TEAM after the group's earlier accesses and BWAIT and BTEST
acquire is log entry 34; ARRB without a bound is log entry 73. -/
def Obligations.BarrierRegistersFlipWhenBothCountsMatch : Prop :=
  (∀ (h : Hdr) (b : BitVec 4) (v : BarVal) (x : Iss) (s : State),
    let r := x.tm.bar b.toNat
    let n := x.barVal h v
    (IssuesU (.binit h b v) h x s →
      let busy := s.teams.any fun t => t.groups.any fun g => g.ops.any fun o => o.bn == some b.toNat &&
        (match o.kind with
          | .tcopy _ _ _ _ _ _ _ (m :: ms) => (m :: ms).contains x.r.team
          | _ => t.id == x.r.team)
      (r.arrm = 0 ∧ r.arrb = 0 ∧ r.expb = 0 ∧ busy = false ∧ 1 ≤ n ∧ n ≤ 1023 → exec (.binit h b v) s =
        .next (x.setBar h b.toNat { arrb := 0, expb := 0, phase := false, arrm := 0, expm := n }
          (({ arrb := 0, expb := 0, phase := false, arrm := 0, expm := n } : BarReg) != r) s)) ∧
      (r.arrm ≠ 0 ∨ r.arrb ≠ 0 ∨ r.expb ≠ 0 ∨ busy = true ∨ n = 0 ∨ 1023 < n →
        exec (.binit h b v) s = .next (x.groupFault h .barmisuse 0 s))) ∧
    (IssuesU (.barv h b v) h x s → x.g.openBefore x.g.nextOp = false →
      (r.expm = 0 ∨ n = 0 ∨ r.expm < r.arrm + n ∨ (r.arrm + n = r.expm ∧ r.expb < r.arrb) →
        exec (.barv h b v) s = .next (x.groupFault h .barmisuse 0 s)) ∧
      (r.expm ≠ 0 → 1 ≤ n → r.arrm + n < r.expm ∨ (r.arrm + n = r.expm ∧ r.arrb < r.expb) → exec (.barv h b v) s =
        .next ((x.setBar h b.toNat { r with arrm := r.arrm + n } true (s.release x.tm.core .team)).bumpRegion x.r.team x.r.grp)) ∧
      (r.expm ≠ 0 → 1 ≤ n → r.arrm + n = r.expm → r.arrb = r.expb → exec (.barv h b v) s =
        .next ((x.setBar h b.toNat { r with phase := !r.phase, arrm := 0, arrb := 0, expb := 0 } true
          (s.release x.tm.core .team)).bumpRegion x.r.team x.r.grp))) ∧
    (IssuesU (.barv h b v) h x s → x.g.openBefore x.g.nextOp = true → exec (.barv h b v) s = .next s) ∧
    (IssuesU (.bexp h b v) h x s →
      (r.expm = 0 ∨ 2 ^ 32 ≤ r.expb + n ∨ r.expm < r.arrm ∨ (r.arrm = r.expm ∧ r.expb + n < r.arrb) →
        exec (.bexp h b v) s = .next (x.groupFault h .barmisuse 0 s)) ∧
      (r.expm ≠ 0 → r.expb + n < 2 ^ 32 → r.arrm < r.expm ∨ (r.arrm = r.expm ∧ r.arrb < r.expb + n) →
        exec (.bexp h b v) s = .next (x.setBar h b.toNat { r with expb := r.expb + n } true s)) ∧
      (r.expm ≠ 0 → r.expb + n < 2 ^ 32 → r.arrm = r.expm → r.arrb = r.expb + n → exec (.bexp h b v) s =
        .next (x.setBar h b.toNat { r with phase := !r.phase, arrm := 0, arrb := 0, expb := 0 } true s)))) ∧
  (∀ (b : BarReg) (bytes : Nat),
    (b.expm = 0 → b.arrive 1 bytes = none) ∧
    (b.arrm + 1 < b.expm ∨ (b.arrm + 1 = b.expm ∧ b.arrb + bytes < b.expb) →
      b.arrive 1 bytes = some { b with arrm := b.arrm + 1, arrb := b.arrb + bytes }) ∧
    (b.expm ≠ 0 → b.arrm + 1 = b.expm → b.arrb + bytes = b.expb →
      b.arrive 1 bytes = some { b with phase := !b.phase, arrm := 0, arrb := 0, expb := 0 }) ∧
    (b.expm < b.arrm + 1 ∨ (b.arrm + 1 = b.expm ∧ b.expb < b.arrb + bytes) → b.arrive 1 bytes = none)) ∧
  (∀ (h : Hdr) (b : BitVec 4) (p : ParVal) (kd : Reg) (x : Iss) (s : State), x.g.efaults = [] →
    let r := x.tm.bar b.toNat
    let ph := x.parity h p
    let bits : DWord := if r.phase = ph then 0 else 0xFFFFFFFF
    (IssuesU (.bwait h b p) h x s →
      (r.expm = 0 → exec (.bwait h b p) s = .next (x.groupFault h .barmisuse 0 s)) ∧
      (r.expm ≠ 0 → r.phase ≠ ph → exec (.bwait h b p) s = .next (x.pass h false (x.phaseSeen s))) ∧
      (r.expm ≠ 0 → r.phase = ph → exec (.bwait h b p) s = .next (x.hold h (.bwait b.toNat ph) false s))) ∧
    (IssuesU (.btest h kd b p) h x s →
      (r.expm = 0 → exec (.btest h kd b p) s = .next (x.groupFault h .barmisuse 0 s)) ∧
      (r.expm ≠ 0 → exec (.btest h kd b p) s = .next (x.result (.btest h kd b p) h [(.k (x.eff h kd), 0xFFFFFFFF, bits)]
        (if r.phase = ph then s else x.phaseSeen s))))) ∧
  (∀ (r : SRef) (x : Iss) (s : State) (b : Nat) (p : Bool), s.at? r = some x → x.g.efaults = [] → x.sp.hold = .bwait b p →
    exec (.bwaitReturn r) s = .next (if (x.tm.bar b).phase = p then s else (x.phaseSeen s).passHeld r 2))

/-- Counters, WAITN and TRIG. -/
def Obligations.WaitsAndTriggersFollowTheCounters : Prop :=
  (∀ (g : Group) (n i j : Nat) (rest : List (Nat × Bool)), g.ctrs[n]? = some ((j, false) :: rest) →
    (j ≠ i → (g.opDone i).ctr n = g.ctr n) ∧
    ((∀ p ∈ rest, p.1 ≠ j) → (g.opDone j).ctr n = (rest.dropWhile (·.2)).length)) ∧
  (∀ (h : Hdr) (n : BitVec 8) (w : WaitThr) (x : Iss) (s : State), IssuesU (.waitn h n w) h x s → x.g.efaults = [] →
    (x.g.ctr n.toNat ≤ x.waitThr h w →
      exec (.waitn h n w) s = .next ((x.pass h false s).bumpRegion x.r.team x.r.grp)) ∧
    (x.waitThr h w < x.g.ctr n.toNat →
      exec (.waitn h n w) s = .next (x.hold h (.waitn n.toNat (x.waitThr h w)) false s))) ∧
  (∀ (r : SRef) (x : Iss) (s : State) (n w : Nat), s.at? r = some x → x.g.efaults = [] → x.sp.hold = .waitn n w →
    exec (.waitnReturn r) s = .next (if x.g.ctr n ≤ w then (s.passHeld r 2).bumpRegion r.team r.grp else s)) ∧
  (∀ (h : Hdr) (c : TrigCond) (w : TrigThr) (x : Iss) (s : State) (bs : List Byte),
    s.issuer = some x → s.fetch (x.follow h) = .word bs →
    (trigTarget bs = none → exec (.trig h c w) s = .next (x.unitFault h (hdrOf (wordAt bs 0)) x.sp.pc .illform s)) ∧
    (∀ e, trigTarget bs = some (.error e) → exec (.trig h c w) s =
      .next (x.unitFault h (hdrOf (wordAt bs 0)) (x.next h) e s))) ∧
  (∀ (h h2 : Hdr) (c : TrigCond) (w : TrigThr) (x : Iss) (s : State) (bs : List Byte) (i : Instr) (op : Nat),
    s.issuer = some x → x.inPlace s → x.lone → h.never = false → x.check (.trig h c w) h 0xA9 s = none →
    s.fetch (x.follow h) = .word bs → trigTarget bs = some (.ok (i, h2, op)) →
    (x.g.uGuard x.sp.id h = false ∨ h2.never = true → exec (.trig h c w) s = .next (x.passUnit h h2 false s)) ∧
    (∀ b : Built, x.g.uGuard x.sp.id h = true → h2.never = false →
      let y : Iss := { x.follow h with g := x.g.consume s.now x.sp.id h.st.toNat false }
      y.check i h2 op s = none → (x.g.ops.filter (·.trig.isSome)).length < 8 → y.buildTrig i s = some (b, []) →
      x.g.full b.ctrs true = false →
      ∃ t g o z, exec (.trig h c w) s = .next t ∧ t.mem = s.mem ∧ t.group? x.r.team x.r.grp = some g ∧
        g.ops = x.g.ops ++ [o] ∧ o.kind = b.kind ∧ o.bn = b.bn ∧ o.engine = true ∧
        o.trig = (if (x.trigWait h c w).holds x.tm x.g then none else some (x.trigWait h c w)) ∧
        g.ctrs = b.ctrs.foldl (fun c n => c.modify n (· ++ [(x.g.nextOp, false)])) x.g.ctrs ∧
        (∀ loc, g.file loc = x.g.file loc) ∧ g.splits = [z] ∧
        z.pc = x.next h + BitVec.ofNat 64 (4 * h2.len.words) ∧ z.hold = .run)) ∧
  (∀ (o : ORef) (s : State) (tm : Team) (g : Group) (p : Op) (w : TrigWait), s.op? o = some (tm, g, p) → p.trig = some w →
    w.holds tm g = true → tm.acting = true →
    exec (.triggerFire o) s = .next (s.modGroup o.team o.grp fun g => g.modOp p.id fun q => { q with trig := none }))

/-- The copies, at issue and at completion; that a copy is performed in one step is log entry 39. -/
def Obligations.CopiesMoveBytesAtCompletion : Prop :=
  (∀ (h : Hdr) (bar : Option (BitVec 4)) (size : BitVec 2) (dir : CopyDir) (src dst : Reg) (ds dd : BitVec 16) (x : Iss)
      (s : State) (w : Nat → Where × Where),
    Issues (.cpa h bar size dir src dst ds dd) h x s → x.mayEngine s [2] →
    (∀ l ∈ lanesOf (x.active h), s.checkCopy x.bench x.tm.core (x.tm.ctx s) (x.tm.scrSize s) dir (4 * 2 ^ size.toNat) l
      (x.cpaAddr h (copyGlob dir).1 src ds l) (x.cpaAddr h (copyGlob dir).2 dst dd l) = .ok (w l)) →
    EntersOp (.cpa h bar size dir src dst ds dd) h x s [2] fun o => o.engine = true ∧
      o.kind = .copy ((lanesOf (x.active h)).map fun l => (l, w l)) ∧ o.bn = bar.map (·.toNat) ∧
      o.bytes = 4 * 2 ^ size.toNat * popCount (x.active h)) ∧
  (∀ (h : Hdr) (bar : Option (BitVec 4)) (dir : CopyDir) (scr : Bool) (src dst : Reg) (d : DescSrc) (id : BitVec 4) (x : Iss)
      (s : State) (b : Built), x.mayEngine s [2] → x.mustWait (x.descRegion h scr d s) = false →
    (Issues (.tcopy h bar dir scr src dst d) h x s → x.buildTcopy h bar dir scr src dst d none s = .ok b →
      EntersOp (.tcopy h bar dir scr src dst d) h x s [2] fun o => o.engine = true ∧ o.kind = b.kind ∧ o.bn = b.bn ∧
        o.bytes = b.bytes) ∧
    (Issues (.tcopym h bar scr src dst d id) h x s → x.buildTcopy h bar .gs scr src dst d (some id) s = .ok b →
      EntersOp (.tcopym h bar scr src dst d id) h x s [2] fun o => o.engine = true ∧ o.kind = b.kind ∧ o.bn = b.bn ∧
        o.bytes = b.bytes)) ∧
  (∀ (s : State) (o : ORef) (tm : Team) (g : Group) (p : Op), s.op? o = some (tm, g, p) → g.mayGo p = true →
    (∀ es : List (Nat × Where × Where), p.kind = .copy es → p.waitRetry = false → s.cacheOk →
      dieOf tm.core < s.dies.length →
      let s1 := es.foldl (fun s e => s.engReady tm e.2.1) (s.engHull tm.core (tm.ctx s) p.fp)
      (∀ e ∈ es, s1.engDamaged tm e.2.1 = false) →
      ∃ t t' g', exec (.copyCompletion o) s = .next t ∧ t.team? o.team = some t' ∧ t.group? o.team o.grp = some g' ∧
        (∀ q ∈ g'.ops, q.id ≠ p.id) ∧ (∀ loc, g'.file loc = g.file loc) ∧
        (∀ n b, p.bn = some n → (tm.bar n).arrive 1 p.bytes = some b → t'.bars = tm.bars.set n b) ∧
        (∀ pre l a off n post i, es = pre ++ (l, a, .scr off n) :: post → i < (s1.engFrom tm a).length →
          (∀ q ∈ post, ∀ u v, q.2.2 = .scr u v → ¬ (u ≤ off + i ∧ off + i < u + (s1.engFrom tm q.2.1).length)) →
          some (t'.scrByte (off + i)) = (s1.engFrom tm a)[i]?) ∧
        (∀ y, (∀ q ∈ es, ∀ u v, q.2.2 = .scr u v → ¬ (u ≤ y ∧ y < u + (s1.engFrom tm q.2.1).length)) →
          t'.scrByte y = tm.scrByte y) ∧
        ((∀ e ∈ es, ∀ va bs, e.2.2 = .glb va bs → ∀ c ∈ bs, c.uc = false) →
          (∀ pre l a va bs post i b, es = pre ++ (l, a, .glb va bs) :: post → bs[i]? = some b →
            (∀ j c, bs[j]? = some c → j ≠ i → c.pa ≠ b.pa) →
            (∀ q ∈ post, ∀ v cs, q.2.2 = .glb v cs → ∀ c ∈ cs, c.pa ≠ b.pa) →
            i < (s1.engFrom tm a).length → some (t.l1Byte tm.core b.pa) = (s1.engFrom tm a)[i]?) ∧
          (∀ pa, (∀ q ∈ es, ∀ v cs, q.2.2 = .glb v cs → ∀ c ∈ cs, c.pa ≠ pa) →
            (lineOf (s1.core tm.core).l1 (pa / 64)).dirty.getLsbD (pa % 64) = false →
            t.dieByte (dieOf tm.core) pa = s1.dieByte (dieOf tm.core) pa))) ∧
    (∀ (a b : DWord) (esz : Nat) (ns : List Nat) (ss ds : List Int) (ms : List Nat) (w : List Nat → Where)
        (q : List Nat → Nat),
      p.kind = .tcopy .gs a b esz ns ss ds ms →
      (∀ i ∈ indices ns, s.elemAt (o.grp % 4) tm (tm.ctx s) true .read (baseOf true a + dotStride i ss) esz = .ok (w i) ∧
        s.engDamaged tm (w i) = false ∧ baseOf false b + dotStride i ds = q i) →
      let s1 := (indices ns).foldl (fun s i => s.engReady tm (w i)) (s.engHull tm.core (tm.ctx s) p.fp)
      ∃ t, exec (.copyCompletion o) s = .next t ∧
        ∀ m, m ∈ (if ms = [] then [o.team] else ms) → ∀ tm0, s.team? m = some tm0 → ∃ t', t.team? m = some t' ∧
          (∀ pre i post k, indices ns = pre ++ i :: post → k < esz →
            (∀ j ∈ post, ¬ (q j ≤ q i + k ∧ q i + k < q j + esz)) →
            some (t'.scrByte (q i + k)) = (s1.engFrom tm (w i))[k]?) ∧
          ∀ y, (∀ j ∈ indices ns, ¬ (q j ≤ y ∧ y < q j + esz)) → t'.scrByte y = tm0.scrByte y) ∧
    (∀ (dir : CopyDir) (a b : DWord) (esz : Nat) (ns : List Nat) (ss ds : List Int) (w : List Nat → Where)
        (va : List Nat → DWord) (dst : List Nat → List PByte),
      p.kind = .tcopy dir a b esz ns ss ds [] → dir = .sg ∨ dir = .gg → s.cacheOk → dieOf tm.core < s.dies.length →
      (∀ i ∈ indices ns, s.elemAt (o.grp % 4) tm (tm.ctx s) (dir == .gg) .read (baseOf (dir == .gg) a + dotStride i ss) esz =
          .ok (w i) ∧ s.engDamaged tm (w i) = false ∧
        s.elemAt (o.grp % 4) tm (tm.ctx s) true .write (baseOf true b + dotStride i ds) esz = .ok (.glb (va i) (dst i)) ∧
        ∀ c ∈ dst i, c.uc = false) →
      (∀ i ∈ indices ns, ∀ v bs, w i = .glb v bs → ∀ c ∈ bs, c.uc = false ∧ ∀ j ∈ indices ns, ∀ e ∈ dst j, e.pa ≠ c.pa) →
      let s1 := (indices ns).foldl (fun s i => s.engReady tm (w i)) (s.engHull tm.core (tm.ctx s) p.fp)
      ∃ t, exec (.copyCompletion o) s = .next t ∧
        (∀ (pre : List (List Nat)) (i : List Nat) (post : List (List Nat)) (k : Nat) (c : PByte), indices ns = pre ++ i :: post → (dst i)[k]? = some c →
          (∀ (j : Nat) (e : PByte), (dst i)[j]? = some e → j ≠ k → e.pa ≠ c.pa) → (∀ j ∈ post, ∀ e ∈ dst j, e.pa ≠ c.pa) →
          some (t.l1Byte tm.core c.pa) = (s1.engFrom tm (w i))[k]?) ∧
        ∀ pa, (∀ i ∈ indices ns, ∀ e ∈ dst i, e.pa ≠ pa) →
          (lineOf (s1.core tm.core).l1 (pa / 64)).dirty.getLsbD (pa % 64) = false →
          t.dieByte (dieOf tm.core) pa = s1.dieByte (dieOf tm.core) pa) ∧
    (∀ (a b : DWord) (esz : Nat) (ns : List Nat) (ss ds : List Int) (r q : List Nat → Nat),
      p.kind = .tcopy .ss a b esz ns ss ds [] →
      (∀ i ∈ indices ns, baseOf false a + dotStride i ss = r i ∧ baseOf false b + dotStride i ds = q i ∧
        tm.scrDamaged (r i) esz = false) →
      (∀ i ∈ indices ns, ∀ j ∈ indices ns, r i + esz ≤ q j ∨ q j + esz ≤ r i) →
      ∃ t t', exec (.copyCompletion o) s = .next t ∧ t.team? o.team = some t' ∧
        (∀ pre i post k, indices ns = pre ++ i :: post → k < esz →
          (∀ j ∈ post, ¬ (q j ≤ q i + k ∧ q i + k < q j + esz)) → t'.scrByte (q i + k) = tm.scrByte (r i + k)) ∧
        ∀ y, (∀ j ∈ indices ns, ¬ (q j ≤ y ∧ y < q j + esz)) → t'.scrByte y = tm.scrByte y))

/-- MMA (R232), with the exact integer path. Which value within R87's bound the floating-point path gives is free (log entry 4). -/
def Obligations.MatrixMultiplyAddsProducts : Prop :=
  ∀ (h : Hdr) (ta tb : ElemTy) (tc : AccTy) (ad va vb : Reg) (x : Iss) (s : State),
    let d := x.eff h ad
    let rows := x.laneRegs (x.eff h va) (matRegs ta)
    let cols := x.laneRegs (x.eff h vb) (matRegs tb)
    let old (i j : Nat) := (x.g.tileWords d).getD (32 * i + j) 0
    (∀ async, Issues (.mma h async ta tb tc ad va vb) h x s → x.g.slabCheck ta tb d 1 = .over →
      exec (.mma h async ta tb tc ad va vb) s = .next (x.groupFault h .rnsovf 0 s)) ∧
    (∀ sl, Issues (.mma h false ta tb tc ad va vb) h x s → x.inPlace s → x.lone → x.g.slabCheck ta tb d 1 = .ok [sl] →
      x.g.tilesBusy [tileFp d 1 true] = false →
      Completes (.mma h false ta tb tc ad va vb) h x s fun _ g => g.regsAs x.g ∧
        (∀ b, b ≠ d → g.tileWords b = x.g.tileWords b) ∧
        ∀ i j, i < 32 → j < 32 →
          let w := old i j
          let w' := (g.tileWords d).getD (32 * i + j) 0
          let sum : Int := (((unpackI ta (rows.getD i [])).zip (unpackI tb (cols.getD j []))).map fun p => p.1 * p.2).sum
          w'.toNat / 2 ^ 24 = sl % 256 ∧
          (x.g.occ.getLsbD i = true → x.g.occ.getLsbD j = true →
            ((w'.toNat % 256 : Nat) : Int) = ((w.toNat % 256 : Nat) + sum) % 256 ∧
            ((w'.toNat / 2 ^ 8 % 256 : Nat) : Int) = ((w.toNat / 2 ^ 8 % 256 : Nat) + sum) % 255 ∧
            ((w'.toNat / 2 ^ 16 % 256 : Nat) : Int) = ((w.toNat / 2 ^ 16 % 256 : Nat) + sum) % 253) ∧
          (x.g.occ.getLsbD i = false ∨ x.g.occ.getLsbD j = false → w'.toNat % 2 ^ 24 = w.toNat % 2 ^ 24)) ∧
    (Issues (.mma h false ta tb tc ad va vb) h x s → x.inPlace s → x.lone → x.g.slabCheck ta tb d 1 = .none →
      x.g.tilesBusy [tileFp d 1 true] = false →
      Completes (.mma h false ta tb tc ad va vb) h x s fun _ g => g.regsAs x.g ∧
        (∀ b, b ≠ d → g.tileWords b = x.g.tileWords b) ∧
        ∀ i j, i < 32 → j < 32 →
          let w' := (g.tileWords d).getD (32 * i + j) 0
          (x.g.occ.getLsbD i = false ∨ x.g.occ.getLsbD j = false → w' = old i j) ∧
          (x.g.occ.getLsbD i = true → x.g.occ.getLsbD j = true →
            let t := accFmt tc
            let c := decodeF t ((old i j).toNat % 2 ^ t.bits)
            let ps := (unpackF ta (rows.getD i [])).zip (unpackF tb (cols.getD j []))
            let nans := ∃ f ∈ c :: (unpackF ta (rows.getD i []) ++ unpackF tb (cols.getD j [])), f.isNan = true
            let inv := ∃ p ∈ ps, (p.1.isInf = true ∧ p.2.isZero = true) ∨ (p.1.isZero = true ∧ p.2.isInf = true)
            let inf (n : Bool) := (c.isInf = true ∧ c.neg = n) ∨
              ∃ p ∈ ps, (p.1.isInf = true ∨ p.2.isInf = true) ∧ (p.1.neg != p.2.neg) = n
            (nans ∨ inv ∨ (inf true ∧ inf false) → w' = BitVec.ofNat 32 (nanCode t)) ∧
            (∀ n, ¬ nans → ¬ inv → inf n → ¬ inf (!n) → w' = BitVec.ofNat 32 (withSign t n (infCode t))) ∧
            (¬ nans → ¬ inf true → ¬ inf false →
              let qs := ps.map fun p => p.1.ex.mul p.2.ex
              let sum := qs.foldl Ex.add c.ex
              let mag := (qs.map Ex.abs).foldl Ex.add c.ex.abs
              let rn (v : Ex) : Int := codeKey t (roundTo t .rn false false false v).bits
              let lo := rn (sum.add (mag.mul (.pow2 (-22))).neg)
              let hi := rn (sum.add (mag.mul (.pow2 (-22))))
              (mag.n = 0 → w' = BitVec.ofNat 32 (withSign t (c.neg && ps.all fun p => p.1.neg != p.2.neg) 0)) ∧
              (mag.n ≠ 0 → ∃ q, (codeKey t q = lo ∨ codeKey t q = hi ∨ (lo ≤ codeKey t q ∧ codeKey t q ≤ hi)) ∧
                (q % 2 ^ (t.bits - 1) = infCode t →
                  w' = BitVec.ofNat 32 (if t = .f32 then q else withSign t (decide (2 ^ (t.bits - 1) ≤ q)) (maxCode t)) ∧
                  (g.tflags.get 0 d).getLsbD (if t = .f32 then 0 else 1) = true) ∧
                (q % 2 ^ (t.bits - 1) ≠ infCode t →
                  w' = if q % 2 ^ (t.bits - 1) = 0 then 0 else BitVec.ofNat 32 q))))) ∧
    (Issues (.mma h true ta tb tc ad va vb) h x s → x.mayEngine s [3] →
      (x.g.slabCheck ta tb d 1 = .none ∨ ∃ l, x.g.slabCheck ta tb d 1 = .ok l) →
      EntersOp (.mma h true ta tb tc ad va vb) h x s [3] fun o => o.engine = true ∧ o.fp = [tileFp d 1 true] ∧
        o.kind = .mma d ta tb tc rows x.g.occ [(cols, x.g.occ)] (x.g.slabCheck ta tb d 1).list)

/-- The tile instructions (R240 to R245). -/
def Obligations.TileInstructionsMoveElements : Prop :=
  ∀ (h : Hdr) (ad aa va vb vc sa sd : Reg) (n : BitVec 5) (c : BitVec 8) (tp : ElemTy) (x : Iss) (s : State),
    x.inPlace s → x.lone →
    let d := x.eff h ad
    let a := x.eff h aa
    let regs (g : Group) : Prop := g.regsAs x.g
    let tiles (g : Group) (d : Nat) : Prop := ∀ b, b ≠ d → g.tileWords b = x.g.tileWords b
    let el (g : Group) (b k : Nat) : Word := (g.tileWords b).getD k 0
    let v (r : Reg) (l : Nat) : FVal := decodeF .f32 (x.g.vr x.sp.id (x.eff h r) l).toNat
    (Issues (.rcvt h ad aa) h x s → x.g.tilesBusy [tileFp d 1 true, tileFp a 1 false] = false →
      Completes (.rcvt h ad aa) h x s fun _ g => regs g ∧ tiles g d ∧
        ∀ k < 1024, el g d k = BitVec.ofInt 32 (rx3Val (el x.g a k).toNat)) ∧
    (Issues (.scacc h tp ad aa vb vc) h x s → x.g.tilesBusy [tileFp d 1 true, tileFp a 1 false] = false →
      Completes (.scacc h tp ad aa vb vc) h x s fun _ g => regs g ∧ tiles g d ∧ ∀ i j, i < 32 → j < 32 →
        let p := el x.g a (32 * i + j)
        let pv : FVal := if tp = .f32 then decodeF .f32 p.toNat else .fin (decide (p.toInt < 0)) p.toInt.natAbs 0
        el g d (32 * i + j) = if x.g.occ.getLsbD i = true ∧ x.g.occ.getLsbD j = true
          then (scaccElem (decodeF .f32 (el x.g d (32 * i + j)).toNat) (v vb i) (v vc j) pv).1
          else el x.g d (32 * i + j)) ∧
    (Issues (.accz h ad) h x s → x.g.tilesBusy [tileFp d 1 true] = false →
      Completes (.accz h ad) h x s fun _ g => regs g ∧ tiles g d ∧ (∀ k < 1024, el g d k = 0) ∧ g.tflags.get 0 d = 0 ∧
        g.slab d = 0) ∧
    (Issues (.accrd h n va aa c) h x s → x.g.tilesBusy [tileFp a 1 false] = false →
      Completes (.accrd h n va aa c) h x s fun _ g => (∀ b, g.tileWords b = x.g.tileWords b) ∧
        (∀ t i, t ≤ n.toNat → i < 32 → x.g.occ.getLsbD i = true → c.toNat + t < 32 →
          g.file (.v (x.eff h va + t) i) = (el x.g a (32 * i + c.toNat + t)).setWidth 64) ∧
        ∀ loc, (∀ t i, t ≤ n.toNat → i < 32 → x.g.occ.getLsbD i = true → loc ≠ .v (x.eff h va + t) i) →
          g.file loc = x.g.file loc) ∧
    (Issues (.accwr h n ad vb c) h x s → x.g.tilesBusy [tileFp d 1 true] = false →
      Completes (.accwr h n ad vb c) h x s fun _ g => regs g ∧ tiles g d ∧ ∀ i j, i < 32 → j < 32 →
        el g d (32 * i + j) = if x.g.occ.getLsbD i = true ∧ c.toNat ≤ j ∧ j ≤ c.toNat + n.toNat
          then x.g.vr x.sp.id (x.eff h vb + (j - c.toNat)) i else el x.g d (32 * i + j)) ∧
    (∀ q : Nat, (x.sR h sa).toInt = q → 4 ∣ q → q + 4096 ≤ x.tm.scrSize s → x.mustWait [⟨.scratch x.r.team, q, q + 4096, false⟩] = false →
      x.tm.scrDamaged q 4096 = false → x.raceHit s (.scr q 4096) false = none → x.g.tilesBusy [tileFp d 1 true] = false →
      Issues (.accld h ad sa) h x s → Completes (.accld h ad sa) h x s fun t g => regs g ∧ tiles g d ∧
        (∀ k < 1024, (el g d k).toNat = leNat (x.tm.scrRead (q + 4 * k) 4)) ∧
        ∃ t', t.team? x.r.team = some t' ∧ ∀ y, t'.scrByte y = x.tm.scrByte y) ∧
    (∀ q : Nat, (x.sR h sa).toInt = q → 4 ∣ q → q + 4096 ≤ x.tm.scrSize s → x.mustWait [⟨.scratch x.r.team, q, q + 4096, true⟩] true = false →
      x.raceHit s (.scr q 4096) true = none → x.g.tilesBusy [tileFp d 1 false] = false →
      Issues (.accst h ad sa) h x s → Completes (.accst h ad sa) h x s fun t g => regs g ∧
        (∀ b, g.tileWords b = x.g.tileWords b) ∧ ∃ t', t.team? x.r.team = some t' ∧
          (∀ k < 1024, leNat (t'.scrRead (q + 4 * k) 4) = (el x.g d k).toNat) ∧
          ∀ y, ¬ (q ≤ y ∧ y < q + 4096) → t'.scrByte y = x.tm.scrByte y) ∧
    (∀ clr : Bool, Issues (.accstat h clr sd aa) h x s → x.g.tilesBusy [tileFp a 1 true] = false → x.eff h sd < 64 →
      Completes (.accstat h clr sd aa) h x s fun _ g => (∀ b, g.tileWords b = x.g.tileWords b) ∧
        g.file (.s (x.eff h sd)) = BitVec.ofNat 64 (x.g.slab a * 256 + (x.g.tflags.get 0 a).toNat) ∧
        g.tflags.get 0 a = (if clr then 0 else x.g.tflags.get 0 a) ∧
        ∀ loc, loc ≠ .s (x.eff h sd) → g.file loc = x.g.file loc)

/-- MMAQ, MMV, MLUTB, MLUT and the events of the array. How long a throttled island delays a start is free (log entry 2). -/
def Obligations.QuartetsStreamsAndTablesRunOnTheArray : Prop :=
  (∀ (h : Hdr) (async : Bool) (ta tb : ElemTy) (tc : AccTy) (ad va vb : Reg) (x : Iss) (s : State),
    let i : Instr := .mmaq h async ta tb tc ad va vb
    let d := x.eff h ad
    Issues i h x s → x.inPlace s → x.lone →
    (x.tm.groups.length % 4 ≠ 0 → exec i s = .next (x.groupFault h .quartet 0 s)) ∧
    (x.tm.groups.length % 4 = 0 → x.g.slabCheck ta tb d 4 ≠ .wait → x.g.slabCheck ta tb d 4 ≠ .over →
      (if async then x.g.full [3] true else x.g.tilesBusy [tileFp d 4 true]) = false →
      (∀ g ∈ x.tm.groups, g.grp / 4 = x.r.grp / 4 → g.live = true) →
      ∃ t t' g y a, exec i s = .next t ∧ t.mem = s.mem ∧ t.team? x.r.team = some t' ∧
        t'.quartArr = x.tm.quartArr ++ [(x.r.grp / 4, x.g.mmaqs, a)] ∧ a.grp = x.r.grp ∧ a.split = x.sp.id ∧ a.d = d ∧
        a.rows = x.laneRegs (x.eff h va) (matRegs ta) ∧ a.cols = x.laneRegs (x.eff h vb) (matRegs tb) ∧
        a.op = (if async then some x.g.nextOp else none) ∧ t.group? x.r.team x.r.grp = some g ∧
        g.mmaqs = x.g.mmaqs + 1 ∧ (∀ loc, g.file loc = x.g.file loc) ∧ (∀ b, g.tileWords b = x.g.tileWords b) ∧
        g.splits = [y] ∧ y.pc = x.sp.pc ∧ y.hold = .mmaq x.g.mmaqs)) ∧
  (∀ (s : State) (team q n : Nat) (tm : Team) (as : List QuartArr), s.team? team = some tm →
    (tm.quartArr.filter (·.1 = q)).map (·.2.1) ≠ [] →
    ((tm.quartArr.filter (·.1 = q)).map (·.2.1)).foldl min n = n → n ∈ (tm.quartArr.filter (·.1 = q)).map (·.2.1) →
    as = sortBy (·.grp) (tm.quartet q n) → as.length = 4 → (∀ g ∈ tm.groups, g.grp / 4 = q → g.live = true) →
    let cols := as.map fun b => (b.cols, b.occ)
    let s' := s.modTeam team fun t => { t with quartArr := t.quartArr.filter fun a => !(a.1 = q ∧ a.2.1 = n) }
    ((∀ a ∈ as, ∀ b ∈ as, a.async = b.async ∧ a.ta = b.ta ∧ a.tb = b.tb ∧ a.tc = b.tc) →
      ∃ t, exec (.quartetRendezvous team q) s = .next t ∧ ∀ a ∈ as, (as.map (·.grp)).Nodup → a.op = none →
        ∀ g y, s.group? team a.grp = some g → g.splits = [y] → y.id = a.split → y.parent = none → y.leave = none →
          ∃ g' y' f, t.group? team a.grp = some g' ∧ g'.splits = [y'] ∧ y'.pc = y.pc + 8 ∧ y'.hold = .run ∧
            g'.regsAs g ∧
            ∀ b, g'.tileWords b = (g.runMma a.d a.ta a.tb a.tc a.rows a.occ cols
              (g.slabCheck a.ta a.tb a.d 4).list f).tileWords b) ∧
    (¬ (∀ a ∈ as, ∀ b ∈ as, a.async = b.async ∧ a.ta = b.ta ∧ a.tb = b.tb ∧ a.tc = b.tc) →
      exec (.quartetRendezvous team q) s = .next (as.foldl (fun s a => s.failQuart team a) s'))) ∧
  (∀ (h : Hdr) (tw tv : ElemTy) (tc : AccTy) (ad vx : Reg) (sw ss : BitVec 8) (nr : BitVec 7) (nv : BitVec 3) (x : Iss)
      (s : State),
    let i : Instr := .mmv h tw tv tc ad vx sw ss nr nv
    let w := x.sR h (.plain sw)
    let st := x.sR h (.plain ss)
    let hi := w.toNat + nr.toNat * st.toNat + mmvBytes tw tv
    Issues i h x s → 16 ∣ w.toNat → 16 ∣ st.toNat →
    (noncanonHull w.toNat hi = true → exec i s = .next (x.uniFaults h (x.uniFault .noncanon w []) [] s)) ∧
    (noncanonHull w.toNat hi = false → x.mayEngine s [3] →
      EntersOp i h x s [3] fun o => o.engine = true ∧ o.kind = .mmv (x.eff h ad) tw tv tc w st (nr.toNat + 1)
      ((List.range (nv.toNat + 1)).map fun v => x.laneRegs (x.eff h vx + 24 * v) 24) x.g.occ)) ∧
  (∀ (h : Hdr) (m : LutMode) (ad aa va vb : Reg) (x : Iss) (s : State), x.inPlace s → x.lone →
    let d := x.eff h ad
    let a := x.eff h aa
    let planes := x.laneRegs (x.eff h vb) (if m = .b1 ∨ m = .b1pm then 3 else 6)
    let el (g : Group) (b k : Nat) : Word := (g.tileWords b).getD k 0
    (Issues (.mlutb h ad va) h x s → x.g.tilesBusy [tileFp d 6 true] = false →
      Completes (.mlutb h ad va) h x s fun _ g => g.regsAs x.g ∧
        (∀ b, b < d ∨ d + 6 ≤ b → g.tileWords b = x.g.tileWords b) ∧
        ∀ t i j, t < 6 → i < 32 → j < 32 →
          let row := lutRow (unpackI .s8 ((x.laneRegs (x.eff h va) 24).getD i []))
          el g (d + t) (32 * i + j) = if x.g.occ.getLsbD i = true
            then pack16 (row.getD (64 * t + 2 * j) 0) (row.getD (64 * t + 2 * j + 1) 0)
            else el x.g (d + t) (32 * i + j)) ∧
    (Issues (.mlut h m false ad aa vb) h x s → x.g.tilesBusy [tileFp d 1 true, tileFp a 6 false] = false →
      Completes (.mlut h m false ad aa vb) h x s fun _ g => g.regsAs x.g ∧
        (∀ b, b ≠ d → g.tileWords b = x.g.tileWords b) ∧ ∀ i j, i < 32 → j < 32 →
          el g d (32 * i + j) = if x.g.occ.getLsbD i = true ∧ x.g.occ.getLsbD j = true
            then el x.g d (32 * i + j) + BitVec.ofInt 32 (lutSum m ((x.g.lutTables a).getD i []) (planes.getD j []))
            else el x.g d (32 * i + j)) ∧
    (Issues (.mlut h m true ad aa vb) h x s → x.mayEngine s [3] →
      EntersOp (.mlut h m true ad aa vb) h x s [3] fun o => o.engine = true ∧ o.kind = .mlut m d a planes x.g.occ)) ∧
  (∀ (s : State) (core bench : Nat) (pre post : List MatQ) (q : MatQ) (tm : Team) (g : Group) (p : Op),
    (s.core core).matq = pre ++ q :: post → (∀ e ∈ pre ++ q :: post, (s.op? ⟨e.team, e.grp, e.op⟩).isSome) →
    (∀ e ∈ pre, e.bench ≠ bench ∨ e.started ≠ none) → q.bench = bench → q.started = none →
    s.op? ⟨q.team, q.grp, q.op⟩ = some (tm, g, p) → p.matReady = true → (s.core core).matFree.getD bench 0 ≤ s.now →
    (s.demand.getD (islandOf core) 0 ≤ s.grants.getD (islandOf core) 0 →
      ∃ t, exec (.matrixOpStart core bench) s = .next t ∧ (∃ e ∈ (t.core core).matq, e = { q with started := some s.now }) ∧
        (t.core core).matFree = (s.core core).matFree.set bench (s.now + q.cc)) ∧
    (s.grants.getD (islandOf core) 0 < s.demand.getD (islandOf core) 0 → ∃ t, exec (.matrixOpStart core bench) s = .next t ∧
      ((∃ e ∈ (t.core core).matq, e = { q with started := some s.now }) ∨ (t.core core).matq = (s.core core).matq))) ∧
  (∀ (s : State) (o : ORef) (tm : Team) (g : Group) (p : Op) (q : MatQ) (st : Nat), s.op? o = some (tm, g, p) →
    g.live = true → p.bn = none → (s.core tm.core).matq.find? (fun q => q.team == o.team && q.grp == o.grp && q.op == o.op) = some q →
    q.started = some st → st + q.lat ≤ s.now →
    let s1 := s.modCore tm.core fun c => { c with matq := c.matq.filter (· ≠ q) }
    let ends (t : State) (P : Group → Prop) : Prop := ∃ g', t.group? o.team o.grp = some g' ∧ P g' ∧
      (∀ e ∈ g'.ops, e.id ≠ p.id) ∧ g'.regsAs g
    (g.tilesBad p.fp = true → ∃ t, exec (.matrixAsyncCompletion o) s = .next t ∧
      ends t fun g' => (∀ b, g'.tileWords b = g.tileWords b) ∧ ∃ e ∈ g'.efaults, e.op = p ∧ e.cause = .dataerr) ∧
    (g.tilesBad p.fp = false →
    (∀ d ta tb tc rows occ cols sl, p.kind = .mma d ta tb tc rows occ cols sl →
      ∃ t f, exec (.matrixAsyncCompletion o) s = .next t ∧
        ends t fun g' => ∀ b, g'.tileWords b = (g.runMma d ta tb tc rows occ cols sl f).tileWords b) ∧
    (∀ m d a planes occ, p.kind = .mlut m d a planes occ → ∃ t, exec (.matrixAsyncCompletion o) s = .next t ∧
      ends t fun g' => ∀ b, g'.tileWords b = (g.runMlut m d a planes occ).tileWords b) ∧
    (∀ d tw tv tc w stp nr xs occ rows, p.kind = .mmv d tw tv tc w stp nr xs occ →
      ((s1.engHull tm.core (tm.ctx s1) p.fp).mmvRows tm (o.grp % 4) w stp nr (mmvBytes tw tv)).2 = .ok rows →
      ∃ t f, exec (.matrixAsyncCompletion o) s = .next t ∧ ends t fun g' => (∀ b, b ≠ d → g'.tileWords b = g.tileWords b) ∧
        g'.tileWords d = (mmvTile tw tv tc rows xs occ f (g.tileWords d)).map (·.1)) ∧
    (∀ d tw tv tc w stp nr xs occ f, p.kind = .mmv d tw tv tc w stp nr xs occ →
      ((s1.engHull tm.core (tm.ctx s1) p.fp).mmvRows tm (o.grp % 4) w stp nr (mmvBytes tw tv)).2 = .error f →
      ∃ t, exec (.matrixAsyncCompletion o) s = .next t ∧ ends t fun g' => (∀ b, g'.tileWords b = g.tileWords b) ∧
        ∃ e ∈ g'.efaults, e.op = p ∧ e.cause = f.cause)))

/-- Issue of the gather class, handles, GSTAT and HDESC. That a REC which is no multiple of 4 gives RANGE is log entry 75. -/
def Obligations.GatherClassIssuesCaptureTheirOperands : Prop :=
  (∀ (h : Hdr) (cs pre post : List (Bool × Cause × DWord)) (c : Cause) (a : DWord) (go : State → State) (x : Iss)
      (s : State), cs = pre ++ (true, c, a) :: post → (∀ e ∈ pre, e.1 = false) →
    x.firstFault h cs go s = if c = .illform then x.groupFault h .illform a s else x.uniFaults h (x.uniFault c a []) [] s) ∧
  (∀ (x : Iss) (h : Hdr) (hd : Handle) (lanes : Word) (vi : Reg) (n l k : Nat) (w : Option Nat), l < 32 → k < n →
    let i := x.g.vr x.sp.id (x.eff h vi + k) l
    let ts := (x.slots h hd lanes vi n w).filter fun t => t.pos == n * l + k
    (lanes.getLsbD l = false ∨ i = 0xFFFFFFFF → ts = []) ∧
    (lanes.getLsbD l = true → i ≠ 0xFFFFFFFF → ∃ t, ts = [t] ∧ t.lane = l ∧ t.idx = i ∧
      t.cause = (if hd.nrows ≤ i.toNat then some .range else if hd.base % 4 ≠ 0 then some .misalign else none))) ∧
  (∀ (bs : List Byte) (x y : Nat), (handleOf bs).bound = true → x < (handleOf bs).nrows → y < (handleOf bs).nrows →
    let hd := handleOf bs
    (hd.pkglo ≤ (hd.place? x).1 ∧ (hd.place? x).1 < hd.pkglo + hd.pkgn) ∧
    hd.base + ((hd.place? x).2 + 1) * hd.rb ≤ 2 ^ 56 ∧ (hd.place? x = hd.place? y → x = y)) ∧
  (∀ (h : Hdr) (m : GMode) (sm : SMode) (trap f32 : Bool) (sd sh : BitVec 8) (vi : Reg) (n : NSrc) (stat : Option GStat)
      (x : Iss) (s : State),
    let hd := x.tm.handle (x.sR h (.plain sh))
    let a := x.sR h (.plain sd)
    let k := x.slotCount h n
    let go := if m = .plain then 32 * k * hd.rb else 32 * hd.eb f32
    let sc := 32 * k * hd.eb f32
    (Issues (.gather h m trap f32 sd sh vi n stat) h x s → x.mayEngine s [4] →
      (∀ c ∈ gatherChecks (x.tm.scrSize s) hd (gatherAdmits m f32 hd.fmt) a go false, c.1 = false) →
      EntersOp (.gather h m trap f32 sd sh vi n stat) h x s [4] fun o => ∃ q, o.kind = .gather q ∧ q.mode = m ∧
        q.f32 = f32 ∧ q.trap = trap ∧ q.h = hd ∧ q.base = a.toInt ∧ q.lanes = x.g.occ ∧ q.stat = stat ∧ q.parts = [] ∧
        q.sent = false ∧ q.slots = x.slots h hd x.g.occ vi k
          (match stat with | some g => (if m = .wsum then some g.vw.toNat else none) | none => none)) ∧
    (Issues (.scatr h sm trap f32 sd sh vi n stat) h x s → x.mayEngine s [1, 4] →
      (∀ c ∈ gatherChecks (x.tm.scrSize s) hd (scatrAdmits sm f32 hd.fmt) a sc true, c.1 = false) →
      EntersOp (.scatr h sm trap f32 sd sh vi n stat) h x s [1, 4] fun o => ∃ q, o.kind = .scatter q ∧ q.op = some sm ∧
        q.h = hd ∧ q.lanes = x.g.occ ∧ q.slots = x.slots h hd x.g.occ vi k none ∧ q.read = false ∧ q.upds = []) ∧
    (Issues (.scatw h trap f32 sd sh vi n stat) h x s → x.mayEngine s [4] →
      (∀ c ∈ gatherChecks (x.tm.scrSize s) hd (scatwAdmits f32 hd.fmt) a sc true, c.1 = false) →
      EntersOp (.scatw h trap f32 sd sh vi n stat) h x s [4] fun o => ∃ q, o.kind = .scatter q ∧ q.op = none ∧
        q.h = hd ∧ q.lanes = x.active h ∧ q.slots = x.slots h hd (x.active h) vi k none ∧ q.read = false ∧ q.upds = [])) ∧
  (∀ (h : Hdr) (trap f32 : Bool) (sd sq sg sh sk : BitVec 8) (stat : Option GStat) (x : Iss) (s : State) (nk k rec : Nat),
    let hd := x.tm.handle (x.sR h (.plain sh))
    let a := x.sR h (.plain sd)
    let q := x.sR h (.plain sq)
    let g := x.sR h (.plain sg)
    keyParams (x.sR h (.plain sk)) = some (nk, k, rec) →
    (Issues (.klook h trap f32 sd sq sh sk stat) h x s →
      (∀ c ∈ keyChecks (x.tm.scrSize s) false hd (gatherAdmits .wsum f32 hd.fmt)
        [(a, 32 * hd.eb f32), (q, 256 * nk), (BitVec.ofNat 64 rec, 8192)] false, c.1 = false) →
      x.g.ops.any Op.unperformed = false → x.g.acquireOpen x.g.nextOp = false → x.g.releaseOpen x.g.nextOp = false →
      ∃ till p, s.now < till ∧ exec (.klook h trap f32 sd sq sh sk stat) s =
          .next (x.hold h (.klook till p q.toNat nk k rec) true s) ∧
        p.mode = .wsum ∧ p.h = hd ∧ p.base = a.toInt ∧ p.lanes = x.active h ∧ p.key = some rec ∧ p.stat = stat ∧
        p.trap = trap ∧ p.f32 = f32 ∧ p.slots = []) ∧
    (Issues (.kgrad h trap sg sh sk stat) h x s → x.mayEngine s [4] →
      (∀ c ∈ keyChecks (x.tm.scrSize s) false hd hd.fmt.inF
        [(g, 32 * (4 * hd.elems)), (BitVec.ofNat 64 rec, 8192)] true, c.1 = false) →
      EntersOp (.kgrad h trap sg sh sk stat) h x s [4] fun o => ∃ q, o.kind = .scatter q ∧ q.op = some .add ∧
        q.key = some (rec, k) ∧ q.h = hd ∧ q.base = g.toInt ∧ q.lanes = x.active h ∧ q.read = false)) ∧
  (∀ (h : Hdr) (clr : Bool) (f : BitVec 6) (sd sh sb : Reg) (x : Iss) (s : State),
    (IssuesU (.gstat h clr sd) h x s → exec (.gstat h clr sd) s = .next (x.result (.gstat h clr sd) h
      [(.s (x.eff h sd), ones, x.g.gsr)] (if clr then s.modG x.r fun g => { g with gsr := 0 } else s))) ∧
    (let hn := (x.sR h sh).toNat
     let hd := x.tm.handle (x.sR h sh)
     let row := (x.sR h sb).toNat
     IssuesU (.hdesc h f sd sh sb) h x s → x.inPlace s → x.lone → x.sp.only = none → x.g.full [0] false = false →
     hn < 4096 → (f ≠ 0 → hd.bound = true) → (4 ≤ f.toNat → row < hd.nrows) →
     Enters (.hdesc h f sd sh sb) h x s (.hdesc (x.eff h sd)
       (if f.toNat < 4 then BitVec.ofNat 64 (leNat (((x.tm.handleBytes hn).drop (8 * f.toNat)).take 8))
        else if f = 4 then BitVec.ofNat 64 (hd.place? row).1 else hd.rowAddr row)) 0 .rlx .grp)) ∧
  (∀ (s : State) (o : ORef) (tm : Team) (g : Group) (p : Op) (sd : Nat) (v : DWord), s.op? o = some (tm, g, p) →
    g.live = true → p.kind = .hdesc sd v → sd < 64 → p.skip = [] →
    ∃ t g', exec (.hdescCompletion o) s = .next t ∧ t.mem = s.mem ∧ t.group? o.team o.grp = some g' ∧ g'.file (.s sd) = v ∧
      (∀ loc, loc ≠ .s sd → g'.file loc = g.file loc) ∧ ∀ q ∈ g'.ops, q.id ≠ p.id)

/-- The events of the gathers. That KLOOK reads its scores when its selection ends is log entry 44, that its record writes
await no engine operation log entry 76. -/
def Obligations.GathersDeliverRowsAndStatus : Prop :=
  (∀ (s : State) (o : ORef) (tm : Team) (g : Group) (p : Op) (q : GOp), s.op? o = some (tm, g, p) → p.kind = .gather q →
    q.sent = false → p.waitRetry = false → g.mayGo p = true →
    let s1 := (q.slots.filter fun t => t.open_ && t.pkg == s.pkgNum).foldl (fun s t =>
      match s.transRow (tm.ctx s) .read t.va q.h.rb with
      | .ok bs => s.readyRow tm.core bs
      | .error _ => s) (s.engHull tm.core (tm.ctx s) p.fp)
    ∃ t g' p' q', exec (.gatherRequestArrival (.own o)) s = .next t ∧ t.group? o.team o.grp = some g' ∧
      g'.op? p.id = some p' ∧ p'.kind = .gather q' ∧ q'.sent = true ∧ (∀ loc, g'.file loc = g.file loc) ∧
      q'.slots.length = q.slots.length ∧
      ∀ (i : Nat) (z : GSlot), q.slots[i]? = some z → ∃ z' : GSlot, q'.slots[i]? = some z' ∧ z'.pos = z.pos ∧ z'.lane = z.lane ∧
        (z.open_ = false → z' = z) ∧
        (z.open_ = true → z.pkg = s.pkgNum → (z'.cause.isSome ∨ (z'.got = true ∧ ∃ bs,
          s1.transRow (tm.ctx s) .read z.va q.h.rb = .ok bs ∧
          (q.mode = .plain → z'.row = bs.map fun b => s1.homeByte b.pa)))) ∧
        (z.open_ = true → z.pkg ≠ s.pkgNum → s.reachable z.pkg = false → z'.cause = some .netfault) ∧
        (z.open_ = true → z.pkg ≠ s.pkgNum → s.reachable z.pkg = true →
          z' = z ∧ Outbox.gatherReq o z.pkg ∈ t.outbox) ∧
        (q.mode ≠ .plain → ∃ ps, q'.parts = q.parts ++ ps ∧ (ps.map (·.1)).Nodup ∧ ∀ l,
          let reads := (q.slots.filter fun z => z.lane = l ∧ z.open_ ∧ z.pkg = s.pkgNum).filterMap fun z =>
            match s1.fetchRow (tm.ctx s) z.va q.h.rb with
              | .ok (bs, b) => some ({ wt := z.wt, bs := b, pas := bs.map (·.pa) } : RowRead)
              | .error _ => none
          (reads = [] → ∀ e ∈ ps, e.1 ≠ l) ∧
          (reads ≠ [] → (l, s.pkgNum, packagePartial q.mode q.h.fmt q.h.elems reads) ∈ ps))) ∧
  (∀ (s : State) (r : PeerGather), s.pkg = .up → ∃ ps, exec (.gatherRequestArrival (.peer r)) s = .next (s.reply r.src true (.gatherAns r ps)) ∧
    (r.mode = .plain → ∀ b ∈ r.bags, ∀ z ∈ b.2, ∃ pc ∈ ps, pc.pos = z.1 ∧
      (∀ bs d, s.fetchRow r.ctx z.2.1 r.rb = .ok (bs, d) → pc.ans = .done d) ∧
      ∀ f, s.fetchRow r.ctx z.2.1 r.rb = .error f → pc.ans = .refused f.cause f.pages f.detail) ∧
    (r.mode ≠ .plain → ∀ b ∈ r.bags,
      let reads := b.2.filterMap fun z => match s.fetchRow r.ctx z.2.1 r.rb with
        | .ok (bs, d) => some ({ wt := z.2.2, bs := d, pas := bs.map (·.pa) } : RowRead)
        | .error _ => none
      reads ≠ [] → ({ pos := b.1, ans := .done ((packagePartial r.mode r.fmt (r.rb * 8 / r.fmt.bits) reads).flatMap
        fun w => natLe 4 w.toNat) } : GPiece) ∈ ps)) ∧
  (∀ (s : State) (o : ORef) (tm : Team) (g : Group) (p : Op) (q : GOp) (pkg : Nat) (ps : List GPiece),
    s.op? o = some (tm, g, p) → p.kind = .gather q → q.sent = true → p.abandoned = false →
    ∃ t g' p' q', exec (.gatherReplyArrival o pkg ps) s = .next t ∧ t.mem = s.mem ∧ t.group? o.team o.grp = some g' ∧
      g'.op? p.id = some p' ∧ p'.kind = .gather q' ∧ (∀ loc, g'.file loc = g.file loc) ∧
      ∀ (pos : Nat) (bs : List Byte) (z : GSlot) (i : Nat), q.mode = .plain → ps = [⟨pos, .done bs⟩] → pkg ≠ s.pkgNum → bs.length = q.h.rb → q.slots[i]? = some z →
        z.pos = pos → z.pkg = pkg → z.open_ = true →
        ∃ z' : GSlot, q'.slots[i]? = some z' ∧ z'.got = true ∧ z'.row = bs) ∧
  (∀ (s : State) (o : ORef) (tm : Team) (g : Group) (p : Op) (q : GOp) (pkg : Nat) (ps : List GPiece),
    s.op? o = some (tm, g, p) → p.kind = .gather q → p.abandoned = true →
    exec (.gatherReplyArrival o pkg ps) s = .next (s.answered o pkg 0)) ∧
  (∀ (q : GOp) (l pkg : Nat) (bs : List Byte) (z : GSlot), q.mode ≠ .plain → bs.length = 4 * q.h.elems → z ∈ q.slots →
    z.lane = l → z.pkg = pkg → z.open_ = true →
    (q.take pkg ⟨l, .done bs⟩).parts = q.parts ++ [(l, pkg, wordsOf bs)] ∧
    ∀ y ∈ (q.take pkg ⟨l, .done bs⟩).slots, y.lane = l → y.pkg = pkg → y.open_ = false) ∧
  (∀ (m : GMode) (t : ElemTy) (elems e : Nat) (rows : List RowRead) (dies : List Nat), e < elems →
    let n := t.bits / 8
    let die (r : RowRead) : Nat := r.pas.getD (n * e) 0 / 2 ^ 36
    let term (r : RowRead) : Nat × Nat := (r.wt.toNat, leNat ((r.bs.drop (n * e)).take n))
    dies.Pairwise (· < ·) → (∀ d, d ∈ dies ↔ ∃ r ∈ rows, die r = d) →
    (packagePartial m t elems rows).getD e 0 =
      BitVec.ofNat 32 (combFold m t (dies.map fun d => poolFold m t ((rows.filter fun r => die r = d).map term)))) ∧
  (∀ (m : GMode) (t : ElemTy) (w x y : Nat) (l : List (Nat × Nat)) (c : List Nat),
    poolFold m t [] = 0 ∧ combFold m t [] = 0 ∧ combFold m t [x] = x ∧
    (l ≠ [] → poolFold m t (l ++ [(w, x)]) = poolStep m t (poolFold m t l) w x) ∧
    (c ≠ [] → combFold m t (c ++ [x]) = poolComb m t (combFold m t c) x) ∧
    (t = .s32 ∨ t = .z32 → x < 2 ^ 32 → y < 2 ^ 32 → poolFold .sum t [(w, x)] = x ∧ poolStep .sum t y w x = (y + x) % 2 ^ 32 ∧
      intVal t (poolStep .max t y w x) = max (intVal t y) (intVal t x)) ∧
    (∀ i < 3, let ch (v : Nat) : Nat := v / 256 ^ i % 256
      ch (poolStep .sum .rx3 y w x) = (ch y + ch x) % ([256, 255, 253].getD i 1)) ∧
    poolStep .wsum t y w x = (fmaF .f32 .rn false (decodeF .f32 w) (decodeF t x) (decodeF .f32 y)).bits ∧
    poolFold .wsum t [(w, x)] = (mulF .f32 .rn false (decodeF .f32 w) (decodeF t x)).bits ∧
    (pooled t = true → poolFold .sum t [(w, x)] = (cvtF .f32 t .rn false false x).bits ∧
      poolStep .sum t y w x =
        (addF .f32 .rn false (decodeF .f32 y) (decodeF .f32 (cvtF .f32 t .rn false false x).bits)).bits ∧
      (let v := (cvtF .f32 t .rn false false x).bits
       poolStep .max t y w x = (minmaxF .f32 true y (decodeF .f32 y) v (decodeF .f32 v)).bits))) ∧
  (∀ (q : GOp) (l : Nat) (ps : List (Nat × Nat × List Word)), (q.parts.filter (·.1 = l)).Perm ps →
    ps.Pairwise (fun a b => a.2.1 < b.2.1) →
    (ps = [] → q.outRow l = List.replicate (q.h.eb q.f32) 0) ∧
    (ps ≠ [] → q.outRow l = (List.range q.h.elems).flatMap fun e =>
      let v := combFold q.mode q.h.fmt (ps.map fun p => (p.2.2.getD e 0).toNat)
      if q.f32 ∨ q.h.fmt.isFloat = false then natLe 4 v
      else natLe (q.h.fmt.bits / 8) (cvtF q.h.fmt .f32 .rn true false v).bits)) ∧
  (∀ (s : State) (o : ORef) (tm : Team) (g : Group) (p : Op) (q : GOp), s.op? o = some (tm, g, p) → p.kind = .gather q →
    q.mode ≠ .plain → g.mayGo p = true → p.waitRetry = false → (∀ z ∈ q.slots, z.open_ = false) → 0 ≤ q.base →
    4 ∣ q.h.rb → gatherAdmits q.mode q.f32 q.h.fmt = true →
    let eb := q.h.eb q.f32
    ∃ t t', exec (if q.key.isSome then .klookGatherCompletion o else .gatherCompletion o) s = .next t ∧ t.mem = s.mem ∧
      t.team? o.team = some t' ∧ (∀ l ∈ lanesOf q.lanes, t'.scrRead (q.base.toNat + l * eb) eb = q.outRow l) ∧
      ∀ y, (∀ l ∈ lanesOf q.lanes, ¬ (q.base.toNat + l * eb ≤ y ∧ y < q.base.toNat + (l + 1) * eb)) →
        t'.scrByte y = tm.scrByte y) ∧
  (∀ (s : State) (o : ORef) (tm : Team) (g : Group) (p : Op) (q : GOp), s.op? o = some (tm, g, p) → p.kind = .gather q →
    q.mode = .plain → q.key = none → g.mayGo p = true → (∀ z ∈ q.slots, z.open_ = false ∧ z.placed = false) →
    (q.slots.map (·.pos)).Nodup → 0 ≤ q.base → (∀ z ∈ q.slots, z.got = true → z.row.length = q.h.rb) →
    ∃ t t', exec (.gatherCompletion o) s = .next t ∧ t.mem = s.mem ∧ t.team? o.team = some t' ∧
      (∀ z ∈ q.slots, ∀ i < q.h.rb, t'.scrByte (q.base.toNat + z.pos * q.h.rb + i) =
        if z.got then z.row.getD i 0 else 0) ∧
      ∀ y, (∀ z ∈ q.slots, ¬ (q.base.toNat + z.pos * q.h.rb ≤ y ∧ y < q.base.toNat + (z.pos + 1) * q.h.rb)) →
        t'.scrByte y = tm.scrByte y) ∧
  (∀ (s : State) (o : ORef) (tm : Team) (g : Group) (p : Op) (slots : List GSlot) (per : Nat) (lanes : Word) (st : GStat)
      (trap : Bool), s.op? o = some (tm, g, p) → g.live = true → per ≤ 16 → 0 < per → p.bn = none → p.skip = [] → (st.km.toNat ≠ 0) →
    (∀ z ∈ slots, ∀ c, z.cause = some c → causeBit c ≠ 0) →
    let bad := slots.filter (·.cause.isSome)
    ∃ g', (s.gatherEnd o p slots per lanes (some st) false trap).group? o.team o.grp = some g' ∧
      (∀ e ∈ g'.ops, e.id ≠ p.id) ∧
      (∀ l ∈ lanesOf (g.sameItems p lanes), ∀ k,
        (k < 16 → ((g'.file (.v st.vs.toNat l)).getLsbD k = true ↔ ∃ z ∈ bad, z.lane = l ∧ z.pos % per = k)) ∧
        (k < 6 → ((g'.file (.v st.vs.toNat l)).getLsbD (16 + k) = true ↔
          ∃ z ∈ bad, z.lane = l ∧ z.cause.map causeBit = some (2 ^ k))) ∧
        ((g'.file (.k st.km.toNat)).getLsbD l = true ↔ ∃ z ∈ bad, z.lane = l)) ∧
      (∀ l < 32, (g.sameItems p lanes).getLsbD l = false → g'.file (.v st.vs.toNat l) = g.file (.v st.vs.toNat l) ∧
        (g'.file (.k st.km.toNat)).getLsbD l = false) ∧
      (bad = [] → g'.gsr = g.gsr ∧ g'.efaults = g.efaults) ∧
      (bad ≠ [] → g'.gsr.toNat / 2 ^ 32 = min (g.gsr.toNat / 2 ^ 32 + 1) (2 ^ 32 - 1) ∧
        ∀ k < 6, (g'.gsr.getLsbD k = true ↔ g.gsr.getLsbD k = true ∨ ∃ z ∈ bad, z.cause.map causeBit = some (2 ^ k))) ∧
      (bad ≠ [] → trap = true → ∃ e ∈ g'.efaults, e.op.id = p.id ∧ ∃ z ∈ bad, z.cause = some e.cause ∧
        ∀ y ∈ bad, z.pos ≤ y.pos)) ∧
  (∀ (r : SRef) (x : Iss) (s : State) (till sq nk k rec : Nat) (q : GOp), s.at? r = some x → x.lone → x.tm.id = r.team →
    x.sp.hold = .klook till q sq nk k rec → till ≤ s.now → x.g.full [4] true = false → x.sp.only = none →
    (∀ l ∈ lanesOf q.lanes, x.tm.scrDamaged (sq + 8 * nk * l) (8 * nk) = false ∧
      x.raceHit s (.scr (rec + 256 * l) 256) true = none) →
    ∃ t t' g y o q', exec (.klookSelectionEnd r) s = .next t ∧ t.mem = s.mem ∧ t.team? r.team = some t' ∧
      (∀ l ∈ lanesOf q.lanes, ∀ i < 64, let sc := x.tm.scores sq nk l
        leNat (t'.scrRead (rec + 256 * l + 4 * i) 4) = (recordWords (selectKeys nk k sc.1 sc.2)).getD i 0 % 2 ^ 32) ∧
      t.group? r.team r.grp = some g ∧ g.ops = x.g.ops ++ [o] ∧ o.kind = .gather q' ∧ q' = { q with slots := q'.slots, recs := q.lanes, sels := q'.sels } ∧
      (∀ z ∈ q'.slots, z.lane ∈ lanesOf q.lanes) ∧ g.splits = [y] ∧ y.hold = .run ∧
      y.pc = x.sp.pc + (if q.stat.isSome then 12 else 8)) ∧
  (∀ (s : State) (o : ORef) (tm : Team) (g : Group) (p : Op) (q : GOp), s.op? o = some (tm, g, p) → p.kind = .gather q →
    g.mayGo p = true → (∀ z ∈ q.slots, z.open_ = false) →
    (q.key ≠ none → p.waitRetry = false → exec (.klookGatherCompletion o) s = .next (s.endGather o p q)) ∧
    (q.key = none → exec (.gatherCompletion o) s = .next (s.endGather o p q)))

/-- The events of the scatters. -/
def Obligations.ScattersUpdateEachRowOnce : Prop :=
  (∀ (q : SOp) (ts : List (GSlot × List Byte)) (u : SUpd), q.key = none → q.f32 = false → q.h.fmt = .z32 →
    (ts.map (·.1.pos)).Nodup → u ∈ q.combine ts →
    let mine := ts.filter fun t => t.1.cause.isNone && t.1.idx == u.idx
    mine ≠ [] ∧ (∀ t ∈ ts, t.1.pos ∈ u.poss ↔ t ∈ mine) ∧
    (q.op = some .add → ∀ e < q.h.elems,
      (u.vals.getD e 0).toNat = ((mine.map fun t => leNat ((t.2.drop (4 * e)).take 4)).sum) % 2 ^ 32) ∧
    (q.op = none → ∃ t ∈ mine, u.row = t.2 ∧ ∀ z ∈ mine, z.1.pos ≤ t.1.pos)) ∧
  (∀ (q : SOp) (ts ms : List (GSlot × List Byte)) (u : SUpd) (m : SMode), q.op = some m → (ts.map (·.1.pos)).Nodup →
    u ∈ q.combine ts → (ts.filter fun t => t.1.cause.isNone && t.1.idx == u.idx).Perm ms →
    ms.Pairwise (fun a b => a.1.pos < b.1.pos) →
    u.poss = ms.map (·.1.pos) ∧ ∀ e < q.h.elems,
      let f32At (t : GSlot × List Byte) : Nat := leNat ((t.2.drop (4 * e)).take 4)
      let xs := ms.map fun t => srcElem q.h.fmt q.f32 t.2 e
      (q.key = none → u.vals.getD e 0 = BitVec.ofNat 32 (xs.tail.foldl (scatStep m q.h.fmt) (xs.headD 0))) ∧
      (q.key ≠ none → u.vals.getD e 0 = BitVec.ofNat 32 (poolFold .wsum .f32 (ms.map fun t => (t.1.wt.toNat, f32At t))))) ∧
  (∀ (q : SOp) (ts : List (GSlot × List Byte)) (u : SUpd), q.op = none → q.f32 = true → (ts.map (·.1.pos)).Nodup →
    u ∈ q.combine ts → ∃ t ∈ ts, t.1.cause = none ∧ t.1.idx = u.idx ∧
      (∀ z ∈ ts, z.1.cause = none → z.1.idx = u.idx → z.1.pos ≤ t.1.pos) ∧
      u.row = (List.range q.h.elems).flatMap fun e => natLe (q.h.fmt.bits / 8)
        (cvtF q.h.fmt .f32 .rn true false (leNat ((t.2.drop (4 * e)).take 4))).bits) ∧
  (∀ (t : ElemTy) (a b : Nat),
    (t.isFloat = true → scatStep .add t a b = (addF .f32 .rn false (decodeF .f32 a) (decodeF .f32 b)).bits ∧
      scatStep .max t a b = (minmaxF .f32 true a (decodeF .f32 a) b (decodeF .f32 b)).bits ∧
      scatStep .min t a b = (minmaxF .f32 false a (decodeF .f32 a) b (decodeF .f32 b)).bits ∧
      scatUpd .add t a b = (addF t .rn false (decodeF t a) (decodeF .f32 b)).bits) ∧
    (t = .s32 ∨ t = .z32 → a < 2 ^ 32 → b < 2 ^ 32 → scatUpd .add t a b = (a + b) % 2 ^ 32 ∧
      intVal t (scatUpd .max t a b) = max (intVal t a) (intVal t b) ∧
      intVal t (scatUpd .min t a b) = min (intVal t a) (intVal t b) ∧ ∀ m, scatStep m t a b = scatUpd m t a b) ∧
    (∀ i < 3, let ch (v : Nat) : Nat := v / 256 ^ i % 256
      ch (scatUpd .add .rx3 a b) = (ch a + ch b) % ([256, 255, 253].getD i 1)) ∧ scatUpd .add .rx3 a b / 256 ^ 3 = 0) ∧
  (∀ (q : SOp) (ts : List (GSlot × List Byte)), ((q.combine ts).map (·.idx)).Nodup ∧
    ∀ t ∈ ts, t.1.cause = none → ∃ u ∈ q.combine ts, u.idx = t.1.idx ∧ u.done = false) ∧
  (∀ (s : State) (ctx rb : Nat) (va : DWord) (vals : List Word) (row : List Byte) (bs : List PByte),
    s.cacheOk → s.transRow ctx .rmw va rb = .ok bs → (bs.map (·.pa)).Nodup → 4 ∣ rb →
    (∀ b ∈ bs, s.homeBad b.pa = false) →
    let t := s.applyRow none ctx (some .add) .z32 va rb vals row
    t.2 = none ∧ ∀ e < rb / 4,
      leNat (((bs.drop (4 * e)).take 4).map fun b => t.1.homeByte b.pa) =
        (leNat (((bs.drop (4 * e)).take 4).map fun b => s.homeByte b.pa) + (vals.getD e 0).toNat) % 2 ^ 32) ∧
  (∀ (s : State) (ctx rb : Nat) (va : DWord) (op : Option SMode) (ty : ElemTy) (vals : List Word) (row : List Byte)
      (bs : List PByte),
    s.cacheOk → s.transRow ctx (if op.isSome then .rmw else .write) va rb = .ok bs → (bs.map (·.pa)).Nodup →
    (∀ b ∈ bs, s.homeBad b.pa = false) → ty ∈ [ElemTy.f32, .f16, .bf16, .s32, .z32, .rx3] → 4 ∣ rb →
    let n := ty.bits / 8
    let t := s.applyRow none ctx op ty va rb vals row
    let old (e : Nat) : Nat := leNat (((bs.drop (n * e)).take n).map fun b => s.homeByte b.pa)
    let new (e : Nat) : Nat := leNat (((bs.drop (n * e)).take n).map fun b => t.1.homeByte b.pa)
    t.2 = none ∧ (∀ m, op = some m → ∀ e < rb / n, new e = scatUpd m ty (old e) (vals.getD e 0).toNat % 2 ^ ty.bits) ∧
    (op = none → row.length = rb → bs.map (fun b => t.1.homeByte b.pa) = row) ∧
    ∀ pa, (∀ b ∈ bs, b.pa / 64 ≠ pa / 64) → t.1.homeByte pa = s.homeByte pa) ∧
  (∀ (s : State) (o : ORef) (tm : Team) (g : Group) (p : Op) (q : SOp), s.op? o = some (tm, g, p) → p.kind = .scatter q →
    (q.read = false → g.mayGo p = true → ∃ t g' p' q', exec (.scatrSourceRead o) s = .next t ∧ t.mem = s.mem ∧
      t.group? o.team o.grp = some g' ∧ g'.op? p.id = some p' ∧ p'.kind = .scatter q' ∧ q'.read = true ∧
      (∀ loc, g'.file loc = g.file loc) ∧
      (∀ u ∈ q'.upds, s.reachable u.pkg = false → u.done = true ∧ u.cause = some .netfault) ∧
      (∀ rest, g.ctrs[1]? = some ((p.id, false) :: rest) → g'.ctr 1 = (rest.dropWhile fun e => e.1 = p.id || e.2).length)) ∧
    (∀ k d, q.upds[k]? = some d → d.done = false → q.read = true →
      (d.pkg = s.pkgNum → ∃ t g' p' q' d', exec (.scatterUpdateArrival (.own o k)) s = .next t ∧
        t.mem = (s.applyRow (some tm.core) (tm.ctx s) q.op q.h.fmt d.va q.h.rb d.vals d.row).1.mem ∧
        t.group? o.team o.grp = some g' ∧ g'.op? p.id = some p' ∧ p'.kind = .scatter q' ∧ q'.upds[k]? = some d' ∧
        d'.done = true ∧ d'.poss = d.poss ∧
        d'.cause = ((s.applyRow (some tm.core) (tm.ctx s) q.op q.h.fmt d.va q.h.rb d.vals d.row).2).map (·.cause)) ∧
      (d.pkg ≠ s.pkgNum → ∀ c pages detail, ∃ t g' p' q' d', exec (.scatterUpdateArrival (.answer o k c pages detail)) s = .next t ∧ t.mem = s.mem ∧
        t.group? o.team o.grp = some g' ∧ g'.op? p.id = some p' ∧ p'.kind = .scatter q' ∧ q'.upds[k]? = some d' ∧
        d'.done = true ∧ d'.cause = c ∧ d'.pages = pages ∧ d'.detail = detail)) ∧
    (∀ k d, q.upds[k]? = some d → d.done = true → exec (.scatterUpdateArrival (.own o k)) s = .next s) ∧
    (q.read = true → (∀ u ∈ q.upds, u.done = true) → ∃ slots, exec (.scatterCompletion o) s =
        .next ((s.engHull tm.core (tm.ctx s) p.fp).gatherEnd o p slots (if q.key.isSome then 32 else q.n) q.lanes q.stat
          q.key.isSome q.trap) ∧
      slots.length = q.slots.length ∧ ∀ (i : Nat) (z : GSlot), q.slots[i]? = some z → ∃ z' : GSlot, slots[i]? = some z' ∧ z'.pos = z.pos ∧
        z'.lane = z.lane ∧ ((∀ u ∈ q.upds, z.pos ∈ u.poss → u.cause = none) → z' = z) ∧
        ((∃ u ∈ q.upds, z.pos ∈ u.poss ∧ u.cause.isSome) → z'.cause.isSome))) ∧
  (∀ (s : State) (u : PeerScatter), s.pkg = .up → ∃ t c pages detail, exec (.scatterUpdateArrival (.peer u)) s = .next t ∧
    t.outbox = s.outbox ++ [.scatterAns u.src c pages detail] ∧
    ((∃ f, (s.applyRow none u.ctx u.op u.fmt u.addr u.rb u.vals (u.vals.flatMap fun w => natLe 4 w.toNat)).2 = some f) ↔
      c.isSome))

/-- The expand unit. The cause of a rendezvous of different instructions and XSTAT without an expansion are log entry 45,
and %own of a killed owner's lane is log entry 46. -/
def Obligations.ExpansionDealsEveryIterationOnce : Prop :=
  (∀ (e : Expand) (ms : List Group) (i : Nat) (d : Dealt), e.pre = prefixes 0 e.lens →
    e.total = (e.lens.map (·.toNat)).sum → (deal e ms)[i]? = some d →
    (e.total ≤ e.cur + i → d.it = none) ∧
    (e.cur + i < e.total → ∃ o j n, d.it = some (o, j, e.cur + i) ∧ e.lens[o]? = some n ∧ j < n.toNat ∧
      ((e.lens.take o).map (·.toNat)).sum + j = e.cur + i)) ∧
  (∀ (e : Expand) (ms : List Group), (deal e ms).map (fun d => (d.grp, d.lane)) =
    ms.flatMap fun m => (lanesOf m.occ).map fun l => (m.grp, l)) ∧
  (∀ (h : Hdr) (sp : Span) (item : Bool) (op : RedOp) (vs vl vd va : Reg) (kc sb : BitVec 8) (x : Iss) (s : State),
    let arr (k : SpanKind) (dst : List Nat) (vals : List (List Word)) : SpanArr :=
      { grp := x.r.grp, split := x.sp.id, kind := k, dst := dst, vals := vals, occ := x.g.occ }
    (Issues (.xpnd h sp vs vl) h x s → exec (.xpnd h sp vs vl) s = .next (x.arriveSpan h sp.size
      (arr (.xpnd sp) [] [x.column (x.eff h vs), x.column (x.eff h vl)]) s)) ∧
    (Issues (.xnext h item vd kc sb) h x s → exec (.xnext h item vd kc sb) s = .next (x.arriveSpan h x.g.spanSize
      (arr (.xnext item) [x.eff h vd, kc.toNat, sb.toNat] []) s)) ∧
    (Issues (.segred h op vd va) h x s → exec (.segred h op vd va) s = .next (x.arriveSpan h x.g.spanSize
      (arr (.segred op vd.num.toNat) [x.eff h vd] [x.column (x.eff h va)]) s))) ∧
  (∀ (h : Hdr) (n : Nat) (a : SpanArr) (x : Iss) (s : State), x.inPlace s → x.lone → 2 ≤ n → x.tm.groups.length % n = 0 →
    ((∃ m ∈ x.tm.span x.r.grp n, m.live = false) → ∃ s', x.arriveSpan h n a s = x.groupFault h .quartet 0 s') ∧
    ((∀ m ∈ x.tm.span x.r.grp n, m.live = true) → ∃ t' g y, (x.arriveSpan h n a s).team? x.r.team = some t' ∧
      t'.spanArr = x.tm.spanArr ++ [(n, x.g.spans, a)] ∧ (x.arriveSpan h n a s).group? x.r.team x.r.grp = some g ∧
      g.spans = x.g.spans + 1 ∧ (∀ loc, g.file loc = x.g.file loc) ∧ g.splits = [y] ∧ y.hold = .span x.g.spans ∧
      y.pc = x.sp.pc)) ∧
  (∀ (h : Hdr) (x : Iss) (s : State), x.inPlace s → x.lone → x.tm.span x.r.grp 1 = [x.g] → x.g.live = true →
    (∀ (sp : Span) (vs vl : Reg), Issues (.xpnd h sp vs vl) h x s → sp.size = 1 → x.g.xp = none → h.len = .w2 →
      let len (l : Nat) : Word := if x.g.occ.getLsbD l then x.g.vr x.sp.id (x.eff h vl) l else 0
      ((List.range 32).map fun l => (len l).toNat).sum < 2 ^ 32 →
      Completes (.xpnd h sp vs vl) h x s fun _ g => (∀ loc, g.file loc = x.g.file loc) ∧ ∃ e, g.xp = some e ∧
        e.lens = (List.range 32).map len ∧ e.pre = prefixes 0 e.lens ∧ e.total = (e.lens.map (·.toNat)).sum ∧
        e.cur = 0 ∧ e.rounds = 0 ∧ ∀ l < 32, x.g.occ.getLsbD l = true →
          e.starts[l]? = some (x.g.vr x.sp.id (x.eff h vs) l)) ∧
    (∀ (item : Bool) (vd : Reg) (kc sb : BitVec 8) (e : Expand), Issues (.xnext h item vd kc sb) h x s → h.len = .w2 →
      x.g.xp = some e → e.span.size = 1 → kc.toNat ≠ 0 → sb.toNat < 64 →
      (e.cur < e.total → Completes (.xnext h item vd kc sb) h x s fun _ g =>
        (let n := min (popCount x.g.occ) (e.total - e.cur)
         g.file (.s sb.toNat) = BitVec.ofNat 64 n ∧ (∃ e', g.xp = some e' ∧ e'.cur = e.cur + n ∧ e'.rounds = e.rounds + 1) ∧
         ∀ i l o p, (lanesOf x.g.occ)[i]? = some l → e.cur + i < e.total → e.ownerAt (e.cur + i) = some (o, p) →
          let j : Word := BitVec.ofNat 32 (e.cur + i - p)
          g.file (.v (x.eff h vd) l) = (e.starts.getD o 0 + j).setWidth 64 ∧
          g.file (.v (x.eff h vd + 1) l) = j.setWidth 64 ∧
          (item = true → o < 32 → g.file (.v (x.eff h vd + 2) l) = ((x.g.itemOf o).setWidth 32).setWidth 64 ∧
            g.file (.v (x.eff h vd + 3) l) = ((x.g.itemOf o >>> 32).setWidth 32).setWidth 64) ∧
          (∀ (y : Iss) (t : State), y.g = g →
            y.special t 8 l = if e.killed.getD o false then 0xFFFFFFFF else BitVec.ofNat 32 o) ∧
          (g.file (.k kc.toNat)).getLsbD l = !e.killed.getD o false) ∧
        (∀ l < 32, (∀ i, (lanesOf x.g.occ)[i]? = some l → e.total ≤ e.cur + i) →
          (g.file (.k kc.toNat)).getLsbD l = false ∧ ∀ v, g.file (.v v l) = x.g.file (.v v l))) ∧
      (e.total ≤ e.cur → (∀ b ∈ e.killed, b = false) → Completes (.xnext h item vd kc sb) h x s fun _ g => g.xp = none ∧
        g.file (.s sb.toNat) = 0 ∧ g.file (.k kc.toNat) = 0 ∧
        ∀ loc, loc ≠ .s sb.toNat → loc ≠ .k kc.toNat → g.file loc = x.g.file loc)) ∧
    (∀ (op : RedOp) (vd va : Reg) (e : Expand), Issues (.segred h op vd va) h x s → h.len = .w2 → x.g.xp = some e →
      e.span.size = 1 → Completes (.segred h op vd va) h x s fun _ g => g.xp = x.g.xp ∧
        ∀ o < 32,
          let mine := sortBy (·.1) ((lanesOf x.g.occ).filterMap fun l => match e.iter.getD l none with
            | some (p, _, t) => if p = o then some (t, (x.g.vr x.sp.id (x.eff h va) l).toNat) else none
            | none => none)
          (mine ≠ [] → e.killed.getD o false = false → g.file (.v (x.eff h vd) o) = BitVec.ofNat 64
            (mine.foldl (fun acc z => segStep op acc z.2) (x.g.vr x.sp.id (x.eff h vd) o).toNat % 2 ^ 32)) ∧
          (mine = [] ∨ e.killed.getD o false = true → g.file (.v (x.eff h vd) o) = x.g.file (.v (x.eff h vd) o)))) ∧
  (∀ (h : Hdr) (f : BitVec 6) (sd : Reg) (x : Iss) (s : State),
    (IssuesU (.xstat h f sd) h x s → exec (.xstat h f sd) s = .next (x.result (.xstat h f sd) h
      [(.s (x.eff h sd), ones, BitVec.ofNat 64 (match x.g.xp with
        | none => 0
        | some e => if f = 0 then e.total else if f = 1 then e.cur else if f = 2 then e.rounds
          else 1 + e.span.code.toNat * 2 + x.g.grp % e.span.size * 8 + (if e.killed.any id then 32 else 0)))] s)) ∧
    (IssuesU (.xabort h) h x s → x.inPlace s → x.lone →
      (x.g.xp = none → exec (.xabort h) s = .next (x.pass h false s)) ∧
      (∀ e, x.g.xp = some e → e.span.size = 1 → x.tm.spanArr = [] → (∀ b ∈ e.killed, b = false) →
        x.tm.span x.r.grp 1 = [x.g] →
        Completes (.xabort h) h x s fun _ g => g.xp = none ∧ ∀ loc, g.file loc = x.g.file loc))) ∧
  (∀ (s : State) (team grp n k : Nat) (tm : Team) (a : SpanArr), s.team? team = some tm →
    tm.spanArr.find? (·.2.2.grp = grp) = some (n, k, a) →
    let as := tm.spanArrs grp n
    let ms := tm.span grp n
    ((∃ m ∈ ms, m.live = false) → exec (.spanRendezvous team grp) s =
      .next (as.foldl (fun s a => s.failSpan team .quartet a) (s.takeSpan team as))) ∧
    ((∀ m ∈ ms, m.live = true) → as.length < ms.length → exec (.spanRendezvous team grp) s = .next s) ∧
    ((∀ m ∈ ms, m.live = true) → as.length = ms.length → (∃ b ∈ as, b.kind ≠ a.kind) → exec (.spanRendezvous team grp) s =
      .next (as.foldl (fun s a => s.failSpan team .quartet a) (s.takeSpan team as))) ∧
    ((∀ m ∈ ms, m.live = true) → as.length = ms.length → (∀ b ∈ as, b.kind = a.kind) →
      exec (.spanRendezvous team grp) s = .next ((s.takeSpan team as).performSpan team n as))) ∧
  (∀ (s : State) (team n : Nat) (tm : Team) (ms : List Group) (as : List SpanArr) (a0 : SpanArr) (e : Expand)
      (own : Nat → List Word) (it : Nat → List (Option (Nat × Nat × Nat))),
    s.team? team = some tm → tm.id = team → (tm.groups.map (·.grp)).Nodup → as.head? = some a0 → ms = tm.span a0.grp n →
    as.map (·.grp) = ms.map (·.grp) → (∀ a ∈ as, a.kind = a0.kind) →
    (∀ a ∈ as, ∃ m ∈ ms, m.grp = a.grp ∧ a.occ = m.occ ∧ m.pend = [] ∧ ∃ y, m.splits = [y] ∧ y.id = a.split ∧
      y.parent = none ∧ y.leave = none ∧ y.hold ≠ .run) →
    let t := s.performSpan team n as
    let has (a : SpanArr) (P : Group → Group → Prop) : Prop :=
      ∃ m g, m ∈ ms ∧ m.grp = a.grp ∧ t.group? team a.grp = some g ∧ P m g
    (∀ sp, a0.kind = .xpnd sp → (∀ m ∈ ms, m.xp = none) →
      let col (i : Nat) (a : SpanArr) : List Word :=
        (List.range 32).map fun l => if a.occ.getLsbD l then (a.vals.getD i []).getD l 0 else 0
      ((as.flatMap (col 1)).map (·.toNat)).sum < 2 ^ 32 → ∀ a ∈ as, has a fun m g => (∀ loc, g.file loc = m.file loc) ∧
        ∃ e', g.xp = some e' ∧ e'.lens = as.flatMap (col 1) ∧ e'.starts = as.flatMap (col 0) ∧ e'.cur = 0 ∧ e'.rounds = 0 ∧
          e'.pre = prefixes 0 e'.lens ∧ e'.total = (e'.lens.map (·.toNat)).sum) ∧
    ((∀ m ∈ ms, m.xp = some { e with own := own m.grp, iter := it m.grp }) → e.span.size = n → 0 < n →
      (∀ item, a0.kind = .xnext item → e.cur < e.total → ∀ a ∈ as, 0 < a.dst.getD 1 0 → a.dst.getD 2 0 < 64 → has a fun m g =>
        (let cnt := min (deal e ms).length (e.total - e.cur)
         g.file (.s (a.dst.getD 2 0)) = BitVec.ofNat 64 cnt ∧
         (∃ e', g.xp = some e' ∧ e'.cur = e.cur + cnt ∧ e'.rounds = e.rounds + 1) ∧
         ∀ d ∈ deal e ms, d.grp = a.grp →
          (d.it = none → (g.file (.k (a.dst.getD 1 0))).getLsbD d.lane = false ∧
            ∀ v, g.file (.v v d.lane) = m.file (.v v d.lane)) ∧
          ∀ o j k, d.it = some (o, j, k) →
            let v := a.dst.getD 0 0
            g.file (.v v d.lane) = (e.starts.getD o 0 + BitVec.ofNat 32 j).setWidth 64 ∧
            g.file (.v (v + 1) d.lane) = (BitVec.ofNat 32 j).setWidth 64 ∧
            (g.file (.k (a.dst.getD 1 0))).getLsbD d.lane = !e.killed.getD o false ∧
            ∀ w ∈ ms, item = true → w.grp = a.grp / n * n + o / 32 →
              g.file (.v (v + 2) d.lane) = ((w.itemOf (o % 32)).setWidth 32).setWidth 64 ∧
              g.file (.v (v + 3) d.lane) = ((w.itemOf (o % 32) >>> 32).setWidth 32).setWidth 64)) ∧
      (∀ item, a0.kind = .xnext item → e.total ≤ e.cur → (∀ b ∈ e.killed, b = false) → ∀ a ∈ as, 0 < a.dst.getD 1 0 →
        a.dst.getD 2 0 < 64 → has a fun m g => g.xp = none ∧ g.file (.k (a.dst.getD 1 0)) = 0 ∧ g.file (.s (a.dst.getD 2 0)) = 0 ∧
          ∀ loc, loc ≠ .s (a.dst.getD 2 0) → loc ≠ .k (a.dst.getD 1 0) → g.file loc = m.file loc) ∧
      (∀ op d0, a0.kind = .segred op d0 → ∀ a ∈ as, has a fun m g => ∀ l < 32,
        let o := 32 * (a.grp % n) + l
        let terms : List (Nat × Nat × Nat) := as.flatMap fun b => (lanesOf b.occ).filterMap fun k =>
          ((it b.grp).getD k none).map fun i => (i.1, i.2.2, ((b.vals.getD 0 []).getD k 0).toNat)
        let mine := sortBy (·.2.1) (terms.filter (·.1 = o))
        let v := a.dst.getD 0 0
        (mine ≠ [] → e.killed.getD o false = false → g.file (.v v l) = BitVec.ofNat 64
          (mine.foldl (fun acc z => segStep op acc z.2.2) (m.file (.v v l)).toNat % 2 ^ 32)) ∧
        (mine = [] ∨ e.killed.getD o false = true → g.file (.v v l) = m.file (.v v l)))))

/-- The work queues. That refused rows leave vD as it was is log entry 47, and that the rows are appended in one step is
log entry 39. -/
def Obligations.QueuesAppendItemsInLaneOrder : Prop :=
  (∀ (h : Hdr) (close : Bool) (vd va vc : Reg) (q : EnqTgt) (x : Iss) (s : State), x.mayEngine s [1] →
    let n := x.enqTgt h q
    let off (l : Nat) := (x.g.vr x.sp.id (x.eff h va) l).toNat
    (∀ l ∈ lanesOf (x.active h), 16 ∣ off l ∧ off l + 16 ≤ x.tm.scrSize s) →
    (Issues (.enq h close vd va q) h x s → (s.fedQueue? (x.tm.ctx s) n).isSome →
      EntersOp (.enq h close vd va q) h x s [1] fun o => o.engine = true ∧ o.kind = .enq close false n (x.eff h vd)
        ((lanesOf (x.active h)).map fun l => { lane := l, off := off l, q := n, cls := 0 }) [] []) ∧
    (∀ b : BinSet, Issues (.enqb h vd va vc q) h x s → s.binSet? (x.tm.ctx s) n = some b →
      let cls (l : Nat) := b.classOf (x.g.vr x.sp.id (x.eff h vc) l).toNat
      EntersOp (.enqb h vd va vc q) h x s [1] fun o => o.engine = true ∧ o.kind = .enq false true n (x.eff h vd)
        ((lanesOf (x.active h)).map fun l => { lane := l, off := off l, q := b.qs.getD (cls l) 0, cls := cls l }) [] [])) ∧
  (∀ (s : State) (o : ORef) (ctx : Nat) (r : ERow) (l : Launch) (tm : Team), s.fedQueue? ctx r.q = some l →
    s.team? o.team = some tm →
    let q := s.queue r.q
    let at_ := l.desc.ring.toNat + 16 * (q.appended % l.desc.nslot)
    (q.closed = true → s.append1 o ctx r = .refused .range) ∧
    (q.closed = false → s.appending o r.q = true ∨ q.room l.desc.nslot = 0 → s.append1 o ctx r = .waits) ∧
    (q.closed = false → s.appending o r.q = false → q.room l.desc.nslot ≠ 0 → tm.scrDamaged r.off 16 = false →
      ∃ t, s.append1 o ctx r = .item q.appended t ∧ (t.queue r.q).appended = q.appended + 1 ∧
        (∀ k, s.cacheOk → 16 ∣ l.desc.ring.toNat → s.devPlace l.ctx at_ = some k →
          l.bitmaps = [] ∨ q.appended % 2 ^ l.desc.lblk ≠ 0 → t.homeRead k 16 = tm.scrRead r.off 16))) ∧
  (∀ (s : State) (o : ORef) (tm : Team) (g : Group) (p : Op) (tgt vd : Nat) (rows : List ERow) (fed : Nat → Launch),
    s.op? o = some (tm, g, p) → p.skip = [] → p.kind = .enq false true tgt vd rows [] [] → p.waitRetry = false →
    g.mayGo p = true → p.bn = none → g.live = true → (∀ r ∈ rows, r.lane < 32) → (rows.map (·.lane)).Nodup →
    (∀ r ∈ rows, s.fedQueue? (tm.ctx s) r.q = some (fed r.q) ∧ (s.queue r.q).closed = false ∧ s.appending o r.q = false ∧
      (rows.filter (·.q = r.q)).length ≤ (s.queue r.q).room (fed r.q).desc.nslot ∧ tm.scrDamaged r.off 16 = false) →
    ∃ t g', exec (.queueAppend o) s = .next t ∧ t.group? o.team o.grp = some g' ∧ (∀ e ∈ g'.ops, e.id ≠ p.id) ∧
      g'.efaults = g.efaults ∧
      (∀ q, (t.queue q).appended = (s.queue q).appended + (rows.filter (·.q = q)).length) ∧
      (∀ r ∈ rows, (g.sameItems p (maskOf (rows.map (·.lane)))).getLsbD r.lane = true →
        g'.file (.v vd r.lane) = BitVec.ofNat 64 (r.cls % 2 ^ 32)) ∧
      ∀ loc, (∀ r ∈ rows, loc ≠ .v vd r.lane) → g'.file loc = g.file loc) ∧
  (∀ (b : BinSet) (n k : Nat), k < b.bounds.length → (∀ i < k, b.bounds.getD i 0 < n) →
    (n ≤ b.bounds.getD k 0 → b.classOf n = k) ∧ (k + 1 = b.bounds.length → b.classOf n = k)) ∧
  (∀ (s : State) (o : ORef) (tm : Team) (g : Group) (p : Op) (close : Bool) (tgt vd : Nat) (rows : List ERow) (l : Launch),
    s.op? o = some (tm, g, p) → p.skip = [] → p.kind = .enq close false tgt vd rows [] [] → p.waitRetry = false → g.mayGo p = true →
    p.bn = none → g.live = true → (∀ r ∈ rows, r.q = tgt ∧ r.lane < 32) → (rows.map (·.lane)).Nodup →
    s.fedQueue? (tm.ctx s) tgt = some l →
    let q := s.queue tgt
    (q.closed = false → s.appending o tgt = false → rows.length ≤ q.room l.desc.nslot →
      (∀ r ∈ rows, tm.scrDamaged r.off 16 = false) →
      ∃ t g', exec (.queueAppend o) s = .next t ∧ (t.queue tgt).appended = q.appended + rows.length ∧
        (t.queue tgt).closed = close ∧ t.group? o.team o.grp = some g' ∧ (∀ e ∈ g'.ops, e.id ≠ p.id) ∧
        g'.efaults = g.efaults ∧
        (∀ i r, rows[i]? = some r → (g.sameItems p (maskOf (rows.map (·.lane)))).getLsbD r.lane = true →
          g'.file (.v vd r.lane) = BitVec.ofNat 64 ((q.appended + i) % 2 ^ 32)) ∧
        ∀ loc, (∀ r ∈ rows, loc ≠ .v vd r.lane) → g'.file loc = g.file loc) ∧
    (q.closed = true → rows ≠ [] → ∃ t g', exec (.queueAppend o) s = .next t ∧ t.mem = s.mem ∧
      (t.queue tgt).appended = q.appended ∧ t.group? o.team o.grp = some g' ∧ (∀ loc, g'.file loc = g.file loc) ∧
      ∃ e ∈ g'.efaults, e.cause = .range ∧ e.op = p ∧ ∀ r ∈ rows, e.lanes.getLsbD r.lane = true)) ∧
  (∀ (q : Nat) (s : State), ((s.queue q).fedBy ≠ none →
      exec (.queueClose q) s = .next (s.modQueue q fun q => { q with closed := true })) ∧
    ((s.queue q).fedBy = none → exec (.queueClose q) s = .next s)) ∧
  (∀ (h : Hdr) (f : BitVec 6) (sd sb : Reg) (x : Iss) (s : State), IssuesU (.qstat h f sd sb) h x s → x.inPlace s → x.lone →
    x.sp.only = none → x.g.full [0] false = false → (s.fedQueue? (x.tm.ctx s) (x.sR h sb).toNat).isSome →
    Enters (.qstat h f sd sb) h x s (.qstat (x.eff h sd) f.toNat (x.sR h sb).toNat) 0 .rlx .grp) ∧
  (∀ (s : State) (o : ORef) (tm : Team) (g : Group) (p : Op) (sd f q : Nat) (l : Launch), s.op? o = some (tm, g, p) →
    g.live = true → p.skip = [] → p.kind = .qstat sd f q → sd < 64 → (s.queue q).fedBy.bind s.launch? = some l →
    ∃ t g', exec (.qstatCompletion o) s = .next t ∧ t.mem = s.mem ∧ t.group? o.team o.grp = some g' ∧
      g'.file (.s sd) = BitVec.ofNat 64 (if f = 0 then (s.queue q).appended else if f = 1 then (s.queue q).dispensed
        else if f = 2 then (if (s.queue q).closed then 1 else 0)
        else l.desc.nslot - ((s.queue q).appended - (s.queue q).freed - (s.queue q).freedAhead.length)) ∧
      (∀ loc, loc ≠ .s sd → g'.file loc = g.file loc) ∧ ∀ e ∈ g'.ops, e.id ≠ p.id)

/-- Issue, capture, completion and acknowledgement of the remote operations. The delivery of a NETFAULT or DATAERR met at
capture and the two acknowledgements of RRED are log entry 48, RFENCE's new region is log entry 49, that the last byte too
must be canonical is log entry 77, and the store of replies is log entry 91. -/
def Obligations.RemoteTransfersAreCapturedThenAnswered : Prop :=
  (∀ (size n : Nat) (t : RXfer) (scr : Bool), 0 < n →
    let odd := t.va.toNat % min n 16 ≠ 0 ∨ (scr = true ∧ t.off % min n 16 ≠ 0)
    (4096 ≤ t.peer → checkRemote size t n scr = some (.plain t.lane .range 0)) ∧
    let bad := noncanon t.va.toNat = true ∨ noncanon (t.va.toNat + n - 1) = true
    (t.peer < 4096 → bad → checkRemote size t n scr = some (.plain t.lane .noncanon t.va)) ∧
    (t.peer < 4096 → ¬ bad → odd → (checkRemote size t n scr).map (·.cause) = some .misalign) ∧
    (t.peer < 4096 → ¬ bad → ¬ odd → (scr = true ∧ size < t.off + n →
        checkRemote size t n scr = some (.plain t.lane .range (BitVec.ofNat 64 t.off))) ∧
      (scr = false ∨ t.off + n ≤ size → checkRemote size t n scr = none))) ∧
  (∀ (h : Hdr) (z : BitVec 4) (ncon : BitVec 12) (ao : AtomOp) (ty : ElemTy) (fo : FlagOp) (w64 : Bool) (pr : Peer)
      (vb vc : Reg) (bar : Option (BitVec 4)) (x : Iss) (s : State), x.mayEngine s [4] →
    let n := 2 ^ (z.toNat + 2)
    let m := if w64 then 8 else 4
    let xs (scr : Bool) (d : Nat → List Byte) : List RXfer := (lanesOf (x.active h)).map fun l =>
      { lane := l, peer := x.peer h pr l, va := x.g.vr64 x.sp.id (x.eff h vb) l,
        off := if scr then (x.g.vr x.sp.id (x.eff h vc) l).toNat else 0, data := d l, pkt := none, done := false,
        cause := none, pages := [] }
    let ts := xs true fun _ => []
    let fs := xs false fun l => natLe m (if w64 then (x.g.vr64 x.sp.id (x.eff h vc) l).toNat
      else (x.g.vr x.sp.id (x.eff h vc) l).toNat)
    let is (k : OpKind) (o : Op) : Prop := o.kind = k ∧ o.engine = true ∧ o.bn = bar.map (·.toNat)
    ((∀ t ∈ ts, checkRemote (x.tm.scrSize s) t n true = none) →
      (Issues (.rwr h z pr vb vc bar) h x s → EntersOp (.rwr h z pr vb vc bar) h x s [4] (is (.rwr n ts))) ∧
      (Issues (.rrd h z pr vb vc bar) h x s → EntersOp (.rrd h z pr vb vc bar) h x s [4] (is (.rrd n ts))) ∧
      (Issues (.rred h ao ty z ncon pr vb vc bar) h x s →
        EntersOp (.rred h ao ty z ncon pr vb vc bar) h x s [4] (is (.rred ao ty n (ncon.toNat + 1) ts)))) ∧
    ((∀ t ∈ fs, checkRemote (x.tm.scrSize s) t m false = none) → Issues (.rflag h fo w64 pr vb vc bar) h x s →
      EntersOp (.rflag h fo w64 pr vb vc bar) h x s [4] (is (.rflag fo w64 fs)))) ∧
  (∀ (s : State) (o : ORef) (tm : Team) (g : Group) (p : Op), s.op? o = some (tm, g, p) → p.kind.isRemote = true →
    p.done = false → g.mayGo p = true → (∀ q ∈ g.ops, q.id = p.id → q = p) →
    let ts := p.kind.xfers
    let n := p.kind.xferSize
    (s.maySend tm g p.id = true → (ts.map (·.lane)).Nodup → (∀ t ∈ ts, t.data.length ≤ n ∧ t.lane < 32) →
      s.storeHeld + n * ts.length ≤ 2 ^ 26 → (∀ y ∈ ts, g.sendsFirst p y = false) →
      (∃ t g' p', exec (.retransmitCapture o) s = .next t ∧ t.mem = s.mem ∧ t.group? o.team o.grp = some g' ∧
        (∀ loc, g'.file loc = g.file loc) ∧ g'.op? p.id = some p' ∧ p'.done = false ∧
        p'.kind.xfers.length = ts.length ∧ ∀ y ∈ p'.kind.xfers, y.pkt.isSome ∨ y.done = true) ∧
      (∀ y, p.kind = .rwr n [y] → y.pkt = none → y.done = false → y.data = [] → tm.scrDamaged y.off n = false →
        (s.reachable y.peer = true → ∃ t, exec (.retransmitCapture o) s = .next t ∧ t.nextPkt = s.nextPkt + 1 ∧
          t.store = s.store ++ [{
            id := s.nextPkt, peer := y.peer, ctx := tm.ctx s, op := o
            msg := .write (tm.ctx s) y.va (tm.scrRead y.off n) o y.lane (if p.waitRetry || y.again then 33 else 1)
            xfer := y.lane, launch := tm.launch, tries := 0, firstAt := s.now, sentAt := s.now, arrived := false
            path := (s.sprayTo y.peer).1 }]) ∧
        (s.reachable y.peer = false → g.live = true → ∃ t g', exec (.retransmitCapture o) s = .next t ∧
          t.store = s.store ∧ t.group? o.team o.grp = some g' ∧
          ∃ e ∈ g'.efaults, e.cause = .netfault ∧ e.op.id = p.id ∧ e.lanes.getLsbD y.lane = true))) ∧
    (p.waitRetry = false → (∀ k ys, p.kind ≠ .rrd k ys) → (∀ y ∈ ts, y.pkt.isSome ∨ y.done = true) →
      ∃ t t' g', exec (.remoteLocalCompletion o) s = .next t ∧ t.mem = s.mem ∧ t.store = s.store ∧
        t.team? o.team = some t' ∧ t.group? o.team o.grp = some g' ∧ (∀ loc, g'.file loc = g.file loc) ∧
        (∀ rest, g.ctrs[4]? = some ((p.id, false) :: rest) →
          g'.ctr 4 = (rest.dropWhile fun e => e.1 = p.id || e.2).length) ∧
        (∀ b r, p.bn = some b → (tm.bar b).arrive 1 (n * (ts.filter fun y => y.pkt.isSome || y.cause.isNone).length) = some r → t'.bars = tm.bars.set b r) ∧
        ((∃ q ∈ g'.ops, q.id = p.id) ↔ ∃ y ∈ ts, y.done = false)) ∧
    (∀ k, p.kind = .rrd k ts → p.waitRetry = false → (∀ y ∈ ts, y.done = true ∧ y.placed = false ∧ y.lane < 32) →
      ∃ t t' g', exec (.rrdCompletion o []) s = .next t ∧ t.mem = s.mem ∧ t.team? o.team = some t' ∧
        t.group? o.team o.grp = some g' ∧ (∀ q ∈ g'.ops, q.id ≠ p.id) ∧ (∀ loc, g'.file loc = g.file loc) ∧
        (∀ pre a post i, ts = pre ++ a :: post → a.cause = none → i < a.data.length →
          (∀ b ∈ post, b.cause = none → ¬ (b.off ≤ a.off + i ∧ a.off + i < b.off + b.data.length)) →
          t'.scrByte (a.off + i) = a.data.getD i 0) ∧
        (∀ y, (∀ a ∈ ts, a.cause = none → ¬ (a.off ≤ y ∧ y < a.off + a.data.length)) → t'.scrByte y = tm.scrByte y) ∧
        (g.live = true → ∀ a ∈ ts, ∀ c, a.cause = some c →
          ∃ e ∈ g'.efaults, e.cause = c ∧ e.op.id = p.id ∧ e.lanes.getLsbD a.lane = true)) ∧
    (∀ k a d, p.kind = .rrd k [a] → p.waitRetry = false → a.done = false → a.placed = false → a.pkt.isSome → a.peer ≠ s.pkgNum →
      a.cause = none → d.length = k → ∃ t t', exec (.rrdCompletion o [(a.lane, .done d)]) s = .next t ∧
        t.team? o.team = some t' ∧ ∀ i < k, t'.scrByte (a.off + i) = d.getD i 0)) ∧
  (∀ (s : State) (k : Nat) (p : Packet), s.store.find? (·.id = k) = some p → p.peer ≠ s.pkgNum →
    (∀ a b c, p.msg ≠ .read a b c) → p.msg ≠ .request →
    (((∀ a b c d e f g, p.msg ≠ .red a b c d e f g) ∨ p.arrived = true) →
      ∃ t, exec (.ackReceive k (.done [])) s = .next t ∧ t.mem = s.mem ∧ t.store = s.store.filter (·.id ≠ k)) ∧
    (∀ a b c d e f g, p.msg = .red a b c d e f g → p.arrived = false → exec (.ackReceive k (.done [])) s =
      .next { s with store := s.store.map fun q => if q.id = k then { q with arrived := true } else q }) ∧
    (∀ (c : Cause) (ps : Pages) (dt : DWord) (tm : Team) (g : Group) (q : Op), s.op? p.op = some (tm, g, q) → g.live = true → p.xfer < 32 →
      (∀ n ts, q.kind ≠ .rrd n ts) → ∃ t g', exec (.ackReceive k (.refused c ps dt)) s = .next t ∧
        t.store = s.store.filter (·.id ≠ k) ∧ t.group? p.op.team p.op.grp = some g' ∧
        ∃ e ∈ g'.efaults, e.cause = c ∧ e.op.id = q.id ∧ e.lanes.getLsbD p.xfer = true)) ∧
  (∀ (s : State) (k : Nat) (a : RAns), (∀ p ∈ s.store, p.id ≠ k) →
    exec (.ackReceive k a) s = .next { s with replies := s.replies.filter (·.id ≠ k) }) ∧
  (∀ (h : Hdr) (x : Iss) (s : State), IssuesU (.rfence h) h x s →
    exec (.rfence h) s = .next ((x.hold h (.rfence x.g.nextOp [] 0) true s).pushRelease x.r)) ∧
  (∀ (r : SRef) (x : Iss) (s : State) (f k : Nat) (ms : List (FifoRef × Nat)), s.at? r = some x → x.g.efaults = [] →
    x.sp.hold = .rfence f ms k →
    (x.released s = true → (∀ q ∈ x.g.ops, q.kind.isRemote = true → f ≤ q.id) →
      exec (.rfenceComplete r) s = .next ((s.passHeld r 1).bumpRegion r.team r.grp)) ∧
    (x.released s = false ∨ (∃ q ∈ x.g.ops, q.kind.isRemote = true ∧ q.id < f) →
      exec (.rfenceComplete r) s = .next s)) ∧
  (∀ (h : Hdr) (f : BitVec 6) (sd sp sr : Reg) (x : Iss) (s : State), IssuesU (.csig h f sd sp sr) h x s →
    x.inPlace s → x.lone → x.sp.only = none → x.g.full [4] false = false → (x.sR h sp).toNat < 4096 →
    EntersOp (.csig h f sd sp sr) h x s [4] fun o =>
      o.kind = .csig f.toNat (x.sR h sp).toNat (x.sR h sr) (x.eff h sd) none) ∧
  (∀ (s : State) (src ctx : Nat) (va : DWord), s.pkg = .up →
    exec (.csigRequestArrival (.peer src ctx va)) s = .next (s.reply src false (.sigAns src (s.sigAt ctx va)))) ∧
  (∀ (s : State) (o : ORef) (tm : Team) (g : Group) (p : Op) (f q sd : Nat) (va : DWord) (res : Option DWord)
      (ans : Option RAns), s.op? o = some (tm, g, p) → p.kind = .csig f q va sd res →
    (f = 0 → q = s.pkgNum → res = none → ∃ t g' p', exec (.csigRequestArrival (.own o)) s = .next t ∧ t.mem = s.mem ∧
      t.group? o.team o.grp = some g' ∧ (∀ loc, g'.file loc = g.file loc) ∧ g'.op? p.id = some p' ∧
      p'.kind = .csig 0 q va sd (some (s.sigAt (tm.ctx s) va))) ∧
    (∀ v, g.live = true → p.skip = [] → sd < 64 →
      (f = 0 ∧ q = s.pkgNum ∧ res = some v) ∨
      (f = 0 ∧ q ≠ s.pkgNum ∧ s.reachable q = true ∧ ∃ d, ans = some (.done d) ∧ v = BitVec.ofNat 64 (leNat d)) ∨
      (∃ pt, s.peers.find? (·.1 = q) = some (q, pt) ∧
        ((f = 1 ∧ v = BitVec.ofNat 64 pt.paths.length) ∨ (f = 2 ∧ v = BitVec.ofNat 64 pt.events))) →
      ∃ t g', exec (.csigCompletion o ans) s = .next t ∧ t.mem = s.mem ∧ t.group? o.team o.grp = some g' ∧
        g'.file (.s sd) = v ∧ (∀ loc, loc ≠ .s sd → g'.file loc = g.file loc) ∧ ∀ e ∈ g'.ops, e.id ≠ p.id))

/-- Arrivals at a home package that is up. That a contribution beyond its endpoint's 16,384 open rounds arrives again later is
log entry 48, and which endpoint holds a target is log entry 80. -/
def Obligations.RemoteArrivalsArePerformedAtTheirHome : Prop :=
  (∀ (s : State) (ctx : Nat) (va : DWord) (bs : List PByte), s.pkg = .up → s.cacheOk → (bs.map (·.pa)).Nodup →
    let now (t : State) : List Byte := bs.map fun b => t.homeByte b.pa
    let rest (t : State) : Prop := ∀ pa, (∀ b ∈ bs, b.pa ≠ pa) → t.homeByte pa = s.homeByte pa
    (∀ (d : List Byte) (src lane n : Nat) (i : ORef), s.transRemote ctx .write va d.length = .ok bs →
      let w (src : Nat) : LaneWrites := (s.wins.find? fun w => w.src == src && w.instr == i).getD ⟨src, i, n, [], []⟩
      let beaten (src pa : Nat) : Bool := (w src).bytes.any fun e => e.1 == pa && decide (lane < e.2)
      let put (src : Nat) (t : State) : Prop := rest t ∧
        now t = (bs.zip d).map (fun b => if beaten src b.1.pa then s.homeByte b.1.pa else b.2) ∧
        ((w src).lanes.length + 1 < max (w src).count n → ∃ w' ∈ t.wins, w'.src = src ∧ w'.instr = i ∧
          ∀ b ∈ bs, beaten src b.pa = false → (b.pa, lane) ∈ w'.bytes)
      (∃ t, exec (.remoteWriteArrival (.peer src (.write ctx va d i lane n))) s = .next t ∧ put src t ∧
        t.outbox = s.outbox ++ [.ack src (.done [])]) ∧
      (∀ k p, s.ownPacket? k = some p → p.msg = .write ctx va d i lane n →
        ∃ t, exec (.remoteWriteArrival (.own k)) s = .next t ∧ put s.pkgNum t ∧ t.store = s.store.filter (·.id ≠ k))) ∧
    (∀ n src : Nat, s.transRemote ctx .read va n = .ok bs → (∀ b ∈ bs, s.homeBad b.pa = false) →
      exec (.remoteReadArrival (.peer src (.read ctx va n))) s =
        .next (s.reply src (!decide (n ≤ 8)) (.readAns src (.done (now s)))) ∧
      (∀ k p tm g q m ts, s.ownPacket? k = some p → p.msg = .read ctx va n → s.packetWaits p = false →
        s.op? p.op = some (tm, g, q) → q.kind = .rrd m ts → q.done = false →
        ∃ t g' q' ts', exec (.remoteReadArrival (.own k)) s = .next t ∧ t.mem = s.mem ∧
          t.store = s.store.filter (·.id ≠ k) ∧ t.group? p.op.team p.op.grp = some g' ∧ g'.op? q.id = some q' ∧
          q'.kind = .rrd m ts' ∧ ts'.length = ts.length ∧
          ∀ a ∈ ts', a.lane = p.xfer → a.done = true ∧ a.data = now s ∧ a.cause = none)) ∧
    (∀ (op : FlagOp) (w64 : Bool) (v : DWord) (src : Nat),
      let n := if w64 then 8 else 4
      let new := match op with
        | .set => v.toNat
        | .add => leNat (now s) + v.toNat
        | .or => leNat (now s) ||| v.toNat
        | .maxu => max (leNat (now s)) v.toNat
      s.transRemote ctx .rmw va n = .ok bs → (∀ b ∈ bs, s.homeBad b.pa = false) → v.toNat < 2 ^ (8 * n) →
      (∃ t, exec (.remoteFlagArrival (.peer src (.flag ctx va op w64 v))) s = .next t ∧
        leNat (now t) = new % 2 ^ (8 * n) ∧ rest t ∧ t.outbox = s.outbox ++ [.ack src (.done [])]) ∧
      (∀ k p, s.ownPacket? k = some p → p.msg = .flag ctx va op w64 v →
        (s.packetWaits p = false → ∃ t, exec (.remoteFlagArrival (.own k)) s = .next t ∧
          leNat (now t) = new % 2 ^ (8 * n) ∧ rest t ∧ t.store = s.store.filter (·.id ≠ k)) ∧
        ((∃ q ∈ s.store, q.id < p.id ∧ q.peer = p.peer ∧ q.op.team = p.op.team ∧ q.op.grp = p.op.grp ∧
            ∃ a b c d e, q.msg = .flag a b c d e) → exec (.remoteFlagArrival (.own k)) s = .next s)))) ∧
  (∀ (s : State) (ctx src lane n : Nat) (va : DWord) (d : List Byte) (i : ORef) (f : LFault), s.pkg = .up →
    (s.transRemote ctx .write va d.length = .error f →
      exec (.remoteWriteArrival (.peer src (.write ctx va d i lane n))) s =
        .next (s.send (.ack src (.refused f.cause f.pages f.detail)))) ∧
    (s.transRemote ctx .read va n = .error f →
      exec (.remoteReadArrival (.peer src (.read ctx va n))) s =
        .next (s.reply src (!decide (n ≤ 8)) (.readAns src (.refused f.cause f.pages f.detail))))) ∧
  (∀ (s : State) (src seq ctx ncon : Nat) (va : DWord) (op : AtomOp) (ty : ElemTy) (d : List Byte) (bs : List PByte),
    s.pkg = .up → s.transRemote ctx .rmw va d.length = .ok bs →
    let i := Instr.reductionContribution (.peer src (.red ctx va op ty ncon seq d))
    let r : Round := ⟨ctx, va, d.length, op, ty, ncon, []⟩
    let c : Contrib := ⟨src, seq, d, none⟩
    let open_ := (s.rounds.filter fun q => q.endpoint == r.endpoint).length
    ((∀ q ∈ s.rounds, r.same q = false) → open_ < 16384 → 1 < ncon →
      exec i s = .next { s.send (.ack src (.done [])) with rounds := s.rounds ++ [{ r with got := [c] }] }) ∧
    ((∀ q ∈ s.rounds, r.same q = false) → 16384 ≤ open_ → exec i s = .next s) ∧
    (∀ q, s.rounds.find? r.same = some q →
      (q.ncon ≠ ncon → exec i s = .next (s.send (.ack src (.refused .range [] 0)))) ∧
      (q.ncon = ncon → q.got.length + 1 < ncon → exec i s = .next { s.send (.ack src (.done [])) with
        rounds := s.rounds.map fun x => if r.same x then { q with got := q.got ++ [c] } else x }) ∧
      (q.ncon = ncon → ncon ≤ q.got.length + 1 → exec i s =
        .next ({ s.send (.ack src (.done [])) with rounds := s.rounds.filter (!r.same ·) }.closeRound
          { q with got := q.got ++ [c] })))) ∧
  (∀ (s : State) (r : Round) (bs : List PByte) (m : Nat), s.cacheOk → s.transRemote r.ctx .rmw r.va r.size = .ok bs →
    (∀ b ∈ bs, s.homeBad b.pa = false) → (bs.map (·.pa)).Nodup → r.op = .add → r.ty = .z32 → r.size = 4 * m →
    (∀ c ∈ r.got, c.data.length = r.size) →
    let t := s.closeRound r
    let word (b : List Byte) (e : Nat) : Nat := leNat ((b.drop (4 * e)).take 4)
    (∀ e < m, word (bs.map fun b => t.homeByte b.pa) e =
      (word (bs.map fun b => s.homeByte b.pa) e + (r.got.map fun c => word c.data e).sum) % 2 ^ 32) ∧
    (∀ pa, (∀ b ∈ bs, b.pa ≠ pa) → t.homeByte pa = s.homeByte pa) ∧
    t.sigAt r.ctx r.va = (s.schedule r.got).foldl (fun h c =>
      (h ^^^ BitVec.ofNat 64 (c.src * 256 + s.tierOf c.src)) * 0x00000100000001B3) 0) ∧
  (∀ (s : State) (cs : List Contrib), (s.schedule cs).Perm cs ∧
    (s.schedule cs).Pairwise fun a b => s.tierOf a.src < s.tierOf b.src ∨ (s.tierOf a.src = s.tierOf b.src ∧
      (a.src < b.src ∨ (a.src = b.src ∧ a.seq ≤ b.seq))))

/-- Class 0xF, landings and reserved slots. That GSTAT.HELD counts the splits without a table entry is log entry 55. -/
def Obligations.SystemRegistersTrapsAndLandings : Prop :=
  (∀ (h : Hdr) (n : BitVec 6) (sd : Reg) (x : Iss) (s : State),
    GivesU (.csrr h n sd) h x s [(.s (x.eff h sd), ones, x.csr n)]) ∧
  (∀ (h : Hdr) (sd : BitVec 8) (x : Iss) (s : State), GivesU (.cyc h sd) h x s
    [(.s sd.toNat, ones, BitVec.ofNat 64 (s.now - (s.core x.tm.core).resetAt))]) ∧
  (∀ x : Iss, x.csr 0x00 = x.g.gctl.setWidth 64 ∧ (∀ k : Nat, k < 8 → x.csr (BitVec.ofNat 6 (8 + k)) = x.g.frec.getD k 0) ∧
    (x.g.splits.length ≤ 32 → (x.g.splits.filter (·.entry.isSome)).length ≤ 8 →
      (x.csr 0x01).toNat % 2 ^ 12 = popCount x.g.occ ∧
      (x.csr 0x01).toNat / 2 ^ 12 % 2 ^ 4 = (x.g.splits.filter (·.entry.isSome)).length ∧
      (x.csr 0x01).toNat / 2 ^ 16 % 2 ^ 6 = (x.g.splits.filter (·.entry.isNone)).length ∧
      (x.csr 0x01).getLsbD 22 = x.g.xp.isSome ∧ (x.csr 0x01).toNat / 2 ^ 32 = x.g.region.toNat) ∧
    (x.g.xp = none → x.csr 0x10 = 0) ∧
    (∀ e, x.g.xp = some e → e.cur < 2 ^ 32 → e.total < 2 ^ 32 →
      (x.csr 0x10).toNat % 2 ^ 32 = e.cur ∧ (x.csr 0x10).toNat / 2 ^ 32 = e.total) ∧
    (x.tm.groups.length ≤ 64 → (x.csr 0x11).toNat % 2 ^ 15 = (x.tm.groups.filter (·.live)).length ∧
      ((x.csr 0x11).getLsbD 15 = true ↔ ∃ n, x.tm.st = .notice n))) ∧
  (∀ (h : Hdr) (n : BitVec 6) (sa : Reg) (x : Iss) (s : State), IssuesU (.csrw h n sa) h x s → x.inPlace s → x.lone →
    Completes (.csrw h n sa) h x s fun t g =>
      g = { x.g with gctl := g.gctl, splits := g.splits, pend := g.pend, score := g.score } ∧
      (n = 0 → ∀ k, g.gctl.getLsbD k = (decide (k < 9) && (x.sR h sa).getLsbD k)) ∧ (n ≠ 0 → g.gctl = x.g.gctl) ∧
      ∀ a b, (a, b) ≠ (x.r.team, x.r.grp) → t.group? a b = s.group? a b) ∧
  (∀ (h : Hdr) (c : BitVec 6) (x : Iss) (s : State) (l : Launch), x.inPlace s → x.lone → x.launch s = some l →
    let stops (i : Instr) (cause : Cause) : Prop := ∃ t g y l', exec i s = .next t ∧
      t.group? x.r.team x.r.grp = some g ∧ g.splits = [y] ∧ y.pc = x.sp.pc ∧ y.mask = x.sp.mask ∧
      y.hold = .stop (l.seq + 1) ∧ g.occ = x.g.occ ∧ g.item = x.g.item ∧ g.gctl = x.g.gctl ∧ g.region = x.g.region ∧
      (x.g.pend = [] → ∀ loc, g.file loc = x.g.file loc) ∧
      (g.frec.getD 0 0).toNat % 2 ^ 8 = cause.code ∧ (g.frec.getD 0 0).toNat / 2 ^ 32 = (l.seq + 1) % 2 ^ 32 ∧
      g.frec.getD 1 0 = x.sp.pc ∧ (g.frec.getD 2 0).toNat = x.sp.mask.toNat * 2 ^ 32 + x.sp.mask.toNat ∧
      g.frec.getD 5 0 = c.setWidth 64 ∧
      t.launch? l.id = some l' ∧ l'.seq = l.seq + 1 ∧ l'.nfault = l.nfault + 1 ∧ l'.exited = l.exited ∧
      l'.killed = l.killed ∧ HostMsg.delivered l.id (l.seq + 1) (logEntry g.frec [] []) ∈ t.hostOut ∧
      ∃ r ∈ l'.reports, r.seq = l.seq + 1 ∧ r.cause = some cause ∧ r.trapStop = true ∧ r.ref = x.r
    (IssuesU (.trap h c) h x s → stops (.trap h c) .syscall) ∧ (IssuesU (.brk h c) h x s → stops (.brk h c) .brk)) ∧
  (∀ (w : Word) (x : Iss) (s : State), s.issuer = some x →
    exec (.reservedOpcode w) s = .next (x.groupFault (hdrOf w) .illop 0 s)) ∧
  (∀ (s : State) (team grp i : Nat) (g : Group) (e : Pend), s.group? team grp = some g → g.pend[i]? = some e →
    (∀ k q, g.pend[k]? = some q → k ≠ i → q.loc ≠ e.loc) → e.loc ≠ .k 0 → e.mask &&& ~~~e.loc.width = 0 →
    (s.now < e.landsAt → ∃ t, exec (.resultLanding team grp i) s = .next t ∧ t.mem = s.mem ∧
      t.group? team grp = some g) ∧
    (e.landed = false → e.landsAt ≤ s.now → ∃ t g', exec (.resultLanding team grp i) s = .next t ∧ t.mem = s.mem ∧
      t.group? team grp = some g' ∧ g'.file e.loc = (g.file e.loc &&& ~~~e.mask) ||| (e.new &&& e.mask) ∧
      (∀ loc, loc ≠ e.loc → g'.file loc = g.file loc) ∧ g'.rd e.split e.loc = g.rd e.split e.loc ∧
      g'.splits = g.splits ∧ g'.occ = g.occ))

/-- The scheduler's events. That only the first start in order takes place and where a window lies are log entry 54. -/
def Obligations.TeamsStartDrawBlocksAndComplete : Prop :=
  (∀ (grp now : Nat) (entry : DWord) (loc : Loc), loc ≠ .k 0 → (Group.start grp entry now).file loc = 0) ∧
  (∀ (s : State) (lid d : Nat) (cores : List Nat) (l : Launch), s.launch? lid = some l →
    (s.ready l = false → exec (.teamStart lid cores) s = .next s) ∧
    (s.pkg = .up → s.ready l = true → s.nextAsk l = none → l.staggered cores = false → d < 4 → cores ∈ s.places l [] d →
      s.firstHere (s.startKey l false) cores = true → (∀ t ∈ s.teams, t.id < s.nextTeamId) →
      ∃ t, exec (.teamStart lid cores) s = .next t ∧ t.nextTeamId = s.nextTeamId + cores.length ∧
        (∀ k, k < s.nextTeamId → t.team? k = s.team? k) ∧
        ∀ i c, cores[i]? = some c → ∃ tm, t.team? (s.nextTeamId + i) = some tm ∧ tm.core = c ∧ tm.pos = i ∧
          tm.launch = l.id ∧ tm.num = l.nextTeam + i ∧ tm.clus = l.nextClus ∧ tm.st = .running ∧
          tm.groups = (List.range l.kern.team).map fun g => Group.start g l.kern.entry s.now)) ∧
  (∀ (s : State) (l : Launch) (j : Nat), s.nextBlock l = some j → s.blockMet l j = true ∧
    ((j ∈ l.returned ∧ ∀ k ∈ l.returned, s.blockMet l k = true → j ≤ k) ∨
     (l.everDrawn j = false ∧ j < s.blockCount l ∧ (∀ k ∈ l.returned, s.blockMet l k = false) ∧
      ∀ k < j, l.everDrawn k = true ∨ s.blockMet l k = false))) ∧
  (∀ (s : State) (team j : Nat) (tm : Team) (l : Launch), s.team? team = some tm → s.launch? tm.launch = some l →
    (s.teams.map (·.id)).Nodup →
    ((∃ u ∈ s.teams, u.launch = l.id ∧ u.acting = true ∧ u.wantBlk = true ∧ (s.shift l u).nxt = none ∧ u.id ≠ team ∧
      u.asked < tm.asked) → exec (.blockDraw team) s = .next s) ∧
    ((s.nextAsk l).map (·.id) = some team → l.killing = false → l.suspended = false →
    let tm0 := s.shift l tm
    (s.nextBlock l = none → exec (.blockDraw team) s = .next s) ∧
    (s.nextBlock l = some j → ∃ t tm' l', exec (.blockDraw team) s = .next t ∧ t.mem = s.mem ∧ t.team? team = some tm' ∧
      t.launch? l.id = some l' ∧ tm'.groups = tm.groups ∧ tm'.wantBlk = false ∧
      ((tm.cur = none ∨ ∃ k, tm.cur = some k ∧ s.exhausted l k = true) → tm0.cur = tm.nxt) ∧
      (if tm0.cur = none then tm'.cur = some ⟨j, j * 2 ^ l.desc.lblk⟩ ∧ tm'.nxt = none
        else tm'.cur = tm0.cur ∧ tm'.nxt = some ⟨j, j * 2 ^ l.desc.lblk⟩) ∧
      l'.blks = l.blks ++ [⟨j, team, s.now, 0, s.now⟩] ∧ l'.returned = l.returned.erase j))) ∧
  (∀ (s : State) (lid j : Nat) (l : Launch) (b : Blk) (tm : Team), s.launch? lid = some l →
    l.blks.find? (·.blk = j) = some b → s.team? b.team = some tm →
    (b.counted ≠ s.blockSize l j → exec (.blockComplete lid j) s = .next s) ∧
    (b.counted = s.blockSize l j → 0 < b.counted → tm.opsBetween b.drawn b.last = false →
      let s1 := s.release tm.core .pkg
      ∃ t l', exec (.blockComplete lid j) s = .next t ∧ t.launch? lid = some l' ∧ l'.blkDone = l.blkDone ++ [j] ∧
        l'.blks = l.blks.filter (·.blk ≠ j) ∧ t.teams = s.teams ∧
        t = ((s1.bitmaps (s1.queue l.queue) l.node).foldl (fun s m => s.setBit l.ctx m j) s1).modLaunch lid fun l =>
          { l with blks := l.blks.filter (·.blk ≠ j), blkDone := l.blkDone ++ [j] })) ∧
  (∀ (s : State) (lid isl t0 : Nat) (l : Launch), s.launch? lid = some l → Map.find? l.lastStart isl = some t0 →
    (s.now < t0 + l.desc.stagger → exec (.staggerExpiry lid isl) s = .next s) ∧
    (t0 + l.desc.stagger ≤ s.now → ∃ t l', exec (.staggerExpiry lid isl) s = .next t ∧ t.launch? lid = some l' ∧
      Map.find? l'.lastStart isl = none ∧ ∀ k, k ≠ isl → Map.find? l'.lastStart k = Map.find? l.lastStart k)) ∧
  (∀ (s : State) (lid : Nat) (l : Launch), s.launch? lid = some l → (s.teams.map (·.id)).Nodup →
    ∃ t, exec (.priorityPreemption lid) s = .next t ∧
    (∀ k tm, s.team? k = some tm → ∃ tm', t.team? k = some tm' ∧ (tm' = tm ∨ (tm.st = .running ∧
      tm'.st = .notice s.now ∧ tm'.why = some .priority ∧ ∃ v, s.launch? tm.launch = some v ∧ s.prio v < s.prio l ∧
      v.desc.part = false))) ∧
    (∀ d, d < 4 → s.wants l = true → l.held = [] → 0 < l.kern.clw * l.kern.clh →
      (∀ e, e < 4 → s.wantPlaces l [] e = []) → (s.dieSet l d).isSome →
      ∃ l' e ts r, t.launch? lid = some l' ∧ l'.held ≠ [] ∧ e < 4 ∧ s.dieSet l e = some (ts, r) ∧
        (∀ c, c ∈ l'.held ↔ c ∈ r ∨ ∃ v ∈ ts, ∃ tm ∈ s.mates v, tm.st = .running ∧ tm.core = c) ∧
        ∀ v ∈ ts, ∀ tm ∈ s.mates v, tm.st = .running → ∃ tm', t.team? tm.id = some tm' ∧
          (s.team? tm.id = some tm → tm'.st = .notice s.now))) ∧
  (∀ (s : State) (p core : Nat) (more : List Nat) (l : Launch) (tl : Nat × Nat × Nat), s.partWait = p :: more →
    s.launch? p = some l → (s.launches.filter fun x => x.id ≠ p ∧ ¬ x.partCores.isEmpty).length < 4 →
    tileOf l.kern.clw l.kern.clh core = some tl →
    (let ts := (l.partCores.filterMap (tileOf l.kern.clw l.kern.clh)).dedup
     tl ∈ ts ∨ ts.length < l.desc.pcores / (l.kern.clw * l.kern.clh)) →
    core < 384 → s.vfOfCore core = s.vfOf l → s.groupsOn core [] = [] →
    (∀ x ∈ s.launches, core ∉ x.partCores ∧ (core ∈ x.held → s.wants x = false)) →
    ∃ t l', exec (.partitionReserve core) s = .next t ∧ t.launch? p = some l' ∧ l'.partCores = l.partCores ++ [core] ∧
      (l'.partOk = true ↔ l.desc.pcores ≤ l.partCores.length + 1) ∧
      t.partWait = if l.desc.pcores ≤ l.partCores.length + 1 then more else p :: more) ∧
  (∀ (s : State) (lid : Nat) (l : Launch), s.launch? lid = some l →
    (s.quiet l = false → exec (.launchCompletion lid) s = .next s) ∧
    (s.quiet l = true → l.st = .running → l.suspended = false →
      (l.killing = true ∨ (s.undrawn l = false ∧ (l.desc.fed = true → (s.queue l.desc.qnum).closed = true))) →
      ∃ t l', exec (.launchCompletion lid) s = .next t ∧ t.launch? lid = some l' ∧ l'.partCores = [] ∧
        l'.st = (if l.killing then .killed
          else if l.exited + l.killed + l.lost = s.itemCount l then .complete else .incomplete) ∧
        HostMsg.completed lid ∈ t.hostOut ∧ t.teams = s.teams))

/-- The graph walker. Which REASON a refusal names, and the refusal of a busy queue, are log entry 53. -/
def Obligations.GraphsRunTheirNodesInOrder : Prop :=
  (∀ nodes : List GNode, graphOk nodes = true → ∀ n ∈ nodes, n.ty ≤ 3 ∧ ∀ t ∈ n.succs, t < nodes.length) ∧
  (∀ (s : State) (q ctx n : Nat) (addr : DWord),
    let nodes := (List.range n).map fun i => gnodeOf (s.devRead ctx (addr.toNat + 32 * i) 32)
    let i := Instr.placeGraph q ctx addr n
    let vf := ((s.ctx? ctx).map (·.vf)).getD 0
    (s.pkg ≠ .up ∨ 64 ≤ q ∨ 65536 ≤ n ∨ (s.queue q).busy = true ∨ s.vfOfQueue q ≠ vf → exec i s = .next (s.tell .refusedCmd)) ∧
    (s.pkg = .up → q < 64 → n < 65536 → (s.queue q).busy = false → s.vfOfQueue q = vf →
      (graphOk nodes = false → exec i s = .next (s.tell (.refusedGraph q))) ∧
      (graphOk nodes = true → ∃ t, exec i s = .next t ∧ t.mem = s.mem ∧ (t.queue q).nodes = nodes ∧
        (t.queue q).ctx = ctx ∧
        ((t.queue q).busy = true ↔ ∃ x ∈ nodes, x.npred = 0) ∧
        (∀ k, ⟨k, false, false, true⟩ ∈ (t.queue q).arrivals ↔ ∃ x, nodes[k]? = some x ∧ x.npred = 0) ∧
        ∀ k, k ≠ q → t.queue k = s.queue k))) ∧
  (∀ (s : State) (qn m : Nat) (skip first : Bool) (more : List GArr) (n : GNode),
    (s.queue qn).arrivals = ⟨m, skip, false, first⟩ :: more → (s.queue qn).nodes[m]? = some n →
    let n1 : GNode := if first then n else { n with pending := n.pending - 1, mark := n.mark || !skip }
    let runs : Prop := first = true ∨ (n.pending = 1 ∧ n1.mark = true)
    let s1 := s.modQueue qn fun q => { q with arrivals := more, nodes := q.nodes.modify m fun _ => n1 }
    let q1 := s1.queue qn
    let sent (t : State) (b : Bool) : Prop := ∀ d, ∀ k ∈ n.succ, k = some d →
      ⟨d, b, isBack q1.nodes m d, false⟩ ∈ (t.queue qn).arrivals
    (first = false → n.pending = 0 → ∃ t, exec (.graphNodeArrival qn) s = .next t ∧ t.launches = s.launches ∧
      (t.queue qn).nodes = (s.queue qn).nodes ∧ (t.queue qn).arrivals = more) ∧
    (first = false → 1 < n.pending → ∃ t, exec (.graphNodeArrival qn) s = .next t ∧ t.launches = s.launches ∧
      (t.queue qn).nodes[m]? = some n1 ∧ (t.queue qn).arrivals = more) ∧
    (first = false → n.pending = 1 → n1.mark = false → ∃ t, exec (.graphNodeArrival qn) s = .next t ∧ t.launches = s.launches ∧
      (t.queue qn).nodes[m]? = some { n1 with state := 3 } ∧ sent t true) ∧
    (runs → n.ty = 3 → ∃ t, exec (.graphNodeArrival qn) s = .next t ∧
      t.launches = s.launches ∧ (t.queue qn).nodes[m]? = some { n1 with state := 2 } ∧
      ∀ d, ∀ k ∈ n.succ, k = some d → ∃ b, ⟨d, false, b, false⟩ ∈ (t.queue qn).arrivals) ∧
    (runs → n.ty = 0 →
      let ds := s1.readDescs q1.ctx n.arg.toNat
      (∀ r, s1.refusal q1.ctx m q1.nodes ds = some r → ∃ t, exec (.graphNodeArrival qn) s = .next t ∧
        t.launches = s.launches ∧ (t.queue qn).nodes[m]? = some { n1 with state := 3 } ∧ sent t true) ∧
      (s1.refusal q1.ctx m q1.nodes ds = none → ∃ t l, exec (.graphNodeArrival qn) s = .next t ∧
        t.launches = s.launches ++ [l] ∧ t.nextLaunch = s.nextLaunch + 1 ∧ l.id = s.nextLaunch ∧ l.st = .running ∧
        l.queue = qn ∧ l.node = m ∧ l.ctx = q1.ctx ∧ l.kern = kernelOf ds.kb ∧ l.desc.items = (ldescOf ds.lb).items ∧
        l.desc.policy = (ldescOf ds.lb).policy ∧ l.exited = 0 ∧ l.killed = 0 ∧ l.lost = 0 ∧
        (t.queue qn).nodes[m]? = some { n1 with state := 1 })))

/-- The management commands and the events of pre-emption. What is executed again after a stop is log entry 55, the answers to
faults 56, what an invalidation waits for and which commands a package that is not up refuses 57, and a context record 9. -/
def Obligations.AnswersAndPreemptionActOnTheirTargets : Prop :=
  (∀ (s : State) (i : Instr), s.pkg ≠ .up → (∃ l n c d a b, i ∈ [.resolveResolved l n, .resolveKill l n, .resolveEnd l n,
      .release l n, .preempt c, .resume c, .invalidate d a b, .setPkg n]) → exec i s = .next (s.tell .refusedCmd)) ∧
  (∀ (s : State) (lid seq : Nat),
    (s.report? lid seq false = none → exec (.resolveResolved lid seq) s = .next (s.tell .refusedCmd) ∧
      exec (.resolveKill lid seq) s = .next (s.tell .refusedCmd) ∧
      exec (.resolveEnd lid seq) s = .next (s.tell .refusedCmd)) ∧
    (s.report? lid seq true = none → exec (.release lid seq) s = .next (s.tell .refusedCmd))) ∧
  (∀ (s : State) (lid seq : Nat) (l : Launch) (r : Report) (tm : Team) (g : Group) (x : Split), s.pkg = .up →
    s.launch? lid = some l →
    s.report? lid seq false = some r → s.splitAt? r.ref = some (tm, g, x) → tm.launch = lid →
    (r.eng = none → x.hold = .fault seq → x.only ≠ some 0 → l.suspended = false →
      (∀ q ∈ l.reports, q.ref = r.ref → q.trapStop = false → q.seq = seq) →
      ∃ t tm' g' x' l', exec (.resolveResolved lid seq) s = .next t ∧ t.mem = s.mem ∧
        t.splitAt? r.ref = some (tm', g', x') ∧ (∀ loc, g'.file loc = g.file loc) ∧ g'.occ = g.occ ∧ x'.hold = .run ∧ x'.pc = x.pc ∧ x'.mask = x.mask ∧ x'.only = x.only ∧ t.launch? lid = some l' ∧
        ∀ q ∈ l'.reports, q.seq ≠ seq) ∧
    (r.level = 0 → g.xp = none → ∃ t l', exec (.resolveKill lid seq) s = .next t ∧ t.mem = s.mem ∧
      t.launch? lid = some l' ∧ l'.killed = l.killed + popCount (r.lanes &&& g.occ) ∧ (∀ q ∈ l'.reports, q.seq ≠ seq)) ∧
    ((s.teams.map (·.id)).Nodup → ∃ t l', exec (.resolveEnd lid seq) s = .next t ∧ t.launch? lid = some l' ∧
      l'.killing = true ∧ l'.reports = [] ∧ l'.suspended = false ∧ ∀ y ∈ t.teams, y.launch = lid → y.st = .retired)) ∧
  (∀ (s : State) (lid seq : Nat) (r : Report) (tm : Team) (g : Group) (x : Split), s.pkg = .up → s.report? lid seq true = some r →
    s.splitAt? r.ref = some (tm, g, x) → x.hold = .stop seq →
    exec (.release lid seq) s = .next ((s.dropReport lid seq).passHeld r.ref 1)) ∧
  (∀ (s : State) (c : PreTgt), s.pkg = .up → (s.teams.map (·.id)).Nodup →
    (∃ t, exec (.preempt c) s = .next t ∧ t.mem = s.mem ∧ ∀ tm ∈ s.teams,
      (tm ∉ s.targets c → t.team? tm.id = some tm) ∧
      (tm ∈ s.targets c → ∃ y, t.team? tm.id = some y ∧
        (tm.st = .running → y.st = .notice s.now ∧ y.why = some .system) ∧ (tm.st ≠ .running → y.st = tm.st))) ∧
    (∃ t, exec (.resume c) s = .next t ∧ t.mem = s.mem ∧ ∀ tm ∈ s.teams,
      (tm ∉ s.targets c ∨ tm.why = some .grid → t.team? tm.id = some tm) ∧
      (tm ∈ s.targets c → tm.why ≠ some .grid → ∃ y, t.team? tm.id = some y ∧
        (∀ n, tm.st = .notice n → y.st = .running ∧ y.why = none) ∧
        (tm.st = .held ∨ tm.st = .parked → y.st = tm.st ∧ y.why = some .priority)))) ∧
  (∀ (s : State) (k : Nat) (tm : Team) (l : Launch), s.team? k = some tm → s.launch? tm.launch = some l →
    let ms := (s.mates tm).filter (·.st != .retired)
    ((s.teams.map (·.id)).Nodup → (∀ x ∈ ms, ∃ n, x.st = .notice n ∧
        (x.why = some .grid ∨ n + 1024 ≤ s.now ∨ ∀ g ∈ x.groups, g.live = true → g.yielded = true)) →
      ∃ t, exec (.preemptionNoticeEnd k) s = .next t ∧ t.mem = s.mem ∧ ∀ x ∈ ms, ∃ y, t.team? x.id = some y ∧ y.st = .held ∧
        ∀ grp g, x.group? grp = some g → (∀ e ∈ g.pend, e.split ∈ g.splits.map (·.id)) → ∃ g', y.group? grp = some g' ∧
          g'.pend = [] ∧ ∀ loc, g'.file loc = (g.landSplits (g.splits.map (·.id))).file loc) ∧
    (tm.st = .held → s.drained tm = true → (s.parkTeam k).freeSlots l = 0 → ∃ y,
      exec (.preemptionNoticeEnd k) s = .next (s.parkTeam k) ∧ (s.parkTeam k).team? k = some y ∧
      y = { tm with st := .parked, scrRace := [] }) ∧
    ((tm.st = .held ∧ s.drained tm = true ∧ 1 ≤ (s.parkTeam k).freeSlots l) ∨ (tm.st = .parked ∧ 1 ≤ s.freeSlots l) →
      ∃ t y slot l', exec (.preemptionNoticeEnd k) s = .next t ∧
      t.team? k = some y ∧ y.st = .saved slot ∧ y.groups = tm.groups ∧ y.scratch = tm.scratch ∧ y.tags = tm.tags ∧
      y.bars = tm.bars ∧ slot ∉ l.slots ∧ t.launch? l.id = some l' ∧ l'.slots = l.slots ++ [slot]) ∧
    (∀ (cores : List Nat) (p : Team), (s.teams.map (·.id)).Nodup → (s.mates tm).find? (·.pos = 0) = some p →
      s.resumable p = true →
      let core (x : Team) : Nat := if x.st = .parked then x.core else cores.getD x.pos 0
      l.staggered (ms.map core) = false → s.firstHere (s.startKey l true) (ms.map core) = true →
      (∃ d < 4, (if ∀ x ∈ ms, x.st = .parked then ms.map core else cores) ∈ s.resumePlaces l p [] d) →
      (∀ x, ms.find? (!s.intact l ·) = some x → exec (.teamResume k cores) s = .next (s.badRecord x)) ∧
      ((∀ x ∈ ms, s.intact l x = true) → ∃ t l', exec (.teamResume k cores) s = .next t ∧ t.launch? l.id = some l' ∧
        ∀ x ∈ ms, (∀ slot, x.st = .saved slot → l.slots.Nodup → slot ∉ l'.slots) ∧
          ∃ y, t.team? x.id = some y ∧ y.st = .running ∧ y.why = none ∧ y.core = core x ∧
            ((∀ g ∈ x.groups, g.ops = []) → y.scratch = x.scratch ∧ y.tags = x.tags ∧ y.bars = x.bars) ∧
            ∀ grp g, x.group? grp = some g → ∃ g', y.group? grp = some g' ∧ ∀ loc, g'.file loc = g.file loc)) ∧
    (∀ cores : List Nat, s.mates tm = [tm] → tm.st = .parked → s.mayUse l tm.core = true →
      s.firstHere (s.startKey l true) [tm.core] = true → tm.why = some .priority → tm.pos = 0 → l.st = .running → l.suspended = false →
      l.killing = false → l.staggered [tm.core] = false →
      (tm.recordOk = false → exec (.teamResume k cores) s = .next (s.badRecord tm)) ∧
      (tm.recordOk = true → ∃ t y, exec (.teamResume k cores) s = .next t ∧ t.team? k = some y ∧ y.st = .running ∧
        y.why = none ∧ y.core = tm.core ∧
        ∀ grp g, tm.group? grp = some g → ∃ g', y.group? grp = some g' ∧ ∀ loc, g'.file loc = g.file loc))) ∧
  (∀ (s : State) (ctx : Nat) (lo hi : DWord), s.pkg = .up → ∃ t olds, exec (.invalidate ctx lo hi) s = .next t ∧
    t = { s with invals := t.invals, nextInval := s.nextInval + 1 } ∧
    t.invals = s.invals ++ [⟨s.nextInval, ctx, lo.toNat, hi.toNat, olds⟩] ∧
    ∀ e, e ∈ olds ↔ e ∈ s.tlbAll ∧ e.ctx = ctx ∧ e.base < hi.toNat ∧ lo.toNat < e.base + 2 ^ e.bits) ∧
  (∀ (s : State) (n : Nat) (i : Inval), s.invals.find? (·.id = n) = some i →
    (s.inFlight i = true → exec (.invalidationComplete n) s = .next s) ∧
    (s.inFlight i = false → ∃ t, exec (.invalidationComplete n) s = .next t ∧ t.mem = s.mem ∧
      t.hostOut = s.hostOut ++ [.invalidated n] ∧ t.invals = s.invals.filter (·.id ≠ n) ∧
      (∀ c, ∀ e ∈ (t.core c).tlb ++ (t.core c).btlb.map (·.2), e.ctx = i.ctx →
        i.hi ≤ e.base ∨ e.base + 2 ^ e.bits ≤ i.lo) ∧
      (∀ d, ∀ e ∈ (t.die d).tlb, e.ctx = i.ctx → i.hi ≤ e.base ∨ e.base + 2 ^ e.bits ≤ i.lo) ∧
      ∀ c pa, t.l1Byte c pa = s.l1Byte c pa)) ∧
  (∀ (s : State) (w : Nat), exec (.scrub w) s = .next (if w ∈ s.memBad then s.tell (.eccLeft w) else s)) ∧
  (∀ (s : State) (n : Nat), s.pkg = .up →
    (n < 4096 → (∀ l ∈ s.launches, l.st ≠ .running) → exec (.setPkg n) s = .next { s with pkgNum := n }) ∧
    (4096 ≤ n ∨ (∃ l ∈ s.launches, l.st = .running) → exec (.setPkg n) s = .next (s.tell .refusedCmd)))

/-- Die-to-die links and the paths to peers. Which flit first uses a new key is free (log entry 2), and AES-GCM is
uninterpreted (log entry 5). The refusal of a key is log entry 11, the clock of 65,536 and 2^27 cycles log entries 25 and 10,
spilled packets and the paths after a fallback log entry 50, the store of replies log entry 91. -/
def Obligations.LinksAndPathsKeepTheirPackets : Prop :=
  (∀ (s : State) (i : Nat) (l : Link) (key : BitVec 256), s.links[i]? = some l → l.keys.length = 2 → l.rkeys.length = 2 →
    (s.pkg = .up → l.idleBusy = false → ∃ t l', exec (.installKey (.link i) key) s = .next t ∧ t.links[i]? = some l' ∧
      l' = { l with keys := l'.keys, rkeys := l'.rkeys, fresh := true, stalled := false } ∧
      l'.keys.getD (slotIx (!l.slot)) none = some key ∧ l'.rkeys.getD (slotIx (!l.slot)) none = some key ∧
      l'.keys.getD (slotIx l.slot) none = l.keys.getD (slotIx l.slot) none ∧
      l'.rkeys.getD (slotIx l.slot) none = l.rkeys.getD (slotIx l.slot) none) ∧
    (s.pkg ≠ .up ∨ l.idleBusy = true → exec (.installKey (.link i) key) s = .next (s.tell .refusedCmd)) ∧
    (∃ t l', exec (.linkKeyExhausted i) s = .next t ∧ t.links[i]? = some l' ∧
      l' = { l with stalled := l.stalled || (decide (2 ^ 47 ≤ l.sent) && !l.fresh) }) ∧
    (∃ t l', exec (.oldKeyErase i) s = .next t ∧ t.links[i]? = some l' ∧
      l'.rkeys.getD (slotIx l.slot) none = l.rkeys.getD (slotIx l.slot) none ∧
      (l.fresh = false → l.rslot = l.slot → (∀ e ∈ l.replay, e.2.1 = l.slot) →
        l'.keys.getD (slotIx (!l.slot)) none = none ∧ l'.rkeys.getD (slotIx (!l.slot)) none = none) ∧
      (l.fresh = true ∨ l.rslot ≠ l.slot ∨ (∃ e ∈ l.replay, e.2.1 ≠ l.slot) → l' = l))) ∧
  (∀ (s : State) (n : Nat) (key : BitVec 256), s.pkg = .up → ∃ t, exec (.installKey (.session n) key) s = .next t ∧
    Map.find? t.sessionKeys n = some key ∧ ∀ k, k ≠ n → Map.find? t.sessionKeys k = Map.find? s.sessionKeys k) ∧
  (∀ (s : State) (i vc p : Nat) (l : Link) (q : List Nat) (post : Map (List Nat)), s.links[i]? = some l →
    l.chans = (vc, p :: q) :: post → Map.wf [] l.chans = true → Map.get [] l.spilled vc = [] →
    (l.stalled = false → l.sent < 2 ^ 47 → l.replay.length < 256 → (l.keys.getD (slotIx l.slot) none).isSome →
      (l.fresh = true → (l.keys.getD (slotIx (!l.slot)) none).isSome) →
      ∃ t l' b, exec (.flitSend i) s = .next t ∧ t.mem = s.mem ∧ t.links[i]? = some l' ∧ Map.get [] l'.chans vc = q ∧
        (∀ v, v ≠ vc → Map.get [] l'.chans v = Map.get [] l.chans v) ∧ l'.seq = l.seq + 1 ∧
        l'.replay = l.replay ++ [(l.seq, b, vc, p)] ∧ l'.slot = b ∧ (l.fresh = false → b = l.slot) ∧
        l'.sent = if b = l.slot then l.sent + 1 else 1) ∧
    (l.stalled = true ∨ 256 ≤ l.replay.length → exec (.flitSend i) s = .next s)) ∧
  (∀ (s : State) (i : Nat) (l : Link) (f : Flit) (k : BitVec 256), s.links[i]? = some l →
    (f.crcOk = false ∨ f.seq.toNat ≠ l.expect % 2 ^ 48 → exec (.flitReceive i f) s = .next s) ∧
    (f.crcOk = true → f.seq.toNat = l.expect % 2 ^ 48 → l.rkeys.getD (slotIx f.slot) none = some k →
      let o := Config.aesGcmOpen k (Config.linkNonce f.seq.toNat i f.slot) (flitHead f.seq f.slot f.vc) f.cipher
      (o.2 = f.tag → ∃ t l', exec (.flitReceive i f) s = .next t ∧ t.links[i]? = some l' ∧ l'.expect = l.expect + 1 ∧
        l'.got = l.got ++ [(f.vc, o.1.toNat)] ∧ l'.mism = none ∧ (∀ e, e ∈ l'.replay ↔ e ∈ l.replay ∧ l.expect < e.1)) ∧
      (o.2 ≠ f.tag → l.mism ≠ some l.expect → ∃ t l', exec (.flitReceive i f) s = .next t ∧ t.links[i]? = some l' ∧
        l' = { l with mism := some l.expect }) ∧
      (o.2 ≠ f.tag → l.mism = some l.expect → exec (.flitReceive i f) s = .next s.alarm))) ∧
  (∀ (s : State) (i vc t0 : Nat) (l : Link), s.links[i]? = some l → Map.find? l.since vc = some t0 →
    (s.now < t0 + 65536 → ∃ t, exec (.channelSpill i vc) s = .next t ∧ t.links[i]? = some l) ∧
    (Config.smallChannel vc = true → l.bulkWaits = true →
      ∃ t, exec (.channelSpill i vc) s = .next t ∧ t.links[i]? = some l) ∧
    (t0 + 65536 ≤ s.now → Config.smallChannel vc = false ∨ l.bulkWaits = false → ∃ t l', exec (.channelSpill i vc) s = .next t ∧ t.links[i]? = some l' ∧
      Map.get [] l'.chans vc = [] ∧ Map.get [] l'.spilled vc = Map.get [] l.spilled vc ++ Map.get [] l.chans vc ∧
      ∀ v, v ≠ vc → Map.get [] l'.chans v = Map.get [] l.chans v) ∧
    (l.maySend = false → ∃ t, exec (.channelReinject i vc) s = .next t ∧ t.links[i]? = some l) ∧
    (l.maySend = true → ∃ t l', exec (.channelReinject i vc) s = .next t ∧ t.links[i]? = some l' ∧ Map.get [] l'.spilled vc = [] ∧
      Map.get [] l'.chans vc = Map.get [] l.spilled vc ++ Map.get [] l.chans vc)) ∧
  (∀ (s : State) (p : Nat) (ts : List (Nat × List Nat)), s.pkg = .up → p < 4096 → ts ≠ [] → (ts.map (·.1)).Nodup →
    (∀ e ∈ ts, e.1 < 8 ∧ 1 ≤ e.2.length ∧ e.2.length ≤ 256) →
    ∃ t pt, exec (.setPaths p ts) s = .next t ∧ t.mem = s.mem ∧ t.peers.find? (·.1 = p) = some (p, pt) ∧
      (pt.tier, pt.paths) ∈ ts ∧ (∀ e ∈ ts, pt.tier ≤ e.1) ∧
      pt.down = ((s.peers.find? (·.1 = p)).map (·.2.down)).getD false ∧ pt.removed = [] ∧
      pt.events = ((s.peers.find? (·.1 = p)).map (·.2.events)).getD 0) ∧
  (∀ (s : State) (p path : Nat) (pt : PeerTab), s.peers.find? (·.1 = p) = some (p, pt) →
    (∃ t u, exec (.pathTimeout p path) s = .next t ∧ t.peers.find? (·.1 = p) = some (p, u) ∧
      (path ∉ pt.paths → u = pt) ∧
      (path ∈ pt.paths → pt.paths.erase path ≠ [] → u = { pt with
        paths := pt.paths.erase path, removed := pt.removed ++ [path], events := pt.events + 1 }) ∧
      (∀ e pre post, pt.paths = [path] → pt.tiers = pre ++ e :: post → (∀ y ∈ pre, y.1 ≤ pt.tier) → pt.tier < e.1 →
        u.tier = e.1 ∧ u.paths = e.2 ∧ u.events = pt.events + 2)) ∧
    (∃ t u, exec (.probeSuccess p path) s = .next t ∧ t.peers.find? (·.1 = p) = some (p, u) ∧ u.down = false ∧
      (path ∈ pt.removed → pt.paths.length < 256 → path ∈ u.paths ∧ u.removed = pt.removed.erase path ∧ u.events = pt.events + 1) ∧
      (path ∉ pt.removed ∨ 256 ≤ pt.paths.length → u = { pt with down := false }))) ∧
  (∀ (s : State) (k : Nat) (p : Packet), s.store.find? (fun q => q.id == k && q.peer != s.pkgNum) = some p →
    (s.unanswered p = true → ∃ t pa, exec (.retransmitTimeout k) s = .next t ∧
      t = { s with store := t.store, peers := t.peers } ∧ (p.path = none → pa = none ∧ t.peers = s.peers) ∧
      (p.path ≠ none → pa = (s.sprayTo p.peer).1) ∧ t.store = s.store.map fun q =>
        if q.id = k then { q with tries := q.tries + 1, sentAt := s.now, path := pa } else q) ∧
    (s.unanswered p = false → exec (.retransmitTimeout k) s =
      .next (if p.msg = .request then { s with store := s.store.filter (·.id ≠ k) } else s))) ∧
  (∀ (p : Packet) (s : State), p.msg ≠ .request → s.unanswered p = !p.arrived) ∧
  (∀ (s : State) (k : Nat), s.store.find? (fun q => q.id == k && q.peer != s.pkgNum) = none → (∃ q ∈ s.replies, q.id = k) →
    ∃ t pa, exec (.retransmitTimeout k) s = .next t ∧ t = { s with replies := t.replies, peers := t.peers } ∧
      t.replies = s.replies.map fun q => if q.id = k then { q with tries := q.tries + 1, sentAt := s.now, path := pa } else q) ∧
  (∀ (s : State) (p : Nat),
    (s.mayLose p = true ↔
      (∃ q ∈ s.store, q.peer = p ∧ s.unanswered q = true ∧ 32 ≤ q.tries ∧ q.firstAt + 2 ^ 27 ≤ s.now) ∨
      ∃ q ∈ s.replies, q.peer = p ∧ 32 ≤ q.tries ∧ q.firstAt + 2 ^ 27 ≤ s.now) ∧
    (s.mayLose p = false ∨ p = s.pkgNum → exec (.peerUnreachable p) s = .next s) ∧
    (s.mayLose p = true → p ≠ s.pkgNum → ∃ t, exec (.peerUnreachable p) s = .next t ∧ t.mem = s.mem ∧
      t.store = s.store.filter (·.peer ≠ p) ∧ t.replies = s.replies.filter (·.peer ≠ p) ∧ t.reachable p = false ∧
      ∀ k, ∀ tm g q, s.store = [k] → k.peer = p → k.msg ≠ .request → k.xfer < 32 → s.op? k.op = some (tm, g, q) → g.live = true →
        (∀ n ts, q.kind ≠ .rrd n ts) → ∃ g', t.group? k.op.team k.op.grp = some g' ∧
        ∃ e ∈ g'.efaults, e.cause = .netfault ∧ e.op.id = q.id ∧ e.lanes.getLsbD k.xfer = true))

/-- The management side. The rounding of shares is log entry 6, the refusals of TDISP log entry 7, what a package reset
keeps log entry 12, the one step of a die reset log entry 13, what a retired team left in flight log entry 58, the directions
of the links log entries 50 and 79, and the cryptography is uninterpreted (log entry 5). -/
def Obligations.ManagementAndSecurityFollowTheirStates : Prop :=
  (∀ s : State,
    (s.pkg ≠ .off → exec .bringUp s = .next s) ∧
    let fw := s.manifest.fwKeys.any fun k => Config.ed448Verify k (Config.shake256 s.image) s.imageSig
    let man := Config.ed448Verify s.manKey (Config.shake256 (Config.manifestBytes s.manifest)) s.manSig
    let s1 := { s with fwOk := fw, manifestOk := man }
    (s.pkg = .off → ∃ t, exec .bringUp s = .next t ∧
      if fw = true ∧ man = true ∧ s.badStep = none then
        t = { s1 with pkg := .up, free := t.free, links := t.links } ∧ t.links.length = 16 ∧
        ∀ (i : Nat) (l : Link), t.links[i]? = some l → ∃ e k, linkEnds[i]? = some e ∧ l = Link.start e k
      else t = { s1 with pkg := .recovery })) ∧
  (∀ (s : State) (n : Nat), s.pkg = .up → 1 ≤ n → n ≤ 68 →
    let x := (s.tdi n).st
    let ans (t : State) (a : TdispAns) : State := t.tell (.tdisp n a)
    exec (.getTdispVersion n) s = .next (ans s .version) ∧
    exec (.getTdispCapabilities n) s = .next (ans s .capabilities) ∧
    exec (.getDeviceInterfaceState n) s = .next (ans s (.state x)) ∧
    exec (.getDeviceInterfaceReport n) s = .next (ans s (if x = .locked ∨ x = .run then .report else .error .invalidState)) ∧
    (∃ t, exec (.lockInterfaceRequest n) s = .next t ∧ (t.tdi n).st = (if x = .unlocked then .locked else x) ∧
      t.hostOut = s.hostOut ++ [.tdisp n (if x = .unlocked then .locked else .error .invalidState)]) ∧
    (∃ t, exec (.startInterfaceRequest n) s = .next t ∧ (t.tdi n).st = (if x = .locked then .run else x) ∧
      t.hostOut = s.hostOut ++ [.tdisp n (if x = .locked then .started else .error .invalidState)]) ∧
    (∃ t, exec (.tdiConfigChange n) s = .next t ∧ (t.tdi n).keys = (s.tdi n).keys ∧
      (t.tdi n).st = (if x = .locked ∨ x = .run then .error else x) ∧ ∀ k, k ≠ n → t.tdi k = s.tdi k) ∧
    s.tdispOther n = ans s (.error .unsupportedRequest) ∧
    s.dieOfPf n = s.manifest.pfMap.getD (n - 1) 0 ∧
    (n ≤ 4 → exec (.stopInterfaceRequest n) s =
        .next (((s.modTdi n fun y => { y with keys := [] }).resetDie (s.dieOfPf n)).stopped n) ∧
      exec (.functionLevelReset n) s = .next ((s.resetDie (s.dieOfPf n)).modTdi n fun _ => { st := .error, keys := [] })) ∧
    (n ≤ 4 ∨ s.launchesOf (n - 4) = [] → ∃ t, exec (.stopInterfaceRequest n) s = .next t ∧
      t.tdi n = { st := .unlocked, keys := [] } ∧
      HostMsg.tdisp n .stopped ∈ t.hostOut ∧ ∀ k, k ≠ n → t.tdi k = s.tdi k) ∧
    (4 < n → s.launchesOf (n - 4) ≠ [] → ∃ t, exec (.stopInterfaceRequest n) s = .next t ∧ t.tdi n = { st := x, keys := [] } ∧
      n ∈ t.stopping ∧ ∀ k, k ≠ n → t.tdi k = s.tdi k) ∧
    (n ∈ s.stopping → s.launchesOf (n - 4) = [] → ∃ t, t = s.stopAnswer n ∧ t.tdi n = { st := .unlocked, keys := [] } ∧
      t.hostOut = s.hostOut ++ [.tdisp n .stopped] ∧ n ∉ t.stopping) ∧
    (n ≤ 4 → ∃ t, exec (.functionLevelReset n) s = .next t ∧ t.tdi n = { st := .error, keys := [] } ∧
      ∀ k, k ≠ n → t.tdi k = s.tdi k)) ∧
  (∀ (s : State) (d : Nat), s.cacheOk → d < 4 → (s.teams.map (·.id)).Nodup →
    (∀ tm ∈ s.teams, (s.launch? tm.launch).isSome) →
    let t := s.resetDie d
    let pol (l : Launch) : Action := l.desc.policy.getD 4 .kparent
    let hit (tm : Team) : Bool := dieOf tm.core == d && (tm.onCore || tm.st == .retired && tm.pending)
    (t.die d).tlb = [] ∧ (t.die d).fifo = [] ∧
    ((∀ tm ∈ s.teams, hit tm = false) → t.die d = Die.reset ∧
      ∀ k i, i < 64 → (lineOf (s.die d).dc k).dirty.getLsbD i = true → t.homeByte (64 * k + i) = s.dieByte d (64 * k + i)) ∧
    (∀ c, c < 384 → dieOf c = d → t.core c = { Core.reset with resetAt := s.now }) ∧
    (∀ tm ∈ s.teams, hit tm = true →
      ∃ y, t.team? tm.id = some y ∧ y.st = .retired ∧ ∀ g ∈ y.groups, g.live = false ∧ ∀ o ∈ g.ops, o.done = true) ∧
    (∀ tm ∈ s.teams, hit tm = false → ((∃ y ∈ s.teams, hit y = true ∧ y.launch = tm.launch) →
      ∀ l, s.launch? tm.launch = some l → pol l = .ign) → t.team? tm.id = some tm) ∧
    (∀ tm l, s.teams.filter hit = [tm] → s.launch? tm.launch = some l →
      ∃ l', t.launch? l.id = some l' ∧ l'.lost = l.lost + (s.heldItems l tm).length ∧ l'.exited = l.exited ∧
        HostMsg.lostItems l.id (s.heldItems l tm).length ∈ t.hostOut ∧
        (pol l = .kself → l'.killing = true ∧ ∀ y ∈ t.teams, y.launch = l.id → y.st = .retired) ∧
        (pol l ≠ .ign → pol l ≠ .kself → l'.suspended = true ∧ ∀ y ∈ t.teams, y.launch = l.id → y.st ≠ .running))) ∧
  (∀ (s : State) (v : Nat), s.pkg = .up → 1 ≤ v → v ≤ 64 → (s.launches.map (·.id)).Nodup →
    (s.teams.map (·.id)).Nodup →
    ∃ t, exec (.vfFunctionLevelReset v) s = .next t ∧ ∀ l ∈ s.launches, ∀ c, s.ctx? l.ctx = some c →
      (c.vf = v → l.st = .running → ∃ l', t.launch? l.id = some l' ∧ l'.killing = true) ∧
      (c.vf ≠ v → t.launch? l.id = some l)) ∧
  (∀ (s : State) (e : AlarmEv), ∃ t, exec (.securityAlarm e) s = .next t ∧ t.mem = s.mem ∧ t.pkg = .recovery ∧
    t.sessionKeys = [] ∧ t.store = [] ∧ t.replies = [] ∧ (∀ l ∈ t.links, l.keys = [none, none] ∧ l.rkeys = [none, none]) ∧ t.teams = [] ∧
    t.launches = [] ∧ (∀ n, 1 ≤ n → n ≤ 68 → t.tdi n = { st := .error, keys := [] }) ∧
    t.identity = (if s.manifest.eraseId then none else s.identity) ∧ t.hostOut = s.hostOut ++ [.alarm true, .alarm false]) ∧
  (∀ (s : State) (img : Signed (List Byte)) (m : Signed Manifest), s.pkg ≠ .off →
    (exec (.firmwareUpdate img) s = if ∃ k ∈ s.manifest.fwKeys, Config.ed448Verify k (Config.shake256 img.body) img.sig = true
      then .next ({ s with image := img.body, imageSig := img.sig }.tell .updated) else .next (s.tell .updateRefused)) ∧
    (exec (.manifestReplace m) s =
      if Config.ed448Verify s.manifest.signKey (Config.shake256 (Config.manifestBytes m.body)) m.sig = true
      then .next ({ s with nextManifest := some m }.tell .updated) else .next (s.tell .updateRefused))) ∧
  (∀ s : State, ∃ t, exec .packageReset s = .next t ∧
    t = { State.reset with
      free := s.free, agenda := s.agenda, mem := t.mem, image := s.image, imageSig := s.imageSig
      manifest := match s.nextManifest with | some m => m.body | none => s.manifest
      manSig := match s.nextManifest with | some m => m.sig | none => s.manSig
      manKey := match s.nextManifest with | some _ => s.manifest.signKey | none => s.manKey
      identity := s.identity, hostOut := s.hostOut, outbox := s.outbox } ∧
    (∀ pa, 2 ^ 40 ≤ pa → pa < 2 ^ 41 → t.mem.get 0 pa = s.mem.get 0 pa) ∧ ∀ pa, pa < 2 ^ 40 → t.mem.get 0 pa = 0) ∧
  (∀ s : State, s.pkg = .up → s.demand.length = 16 →
    ∃ t, exec .gafferGrant s = .next t ∧ t = { s with grants := t.grants, past := t.past } ∧ t.grants.length = 16 ∧
      (((List.range 4).map fun i => s.demand.getD (12 + i) 0).sum ≤ s.cap →
        t.grants.sum ≤ min s.manifest.peak 4000 ∧ (t.grants.sum = 0 ∨ t.grants.sum +
          (s.past.take (max 1 Config.gafferWindow - 1)).sum ≤ min s.manifest.sustained 3600 * max 1 Config.gafferWindow)) ∧
      (∀ i, 12 ≤ i → i < 16 → t.grants[i]? = s.demand[i]?) ∧ (∀ i, t.grants.getD i 0 ≤ s.demand.getD i 0) ∧
      ((List.range 12).map fun i => t.grants.getD i 0).sum ≤ s.budget ∧
      (((List.range 12).map fun i => s.demand.getD i 0).sum ≤ s.budget → t.grants = s.demand)) ∧
  (∀ (s : State) (e : PowerEv), s.pkg = .up →
    ((e = .powerGoodDrop ∨ ∃ c, e = .inlet c ∧ s.manifest.inletLimit < c) → ∃ t, exec (.powerEvent e) s = .next t ∧
      t.hostOut = s.hostOut ++ [.powerLow] ∧ t.grants.length = s.grants.length ∧
      (∀ i, i < 12 → t.grants.getD i 0 = min (s.grants.getD i 0) (Config.islandPeak i / 8)) ∧
      ∀ i, 12 ≤ i → t.grants[i]? = s.grants[i]?) ∧
    (∀ c, e = .inlet c → c ≤ s.manifest.inletLimit → exec (.powerEvent e) s = .next s)) ∧
  (∀ (s : State) (q : List Byte), s.pkg = .up →
    let body := Config.spdmAnswer q [Config.shake256 s.image, Config.shake256 (Config.manifestBytes s.manifest)]
    exec (.spdmRequest q) s = .next (s.tell (.spdm (match s.identity with
      | none => body
      | some k => body ++ natLe 114 (Config.ed448Sign k (Config.shake256 body)).toNat))))

/-- Taking a fault, and the faults of fetch and decode. -/
def Obligations.FaultsAreRecordedThenContained : Prop :=
  (∀ (pol : List Action) (f : FInfo),
    let passes (k : Nat) : Prop := pol.getD k .kparent = .kparent ∨ (pol.getD k .kparent = .retry ∧ f.cause.retryable = false) ∨
      (pol.getD k .kparent = .ign ∧ f.fetch = true)
    (∀ lv a, absorb pol f = some (lv, a) ↔
      f.level ≤ lv ∧ lv < 5 ∧ pol.getD lv .kparent = a ∧ ¬ passes lv ∧ ∀ k, f.level ≤ k → k < lv → passes k) ∧
    (absorb pol f = none ↔ ∀ k, f.level ≤ k → k < 5 → passes k)) ∧
  (∀ (s : State) (r : SRef) (f : FInfo) (tm : Team) (g : Group) (x : Split) (l : Launch), s.team? r.team = some tm →
    tm.group? r.grp = some g → g.split? r.split = some x → s.launch? tm.launch = some l → g.xp = none →
    let t := (s.contain r f).1
    let d := (s.contain r f).2
    let a := absorb l.desc.policy f
    ∃ g' l', t.group? r.team r.grp = some g' ∧ t.launch? tm.launch = some l' ∧ l'.seq = l.seq + 1 ∧
      (f.cause.code < 256 → f.level < 5 → (pageList f.pages).length ≤ 32 →
        (g'.frec.getD 0 0).toNat % 2 ^ 8 = f.cause.code ∧ (g'.frec.getD 0 0).toNat / 2 ^ 8 % 8 = f.level ∧
        (g'.frec.getD 0 0).toNat / 2 ^ 16 % 8 = (a.map (·.1)).getD 7 ∧
        (g'.frec.getD 0 0).toNat / 2 ^ 19 % 4 = ((a.map (·.2.code)).getD 3) ∧
        (g'.frec.getD 0 0).toNat / 2 ^ 32 = (l.seq + 1) % 2 ^ 32) ∧
      g'.frec.length = 8 ∧ g'.frec.getD 1 0 = f.pc ∧
      (g'.frec.getD 2 0).toNat = f.split.toNat * 2 ^ 32 + f.lanes.toNat ∧ g'.frec.getD 4 0 = f.addr ∧
      g'.frec.getD 7 0 = BitVec.ofNat 64 (g.grp * 2 ^ 32 + tm.num) ∧
      (∀ lv, a = some (lv, .ign) → d = .ign lv ∧ l'.nfault = l.nfault + 1 ∧ l'.reports = l.reports ∧
        l'.killed = l.killed ∧ ∃ y, g'.split? r.split = some y ∧ y = x) ∧
      (∀ lv, a = some (lv, .retry) → d = .held (lv != 0) ∧ l'.nfault = l.nfault ∧ l'.killed = l.killed ∧
        l'.suspended = l.suspended ∧ HostMsg.delivered l.id (l.seq + 1) (logEntry g'.frec f.pages
          (if f.cause = .converge then g.convergeList else [])) ∈ t.hostOut ∧
        (∃ y, g'.split? r.split = some y ∧ y = { x with hold := .fault (l.seq + 1) }) ∧
        ∃ p, l'.reports = l.reports ++ [p] ∧ p.seq = l.seq + 1 ∧ p.ref = r ∧ p.level = f.level ∧ p.lanes = f.lanes ∧
          p.grid = false) ∧
      (a = none → d = .held (f.level != 0) ∧ l'.nfault = l.nfault + 1 ∧ l'.suspended = true ∧
        HostMsg.suspended l.id (l.seq + 1) ∈ t.hostOut ∧
        (∃ y, g'.split? r.split = some y ∧ y = { x with hold := .fault (l.seq + 1) }) ∧
        (∃ p, l'.reports = l.reports ++ [p] ∧ p.seq = l.seq + 1 ∧ p.ref = r ∧ p.grid = true) ∧
        ∀ y ∈ t.teams, y.launch = tm.launch → y.st ≠ .running ∧ (∀ n, y.st = .notice n → y.why = some .grid)) ∧
      (a = some (0, .kself) → d = .killed ∧ l'.nfault = l.nfault + 1 ∧
        l'.killed = l.killed + popCount (f.lanes &&& g.occ) ∧
        (g.occ &&& ~~~f.lanes ≠ 0 → g'.live = g.live ∧ g'.occ = g.occ &&& ~~~f.lanes)) ∧
      (a = some (1, .kself) → g.live = true → d = .killed ∧ g'.live = false ∧ g'.occ = 0 ∧
        l.killed + popCount g.occ ≤ l'.killed) ∧
      (a = some (4, .kself) → tm.st ≠ .retired → d = .killed ∧ l'.killing = true ∧ g'.live = false)) ∧
  (∀ (x : Iss) (h : Hdr) (c : Cause) (ad : DWord) (s : State) (l : Launch) (lv : Nat), x.inPlace s → x.launch s = some l →
    (∀ k, max 1 c.level ≤ k → k < lv → l.desc.policy.getD k .kparent = .kparent) → max 1 c.level ≤ lv → lv < 5 →
    l.desc.policy.getD lv .kparent = .ign →
    ∃ t, x.groupFault h c ad s = x.pass h false t ∧ t.now = s.now ∧
      ∃ r, t.hostOut = s.hostOut ++ r ∧ ∀ m ∈ r, ∃ w ∈ s.memBad, m = .eccLeft w) ∧
  (∀ (s : State) (r : SRef) (rest : List Choice) (x : Iss),
    let s0 := { s with agenda := rest }
    s.agenda = .issue r :: rest → s0.at? r = some x → s0.canIssue x = true → s0.chosen x = true →
    (noncanon x.sp.pc.toNat = true → s0.fetch x = .fault (x.fetchFault .noncanon [])) ∧
    (noncanon x.sp.pc.toNat = false → x.sp.pc.toNat % 4 ≠ 0 → s0.fetch x = .fault (x.fetchFault .misalign [])) ∧
    (∀ f, s0.fetch x = .fault f → f.fetch = true ∧ f.pc = x.sp.pc ∧
      step s = .next { (s0.contain r f).1 with now := (s0.contain r f).1.now + 1 }) ∧
    (∀ bs, s0.fetch x = .word bs → trigWord (wordAt bs 0) = false →
      let s1 := { ((s0.fetchFill x bs.length).modSplit r fun y => { y with words := s0.unitWords x bs }) with sel := some r }
      let takes (c : Cause) : Prop := ∃ t, t = x.groupFault (hdrOf (wordAt bs 0)) c 0 s1 ∧
        step s = .next { t with now := t.now + 1 }
      (decodeBytes bs = .illop → takes .illop) ∧ (decodeBytes bs = .illform → takes .illform)))

/-- Reset and starts. What unlisted memory reads as, the contents of flash, the other values the spec does not state, the start
of a link and the free contents of scratch are the model's (log entries 16, 8, 59, 50 and 2). -/
def Obligations.ResetAndStartsHoldTheirValues : Prop :=
  let z := State.reset
  (z.pkg = .off ∧ z.ctxs = [] ∧ z.launches = [] ∧ z.teams = [] ∧ z.clusters = [] ∧ z.queues = [] ∧ z.invals = [] ∧
    z.store = [] ∧ z.replies = [] ∧ z.rounds = [] ∧ z.links = linkEnds.map Link.idle ∧ z.links.length = 16 ∧
    (∀ l ∈ z.links, l.keys = [none, none] ∧ l.rkeys = [none, none]) ∧ z.sessionKeys = [] ∧ z.mem = [] ∧ Memory.wf z.mem = true ∧ z.cacheOk ∧
    (∀ c, z.core c = Core.reset) ∧ (∀ d, z.die d = Die.reset) ∧ (∀ n, z.tdi n = { st := .unlocked, keys := [] }) ∧
    ∃ t, exec .bringUp z = .next t ∧
      t.pkg = if z.imageOk z.image z.imageSig && z.manifestGood then .up else .recovery) ∧
  (∀ (n now : Nat) (entry : DWord),
    let g := Group.start n entry now
    (∀ loc, loc ≠ .k 0 → g.file loc = 0) ∧ g.occ = 0 ∧ (∀ l, g.ageOf l = 0) ∧ g.live = true ∧ g.oneSplit = true ∧
    (∀ x ∈ g.splits, x.mask = 0 ∧ x.pc = entry ∧ x.hold = .run ∧ x.rpc = none) ∧ g.gctl = 0 ∧
    (∀ k, g.frec.getD k 0 = 0) ∧ g.region = 0 ∧ (∀ k, g.ctr k = 0) ∧ (∀ a i j, g.tile a i j = 0) ∧ g.tflags = [] ∧
    g.ops = [] ∧ g.xp = none) ∧
  (∀ (id launch num clus pos core now : Nat) (k : Kernel) (hs : Map Byte),
    let t := Team.start id launch num clus pos core k hs now
    (∀ b, t.bar b = { arrb := 0, expb := 0, phase := false, arrm := 0, expm := 0 }) ∧
    (∀ e, Map.get none t.tags e = none) ∧ (∀ a, t.scrByte a = Config.freeScratch id a) ∧ t.groups.length = k.team ∧
    t.cur = none ∧ t.nxt = none ∧ t.st = .running) ∧
  (∀ (e : LinkNode × LinkNode) (key : BitVec 256), let l := Link.start e key
    l.src = e.1 ∧ l.dst = e.2 ∧ l.keys = [some key, none] ∧ l.rkeys = [some key, none] ∧ l.slot = false ∧ l.seq = 0 ∧
    l.replay = [])

/-- Every step keeps memory canonical. The form is the model's (log entry 16). -/
def Obligations.MemoryStaysCanonical : Prop :=
  ∀ s t : State, Memory.wf s.mem = true → step s = .next t → Memory.wf t.mem = true

/-- Every step keeps the caches consistent. -/
def Obligations.CachesStayConsistent : Prop :=
  ∀ s t : State, s.cacheOk → step s = .next t → t.cacheOk

/-- Machine instructions change no state of the management side or the fabric. -/
def Obligations.ProgramsLeaveSystemStateAlone : Prop :=
  ∀ (i : Instr) (s t : State), (i.head.isSome ∨ ∃ w, i = .reservedOpcode w) → exec i s = .next t →
    t.ctxs = s.ctxs ∧ t.pkgNum = s.pkgNum ∧ t.peers = s.peers ∧ t.links = s.links ∧
    (∃ r, t.store = s.store ++ r ∧ ∀ p ∈ r, p.msg = .request) ∧ t.coreVf = s.coreVf ∧ t.queueVf = s.queueVf ∧ t.ring = s.ring ∧
    t.wins = s.wins ∧ t.stopping = s.stopping ∧ t.past = s.past ∧ t.image = s.image ∧ t.manKey = s.manKey ∧
    t.replies = s.replies ∧ t.ports = s.ports ∧ t.rounds = s.rounds ∧ t.sigs = s.sigs ∧ t.sessionKeys = s.sessionKeys ∧ t.tdis = s.tdis ∧ t.manifest = s.manifest ∧
    t.nextManifest = s.nextManifest ∧ t.fwOk = s.fwOk ∧ t.manifestOk = s.manifestOk ∧ t.identity = s.identity ∧
    t.demand = s.demand ∧ t.grants = s.grants ∧ t.invals = s.invals ∧ t.pkg = s.pkg ∧ t.agenda = s.agenda ∧
    t.now = s.now ∧ t.sel = s.sel ∧ t.nextLaunch = s.nextLaunch ∧ t.nextTeamId = s.nextTeamId
end

