-- ==== Sys2Proof/Laws/Map.lean ====
section
/-! SUPPORT. Laws of the sparse maps: what a key reads as after a change, and that every change keeps the canonical form. -/

namespace Sys2Proof.Machine

variable {β : Type}

/-! ## Reading after a change -/

@[simp] theorem Map.get_nil (d : β) (i : Nat) : Map.get d [] i = d := rfl

@[simp] theorem Map.get_put (d : β) (m : Map β) (i j : Nat) (x : β) :
    Map.get d (Map.put m i x) j = if j = i then x else Map.get d m j := by
  induction m with
  | nil => simp [Map.put, Map.get]
  | cons p m ih =>
    obtain ⟨k, v⟩ := p
    simp only [Map.put]
    split
    · subst k; simp only [Map.get]; split <;> simp_all
    · split
      · simp only [Map.get]
      · simp only [Map.get, ih]; split <;> split <;> simp_all

@[simp] theorem Map.get_del (d : β) (m : Map β) (i j : Nat) :
    Map.get d (Map.del m i) j = if j = i then d else Map.get d m j := by
  induction m with
  | nil => simp [Map.del]
  | cons p m ih =>
    obtain ⟨k, v⟩ := p
    simp only [Map.del, List.filter_cons] at ih ⊢
    by_cases e : k = i
    · subst k; simp only [bne_self_eq_false, Bool.false_eq_true, if_false, ih, Map.get]; split <;> rfl
    · simp only [bne_iff_ne, ne_eq, e, not_false_eq_true, if_true, Map.get, ih]; split <;> split <;> simp_all

@[simp] theorem Map.get_set [DecidableEq β] (d : β) (m : Map β) (i j : Nat) (x : β) :
    Map.get d (Map.set d m i x) j = if j = i then x else Map.get d m j := by
  unfold Map.set; split <;> simp_all

@[simp] theorem Map.find?_put (m : Map β) (i j : Nat) (x : β) :
    Map.find? (Map.put m i x) j = if j = i then some x else Map.find? m j := by
  induction m with
  | nil => simp [Map.put, Map.find?]
  | cons p m ih =>
    obtain ⟨k, v⟩ := p
    simp only [Map.put]
    split
    · subst k; simp only [Map.find?]; split <;> simp_all
    · split
      · simp only [Map.find?]
      · simp only [Map.find?, ih]; split <;> split <;> simp_all

@[simp] theorem Map.find?_del (m : Map β) (i j : Nat) :
    Map.find? (Map.del m i) j = if j = i then none else Map.find? m j := by
  induction m with
  | nil => simp [Map.del, Map.find?]
  | cons p m ih =>
    obtain ⟨k, v⟩ := p
    simp only [Map.del, List.filter_cons] at ih ⊢
    by_cases e : k = i
    · subst k; simp only [bne_self_eq_false, Bool.false_eq_true, if_false, ih, Map.find?]; split <;> rfl
    · simp only [bne_iff_ne, ne_eq, e, not_false_eq_true, if_true, Map.find?, ih]; split <;> split <;> simp_all

/-- `List.find?` on the key finds what `Map.find?` finds. -/
theorem Map.find?_eq_list (m : Map β) (i : Nat) : List.find? (fun p : Nat × β => decide (p.1 = i)) m = (Map.find? m i).map fun v => (i, v) := by
  induction m with
  | nil => rfl
  | cons p m ih =>
    obtain ⟨k, v⟩ := p
    simp only [List.find?_cons, Map.find?]
    by_cases e : i = k
    · subst i; simp
    · simp [e, Ne.symm e, ih]

/-! ## The canonical form -/

/-- The canonical form as two conditions. -/
theorem Map.wf_iff [DecidableEq β] (d : β) (m : Map β) :
    Map.wf d m = true ↔ m.Pairwise (fun p q => p.1 < q.1) ∧ ∀ p ∈ m, p.2 ≠ d := by
  induction m with
  | nil => simp [Map.wf]
  | cons p m ih =>
    obtain ⟨k, v⟩ := p
    cases m with
    | nil => simp [Map.wf]
    | cons q m =>
      obtain ⟨k', v'⟩ := q
      simp only [Map.wf, Bool.and_eq_true, decide_eq_true_eq, bne_iff_ne, ih, List.pairwise_cons, List.forall_mem_cons]
      constructor
      · rintro ⟨⟨a, b⟩, ⟨c, e⟩, f, g⟩
        exact ⟨⟨⟨b, fun q hq => b.trans (c q hq)⟩, c, e⟩, a, f, g⟩
      · rintro ⟨⟨⟨b, -⟩, c, e⟩, a, f, g⟩
        exact ⟨⟨a, b⟩, ⟨c, e⟩, f, g⟩

@[simp] theorem Map.wf_nil [DecidableEq β] (d : β) : Map.wf d [] = true := rfl

/-- Leaving entries out keeps the form. -/
theorem Map.wf_filter [DecidableEq β] {d : β} {m : Map β} (p : Nat × β → Bool) (h : Map.wf d m = true) :
    Map.wf d (m.filter p) = true := by
  rw [Map.wf_iff] at h ⊢
  exact ⟨h.1.filter p, fun q hq => h.2 q (List.mem_of_mem_filter hq)⟩

theorem Map.wf_del [DecidableEq β] {d : β} {m : Map β} (i : Nat) (h : Map.wf d m = true) : Map.wf d (Map.del m i) = true :=
  Map.wf_filter _ h

theorem Map.wf_range [DecidableEq β] {d : β} {m : Map β} (lo hi : Nat) (h : Map.wf d m = true) :
    Map.wf d (Map.range m lo hi) = true := Map.wf_filter _ h

theorem Map.wf_dropRange [DecidableEq β] {d : β} {m : Map β} (lo hi : Nat) (h : Map.wf d m = true) :
    Map.wf d (Map.dropRange m lo hi) = true := Map.wf_filter _ h

/-- The entries of a changed map. -/
theorem Map.mem_put {m : Map β} {i : Nat} {x : β} {p : Nat × β} (h : p ∈ Map.put m i x) : p = (i, x) ∨ p ∈ m := by
  induction m with
  | nil => simpa [Map.put] using h
  | cons q m ih =>
    obtain ⟨k, v⟩ := q
    simp only [Map.put] at h
    split at h
    · rename_i e; subst e; simp only [List.mem_cons] at h ⊢; tauto
    · split at h
      · simp only [List.mem_cons] at h ⊢; tauto
      · simp only [List.mem_cons] at h ⊢
        rcases h with h | h
        · exact .inr (.inl h)
        · rcases ih h with e | e
          · exact .inl e
          · exact .inr (.inr e)

theorem Map.wf_put [DecidableEq β] {d : β} {m : Map β} (i : Nat) {x : β} (hx : x ≠ d) (h : Map.wf d m = true) :
    Map.wf d (Map.put m i x) = true := by
  rw [Map.wf_iff] at h ⊢
  refine ⟨?_, fun p hp => ?_⟩
  · induction m with
    | nil => simp [Map.put]
    | cons q m ih =>
      obtain ⟨k, v⟩ := q
      obtain ⟨a, b⟩ := h
      simp only [List.pairwise_cons, List.forall_mem_cons] at a b
      simp only [Map.put]
      split
      · rename_i e; subst e; exact List.pairwise_cons.mpr a
      · split
        · rename_i lt
          refine List.pairwise_cons.mpr ⟨?_, List.pairwise_cons.mpr a⟩
          intro p hp
          rcases List.mem_cons.mp hp with rfl | hp
          · exact lt
          · exact lt.trans (a.1 p hp)
        · rename_i ne ge
          refine List.pairwise_cons.mpr ⟨?_, ih ⟨a.2, b.2⟩⟩
          intro p hp
          rcases Map.mem_put hp with rfl | hp
          · exact Nat.lt_of_le_of_ne (Nat.le_of_not_lt ge) (fun e => ne e.symm)
          · exact a.1 p hp
  · rcases Map.mem_put hp with rfl | hp
    · exact hx
    · exact h.2 p hp

theorem Map.wf_set [DecidableEq β] {d : β} {m : Map β} (i : Nat) (x : β) (h : Map.wf d m = true) :
    Map.wf d (Map.set d m i x) = true := by
  unfold Map.set
  split
  · exact Map.wf_del i h
  · exact Map.wf_put i ‹_› h

theorem Map.wf_sets [DecidableEq β] {d : β} {m : Map β} (l : List (Nat × β)) (h : Map.wf d m = true) :
    Map.wf d (Map.sets d m l) = true := by
  induction l generalizing m with
  | nil => exact h
  | cons p l ih => exact ih (Map.wf_set p.1 p.2 h)

/-- Replacing consecutive keys keeps the form. -/
theorem Map.wf_splice [DecidableEq β] {d : β} {m : Map β} (k : Nat) (vs : List β) (h : Map.wf d m = true) :
    Map.wf d (Map.splice d m k vs) = true := by
  rw [Map.wf_iff] at h ⊢
  have mid : ∀ p ∈ vs.zipIdx.filterMap (fun p => if p.1 = d then none else some (k + p.2, p.1)),
      k ≤ p.1 ∧ p.1 < k + vs.length ∧ p.2 ≠ d := by
    intro p hp
    obtain ⟨q, hq, e⟩ := List.mem_filterMap.mp hp
    split at e
    · cases e
    · cases e
      have := List.mem_zipIdx hq
      refine ⟨by simp, ?_, ‹_›⟩
      simp only; omega
  refine ⟨?_, ?_⟩
  · unfold Map.splice
    rw [List.pairwise_append, List.pairwise_append]
    refine ⟨⟨h.1.filter _, ?_, ?_⟩, h.1.filter _, ?_⟩
    · rw [List.pairwise_filterMap]
      have z : vs.zipIdx.Pairwise fun a b => a.2 < b.2 := by
        have := List.pairwise_map (f := Prod.snd (α := β)) (R := (· < ·)) (l := vs.zipIdx)
        rw [← this, List.zipIdx_map_snd]; exact List.pairwise_lt_range'
      refine z.imp ?_
      intro a b lt x hx y hy
      split at hx <;> split at hy <;> simp_all
      rw [← hx, ← hy]; simp only; omega
    · intro p hp q hq
      have := (List.mem_filter.mp hp).2
      simp only [decide_eq_true_eq] at this
      exact Nat.lt_of_lt_of_le this (mid q hq).1
    · intro p hp q hq
      have b := (List.mem_filter.mp hq).2
      simp only [decide_eq_true_eq] at b
      rcases List.mem_append.mp hp with hp | hp
      · have := (List.mem_filter.mp hp).2
        simp only [decide_eq_true_eq] at this
        omega
      · have := (mid p hp).2.1; omega
  · intro p hp
    simp only [Map.splice, List.mem_append, List.mem_filter] at hp
    rcases hp with (hp | hp) | hp
    · exact h.2 p hp.1
    · exact (mid p hp).2.2
    · exact h.2 p hp.1

/-- Two maps in canonical form that read alike are equal data. -/
theorem Map.ext_of_wf [DecidableEq β] {d : β} {m n : Map β} (hm : Map.wf d m = true) (hn : Map.wf d n = true)
    (h : ∀ i, Map.get d m i = Map.get d n i) : m = n := by
  have absent : ∀ (m : Map β) (i : Nat), (∀ p ∈ m, p.1 ≠ i) → Map.get d m i = d := by
    intro m i
    induction m with
    | nil => intro _; rfl
    | cons p m ih =>
      intro a
      simp only [List.forall_mem_cons] at a
      simp only [Map.get, if_neg (Ne.symm a.1), ih a.2]
  induction m generalizing n with
  | nil =>
    cases n with
    | nil => rfl
    | cons q n =>
      obtain ⟨k, v⟩ := q
      have := h k
      rw [Map.wf_iff] at hn
      simp only [Map.get, if_true] at this
      exact absurd this.symm (hn.2 _ List.mem_cons_self)
  | cons p m ih =>
    obtain ⟨k, v⟩ := p
    rw [Map.wf_iff] at hm
    obtain ⟨a, b⟩ := hm
    simp only [List.pairwise_cons, List.forall_mem_cons] at a b
    cases n with
    | nil =>
      have := h k
      simp only [Map.get, if_true] at this
      exact absurd this b.1
    | cons q n =>
      obtain ⟨k', v'⟩ := q
      rw [Map.wf_iff] at hn
      obtain ⟨c, e⟩ := hn
      simp only [List.pairwise_cons, List.forall_mem_cons] at c e
      have kk : k = k' := by
        rcases Nat.lt_trichotomy k k' with lt | eq | gt
        · have := h k
          simp only [Map.get, if_true, if_neg (Nat.ne_of_lt lt)] at this
          rw [absent n k (fun p hp => by have := c.1 p hp; omega)] at this
          exact absurd this b.1
        · exact eq
        · have := h k'
          simp only [Map.get, if_true, if_neg (Nat.ne_of_lt gt)] at this
          rw [absent m k' (fun p hp => by have := a.1 p hp; omega)] at this
          exact absurd this.symm e.1
      subst kk
      have vv : v = v' := by simpa [Map.get] using h k
      subst vv
      congr 1
      refine ih ((Map.wf_iff d m).mpr ⟨a.2, b.2⟩) ((Map.wf_iff d n).mpr ⟨c.2, e.2⟩) fun i => ?_
      by_cases ik : i = k
      · subst i
        rw [absent m k (fun p hp => Nat.ne_of_gt (a.1 p hp)), absent n k (fun p hp => Nat.ne_of_gt (c.1 p hp))]
      · simpa [Map.get, ik] using h i

/-! ## Folds -/

/-- What every step of a fold keeps, the fold keeps. -/
theorem foldl_keeps {α σ : Type} {P : σ → Prop} {f : σ → α → σ} (h : ∀ s a, P s → P (f s a)) :
    ∀ (l : List α) (s : σ), P s → P (l.foldl f s)
  | [], _, hs => hs
  | a :: l, s, hs => foldl_keeps h l (f s a) (h s a hs)

/-! ## Sorting -/

theorem insBy_perm {α : Type} (key : α → Nat) (x : α) (l : List α) : (insBy key x l).Perm (x :: l) := by
  induction l with
  | nil => exact List.Perm.refl _
  | cons y l ih =>
    unfold insBy
    split
    · exact List.Perm.refl _
    · exact (ih.cons y).trans (List.Perm.swap x y l)

/-- Sorting keeps the elements. -/
theorem sortBy_perm {α : Type} (key : α → Nat) (l : List α) : (sortBy key l).Perm l := by
  have h : ∀ acc : List α, (l.foldl (fun acc x => insBy key x acc) acc).Perm (acc ++ l) := by
    induction l with
    | nil => intro acc; simp
    | cons x l ih =>
      intro acc
      refine (ih _).trans (((insBy_perm key x acc).append_right l).trans ?_)
      simpa using (List.perm_middle (l₁ := acc) (a := x) (l₂ := l)).symm
  simpa [sortBy] using h []

@[simp] theorem mem_sortBy {α : Type} (key : α → Nat) (l : List α) (x : α) : x ∈ sortBy key l ↔ x ∈ l :=
  (sortBy_perm key l).mem_iff

end Sys2Proof.Machine
end

