-- ==== Sys2Proof/Laws/State.lean ====
section
/-! SUPPORT. One law per field of State and named update, true by definition, and what each accessor finds after an
update. -/

namespace Sys2Proof.Machine

/-! ## State.modTeam -/

@[simp] theorem State.modTeam_now (s : State) (t : Nat) (f : Team → Team) : (s.modTeam t f).now = s.now := rfl
@[simp] theorem State.modTeam_free (s : State) (t : Nat) (f : Team → Team) : (s.modTeam t f).free = s.free := rfl
@[simp] theorem State.modTeam_sel (s : State) (t : Nat) (f : Team → Team) : (s.modTeam t f).sel = s.sel := rfl
@[simp] theorem State.modTeam_agenda (s : State) (t : Nat) (f : Team → Team) : (s.modTeam t f).agenda = s.agenda := rfl
@[simp] theorem State.modTeam_pkg (s : State) (t : Nat) (f : Team → Team) : (s.modTeam t f).pkg = s.pkg := rfl
@[simp] theorem State.modTeam_mem (s : State) (t : Nat) (f : Team → Team) : (s.modTeam t f).mem = s.mem := rfl
@[simp] theorem State.modTeam_memBad (s : State) (t : Nat) (f : Team → Team) : (s.modTeam t f).memBad = s.memBad := rfl
@[simp] theorem State.modTeam_dies (s : State) (t : Nat) (f : Team → Team) : (s.modTeam t f).dies = s.dies := rfl
@[simp] theorem State.modTeam_cores (s : State) (t : Nat) (f : Team → Team) : (s.modTeam t f).cores = s.cores := rfl
@[simp] theorem State.modTeam_ctxs (s : State) (t : Nat) (f : Team → Team) : (s.modTeam t f).ctxs = s.ctxs := rfl
@[simp] theorem State.modTeam_teams (s : State) (t : Nat) (f : Team → Team) : (s.modTeam t f).teams = s.teams.map fun x => if x.id = t then f x else x := rfl
@[simp] theorem State.modTeam_clusters (s : State) (t : Nat) (f : Team → Team) : (s.modTeam t f).clusters = s.clusters := rfl
@[simp] theorem State.modTeam_launches (s : State) (t : Nat) (f : Team → Team) : (s.modTeam t f).launches = s.launches := rfl
@[simp] theorem State.modTeam_queues (s : State) (t : Nat) (f : Team → Team) : (s.modTeam t f).queues = s.queues := rfl
@[simp] theorem State.modTeam_nextLaunch (s : State) (t : Nat) (f : Team → Team) : (s.modTeam t f).nextLaunch = s.nextLaunch := rfl
@[simp] theorem State.modTeam_nextTeamId (s : State) (t : Nat) (f : Team → Team) : (s.modTeam t f).nextTeamId = s.nextTeamId := rfl
@[simp] theorem State.modTeam_nextMark (s : State) (t : Nat) (f : Team → Team) : (s.modTeam t f).nextMark = s.nextMark := rfl
@[simp] theorem State.modTeam_invals (s : State) (t : Nat) (f : Team → Team) : (s.modTeam t f).invals = s.invals := rfl
@[simp] theorem State.modTeam_nextInval (s : State) (t : Nat) (f : Team → Team) : (s.modTeam t f).nextInval = s.nextInval := rfl
@[simp] theorem State.modTeam_partWait (s : State) (t : Nat) (f : Team → Team) : (s.modTeam t f).partWait = s.partWait := rfl
@[simp] theorem State.modTeam_pkgNum (s : State) (t : Nat) (f : Team → Team) : (s.modTeam t f).pkgNum = s.pkgNum := rfl
@[simp] theorem State.modTeam_peers (s : State) (t : Nat) (f : Team → Team) : (s.modTeam t f).peers = s.peers := rfl
@[simp] theorem State.modTeam_links (s : State) (t : Nat) (f : Team → Team) : (s.modTeam t f).links = s.links := rfl
@[simp] theorem State.modTeam_ports (s : State) (t : Nat) (f : Team → Team) : (s.modTeam t f).ports = s.ports := rfl
@[simp] theorem State.modTeam_store (s : State) (t : Nat) (f : Team → Team) : (s.modTeam t f).store = s.store := rfl
@[simp] theorem State.modTeam_replies (s : State) (t : Nat) (f : Team → Team) : (s.modTeam t f).replies = s.replies := rfl
@[simp] theorem State.modTeam_nextPkt (s : State) (t : Nat) (f : Team → Team) : (s.modTeam t f).nextPkt = s.nextPkt := rfl
@[simp] theorem State.modTeam_rounds (s : State) (t : Nat) (f : Team → Team) : (s.modTeam t f).rounds = s.rounds := rfl
@[simp] theorem State.modTeam_wins (s : State) (t : Nat) (f : Team → Team) : (s.modTeam t f).wins = s.wins := rfl
@[simp] theorem State.modTeam_sigs (s : State) (t : Nat) (f : Team → Team) : (s.modTeam t f).sigs = s.sigs := rfl
@[simp] theorem State.modTeam_outbox (s : State) (t : Nat) (f : Team → Team) : (s.modTeam t f).outbox = s.outbox := rfl
@[simp] theorem State.modTeam_grants (s : State) (t : Nat) (f : Team → Team) : (s.modTeam t f).grants = s.grants := rfl
@[simp] theorem State.modTeam_demand (s : State) (t : Nat) (f : Team → Team) : (s.modTeam t f).demand = s.demand := rfl
@[simp] theorem State.modTeam_past (s : State) (t : Nat) (f : Team → Team) : (s.modTeam t f).past = s.past := rfl
@[simp] theorem State.modTeam_manifest (s : State) (t : Nat) (f : Team → Team) : (s.modTeam t f).manifest = s.manifest := rfl
@[simp] theorem State.modTeam_manSig (s : State) (t : Nat) (f : Team → Team) : (s.modTeam t f).manSig = s.manSig := rfl
@[simp] theorem State.modTeam_manKey (s : State) (t : Nat) (f : Team → Team) : (s.modTeam t f).manKey = s.manKey := rfl
@[simp] theorem State.modTeam_nextManifest (s : State) (t : Nat) (f : Team → Team) : (s.modTeam t f).nextManifest = s.nextManifest := rfl
@[simp] theorem State.modTeam_manifestOk (s : State) (t : Nat) (f : Team → Team) : (s.modTeam t f).manifestOk = s.manifestOk := rfl
@[simp] theorem State.modTeam_image (s : State) (t : Nat) (f : Team → Team) : (s.modTeam t f).image = s.image := rfl
@[simp] theorem State.modTeam_imageSig (s : State) (t : Nat) (f : Team → Team) : (s.modTeam t f).imageSig = s.imageSig := rfl
@[simp] theorem State.modTeam_fwOk (s : State) (t : Nat) (f : Team → Team) : (s.modTeam t f).fwOk = s.fwOk := rfl
@[simp] theorem State.modTeam_badStep (s : State) (t : Nat) (f : Team → Team) : (s.modTeam t f).badStep = s.badStep := rfl
@[simp] theorem State.modTeam_identity (s : State) (t : Nat) (f : Team → Team) : (s.modTeam t f).identity = s.identity := rfl
@[simp] theorem State.modTeam_sessionKeys (s : State) (t : Nat) (f : Team → Team) : (s.modTeam t f).sessionKeys = s.sessionKeys := rfl
@[simp] theorem State.modTeam_tdis (s : State) (t : Nat) (f : Team → Team) : (s.modTeam t f).tdis = s.tdis := rfl
@[simp] theorem State.modTeam_stopping (s : State) (t : Nat) (f : Team → Team) : (s.modTeam t f).stopping = s.stopping := rfl
@[simp] theorem State.modTeam_coreVf (s : State) (t : Nat) (f : Team → Team) : (s.modTeam t f).coreVf = s.coreVf := rfl
@[simp] theorem State.modTeam_queueVf (s : State) (t : Nat) (f : Team → Team) : (s.modTeam t f).queueVf = s.queueVf := rfl
@[simp] theorem State.modTeam_ring (s : State) (t : Nat) (f : Team → Team) : (s.modTeam t f).ring = s.ring := rfl
@[simp] theorem State.modTeam_hostOut (s : State) (t : Nat) (f : Team → Team) : (s.modTeam t f).hostOut = s.hostOut := rfl

/-! ## State.modGroup -/

@[simp] theorem State.modGroup_now (s : State) (t g : Nat) (f : Group → Group) : (s.modGroup t g f).now = s.now := rfl
@[simp] theorem State.modGroup_free (s : State) (t g : Nat) (f : Group → Group) : (s.modGroup t g f).free = s.free := rfl
@[simp] theorem State.modGroup_sel (s : State) (t g : Nat) (f : Group → Group) : (s.modGroup t g f).sel = s.sel := rfl
@[simp] theorem State.modGroup_agenda (s : State) (t g : Nat) (f : Group → Group) : (s.modGroup t g f).agenda = s.agenda := rfl
@[simp] theorem State.modGroup_pkg (s : State) (t g : Nat) (f : Group → Group) : (s.modGroup t g f).pkg = s.pkg := rfl
@[simp] theorem State.modGroup_mem (s : State) (t g : Nat) (f : Group → Group) : (s.modGroup t g f).mem = s.mem := rfl
@[simp] theorem State.modGroup_memBad (s : State) (t g : Nat) (f : Group → Group) : (s.modGroup t g f).memBad = s.memBad := rfl
@[simp] theorem State.modGroup_dies (s : State) (t g : Nat) (f : Group → Group) : (s.modGroup t g f).dies = s.dies := rfl
@[simp] theorem State.modGroup_cores (s : State) (t g : Nat) (f : Group → Group) : (s.modGroup t g f).cores = s.cores := rfl
@[simp] theorem State.modGroup_ctxs (s : State) (t g : Nat) (f : Group → Group) : (s.modGroup t g f).ctxs = s.ctxs := rfl
@[simp] theorem State.modGroup_clusters (s : State) (t g : Nat) (f : Group → Group) : (s.modGroup t g f).clusters = s.clusters := rfl
@[simp] theorem State.modGroup_launches (s : State) (t g : Nat) (f : Group → Group) : (s.modGroup t g f).launches = s.launches := rfl
@[simp] theorem State.modGroup_queues (s : State) (t g : Nat) (f : Group → Group) : (s.modGroup t g f).queues = s.queues := rfl
@[simp] theorem State.modGroup_nextLaunch (s : State) (t g : Nat) (f : Group → Group) : (s.modGroup t g f).nextLaunch = s.nextLaunch := rfl
@[simp] theorem State.modGroup_nextTeamId (s : State) (t g : Nat) (f : Group → Group) : (s.modGroup t g f).nextTeamId = s.nextTeamId := rfl
@[simp] theorem State.modGroup_nextMark (s : State) (t g : Nat) (f : Group → Group) : (s.modGroup t g f).nextMark = s.nextMark := rfl
@[simp] theorem State.modGroup_invals (s : State) (t g : Nat) (f : Group → Group) : (s.modGroup t g f).invals = s.invals := rfl
@[simp] theorem State.modGroup_nextInval (s : State) (t g : Nat) (f : Group → Group) : (s.modGroup t g f).nextInval = s.nextInval := rfl
@[simp] theorem State.modGroup_partWait (s : State) (t g : Nat) (f : Group → Group) : (s.modGroup t g f).partWait = s.partWait := rfl
@[simp] theorem State.modGroup_pkgNum (s : State) (t g : Nat) (f : Group → Group) : (s.modGroup t g f).pkgNum = s.pkgNum := rfl
@[simp] theorem State.modGroup_peers (s : State) (t g : Nat) (f : Group → Group) : (s.modGroup t g f).peers = s.peers := rfl
@[simp] theorem State.modGroup_links (s : State) (t g : Nat) (f : Group → Group) : (s.modGroup t g f).links = s.links := rfl
@[simp] theorem State.modGroup_ports (s : State) (t g : Nat) (f : Group → Group) : (s.modGroup t g f).ports = s.ports := rfl
@[simp] theorem State.modGroup_store (s : State) (t g : Nat) (f : Group → Group) : (s.modGroup t g f).store = s.store := rfl
@[simp] theorem State.modGroup_replies (s : State) (t g : Nat) (f : Group → Group) : (s.modGroup t g f).replies = s.replies := rfl
@[simp] theorem State.modGroup_nextPkt (s : State) (t g : Nat) (f : Group → Group) : (s.modGroup t g f).nextPkt = s.nextPkt := rfl
@[simp] theorem State.modGroup_rounds (s : State) (t g : Nat) (f : Group → Group) : (s.modGroup t g f).rounds = s.rounds := rfl
@[simp] theorem State.modGroup_wins (s : State) (t g : Nat) (f : Group → Group) : (s.modGroup t g f).wins = s.wins := rfl
@[simp] theorem State.modGroup_sigs (s : State) (t g : Nat) (f : Group → Group) : (s.modGroup t g f).sigs = s.sigs := rfl
@[simp] theorem State.modGroup_outbox (s : State) (t g : Nat) (f : Group → Group) : (s.modGroup t g f).outbox = s.outbox := rfl
@[simp] theorem State.modGroup_grants (s : State) (t g : Nat) (f : Group → Group) : (s.modGroup t g f).grants = s.grants := rfl
@[simp] theorem State.modGroup_demand (s : State) (t g : Nat) (f : Group → Group) : (s.modGroup t g f).demand = s.demand := rfl
@[simp] theorem State.modGroup_past (s : State) (t g : Nat) (f : Group → Group) : (s.modGroup t g f).past = s.past := rfl
@[simp] theorem State.modGroup_manifest (s : State) (t g : Nat) (f : Group → Group) : (s.modGroup t g f).manifest = s.manifest := rfl
@[simp] theorem State.modGroup_manSig (s : State) (t g : Nat) (f : Group → Group) : (s.modGroup t g f).manSig = s.manSig := rfl
@[simp] theorem State.modGroup_manKey (s : State) (t g : Nat) (f : Group → Group) : (s.modGroup t g f).manKey = s.manKey := rfl
@[simp] theorem State.modGroup_nextManifest (s : State) (t g : Nat) (f : Group → Group) : (s.modGroup t g f).nextManifest = s.nextManifest := rfl
@[simp] theorem State.modGroup_manifestOk (s : State) (t g : Nat) (f : Group → Group) : (s.modGroup t g f).manifestOk = s.manifestOk := rfl
@[simp] theorem State.modGroup_image (s : State) (t g : Nat) (f : Group → Group) : (s.modGroup t g f).image = s.image := rfl
@[simp] theorem State.modGroup_imageSig (s : State) (t g : Nat) (f : Group → Group) : (s.modGroup t g f).imageSig = s.imageSig := rfl
@[simp] theorem State.modGroup_fwOk (s : State) (t g : Nat) (f : Group → Group) : (s.modGroup t g f).fwOk = s.fwOk := rfl
@[simp] theorem State.modGroup_badStep (s : State) (t g : Nat) (f : Group → Group) : (s.modGroup t g f).badStep = s.badStep := rfl
@[simp] theorem State.modGroup_identity (s : State) (t g : Nat) (f : Group → Group) : (s.modGroup t g f).identity = s.identity := rfl
@[simp] theorem State.modGroup_sessionKeys (s : State) (t g : Nat) (f : Group → Group) : (s.modGroup t g f).sessionKeys = s.sessionKeys := rfl
@[simp] theorem State.modGroup_tdis (s : State) (t g : Nat) (f : Group → Group) : (s.modGroup t g f).tdis = s.tdis := rfl
@[simp] theorem State.modGroup_stopping (s : State) (t g : Nat) (f : Group → Group) : (s.modGroup t g f).stopping = s.stopping := rfl
@[simp] theorem State.modGroup_coreVf (s : State) (t g : Nat) (f : Group → Group) : (s.modGroup t g f).coreVf = s.coreVf := rfl
@[simp] theorem State.modGroup_queueVf (s : State) (t g : Nat) (f : Group → Group) : (s.modGroup t g f).queueVf = s.queueVf := rfl
@[simp] theorem State.modGroup_ring (s : State) (t g : Nat) (f : Group → Group) : (s.modGroup t g f).ring = s.ring := rfl
@[simp] theorem State.modGroup_hostOut (s : State) (t g : Nat) (f : Group → Group) : (s.modGroup t g f).hostOut = s.hostOut := rfl

/-! ## State.modG -/

@[simp] theorem State.modG_now (s : State) (r : SRef) (f : Group → Group) : (s.modG r f).now = s.now := rfl
@[simp] theorem State.modG_free (s : State) (r : SRef) (f : Group → Group) : (s.modG r f).free = s.free := rfl
@[simp] theorem State.modG_sel (s : State) (r : SRef) (f : Group → Group) : (s.modG r f).sel = s.sel := rfl
@[simp] theorem State.modG_agenda (s : State) (r : SRef) (f : Group → Group) : (s.modG r f).agenda = s.agenda := rfl
@[simp] theorem State.modG_pkg (s : State) (r : SRef) (f : Group → Group) : (s.modG r f).pkg = s.pkg := rfl
@[simp] theorem State.modG_mem (s : State) (r : SRef) (f : Group → Group) : (s.modG r f).mem = s.mem := rfl
@[simp] theorem State.modG_memBad (s : State) (r : SRef) (f : Group → Group) : (s.modG r f).memBad = s.memBad := rfl
@[simp] theorem State.modG_dies (s : State) (r : SRef) (f : Group → Group) : (s.modG r f).dies = s.dies := rfl
@[simp] theorem State.modG_cores (s : State) (r : SRef) (f : Group → Group) : (s.modG r f).cores = s.cores := rfl
@[simp] theorem State.modG_ctxs (s : State) (r : SRef) (f : Group → Group) : (s.modG r f).ctxs = s.ctxs := rfl
@[simp] theorem State.modG_clusters (s : State) (r : SRef) (f : Group → Group) : (s.modG r f).clusters = s.clusters := rfl
@[simp] theorem State.modG_launches (s : State) (r : SRef) (f : Group → Group) : (s.modG r f).launches = s.launches := rfl
@[simp] theorem State.modG_queues (s : State) (r : SRef) (f : Group → Group) : (s.modG r f).queues = s.queues := rfl
@[simp] theorem State.modG_nextLaunch (s : State) (r : SRef) (f : Group → Group) : (s.modG r f).nextLaunch = s.nextLaunch := rfl
@[simp] theorem State.modG_nextTeamId (s : State) (r : SRef) (f : Group → Group) : (s.modG r f).nextTeamId = s.nextTeamId := rfl
@[simp] theorem State.modG_nextMark (s : State) (r : SRef) (f : Group → Group) : (s.modG r f).nextMark = s.nextMark := rfl
@[simp] theorem State.modG_invals (s : State) (r : SRef) (f : Group → Group) : (s.modG r f).invals = s.invals := rfl
@[simp] theorem State.modG_nextInval (s : State) (r : SRef) (f : Group → Group) : (s.modG r f).nextInval = s.nextInval := rfl
@[simp] theorem State.modG_partWait (s : State) (r : SRef) (f : Group → Group) : (s.modG r f).partWait = s.partWait := rfl
@[simp] theorem State.modG_pkgNum (s : State) (r : SRef) (f : Group → Group) : (s.modG r f).pkgNum = s.pkgNum := rfl
@[simp] theorem State.modG_peers (s : State) (r : SRef) (f : Group → Group) : (s.modG r f).peers = s.peers := rfl
@[simp] theorem State.modG_links (s : State) (r : SRef) (f : Group → Group) : (s.modG r f).links = s.links := rfl
@[simp] theorem State.modG_ports (s : State) (r : SRef) (f : Group → Group) : (s.modG r f).ports = s.ports := rfl
@[simp] theorem State.modG_store (s : State) (r : SRef) (f : Group → Group) : (s.modG r f).store = s.store := rfl
@[simp] theorem State.modG_replies (s : State) (r : SRef) (f : Group → Group) : (s.modG r f).replies = s.replies := rfl
@[simp] theorem State.modG_nextPkt (s : State) (r : SRef) (f : Group → Group) : (s.modG r f).nextPkt = s.nextPkt := rfl
@[simp] theorem State.modG_rounds (s : State) (r : SRef) (f : Group → Group) : (s.modG r f).rounds = s.rounds := rfl
@[simp] theorem State.modG_wins (s : State) (r : SRef) (f : Group → Group) : (s.modG r f).wins = s.wins := rfl
@[simp] theorem State.modG_sigs (s : State) (r : SRef) (f : Group → Group) : (s.modG r f).sigs = s.sigs := rfl
@[simp] theorem State.modG_outbox (s : State) (r : SRef) (f : Group → Group) : (s.modG r f).outbox = s.outbox := rfl
@[simp] theorem State.modG_grants (s : State) (r : SRef) (f : Group → Group) : (s.modG r f).grants = s.grants := rfl
@[simp] theorem State.modG_demand (s : State) (r : SRef) (f : Group → Group) : (s.modG r f).demand = s.demand := rfl
@[simp] theorem State.modG_past (s : State) (r : SRef) (f : Group → Group) : (s.modG r f).past = s.past := rfl
@[simp] theorem State.modG_manifest (s : State) (r : SRef) (f : Group → Group) : (s.modG r f).manifest = s.manifest := rfl
@[simp] theorem State.modG_manSig (s : State) (r : SRef) (f : Group → Group) : (s.modG r f).manSig = s.manSig := rfl
@[simp] theorem State.modG_manKey (s : State) (r : SRef) (f : Group → Group) : (s.modG r f).manKey = s.manKey := rfl
@[simp] theorem State.modG_nextManifest (s : State) (r : SRef) (f : Group → Group) : (s.modG r f).nextManifest = s.nextManifest := rfl
@[simp] theorem State.modG_manifestOk (s : State) (r : SRef) (f : Group → Group) : (s.modG r f).manifestOk = s.manifestOk := rfl
@[simp] theorem State.modG_image (s : State) (r : SRef) (f : Group → Group) : (s.modG r f).image = s.image := rfl
@[simp] theorem State.modG_imageSig (s : State) (r : SRef) (f : Group → Group) : (s.modG r f).imageSig = s.imageSig := rfl
@[simp] theorem State.modG_fwOk (s : State) (r : SRef) (f : Group → Group) : (s.modG r f).fwOk = s.fwOk := rfl
@[simp] theorem State.modG_badStep (s : State) (r : SRef) (f : Group → Group) : (s.modG r f).badStep = s.badStep := rfl
@[simp] theorem State.modG_identity (s : State) (r : SRef) (f : Group → Group) : (s.modG r f).identity = s.identity := rfl
@[simp] theorem State.modG_sessionKeys (s : State) (r : SRef) (f : Group → Group) : (s.modG r f).sessionKeys = s.sessionKeys := rfl
@[simp] theorem State.modG_tdis (s : State) (r : SRef) (f : Group → Group) : (s.modG r f).tdis = s.tdis := rfl
@[simp] theorem State.modG_stopping (s : State) (r : SRef) (f : Group → Group) : (s.modG r f).stopping = s.stopping := rfl
@[simp] theorem State.modG_coreVf (s : State) (r : SRef) (f : Group → Group) : (s.modG r f).coreVf = s.coreVf := rfl
@[simp] theorem State.modG_queueVf (s : State) (r : SRef) (f : Group → Group) : (s.modG r f).queueVf = s.queueVf := rfl
@[simp] theorem State.modG_ring (s : State) (r : SRef) (f : Group → Group) : (s.modG r f).ring = s.ring := rfl
@[simp] theorem State.modG_hostOut (s : State) (r : SRef) (f : Group → Group) : (s.modG r f).hostOut = s.hostOut := rfl

/-! ## State.modSplit -/

@[simp] theorem State.modSplit_now (s : State) (r : SRef) (f : Split → Split) : (s.modSplit r f).now = s.now := rfl
@[simp] theorem State.modSplit_free (s : State) (r : SRef) (f : Split → Split) : (s.modSplit r f).free = s.free := rfl
@[simp] theorem State.modSplit_sel (s : State) (r : SRef) (f : Split → Split) : (s.modSplit r f).sel = s.sel := rfl
@[simp] theorem State.modSplit_agenda (s : State) (r : SRef) (f : Split → Split) : (s.modSplit r f).agenda = s.agenda := rfl
@[simp] theorem State.modSplit_pkg (s : State) (r : SRef) (f : Split → Split) : (s.modSplit r f).pkg = s.pkg := rfl
@[simp] theorem State.modSplit_mem (s : State) (r : SRef) (f : Split → Split) : (s.modSplit r f).mem = s.mem := rfl
@[simp] theorem State.modSplit_memBad (s : State) (r : SRef) (f : Split → Split) : (s.modSplit r f).memBad = s.memBad := rfl
@[simp] theorem State.modSplit_dies (s : State) (r : SRef) (f : Split → Split) : (s.modSplit r f).dies = s.dies := rfl
@[simp] theorem State.modSplit_cores (s : State) (r : SRef) (f : Split → Split) : (s.modSplit r f).cores = s.cores := rfl
@[simp] theorem State.modSplit_ctxs (s : State) (r : SRef) (f : Split → Split) : (s.modSplit r f).ctxs = s.ctxs := rfl
@[simp] theorem State.modSplit_clusters (s : State) (r : SRef) (f : Split → Split) : (s.modSplit r f).clusters = s.clusters := rfl
@[simp] theorem State.modSplit_launches (s : State) (r : SRef) (f : Split → Split) : (s.modSplit r f).launches = s.launches := rfl
@[simp] theorem State.modSplit_queues (s : State) (r : SRef) (f : Split → Split) : (s.modSplit r f).queues = s.queues := rfl
@[simp] theorem State.modSplit_nextLaunch (s : State) (r : SRef) (f : Split → Split) : (s.modSplit r f).nextLaunch = s.nextLaunch := rfl
@[simp] theorem State.modSplit_nextTeamId (s : State) (r : SRef) (f : Split → Split) : (s.modSplit r f).nextTeamId = s.nextTeamId := rfl
@[simp] theorem State.modSplit_nextMark (s : State) (r : SRef) (f : Split → Split) : (s.modSplit r f).nextMark = s.nextMark := rfl
@[simp] theorem State.modSplit_invals (s : State) (r : SRef) (f : Split → Split) : (s.modSplit r f).invals = s.invals := rfl
@[simp] theorem State.modSplit_nextInval (s : State) (r : SRef) (f : Split → Split) : (s.modSplit r f).nextInval = s.nextInval := rfl
@[simp] theorem State.modSplit_partWait (s : State) (r : SRef) (f : Split → Split) : (s.modSplit r f).partWait = s.partWait := rfl
@[simp] theorem State.modSplit_pkgNum (s : State) (r : SRef) (f : Split → Split) : (s.modSplit r f).pkgNum = s.pkgNum := rfl
@[simp] theorem State.modSplit_peers (s : State) (r : SRef) (f : Split → Split) : (s.modSplit r f).peers = s.peers := rfl
@[simp] theorem State.modSplit_links (s : State) (r : SRef) (f : Split → Split) : (s.modSplit r f).links = s.links := rfl
@[simp] theorem State.modSplit_ports (s : State) (r : SRef) (f : Split → Split) : (s.modSplit r f).ports = s.ports := rfl
@[simp] theorem State.modSplit_store (s : State) (r : SRef) (f : Split → Split) : (s.modSplit r f).store = s.store := rfl
@[simp] theorem State.modSplit_replies (s : State) (r : SRef) (f : Split → Split) : (s.modSplit r f).replies = s.replies := rfl
@[simp] theorem State.modSplit_nextPkt (s : State) (r : SRef) (f : Split → Split) : (s.modSplit r f).nextPkt = s.nextPkt := rfl
@[simp] theorem State.modSplit_rounds (s : State) (r : SRef) (f : Split → Split) : (s.modSplit r f).rounds = s.rounds := rfl
@[simp] theorem State.modSplit_wins (s : State) (r : SRef) (f : Split → Split) : (s.modSplit r f).wins = s.wins := rfl
@[simp] theorem State.modSplit_sigs (s : State) (r : SRef) (f : Split → Split) : (s.modSplit r f).sigs = s.sigs := rfl
@[simp] theorem State.modSplit_outbox (s : State) (r : SRef) (f : Split → Split) : (s.modSplit r f).outbox = s.outbox := rfl
@[simp] theorem State.modSplit_grants (s : State) (r : SRef) (f : Split → Split) : (s.modSplit r f).grants = s.grants := rfl
@[simp] theorem State.modSplit_demand (s : State) (r : SRef) (f : Split → Split) : (s.modSplit r f).demand = s.demand := rfl
@[simp] theorem State.modSplit_past (s : State) (r : SRef) (f : Split → Split) : (s.modSplit r f).past = s.past := rfl
@[simp] theorem State.modSplit_manifest (s : State) (r : SRef) (f : Split → Split) : (s.modSplit r f).manifest = s.manifest := rfl
@[simp] theorem State.modSplit_manSig (s : State) (r : SRef) (f : Split → Split) : (s.modSplit r f).manSig = s.manSig := rfl
@[simp] theorem State.modSplit_manKey (s : State) (r : SRef) (f : Split → Split) : (s.modSplit r f).manKey = s.manKey := rfl
@[simp] theorem State.modSplit_nextManifest (s : State) (r : SRef) (f : Split → Split) : (s.modSplit r f).nextManifest = s.nextManifest := rfl
@[simp] theorem State.modSplit_manifestOk (s : State) (r : SRef) (f : Split → Split) : (s.modSplit r f).manifestOk = s.manifestOk := rfl
@[simp] theorem State.modSplit_image (s : State) (r : SRef) (f : Split → Split) : (s.modSplit r f).image = s.image := rfl
@[simp] theorem State.modSplit_imageSig (s : State) (r : SRef) (f : Split → Split) : (s.modSplit r f).imageSig = s.imageSig := rfl
@[simp] theorem State.modSplit_fwOk (s : State) (r : SRef) (f : Split → Split) : (s.modSplit r f).fwOk = s.fwOk := rfl
@[simp] theorem State.modSplit_badStep (s : State) (r : SRef) (f : Split → Split) : (s.modSplit r f).badStep = s.badStep := rfl
@[simp] theorem State.modSplit_identity (s : State) (r : SRef) (f : Split → Split) : (s.modSplit r f).identity = s.identity := rfl
@[simp] theorem State.modSplit_sessionKeys (s : State) (r : SRef) (f : Split → Split) : (s.modSplit r f).sessionKeys = s.sessionKeys := rfl
@[simp] theorem State.modSplit_tdis (s : State) (r : SRef) (f : Split → Split) : (s.modSplit r f).tdis = s.tdis := rfl
@[simp] theorem State.modSplit_stopping (s : State) (r : SRef) (f : Split → Split) : (s.modSplit r f).stopping = s.stopping := rfl
@[simp] theorem State.modSplit_coreVf (s : State) (r : SRef) (f : Split → Split) : (s.modSplit r f).coreVf = s.coreVf := rfl
@[simp] theorem State.modSplit_queueVf (s : State) (r : SRef) (f : Split → Split) : (s.modSplit r f).queueVf = s.queueVf := rfl
@[simp] theorem State.modSplit_ring (s : State) (r : SRef) (f : Split → Split) : (s.modSplit r f).ring = s.ring := rfl
@[simp] theorem State.modSplit_hostOut (s : State) (r : SRef) (f : Split → Split) : (s.modSplit r f).hostOut = s.hostOut := rfl

/-! ## State.modLaunch -/

@[simp] theorem State.modLaunch_now (s : State) (l : Nat) (f : Launch → Launch) : (s.modLaunch l f).now = s.now := rfl
@[simp] theorem State.modLaunch_free (s : State) (l : Nat) (f : Launch → Launch) : (s.modLaunch l f).free = s.free := rfl
@[simp] theorem State.modLaunch_sel (s : State) (l : Nat) (f : Launch → Launch) : (s.modLaunch l f).sel = s.sel := rfl
@[simp] theorem State.modLaunch_agenda (s : State) (l : Nat) (f : Launch → Launch) : (s.modLaunch l f).agenda = s.agenda := rfl
@[simp] theorem State.modLaunch_pkg (s : State) (l : Nat) (f : Launch → Launch) : (s.modLaunch l f).pkg = s.pkg := rfl
@[simp] theorem State.modLaunch_mem (s : State) (l : Nat) (f : Launch → Launch) : (s.modLaunch l f).mem = s.mem := rfl
@[simp] theorem State.modLaunch_memBad (s : State) (l : Nat) (f : Launch → Launch) : (s.modLaunch l f).memBad = s.memBad := rfl
@[simp] theorem State.modLaunch_dies (s : State) (l : Nat) (f : Launch → Launch) : (s.modLaunch l f).dies = s.dies := rfl
@[simp] theorem State.modLaunch_cores (s : State) (l : Nat) (f : Launch → Launch) : (s.modLaunch l f).cores = s.cores := rfl
@[simp] theorem State.modLaunch_ctxs (s : State) (l : Nat) (f : Launch → Launch) : (s.modLaunch l f).ctxs = s.ctxs := rfl
@[simp] theorem State.modLaunch_teams (s : State) (l : Nat) (f : Launch → Launch) : (s.modLaunch l f).teams = s.teams := rfl
@[simp] theorem State.modLaunch_clusters (s : State) (l : Nat) (f : Launch → Launch) : (s.modLaunch l f).clusters = s.clusters := rfl
@[simp] theorem State.modLaunch_launches (s : State) (l : Nat) (f : Launch → Launch) : (s.modLaunch l f).launches = s.launches.map fun x => if x.id = l then f x else x := rfl
@[simp] theorem State.modLaunch_queues (s : State) (l : Nat) (f : Launch → Launch) : (s.modLaunch l f).queues = s.queues := rfl
@[simp] theorem State.modLaunch_nextLaunch (s : State) (l : Nat) (f : Launch → Launch) : (s.modLaunch l f).nextLaunch = s.nextLaunch := rfl
@[simp] theorem State.modLaunch_nextTeamId (s : State) (l : Nat) (f : Launch → Launch) : (s.modLaunch l f).nextTeamId = s.nextTeamId := rfl
@[simp] theorem State.modLaunch_nextMark (s : State) (l : Nat) (f : Launch → Launch) : (s.modLaunch l f).nextMark = s.nextMark := rfl
@[simp] theorem State.modLaunch_invals (s : State) (l : Nat) (f : Launch → Launch) : (s.modLaunch l f).invals = s.invals := rfl
@[simp] theorem State.modLaunch_nextInval (s : State) (l : Nat) (f : Launch → Launch) : (s.modLaunch l f).nextInval = s.nextInval := rfl
@[simp] theorem State.modLaunch_partWait (s : State) (l : Nat) (f : Launch → Launch) : (s.modLaunch l f).partWait = s.partWait := rfl
@[simp] theorem State.modLaunch_pkgNum (s : State) (l : Nat) (f : Launch → Launch) : (s.modLaunch l f).pkgNum = s.pkgNum := rfl
@[simp] theorem State.modLaunch_peers (s : State) (l : Nat) (f : Launch → Launch) : (s.modLaunch l f).peers = s.peers := rfl
@[simp] theorem State.modLaunch_links (s : State) (l : Nat) (f : Launch → Launch) : (s.modLaunch l f).links = s.links := rfl
@[simp] theorem State.modLaunch_ports (s : State) (l : Nat) (f : Launch → Launch) : (s.modLaunch l f).ports = s.ports := rfl
@[simp] theorem State.modLaunch_store (s : State) (l : Nat) (f : Launch → Launch) : (s.modLaunch l f).store = s.store := rfl
@[simp] theorem State.modLaunch_replies (s : State) (l : Nat) (f : Launch → Launch) : (s.modLaunch l f).replies = s.replies := rfl
@[simp] theorem State.modLaunch_nextPkt (s : State) (l : Nat) (f : Launch → Launch) : (s.modLaunch l f).nextPkt = s.nextPkt := rfl
@[simp] theorem State.modLaunch_rounds (s : State) (l : Nat) (f : Launch → Launch) : (s.modLaunch l f).rounds = s.rounds := rfl
@[simp] theorem State.modLaunch_wins (s : State) (l : Nat) (f : Launch → Launch) : (s.modLaunch l f).wins = s.wins := rfl
@[simp] theorem State.modLaunch_sigs (s : State) (l : Nat) (f : Launch → Launch) : (s.modLaunch l f).sigs = s.sigs := rfl
@[simp] theorem State.modLaunch_outbox (s : State) (l : Nat) (f : Launch → Launch) : (s.modLaunch l f).outbox = s.outbox := rfl
@[simp] theorem State.modLaunch_grants (s : State) (l : Nat) (f : Launch → Launch) : (s.modLaunch l f).grants = s.grants := rfl
@[simp] theorem State.modLaunch_demand (s : State) (l : Nat) (f : Launch → Launch) : (s.modLaunch l f).demand = s.demand := rfl
@[simp] theorem State.modLaunch_past (s : State) (l : Nat) (f : Launch → Launch) : (s.modLaunch l f).past = s.past := rfl
@[simp] theorem State.modLaunch_manifest (s : State) (l : Nat) (f : Launch → Launch) : (s.modLaunch l f).manifest = s.manifest := rfl
@[simp] theorem State.modLaunch_manSig (s : State) (l : Nat) (f : Launch → Launch) : (s.modLaunch l f).manSig = s.manSig := rfl
@[simp] theorem State.modLaunch_manKey (s : State) (l : Nat) (f : Launch → Launch) : (s.modLaunch l f).manKey = s.manKey := rfl
@[simp] theorem State.modLaunch_nextManifest (s : State) (l : Nat) (f : Launch → Launch) : (s.modLaunch l f).nextManifest = s.nextManifest := rfl
@[simp] theorem State.modLaunch_manifestOk (s : State) (l : Nat) (f : Launch → Launch) : (s.modLaunch l f).manifestOk = s.manifestOk := rfl
@[simp] theorem State.modLaunch_image (s : State) (l : Nat) (f : Launch → Launch) : (s.modLaunch l f).image = s.image := rfl
@[simp] theorem State.modLaunch_imageSig (s : State) (l : Nat) (f : Launch → Launch) : (s.modLaunch l f).imageSig = s.imageSig := rfl
@[simp] theorem State.modLaunch_fwOk (s : State) (l : Nat) (f : Launch → Launch) : (s.modLaunch l f).fwOk = s.fwOk := rfl
@[simp] theorem State.modLaunch_badStep (s : State) (l : Nat) (f : Launch → Launch) : (s.modLaunch l f).badStep = s.badStep := rfl
@[simp] theorem State.modLaunch_identity (s : State) (l : Nat) (f : Launch → Launch) : (s.modLaunch l f).identity = s.identity := rfl
@[simp] theorem State.modLaunch_sessionKeys (s : State) (l : Nat) (f : Launch → Launch) : (s.modLaunch l f).sessionKeys = s.sessionKeys := rfl
@[simp] theorem State.modLaunch_tdis (s : State) (l : Nat) (f : Launch → Launch) : (s.modLaunch l f).tdis = s.tdis := rfl
@[simp] theorem State.modLaunch_stopping (s : State) (l : Nat) (f : Launch → Launch) : (s.modLaunch l f).stopping = s.stopping := rfl
@[simp] theorem State.modLaunch_coreVf (s : State) (l : Nat) (f : Launch → Launch) : (s.modLaunch l f).coreVf = s.coreVf := rfl
@[simp] theorem State.modLaunch_queueVf (s : State) (l : Nat) (f : Launch → Launch) : (s.modLaunch l f).queueVf = s.queueVf := rfl
@[simp] theorem State.modLaunch_ring (s : State) (l : Nat) (f : Launch → Launch) : (s.modLaunch l f).ring = s.ring := rfl
@[simp] theorem State.modLaunch_hostOut (s : State) (l : Nat) (f : Launch → Launch) : (s.modLaunch l f).hostOut = s.hostOut := rfl

/-! ## State.modCluster -/

@[simp] theorem State.modCluster_now (s : State) (c : Nat) (f : Cluster → Cluster) : (s.modCluster c f).now = s.now := rfl
@[simp] theorem State.modCluster_free (s : State) (c : Nat) (f : Cluster → Cluster) : (s.modCluster c f).free = s.free := rfl
@[simp] theorem State.modCluster_sel (s : State) (c : Nat) (f : Cluster → Cluster) : (s.modCluster c f).sel = s.sel := rfl
@[simp] theorem State.modCluster_agenda (s : State) (c : Nat) (f : Cluster → Cluster) : (s.modCluster c f).agenda = s.agenda := rfl
@[simp] theorem State.modCluster_pkg (s : State) (c : Nat) (f : Cluster → Cluster) : (s.modCluster c f).pkg = s.pkg := rfl
@[simp] theorem State.modCluster_mem (s : State) (c : Nat) (f : Cluster → Cluster) : (s.modCluster c f).mem = s.mem := rfl
@[simp] theorem State.modCluster_memBad (s : State) (c : Nat) (f : Cluster → Cluster) : (s.modCluster c f).memBad = s.memBad := rfl
@[simp] theorem State.modCluster_dies (s : State) (c : Nat) (f : Cluster → Cluster) : (s.modCluster c f).dies = s.dies := rfl
@[simp] theorem State.modCluster_cores (s : State) (c : Nat) (f : Cluster → Cluster) : (s.modCluster c f).cores = s.cores := rfl
@[simp] theorem State.modCluster_ctxs (s : State) (c : Nat) (f : Cluster → Cluster) : (s.modCluster c f).ctxs = s.ctxs := rfl
@[simp] theorem State.modCluster_teams (s : State) (c : Nat) (f : Cluster → Cluster) : (s.modCluster c f).teams = s.teams := rfl
@[simp] theorem State.modCluster_clusters (s : State) (c : Nat) (f : Cluster → Cluster) : (s.modCluster c f).clusters = s.clusters.map fun x => if x.id = c then f x else x := rfl
@[simp] theorem State.modCluster_launches (s : State) (c : Nat) (f : Cluster → Cluster) : (s.modCluster c f).launches = s.launches := rfl
@[simp] theorem State.modCluster_queues (s : State) (c : Nat) (f : Cluster → Cluster) : (s.modCluster c f).queues = s.queues := rfl
@[simp] theorem State.modCluster_nextLaunch (s : State) (c : Nat) (f : Cluster → Cluster) : (s.modCluster c f).nextLaunch = s.nextLaunch := rfl
@[simp] theorem State.modCluster_nextTeamId (s : State) (c : Nat) (f : Cluster → Cluster) : (s.modCluster c f).nextTeamId = s.nextTeamId := rfl
@[simp] theorem State.modCluster_nextMark (s : State) (c : Nat) (f : Cluster → Cluster) : (s.modCluster c f).nextMark = s.nextMark := rfl
@[simp] theorem State.modCluster_invals (s : State) (c : Nat) (f : Cluster → Cluster) : (s.modCluster c f).invals = s.invals := rfl
@[simp] theorem State.modCluster_nextInval (s : State) (c : Nat) (f : Cluster → Cluster) : (s.modCluster c f).nextInval = s.nextInval := rfl
@[simp] theorem State.modCluster_partWait (s : State) (c : Nat) (f : Cluster → Cluster) : (s.modCluster c f).partWait = s.partWait := rfl
@[simp] theorem State.modCluster_pkgNum (s : State) (c : Nat) (f : Cluster → Cluster) : (s.modCluster c f).pkgNum = s.pkgNum := rfl
@[simp] theorem State.modCluster_peers (s : State) (c : Nat) (f : Cluster → Cluster) : (s.modCluster c f).peers = s.peers := rfl
@[simp] theorem State.modCluster_links (s : State) (c : Nat) (f : Cluster → Cluster) : (s.modCluster c f).links = s.links := rfl
@[simp] theorem State.modCluster_ports (s : State) (c : Nat) (f : Cluster → Cluster) : (s.modCluster c f).ports = s.ports := rfl
@[simp] theorem State.modCluster_store (s : State) (c : Nat) (f : Cluster → Cluster) : (s.modCluster c f).store = s.store := rfl
@[simp] theorem State.modCluster_replies (s : State) (c : Nat) (f : Cluster → Cluster) : (s.modCluster c f).replies = s.replies := rfl
@[simp] theorem State.modCluster_nextPkt (s : State) (c : Nat) (f : Cluster → Cluster) : (s.modCluster c f).nextPkt = s.nextPkt := rfl
@[simp] theorem State.modCluster_rounds (s : State) (c : Nat) (f : Cluster → Cluster) : (s.modCluster c f).rounds = s.rounds := rfl
@[simp] theorem State.modCluster_wins (s : State) (c : Nat) (f : Cluster → Cluster) : (s.modCluster c f).wins = s.wins := rfl
@[simp] theorem State.modCluster_sigs (s : State) (c : Nat) (f : Cluster → Cluster) : (s.modCluster c f).sigs = s.sigs := rfl
@[simp] theorem State.modCluster_outbox (s : State) (c : Nat) (f : Cluster → Cluster) : (s.modCluster c f).outbox = s.outbox := rfl
@[simp] theorem State.modCluster_grants (s : State) (c : Nat) (f : Cluster → Cluster) : (s.modCluster c f).grants = s.grants := rfl
@[simp] theorem State.modCluster_demand (s : State) (c : Nat) (f : Cluster → Cluster) : (s.modCluster c f).demand = s.demand := rfl
@[simp] theorem State.modCluster_past (s : State) (c : Nat) (f : Cluster → Cluster) : (s.modCluster c f).past = s.past := rfl
@[simp] theorem State.modCluster_manifest (s : State) (c : Nat) (f : Cluster → Cluster) : (s.modCluster c f).manifest = s.manifest := rfl
@[simp] theorem State.modCluster_manSig (s : State) (c : Nat) (f : Cluster → Cluster) : (s.modCluster c f).manSig = s.manSig := rfl
@[simp] theorem State.modCluster_manKey (s : State) (c : Nat) (f : Cluster → Cluster) : (s.modCluster c f).manKey = s.manKey := rfl
@[simp] theorem State.modCluster_nextManifest (s : State) (c : Nat) (f : Cluster → Cluster) : (s.modCluster c f).nextManifest = s.nextManifest := rfl
@[simp] theorem State.modCluster_manifestOk (s : State) (c : Nat) (f : Cluster → Cluster) : (s.modCluster c f).manifestOk = s.manifestOk := rfl
@[simp] theorem State.modCluster_image (s : State) (c : Nat) (f : Cluster → Cluster) : (s.modCluster c f).image = s.image := rfl
@[simp] theorem State.modCluster_imageSig (s : State) (c : Nat) (f : Cluster → Cluster) : (s.modCluster c f).imageSig = s.imageSig := rfl
@[simp] theorem State.modCluster_fwOk (s : State) (c : Nat) (f : Cluster → Cluster) : (s.modCluster c f).fwOk = s.fwOk := rfl
@[simp] theorem State.modCluster_badStep (s : State) (c : Nat) (f : Cluster → Cluster) : (s.modCluster c f).badStep = s.badStep := rfl
@[simp] theorem State.modCluster_identity (s : State) (c : Nat) (f : Cluster → Cluster) : (s.modCluster c f).identity = s.identity := rfl
@[simp] theorem State.modCluster_sessionKeys (s : State) (c : Nat) (f : Cluster → Cluster) : (s.modCluster c f).sessionKeys = s.sessionKeys := rfl
@[simp] theorem State.modCluster_tdis (s : State) (c : Nat) (f : Cluster → Cluster) : (s.modCluster c f).tdis = s.tdis := rfl
@[simp] theorem State.modCluster_stopping (s : State) (c : Nat) (f : Cluster → Cluster) : (s.modCluster c f).stopping = s.stopping := rfl
@[simp] theorem State.modCluster_coreVf (s : State) (c : Nat) (f : Cluster → Cluster) : (s.modCluster c f).coreVf = s.coreVf := rfl
@[simp] theorem State.modCluster_queueVf (s : State) (c : Nat) (f : Cluster → Cluster) : (s.modCluster c f).queueVf = s.queueVf := rfl
@[simp] theorem State.modCluster_ring (s : State) (c : Nat) (f : Cluster → Cluster) : (s.modCluster c f).ring = s.ring := rfl
@[simp] theorem State.modCluster_hostOut (s : State) (c : Nat) (f : Cluster → Cluster) : (s.modCluster c f).hostOut = s.hostOut := rfl

/-! ## State.modCore -/

@[simp] theorem State.modCore_now (s : State) (c : Nat) (f : Core → Core) : (s.modCore c f).now = s.now := rfl
@[simp] theorem State.modCore_free (s : State) (c : Nat) (f : Core → Core) : (s.modCore c f).free = s.free := rfl
@[simp] theorem State.modCore_sel (s : State) (c : Nat) (f : Core → Core) : (s.modCore c f).sel = s.sel := rfl
@[simp] theorem State.modCore_agenda (s : State) (c : Nat) (f : Core → Core) : (s.modCore c f).agenda = s.agenda := rfl
@[simp] theorem State.modCore_pkg (s : State) (c : Nat) (f : Core → Core) : (s.modCore c f).pkg = s.pkg := rfl
@[simp] theorem State.modCore_mem (s : State) (c : Nat) (f : Core → Core) : (s.modCore c f).mem = s.mem := rfl
@[simp] theorem State.modCore_memBad (s : State) (c : Nat) (f : Core → Core) : (s.modCore c f).memBad = s.memBad := rfl
@[simp] theorem State.modCore_dies (s : State) (c : Nat) (f : Core → Core) : (s.modCore c f).dies = s.dies := rfl
@[simp] theorem State.modCore_cores (s : State) (c : Nat) (f : Core → Core) : (s.modCore c f).cores = Map.put s.cores c (f (s.core c)) := rfl
@[simp] theorem State.modCore_ctxs (s : State) (c : Nat) (f : Core → Core) : (s.modCore c f).ctxs = s.ctxs := rfl
@[simp] theorem State.modCore_teams (s : State) (c : Nat) (f : Core → Core) : (s.modCore c f).teams = s.teams := rfl
@[simp] theorem State.modCore_clusters (s : State) (c : Nat) (f : Core → Core) : (s.modCore c f).clusters = s.clusters := rfl
@[simp] theorem State.modCore_launches (s : State) (c : Nat) (f : Core → Core) : (s.modCore c f).launches = s.launches := rfl
@[simp] theorem State.modCore_queues (s : State) (c : Nat) (f : Core → Core) : (s.modCore c f).queues = s.queues := rfl
@[simp] theorem State.modCore_nextLaunch (s : State) (c : Nat) (f : Core → Core) : (s.modCore c f).nextLaunch = s.nextLaunch := rfl
@[simp] theorem State.modCore_nextTeamId (s : State) (c : Nat) (f : Core → Core) : (s.modCore c f).nextTeamId = s.nextTeamId := rfl
@[simp] theorem State.modCore_nextMark (s : State) (c : Nat) (f : Core → Core) : (s.modCore c f).nextMark = s.nextMark := rfl
@[simp] theorem State.modCore_invals (s : State) (c : Nat) (f : Core → Core) : (s.modCore c f).invals = s.invals := rfl
@[simp] theorem State.modCore_nextInval (s : State) (c : Nat) (f : Core → Core) : (s.modCore c f).nextInval = s.nextInval := rfl
@[simp] theorem State.modCore_partWait (s : State) (c : Nat) (f : Core → Core) : (s.modCore c f).partWait = s.partWait := rfl
@[simp] theorem State.modCore_pkgNum (s : State) (c : Nat) (f : Core → Core) : (s.modCore c f).pkgNum = s.pkgNum := rfl
@[simp] theorem State.modCore_peers (s : State) (c : Nat) (f : Core → Core) : (s.modCore c f).peers = s.peers := rfl
@[simp] theorem State.modCore_links (s : State) (c : Nat) (f : Core → Core) : (s.modCore c f).links = s.links := rfl
@[simp] theorem State.modCore_ports (s : State) (c : Nat) (f : Core → Core) : (s.modCore c f).ports = s.ports := rfl
@[simp] theorem State.modCore_store (s : State) (c : Nat) (f : Core → Core) : (s.modCore c f).store = s.store := rfl
@[simp] theorem State.modCore_replies (s : State) (c : Nat) (f : Core → Core) : (s.modCore c f).replies = s.replies := rfl
@[simp] theorem State.modCore_nextPkt (s : State) (c : Nat) (f : Core → Core) : (s.modCore c f).nextPkt = s.nextPkt := rfl
@[simp] theorem State.modCore_rounds (s : State) (c : Nat) (f : Core → Core) : (s.modCore c f).rounds = s.rounds := rfl
@[simp] theorem State.modCore_wins (s : State) (c : Nat) (f : Core → Core) : (s.modCore c f).wins = s.wins := rfl
@[simp] theorem State.modCore_sigs (s : State) (c : Nat) (f : Core → Core) : (s.modCore c f).sigs = s.sigs := rfl
@[simp] theorem State.modCore_outbox (s : State) (c : Nat) (f : Core → Core) : (s.modCore c f).outbox = s.outbox := rfl
@[simp] theorem State.modCore_grants (s : State) (c : Nat) (f : Core → Core) : (s.modCore c f).grants = s.grants := rfl
@[simp] theorem State.modCore_demand (s : State) (c : Nat) (f : Core → Core) : (s.modCore c f).demand = s.demand := rfl
@[simp] theorem State.modCore_past (s : State) (c : Nat) (f : Core → Core) : (s.modCore c f).past = s.past := rfl
@[simp] theorem State.modCore_manifest (s : State) (c : Nat) (f : Core → Core) : (s.modCore c f).manifest = s.manifest := rfl
@[simp] theorem State.modCore_manSig (s : State) (c : Nat) (f : Core → Core) : (s.modCore c f).manSig = s.manSig := rfl
@[simp] theorem State.modCore_manKey (s : State) (c : Nat) (f : Core → Core) : (s.modCore c f).manKey = s.manKey := rfl
@[simp] theorem State.modCore_nextManifest (s : State) (c : Nat) (f : Core → Core) : (s.modCore c f).nextManifest = s.nextManifest := rfl
@[simp] theorem State.modCore_manifestOk (s : State) (c : Nat) (f : Core → Core) : (s.modCore c f).manifestOk = s.manifestOk := rfl
@[simp] theorem State.modCore_image (s : State) (c : Nat) (f : Core → Core) : (s.modCore c f).image = s.image := rfl
@[simp] theorem State.modCore_imageSig (s : State) (c : Nat) (f : Core → Core) : (s.modCore c f).imageSig = s.imageSig := rfl
@[simp] theorem State.modCore_fwOk (s : State) (c : Nat) (f : Core → Core) : (s.modCore c f).fwOk = s.fwOk := rfl
@[simp] theorem State.modCore_badStep (s : State) (c : Nat) (f : Core → Core) : (s.modCore c f).badStep = s.badStep := rfl
@[simp] theorem State.modCore_identity (s : State) (c : Nat) (f : Core → Core) : (s.modCore c f).identity = s.identity := rfl
@[simp] theorem State.modCore_sessionKeys (s : State) (c : Nat) (f : Core → Core) : (s.modCore c f).sessionKeys = s.sessionKeys := rfl
@[simp] theorem State.modCore_tdis (s : State) (c : Nat) (f : Core → Core) : (s.modCore c f).tdis = s.tdis := rfl
@[simp] theorem State.modCore_stopping (s : State) (c : Nat) (f : Core → Core) : (s.modCore c f).stopping = s.stopping := rfl
@[simp] theorem State.modCore_coreVf (s : State) (c : Nat) (f : Core → Core) : (s.modCore c f).coreVf = s.coreVf := rfl
@[simp] theorem State.modCore_queueVf (s : State) (c : Nat) (f : Core → Core) : (s.modCore c f).queueVf = s.queueVf := rfl
@[simp] theorem State.modCore_ring (s : State) (c : Nat) (f : Core → Core) : (s.modCore c f).ring = s.ring := rfl
@[simp] theorem State.modCore_hostOut (s : State) (c : Nat) (f : Core → Core) : (s.modCore c f).hostOut = s.hostOut := rfl

/-! ## State.modDie -/

@[simp] theorem State.modDie_now (s : State) (d : Nat) (f : Die → Die) : (s.modDie d f).now = s.now := rfl
@[simp] theorem State.modDie_free (s : State) (d : Nat) (f : Die → Die) : (s.modDie d f).free = s.free := rfl
@[simp] theorem State.modDie_sel (s : State) (d : Nat) (f : Die → Die) : (s.modDie d f).sel = s.sel := rfl
@[simp] theorem State.modDie_agenda (s : State) (d : Nat) (f : Die → Die) : (s.modDie d f).agenda = s.agenda := rfl
@[simp] theorem State.modDie_pkg (s : State) (d : Nat) (f : Die → Die) : (s.modDie d f).pkg = s.pkg := rfl
@[simp] theorem State.modDie_mem (s : State) (d : Nat) (f : Die → Die) : (s.modDie d f).mem = s.mem := rfl
@[simp] theorem State.modDie_memBad (s : State) (d : Nat) (f : Die → Die) : (s.modDie d f).memBad = s.memBad := rfl
@[simp] theorem State.modDie_dies (s : State) (d : Nat) (f : Die → Die) : (s.modDie d f).dies = s.dies.modify d f := rfl
@[simp] theorem State.modDie_cores (s : State) (d : Nat) (f : Die → Die) : (s.modDie d f).cores = s.cores := rfl
@[simp] theorem State.modDie_ctxs (s : State) (d : Nat) (f : Die → Die) : (s.modDie d f).ctxs = s.ctxs := rfl
@[simp] theorem State.modDie_teams (s : State) (d : Nat) (f : Die → Die) : (s.modDie d f).teams = s.teams := rfl
@[simp] theorem State.modDie_clusters (s : State) (d : Nat) (f : Die → Die) : (s.modDie d f).clusters = s.clusters := rfl
@[simp] theorem State.modDie_launches (s : State) (d : Nat) (f : Die → Die) : (s.modDie d f).launches = s.launches := rfl
@[simp] theorem State.modDie_queues (s : State) (d : Nat) (f : Die → Die) : (s.modDie d f).queues = s.queues := rfl
@[simp] theorem State.modDie_nextLaunch (s : State) (d : Nat) (f : Die → Die) : (s.modDie d f).nextLaunch = s.nextLaunch := rfl
@[simp] theorem State.modDie_nextTeamId (s : State) (d : Nat) (f : Die → Die) : (s.modDie d f).nextTeamId = s.nextTeamId := rfl
@[simp] theorem State.modDie_nextMark (s : State) (d : Nat) (f : Die → Die) : (s.modDie d f).nextMark = s.nextMark := rfl
@[simp] theorem State.modDie_invals (s : State) (d : Nat) (f : Die → Die) : (s.modDie d f).invals = s.invals := rfl
@[simp] theorem State.modDie_nextInval (s : State) (d : Nat) (f : Die → Die) : (s.modDie d f).nextInval = s.nextInval := rfl
@[simp] theorem State.modDie_partWait (s : State) (d : Nat) (f : Die → Die) : (s.modDie d f).partWait = s.partWait := rfl
@[simp] theorem State.modDie_pkgNum (s : State) (d : Nat) (f : Die → Die) : (s.modDie d f).pkgNum = s.pkgNum := rfl
@[simp] theorem State.modDie_peers (s : State) (d : Nat) (f : Die → Die) : (s.modDie d f).peers = s.peers := rfl
@[simp] theorem State.modDie_links (s : State) (d : Nat) (f : Die → Die) : (s.modDie d f).links = s.links := rfl
@[simp] theorem State.modDie_ports (s : State) (d : Nat) (f : Die → Die) : (s.modDie d f).ports = s.ports := rfl
@[simp] theorem State.modDie_store (s : State) (d : Nat) (f : Die → Die) : (s.modDie d f).store = s.store := rfl
@[simp] theorem State.modDie_replies (s : State) (d : Nat) (f : Die → Die) : (s.modDie d f).replies = s.replies := rfl
@[simp] theorem State.modDie_nextPkt (s : State) (d : Nat) (f : Die → Die) : (s.modDie d f).nextPkt = s.nextPkt := rfl
@[simp] theorem State.modDie_rounds (s : State) (d : Nat) (f : Die → Die) : (s.modDie d f).rounds = s.rounds := rfl
@[simp] theorem State.modDie_wins (s : State) (d : Nat) (f : Die → Die) : (s.modDie d f).wins = s.wins := rfl
@[simp] theorem State.modDie_sigs (s : State) (d : Nat) (f : Die → Die) : (s.modDie d f).sigs = s.sigs := rfl
@[simp] theorem State.modDie_outbox (s : State) (d : Nat) (f : Die → Die) : (s.modDie d f).outbox = s.outbox := rfl
@[simp] theorem State.modDie_grants (s : State) (d : Nat) (f : Die → Die) : (s.modDie d f).grants = s.grants := rfl
@[simp] theorem State.modDie_demand (s : State) (d : Nat) (f : Die → Die) : (s.modDie d f).demand = s.demand := rfl
@[simp] theorem State.modDie_past (s : State) (d : Nat) (f : Die → Die) : (s.modDie d f).past = s.past := rfl
@[simp] theorem State.modDie_manifest (s : State) (d : Nat) (f : Die → Die) : (s.modDie d f).manifest = s.manifest := rfl
@[simp] theorem State.modDie_manSig (s : State) (d : Nat) (f : Die → Die) : (s.modDie d f).manSig = s.manSig := rfl
@[simp] theorem State.modDie_manKey (s : State) (d : Nat) (f : Die → Die) : (s.modDie d f).manKey = s.manKey := rfl
@[simp] theorem State.modDie_nextManifest (s : State) (d : Nat) (f : Die → Die) : (s.modDie d f).nextManifest = s.nextManifest := rfl
@[simp] theorem State.modDie_manifestOk (s : State) (d : Nat) (f : Die → Die) : (s.modDie d f).manifestOk = s.manifestOk := rfl
@[simp] theorem State.modDie_image (s : State) (d : Nat) (f : Die → Die) : (s.modDie d f).image = s.image := rfl
@[simp] theorem State.modDie_imageSig (s : State) (d : Nat) (f : Die → Die) : (s.modDie d f).imageSig = s.imageSig := rfl
@[simp] theorem State.modDie_fwOk (s : State) (d : Nat) (f : Die → Die) : (s.modDie d f).fwOk = s.fwOk := rfl
@[simp] theorem State.modDie_badStep (s : State) (d : Nat) (f : Die → Die) : (s.modDie d f).badStep = s.badStep := rfl
@[simp] theorem State.modDie_identity (s : State) (d : Nat) (f : Die → Die) : (s.modDie d f).identity = s.identity := rfl
@[simp] theorem State.modDie_sessionKeys (s : State) (d : Nat) (f : Die → Die) : (s.modDie d f).sessionKeys = s.sessionKeys := rfl
@[simp] theorem State.modDie_tdis (s : State) (d : Nat) (f : Die → Die) : (s.modDie d f).tdis = s.tdis := rfl
@[simp] theorem State.modDie_stopping (s : State) (d : Nat) (f : Die → Die) : (s.modDie d f).stopping = s.stopping := rfl
@[simp] theorem State.modDie_coreVf (s : State) (d : Nat) (f : Die → Die) : (s.modDie d f).coreVf = s.coreVf := rfl
@[simp] theorem State.modDie_queueVf (s : State) (d : Nat) (f : Die → Die) : (s.modDie d f).queueVf = s.queueVf := rfl
@[simp] theorem State.modDie_ring (s : State) (d : Nat) (f : Die → Die) : (s.modDie d f).ring = s.ring := rfl
@[simp] theorem State.modDie_hostOut (s : State) (d : Nat) (f : Die → Die) : (s.modDie d f).hostOut = s.hostOut := rfl

/-! ## State.modQueue -/

@[simp] theorem State.modQueue_now (s : State) (q : Nat) (f : LQueue → LQueue) : (s.modQueue q f).now = s.now := rfl
@[simp] theorem State.modQueue_free (s : State) (q : Nat) (f : LQueue → LQueue) : (s.modQueue q f).free = s.free := rfl
@[simp] theorem State.modQueue_sel (s : State) (q : Nat) (f : LQueue → LQueue) : (s.modQueue q f).sel = s.sel := rfl
@[simp] theorem State.modQueue_agenda (s : State) (q : Nat) (f : LQueue → LQueue) : (s.modQueue q f).agenda = s.agenda := rfl
@[simp] theorem State.modQueue_pkg (s : State) (q : Nat) (f : LQueue → LQueue) : (s.modQueue q f).pkg = s.pkg := rfl
@[simp] theorem State.modQueue_mem (s : State) (q : Nat) (f : LQueue → LQueue) : (s.modQueue q f).mem = s.mem := rfl
@[simp] theorem State.modQueue_memBad (s : State) (q : Nat) (f : LQueue → LQueue) : (s.modQueue q f).memBad = s.memBad := rfl
@[simp] theorem State.modQueue_dies (s : State) (q : Nat) (f : LQueue → LQueue) : (s.modQueue q f).dies = s.dies := rfl
@[simp] theorem State.modQueue_cores (s : State) (q : Nat) (f : LQueue → LQueue) : (s.modQueue q f).cores = s.cores := rfl
@[simp] theorem State.modQueue_ctxs (s : State) (q : Nat) (f : LQueue → LQueue) : (s.modQueue q f).ctxs = s.ctxs := rfl
@[simp] theorem State.modQueue_teams (s : State) (q : Nat) (f : LQueue → LQueue) : (s.modQueue q f).teams = s.teams := rfl
@[simp] theorem State.modQueue_clusters (s : State) (q : Nat) (f : LQueue → LQueue) : (s.modQueue q f).clusters = s.clusters := rfl
@[simp] theorem State.modQueue_launches (s : State) (q : Nat) (f : LQueue → LQueue) : (s.modQueue q f).launches = s.launches := rfl
@[simp] theorem State.modQueue_queues (s : State) (q : Nat) (f : LQueue → LQueue) : (s.modQueue q f).queues = Map.put s.queues q (f (s.queue q)) := rfl
@[simp] theorem State.modQueue_nextLaunch (s : State) (q : Nat) (f : LQueue → LQueue) : (s.modQueue q f).nextLaunch = s.nextLaunch := rfl
@[simp] theorem State.modQueue_nextTeamId (s : State) (q : Nat) (f : LQueue → LQueue) : (s.modQueue q f).nextTeamId = s.nextTeamId := rfl
@[simp] theorem State.modQueue_nextMark (s : State) (q : Nat) (f : LQueue → LQueue) : (s.modQueue q f).nextMark = s.nextMark := rfl
@[simp] theorem State.modQueue_invals (s : State) (q : Nat) (f : LQueue → LQueue) : (s.modQueue q f).invals = s.invals := rfl
@[simp] theorem State.modQueue_nextInval (s : State) (q : Nat) (f : LQueue → LQueue) : (s.modQueue q f).nextInval = s.nextInval := rfl
@[simp] theorem State.modQueue_partWait (s : State) (q : Nat) (f : LQueue → LQueue) : (s.modQueue q f).partWait = s.partWait := rfl
@[simp] theorem State.modQueue_pkgNum (s : State) (q : Nat) (f : LQueue → LQueue) : (s.modQueue q f).pkgNum = s.pkgNum := rfl
@[simp] theorem State.modQueue_peers (s : State) (q : Nat) (f : LQueue → LQueue) : (s.modQueue q f).peers = s.peers := rfl
@[simp] theorem State.modQueue_links (s : State) (q : Nat) (f : LQueue → LQueue) : (s.modQueue q f).links = s.links := rfl
@[simp] theorem State.modQueue_ports (s : State) (q : Nat) (f : LQueue → LQueue) : (s.modQueue q f).ports = s.ports := rfl
@[simp] theorem State.modQueue_store (s : State) (q : Nat) (f : LQueue → LQueue) : (s.modQueue q f).store = s.store := rfl
@[simp] theorem State.modQueue_replies (s : State) (q : Nat) (f : LQueue → LQueue) : (s.modQueue q f).replies = s.replies := rfl
@[simp] theorem State.modQueue_nextPkt (s : State) (q : Nat) (f : LQueue → LQueue) : (s.modQueue q f).nextPkt = s.nextPkt := rfl
@[simp] theorem State.modQueue_rounds (s : State) (q : Nat) (f : LQueue → LQueue) : (s.modQueue q f).rounds = s.rounds := rfl
@[simp] theorem State.modQueue_wins (s : State) (q : Nat) (f : LQueue → LQueue) : (s.modQueue q f).wins = s.wins := rfl
@[simp] theorem State.modQueue_sigs (s : State) (q : Nat) (f : LQueue → LQueue) : (s.modQueue q f).sigs = s.sigs := rfl
@[simp] theorem State.modQueue_outbox (s : State) (q : Nat) (f : LQueue → LQueue) : (s.modQueue q f).outbox = s.outbox := rfl
@[simp] theorem State.modQueue_grants (s : State) (q : Nat) (f : LQueue → LQueue) : (s.modQueue q f).grants = s.grants := rfl
@[simp] theorem State.modQueue_demand (s : State) (q : Nat) (f : LQueue → LQueue) : (s.modQueue q f).demand = s.demand := rfl
@[simp] theorem State.modQueue_past (s : State) (q : Nat) (f : LQueue → LQueue) : (s.modQueue q f).past = s.past := rfl
@[simp] theorem State.modQueue_manifest (s : State) (q : Nat) (f : LQueue → LQueue) : (s.modQueue q f).manifest = s.manifest := rfl
@[simp] theorem State.modQueue_manSig (s : State) (q : Nat) (f : LQueue → LQueue) : (s.modQueue q f).manSig = s.manSig := rfl
@[simp] theorem State.modQueue_manKey (s : State) (q : Nat) (f : LQueue → LQueue) : (s.modQueue q f).manKey = s.manKey := rfl
@[simp] theorem State.modQueue_nextManifest (s : State) (q : Nat) (f : LQueue → LQueue) : (s.modQueue q f).nextManifest = s.nextManifest := rfl
@[simp] theorem State.modQueue_manifestOk (s : State) (q : Nat) (f : LQueue → LQueue) : (s.modQueue q f).manifestOk = s.manifestOk := rfl
@[simp] theorem State.modQueue_image (s : State) (q : Nat) (f : LQueue → LQueue) : (s.modQueue q f).image = s.image := rfl
@[simp] theorem State.modQueue_imageSig (s : State) (q : Nat) (f : LQueue → LQueue) : (s.modQueue q f).imageSig = s.imageSig := rfl
@[simp] theorem State.modQueue_fwOk (s : State) (q : Nat) (f : LQueue → LQueue) : (s.modQueue q f).fwOk = s.fwOk := rfl
@[simp] theorem State.modQueue_badStep (s : State) (q : Nat) (f : LQueue → LQueue) : (s.modQueue q f).badStep = s.badStep := rfl
@[simp] theorem State.modQueue_identity (s : State) (q : Nat) (f : LQueue → LQueue) : (s.modQueue q f).identity = s.identity := rfl
@[simp] theorem State.modQueue_sessionKeys (s : State) (q : Nat) (f : LQueue → LQueue) : (s.modQueue q f).sessionKeys = s.sessionKeys := rfl
@[simp] theorem State.modQueue_tdis (s : State) (q : Nat) (f : LQueue → LQueue) : (s.modQueue q f).tdis = s.tdis := rfl
@[simp] theorem State.modQueue_stopping (s : State) (q : Nat) (f : LQueue → LQueue) : (s.modQueue q f).stopping = s.stopping := rfl
@[simp] theorem State.modQueue_coreVf (s : State) (q : Nat) (f : LQueue → LQueue) : (s.modQueue q f).coreVf = s.coreVf := rfl
@[simp] theorem State.modQueue_queueVf (s : State) (q : Nat) (f : LQueue → LQueue) : (s.modQueue q f).queueVf = s.queueVf := rfl
@[simp] theorem State.modQueue_ring (s : State) (q : Nat) (f : LQueue → LQueue) : (s.modQueue q f).ring = s.ring := rfl
@[simp] theorem State.modQueue_hostOut (s : State) (q : Nat) (f : LQueue → LQueue) : (s.modQueue q f).hostOut = s.hostOut := rfl

/-! ## State.tell -/

@[simp] theorem State.tell_now (s : State) (m : HostMsg) : (s.tell m).now = s.now := rfl
@[simp] theorem State.tell_free (s : State) (m : HostMsg) : (s.tell m).free = s.free := rfl
@[simp] theorem State.tell_sel (s : State) (m : HostMsg) : (s.tell m).sel = s.sel := rfl
@[simp] theorem State.tell_agenda (s : State) (m : HostMsg) : (s.tell m).agenda = s.agenda := rfl
@[simp] theorem State.tell_pkg (s : State) (m : HostMsg) : (s.tell m).pkg = s.pkg := rfl
@[simp] theorem State.tell_mem (s : State) (m : HostMsg) : (s.tell m).mem = s.mem := rfl
@[simp] theorem State.tell_memBad (s : State) (m : HostMsg) : (s.tell m).memBad = s.memBad := rfl
@[simp] theorem State.tell_dies (s : State) (m : HostMsg) : (s.tell m).dies = s.dies := rfl
@[simp] theorem State.tell_cores (s : State) (m : HostMsg) : (s.tell m).cores = s.cores := rfl
@[simp] theorem State.tell_ctxs (s : State) (m : HostMsg) : (s.tell m).ctxs = s.ctxs := rfl
@[simp] theorem State.tell_teams (s : State) (m : HostMsg) : (s.tell m).teams = s.teams := rfl
@[simp] theorem State.tell_clusters (s : State) (m : HostMsg) : (s.tell m).clusters = s.clusters := rfl
@[simp] theorem State.tell_launches (s : State) (m : HostMsg) : (s.tell m).launches = s.launches := rfl
@[simp] theorem State.tell_queues (s : State) (m : HostMsg) : (s.tell m).queues = s.queues := rfl
@[simp] theorem State.tell_nextLaunch (s : State) (m : HostMsg) : (s.tell m).nextLaunch = s.nextLaunch := rfl
@[simp] theorem State.tell_nextTeamId (s : State) (m : HostMsg) : (s.tell m).nextTeamId = s.nextTeamId := rfl
@[simp] theorem State.tell_nextMark (s : State) (m : HostMsg) : (s.tell m).nextMark = s.nextMark := rfl
@[simp] theorem State.tell_invals (s : State) (m : HostMsg) : (s.tell m).invals = s.invals := rfl
@[simp] theorem State.tell_nextInval (s : State) (m : HostMsg) : (s.tell m).nextInval = s.nextInval := rfl
@[simp] theorem State.tell_partWait (s : State) (m : HostMsg) : (s.tell m).partWait = s.partWait := rfl
@[simp] theorem State.tell_pkgNum (s : State) (m : HostMsg) : (s.tell m).pkgNum = s.pkgNum := rfl
@[simp] theorem State.tell_peers (s : State) (m : HostMsg) : (s.tell m).peers = s.peers := rfl
@[simp] theorem State.tell_links (s : State) (m : HostMsg) : (s.tell m).links = s.links := rfl
@[simp] theorem State.tell_ports (s : State) (m : HostMsg) : (s.tell m).ports = s.ports := rfl
@[simp] theorem State.tell_store (s : State) (m : HostMsg) : (s.tell m).store = s.store := rfl
@[simp] theorem State.tell_replies (s : State) (m : HostMsg) : (s.tell m).replies = s.replies := rfl
@[simp] theorem State.tell_nextPkt (s : State) (m : HostMsg) : (s.tell m).nextPkt = s.nextPkt := rfl
@[simp] theorem State.tell_rounds (s : State) (m : HostMsg) : (s.tell m).rounds = s.rounds := rfl
@[simp] theorem State.tell_wins (s : State) (m : HostMsg) : (s.tell m).wins = s.wins := rfl
@[simp] theorem State.tell_sigs (s : State) (m : HostMsg) : (s.tell m).sigs = s.sigs := rfl
@[simp] theorem State.tell_outbox (s : State) (m : HostMsg) : (s.tell m).outbox = s.outbox := rfl
@[simp] theorem State.tell_grants (s : State) (m : HostMsg) : (s.tell m).grants = s.grants := rfl
@[simp] theorem State.tell_demand (s : State) (m : HostMsg) : (s.tell m).demand = s.demand := rfl
@[simp] theorem State.tell_past (s : State) (m : HostMsg) : (s.tell m).past = s.past := rfl
@[simp] theorem State.tell_manifest (s : State) (m : HostMsg) : (s.tell m).manifest = s.manifest := rfl
@[simp] theorem State.tell_manSig (s : State) (m : HostMsg) : (s.tell m).manSig = s.manSig := rfl
@[simp] theorem State.tell_manKey (s : State) (m : HostMsg) : (s.tell m).manKey = s.manKey := rfl
@[simp] theorem State.tell_nextManifest (s : State) (m : HostMsg) : (s.tell m).nextManifest = s.nextManifest := rfl
@[simp] theorem State.tell_manifestOk (s : State) (m : HostMsg) : (s.tell m).manifestOk = s.manifestOk := rfl
@[simp] theorem State.tell_image (s : State) (m : HostMsg) : (s.tell m).image = s.image := rfl
@[simp] theorem State.tell_imageSig (s : State) (m : HostMsg) : (s.tell m).imageSig = s.imageSig := rfl
@[simp] theorem State.tell_fwOk (s : State) (m : HostMsg) : (s.tell m).fwOk = s.fwOk := rfl
@[simp] theorem State.tell_badStep (s : State) (m : HostMsg) : (s.tell m).badStep = s.badStep := rfl
@[simp] theorem State.tell_identity (s : State) (m : HostMsg) : (s.tell m).identity = s.identity := rfl
@[simp] theorem State.tell_sessionKeys (s : State) (m : HostMsg) : (s.tell m).sessionKeys = s.sessionKeys := rfl
@[simp] theorem State.tell_tdis (s : State) (m : HostMsg) : (s.tell m).tdis = s.tdis := rfl
@[simp] theorem State.tell_stopping (s : State) (m : HostMsg) : (s.tell m).stopping = s.stopping := rfl
@[simp] theorem State.tell_coreVf (s : State) (m : HostMsg) : (s.tell m).coreVf = s.coreVf := rfl
@[simp] theorem State.tell_queueVf (s : State) (m : HostMsg) : (s.tell m).queueVf = s.queueVf := rfl
@[simp] theorem State.tell_ring (s : State) (m : HostMsg) : (s.tell m).ring = s.ring := rfl
@[simp] theorem State.tell_hostOut (s : State) (m : HostMsg) : (s.tell m).hostOut = s.hostOut ++ [m] := rfl

/-! ## State.send -/

@[simp] theorem State.send_now (s : State) (m : Outbox) : (s.send m).now = s.now := rfl
@[simp] theorem State.send_free (s : State) (m : Outbox) : (s.send m).free = s.free := rfl
@[simp] theorem State.send_sel (s : State) (m : Outbox) : (s.send m).sel = s.sel := rfl
@[simp] theorem State.send_agenda (s : State) (m : Outbox) : (s.send m).agenda = s.agenda := rfl
@[simp] theorem State.send_pkg (s : State) (m : Outbox) : (s.send m).pkg = s.pkg := rfl
@[simp] theorem State.send_mem (s : State) (m : Outbox) : (s.send m).mem = s.mem := rfl
@[simp] theorem State.send_memBad (s : State) (m : Outbox) : (s.send m).memBad = s.memBad := rfl
@[simp] theorem State.send_dies (s : State) (m : Outbox) : (s.send m).dies = s.dies := rfl
@[simp] theorem State.send_cores (s : State) (m : Outbox) : (s.send m).cores = s.cores := rfl
@[simp] theorem State.send_ctxs (s : State) (m : Outbox) : (s.send m).ctxs = s.ctxs := rfl
@[simp] theorem State.send_teams (s : State) (m : Outbox) : (s.send m).teams = s.teams := rfl
@[simp] theorem State.send_clusters (s : State) (m : Outbox) : (s.send m).clusters = s.clusters := rfl
@[simp] theorem State.send_launches (s : State) (m : Outbox) : (s.send m).launches = s.launches := rfl
@[simp] theorem State.send_queues (s : State) (m : Outbox) : (s.send m).queues = s.queues := rfl
@[simp] theorem State.send_nextLaunch (s : State) (m : Outbox) : (s.send m).nextLaunch = s.nextLaunch := rfl
@[simp] theorem State.send_nextTeamId (s : State) (m : Outbox) : (s.send m).nextTeamId = s.nextTeamId := rfl
@[simp] theorem State.send_nextMark (s : State) (m : Outbox) : (s.send m).nextMark = s.nextMark := rfl
@[simp] theorem State.send_invals (s : State) (m : Outbox) : (s.send m).invals = s.invals := rfl
@[simp] theorem State.send_nextInval (s : State) (m : Outbox) : (s.send m).nextInval = s.nextInval := rfl
@[simp] theorem State.send_partWait (s : State) (m : Outbox) : (s.send m).partWait = s.partWait := rfl
@[simp] theorem State.send_pkgNum (s : State) (m : Outbox) : (s.send m).pkgNum = s.pkgNum := rfl
@[simp] theorem State.send_peers (s : State) (m : Outbox) : (s.send m).peers = s.peers := rfl
@[simp] theorem State.send_links (s : State) (m : Outbox) : (s.send m).links = s.links := rfl
@[simp] theorem State.send_ports (s : State) (m : Outbox) : (s.send m).ports = s.ports := rfl
@[simp] theorem State.send_store (s : State) (m : Outbox) : (s.send m).store = s.store := rfl
@[simp] theorem State.send_replies (s : State) (m : Outbox) : (s.send m).replies = s.replies := rfl
@[simp] theorem State.send_nextPkt (s : State) (m : Outbox) : (s.send m).nextPkt = s.nextPkt := rfl
@[simp] theorem State.send_rounds (s : State) (m : Outbox) : (s.send m).rounds = s.rounds := rfl
@[simp] theorem State.send_wins (s : State) (m : Outbox) : (s.send m).wins = s.wins := rfl
@[simp] theorem State.send_sigs (s : State) (m : Outbox) : (s.send m).sigs = s.sigs := rfl
@[simp] theorem State.send_outbox (s : State) (m : Outbox) : (s.send m).outbox = s.outbox ++ [m] := rfl
@[simp] theorem State.send_grants (s : State) (m : Outbox) : (s.send m).grants = s.grants := rfl
@[simp] theorem State.send_demand (s : State) (m : Outbox) : (s.send m).demand = s.demand := rfl
@[simp] theorem State.send_past (s : State) (m : Outbox) : (s.send m).past = s.past := rfl
@[simp] theorem State.send_manifest (s : State) (m : Outbox) : (s.send m).manifest = s.manifest := rfl
@[simp] theorem State.send_manSig (s : State) (m : Outbox) : (s.send m).manSig = s.manSig := rfl
@[simp] theorem State.send_manKey (s : State) (m : Outbox) : (s.send m).manKey = s.manKey := rfl
@[simp] theorem State.send_nextManifest (s : State) (m : Outbox) : (s.send m).nextManifest = s.nextManifest := rfl
@[simp] theorem State.send_manifestOk (s : State) (m : Outbox) : (s.send m).manifestOk = s.manifestOk := rfl
@[simp] theorem State.send_image (s : State) (m : Outbox) : (s.send m).image = s.image := rfl
@[simp] theorem State.send_imageSig (s : State) (m : Outbox) : (s.send m).imageSig = s.imageSig := rfl
@[simp] theorem State.send_fwOk (s : State) (m : Outbox) : (s.send m).fwOk = s.fwOk := rfl
@[simp] theorem State.send_badStep (s : State) (m : Outbox) : (s.send m).badStep = s.badStep := rfl
@[simp] theorem State.send_identity (s : State) (m : Outbox) : (s.send m).identity = s.identity := rfl
@[simp] theorem State.send_sessionKeys (s : State) (m : Outbox) : (s.send m).sessionKeys = s.sessionKeys := rfl
@[simp] theorem State.send_tdis (s : State) (m : Outbox) : (s.send m).tdis = s.tdis := rfl
@[simp] theorem State.send_stopping (s : State) (m : Outbox) : (s.send m).stopping = s.stopping := rfl
@[simp] theorem State.send_coreVf (s : State) (m : Outbox) : (s.send m).coreVf = s.coreVf := rfl
@[simp] theorem State.send_queueVf (s : State) (m : Outbox) : (s.send m).queueVf = s.queueVf := rfl
@[simp] theorem State.send_ring (s : State) (m : Outbox) : (s.send m).ring = s.ring := rfl
@[simp] theorem State.send_hostOut (s : State) (m : Outbox) : (s.send m).hostOut = s.hostOut := rfl

/-! ## State.modLink -/

@[simp] theorem State.modLink_now (s : State) (i : Nat) (f : Link → Link) : (s.modLink i f).now = s.now := rfl
@[simp] theorem State.modLink_free (s : State) (i : Nat) (f : Link → Link) : (s.modLink i f).free = s.free := rfl
@[simp] theorem State.modLink_sel (s : State) (i : Nat) (f : Link → Link) : (s.modLink i f).sel = s.sel := rfl
@[simp] theorem State.modLink_agenda (s : State) (i : Nat) (f : Link → Link) : (s.modLink i f).agenda = s.agenda := rfl
@[simp] theorem State.modLink_pkg (s : State) (i : Nat) (f : Link → Link) : (s.modLink i f).pkg = s.pkg := rfl
@[simp] theorem State.modLink_mem (s : State) (i : Nat) (f : Link → Link) : (s.modLink i f).mem = s.mem := rfl
@[simp] theorem State.modLink_memBad (s : State) (i : Nat) (f : Link → Link) : (s.modLink i f).memBad = s.memBad := rfl
@[simp] theorem State.modLink_dies (s : State) (i : Nat) (f : Link → Link) : (s.modLink i f).dies = s.dies := rfl
@[simp] theorem State.modLink_cores (s : State) (i : Nat) (f : Link → Link) : (s.modLink i f).cores = s.cores := rfl
@[simp] theorem State.modLink_ctxs (s : State) (i : Nat) (f : Link → Link) : (s.modLink i f).ctxs = s.ctxs := rfl
@[simp] theorem State.modLink_teams (s : State) (i : Nat) (f : Link → Link) : (s.modLink i f).teams = s.teams := rfl
@[simp] theorem State.modLink_clusters (s : State) (i : Nat) (f : Link → Link) : (s.modLink i f).clusters = s.clusters := rfl
@[simp] theorem State.modLink_launches (s : State) (i : Nat) (f : Link → Link) : (s.modLink i f).launches = s.launches := rfl
@[simp] theorem State.modLink_queues (s : State) (i : Nat) (f : Link → Link) : (s.modLink i f).queues = s.queues := rfl
@[simp] theorem State.modLink_nextLaunch (s : State) (i : Nat) (f : Link → Link) : (s.modLink i f).nextLaunch = s.nextLaunch := rfl
@[simp] theorem State.modLink_nextTeamId (s : State) (i : Nat) (f : Link → Link) : (s.modLink i f).nextTeamId = s.nextTeamId := rfl
@[simp] theorem State.modLink_nextMark (s : State) (i : Nat) (f : Link → Link) : (s.modLink i f).nextMark = s.nextMark := rfl
@[simp] theorem State.modLink_invals (s : State) (i : Nat) (f : Link → Link) : (s.modLink i f).invals = s.invals := rfl
@[simp] theorem State.modLink_nextInval (s : State) (i : Nat) (f : Link → Link) : (s.modLink i f).nextInval = s.nextInval := rfl
@[simp] theorem State.modLink_partWait (s : State) (i : Nat) (f : Link → Link) : (s.modLink i f).partWait = s.partWait := rfl
@[simp] theorem State.modLink_pkgNum (s : State) (i : Nat) (f : Link → Link) : (s.modLink i f).pkgNum = s.pkgNum := rfl
@[simp] theorem State.modLink_peers (s : State) (i : Nat) (f : Link → Link) : (s.modLink i f).peers = s.peers := rfl
@[simp] theorem State.modLink_links (s : State) (i : Nat) (f : Link → Link) : (s.modLink i f).links = s.links.modify i f := rfl
@[simp] theorem State.modLink_ports (s : State) (i : Nat) (f : Link → Link) : (s.modLink i f).ports = s.ports := rfl
@[simp] theorem State.modLink_store (s : State) (i : Nat) (f : Link → Link) : (s.modLink i f).store = s.store := rfl
@[simp] theorem State.modLink_replies (s : State) (i : Nat) (f : Link → Link) : (s.modLink i f).replies = s.replies := rfl
@[simp] theorem State.modLink_nextPkt (s : State) (i : Nat) (f : Link → Link) : (s.modLink i f).nextPkt = s.nextPkt := rfl
@[simp] theorem State.modLink_rounds (s : State) (i : Nat) (f : Link → Link) : (s.modLink i f).rounds = s.rounds := rfl
@[simp] theorem State.modLink_wins (s : State) (i : Nat) (f : Link → Link) : (s.modLink i f).wins = s.wins := rfl
@[simp] theorem State.modLink_sigs (s : State) (i : Nat) (f : Link → Link) : (s.modLink i f).sigs = s.sigs := rfl
@[simp] theorem State.modLink_outbox (s : State) (i : Nat) (f : Link → Link) : (s.modLink i f).outbox = s.outbox := rfl
@[simp] theorem State.modLink_grants (s : State) (i : Nat) (f : Link → Link) : (s.modLink i f).grants = s.grants := rfl
@[simp] theorem State.modLink_demand (s : State) (i : Nat) (f : Link → Link) : (s.modLink i f).demand = s.demand := rfl
@[simp] theorem State.modLink_past (s : State) (i : Nat) (f : Link → Link) : (s.modLink i f).past = s.past := rfl
@[simp] theorem State.modLink_manifest (s : State) (i : Nat) (f : Link → Link) : (s.modLink i f).manifest = s.manifest := rfl
@[simp] theorem State.modLink_manSig (s : State) (i : Nat) (f : Link → Link) : (s.modLink i f).manSig = s.manSig := rfl
@[simp] theorem State.modLink_manKey (s : State) (i : Nat) (f : Link → Link) : (s.modLink i f).manKey = s.manKey := rfl
@[simp] theorem State.modLink_nextManifest (s : State) (i : Nat) (f : Link → Link) : (s.modLink i f).nextManifest = s.nextManifest := rfl
@[simp] theorem State.modLink_manifestOk (s : State) (i : Nat) (f : Link → Link) : (s.modLink i f).manifestOk = s.manifestOk := rfl
@[simp] theorem State.modLink_image (s : State) (i : Nat) (f : Link → Link) : (s.modLink i f).image = s.image := rfl
@[simp] theorem State.modLink_imageSig (s : State) (i : Nat) (f : Link → Link) : (s.modLink i f).imageSig = s.imageSig := rfl
@[simp] theorem State.modLink_fwOk (s : State) (i : Nat) (f : Link → Link) : (s.modLink i f).fwOk = s.fwOk := rfl
@[simp] theorem State.modLink_badStep (s : State) (i : Nat) (f : Link → Link) : (s.modLink i f).badStep = s.badStep := rfl
@[simp] theorem State.modLink_identity (s : State) (i : Nat) (f : Link → Link) : (s.modLink i f).identity = s.identity := rfl
@[simp] theorem State.modLink_sessionKeys (s : State) (i : Nat) (f : Link → Link) : (s.modLink i f).sessionKeys = s.sessionKeys := rfl
@[simp] theorem State.modLink_tdis (s : State) (i : Nat) (f : Link → Link) : (s.modLink i f).tdis = s.tdis := rfl
@[simp] theorem State.modLink_stopping (s : State) (i : Nat) (f : Link → Link) : (s.modLink i f).stopping = s.stopping := rfl
@[simp] theorem State.modLink_coreVf (s : State) (i : Nat) (f : Link → Link) : (s.modLink i f).coreVf = s.coreVf := rfl
@[simp] theorem State.modLink_queueVf (s : State) (i : Nat) (f : Link → Link) : (s.modLink i f).queueVf = s.queueVf := rfl
@[simp] theorem State.modLink_ring (s : State) (i : Nat) (f : Link → Link) : (s.modLink i f).ring = s.ring := rfl
@[simp] theorem State.modLink_hostOut (s : State) (i : Nat) (f : Link → Link) : (s.modLink i f).hostOut = s.hostOut := rfl

/-! ## State.modPeer -/

@[simp] theorem State.modPeer_now (s : State) (p : Nat) (f : PeerTab → PeerTab) : (s.modPeer p f).now = s.now := rfl
@[simp] theorem State.modPeer_free (s : State) (p : Nat) (f : PeerTab → PeerTab) : (s.modPeer p f).free = s.free := rfl
@[simp] theorem State.modPeer_sel (s : State) (p : Nat) (f : PeerTab → PeerTab) : (s.modPeer p f).sel = s.sel := rfl
@[simp] theorem State.modPeer_agenda (s : State) (p : Nat) (f : PeerTab → PeerTab) : (s.modPeer p f).agenda = s.agenda := rfl
@[simp] theorem State.modPeer_pkg (s : State) (p : Nat) (f : PeerTab → PeerTab) : (s.modPeer p f).pkg = s.pkg := rfl
@[simp] theorem State.modPeer_mem (s : State) (p : Nat) (f : PeerTab → PeerTab) : (s.modPeer p f).mem = s.mem := rfl
@[simp] theorem State.modPeer_memBad (s : State) (p : Nat) (f : PeerTab → PeerTab) : (s.modPeer p f).memBad = s.memBad := rfl
@[simp] theorem State.modPeer_dies (s : State) (p : Nat) (f : PeerTab → PeerTab) : (s.modPeer p f).dies = s.dies := rfl
@[simp] theorem State.modPeer_cores (s : State) (p : Nat) (f : PeerTab → PeerTab) : (s.modPeer p f).cores = s.cores := rfl
@[simp] theorem State.modPeer_ctxs (s : State) (p : Nat) (f : PeerTab → PeerTab) : (s.modPeer p f).ctxs = s.ctxs := rfl
@[simp] theorem State.modPeer_teams (s : State) (p : Nat) (f : PeerTab → PeerTab) : (s.modPeer p f).teams = s.teams := rfl
@[simp] theorem State.modPeer_clusters (s : State) (p : Nat) (f : PeerTab → PeerTab) : (s.modPeer p f).clusters = s.clusters := rfl
@[simp] theorem State.modPeer_launches (s : State) (p : Nat) (f : PeerTab → PeerTab) : (s.modPeer p f).launches = s.launches := rfl
@[simp] theorem State.modPeer_queues (s : State) (p : Nat) (f : PeerTab → PeerTab) : (s.modPeer p f).queues = s.queues := rfl
@[simp] theorem State.modPeer_nextLaunch (s : State) (p : Nat) (f : PeerTab → PeerTab) : (s.modPeer p f).nextLaunch = s.nextLaunch := rfl
@[simp] theorem State.modPeer_nextTeamId (s : State) (p : Nat) (f : PeerTab → PeerTab) : (s.modPeer p f).nextTeamId = s.nextTeamId := rfl
@[simp] theorem State.modPeer_nextMark (s : State) (p : Nat) (f : PeerTab → PeerTab) : (s.modPeer p f).nextMark = s.nextMark := rfl
@[simp] theorem State.modPeer_invals (s : State) (p : Nat) (f : PeerTab → PeerTab) : (s.modPeer p f).invals = s.invals := rfl
@[simp] theorem State.modPeer_nextInval (s : State) (p : Nat) (f : PeerTab → PeerTab) : (s.modPeer p f).nextInval = s.nextInval := rfl
@[simp] theorem State.modPeer_partWait (s : State) (p : Nat) (f : PeerTab → PeerTab) : (s.modPeer p f).partWait = s.partWait := rfl
@[simp] theorem State.modPeer_pkgNum (s : State) (p : Nat) (f : PeerTab → PeerTab) : (s.modPeer p f).pkgNum = s.pkgNum := rfl
@[simp] theorem State.modPeer_links (s : State) (p : Nat) (f : PeerTab → PeerTab) : (s.modPeer p f).links = s.links := rfl
@[simp] theorem State.modPeer_ports (s : State) (p : Nat) (f : PeerTab → PeerTab) : (s.modPeer p f).ports = s.ports := rfl
@[simp] theorem State.modPeer_store (s : State) (p : Nat) (f : PeerTab → PeerTab) : (s.modPeer p f).store = s.store := rfl
@[simp] theorem State.modPeer_replies (s : State) (p : Nat) (f : PeerTab → PeerTab) : (s.modPeer p f).replies = s.replies := rfl
@[simp] theorem State.modPeer_nextPkt (s : State) (p : Nat) (f : PeerTab → PeerTab) : (s.modPeer p f).nextPkt = s.nextPkt := rfl
@[simp] theorem State.modPeer_rounds (s : State) (p : Nat) (f : PeerTab → PeerTab) : (s.modPeer p f).rounds = s.rounds := rfl
@[simp] theorem State.modPeer_wins (s : State) (p : Nat) (f : PeerTab → PeerTab) : (s.modPeer p f).wins = s.wins := rfl
@[simp] theorem State.modPeer_sigs (s : State) (p : Nat) (f : PeerTab → PeerTab) : (s.modPeer p f).sigs = s.sigs := rfl
@[simp] theorem State.modPeer_outbox (s : State) (p : Nat) (f : PeerTab → PeerTab) : (s.modPeer p f).outbox = s.outbox := rfl
@[simp] theorem State.modPeer_grants (s : State) (p : Nat) (f : PeerTab → PeerTab) : (s.modPeer p f).grants = s.grants := rfl
@[simp] theorem State.modPeer_demand (s : State) (p : Nat) (f : PeerTab → PeerTab) : (s.modPeer p f).demand = s.demand := rfl
@[simp] theorem State.modPeer_past (s : State) (p : Nat) (f : PeerTab → PeerTab) : (s.modPeer p f).past = s.past := rfl
@[simp] theorem State.modPeer_manifest (s : State) (p : Nat) (f : PeerTab → PeerTab) : (s.modPeer p f).manifest = s.manifest := rfl
@[simp] theorem State.modPeer_manSig (s : State) (p : Nat) (f : PeerTab → PeerTab) : (s.modPeer p f).manSig = s.manSig := rfl
@[simp] theorem State.modPeer_manKey (s : State) (p : Nat) (f : PeerTab → PeerTab) : (s.modPeer p f).manKey = s.manKey := rfl
@[simp] theorem State.modPeer_nextManifest (s : State) (p : Nat) (f : PeerTab → PeerTab) : (s.modPeer p f).nextManifest = s.nextManifest := rfl
@[simp] theorem State.modPeer_manifestOk (s : State) (p : Nat) (f : PeerTab → PeerTab) : (s.modPeer p f).manifestOk = s.manifestOk := rfl
@[simp] theorem State.modPeer_image (s : State) (p : Nat) (f : PeerTab → PeerTab) : (s.modPeer p f).image = s.image := rfl
@[simp] theorem State.modPeer_imageSig (s : State) (p : Nat) (f : PeerTab → PeerTab) : (s.modPeer p f).imageSig = s.imageSig := rfl
@[simp] theorem State.modPeer_fwOk (s : State) (p : Nat) (f : PeerTab → PeerTab) : (s.modPeer p f).fwOk = s.fwOk := rfl
@[simp] theorem State.modPeer_badStep (s : State) (p : Nat) (f : PeerTab → PeerTab) : (s.modPeer p f).badStep = s.badStep := rfl
@[simp] theorem State.modPeer_identity (s : State) (p : Nat) (f : PeerTab → PeerTab) : (s.modPeer p f).identity = s.identity := rfl
@[simp] theorem State.modPeer_sessionKeys (s : State) (p : Nat) (f : PeerTab → PeerTab) : (s.modPeer p f).sessionKeys = s.sessionKeys := rfl
@[simp] theorem State.modPeer_tdis (s : State) (p : Nat) (f : PeerTab → PeerTab) : (s.modPeer p f).tdis = s.tdis := rfl
@[simp] theorem State.modPeer_stopping (s : State) (p : Nat) (f : PeerTab → PeerTab) : (s.modPeer p f).stopping = s.stopping := rfl
@[simp] theorem State.modPeer_coreVf (s : State) (p : Nat) (f : PeerTab → PeerTab) : (s.modPeer p f).coreVf = s.coreVf := rfl
@[simp] theorem State.modPeer_queueVf (s : State) (p : Nat) (f : PeerTab → PeerTab) : (s.modPeer p f).queueVf = s.queueVf := rfl
@[simp] theorem State.modPeer_ring (s : State) (p : Nat) (f : PeerTab → PeerTab) : (s.modPeer p f).ring = s.ring := rfl
@[simp] theorem State.modPeer_hostOut (s : State) (p : Nat) (f : PeerTab → PeerTab) : (s.modPeer p f).hostOut = s.hostOut := rfl

/-! ## State.modTdi -/

@[simp] theorem State.modTdi_now (s : State) (n : Nat) (f : Tdi → Tdi) : (s.modTdi n f).now = s.now := rfl
@[simp] theorem State.modTdi_free (s : State) (n : Nat) (f : Tdi → Tdi) : (s.modTdi n f).free = s.free := rfl
@[simp] theorem State.modTdi_sel (s : State) (n : Nat) (f : Tdi → Tdi) : (s.modTdi n f).sel = s.sel := rfl
@[simp] theorem State.modTdi_agenda (s : State) (n : Nat) (f : Tdi → Tdi) : (s.modTdi n f).agenda = s.agenda := rfl
@[simp] theorem State.modTdi_pkg (s : State) (n : Nat) (f : Tdi → Tdi) : (s.modTdi n f).pkg = s.pkg := rfl
@[simp] theorem State.modTdi_mem (s : State) (n : Nat) (f : Tdi → Tdi) : (s.modTdi n f).mem = s.mem := rfl
@[simp] theorem State.modTdi_memBad (s : State) (n : Nat) (f : Tdi → Tdi) : (s.modTdi n f).memBad = s.memBad := rfl
@[simp] theorem State.modTdi_dies (s : State) (n : Nat) (f : Tdi → Tdi) : (s.modTdi n f).dies = s.dies := rfl
@[simp] theorem State.modTdi_cores (s : State) (n : Nat) (f : Tdi → Tdi) : (s.modTdi n f).cores = s.cores := rfl
@[simp] theorem State.modTdi_ctxs (s : State) (n : Nat) (f : Tdi → Tdi) : (s.modTdi n f).ctxs = s.ctxs := rfl
@[simp] theorem State.modTdi_teams (s : State) (n : Nat) (f : Tdi → Tdi) : (s.modTdi n f).teams = s.teams := rfl
@[simp] theorem State.modTdi_clusters (s : State) (n : Nat) (f : Tdi → Tdi) : (s.modTdi n f).clusters = s.clusters := rfl
@[simp] theorem State.modTdi_launches (s : State) (n : Nat) (f : Tdi → Tdi) : (s.modTdi n f).launches = s.launches := rfl
@[simp] theorem State.modTdi_queues (s : State) (n : Nat) (f : Tdi → Tdi) : (s.modTdi n f).queues = s.queues := rfl
@[simp] theorem State.modTdi_nextLaunch (s : State) (n : Nat) (f : Tdi → Tdi) : (s.modTdi n f).nextLaunch = s.nextLaunch := rfl
@[simp] theorem State.modTdi_nextTeamId (s : State) (n : Nat) (f : Tdi → Tdi) : (s.modTdi n f).nextTeamId = s.nextTeamId := rfl
@[simp] theorem State.modTdi_nextMark (s : State) (n : Nat) (f : Tdi → Tdi) : (s.modTdi n f).nextMark = s.nextMark := rfl
@[simp] theorem State.modTdi_invals (s : State) (n : Nat) (f : Tdi → Tdi) : (s.modTdi n f).invals = s.invals := rfl
@[simp] theorem State.modTdi_nextInval (s : State) (n : Nat) (f : Tdi → Tdi) : (s.modTdi n f).nextInval = s.nextInval := rfl
@[simp] theorem State.modTdi_partWait (s : State) (n : Nat) (f : Tdi → Tdi) : (s.modTdi n f).partWait = s.partWait := rfl
@[simp] theorem State.modTdi_pkgNum (s : State) (n : Nat) (f : Tdi → Tdi) : (s.modTdi n f).pkgNum = s.pkgNum := rfl
@[simp] theorem State.modTdi_peers (s : State) (n : Nat) (f : Tdi → Tdi) : (s.modTdi n f).peers = s.peers := rfl
@[simp] theorem State.modTdi_links (s : State) (n : Nat) (f : Tdi → Tdi) : (s.modTdi n f).links = s.links := rfl
@[simp] theorem State.modTdi_ports (s : State) (n : Nat) (f : Tdi → Tdi) : (s.modTdi n f).ports = s.ports := rfl
@[simp] theorem State.modTdi_store (s : State) (n : Nat) (f : Tdi → Tdi) : (s.modTdi n f).store = s.store := rfl
@[simp] theorem State.modTdi_replies (s : State) (n : Nat) (f : Tdi → Tdi) : (s.modTdi n f).replies = s.replies := rfl
@[simp] theorem State.modTdi_nextPkt (s : State) (n : Nat) (f : Tdi → Tdi) : (s.modTdi n f).nextPkt = s.nextPkt := rfl
@[simp] theorem State.modTdi_rounds (s : State) (n : Nat) (f : Tdi → Tdi) : (s.modTdi n f).rounds = s.rounds := rfl
@[simp] theorem State.modTdi_wins (s : State) (n : Nat) (f : Tdi → Tdi) : (s.modTdi n f).wins = s.wins := rfl
@[simp] theorem State.modTdi_sigs (s : State) (n : Nat) (f : Tdi → Tdi) : (s.modTdi n f).sigs = s.sigs := rfl
@[simp] theorem State.modTdi_outbox (s : State) (n : Nat) (f : Tdi → Tdi) : (s.modTdi n f).outbox = s.outbox := rfl
@[simp] theorem State.modTdi_grants (s : State) (n : Nat) (f : Tdi → Tdi) : (s.modTdi n f).grants = s.grants := rfl
@[simp] theorem State.modTdi_demand (s : State) (n : Nat) (f : Tdi → Tdi) : (s.modTdi n f).demand = s.demand := rfl
@[simp] theorem State.modTdi_past (s : State) (n : Nat) (f : Tdi → Tdi) : (s.modTdi n f).past = s.past := rfl
@[simp] theorem State.modTdi_manifest (s : State) (n : Nat) (f : Tdi → Tdi) : (s.modTdi n f).manifest = s.manifest := rfl
@[simp] theorem State.modTdi_manSig (s : State) (n : Nat) (f : Tdi → Tdi) : (s.modTdi n f).manSig = s.manSig := rfl
@[simp] theorem State.modTdi_manKey (s : State) (n : Nat) (f : Tdi → Tdi) : (s.modTdi n f).manKey = s.manKey := rfl
@[simp] theorem State.modTdi_nextManifest (s : State) (n : Nat) (f : Tdi → Tdi) : (s.modTdi n f).nextManifest = s.nextManifest := rfl
@[simp] theorem State.modTdi_manifestOk (s : State) (n : Nat) (f : Tdi → Tdi) : (s.modTdi n f).manifestOk = s.manifestOk := rfl
@[simp] theorem State.modTdi_image (s : State) (n : Nat) (f : Tdi → Tdi) : (s.modTdi n f).image = s.image := rfl
@[simp] theorem State.modTdi_imageSig (s : State) (n : Nat) (f : Tdi → Tdi) : (s.modTdi n f).imageSig = s.imageSig := rfl
@[simp] theorem State.modTdi_fwOk (s : State) (n : Nat) (f : Tdi → Tdi) : (s.modTdi n f).fwOk = s.fwOk := rfl
@[simp] theorem State.modTdi_badStep (s : State) (n : Nat) (f : Tdi → Tdi) : (s.modTdi n f).badStep = s.badStep := rfl
@[simp] theorem State.modTdi_identity (s : State) (n : Nat) (f : Tdi → Tdi) : (s.modTdi n f).identity = s.identity := rfl
@[simp] theorem State.modTdi_sessionKeys (s : State) (n : Nat) (f : Tdi → Tdi) : (s.modTdi n f).sessionKeys = s.sessionKeys := rfl
@[simp] theorem State.modTdi_tdis (s : State) (n : Nat) (f : Tdi → Tdi) : (s.modTdi n f).tdis = Map.put s.tdis n (f (s.tdi n)) := rfl
@[simp] theorem State.modTdi_stopping (s : State) (n : Nat) (f : Tdi → Tdi) : (s.modTdi n f).stopping = s.stopping := rfl
@[simp] theorem State.modTdi_coreVf (s : State) (n : Nat) (f : Tdi → Tdi) : (s.modTdi n f).coreVf = s.coreVf := rfl
@[simp] theorem State.modTdi_queueVf (s : State) (n : Nat) (f : Tdi → Tdi) : (s.modTdi n f).queueVf = s.queueVf := rfl
@[simp] theorem State.modTdi_ring (s : State) (n : Nat) (f : Tdi → Tdi) : (s.modTdi n f).ring = s.ring := rfl
@[simp] theorem State.modTdi_hostOut (s : State) (n : Nat) (f : Tdi → Tdi) : (s.modTdi n f).hostOut = s.hostOut := rfl

/-! ## State.after -/

@[simp] theorem State.after_now (s : State) (n : Nat) : (s.after n).now = s.now + n := rfl
@[simp] theorem State.after_free (s : State) (n : Nat) : (s.after n).free = s.free := rfl
@[simp] theorem State.after_sel (s : State) (n : Nat) : (s.after n).sel = s.sel := rfl
@[simp] theorem State.after_agenda (s : State) (n : Nat) : (s.after n).agenda = s.agenda := rfl
@[simp] theorem State.after_pkg (s : State) (n : Nat) : (s.after n).pkg = s.pkg := rfl
@[simp] theorem State.after_mem (s : State) (n : Nat) : (s.after n).mem = s.mem := rfl
@[simp] theorem State.after_memBad (s : State) (n : Nat) : (s.after n).memBad = s.memBad := rfl
@[simp] theorem State.after_dies (s : State) (n : Nat) : (s.after n).dies = s.dies := rfl
@[simp] theorem State.after_cores (s : State) (n : Nat) : (s.after n).cores = s.cores := rfl
@[simp] theorem State.after_ctxs (s : State) (n : Nat) : (s.after n).ctxs = s.ctxs := rfl
@[simp] theorem State.after_teams (s : State) (n : Nat) : (s.after n).teams = s.teams := rfl
@[simp] theorem State.after_clusters (s : State) (n : Nat) : (s.after n).clusters = s.clusters := rfl
@[simp] theorem State.after_launches (s : State) (n : Nat) : (s.after n).launches = s.launches := rfl
@[simp] theorem State.after_queues (s : State) (n : Nat) : (s.after n).queues = s.queues := rfl
@[simp] theorem State.after_nextLaunch (s : State) (n : Nat) : (s.after n).nextLaunch = s.nextLaunch := rfl
@[simp] theorem State.after_nextTeamId (s : State) (n : Nat) : (s.after n).nextTeamId = s.nextTeamId := rfl
@[simp] theorem State.after_nextMark (s : State) (n : Nat) : (s.after n).nextMark = s.nextMark := rfl
@[simp] theorem State.after_invals (s : State) (n : Nat) : (s.after n).invals = s.invals := rfl
@[simp] theorem State.after_nextInval (s : State) (n : Nat) : (s.after n).nextInval = s.nextInval := rfl
@[simp] theorem State.after_partWait (s : State) (n : Nat) : (s.after n).partWait = s.partWait := rfl
@[simp] theorem State.after_pkgNum (s : State) (n : Nat) : (s.after n).pkgNum = s.pkgNum := rfl
@[simp] theorem State.after_peers (s : State) (n : Nat) : (s.after n).peers = s.peers := rfl
@[simp] theorem State.after_links (s : State) (n : Nat) : (s.after n).links = s.links := rfl
@[simp] theorem State.after_ports (s : State) (n : Nat) : (s.after n).ports = s.ports := rfl
@[simp] theorem State.after_store (s : State) (n : Nat) : (s.after n).store = s.store := rfl
@[simp] theorem State.after_replies (s : State) (n : Nat) : (s.after n).replies = s.replies := rfl
@[simp] theorem State.after_nextPkt (s : State) (n : Nat) : (s.after n).nextPkt = s.nextPkt := rfl
@[simp] theorem State.after_rounds (s : State) (n : Nat) : (s.after n).rounds = s.rounds := rfl
@[simp] theorem State.after_wins (s : State) (n : Nat) : (s.after n).wins = s.wins := rfl
@[simp] theorem State.after_sigs (s : State) (n : Nat) : (s.after n).sigs = s.sigs := rfl
@[simp] theorem State.after_outbox (s : State) (n : Nat) : (s.after n).outbox = s.outbox := rfl
@[simp] theorem State.after_grants (s : State) (n : Nat) : (s.after n).grants = s.grants := rfl
@[simp] theorem State.after_demand (s : State) (n : Nat) : (s.after n).demand = s.demand := rfl
@[simp] theorem State.after_past (s : State) (n : Nat) : (s.after n).past = s.past := rfl
@[simp] theorem State.after_manifest (s : State) (n : Nat) : (s.after n).manifest = s.manifest := rfl
@[simp] theorem State.after_manSig (s : State) (n : Nat) : (s.after n).manSig = s.manSig := rfl
@[simp] theorem State.after_manKey (s : State) (n : Nat) : (s.after n).manKey = s.manKey := rfl
@[simp] theorem State.after_nextManifest (s : State) (n : Nat) : (s.after n).nextManifest = s.nextManifest := rfl
@[simp] theorem State.after_manifestOk (s : State) (n : Nat) : (s.after n).manifestOk = s.manifestOk := rfl
@[simp] theorem State.after_image (s : State) (n : Nat) : (s.after n).image = s.image := rfl
@[simp] theorem State.after_imageSig (s : State) (n : Nat) : (s.after n).imageSig = s.imageSig := rfl
@[simp] theorem State.after_fwOk (s : State) (n : Nat) : (s.after n).fwOk = s.fwOk := rfl
@[simp] theorem State.after_badStep (s : State) (n : Nat) : (s.after n).badStep = s.badStep := rfl
@[simp] theorem State.after_identity (s : State) (n : Nat) : (s.after n).identity = s.identity := rfl
@[simp] theorem State.after_sessionKeys (s : State) (n : Nat) : (s.after n).sessionKeys = s.sessionKeys := rfl
@[simp] theorem State.after_tdis (s : State) (n : Nat) : (s.after n).tdis = s.tdis := rfl
@[simp] theorem State.after_stopping (s : State) (n : Nat) : (s.after n).stopping = s.stopping := rfl
@[simp] theorem State.after_coreVf (s : State) (n : Nat) : (s.after n).coreVf = s.coreVf := rfl
@[simp] theorem State.after_queueVf (s : State) (n : Nat) : (s.after n).queueVf = s.queueVf := rfl
@[simp] theorem State.after_ring (s : State) (n : Nat) : (s.after n).ring = s.ring := rfl
@[simp] theorem State.after_hostOut (s : State) (n : Nat) : (s.after n).hostOut = s.hostOut := rfl

/-! ## What the accessors find after an update -/

/-- Mapping entries under their own keys commutes with the search for a key. -/
theorem find?_map_key {α : Type} (key : α → Nat) (f : α → α) (t k : Nat) (hf : ∀ x, key (f x) = key x) (l : List α) :
    (l.map fun x => if key x = t then f x else x).find? (fun x => decide (key x = k)) =
      if k = t then (l.find? fun x => decide (key x = k)).map f else l.find? fun x => decide (key x = k) := by
  induction l with
  | nil => simp
  | cons x l ih =>
    simp only [List.map_cons, List.find?_cons]
    by_cases a : key x = t
    · rw [if_pos a, hf x]
      by_cases b : key x = k
      · simp [b, ← a]
      · simp only [b, decide_false]; exact ih
    · rw [if_neg a]
      by_cases b : key x = k
      · subst b; simp [a]
      · simp only [b, decide_false]; exact ih

theorem State.team?_modTeam (s : State) (t k : Nat) (f : Team → Team) (hf : ∀ x, (f x).id = x.id) :
    (s.modTeam t f).team? k = if k = t then (s.team? k).map f else s.team? k :=
  find?_map_key Team.id f t k hf s.teams

theorem Team.group?_modGroup (tm : Team) (g k : Nat) (f : Group → Group) (hf : ∀ x, (f x).grp = x.grp) :
    (tm.modGroup g f).group? k = if k = g then (tm.group? k).map f else tm.group? k :=
  find?_map_key Group.grp f g k hf tm.groups

@[simp] theorem Team.modGroup_id (tm : Team) (g : Nat) (f : Group → Group) : (tm.modGroup g f).id = tm.id := rfl

theorem State.team?_modGroup (s : State) (t g k : Nat) (f : Group → Group) :
    (s.modGroup t g f).team? k = if k = t then (s.team? k).map (·.modGroup g f) else s.team? k :=
  State.team?_modTeam s t k _ fun _ => rfl

/-- A group after a change of one group. -/
theorem State.group?_modGroup (s : State) (t g a b : Nat) (f : Group → Group) (hf : ∀ x, (f x).grp = x.grp) :
    (s.modGroup t g f).group? a b = if (a, b) = (t, g) then (s.group? a b).map f else s.group? a b := by
  unfold State.group?
  rw [State.team?_modGroup]
  by_cases e : a = t
  · subst a
    cases s.team? t with
    | none => simp
    | some tm =>
      simp only [if_true, Option.map_some, Option.bind_some, Team.group?_modGroup _ _ _ _ hf, Prod.mk.injEq, true_and]
  · simp [e]

theorem Group.split?_modSplit (g : Group) (i k : Nat) (f : Split → Split) (hf : ∀ x, (f x).id = x.id) :
    (g.modSplit i f).split? k = if k = i then (g.split? k).map f else g.split? k :=
  find?_map_key Split.id f i k hf g.splits

theorem State.launch?_modLaunch (s : State) (l k : Nat) (f : Launch → Launch) (hf : ∀ x, (f x).id = x.id) :
    (s.modLaunch l f).launch? k = if k = l then (s.launch? k).map f else s.launch? k :=
  find?_map_key Launch.id f l k hf s.launches

@[simp] theorem State.team?_modLaunch (s : State) (l k : Nat) (f : Launch → Launch) : (s.modLaunch l f).team? k = s.team? k := rfl
@[simp] theorem State.launch?_modTeam (s : State) (t k : Nat) (f : Team → Team) : (s.modTeam t f).launch? k = s.launch? k := rfl
@[simp] theorem State.launch?_modGroup (s : State) (t g k : Nat) (f : Group → Group) : (s.modGroup t g f).launch? k = s.launch? k := rfl
@[simp] theorem State.team?_tell (s : State) (m : HostMsg) (k : Nat) : (s.tell m).team? k = s.team? k := rfl
@[simp] theorem State.launch?_tell (s : State) (m : HostMsg) (k : Nat) : (s.tell m).launch? k = s.launch? k := rfl
@[simp] theorem State.team?_send (s : State) (m : Outbox) (k : Nat) : (s.send m).team? k = s.team? k := rfl

/-- A core after a change of one. -/
theorem State.core_modCore (s : State) (c k : Nat) (f : Core → Core) :
    (s.modCore c f).core k = if k = c then f (s.core k) else s.core k := by
  have h : ∀ t : State, t.core k = (Map.find? t.cores k).getD Core.reset := by
    intro t
    unfold State.core
    have := Map.find?_eq_list t.cores k
    simp only [this, Option.map_map]
    cases Map.find? t.cores k <;> rfl
  rw [h]
  simp only [State.modCore_cores, Map.find?_put]
  split
  · subst k; rfl
  · rw [← h]

/-- A die after a change of one; a die that does not exist stays as at reset. -/
theorem State.die_modDie (s : State) (d k : Nat) (f : Die → Die) :
    (s.modDie d f).die k = if k = d ∧ d < s.dies.length then f (s.die k) else s.die k := by
  unfold State.die
  simp only [State.modDie_dies, List.getD_eq_getElem?_getD, List.getElem?_modify]
  by_cases e : k = d
  · subst k
    by_cases l : d < s.dies.length
    · simp [l]
    · simp [l, List.getElem?_eq_none (Nat.le_of_not_lt l)]
  · simp [e, Ne.symm e]

/-- A queue after a change of one. -/
theorem State.queue_modQueue (s : State) (q k : Nat) (f : LQueue → LQueue) :
    (s.modQueue q f).queue k = if k = q then f (s.queue k) else s.queue k := by
  have h : ∀ t : State, t.queue k = (Map.find? t.queues k).getD LQueue.empty := by
    intro t
    unfold State.queue
    have := Map.find?_eq_list t.queues k
    simp only [this, Option.map_map]
    cases Map.find? t.queues k <;> rfl
  rw [h]
  simp only [State.modQueue_queues, Map.find?_put]
  split
  · subst k; rfl
  · rw [← h]

end Sys2Proof.Machine
end

