-- ==== Sys2Proof/Laws/Fabric.lean ====
section
/-! SUPPORT. Laws of the retransmit store and of the requests for blocks: what sending a packet changes, and which request is
served next. -/

namespace Sys2Proof.Machine

/-- Choosing a path changes the tables of the peers alone (28 R349). -/
theorem State.sprayTo_frame (s : State) (p : Nat) : (s.sprayTo p).2 = { s with peers := (s.sprayTo p).2.peers } := by
  unfold State.sprayTo
  split <;> rfl

/-- A reply goes out and stands in the store under the next number (28 R350, log entry 91). -/
theorem State.reply_frame (s : State) (p : Nat) (b : Bool) (m : Outbox) :
    ∃ r : Reply, r.id = s.nextPkt ∧ r.peer = p ∧ r.msg = m ∧ r.tries = 0 ∧ (b = false → r.path = none) ∧
      s.reply p b m = { s with
        peers := (s.reply p b m).peers, outbox := s.outbox ++ [m], nextPkt := s.nextPkt + 1, replies := s.replies ++ [r] } := by
  cases b
  · exact ⟨_, rfl, rfl, rfl, rfl, fun _ => rfl, rfl⟩
  · refine ⟨{ id := s.nextPkt, peer := p, msg := m, tries := 0, firstAt := s.now, sentAt := s.now, path := (s.sprayTo p).1 },
      rfl, rfl, rfl, rfl, fun h => (nomatch h), ?_⟩
    have e := s.sprayTo_frame p
    unfold State.reply
    generalize s.sprayTo p = q at e ⊢
    obtain ⟨path, t⟩ := q
    dsimp only at e
    rw [if_pos rfl]
    dsimp only
    rw [e]
    rfl

@[simp] theorem State.reply_mem (s : State) (p : Nat) (b : Bool) (m : Outbox) : (s.reply p b m).mem = s.mem := by
  obtain ⟨r, -, -, -, -, -, e⟩ := s.reply_frame p b m
  rw [e]
@[simp] theorem State.reply_teams (s : State) (p : Nat) (b : Bool) (m : Outbox) : (s.reply p b m).teams = s.teams := by
  obtain ⟨r, -, -, -, -, -, e⟩ := s.reply_frame p b m
  rw [e]
@[simp] theorem State.reply_store (s : State) (p : Nat) (b : Bool) (m : Outbox) : (s.reply p b m).store = s.store := by
  obtain ⟨r, -, -, -, -, -, e⟩ := s.reply_frame p b m
  rw [e]

/-- The request that is served next is one of a team of the launch that acts and asks (03 R18, 24 R314). -/
theorem State.nextAsk_some {s : State} {l : Launch} {t : Team} (h : s.nextAsk l = some t) :
    t ∈ s.teams ∧ t.launch = l.id ∧ t.acting = true ∧ t.wantBlk = true ∧ (s.shift l t).nxt = none := by
  have m := List.mem_of_mem_head? h
  simp only [mem_sortBy, List.mem_filter, Bool.and_eq_true, beq_iff_eq, Option.isNone_iff_eq_none] at m
  exact ⟨m.1, m.2.1.1.1, m.2.1.1.2, m.2.1.2, m.2.2⟩

end Sys2Proof.Machine
end

