-- ==== Sys2Proof/Laws/Registers.lean ====
section
/-! SUPPORT. Laws of a group's register file: what a place reads as after a write, and what landing does (05 R54, R57,
R58). -/

namespace Sys2Proof.Machine

/-! ## The file -/

/-- k0 reads as all ones (R54). -/
@[simp] theorem Group.file_k0 (g : Group) : g.file (.k 0) = 0xFFFFFFFF := rfl

/-- A write to k0 is none (R54). -/
@[simp] theorem Group.setFile_k0 (g : Group) (m v : DWord) : g.setFile (.k 0) m v = g := rfl

/-- A 32-bit value widened and cut again. -/
theorem setWidth_32_64 (v : DWord) (h : v &&& ~~~0xFFFFFFFF = 0) : (v.setWidth 32).setWidth 64 = v := by
  apply BitVec.eq_of_getLsbD_eq
  intro i hi
  have := congrArg (fun z : DWord => z.getLsbD i) h
  simp only [BitVec.getLsbD_setWidth, hi, decide_true, Bool.true_and]
  by_cases b : i < 32
  · simp [b]
  · have o : (0xFFFFFFFF : DWord).getLsbD i = false := by
      have e : (0xFFFFFFFF : DWord) = BitVec.setWidth 64 (0xFFFFFFFF#32) := by decide
      rw [e, BitVec.getLsbD_setWidth, BitVec.getLsbD_of_ge _ _ (by omega)]
      simp
    have z : (0 : DWord).getLsbD i = false := by simp
    simp only [BitVec.getLsbD_and, BitVec.getLsbD_not, hi, decide_true, o, Bool.not_false, Bool.and_true, z, Bool.true_and] at this
    simp [b, this]

/-- A 5-bit value widened and cut again. -/
theorem setWidth_5_64 (v : DWord) (h : v &&& ~~~31 = 0) : (v.setWidth 5).setWidth 64 = v := by
  apply BitVec.eq_of_getLsbD_eq
  intro i hi
  have := congrArg (fun z : DWord => z.getLsbD i) h
  simp only [BitVec.getLsbD_setWidth, hi, decide_true, Bool.true_and]
  by_cases b : i < 5
  · simp [b]
  · have o : (31 : DWord).getLsbD i = false := by
      have e : (31 : DWord) = BitVec.setWidth 64 (31#5) := by decide
      rw [e, BitVec.getLsbD_setWidth, BitVec.getLsbD_of_ge _ _ (by omega)]
      simp
    have z : (0 : DWord).getLsbD i = false := by simp
    simp only [BitVec.getLsbD_and, BitVec.getLsbD_not, hi, decide_true, o, Bool.not_false, Bool.and_true, z, Bool.true_and] at this
    simp [b, this]

/-- Merging under a mask stays within a width. -/
theorem merge_within (a v m w : DWord) (ha : a &&& ~~~w = 0) (hm : m &&& ~~~w = 0) : ((a &&& ~~~m) ||| (v &&& m)) &&& ~~~w = 0 := by
  apply BitVec.eq_of_getLsbD_eq
  intro i hi
  have p := congrArg (fun z : DWord => z.getLsbD i) ha
  have q := congrArg (fun z : DWord => z.getLsbD i) hm
  have z : (0 : DWord).getLsbD i = false := by simp
  simp only [BitVec.getLsbD_and, BitVec.getLsbD_or, BitVec.getLsbD_not, hi, decide_true, Bool.true_and, z] at p q ⊢
  revert p q
  cases a.getLsbD i <;> cases v.getLsbD i <;> cases m.getLsbD i <;> cases w.getLsbD i <;> decide

theorem and_width (m w : DWord) : (m &&& w) &&& ~~~w = 0 := by
  apply BitVec.eq_of_getLsbD_eq
  intro i hi
  have z : (0 : DWord).getLsbD i = false := by simp
  simp only [BitVec.getLsbD_and, BitVec.getLsbD_not, hi, decide_true, Bool.true_and, z]
  cases m.getLsbD i <;> cases w.getLsbD i <;> decide

/-- A place other than an s register holds no bit beyond its width. -/
theorem Group.file_within (g : Group) (l : Loc) (h : ∀ n, l ≠ .s n) : g.file l &&& ~~~l.width = 0 := by
  have c32 (v : Word) : v.setWidth 64 &&& ~~~(0xFFFFFFFF : DWord) = 0 := by
    have e : (0xFFFFFFFF : DWord) = BitVec.setWidth 64 (0xFFFFFFFF#32) := by decide
    apply BitVec.eq_of_getLsbD_eq
    intro i hi
    rw [e]
    simp only [BitVec.getLsbD_and, BitVec.getLsbD_not, BitVec.getLsbD_setWidth, hi, decide_true, Bool.true_and]
    by_cases b : i < 32
    · have : (0xFFFFFFFF#32).getLsbD i = true := by
        have a : (0xFFFFFFFF#32) = BitVec.allOnes 32 := by decide
        rw [a, BitVec.getLsbD_allOnes]; simp [b]
      simp only [this, Bool.not_true, Bool.and_false, BitVec.getLsbD_zero]
      simp
    · rw [BitVec.getLsbD_of_ge v _ (by omega)]; simp
  have c5 (v : BitVec 5) : v.setWidth 64 &&& ~~~(31 : DWord) = 0 := by
    revert v; decide +kernel
  cases l with
  | v n l =>
    simp only [Group.file, Loc.width]
    split
    · exact c32 _
    · simp
  | s n => exact absurd rfl (h n)
  | k n =>
    simp only [Group.file, Loc.width]
    split
    · decide
    · exact c32 _
  | flg l => exact c5 _
  | a n l =>
    simp only [Group.file, Loc.width]
    split
    · exact c32 _
    · simp

/-- A place after it was written under a mask. -/
theorem Group.file_setFile (g : Group) (l : Loc) (m v : DWord) (h : l ≠ .k 0) :
    (g.setFile l m v).file l = (g.file l &&& ~~~(m &&& l.width)) ||| (v &&& (m &&& l.width)) := by
  cases l with
  | v n ln =>
    have w := merge_within (g.file (.v n ln)) v (m &&& (Loc.v n ln).width) _ (g.file_within (.v n ln) (by simp)) (and_width m _)
    unfold Group.setFile
    dsimp only
    by_cases b : ln < 32
    · simp only [Loc.width, b, if_true] at w ⊢
      generalize g.file (.v n ln) &&& _ ||| _ = x at w ⊢
      simp only [Group.file, b, if_true, Map.get_set]
      exact setWidth_32_64 _ w
    · simp [b, Loc.width, Group.file]
  | s n => simp [Group.setFile, Group.file]
  | k n =>
    have n0 : n ≠ 0 := by rintro rfl; exact h rfl
    have w := merge_within (g.file (.k n)) v (m &&& (Loc.k n).width) _ (g.file_within (.k n) (by simp)) (and_width m _)
    unfold Group.setFile
    dsimp only
    rw [if_neg n0]
    generalize g.file (.k n) &&& _ ||| _ = x at w ⊢
    simp only [Group.file, n0, if_false, Map.get_set, if_true]
    exact setWidth_32_64 _ w
  | flg ln =>
    have w := merge_within (g.file (.flg ln)) v (m &&& (Loc.flg ln).width) _ (g.file_within (.flg ln) (by simp)) (and_width m _)
    unfold Group.setFile
    dsimp only
    generalize g.file (.flg ln) &&& _ ||| _ = x at w ⊢
    simp only [Group.file, Map.get_set, if_true]
    exact setWidth_5_64 _ w
  | a n i =>
    have w := merge_within (g.file (.a n i)) v (m &&& (Loc.a n i).width) _ (g.file_within (.a n i) (by simp)) (and_width m _)
    unfold Group.setFile
    dsimp only
    by_cases b : i < 1024
    · simp only [Loc.width, b, if_true] at w ⊢
      generalize g.file (.a n i) &&& _ ||| _ = x at w ⊢
      simp only [Group.file, b, if_true, Map.get_set]
      exact setWidth_32_64 _ w
    · simp [b, Loc.width, Group.file]

/-- Another place does not change. -/
theorem Group.file_setFile_ne (g : Group) {l k : Loc} (m v : DWord) (h : k ≠ l) : (g.setFile l m v).file k = g.file k := by
  cases l with
  | v n ln =>
    simp only [Group.setFile]
    split
    · cases k with
      | v a b =>
        simp only [Group.file]
        split
        · have : 32 * a + b ≠ 32 * n + ln := by
            intro e
            have : a = n := by omega
            have : b = ln := by omega
            exact h (by simp [*])
          rw [Map.get_set, if_neg this]
        · rfl
      | _ => rfl
    · rfl
  | s n =>
    cases k with
    | s a => simp only [Group.setFile, Group.file, Map.get_set]; rw [if_neg (fun e => h (by rw [e]))]
    | _ => rfl
  | k n =>
    simp only [Group.setFile]
    split
    · rfl
    · cases k with
      | k a =>
        simp only [Group.file]
        split
        · rfl
        · rw [Map.get_set, if_neg (fun e => h (by rw [e]))]
      | _ => rfl
  | flg n =>
    cases k with
    | flg a => simp only [Group.setFile, Group.file, Map.get_set]; rw [if_neg (fun e => h (by rw [e]))]
    | _ => rfl
  | a n i =>
    simp only [Group.setFile]
    split
    · cases k with
      | a c d =>
        simp only [Group.file]
        split
        · have : 1024 * c + d ≠ 1024 * n + i := by
            intro e
            have : c = n := by omega
            have : d = i := by omega
            exact h (by simp [*])
          rw [Map.get_set, if_neg this]
        · rfl
      | _ => rfl
    · rfl

/-- Writing a place changes the register maps only. -/
theorem Group.setFile_frame (g : Group) (l : Loc) (m v : DWord) : g.setFile l m v =
    { g with vregs := (g.setFile l m v).vregs, sregs := (g.setFile l m v).sregs, kregs := (g.setFile l m v).kregs,
             flg := (g.setFile l m v).flg, tiles := (g.setFile l m v).tiles } := by
  cases l with
  | v n ln => simp only [Group.setFile]; split <;> rfl
  | s n => rfl
  | k n => simp only [Group.setFile]; split <;> rfl
  | flg n => rfl
  | a n i => simp only [Group.setFile]; split <;> rfl

@[simp] theorem Group.setFile_pend (g : Group) (l : Loc) (m v : DWord) : (g.setFile l m v).pend = g.pend := by
  rw [g.setFile_frame l m v]
@[simp] theorem Group.setFile_splits (g : Group) (l : Loc) (m v : DWord) : (g.setFile l m v).splits = g.splits := by
  rw [g.setFile_frame l m v]
@[simp] theorem Group.setFile_ops (g : Group) (l : Loc) (m v : DWord) : (g.setFile l m v).ops = g.ops := by
  rw [g.setFile_frame l m v]
@[simp] theorem Group.setFile_occ (g : Group) (l : Loc) (m v : DWord) : (g.setFile l m v).occ = g.occ := by
  rw [g.setFile_frame l m v]
@[simp] theorem Group.setFile_grp (g : Group) (l : Loc) (m v : DWord) : (g.setFile l m v).grp = g.grp := by
  rw [g.setFile_frame l m v]

/-! ## Writes in flight -/

/-- Without writes in flight for it, a place reads as it stands, and that is its newest value. -/
theorem Group.rd_of_none (g : Group) (sp : Nat) (l : Loc) (h : ∀ e ∈ g.pend, e.split = sp → e.loc ≠ l) : g.rd sp l = g.file l := by
  have : (g.pend.filter fun e => decide (e.split = sp ∧ e.loc = l)) = [] := by
    rw [List.filter_eq_nil_iff]
    intro e he a
    simp only [decide_eq_true_eq] at a
    exact h e he a.1 a.2
  unfold Group.rd
  rw [this]; rfl

theorem Group.newest_of_none (g : Group) (sp : Nat) (l : Loc) (h : ∀ e ∈ g.pend, e.split = sp → e.loc ≠ l) :
    g.newest sp l = g.file l := by
  have : (g.pend.filter fun e => decide (e.split = sp ∧ e.loc = l)) = [] := by
    rw [List.filter_eq_nil_iff]
    intro e he a
    simp only [decide_eq_true_eq] at a
    exact h e he a.1 a.2
  unfold Group.newest
  rw [this]; rfl

/-- Another split's unlanded write is not seen (R58). -/
theorem Group.rd_split (g g' : Group) (sp : Nat) (l : Loc) (hf : g'.file l = g.file l)
    (hp : (g'.pend.filter fun e => e.split = sp ∧ e.loc = l) = g.pend.filter fun e => e.split = sp ∧ e.loc = l) :
    g'.rd sp l = g.rd sp l := by
  unfold Group.rd
  rw [hf, hp]

end Sys2Proof.Machine
end

