-- ==== Sys2Proof/Laws/Issue.lean ====
section
/-! SUPPORT. Laws of issuing: what each check of Table 5.5 leaves, what completing an instruction does to its group, and
that of the whole state only that group changes. -/

namespace Sys2Proof.Machine

/-! ## Issuing -/

/-- An instruction whose checks pass has its own effect. -/
theorem withIssue_next {i : Instr} {h : Hdr} {x : Iss} {s : State} (body : Iss → State → State) (a : Issues i h x s) :
    withIssue i s body = .next (body x s) := by
  obtain ⟨e, op, hd, c⟩ := a
  simp only [withIssue, e, hd, Iss.issue, c]

/-- A U instruction whose checks and guard pass has its own effect (05 R56). -/
theorem withIssue_uniform {i : Instr} {h : Hdr} {x : Iss} {s : State} (body : Iss → State → State) (a : IssuesU i h x s) :
    withIssue i s (uniform h body) = .next (body x s) := by
  rw [withIssue_next _ a.1, uniform, if_pos a.2]

/-- A U instruction whose guard fails leaves only the issue slot (05 R56). -/
theorem withIssue_uniform_fail {i : Instr} {h : Hdr} {x : Iss} {s : State} (body : Iss → State → State) (a : Issues i h x s)
    (g : x.g.uGuard x.sp.id h = false) : withIssue i s (uniform h body) = .next (x.pass h false s) := by
  rw [withIssue_next _ a, uniform, if_neg (by simp [g])]

/-- What a barrier of steps 5 to 8 leaves. -/
theorem withIssue_barrier {i : Instr} {h : Hdr} {op : Nat} {x : Iss} {s : State} (body : Iss → State → State) {b : Barrier}
    (e : s.issuer = some x) (hd : i.head = some (h, op)) (c : x.check i h op s = some b) :
    withIssue i s body = .next (match b with
      | .never => x.pass h false s
      | .group c => x.groupFault h c 0 s
      | .slots => x.uniFaults h (x.uniFault .range 0 []) [] s) := by
  simp only [withIssue, e, hd, Iss.issue, c]
  cases b <;> rfl

/-- Everything that issuing can answer: the stop for want of an issuing split, or a next state. -/
theorem withIssue_cases (i : Instr) (s : State) (body : Iss → State → State) :
    ((s.issuer = none ∨ i.head = none) ∧ withIssue i s body = .fault .noIssuer) ∨
    ∃ x h op, s.issuer = some x ∧ i.head = some (h, op) ∧ withIssue i s body = .next (x.issue i h op body s) := by
  unfold withIssue
  cases s.issuer with
  | none => exact .inl ⟨.inl rfl, rfl⟩
  | some x => cases i.head with
    | none => exact .inl ⟨.inr rfl, rfl⟩
    | some p => exact .inr ⟨x, p.1, p.2, rfl, rfl, rfl⟩

/-- Everything that an issue can do. -/
theorem Iss.issue_cases (x : Iss) (i : Instr) (h : Hdr) (op : Nat) (body : Iss → State → State) (s : State) :
    (x.check i h op s = none ∧ x.issue i h op body s = body x s) ∨
    (x.check i h op s = some .never ∧ x.issue i h op body s = x.pass h false s) ∨
    (∃ c, x.check i h op s = some (.group c) ∧ x.issue i h op body s = x.groupFault h c 0 s) ∨
    (x.check i h op s = some .slots ∧ x.issue i h op body s = x.uniFaults h (x.uniFault .range 0 []) [] s) := by
  unfold Iss.issue
  cases x.check i h op s with
  | none => exact .inl ⟨rfl, rfl⟩
  | some b => cases b with
    | never => exact .inr (.inl ⟨rfl, rfl⟩)
    | group c => exact .inr (.inr (.inl ⟨c, rfl, rfl⟩))
    | slots => exact .inr (.inr (.inr ⟨rfl, rfl⟩))

/-- The never guard comes before every other check (05 R49). -/
theorem Iss.check_never (x : Iss) (i : Instr) (h : Hdr) (op : Nat) (s : State) (n : h.never = true) :
    x.check i h op s = some .never := by
  simp [Iss.check, n]

/-- Results of fixed latency, from the meaning of an instruction. -/
theorem gives_of {i : Instr} {h : Hdr} {x : Iss} {s : State} {ws : List (Loc × DWord × DWord)} {body : Iss → State → State}
    (e : exec i s = withIssue i s body) (b : body x s = x.result i h ws s) : Gives i h x s ws := fun a => by
  rw [e, withIssue_next body a, b]

theorem givesU_of {i : Instr} {h : Hdr} {x : Iss} {s : State} {ws : List (Loc × DWord × DWord)} {body : Iss → State → State}
    (e : exec i s = withIssue i s (uniform h body)) (b : body x s = x.result i h ws s) : GivesU i h x s ws := fun a => by
  rw [e, withIssue_uniform body a, b]

/-! ## The issuer -/

/-- What the issuing split is. -/
theorem State.at?_eq {s : State} {r : SRef} {x : Iss} (e : s.at? r = some x) :
    x.r = r ∧ s.team? r.team = some x.tm ∧ x.tm.acting = true ∧ x.tm.group? r.grp = some x.g ∧
      x.g.split? r.split = some x.sp := by
  unfold State.at? at e
  split at e
  · cases e
  · rename_i tm ht
    split at e
    · cases e
    · rename_i ha
      split at e
      · cases e
      · rename_i g hg
        split at e
        · cases e
        · rename_i sp hs
          cases e
          exact ⟨rfl, ht, by simpa using ha, hg, hs⟩

/-- The issuing group is found in the state. -/
theorem State.at?_group {s : State} {r : SRef} {x : Iss} (e : s.at? r = some x) : s.group? r.team r.grp = some x.g := by
  obtain ⟨-, t, -, g, -⟩ := State.at?_eq e
  simp [State.group?, t, g]

/-! ## Only one group changes -/

/-- A change of one group leaves the rest of the state. -/
theorem State.modG_onlyGroup {s : State} {r : SRef} {tm : Team} {g : Group} (f : Group → Group) (hf : ∀ x, (f x).grp = x.grp)
    (t : s.team? r.team = some tm) (e : tm.group? r.grp = some g) : OnlyGroup r (f g) s (s.modG r f) := by
  refine ⟨rfl, fun k hk => ?_, tm, tm.modGroup r.grp f, t, ?_, rfl, fun k hk => ?_, ?_⟩
  · unfold State.modG; rw [State.team?_modGroup, if_neg hk]
  · unfold State.modG; rw [State.team?_modGroup, if_pos rfl, t]; rfl
  · rw [Team.group?_modGroup _ _ _ _ hf, if_neg hk]
  · rw [Team.group?_modGroup _ _ _ _ hf, if_pos rfl, e]; rfl

/-- Two changes of one group after each other are one change. -/
theorem OnlyGroup.trans {r : SRef} {g g' : Group} {s t u : State} (a : OnlyGroup r g s t) (b : OnlyGroup r g' t u) :
    OnlyGroup r g' s u := by
  obtain ⟨a0, a1, tm, tm1, a2, a3, a4, a5, -⟩ := a
  obtain ⟨b0, b1, tm1', tm2, b2, b3, b4, b5, b6⟩ := b
  rw [a3] at b2; cases b2
  refine ⟨?_, fun k hk => (b1 k hk).trans (a1 k hk), tm, tm2, a2, b3, ?_, fun k hk => (b5 k hk).trans (a5 k hk), b6⟩
  · rw [b0, a0]
  · rw [b4, a4]

/-! ## Stall counts and the next address (05 R57, R58) -/

/-- Consuming an issue slot changes the splits and the distances of the group, and no register. -/
theorem Group.consume_frame (g : Group) (now sp st : Nat) (b : Bool) : g.consume now sp st b =
    { g with splits := (g.consume now sp st b).splits, pend := (g.consume now sp st b).pend,
             score := (g.consume now sp st b).score } := rfl

@[simp] theorem Group.consume_file (g : Group) (now sp st : Nat) (b : Bool) (l : Loc) :
    (g.consume now sp st b).file l = g.file l := by cases l <;> rfl
@[simp] theorem Group.consume_occ (g : Group) (now sp st : Nat) (b : Bool) : (g.consume now sp st b).occ = g.occ := rfl
@[simp] theorem Group.consume_grp (g : Group) (now sp st : Nat) (b : Bool) : (g.consume now sp st b).grp = g.grp := rfl
@[simp] theorem Group.consume_ops (g : Group) (now sp st : Nat) (b : Bool) : (g.consume now sp st b).ops = g.ops := rfl
@[simp] theorem Group.consume_ctrs (g : Group) (now sp st : Nat) (b : Bool) : (g.consume now sp st b).ctrs = g.ctrs := rfl
@[simp] theorem Group.enter_file (g : Group) (now sp lat : Nat) (ds : List (Nat × Nat)) (ws : List (Loc × DWord × DWord)) (l : Loc) :
    (g.enter now sp lat ds ws).file l = g.file l := by cases l <;> rfl
@[simp] theorem Group.enter_splits (g : Group) (now sp lat : Nat) (ds : List (Nat × Nat)) (ws : List (Loc × DWord × DWord)) :
    (g.enter now sp lat ds ws).splits = g.splits := rfl
@[simp] theorem Group.enter_grp (g : Group) (now sp lat : Nat) (ds : List (Nat × Nat)) (ws : List (Loc × DWord × DWord)) :
    (g.enter now sp lat ds ws).grp = g.grp := rfl

/-! A group keeps its number through arrivals and fusions. -/

@[simp] theorem Group.landSplits_grp (g : Group) (l : List Nat) : (g.landSplits l).grp = g.grp := by
  unfold Group.landSplits
  dsimp only
  have h : ∀ (p : Pend → Bool) (es : List Pend) (g : Group), (es.foldl (fun g e => if p e then g.land e else g) g).grp = g.grp := by
    intro p es
    induction es with
    | nil => exact fun _ => rfl
    | cons e es ih =>
      intro g
      rw [List.foldl_cons, ih]
      split
      · exact Group.setFile_grp _ _ _ _
      · rfl
  exact h _ _ _
@[simp] theorem Group.wake_grp (g : Group) : g.wake.grp = g.grp := rfl
@[simp] theorem Group.modSplit_grp (g : Group) (i : Nat) (f : Split → Split) : (g.modSplit i f).grp = g.grp := rfl
@[simp] theorem Group.modSplit_file (g : Group) (i : Nat) (f : Split → Split) (l : Loc) : (g.modSplit i f).file l = g.file l := by
  cases l <;> rfl
@[simp] theorem Group.promote_grp (g : Group) (j : Nat) (e : Option Nat) : (g.promote j e).grp = g.grp := by
  unfold Group.promote
  split
  · rfl
  · dsimp only; split <;> rfl
@[simp] theorem Group.fuse_grp (g : Group) (now j : Nat) : (g.fuse now j).grp = g.grp := by
  unfold Group.fuse
  split
  · rfl
  · split <;> rfl
@[simp] theorem Group.arrive_grp (g : Group) (now : Nat) (sp : Split) : (g.arrive now sp).grp = g.grp := by
  unfold Group.arrive
  split
  · rfl
  · simp
@[simp] theorem Group.settle_grp (g : Group) (now n : Nat) : (g.settle now n).grp = g.grp := by
  induction n generalizing g with
  | zero => rfl
  | succ n ih =>
    unfold Group.settle
    split
    · rfl
    · rw [ih]; simp
@[simp] theorem Group.autoJump_grp (g : Group) (now : Nat) (refill : DWord) : (g.autoJump now refill).grp = g.grp := by
  unfold Group.autoJump
  simp
@[simp] theorem Group.boundary_grp (g : Group) (now sp : Nat) : (g.boundary now sp).grp = g.grp := by
  unfold Group.boundary
  split <;> simp
@[simp] theorem Group.move_grp (g : Group) (now sp : Nat) (pc : DWord) (a : Arrived) : (g.move now sp pc a).grp = g.grp := by
  simp [Group.move]

/-- Without a split below a join record no split arrives. -/
theorem Group.settle_of_none (g : Group) (now n : Nat) (h : ∀ x ∈ g.splits, x.parent = none) : g.settle now n = g := by
  cases n with
  | zero => rfl
  | succ n =>
    have : g.splits.find? (fun x => decide (x.hold = .run ∧ x.entry.isSome ∧ x.parent.isSome ∧ x.rpc = some x.pc)) = none := by
      rw [List.find?_eq_none]
      intro x hx
      simp [h x hx]
    unfold Group.settle
    rw [this]

/-- At a boundary where no split hangs below a join record or is to leave by the automatic jump, nothing happens. -/
theorem Group.boundary_of_none (g : Group) (now sp : Nat) (h : ∀ x ∈ g.splits, x.parent = none ∧ x.leave = none) :
    g.boundary now sp = g := by
  have e : (g.split? sp).bind (·.leave) = none := by
    cases hs : g.split? sp with
    | none => rfl
    | some x => exact (h x (List.mem_of_find?_eq_some hs)).2
  unfold Group.boundary
  rw [e]
  exact Group.settle_of_none _ _ _ fun x hx => (h x hx).1

/-- Where no split hangs below a join record or is to leave by the automatic jump, a move changes the moved split alone. -/
theorem Group.move_of_none (g : Group) (now sp : Nat) (pc : DWord) (a : Arrived)
    (h : ∀ x ∈ g.splits, x.parent = none ∧ x.leave = none) :
    g.move now sp pc a =
      g.modSplit sp fun x => { x with pc := pc, arrivedBy := a, only := none, hold := .run, words := 0, bar := none } := by
  unfold Group.move
  apply Group.boundary_of_none
  intro x hx
  simp only [Group.modSplit, List.mem_map] at hx
  obtain ⟨y, hy, rfl⟩ := hx
  split
  · exact h y hy
  · exact h y hy

/-- The splits of a lone split's group after its slot: the split itself, still below no record. -/
theorem Group.consume_lone (g : Group) (sp : Split) (now st : Nat) (b : Bool) (h : g.splits = [sp]) :
    (g.consume now sp.id st b).splits =
      [{ sp with readyAt := now + st + 1, issuedAt := now, loud := sp.loud || b }] := by
  simp [Group.consume, h]

/-- A lone split completes an instruction with fixed-latency results: it stands at the next instruction, the results are
in flight, the file is as before and nothing else of the state has changed (05 R57). -/
theorem Iss.finish_lone {x : Iss} {s : State} (i : Instr) (h : Hdr) (lat : Nat) (ws : List (Loc × DWord × DWord))
    (e : s.at? x.r = some x) (l : x.lone) :
    ∃ g y, OnlyGroup x.r g s (x.finish i h lat ws s) ∧ g.splits = [y] ∧ y.mask = x.sp.mask ∧ y.pc = x.next h ∧
      y.hold = .run ∧ (∀ p, g.file p = x.g.file p) ∧ g.ops = x.g.ops ∧ g.ctrs = x.g.ctrs ∧ g.occ = x.g.occ := by
  obtain ⟨-, t, -, gg, -⟩ := State.at?_eq e
  obtain ⟨hs, hp, hl⟩ := l
  refine ⟨_, exists_and_left.mpr ⟨State.modG_onlyGroup _ (fun g => by simp) t gg, ?_⟩⟩
  have s1 := Group.consume_lone (x.g.enter s.now x.sp.id lat (x.g.fixedDests x.sp.id h i) ws) x.sp s.now h.st.toNat
    (ws.any (x.g.changes x.sp.id)) hs
  generalize e1 : (x.g.enter s.now x.sp.id lat (x.g.fixedDests x.sp.id h i) ws).consume s.now x.sp.id h.st.toNat
    (ws.any (x.g.changes x.sp.id)) = g1 at s1 ⊢
  have m1 := Group.move_of_none g1 s.now x.sp.id (x.next h) .seq (by rw [s1]; simp [hp, hl])
  rw [m1]
  have s2 : ∀ f, (g1.modSplit x.sp.id f).splits = g1.splits.map f := fun f => by simp [Group.modSplit, s1]
  simp only [s1, List.map_cons, List.map_nil] at s2
  refine ⟨_, s2 _, rfl, rfl, rfl, fun p => ?_, ?_, ?_, ?_⟩
  · rw [Group.modSplit_file, ← e1]; simp
  all_goals
    simp only [Group.modSplit, ← e1]
    rfl

/-- A lone split passes an instruction: it stands at the next one and nothing else has changed. -/
theorem Iss.pass_lone {x : Iss} {s : State} (h : Hdr) (b : Bool) (e : s.at? x.r = some x) (l : x.lone) :
    ∃ g y, OnlyGroup x.r g s (x.pass h b s) ∧ g.splits = [y] ∧ y.mask = x.sp.mask ∧ y.pc = x.next h ∧
      y.hold = .run ∧ (∀ p, g.file p = x.g.file p) ∧ g.ops = x.g.ops ∧ g.ctrs = x.g.ctrs ∧ g.occ = x.g.occ := by
  obtain ⟨-, t, -, gg, -⟩ := State.at?_eq e
  obtain ⟨hs, hp, hl⟩ := l
  refine ⟨_, exists_and_left.mpr ⟨State.modG_onlyGroup _ (fun g => by simp) t gg, ?_⟩⟩
  have s1 := Group.consume_lone x.g x.sp s.now h.st.toNat b hs
  generalize e1 : x.g.consume s.now x.sp.id h.st.toNat b = g1 at s1 ⊢
  have m1 := Group.move_of_none g1 s.now x.sp.id (x.next h) .seq (by rw [s1]; simp [hp, hl])
  rw [m1]
  have s2 : ∀ f, (g1.modSplit x.sp.id f).splits = g1.splits.map f := fun f => by simp [Group.modSplit, s1]
  simp only [s1, List.map_cons, List.map_nil] at s2
  refine ⟨_, s2 _, rfl, rfl, rfl, fun p => ?_, ?_, ?_, ?_⟩
  · rw [Group.modSplit_file, ← e1]; simp
  all_goals
    simp only [Group.modSplit, ← e1]
    rfl

end Sys2Proof.Machine
end

