-- ==== Sys2Proof/Laws/Memory.lean ====
section
/-! SUPPORT. Laws of the memory hierarchy: what a byte reads as after a line is written, and that every operation on
memory keeps its canonical form. -/

namespace Sys2Proof.Machine

/-! ## Lines -/

@[simp] theorem lineOf_setLine (m : Map Line) (k j : Nat) (l : Line) :
    lineOf (setLine m k l) j = if j = k then (if l.valid = 0 then Line.none else l) else lineOf m j := by
  unfold lineOf setLine
  by_cases e : l.valid = 0
  · rw [if_pos e, Map.get_del, if_pos e]
  · rw [if_neg e, Map.get_put, if_neg e]

/-- The low byte of ones, bit by bit. -/
theorem byte_ones (i : Nat) : (0xFF#512).getLsbD i = decide (i < 8) := by
  by_cases hi : i < 8
  · have : i = 0 ∨ i = 1 ∨ i = 2 ∨ i = 3 ∨ i = 4 ∨ i = 5 ∨ i = 6 ∨ i = 7 := by omega
    rcases this with h | h | h | h | h | h | h | h <;> subst h <;> decide +kernel
  · have e : (0xFF#512) = BitVec.setWidth 512 (0xFF#8) := by decide +kernel
    rw [e, BitVec.getLsbD_setWidth, BitVec.getLsbD_of_ge _ _ (by omega)]
    simp [hi]

/-- The byte mask, bit by bit. -/
theorem wide_bit (m : BitVec 64) (j : Nat) : (wide m).getLsbD j = (decide (j < 512) && m.getLsbD (j / 8)) := by
  have h : ∀ n ≤ 64, ((List.range n).foldl (fun a i => if m.getLsbD i then a ||| (0xFF#512 <<< (8 * i)) else a) (0 : BitVec 512)).getLsbD j =
      (decide (j < 512) && decide (j / 8 < n) && m.getLsbD (j / 8)) := by
    intro n
    induction n with
    | zero => simp
    | succ n ih =>
      intro hn
      rw [List.range_succ, List.foldl_append, List.foldl_cons, List.foldl_nil]
      have ones : (0xFF#512 <<< (8 * n)).getLsbD j = (decide (j < 512) && decide (j / 8 = n)) := by
        rw [BitVec.getLsbD_shiftLeft]
        by_cases a : j < 512
        · by_cases b : j < 8 * n
          · simp [a, b]; omega
          · have c : (0xFF#512).getLsbD (j - 8 * n) = decide (j - 8 * n < 8) := byte_ones _
            simp only [a, b, c, decide_true, decide_false, Bool.not_false, Bool.true_and, Bool.and_true, decide_eq_decide]
            omega
        · simp [a]
      split
      · rename_i hm
        rw [BitVec.getLsbD_or, ih (by omega), ones]
        by_cases e : j / 8 = n
        · simp [e, hm]
        · have : decide (j / 8 < n + 1) = decide (j / 8 < n) := by simp only [decide_eq_decide]; omega
          rw [this]; simp [e]
      · rename_i hm
        rw [ih (by omega)]
        by_cases e : j / 8 = n
        · simp [e, hm]
        · have : decide (j / 8 < n + 1) = decide (j / 8 < n) := by simp only [decide_eq_decide]; omega
          rw [this]
  have := h 64 (Nat.le_refl _)
  unfold wide
  rw [this]
  by_cases a : j < 512
  · have : j / 8 < 64 := by omega
    simp [a, this]
  · simp [a]

/-- A byte of a line into which bytes were merged. -/
theorem Line.byte_merge (l : Line) (m : BitVec 64) (d : BitVec 512) (b : Bool) (i : Nat) (hi : i < 64) :
    (l.merge m d b).byte i = if m.getLsbD i then d.extractLsb' (8 * i) 8 else l.byte i := by
  unfold Line.byte Line.merge
  apply BitVec.eq_of_getLsbD_eq
  intro j hj
  have q : (8 * i + j) / 8 = i := by omega
  have r : 8 * i + j < 512 := by omega
  simp only [BitVec.getLsbD_extractLsb', BitVec.getLsbD_or, BitVec.getLsbD_and, BitVec.getLsbD_not, wide_bit, q, r, decide_true,
    Bool.true_and]
  cases e : m.getLsbD i <;> simp [BitVec.getLsbD_extractLsb']

@[simp] theorem Line.merge_valid (l : Line) (m : BitVec 64) (d : BitVec 512) (b : Bool) : (l.merge m d b).valid = l.valid ||| m := rfl

theorem Line.merge_dirty (l : Line) (m : BitVec 64) (d : BitVec 512) (b : Bool) :
    (l.merge m d b).dirty = if b then l.dirty ||| m else l.dirty := rfl

/-- The lines of a cache stay in canonical form. -/
theorem setLine_wf {m : Map Line} (k : Nat) (l : Line) (h : Map.wf Line.none m = true) : Map.wf Line.none (setLine m k l) = true := by
  unfold setLine
  split
  · exact Map.wf_del k h
  · rename_i v
    refine Map.wf_put k ?_ h
    intro e
    exact v (by rw [e]; rfl)

/-- Dirty bytes stay valid when bytes are merged. -/
theorem Line.merge_dirty_valid {l : Line} (m : BitVec 64) (d : BitVec 512) (b : Bool) (h : l.dirty &&& ~~~l.valid = 0) :
    (l.merge m d b).dirty &&& ~~~(l.merge m d b).valid = 0 := by
  have h' : ∀ i : Nat, i < 64 → (l.dirty.getLsbD i && !l.valid.getLsbD i) = false := by
    intro i hi
    have := congrArg (fun v => v.getLsbD i) h
    simpa [hi] using this
  apply BitVec.eq_of_getLsbD_eq
  intro i hi
  have := h' i hi
  have z : (0 : BitVec 64).getLsbD i = false := by simp
  rw [Line.merge_dirty, Line.merge_valid, z]
  cases b <;> simp only [Bool.false_eq_true, if_true, if_false, BitVec.getLsbD_and, BitVec.getLsbD_or, BitVec.getLsbD_not, hi,
    decide_true, Bool.true_and] <;>
    revert this <;> cases l.dirty.getLsbD i <;> cases l.valid.getLsbD i <;> cases m.getLsbD i <;> decide

/-! ## Bytes of memory -/

/-- A byte of memory after a line was written under a mask. -/
theorem State.memLine_get (s : State) (k : Nat) (m : BitVec 64) (d : BitVec 512) (pa : Nat) :
    (s.memLine k m d).mem.get 0 pa =
      if pa / 64 = k ∧ m.getLsbD (pa % 64) = true then d.extractLsb' (8 * (pa % 64)) 8 else s.mem.get 0 pa := by
  have h : ∀ n ≤ 64, Map.get 0 ((List.range n).foldl (fun mm i =>
      if m.getLsbD i then Map.set 0 mm (64 * k + i) (d.extractLsb' (8 * i) 8) else mm) s.mem) pa =
      if pa / 64 = k ∧ pa % 64 < n ∧ m.getLsbD (pa % 64) = true then d.extractLsb' (8 * (pa % 64)) 8 else Map.get 0 s.mem pa := by
    intro n
    induction n with
    | zero => simp
    | succ n ih =>
      intro hn
      have ih := ih (by omega)
      rw [List.range_succ, List.foldl_append, List.foldl_cons, List.foldl_nil]
      by_cases e : pa = 64 * k + n
      · have a : pa / 64 = k := by omega
        have b : pa % 64 = n := by omega
        cases hm : m.getLsbD n
        · rw [if_neg (by simp), ih]; simp [b, hm]
        · rw [if_pos rfl, Map.get_set, if_pos e]; simp [a, b, hm]
      · have c : (pa / 64 = k ∧ pa % 64 < n + 1 ∧ m.getLsbD (pa % 64) = true) ↔ (pa / 64 = k ∧ pa % 64 < n ∧ m.getLsbD (pa % 64) = true) := by
          constructor
          · rintro ⟨a, b, c⟩; exact ⟨a, by omega, c⟩
          · rintro ⟨a, b, c⟩; exact ⟨a, by omega, c⟩
        cases hm : m.getLsbD n
        · rw [if_neg (by simp), ih]; simp only [c]
        · rw [if_pos rfl, Map.get_set, if_neg e, ih]; simp only [c]
  have := h 64 (Nat.le_refl _)
  unfold State.memLine
  simp only
  rw [this]
  have lt : pa % 64 < 64 := Nat.mod_lt _ (by decide)
  simp only [lt, true_and]

/-! ## The canonical form of memory -/

/-- Memory is in canonical form. -/
abbrev State.memOk (s : State) : Prop := Memory.wf s.mem = true

theorem State.reset_memOk : State.reset.memOk := rfl

theorem State.memLine_memOk {s : State} (k : Nat) (m : BitVec 64) (d : BitVec 512) (h : s.memOk) : (s.memLine k m d).memOk := by
  show Map.wf 0 _ = true
  refine foldl_keeps (P := fun mm : Map Byte => Map.wf 0 mm = true) (fun mm i hm => ?_) _ _ h
  split
  · exact Map.wf_set _ _ hm
  · exact hm

theorem State.homeLine_memOk {s : State} (k : Nat) (m : BitVec 64) (d : BitVec 512) (h : s.memOk) : (s.homeLine k m d).memOk := by
  unfold State.homeLine
  split
  · exact State.memLine_memOk k m d h
  · split
    · exact h
    · exact State.memLine_memOk k m d h

theorem State.ucLine_memOk {s : State} (k : Nat) (m : BitVec 64) (d : BitVec 512) (h : s.memOk) : (s.ucLine k m d).memOk := by
  have a := State.memLine_memOk k m d h
  unfold State.ucLine
  generalize s.memLine k m d = t at a ⊢
  cases homeDie (64 * k) <;> exact a

theorem State.homeFlush_memOk {s : State} (k : Nat) (h : s.memOk) : (s.homeFlush k).memOk := by
  unfold State.homeFlush
  cases homeDie (64 * k) with
  | none => exact h
  | some x =>
    have a := State.memLine_memOk k (lineOf (s.die x).dc k).dirty (lineOf (s.die x).dc k).data h
    dsimp only
    generalize s.memLine k _ _ = t at a ⊢
    exact a

theorem State.homeWrite_memOk {s : State} (pa : Nat) (bs : List Byte) (h : s.memOk) : (s.homeWrite pa bs).memOk :=
  foldl_keeps (P := State.memOk) (fun _ r hs => State.homeLine_memOk r.1 r.2.1 r.2.2 hs) _ _ h

theorem State.ucWrite_memOk {s : State} (pa : Nat) (bs : List Byte) (h : s.memOk) : (s.ucWrite pa bs).memOk :=
  foldl_keeps (P := State.memOk) (fun _ r hs => State.ucLine_memOk r.1 r.2.1 r.2.2 hs) _ _ h

theorem State.wbDie_memOk {s : State} (d k : Nat) (h : s.memOk) : (s.wbDie d k).memOk := by
  unfold State.wbDie
  show State.memOk (ite _ _ _)
  split
  · exact h
  · exact State.homeLine_memOk k _ _ h

@[simp] theorem State.dieFill_mem (s : State) (d pa : Nat) (b : Byte) : (s.dieFill d pa b).mem = s.mem := rfl

theorem State.dieLine_memOk {s : State} (d k : Nat) (m : BitVec 64) (x : BitVec 512) (h : s.memOk) : (s.dieLine d k m x).memOk := by
  unfold State.dieLine
  split
  · exact State.homeLine_memOk k m x h
  · show State.memOk (ite _ _ _)
    split
    · split
      · exact State.wbDie_memOk d _ h
      · exact h
    · exact h

theorem State.dieWrite_memOk {s : State} (d pa : Nat) (bs : List Byte) (h : s.memOk) : (s.dieWrite d pa bs).memOk :=
  foldl_keeps (P := State.memOk) (fun _ r hs => State.dieLine_memOk d r.1 r.2.1 r.2.2 hs) _ _ h

theorem State.wbL1_memOk {s : State} (c k : Nat) (h : s.memOk) : (s.wbL1 c k).memOk := by
  unfold State.wbL1
  show State.memOk (ite _ _ _)
  split
  · exact h
  · exact State.dieLine_memOk (dieOf c) k _ _ h

theorem State.evictL1_memOk {s : State} (c k : Nat) (h : s.memOk) : (s.evictL1 c k).memOk := State.wbL1_memOk c k h

theorem State.evictDc_memOk {s : State} (d k : Nat) (h : s.memOk) : (s.evictDc d k).memOk := by
  unfold State.evictDc
  split
  · exact State.homeFlush_memOk k h
  · exact State.wbDie_memOk d k h

@[simp] theorem State.l1Fetch_mem (s : State) (c pa : Nat) : (s.l1Fetch c pa).mem = s.mem := by
  unfold State.l1Fetch
  dsimp only
  split <;> rfl

theorem State.l1Line_memOk {s : State} (c k : Nat) (m : BitVec 64) (x : BitVec 512) (h : s.memOk) : (s.l1Line c k m x).memOk := by
  unfold State.l1Line
  split
  · show State.memOk (ite _ _ _)
    split
    · split
      · exact State.wbL1_memOk c _ h
      · exact h
    · exact h
  · exact State.dieLine_memOk (dieOf c) k m x h

@[simp] theorem State.grpTouch_mem (s : State) (c : Nat) (bs : List PByte) : (s.grpTouch c bs).mem = s.mem :=
  foldl_keeps (P := fun t : State => t.mem = s.mem) (fun t b ht => by split <;> simp [ht]) _ _ rfl

theorem State.grpWrite_memOk {s : State} (c : Nat) (bs : List (PByte × Byte)) (h : s.memOk) : (s.grpWrite c bs).memOk := by
  refine foldl_keeps (P := State.memOk) (fun t r ht => ?_) _ _ h
  split
  · exact State.ucWrite_memOk _ _ ht
  · exact foldl_keeps (P := State.memOk) (fun _ x hx => State.l1Line_memOk c x.1 x.2.1 x.2.2 hx) _ _ ht

theorem State.engPrep_memOk {s : State} (c : Nat) (bs : List PByte) (h : s.memOk) : (s.engPrep c bs).memOk :=
  foldl_keeps (P := State.memOk) (fun _ k hk => State.wbL1_memOk c k hk) _ _ h

theorem State.engWrite_memOk {s : State} (c : Nat) (bs : List (PByte × Byte)) (h : s.memOk) : (s.engWrite c bs).memOk := by
  refine foldl_keeps (P := State.memOk) (fun t r ht => ?_) _ _
    (foldl_keeps (P := State.memOk) (fun _ k hk => State.evictL1_memOk c k hk) _ _ h)
  split
  · exact State.ucWrite_memOk _ _ ht
  · exact State.dieWrite_memOk _ _ _ ht

theorem State.drainCore_memOk {s : State} (c : Nat) (h : s.memOk) : (s.drainCore c).memOk :=
  foldl_keeps (P := State.memOk) (fun t e ht => by
    cases e
    · exact State.wbL1_memOk c _ ht
    · exact ht) _ _ h

theorem State.drainDie_memOk {s : State} (d : Nat) (h : s.memOk) : (s.drainDie d).memOk :=
  foldl_keeps (P := State.memOk) (fun t e ht => by
    cases e
    · exact State.wbDie_memOk d _ ht
    · exact ht) _ _ h

theorem State.release_memOk {s : State} (c : Nat) (sc : Scope) (h : s.memOk) : (s.release c sc).memOk := by
  cases sc
  · exact h
  · exact State.drainCore_memOk c h
  · exact State.drainCore_memOk c h
  · exact State.drainDie_memOk _ (State.drainCore_memOk c h)
  · exact State.drainDie_memOk _ (State.drainCore_memOk c h)

@[simp] theorem State.acquire_mem (s : State) (c : Nat) (sc : Scope) : (s.acquire c sc).mem = s.mem := by
  cases sc <;> rfl

theorem State.orderActs_memOk {s : State} (c : Nat) (o : Order) (sc : Scope) (h : s.memOk) : (s.orderActs c o sc).memOk := by
  have a (t : State) (ht : t.memOk) : (t.acquire c sc).memOk := by unfold State.memOk; rw [State.acquire_mem]; exact ht
  cases o
  · exact h
  · exact a _ h
  · exact State.release_memOk c sc h
  · exact a _ (State.release_memOk c sc h)

@[simp] theorem State.fillTlb_mem (s : State) (bench core ctx : Nat) (vas : List Nat) : (s.fillTlb bench core ctx vas).mem = s.mem :=
  foldl_keeps (P := fun t : State => t.mem = s.mem) (fun t va ht => by
    split
    · exact ht
    · split
      · exact ht
      · simpa using ht) _ _ rfl

theorem State.devWrite_memOk {s : State} (ctx va : Nat) (bs : List Byte) (h : s.memOk) : (s.devWrite ctx va bs).memOk :=
  foldl_keeps (P := State.memOk) (fun t c ht => by
    unfold State.devPut
    split
    · exact ht
    · exact State.homeWrite_memOk _ _ ht) _ _ h

theorem State.homePut_memOk {s : State} (bs : List (PByte × Byte)) (h : s.memOk) : (s.homePut bs).memOk :=
  foldl_keeps (P := State.memOk) (fun t r ht => by
    split
    · exact State.ucWrite_memOk _ _ ht
    · exact State.homeWrite_memOk _ _ ht) _ _ h

@[simp] theorem State.dropTlb_mem (s : State) (p : TlbEnt → Bool) : (s.dropTlb p).mem = s.mem := rfl

theorem State.setBit_memOk {s : State} (ctx : Nat) (map : DWord) (b : Nat) (h : s.memOk) : (s.setBit ctx map b).memOk :=
  State.devWrite_memOk _ _ _ h

theorem packageReset_memOk {s t : State} (h : s.memOk) (e : execPackageReset s = .next t) : t.memOk := by
  cases e; exact Map.wf_range _ _ h

/-- A placed instruction is written through the same operations. -/
theorem State.place_memOk {s : State} (bs : List Byte) (h : s.memOk) : (s.place bs).memOk :=
  foldl_keeps (P := State.memOk) (fun _ w hw => State.homeWrite_memOk w.1 w.2 hw) (placedWrites bs) s h

/-! ## Walks and the device's reads -/

/-- One table of a walk reads the bytes at their homes alone (26 R332). -/
theorem State.walkAt_of {s t : State} (hb : ∀ pa, t.homeByte pa = s.homeByte pa) (hd : ∀ pa, t.homeBad pa = s.homeBad pa)
    (ctx va lvl tbl : Nat) (n : Nat → Except (Cause × Nat) TlbEnt) : t.walkAt ctx va lvl tbl n = s.walkAt ctx va lvl tbl n := by
  have h8 : ∀ k, t.homeRead k 8 = s.homeRead k 8 := fun k => by unfold State.homeRead; simp only [hb]
  have hb8 : ∀ k, ((List.range 8).any fun i => t.homeBad (k + i)) = (List.range 8).any fun i => s.homeBad (k + i) :=
    fun k => by simp only [hd]
  unfold State.walkAt
  simp only [h8, hb8]

/-- A walk reads the bytes at their homes alone (26 R332). -/
theorem State.walk_of {s t : State} (hb : ∀ pa, t.homeByte pa = s.homeByte pa) (hd : ∀ pa, t.homeBad pa = s.homeBad pa)
    (ctx va : Nat) : ∀ lvl tbl, t.walk ctx va lvl tbl = s.walk ctx va lvl tbl
  | 0, tbl => State.walkAt_of hb hd ctx va 0 tbl _
  | l + 1, tbl => by
    have e : t.walk ctx va l = s.walk ctx va l := funext (State.walk_of hb hd ctx va l)
    show t.walkAt _ _ _ _ (t.walk ctx va l) = s.walkAt _ _ _ _ (s.walk ctx va l)
    rw [e]
    exact State.walkAt_of hb hd ctx va (l + 1) tbl _

/-- What the device reads depends on the bytes at their homes, the contexts and the pending invalidations, and not on the
teams and launches. -/
theorem State.devRead_of {s t : State} (hb : ∀ pa, t.homeByte pa = s.homeByte pa) (hd : ∀ pa, t.homeBad pa = s.homeBad pa)
    (hc : t.ctxs = s.ctxs) (hi : t.invals = s.invals) (hn : t.now = s.now) (ctx va n : Nat) :
    t.devRead ctx va n = s.devRead ctx va n := by
  have hw : ∀ a, t.walked ctx a = s.walked ctx a := fun a => by
    simp only [State.walked, State.ctx?, hc, State.walk_of hb hd]
  have ha : ∀ a, t.devAddr ctx a = s.devAddr ctx a := fun a => by
    simp only [State.devAddr, State.pick, hi, hn, hw]
  simp only [State.devRead, ha, hb]
@[simp] theorem State.devRead_with (s : State) (ts : List Team) (ls : List Launch) (ctx va n : Nat) :
    ({ s with teams := ts, launches := ls } : State).devRead ctx va n = s.devRead ctx va n :=
  State.devRead_of (fun _ => rfl) (fun _ => rfl) rfl rfl rfl ctx va n

end Sys2Proof.Machine
end

