-- ==== Sys2Proof/Tests/Slice0.lean ====
section
/-! SUPPORT. Tests of the model: ill-formed terms that the static checks refuse, words written out from the encoding
tables, one-step tests with values from the spec, and for every statement with hypotheses a state that meets them. -/

namespace Sys2Proof.Tests

open Sys2Proof Sys2Proof.Machine

set_option Elab.async false

/-! ## Words -/

/-- A register field without index. -/
def r (n : BitVec 8) : Reg := ⟨n, false⟩

/-- Length code, ST = 2, guard !k3. -/
def hd (l : Len) : Hdr := ⟨l, 2, 3, true, 0⟩

/-- As `hd`, with an index register. -/
def hx (l : Len) (xs : BitVec 2) : Hdr := ⟨l, 2, 3, true, xs⟩

/-- Word 0 by Table 5.1 with ST = 2, G = 3, GN = 1: SUB, D, OP, L. -/
def w0 (sub : BitVec 6) (d op : BitVec 8) (l : BitVec 2) : Word := sub ++ d ++ 1#1 ++ 0b0011#4 ++ 0b010#3 ++ op ++ l

/-- Word 1 by Table 5.3: MOD, XS, IX.C to IX.D, C, B, A. -/
def w1 (md xs : BitVec 2) (ix : BitVec 4) (c b a : BitVec 8) : Word := md ++ xs ++ ix ++ c ++ b ++ a

/-- A short header. -/
def u (l : Len) : Hdr := ⟨l, 0, 0, false, 0⟩

/-- Step 2 of Table 5.5 refuses a length that the slot does not admit (Table 5.12), for the shared slots too. -/
theorem test_refuses_lengths :
    (Instr.nop (u .w2)).wellFormed = false ∧ (Instr.add (u .w1) .z32 (r 1) (r 2) (.vec (r 3))).wellFormed = false ∧
    (Instr.smovImm6 (u .w2) 1 1).wellFormed = false ∧ (Instr.smov (u .w1) (r 1) (.src (.reg (r 2)))).wellFormed = false ∧
    (Instr.bar (u .w2)).wellFormed = false ∧ (Instr.barCounted (u .w1) (r 1)).wellFormed = false ∧
    (Instr.trig (u .w2) (.ctr 0) (.reg (r 1))).wellFormed = false := by decide +kernel

/-- Step 3 refuses SUB and MOD values, register ranges, pair bases, XS without IX and unused fields (R48, R51). -/
theorem test_refuses_operands :
    (Instr.add (u .w2) .rx3 (r 1) (r 2) (.vec (r 3))).wellFormed = false ∧
    (Instr.kand (u .w2) (r 16) (r 1) (r 2)).wellFormed = false ∧
    (Instr.sadd (u .w2) (r 68) (r 1) (.reg (r 2))).wellFormed = false ∧
    (Instr.sadd (u .w2) ⟨64, true⟩ (r 1) (.reg (r 2))).wellFormed = false ∧
    (Instr.accz (u .w2) (r 32)).wellFormed = false ∧
    (Instr.add (u .w2) .z64 (r 1) (r 2) (.vec (r 4))).wellFormed = false ∧
    (Instr.add ⟨.w2, 0, 0, false, 1⟩ .z32 (r 1) (r 2) (.vec (r 4))).wellFormed = false ∧
    (Instr.add (u .w3) .s16 (r 1) (r 2) (.imm 0x00008000)).wellFormed = false ∧
    (Instr.add (u .w2) .z32 (r 1) (r 2) (.imm 5)).wellFormed = false ∧
    (Instr.sadd (u .w3) (r 1) (r 2) (.lit 5)).wellFormed = false ∧
    (Instr.shfl (u .w2) .idx true (r 3) (r 2) (.vec (r 4))).wellFormed = false ∧
    (Instr.rred (u .w3) .exch .s32 2 0 (.scl (r 1)) (r 2) (r 4) none).wellFormed = false ∧
    (Instr.csrr (u .w2) 2 (r 1)).wellFormed = false := by decide +kernel

/-- Step 4 refuses an immediate without word 2, a per-lane special register in SMOV, a literal of a 32-bit type, WAITN with
MOD = 01, and GATHER.WSUM without weights. -/
theorem test_refuses_forms :
    (Instr.add (u .w2) .z32 (r 1) (r 2) (.imm 0)).wellFormed = false ∧
    (Instr.smov (u .w2) (r 1) (.special 0)).wellFormed = false ∧
    (Instr.mov (u .w5) .z32 (r 1) (.lit 5)).wellFormed = false ∧
    (Instr.waitn (u .w2) 0 .word).wellFormed = false ∧
    (Instr.barv (u .w2) 0 (.imm 0)).wellFormed = false ∧
    (Instr.gather (u .w2) .wsum false false 1 2 (r 8) (.imm 1) none).wellFormed = false := by decide +kernel

/-- Events have no encoding. -/
theorem test_events_have_no_words :
    (Instr.bringUp).wellFormed = false ∧ (Instr.refillWake ⟨0, 0, 0⟩).wellFormed = false ∧
    (Instr.packageReset).encode = [] := by decide +kernel

/-- A zero operand word is read as such where the table gives no bits for it. -/
theorem test_table_words :
    decodeTableWord 32 0x00000000 = some (.nop (u .w1)) ∧ decodeTableWord 32 0x140003C8 = some (.trap (u .w1) 5) ∧
    decodeTableWord 64 0x00000000001403C1 = some (.csrr (u .w2) 0 (r 5)) ∧
    decodeTableWord 96 0x13400C0A0618000382 = some (.rwr (u .w3) 6 (.scl (r 6)) (r 10) (r 12) (some 3)) := by
  decide +kernel


/-- Words of class 0x0 written out from Table 9.1. -/
theorem test_words_control_1 :
    decodeWords (w0 0x00 0 0x00 0) 0 0 0 0 =
      .instr (.nop (hd .w1)) ∧
    decodeWords (w0 0x00 0 0x01 1) 0x0008FFFA 0 0 0 =
      .instr (.bra (hd .w2) 8 (-6)) ∧
    decodeWords (w0 0x00 0 0x01 2) 70000 (-70000) 0 0 =
      .instr (.bra (hd .w3) 70000 (-70000)) ∧
    decodeWords (w0 0x00 69 0x02 1) 0x00040002 0 0 0 =
      .instr (.brc (hd .w2) (.lane 5 true) 4 2) ∧
    decodeWords (w0 0x00 137 0x02 1) 0x00040002 0 0 0 =
      .instr (.brc (hd .w2) (.nz 9) 4 2) ∧
    decodeWords (w0 0x00 201 0x02 1) 0x00040002 0 0 0 =
      .instr (.brc (hd .w2) (.z 9) 4 2) ∧
    decodeWords (w0 0x00 0 0x03 1) 0x0006001E 0 0 0 =
      .instr (.brx (hd .w2) 6 30) ∧
    decodeWords (w0 0x00 62 0x04 1) 0x0005FFFD 0 0 0 =
      .instr (.call (hd .w2) 62 5 (-3)) ∧
    decodeWords (w0 0x00 62 0x05 0) 0 0 0 0 =
      .instr (.ret (hd .w1) 62) := by decide +kernel

/-- Words of class 0x0 written out from Table 9.1. -/
theorem test_words_control_2 :
    decodeWords (w0 0x00 0 0x06 0) 0 0 0 0 =
      .instr (.land (hd .w1)) ∧
    decodeWords (w0 0x00 0 0x07 0) 0 0 0 0 =
      .instr (.exit (hd .w1)) ∧
    decodeWords (w0 0x00 4 0x08 0) 0 0 0 0 =
      .instr (.refill (hd .w1) 4) ∧
    decodeWords (w0 0x00 0 0x09 0) 0 0 0 0 =
      .instr (.yield (hd .w1)) ∧
    decodeWords (w0 0x25 0 0x0A 0) 0 0 0 0 =
      .instr (.spinh (hd .w1) 37) ∧
    decodeWords (w0 0x00 0 0x0B 0) 0 0 0 0 =
      .instr (.syncs (hd .w1)) ∧
    decodeWords (w0 0x00 0 0x0C 0) 0 0 0 0 =
      .instr (.halt (hd .w1)) ∧
    decodeWords (w0 0x00 7 0x0D 1) 0x0000FFF7 0 0 0 =
      .instr (.loop (hd .w2) 7 (-9)) := by decide +kernel

/-- Words of class 0x1 written out from Table 9.4. -/
theorem test_words_scalar_1 :
    decodeWords (w0 0x21 5 0x10 0) 0 0 0 0 =
      .instr (.smovImm6 (hd .w1) 5 33) ∧
    decodeWords (w0 0x00 5 0x10 1) (w1 0 0 0 0 6 0) 0 0 0 =
      .instr (.smov (hd .w2) (r 5) (.src (.reg (r 6)))) ∧
    decodeWords (w0 0x00 5 0x10 2) (w1 1 0 0 0 0 0) 0xFFFFFFFE 0 0 =
      .instr (.smov (hd .w3) (r 5) (.src (.imm 0xFFFFFFFE))) ∧
    decodeWords (w0 0x00 5 0x10 3) (w1 1 0 0 0 0 0) 0 0x9ABCDEF0 0x12345678 =
      .instr (.smov (hd .w5) (r 5) (.src (.lit 0x123456789ABCDEF0))) ∧
    decodeWords (w0 0x01 5 0x10 1) (w1 0 0 0 0 9 0) 0 0 0 =
      .instr (.smov (hd .w2) (r 5) (.special 9)) ∧
    decodeWords (w0 0x00 5 0x11 1) (w1 0 2 7 0 7 6) 0 0 0 =
      .instr (.sadd (hx .w2 2) ⟨5, true⟩ ⟨6, true⟩ (.reg ⟨7, true⟩)) ∧
    decodeWords (w0 0x00 5 0x12 2) (w1 1 0 0 0 0 6) 9 0 0 =
      .instr (.ssub (hd .w3) (r 5) (r 6) (.imm 9)) ∧
    decodeWords (w0 0x02 5 0x13 1) (w1 0 0 0 0 7 6) 0 0 0 =
      .instr (.smul (hd .w2) .hiu (r 5) (r 6) (.reg (r 7))) ∧
    decodeWords (w0 0x00 5 0x14 1) (w1 0 0 0 8 7 6) 0 0 0 =
      .instr (.smad (hd .w2) (r 5) (r 6) (r 7) (r 8)) := by decide +kernel

/-- Words of class 0x1 written out from Table 9.4. -/
theorem test_words_scalar_2 :
    decodeWords (w0 0x01 5 0x15 1) (w1 0 0 0 0 7 6) 0 0 0 =
      .instr (.sdiv (hd .w2) true false (r 5) (r 6) (.reg (r 7))) ∧
    decodeWords (w0 0x02 5 0x15 1) (w1 0 0 0 0 7 6) 0 0 0 =
      .instr (.sdiv (hd .w2) false true (r 5) (r 6) (.reg (r 7))) ∧
    decodeWords (w0 0x00 5 0x16 1) (w1 0 0 0 0 7 6) 0 0 0 =
      .instr (.sand (hd .w2) (r 5) (r 6) (.reg (r 7))) ∧
    decodeWords (w0 0x00 5 0x17 1) (w1 0 0 0 0 7 6) 0 0 0 =
      .instr (.sor (hd .w2) (r 5) (r 6) (.reg (r 7))) ∧
    decodeWords (w0 0x00 5 0x18 1) (w1 0 0 0 0 7 6) 0 0 0 =
      .instr (.sxor (hd .w2) (r 5) (r 6) (.reg (r 7))) ∧
    decodeWords (w0 0x00 5 0x19 1) (w1 0 0 0 0 7 6) 0 0 0 =
      .instr (.sshl (hd .w2) (r 5) (r 6) (.reg (r 7))) ∧
    decodeWords (w0 0x00 5 0x1A 1) (w1 0 0 0 0 7 6) 0 0 0 =
      .instr (.sshr (hd .w2) (r 5) (r 6) (.reg (r 7))) ∧
    decodeWords (w0 0x00 5 0x1B 1) (w1 0 0 0 0 7 6) 0 0 0 =
      .instr (.ssar (hd .w2) (r 5) (r 6) (.reg (r 7))) ∧
    decodeWords (w0 0x09 5 0x1C 1) (w1 0 0 0 0 7 6) 0 0 0 =
      .instr (.scmp (hd .w2) .geu (r 5) (r 6) (.reg (r 7))) := by decide +kernel

/-- Words of class 0x1 written out from Table 9.4. -/
theorem test_words_scalar_3 :
    decodeWords (w0 0x00 5 0x1D 1) (w1 0 0 0 8 7 6) 0 0 0 =
      .instr (.ssel (hd .w2) (r 5) (r 6) (r 7) (r 8)) ∧
    decodeWords (w0 0x01 5 0x1E 1) (w1 0 0 0 0 7 6) 0 0 0 =
      .instr (.srdv (hd .w2) true (r 5) (r 6) (.reg (r 7))) ∧
    decodeWords (w0 0x00 5 0x1F 1) (w1 0 0 0 0 7 0) 0 0 0 =
      .instr (.sldk (hd .w2) (r 5) (.reg (r 7))) := by decide +kernel

/-- Words of class 0x2 written out from Table 9.9. -/
theorem test_words_integer_1 :
    decodeWords (w0 0x0D 10 0x20 1) (w1 0 0 0 0 12 0) 0 0 0 =
      .instr (.mov (hd .w2) .z32 (r 10) (.src (.vec (r 12)))) ∧
    decodeWords (w0 0x0F 10 0x20 3) (w1 2 0 0 0 0 0) 0 0x05060708 0x01020304 =
      .instr (.mov (hd .w5) .z64 (r 10) (.lit 0x0102030405060708)) ∧
    decodeWords (w0 0x2D 10 0x20 1) (w1 0 0 0 0 2 0) 0 0 0 =
      .instr (.mov (hd .w2) .z32 (r 10) (.special 2)) ∧
    decodeWords (w0 0x0C 10 0x21 2) (w1 2 3 1 0 0 11) 77 0 0 =
      .instr (.add (hx .w3 3) .s32 ⟨10, true⟩ ⟨11, false⟩ (.imm 77)) ∧
    decodeWords (w0 0x0C 10 0x21 1) (w1 1 0 0 0 12 11) 0 0 0 =
      .instr (.add (hd .w2) .s32 (r 10) (r 11) (.scl (r 12))) ∧
    decodeWords (w0 0x0D 10 0x22 1) (w1 0 0 0 0 12 11) 0 0 0 =
      .instr (.sub (hd .w2) .z32 (r 10) (r 11) (.vec (r 12))) ∧
    decodeWords (w0 0x2C 10 0x23 1) (w1 0 0 0 0 12 11) 0 0 0 =
      .instr (.mul (hd .w2) true .s32 (r 10) (r 11) (.vec (r 12))) ∧
    decodeWords (w0 0x0D 10 0x24 1) (w1 0 0 0 0 12 11) 0 0 0 =
      .instr (.mulh (hd .w2) .z32 (r 10) (r 11) (.vec (r 12))) ∧
    decodeWords (w0 0x0C 10 0x25 1) (w1 0 0 0 13 12 11) 0 0 0 =
      .instr (.mad (hd .w2) false .s32 (r 10) (r 11) (.vec (r 12)) (r 13)) := by decide +kernel

/-- Words of class 0x2 written out from Table 9.9. -/
theorem test_words_integer_2 :
    decodeWords (w0 0x0D 10 0x26 1) (w1 0 0 0 3 12 11) 0 0 0 =
      .instr (.adc (hd .w2) .z32 (r 10) (r 11) (.vec (r 12)) (r 3)) ∧
    decodeWords (w0 0x0D 10 0x27 1) (w1 0 0 0 3 12 11) 0 0 0 =
      .instr (.sbb (hd .w2) .z32 (r 10) (r 11) (.vec (r 12)) (r 3)) ∧
    decodeWords (w0 0x0C 10 0x28 1) (w1 0 0 0 0 12 11) 0 0 0 =
      .instr (.min (hd .w2) .s32 (r 10) (r 11) (.vec (r 12))) ∧
    decodeWords (w0 0x0D 10 0x29 1) (w1 0 0 0 0 12 11) 0 0 0 =
      .instr (.max (hd .w2) .z32 (r 10) (r 11) (.vec (r 12))) ∧
    decodeWords (w0 0x2C 10 0x2A 1) (w1 0 0 0 0 12 0) 0 0 0 =
      .instr (.abs (hd .w2) true .s32 (r 10) (.vec (r 12))) ∧
    decodeWords (w0 0x0C 10 0x2B 1) (w1 0 0 0 0 12 0) 0 0 0 =
      .instr (.neg (hd .w2) false .s32 (r 10) (.vec (r 12))) ∧
    decodeWords (w0 0x0C 10 0x2C 1) (w1 0 0 0 0 12 11) 0 0 0 =
      .instr (.addsat (hd .w2) .s32 (r 10) (r 11) (.vec (r 12))) ∧
    decodeWords (w0 0x0D 10 0x2D 1) (w1 0 0 0 0 12 11) 0 0 0 =
      .instr (.subsat (hd .w2) .z32 (r 10) (r 11) (.vec (r 12))) ∧
    decodeWords (w0 0x0D 10 0x2E 1) (w1 0 0 0 5 12 11) 0 0 0 =
      .instr (.lea (hd .w2) .z32 (r 10) (r 11) (.vec (r 12)) 5) := by decide +kernel

/-- Words of class 0x3 written out from Table 9.10. -/
theorem test_words_logic_1 :
    decodeWords (w0 0x0D 10 0x30 1) (w1 0 0 0 0 12 11) 0 0 0 =
      .instr (.and (hd .w2) .z32 (r 10) (r 11) (.vec (r 12))) ∧
    decodeWords (w0 0x0D 10 0x31 1) (w1 0 0 0 0 12 11) 0 0 0 =
      .instr (.or (hd .w2) .z32 (r 10) (r 11) (.vec (r 12))) ∧
    decodeWords (w0 0x0D 10 0x32 1) (w1 0 0 0 0 12 11) 0 0 0 =
      .instr (.xor (hd .w2) .z32 (r 10) (r 11) (.vec (r 12))) ∧
    decodeWords (w0 0x0D 10 0x34 1) (w1 0 0 0 0 12 11) 0 0 0 =
      .instr (.andn (hd .w2) .z32 (r 10) (r 11) (.vec (r 12))) ∧
    decodeWords (w0 0x0D 10 0x35 1) (w1 0 0 0 0 12 11) 0 0 0 =
      .instr (.shl (hd .w2) .z32 (r 10) (r 11) (.vec (r 12))) ∧
    decodeWords (w0 0x0D 10 0x36 1) (w1 0 0 0 0 12 11) 0 0 0 =
      .instr (.shr (hd .w2) .z32 (r 10) (r 11) (.vec (r 12))) ∧
    decodeWords (w0 0x0D 10 0x38 1) (w1 0 0 0 0 12 11) 0 0 0 =
      .instr (.rot (hd .w2) .z32 (r 10) (r 11) (.vec (r 12))) ∧
    decodeWords (w0 0x0D 10 0x3B 1) (w1 0 0 0 0 12 11) 0 0 0 =
      .instr (.bfe (hd .w2) .z32 (r 10) (r 11) (.vec (r 12))) ∧
    decodeWords (w0 0x0C 10 0x37 1) (w1 0 0 0 0 12 11) 0 0 0 =
      .instr (.sar (hd .w2) .s32 (r 10) (r 11) (.vec (r 12))) := by decide +kernel

/-- Words of class 0x3 written out from Table 9.10. -/
theorem test_words_logic_2 :
    decodeWords (w0 0x0D 10 0x33 1) (w1 0 0 0 0 12 0) 0 0 0 =
      .instr (.not (hd .w2) .z32 (r 10) (.vec (r 12))) ∧
    decodeWords (w0 0x0D 10 0x39 1) (w1 0 0 0 0 12 0) 0 0 0 =
      .instr (.popc (hd .w2) .z32 (r 10) (.vec (r 12))) ∧
    decodeWords (w0 0x0D 10 0x3A 1) (w1 0 0 0 0 12 0) 0 0 0 =
      .instr (.clz (hd .w2) .z32 (r 10) (.vec (r 12))) ∧
    decodeWords (w0 0x0D 10 0x3C 1) (w1 0 0 0 13 12 11) 0 0 0 =
      .instr (.bfi (hd .w2) .z32 (r 10) (r 11) (.vec (r 12)) (r 13)) ∧
    decodeWords (w0 0x0D 10 0x3D 1) (w1 0 0 0 3 12 11) 0 0 0 =
      .instr (.sel (hd .w2) .z32 (r 10) (r 11) (.vec (r 12)) (r 3)) ∧
    decodeWords (w0 0x2C 3 0x3E 1) (w1 0 0 0 5 12 11) 0 0 0 =
      .instr (.cmp (hd .w2) .ge true .s32 (r 3) (r 11) (.vec (r 12))) ∧
    decodeWords (w0 0x0D 10 0x3F 1) (w1 0 0 0 13 12 11) 0 0 0 =
      .instr (.prmb (hd .w2) (r 10) (r 11) (.vec (r 12)) (r 13)) := by decide +kernel

/-- Words of class 0x4 written out from Table 10.1. -/
theorem test_words_float_1 :
    decodeWords (w0 0x29 10 0x40 1) (w1 0 0 0 0 12 11) 0 0 0 =
      .instr (.fadd (hd .w2) ⟨.f16, .rz, true⟩ (r 10) (r 11) (.vec (r 12))) ∧
    decodeWords (w0 0x29 10 0x41 1) (w1 0 0 0 0 12 11) 0 0 0 =
      .instr (.fsub (hd .w2) ⟨.f16, .rz, true⟩ (r 10) (r 11) (.vec (r 12))) ∧
    decodeWords (w0 0x29 10 0x42 1) (w1 0 0 0 0 12 11) 0 0 0 =
      .instr (.fmul (hd .w2) ⟨.f16, .rz, true⟩ (r 10) (r 11) (.vec (r 12))) ∧
    decodeWords (w0 0x29 10 0x43 1) (w1 0 0 0 13 12 11) 0 0 0 =
      .instr (.fma (hd .w2) ⟨.f16, .rz, true⟩ (r 10) (r 11) (.vec (r 12)) (r 13)) ∧
    decodeWords (w0 0x22 10 0x44 1) (w1 0 0 0 0 12 11) 0 0 0 =
      .instr (.fmin (hd .w2) ⟨.bf16, .gctl, true⟩ (r 10) (r 11) (.vec (r 12))) ∧
    decodeWords (w0 0x22 10 0x45 1) (w1 0 0 0 0 12 11) 0 0 0 =
      .instr (.fmax (hd .w2) ⟨.bf16, .gctl, true⟩ (r 10) (r 11) (.vec (r 12))) ∧
    decodeWords (w0 0x22 3 0x46 1) (w1 0 0 0 3 12 11) 0 0 0 =
      .instr (.fcmp (hd .w2) ⟨.bf16, .gctl, true⟩ .le (r 3) (r 11) (.vec (r 12))) ∧
    decodeWords (w0 0x00 3 0x47 1) (w1 0 0 0 33 12 0) 0 0 0 =
      .instr (.fcls (hd .w2) ⟨.f32, .gctl, false⟩ 0x21 (r 3) (.vec (r 12))) ∧
    decodeWords (w0 0x29 10 0x48 1) (w1 0 0 0 0 12 0) 0 0 0 =
      .instr (.frnd (hd .w2) ⟨.f16, .rz, true⟩ (r 10) (.vec (r 12))) := by decide +kernel

/-- Words of class 0x4 written out from Table 10.1. -/
theorem test_words_float_2 :
    decodeWords (w0 0x29 10 0x49 1) (w1 0 0 0 0 12 11) 0 0 0 =
      .instr (.fscl (hd .w2) ⟨.f16, .rz, true⟩ (r 10) (r 11) (.vec (r 12))) ∧
    decodeWords (w0 0x29 10 0x4A 1) (w1 0 0 0 13 12 11) 0 0 0 =
      .instr (.fdot2 (hd .w2) ⟨.f16, .rz, true⟩ (r 10) (r 11) (.vec (r 12)) (r 13)) ∧
    decodeWords (w0 0x29 10 0x4B 1) (w1 0 0 0 13 12 11) 0 0 0 =
      .instr (.pfma (hd .w2) ⟨.f16, .rz, true⟩ (r 10) (r 11) (.vec (r 12)) (r 13)) ∧
    decodeWords (w0 0x29 10 0x4C 1) (w1 0 0 0 0 12 11) 0 0 0 =
      .instr (.pfadd (hd .w2) ⟨.f16, .rz, true⟩ (r 10) (r 11) (.vec (r 12))) ∧
    decodeWords (w0 0x29 10 0x4D 1) (w1 0 0 0 0 12 11) 0 0 0 =
      .instr (.pfmul (hd .w2) ⟨.f16, .rz, true⟩ (r 10) (r 11) (.vec (r 12))) := by decide +kernel

/-- Words of class 0x5 written out from Table 10.3. -/
theorem test_words_conversion_1 :
    decodeWords (w0 0x21 10 0x50 1) (w1 0 0 0 96 12 1) 0 0 0 =
      .instr (.cvt (hd .w2) .f16 true .rm .f32 true (r 10) (.vec (r 12))) ∧
    decodeWords (w0 0x23 10 0x51 1) (w1 0 0 0 0 12 11) 0 0 0 =
      .instr (.cvtr (hd .w2) .e4m3 true (r 10) (r 11) (.vec (r 12))) ∧
    decodeWords (w0 0x20 10 0x52 1) (w1 0 0 0 0 12 0) 0 0 0 =
      .instr (.frcp (hd .w2) true (r 10) (.vec (r 12))) ∧
    decodeWords (w0 0x20 10 0x53 1) (w1 0 0 0 0 12 0) 0 0 0 =
      .instr (.frsq (hd .w2) true (r 10) (.vec (r 12))) ∧
    decodeWords (w0 0x20 10 0x54 1) (w1 0 0 0 0 12 0) 0 0 0 =
      .instr (.fex2 (hd .w2) true (r 10) (.vec (r 12))) ∧
    decodeWords (w0 0x20 10 0x55 1) (w1 0 0 0 0 12 0) 0 0 0 =
      .instr (.flg2 (hd .w2) true (r 10) (.vec (r 12))) ∧
    decodeWords (w0 0x20 10 0x56 1) (w1 0 0 0 0 12 0) 0 0 0 =
      .instr (.fsin (hd .w2) true (r 10) (.vec (r 12))) ∧
    decodeWords (w0 0x20 10 0x57 1) (w1 0 0 0 0 12 0) 0 0 0 =
      .instr (.fcos (hd .w2) true (r 10) (.vec (r 12))) ∧
    decodeWords (w0 0x29 10 0x58 1) (w1 0 0 0 0 12 11) 0 0 0 =
      .instr (.fdiv (hd .w2) ⟨.f16, .rz, true⟩ (r 10) (r 11) (.vec (r 12))) := by decide +kernel

/-- Words of class 0x5 written out from Table 10.3. -/
theorem test_words_conversion_2 :
    decodeWords (w0 0x29 10 0x59 1) (w1 0 0 0 0 12 0) 0 0 0 =
      .instr (.fsqrt (hd .w2) ⟨.f16, .rz, true⟩ (r 10) (.vec (r 12))) ∧
    decodeWords (w0 0x28 10 0x5A 1) (w1 0 0 0 0 12 0) 0 0 0 =
      .instr (.qscl (hd .w2) true .s8 (r 10) (.vec (r 12))) ∧
    decodeWords (w0 0x03 10 0x5B 1) (w1 0 0 0 32 12 11) 0 0 0 =
      .instr (.qpack (hd .w2) .rn .e4m3 (r 10) (r 11) (.vec (r 12))) ∧
    decodeWords (w0 0x04 10 0x5C 1) (w1 0 0 0 128 12 11) 0 0 0 =
      .instr (.qunp (hd .w2) .rp .e5m2 (r 10) (r 11) (.vec (r 12))) ∧
    decodeWords (w0 0x0D 10 0x5D 1) (w1 0 0 0 0 12 0) 0 0 0 =
      .instr (.rnsenc (hd .w2) .z32 (r 10) (.vec (r 12))) ∧
    decodeWords (w0 0x0C 10 0x5E 1) (w1 0 0 0 0 12 0) 0 0 0 =
      .instr (.rnsdec (hd .w2) (r 10) (.vec (r 12))) := by decide +kernel

/-- Words of class 0x6 written out from Table 10.4. -/
theorem test_words_mask_1 :
    decodeWords (w0 0x00 3 0x60 1) (w1 0 0 0 0 5 4) 0 0 0 =
      .instr (.kand (hd .w2) (r 3) (r 4) (r 5)) ∧
    decodeWords (w0 0x00 3 0x61 1) (w1 0 0 0 0 5 4) 0 0 0 =
      .instr (.kor (hd .w2) (r 3) (r 4) (r 5)) ∧
    decodeWords (w0 0x00 3 0x62 1) (w1 0 0 0 0 5 4) 0 0 0 =
      .instr (.kxor (hd .w2) (r 3) (r 4) (r 5)) ∧
    decodeWords (w0 0x00 3 0x63 1) (w1 0 0 0 0 5 0) 0 0 0 =
      .instr (.knot (hd .w2) (r 3) (r 5)) ∧
    decodeWords (w0 0x01 3 0x64 1) (w1 0 0 0 0 66 0) 0 0 0 =
      .instr (.kmov (hd .w2) .ks (r 3) (r 66)) ∧
    decodeWords (w0 0x02 66 0x64 1) (w1 0 0 0 0 5 0) 0 0 0 =
      .instr (.kmov (hd .w2) .sk (r 66) (r 5)) ∧
    decodeWords (w0 0x02 3 0x65 1) (w1 0 0 0 0 0 4) 0 0 0 =
      .instr (.vote (hd .w2) .ballot (r 3) (r 4)) ∧
    decodeWords (w0 0x00 20 0x66 1) (w1 0 0 0 0 5 0) 0 0 0 =
      .instr (.kpop (hd .w2) (r 20) (r 5)) ∧
    decodeWords (w0 0x01 20 0x67 1) (w1 0 0 0 0 5 0) 0 0 0 =
      .instr (.kfind (hd .w2) true (r 20) (r 5)) := by decide +kernel

/-- Words of class 0x6 written out from Table 10.4. -/
theorem test_words_mask_2 :
    decodeWords (w0 0x04 3 0x68 1) (w1 0 0 0 0 0 0) 0 0 0 =
      .instr (.flgk (hd .w2) 4 (r 3)) ∧
    decodeWords (w0 0x1F 0 0x69 1) (w1 0 0 0 0 0 0) 0 0 0 =
      .instr (.flgclr (hd .w2) 0x1F) ∧
    decodeWords (w0 0x00 10 0x6A 1) (w1 0 0 0 0 0 0) 0 0 0 =
      .instr (.flgrd (hd .w2) (r 10)) ∧
    decodeWords (w0 0x02 3 0x6B 1) (w1 0 0 0 0 0 0) 0 0 0 =
      .instr (.lanek (hd .w2) .spl (r 3)) := by decide +kernel

/-- Words of class 0x7 written out from Table 10.5. -/
theorem test_words_lane_1 :
    decodeWords (w0 0x07 10 0x70 1) (w1 0 0 0 0 14 12) 0 0 0 =
      .instr (.shfl (hd .w2) .xor true (r 10) (r 12) (.vec (r 14))) ∧
    decodeWords (w0 0x00 10 0x71 1) (w1 0 0 0 3 12 11) 0 0 0 =
      .instr (.pushw (hd .w2) false (r 10) (r 11) (.vec (r 12)) (r 3)) ∧
    decodeWords (w0 0x01 10 0x72 1) (w1 0 0 0 0 0 11) 0 0 0 =
      .instr (.bcast (hd .w2) false (r 10) (r 11) none) ∧
    decodeWords (w0 0x00 10 0x72 1) (w1 1 0 0 0 12 11) 0 0 0 =
      .instr (.bcast (hd .w2) false (r 10) (r 11) (some (.scl (r 12)))) ∧
    decodeWords (w0 0x28 20 0x73 1) (w1 0 0 0 0 0 11) 0 0 0 =
      .instr (.redu (hd .w2) true .fadd false (r 20) (r 11)) ∧
    decodeWords (w0 0x31 10 0x74 1) (w1 0 0 0 0 0 12) 0 0 0 =
      .instr (.scan (hd .w2) true .mins true (r 10) (r 12)) ∧
    decodeWords (w0 0x00 10 0x75 1) (w1 0 0 0 3 0 11) 0 0 0 =
      .instr (.confl (hd .w2) false (r 10) (r 11) (r 3)) ∧
    decodeWords (w0 0x00 10 0x76 1) (w1 0 0 0 0 0 11) 0 0 0 =
      .instr (.matchk (hd .w2) false (r 10) (r 11)) ∧
    decodeWords (w0 0x07 10 0x77 1) (w1 0 0 0 3 0 11) 0 0 0 =
      .instr (.segscan (hd .w2) false .xor false (r 10) (r 11) (r 3)) := by decide +kernel

/-- Words of class 0x7 written out from Table 10.5. -/
theorem test_words_lane_2 :
    decodeWords (w0 0x2C 10 0x78 1) (w1 0 0 0 0 0 12) 0 0 0 =
      .instr (.gsort (hd .w2) true .s32 (r 10) (r 12)) := by decide +kernel

/-- Words of class 0x8 written out from Tables 14.1 to 14.6. -/
theorem test_words_memory_1 :
    decodeWords (w0 0x04 2 0x80 2) (w1 0 0 0 0 7 4) 0x00010080 0 0 =
      .instr (.ld (hd .w3) 4 false (r 2) ⟨r 4, r 7, .sv, 16, .grp, false, 2, .rlx⟩) ∧
    decodeWords (w0 0x0D 2 0x81 2) (w1 1 0 0 0 0 4) 0xFFFF8000 0 0 =
      .instr (.st (hd .w3) 5 true (r 2) ⟨r 4, r 0, .s, (-8), .grp, false, 0, .rlx⟩) ∧
    decodeWords (w0 0x01 2 0x82 2) (w1 2 0 0 0 8 0) 0x00000000 0 0 =
      .instr (.lds (hd .w3) 1 false (r 2) ⟨r 0, r 8, .v, 0, .grp, false, 0, .rlx⟩) ∧
    decodeWords (w0 0x06 4 0x83 2) (w1 0 0 0 0 7 4) 0x00010080 0 0 =
      .instr (.sts (hd .w3) 6 false (r 4) ⟨r 4, r 7, .sv, 16, .grp, false, 2, .rlx⟩) ∧
    decodeWords (w0 0x07 20 0x84 2) (w1 1 0 0 0 0 4) 0xFFFF8000 0 0 =
      .instr (.ldk (hd .w3) 7 false (r 20) ⟨r 4, r 0, .s, (-8), .grp, false, 0, .rlx⟩) ∧
    decodeWords (w0 0x05 20 0x85 2) (w1 1 0 0 0 0 4) 0xFFFF8000 0 0 =
      .instr (.stk (hd .w3) 5 false (r 20) ⟨r 4, r 0, .s, (-8), .grp, false, 0, .rlx⟩) ∧
    decodeWords (w0 0x00 2 0x86 1) (w1 0 0 0 0 12 0) 0 0 0 =
      .instr (.lookup (hd .w2) (r 2) (.vec (r 12))) ∧
    decodeWords (w0 0x01 0 0x87 1) (w1 0 0 0 0 12 6) 0 0 0 =
      .instr (.tagset (hd .w2) true (r 6) (.vec (r 12))) ∧
    decodeWords (w0 0x00 0 0x88 1) (w1 1 0 0 0 6 0) 0 0 0 =
      .instr (.taginv (hd .w2) (.scl (r 6))) := by decide +kernel

/-- Words of class 0x8 written out from Tables 14.1 to 14.6. -/
theorem test_words_memory_2 :
    decodeWords (w0 0x01 0 0x89 2) (w1 1 0 0 0 0 4) 0xFFFF8000 0 0 =
      .instr (.pref (hd .w3) true ⟨r 4, r 0, .s, (-8), .grp, false, 0, .rlx⟩) ∧
    decodeWords (w0 0x04 2 0x8A 2) (w1 0 0 0 0 7 4) 0x00010790 0 0 =
      .instr (.lda (hd .w3) 4 (r 2) ⟨r 4, r 7, .sv, 16, .pkg, true, 2, .acq⟩) ∧
    decodeWords (w0 0x05 2 0x8B 2) (w1 1 0 0 0 0 4) 0x00010820 0 0 =
      .instr (.str (hd .w3) 5 (r 2) ⟨r 4, r 0, .s, 16, .sys, false, 0, .rel⟩) ∧
    decodeWords (w0 0x1F 2 0x8C 2) (w1 2 0 0 0 8 0) 0x00000000 0 0 =
      .instr (.ldsb (hd .w3) 31 (r 2) ⟨r 0, r 8, .v, 0, .grp, false, 0, .rlx⟩) := by decide +kernel

/-- Words of class 0x9 written out from Tables 14.7 and 14.8, R206, R207. -/
theorem test_words_atomic_1 :
    decodeWords (w0 0x0E 2 0x90 2) (w1 1 0 0 9 0 4) 0x00010430 0 0 =
      .instr (.atom (hd .w3) .exch .z32 (r 2) ⟨r 4, r 0, .s, 16, .clus, false, 0, .ar⟩ (r 9)) ∧
    decodeWords (w0 0x18 2 0x91 2) (w1 1 0 0 10 0 4) 0x00010430 0 0 =
      .instr (.cas (hd .w3) true (r 2) ⟨r 4, r 0, .s, 16, .clus, false, 0, .ar⟩ (r 10)) ∧
    decodeWords (w0 0x38 2 0x92 2) (w1 1 0 0 9 0 4) 0x00010430 0 0 =
      .instr (.atoms (hd .w3) .add .rx3 (r 2) ⟨r 4, r 0, .s, 16, .clus, false, 0, .ar⟩ (r 9)) ∧
    decodeWords (w0 0x08 2 0x93 2) (w1 1 0 0 9 0 4) 0x00010430 0 0 =
      .instr (.cass (hd .w3) false (r 2) ⟨r 4, r 0, .s, 16, .clus, false, 0, .ar⟩ (r 9)) ∧
    decodeWords (w0 0x20 0 0x94 2) (w1 1 0 0 9 0 4) 0x00010420 0 0 =
      .instr (.red (hd .w3) .add .f32 ⟨r 4, r 0, .s, 16, .clus, false, 0, .rel⟩ (r 9)) ∧
    decodeWords (w0 0x0E 0 0x95 0) 0 0 0 0 =
      .instr (.fence (hd .w1) .rel .pkg) ∧
    decodeWords (w0 0x10 0 0x96 0) 0 0 0 0 =
      .instr (.acq (hd .w1) .sys) ∧
    decodeWords (w0 0x04 0 0x97 0) 0 0 0 0 =
      .instr (.rel (hd .w1) .team) ∧
    decodeWords (w0 0x00 0 0x98 0) 0 0 0 0 =
      .instr (.bar (hd .w1)) := by decide +kernel

/-- Words of class 0x9 written out from Tables 14.7 and 14.8, R206, R207. -/
theorem test_words_atomic_2 :
    decodeWords (w0 0x00 0 0x98 1) (w1 0 0 0 0 0 6) 0 0 0 =
      .instr (.barCounted (hd .w2) (r 6)) ∧
    decodeWords (w0 0x00 0 0x99 0) 0 0 0 0 =
      .instr (.cbar (hd .w1)) ∧
    decodeWords (w0 0x00 0 0x99 1) (w1 0 0 0 0 0 6) 0 0 0 =
      .instr (.cbarCounted (hd .w2) (r 6)) := by decide +kernel

/-- Words of class 0xA written out from R209 to R220. -/
theorem test_words_copy_1 :
    decodeWords (w0 0x06 21 0xA0 2) (w1 0 0 0 0 14 12) 0xFFF00008 0 0 =
      .instr (.cpa (hd .w3) (some 5) 2 .sg (r 12) (r 14) 0x0008 0xFFF0) ∧
    decodeWords (w0 0x04 0 0xA1 2) (w1 0 0 0 8 7 6) 0 0 0 =
      .instr (.tcopy (hd .w3) none .gs true (r 6) (r 7) (.reg (r 8))) ∧
    decodeWords (w0 0x01 0 0xA1 3) (w1 0 0 0 0 7 6) 0 0x00001000 0 =
      .instr (.tcopy (hd .w5) none .sg false (r 6) (r 7) (.lit 0x1000)) ∧
    decodeWords (w0 0x00 19 0xA2 2) (w1 0 0 0 8 7 6) 9 0 0 =
      .instr (.tcopym (hd .w3) (some 3) false (r 6) (r 7) (.reg (r 8)) 9) ∧
    decodeWords (w0 0x00 2 0xA3 1) (w1 0 0 0 0 6 0) 0 0 0 =
      .instr (.binit (hd .w2) 2 (.reg (r 6))) ∧
    decodeWords (w0 0x00 2 0xA3 2) (w1 1 0 0 0 0 0) 32 0 0 =
      .instr (.binit (hd .w3) 2 (.imm 32)) ∧
    decodeWords (w0 0x01 2 0xA4 1) (w1 2 0 0 0 0 0) 0 0 0 =
      .instr (.barv (hd .w2) 2 (.imm6 1)) ∧
    decodeWords (w0 0x00 2 0xA5 2) (w1 1 0 0 0 0 0) 4096 0 0 =
      .instr (.bexp (hd .w3) 2 (.imm 4096)) ∧
    decodeWords (w0 0x01 2 0xA6 1) (w1 2 0 0 0 0 0) 0 0 0 =
      .instr (.bwait (hd .w2) 2 (.imm true)) := by decide +kernel

/-- Words of class 0xA written out from R209 to R220. -/
theorem test_words_copy_2 :
    decodeWords (w0 0x00 3 0xA7 1) (w1 0 0 0 0 6 2) 0 0 0 =
      .instr (.btest (hd .w2) (r 3) 2 (.reg (r 6))) ∧
    decodeWords (w0 0x09 3 0xA8 1) (w1 2 0 0 0 0 0) 0 0 0 =
      .instr (.waitn (hd .w2) 3 (.imm 9)) ∧
    decodeWords (w0 0x00 3 0xA8 1) (w1 0 0 0 0 6 0) 0 0 0 =
      .instr (.waitn (hd .w2) 3 (.reg (r 6))) ∧
    decodeWords (w0 0x00 2 0xA9 2) (w1 1 0 0 0 0 0) 1 0 0 =
      .instr (.trig (hd .w3) (.ctr 2) (.imm 1)) ∧
    decodeWords (w0 0x00 133 0xA9 2) (w1 0 0 0 0 6 0) 0 0 0 =
      .instr (.trig (hd .w3) (.bar 5) (.reg (r 6))) := by decide +kernel

/-- Words of class 0xB written out from Tables 16.4 to 16.6, R235. -/
theorem test_words_matrix_1 :
    decodeWords (w0 0x23 0 0xB0 1) (w1 0 0 0 37 16 8) 0 0 0 =
      .instr (.mma (hd .w2) true .e4m3 .e2m1 .f16 (r 0) (r 8) (r 16)) ∧
    decodeWords (w0 0x08 4 0xB1 1) (w1 0 0 0 7 16 8) 0 0 0 =
      .instr (.mmaq (hd .w2) false .s8 .z4 .wide (r 4) (r 8) (r 16)) ∧
    decodeWords (w0 0x02 0 0xB2 2) (w1 0 0 0 21 20 8) 0x000009DF 0 0 =
      .instr (.mmv (hd .w3) .bf16 .bf16 .wide (r 0) (r 8) 20 21 95 3) ∧
    decodeWords (w0 0x08 0 0xB3 1) (w1 0 0 0 0 0 8) 0 0 0 =
      .instr (.mlutb (hd .w2) (r 0) (r 8)) ∧
    decodeWords (w0 0x23 6 0xB4 1) (w1 0 0 0 0 8 0) 0 0 0 =
      .instr (.mlut (hd .w2) .b2s true (r 6) (r 0) (r 8)) ∧
    decodeWords (w0 0x00 1 0xB5 1) (w1 0 0 0 0 0 2) 0 0 0 =
      .instr (.rcvt (hd .w2) (r 1) (r 2)) ∧
    decodeWords (w0 0x0C 1 0xB6 1) (w1 0 0 0 9 8 2) 0 0 0 =
      .instr (.scacc (hd .w2) .s32 (r 1) (r 2) (r 8) (r 9)) ∧
    decodeWords (w0 0x00 1 0xB7 1) (w1 0 0 0 0 0 0) 0 0 0 =
      .instr (.accz (hd .w2) (r 1)) ∧
    decodeWords (w0 0x07 8 0xB8 1) (w1 0 0 0 24 0 1) 0 0 0 =
      .instr (.accrd (hd .w2) 7 (r 8) (r 1) 24) := by decide +kernel

/-- Words of class 0xB written out from Tables 16.4 to 16.6, R235. -/
theorem test_words_matrix_2 :
    decodeWords (w0 0x07 1 0xB9 1) (w1 0 0 0 24 8 0) 0 0 0 =
      .instr (.accwr (hd .w2) 7 (r 1) (r 8) 24) ∧
    decodeWords (w0 0x00 1 0xBA 1) (w1 0 0 0 0 0 6) 0 0 0 =
      .instr (.accld (hd .w2) (r 1) (r 6)) ∧
    decodeWords (w0 0x00 1 0xBB 1) (w1 0 0 0 0 0 6) 0 0 0 =
      .instr (.accst (hd .w2) (r 1) (r 6)) ∧
    decodeWords (w0 0x01 66 0xBC 1) (w1 0 0 0 0 0 1) 0 0 0 =
      .instr (.accstat (hd .w2) true (r 66) (r 1)) := by decide +kernel

/-- Words of class 0xC written out from Tables 18.2, 18.3 and 20.2, R270, R271. -/
theorem test_words_gather :
    decodeWords (w0 0x0B 20 0xC0 2) (w1 2 0 0 4 8 21) 0x00053028 0 0 =
      .instr (.gather (hd .w3) .wsum false true 20 21 (r 8) (.imm 4) (some ⟨40, 48, 5⟩)) ∧
    decodeWords (w0 0x01 20 0xC1 2) (w1 0 0 0 9 8 21) 0x00050028 0 0 =
      .instr (.scatr (hd .w3) .max false false 20 21 (r 8) (.reg (r 9)) (some ⟨40, 0, 5⟩)) ∧
    decodeWords (w0 0x04 20 0xC2 1) (w1 2 0 0 1 8 21) 0 0 0 =
      .instr (.scatw (hd .w2) true false 20 21 (r 8) (.imm 1) none) ∧
    decodeWords (w0 0x01 66 0xC3 1) (w1 0 0 0 0 0 0) 0 0 0 =
      .instr (.gstat (hd .w2) true (r 66)) ∧
    decodeWords (w0 0x08 20 0xC4 2) (w1 0 0 0 23 22 21) 0x00050028 0 0 =
      .instr (.klook (hd .w3) false true 20 21 22 23 (some ⟨40, 0, 5⟩)) ∧
    decodeWords (w0 0x04 20 0xC5 1) (w1 0 0 0 23 22 0) 0 0 0 =
      .instr (.kgrad (hd .w2) true 20 22 23 none) ∧
    decodeWords (w0 0x05 20 0xC6 1) (w1 0 0 0 0 22 21) 0 0 0 =
      .instr (.hdesc (hd .w2) 5 (r 20) (r 21) (r 22)) := by decide +kernel

/-- Words of class 0xD written out from R288 to R301. -/
theorem test_words_expansion :
    decodeWords (w0 0x02 0 0xD0 1) (w1 0 0 0 0 9 8) 0 0 0 =
      .instr (.xpnd (hd .w2) .four (r 8) (r 9)) ∧
    decodeWords (w0 0x01 8 0xD1 1) (w1 0 0 0 3 20 0) 0 0 0 =
      .instr (.xnext (hd .w2) true (r 8) 3 20) ∧
    decodeWords (w0 0x03 20 0xD2 1) (w1 0 0 0 0 0 0) 0 0 0 =
      .instr (.xstat (hd .w2) 3 (r 20)) ∧
    decodeWords (w0 0x08 8 0xD3 1) (w1 0 0 0 0 0 9) 0 0 0 =
      .instr (.segred (hd .w2) .fadd (r 8) (r 9)) ∧
    decodeWords (w0 0x00 0 0xD4 0) 0 0 0 0 =
      .instr (.xabort (hd .w1)) ∧
    decodeWords (w0 0x01 2 0xD5 2) (w1 1 0 0 0 0 10) 33 0 0 =
      .instr (.enq (hd .w3) true (r 2) (r 10) (.imm 33)) ∧
    decodeWords (w0 0x00 2 0xD5 1) (w1 0 0 0 0 6 10) 0 0 0 =
      .instr (.enq (hd .w2) false (r 2) (r 10) (.reg (r 6))) ∧
    decodeWords (w0 0x00 2 0xD6 1) (w1 0 0 0 11 6 10) 0 0 0 =
      .instr (.enqb (hd .w2) (r 2) (r 10) (r 11) (.reg (r 6))) ∧
    decodeWords (w0 0x02 20 0xD7 1) (w1 0 0 0 0 6 0) 0 0 0 =
      .instr (.qstat (hd .w2) 2 (r 20) (r 6)) := by decide +kernel

/-- Words of class 0xE written out from Tables 28.2 and 28.3, R361, R363. -/
theorem test_words_remote :
    decodeWords (w0 0x06 0 0xE0 2) (w1 1 0 0 12 10 6) 0x13 0 0 =
      .instr (.rwr (hd .w3) 6 (.scl (r 6)) (r 10) (r 12) (some 3)) ∧
    decodeWords (w0 0x02 0 0xE1 2) (w1 0 0 0 12 10 8) 0 0 0 =
      .instr (.rrd (hd .w3) 2 (.vec (r 8)) (r 10) (r 12) none) ∧
    decodeWords (w0 0x20 0 0xE2 2) (w1 0 0 0 12 10 8) 0x00070400 0 0 =
      .instr (.rred (hd .w3) .add .f32 4 7 (.vec (r 8)) (r 10) (r 12) none) ∧
    decodeWords (w0 0x07 0 0xE3 2) (w1 0 0 0 12 10 8) 0x1F 0 0 =
      .instr (.rflag (hd .w3) .maxu true (.vec (r 8)) (r 10) (r 12) (some 15)) ∧
    decodeWords (w0 0x00 20 0xE4 1) (w1 0 0 0 0 8 6) 0 0 0 =
      .instr (.csig (hd .w2) 0 (r 20) (r 6) (r 8)) ∧
    decodeWords (w0 0x00 0 0xE5 0) 0 0 0 0 =
      .instr (.rfence (hd .w1)) := by decide +kernel

/-- Words of class 0xF written out from Table 26.4. -/
theorem test_words_system :
    decodeWords (w0 0x08 66 0xF0 1) (w1 0 0 0 0 0 0) 0 0 0 =
      .instr (.csrr (hd .w2) 8 (r 66)) ∧
    decodeWords (w0 0x00 0 0xF1 1) (w1 0 1 2 0 0 6) 0 0 0 =
      .instr (.csrw (hx .w2 1) 0 ⟨6, true⟩) ∧
    decodeWords (w0 0x05 0 0xF2 0) 0 0 0 0 =
      .instr (.trap (hd .w1) 5) ∧
    decodeWords (w0 0x3F 0 0xF3 0) 0 0 0 0 =
      .instr (.brk (hd .w1) 63) ∧
    decodeWords (w0 0x00 66 0xF4 0) 0 0 0 0 =
      .instr (.cyc (hd .w1) 66) := by decide +kernel

/-! ## Small states -/

/-- A kernel with scratch and tag entries. -/
def kern : Kernel := { placedKernel with scratch := 16384, tags := 4 }

/-- A split of lanes 0 and 31. -/
def sp0 : Split := Split.fresh 0 0x80000001 0x4000 0

/-- A group with items in lanes 0 and 31. -/
def gr0 : Group := { Group.start 0 0x4000 0 with occ := 0x80000001, splits := [sp0] }

/-- A handle of 16 rows of one word at an address of this package (18 Table 18.1). -/
def handleBytes (ctl base : Nat) : List Byte :=
  natLe 4 ctl ++ natLe 4 0 ++ natLe 8 16 ++ natLe 8 base ++ natLe 2 0 ++ natLe 2 1 ++ List.replicate 36 0

/-- A team of one such group; its handle 0 names Z32 rows at 0x6000, its handle 1 F32 rows at 0x6100. -/
def tm0 : Team :=
  { Team.start 0 0 0 0 0 0 kern
      (Map.sets 0 [] ((handleBytes 0x37 0x6000 ++ handleBytes 0x3 0x6100).zipIdx.map fun p => (p.2, p.1))) 0 with
    groups := [gr0] }

/-- The launch of the team. -/
def la0 : Launch := Launch.create 0 0 0 0 { placedDesc with const := 0x6000, csize := 64, mcast := 1 :: List.replicate 15 0 } kern [] 0

/-- The package with this team at its NOP, and a readable and writable page at 0x6000. -/
def base : State :=
  let s := State.reset.place []
  { (s.homeWrite 0x218018 (natLe 8 0x20A00F)) with
    agenda := [], sel := some ⟨0, 0, 0⟩, teams := [tm0], launches := [la0] }

/-- The base state with another group. -/
def withG (f : Group → Group) : State := base.modG ⟨0, 0, 0⟩ f

/-- The base state with another team. -/
def withT (f : Team → Team) : State := base.modTeam 0 f

/-- The base state with another launch. -/
def withL (f : Launch → Launch) : State := base.modLaunch 0 f

/-- The issuing split of a state. -/
def iss (s : State) : Iss := s.issuer.getD ⟨⟨0, 0, 0⟩, tm0, gr0, sp0⟩

/-- The header without stall, unguarded. -/
def h1 : Hdr := u .w1
/-- As `h1`, two words. -/
def h2 : Hdr := u .w2
/-- As `h1`, three words. -/
def h3 : Hdr := u .w3

/-- The instruction is well-formed, issues in the state, and its guard passes. -/
def runs (i : Instr) (s : State) : Bool :=
  match i.head with
  | some (h, op) => decide (s.issuer = some (iss s)) && decide ((iss s).check i h op s = none) &&
      (iss s).g.uGuard (iss s).sp.id h && i.wellFormed
  | none => false

/-- What `runs` decides. -/
theorem issues_of_runs {i : Instr} {s : State} (a : runs i s = true) : ∃ h, IssuesU i h (iss s) s := by
  unfold runs at a
  split at a
  · rename_i h op e
    simp only [Bool.and_eq_true, decide_eq_true_eq] at a
    exact ⟨h, ⟨⟨a.1.1.1, op, e, a.1.1.2⟩, a.1.2⟩⟩
  · cases a

/-- `runs` over a list. -/
theorem issues_of_all {l : List Instr} {s : State} (a : (l.all fun i => runs i s) = true) :
    ∀ i ∈ l, ∃ h, IssuesU i h (iss s) s := fun i hi => issues_of_runs (List.all_eq_true.mp a i hi)

/-- `Issues` as a decidable condition. -/
theorem issues_iff {i : Instr} {h : Hdr} {x : Iss} {s : State} :
    Issues i h x s ↔ s.issuer = some x ∧ (i.head.any fun p => decide (p.1 = h ∧ x.check i h p.2 s = none)) = true := by
  unfold Issues
  cases e : i.head with
  | none => simp
  | some p =>
    obtain ⟨a, op⟩ := p
    constructor
    · rintro ⟨b, c, d, f⟩
      simp only [Option.some.injEq, Prod.mk.injEq] at d
      obtain ⟨rfl, rfl⟩ := d
      exact ⟨b, by simp [f]⟩
    · rintro ⟨b, c⟩
      simp at c
      obtain ⟨rfl, c⟩ := c
      exact ⟨b, op, rfl, c⟩

/-! ## Witnesses: encoding, issue and results -/

theorem witness_EncodeThenDecode : (Instr.add h2 .z32 (r 1) (r 2) (.vec (r 3))).wellFormed = true := by decide +kernel

theorem witness_DecodedWords :
    decodeWords 0x38000254 0 0 0 0 = .instr (.fence h1 .rel .pkg) ∧
      Instr.fence h1 .rel .pkg ≠ .reservedOpcode 0x38000254 := by decide +kernel

/-- A placed NOP is fetched and decoded; an event stands on the agenda. -/
theorem witness_StepRuns :
    let s := State.reset.withFetchWord 32 0
    s.agenda = [.issue ⟨0, 0, 0⟩] ∧ ({ s with agenda := [] }).at? ⟨0, 0, 0⟩ = some (iss { s with sel := some ⟨0, 0, 0⟩ }) ∧
    ({ s with agenda := [] }).canIssue (iss { s with sel := some ⟨0, 0, 0⟩ }) = true ∧
    ({ s with agenda := [] }).chosen (iss { s with sel := some ⟨0, 0, 0⟩ }) = true ∧
    ({ s with agenda := [] }).fetch (iss { s with sel := some ⟨0, 0, 0⟩ }) = .word [0, 0, 0, 0] ∧
    decodeBytes [0, 0, 0, 0] = .instr (.nop h1) := by decide +kernel

theorem witness_StepRuns_event : ({ base with agenda := [.event .bringUp] }).agenda = .event .bringUp :: [] := by
  decide +kernel

theorem witness_NeverGuard :
    (Instr.nop ⟨.w1, 0, 0, true, 0⟩).head = some (⟨.w1, 0, 0, true, 0⟩, 0) ∧ base.issuer = some (iss base) := by
  decide +kernel

/-- Two splits under SCAN; a guard on MMA; v255 as a pair's high half above an allotment of 255; a scoreboard entry. -/
theorem witness_IssueChecks :
    (iss (withG fun g => { g with splits := [sp0, { sp0 with id := 1 }] })).g.splits.length ≠ 1 ∧ opKind 0x74 = .c ∧
    needsK0 0xB7 = true ∧
    (let s := withL fun l => { l with kern := { l.kern with vregs := 255 } }
     let x := iss s
     let i := Instr.add h2 .z64 (r 254) (r 2) (.vec (r 4))
     convergeOk 0x21 h2 x.g = true ∧ ∃ o ∈ i.opnds, (o.cls = .v ∨ o.cls = .a ∨ o.reg.num.toNat < 64) ∧
       allot (x.kern s) o.cls < x.g.eff x.sp.id h2.xs o.reg + o.cnt) ∧
    (let s := withG fun g => { g with gctl := 1, score := [⟨0, 0, 2, 1⟩] }
     let x := iss s
     let i := Instr.add h2 .z32 (r 1) (r 2) (.vec (r 3))
     convergeOk 0x21 h2 x.g = true ∧ i.opnds.all (x.g.boundOk (x.kern s) x.sp.id h2.xs) = true ∧ i.slotReg = none ∧
     i.slotOpnds 0 = [] ∧ x.g.gctl.getLsbD 0 = true ∧
     ∃ e ∈ x.g.score, e.split = x.sp.id ∧ e.dist ≠ 0 ∧ (e.cls, e.reg) ∈ x.g.touches x.sp.id h2.xs i.opnds) := by
  decide +kernel

theorem witness_Results : (iss base).inPlace base ∧ (iss base).lone ∧ (iss base).unlanded ∧ (iss base).g.pend = [] := by
  unfold Iss.inPlace Iss.lone Iss.unlanded; decide +kernel

/-! ## Witnesses: the arithmetic families -/

/-- A scalar source register. -/
def sr (n : BitVec 8) : SSrc := .reg (r n)
/-- A vector source register. -/
def vr (n : BitVec 8) : BSrc := .vec (r n)

theorem witness_Scalar : ∀ i ∈ [Instr.smovImm6 h1 5 63, .smov h2 (r 5) (.src (sr 6)), .smov h2 (r 5) (.special 0x0A),
    .smov h2 (r 63) (.special 9), .sadd h2 (r 0) (r 67) (sr 7), .ssub h2 (r 5) (r 6) (sr 7),
    .smul h2 .lo (r 5) (r 6) (sr 7), .smul h2 .hi (r 5) (r 6) (sr 7), .smul h2 .hiu (r 5) (r 6) (sr 7),
    .smad h2 (r 5) (r 6) (r 7) (r 8), .sand h2 (r 5) (r 6) (sr 7), .sor h2 (r 5) (r 6) (sr 7), .sxor h2 (r 5) (r 6) (sr 7),
    .sshl h2 (r 5) (r 6) (sr 7), .sshr h2 (r 5) (r 6) (sr 7), .ssar h2 (r 5) (r 6) (sr 7), .ssel h2 (r 5) (r 6) (r 7) (r 8),
    .srdv h2 true (r 5) (r 6) (sr 7), .scmp h2 .geu (r 0) (r 6) (sr 7), .sdiv h2 false true (r 5) (r 6) (sr 7)],
    ∃ h, IssuesU i h (iss base) base := issues_of_all (by decide +kernel)

theorem witness_VectorInteger : ∀ i ∈ [Instr.mov h2 .z32 (r 255) (.src (vr 6)), .mov ⟨.w5, 0, 0, false, 0⟩ .z64 (r 254) (.lit 1),
    .mov h2 .z32 (r 1) (.special 3), .add h2 .s64 (r 254) (r 2) (vr 4), .sub h2 .z4 (r 1) (r 2) (vr 3),
    .mulh h2 .s32 (r 1) (r 2) (vr 3), .min h2 .s8 (r 1) (r 2) (vr 3), .max h2 .z16 (r 1) (r 2) (vr 3),
    .addsat h2 .s4 (r 1) (r 2) (vr 3), .subsat h2 .z32 (r 1) (r 2) (vr 3), .abs h2 false .s32 (r 1) (vr 3),
    .abs h2 true .s32 (r 1) (vr 3), .neg h2 false .s32 (r 1) (vr 3), .neg h2 true .s32 (r 1) (vr 3),
    .mul h2 false .z32 (r 1) (r 2) (vr 3), .mul h2 true .s32 (r 4) (r 2) (vr 3), .mad h2 true .z32 (r 4) (r 2) (vr 3) (r 6),
    .lea h2 .s32 (r 4) (r 2) (vr 6) 3, .adc h2 .z32 (r 1) (r 2) (vr 3) (r 4), .sbb h2 .z64 (r 2) (r 4) (vr 6) (r 0)],
    ∃ h, IssuesU i h (iss base) base := issues_of_all (by decide +kernel)

theorem witness_Logic : ∀ i ∈ [Instr.and h2 .z64 (r 2) (r 4) (vr 6), .or h2 .z32 (r 2) (r 4) (vr 6), .xor h2 .z32 (r 2) (r 4) (vr 6),
    .not h2 .z32 (r 2) (vr 6), .andn h2 .z32 (r 2) (r 4) (vr 6), .shl h2 .z32 (r 2) (r 4) (vr 6), .shr h2 .z64 (r 2) (r 4) (vr 6),
    .sar h2 .s32 (r 2) (r 4) (vr 6), .rot h2 .z32 (r 2) (r 4) (vr 6), .popc h2 .z32 (r 2) (vr 6), .clz h2 .z32 (r 2) (vr 6),
    .bfe h2 .s64 (r 2) (r 4) (vr 6), .bfi h2 .z32 (r 2) (r 4) (vr 6) (r 8), .sel h2 .z32 (r 2) (r 4) (vr 6) (r 3),
    .cmp h2 .lt false .s32 (r 0) (r 4) (vr 6), .cmp h2 .ge true .z32 (r 15) (r 4) (vr 6), .prmb h2 (r 2) (r 4) (vr 6) (r 8)],
    ∃ h, IssuesU i h (iss base) base := issues_of_all (by decide +kernel)

theorem witness_Float : (iss base).g.te = 0 ∧ ∀ i ∈ [Instr.fadd h2 ⟨.f32, .rn, false⟩ (r 2) (r 4) (vr 6),
    .fsub h2 ⟨.f16, .rz, true⟩ (r 2) (r 4) (vr 6), .fmul h2 ⟨.bf16, .rm, false⟩ (r 2) (r 4) (vr 6),
    .fma h2 ⟨.f32, .gctl, false⟩ (r 2) (r 4) (vr 6) (r 8), .fmin h2 ⟨.f32, .gctl, false⟩ (r 2) (r 4) (vr 6),
    .fmax h2 ⟨.f32, .gctl, false⟩ (r 2) (r 4) (vr 6), .fcmp h2 ⟨.f32, .gctl, false⟩ .un (r 3) (r 4) (vr 6),
    .fcls h2 ⟨.f32, .gctl, false⟩ 3 (r 3) (vr 6), .frnd h2 ⟨.f32, .rp, false⟩ (r 2) (vr 6),
    .fscl h2 ⟨.f32, .rn, false⟩ (r 2) (r 4) (vr 6), .fdot2 h2 ⟨.f16, .rn, false⟩ (r 2) (r 4) (vr 6) (r 8),
    .pfma h2 ⟨.f16, .rn, false⟩ (r 2) (r 4) (vr 6) (r 8), .pfadd h2 ⟨.bf16, .rn, false⟩ (r 2) (r 4) (vr 6),
    .pfmul h2 ⟨.bf16, .rn, false⟩ (r 2) (r 4) (vr 6)],
    ∃ h, IssuesU i h (iss base) base := ⟨by decide +kernel, issues_of_all (by decide +kernel)⟩

theorem witness_Conversion : (iss base).g.te = 0 ∧ ∀ i ∈ [Instr.cvt h2 .e4m3 true .rn .f32 false (r 2) (vr 4),
    .cvtr h2 .e5m2 true (r 2) (r 4) (vr 6), .frcp h2 false (r 2) (vr 4), .frsq h2 true (r 2) (vr 4), .fex2 h2 false (r 2) (vr 4),
    .flg2 h2 false (r 2) (vr 4), .fsin h2 false (r 2) (vr 4), .fcos h2 false (r 2) (vr 4),
    .fdiv h2 ⟨.f32, .rn, false⟩ (r 2) (r 4) (vr 6), .fsqrt h2 ⟨.f16, .rn, false⟩ (r 2) (vr 4),
    .qscl h2 true .s4 (r 2) (vr 4), .qpack h2 .rn .e2m1 (r 2) (r 8) (vr 4), .qunp h2 .rn .z8 (r 8) (r 2) (vr 4),
    .rnsenc h2 .s32 (r 2) (vr 4), .rnsdec h2 (r 2) (vr 4)],
    ∃ h, IssuesU i h (iss base) base := ⟨by decide +kernel, issues_of_all (by decide +kernel)⟩

/-- A state whose traps are all enabled and whose v4, v6 and v8 hold in lanes 0 and 31 a pattern that is a signalling NaN as an
F32 and, in its lower half, as an F16. -/
def sNaN : State := withG fun g =>
  [4, 6, 8].foldl (fun g v => [0, 31].foldl (fun g l => g.setFile (.v v l) ones 0x7F817C01) g) { g with gctl := 0x1F0 }

/-- Instructions of class 0x4 on these operands. -/
def trap4 : List Instr := [.fadd h2 ⟨.f32, .rn, false⟩ (r 2) (r 4) (vr 6),
    .fsub h2 ⟨.f16, .rz, true⟩ (r 2) (r 4) (vr 6), .fmul h2 ⟨.f32, .rm, false⟩ (r 2) (r 4) (vr 6),
    .fma h2 ⟨.f32, .gctl, false⟩ (r 2) (r 4) (vr 6) (r 8), .fmin h2 ⟨.f32, .gctl, false⟩ (r 2) (r 4) (vr 6),
    .fmax h2 ⟨.f32, .gctl, false⟩ (r 2) (r 4) (vr 6), .fcmp h2 ⟨.f32, .gctl, false⟩ .un (r 3) (r 4) (vr 6),
    .frnd h2 ⟨.f32, .rp, false⟩ (r 2) (vr 6), .fscl h2 ⟨.f32, .rn, false⟩ (r 2) (r 4) (vr 6),
    .fdot2 h2 ⟨.f16, .rn, false⟩ (r 2) (r 4) (vr 6) (r 8), .pfma h2 ⟨.f16, .rn, false⟩ (r 2) (r 4) (vr 6) (r 8),
    .pfadd h2 ⟨.bf16, .rn, false⟩ (r 2) (r 4) (vr 6), .pfmul h2 ⟨.bf16, .rn, false⟩ (r 2) (r 4) (vr 6)]

/-- Instructions of class 0x5 on these operands. -/
def trap5 : List Instr := [.cvt h2 .e4m3 true .rn .f32 false (r 2) (vr 4),
    .cvtr h2 .e5m2 true (r 2) (r 4) (vr 6), .frcp h2 false (r 2) (vr 4), .frsq h2 true (r 2) (vr 4), .fex2 h2 false (r 2) (vr 4),
    .flg2 h2 false (r 2) (vr 4), .fsin h2 false (r 2) (vr 4), .fcos h2 false (r 2) (vr 4),
    .fdiv h2 ⟨.f32, .rn, false⟩ (r 2) (r 4) (vr 6), .fsqrt h2 ⟨.f16, .rn, false⟩ (r 2) (vr 4),
    .qscl h2 true .s4 (r 2) (vr 4), .qpack h2 .rn .e2m1 (r 2) (r 4) (vr 4), .qunp h2 .rn .e5m2 (r 8) (r 4) (vr 4)]

/-- What the statement on FPTRAP asks of an instruction and its lanes. -/
def trapsIn (L : List Instr) (i : Instr) (_ : Hdr) (x : Iss) (s : State) (f : Nat → LaneOut) : Prop :=
  s = sNaN → x = iss sNaN → i ∈ L → ((lanesOf (x.active h2)).any fun l => (f l).fl &&& x.g.te != 0) = true

theorem witness_FptrapIssues : (∀ i ∈ trap4 ++ trap5, ∃ h, IssuesU i h (iss sNaN) sNaN) ∧
    sNaN.launch? (iss sNaN).tm.launch = some la0 ∧ la0.desc.policy = [.retry, .kparent, .kparent, .kparent, .kparent] ∧
    (iss sNaN).g.pend = [] ∧ (iss sNaN).sp.mask ≠ 0 := ⟨issues_of_all (by decide +kernel), by decide +kernel⟩

theorem witness_Fptrap_class4 : class4Lanes (trapsIn trap4) := by
  intro h f d va b vc x s
  refine ⟨?_, ?_, ?_, ?_, ?_, ?_, fun cc => ?_, fun set => ?_, ?_, ?_, ?_, ?_, ?_, ?_⟩ <;>
    (rintro rfl rfl a
     simp only [trap4, List.mem_cons, List.not_mem_nil, reduceCtorEq, false_or, or_false, Instr.fadd.injEq, Instr.fsub.injEq,
       Instr.fmul.injEq, Instr.fma.injEq, Instr.fmin.injEq, Instr.fmax.injEq, Instr.fcmp.injEq, Instr.frnd.injEq,
       Instr.fscl.injEq, Instr.fdot2.injEq, Instr.pfma.injEq, Instr.pfadd.injEq, Instr.pfmul.injEq] at a
     try (obtain ⟨rfl, rfl, rfl, rfl, rfl, rfl⟩ := a)
     try (obtain ⟨rfl, rfl, rfl, rfl, rfl⟩ := a)
     try (obtain ⟨rfl, rfl, rfl, rfl⟩ := a)
     try (revert cc)
     try decide +kernel)

theorem witness_Fptrap_class5 : class5Lanes (trapsIn trap5) := by
  intro h f t rnd sat ftz p2 d va b x s
  refine ⟨fun ts => ?_, ?_, ?_, ?_, ?_, ?_, ?_, ?_, ?_, ?_, ?_, ?_, ?_, ?_, ?_⟩ <;>
    (rintro rfl rfl a
     simp only [trap5, List.mem_cons, List.not_mem_nil, reduceCtorEq, false_or, or_false, Instr.cvt.injEq, Instr.cvtr.injEq,
       Instr.frcp.injEq, Instr.frsq.injEq, Instr.fex2.injEq, Instr.flg2.injEq, Instr.fsin.injEq, Instr.fcos.injEq,
       Instr.fdiv.injEq, Instr.fsqrt.injEq, Instr.qscl.injEq, Instr.qpack.injEq, Instr.qunp.injEq] at a
     try (obtain ⟨rfl, rfl, rfl, rfl, rfl, rfl, rfl, rfl⟩ := a)
     try (obtain ⟨rfl, rfl, rfl, rfl, rfl, rfl⟩ := a)
     try (obtain ⟨rfl, rfl, rfl, rfl, rfl⟩ := a)
     try (obtain ⟨rfl, rfl, rfl, rfl⟩ := a)
     try decide +kernel)

/-- A NaN operand of an instruction with traps off. -/
theorem witness_NanResult :
    let s := sNaN.modG ⟨0, 0, 0⟩ fun g => { g with gctl := 0 }
    (∃ h, IssuesU (.fmax h2 ⟨.f32, .gctl, false⟩ (r 2) (r 4) (vr 6)) h (iss s) s) ∧ (iss s).inPlace s ∧ (iss s).lone ∧
      (iss s).unlanded ∧ (iss s).g.te = 0 ∧ (iss s).g.pend = [] ∧ ((iss s).active h2).getLsbD 31 = true ∧
      (inF .f32 false ((iss s).g.vr 0 4 31).toNat).isNan = true ∧ (inF .f32 false ((iss s).g.vr 0 4 31).toNat).isSig = true := by
  refine ⟨issues_of_runs ?_, ?_⟩
  all_goals first | (unfold Iss.inPlace Iss.lone Iss.unlanded; decide +kernel) | decide +kernel

theorem witness_Masks : ∀ i ∈ [Instr.kand h2 (r 1) (r 2) (r 0), .kor h2 (r 1) (r 2) (r 3), .kxor h2 (r 1) (r 2) (r 3),
    .knot h2 (r 1) (r 3), .kmov h2 .kk (r 1) (r 3), .kmov h2 .ks (r 1) (r 67), .kmov h2 .sk (r 67) (r 3), .kpop h2 (r 5) (r 3),
    .kfind h2 false (r 5) (r 3), .kfind h2 true (r 5) (r 3), .lanek h2 .occ (r 1), .lanek h2 .vac (r 1), .lanek h2 .spl (r 0),
    .vote h2 .all (r 1) (r 2), .vote h2 .any (r 1) (r 2), .vote h2 .ballot (r 1) (r 2), .flgk h2 4 (r 1), .flgclr h2 31,
    .flgrd h2 (r 9)],
    ∃ h, IssuesU i h (iss base) base := issues_of_all (by decide +kernel)

theorem witness_CrossLane : ∀ i ∈ [Instr.shfl h2 .idx false (r 2) (r 4) (vr 6), .shfl h2 .xor true (r 2) (r 4) (vr 6),
    .pushw h2 false (r 2) (r 4) (vr 6) (r 3), .bcast h2 false (r 2) (r 4) (some (.scl (r 6))), .bcast h2 true (r 2) (r 4) none,
    .redu h2 true .fadd false (r 5) (r 4), .redu h2 false .maxz true (r 2) (r 4), .scan h2 false .add false (r 2) (r 4),
    .scan h2 true .fmin false (r 2) (r 4), .segscan h2 true .or false (r 2) (r 4) (r 3), .confl h2 false (r 2) (r 4) (r 3),
    .matchk h2 true (r 2) (r 4), .gsort h2 true .f32 (r 2) (r 4)],
    ∃ h, IssuesU i h (iss base) base := issues_of_all (by decide +kernel)

theorem witness_Branches : (∀ i ∈ [Instr.bra h2 4 2, .brc h2 (.lane 3 true) 4 2, .brc h2 (.nz 5) 4 2, .brc h2 (.z 5) 4 2,
    .call h2 62 4 2, .ret h1 62, .loop h2 7 (-2), .brx h2 4 30], ∃ h, IssuesU i h (iss base) base) ∧
    (iss base).active h2 ≠ 0 := ⟨issues_of_all (by decide +kernel), by decide +kernel⟩

/-- BRX whose lanes 0 and 31 name different addresses, or the same one. -/
theorem witness_Brx :
    let x := iss (withG fun g => g.setFile (.v 30 31) ones 0x4100)
    0 ∈ lanesOf x.sp.mask ∧ 31 ∈ lanesOf x.sp.mask ∧ x.g.vr64 0 30 0 ≠ x.g.vr64 0 30 31 ∧
    ∀ n ∈ lanesOf (iss base).sp.mask, (iss base).g.vr64 0 30 n = 0 := by decide +kernel

theorem witness_Transfer : (iss base).inPlace base ∧ (iss base).lone ∧ (iss base).g.joins = [] ∧ (iss base).sp.entry = some 0 ∧
    (iss base).sp.mask ≠ 0 ∧
    (let y : Split := { sp0 with rpc := some 0x4010, parent := some 7, mask := 1 }
     let g : Group := { gr0 with splits := [y], joins := [⟨7, some 0x4010, none, none, 0, [0x80000000]⟩] }
     g.splits = [y] ∧ y.entry.isSome = true ∧ y.rpc = some 0x4010 ∧ y.parent = some 7) := by
  unfold Iss.inPlace Iss.lone; decide +kernel

theorem witness_Waits : (∀ i ∈ [Instr.nop h1, .land h1, .yield h1, .spinh h1 63, .syncs h1],
    ∃ h, IssuesU i h (iss base) base) := issues_of_all (by decide +kernel)

/-- Splits held by YIELD, SPINH, SYNCS and the spin detector whose waits are over, at the bound. -/
theorem witness_WaitEvents :
    let at_ (hd : Hold) (q : Nat) := (withG fun g => g.modSplit 0 fun y => { y with hold := hd, quiet := q }).at? ⟨0, 0, 0⟩
    let now := base.now
    (at_ (.yield now []) 0).any (fun x => x.sp.hold = .yield now []) ∧ (at_ (.spinh now) 0).any (fun x => x.sp.hold = .spinh now) ∧
    (at_ .syncs 0).any (fun x => x.sp.hold = .syncs ∧ x.g.pend = []) ∧ (at_ .run 64).any (fun x => 64 ≤ x.sp.quiet) ∧
    (at_ (.demoted now) 64).any (fun x => x.sp.hold = .demoted now) := by decide +kernel

theorem witness_ExitHalt :
    (iss base).inPlace base ∧ base.launch? (iss base).tm.launch = some la0 ∧ (iss base).g.xp = none ∧
    (iss base).active h1 ≠ 0 ∧ (iss base).g.occ &&& ~~~(iss base).active h1 = 0 ∧
    (∃ h, IssuesU (.exit h1) h (iss base) base) ∧ (∃ h, IssuesU (.halt h1) h (iss base) base) ∧
    (let s := withG fun g => { g with kregs := [(3, 1)] }
     let x := iss s
     (∃ h, IssuesU (.exit ⟨.w1, 0, 3, false, 0⟩) h x s) ∧ x.g.occ &&& ~~~x.active ⟨.w1, 0, 3, false, 0⟩ ≠ 0 ∧
       x.sp.mask &&& ~~~x.active ⟨.w1, 0, 3, false, 0⟩ ≠ 0) ∧
    (let s := withT fun t => { t with groups := t.groups ++ [{ gr0 with grp := 1 }] }
     (iss s).g.live = true ∧ ∃ g ∈ (iss s).tm.groups, g.grp ≠ 0 ∧ g.live = true) := by
  refine ⟨?_, ?_, ?_, ?_, ?_, issues_of_runs ?_, issues_of_runs ?_, ⟨issues_of_runs ?_, ?_, ?_⟩, ?_⟩
  all_goals first | (unfold Iss.inPlace; decide +kernel) | decide +kernel

/-- No piece of a device's write of some bytes reaches a byte. -/
def storesNot (s : State) (ctx va : Nat) (bs : List Byte) (pa : Nat) : Bool :=
  let cs := lineCuts va bs
  (List.range cs.length).all fun i => cs[i]?.all fun c =>
    (((cs.take i).foldl (fun s c => s.devPut ctx c) s).devPlace ctx c.1).all fun k => decide (pa < k ∨ k + c.2.length ≤ pa)

theorem storesNot_ok {s : State} {ctx va pa : Nat} {bs : List Byte} (a : storesNot s ctx va bs pa = true) :
    ¬ s.devStores ctx va bs pa := by
  rintro ⟨pre, c, post, k, e, f, g, h⟩
  unfold storesNot at a
  rw [e] at a
  have b := List.all_eq_true.mp a pre.length (List.mem_range.mpr (by simp))
  simp [f] at b
  omega

/-- HALT of the last group, which holds a next block not begun, with its log in a page of the team's, and a byte beside it. -/
theorem witness_Halt_last :
    let s := (withT fun t => { t with cur := some ⟨0, 30⟩, nxt := some ⟨1, 32⟩ }).modLaunch 0 fun l =>
      { l with desc := { l.desc with save := 0x5000, items := 64, lblk := 5 } }
    let l := (s.launch? 0).getD la0
    (∃ h, IssuesU (.halt h1) h (iss s) s) ∧ (iss s).inPlace s ∧ s.launch? (iss s).tm.launch = some l ∧ (iss s).g.xp = none ∧
      (iss s).g.live = true ∧ (∀ g ∈ (iss s).tm.groups, g.grp ≠ (iss s).r.grp → g.live = false) ∧
      (∃ b, (iss s).tm.nxt = some b ∧ b.pos = l.blkLo b.blk) ∧ s.blkHi l 0 - 30 = 2 ∧
      ¬ s.devStores l.ctx (l.desc.save.toNat + 4096) ((iss s).haltEntry l) 0x20A400 ∧
      ¬ (s.devWrite l.ctx (l.desc.save.toNat + 4096) ((iss s).haltEntry l)).devStores l.ctx (l.desc.save.toNat + 8)
        (natLe 8 (l.nfault + 1)) 0x20A400 := by
  refine ⟨issues_of_runs ?_, ?_, ?_, ?_, ?_, ?_, ?_, ?_, storesNot_ok ?_, storesNot_ok ?_⟩
  all_goals first | (unfold Iss.inPlace; decide +kernel) | decide +kernel

/-- REFILL with 30 items in the block, behind another group's, with none left, with the grid exhausted, and waiting. -/
theorem witness_Refill :
    (let s := withT fun t => { t with cur := some ⟨0, 2⟩ }
     (∃ h, IssuesU (.refill h1 1) h (iss s) s) ∧ (iss s).inPlace s ∧ (iss s).lone ∧ (iss s).g.efaults = [] ∧
       (iss s).tm.nxt = none ∧ la0.desc.fed = false ∧ (iss s).behind s.now = false ∧ 2 + ((List.range 32).filter fun i => !(iss s).g.occ.getLsbD i).length ≤ s.blkHi la0 0) ∧
    (let s : State := { (withT fun t => { t with
         cur := some ⟨0, 2⟩
         groups := t.groups ++ [{ gr0 with grp := 1, splits := [{ sp0 with hold := .refill 1 4 }] }] }) with now := 5 }
     (∃ h, IssuesU (.refill h1 1) h (iss s) s) ∧ (iss s).behind s.now = true ∧ 2 < s.blkHi la0 0) ∧
    ((iss base).tm.cur = none ∧ (iss base).g.occ ≠ 0) ∧
    (let z (n : Nat) : State := (withG fun g => { g with occ := 0 }).modLaunch 0 fun l => { l with desc := { l.desc with items := n } }
     (iss (z 0)).tm.cur = none ∧ (iss (z 0)).g.occ = 0 ∧ (z 0).noItems { la0 with desc := { la0.desc with items := 0 } } (iss (z 0)).tm = true ∧
       (z 32).noItems la0 (iss (z 32)).tm = false) ∧
    (let s := (withG fun g => { g with occ := 0, splits := [{ sp0 with mask := 0, hold := .refill 1 0 }] }).modTeam 0 fun t => { t with cur := some ⟨0, 0⟩ }
     (iss s).sp.hold = .refill 1 0 ∧ ((iss s).refill refillHdr 1 0 s).isSome) := by
  refine ⟨⟨issues_of_runs ?_, ?_⟩, ⟨issues_of_runs ?_, ?_⟩, ?_, ?_, ?_⟩
  all_goals first | (unfold Iss.inPlace Iss.lone; decide +kernel) | decide +kernel

/-! ## Witnesses: memory -/

/-- The base state with s4 = 0x6000, s5 = 64 and s6 = 1. -/
def sM : State := withG fun g => ((g.setFile (.s 4) ones 0x6000).setFile (.s 5) ones 64).setFile (.s 6) ones 1

/-- A vector of addresses: [s4 + v7*4 + 16]. -/
def mV : Mem := ⟨r 4, r 7, .sv, 16, .grp, false, 2, .rlx⟩
/-- [s4 - 0] at an order and scope. -/
def mS (o : Order) (sc : Scope) : Mem := ⟨r 4, r 0, .s, 0, sc, false, 0, o⟩
/-- Scratch [s5]. -/
def mX (o : Order) : Mem := ⟨r 5, r 0, .s, 0, .grp, false, 0, o⟩

/-- What a check that succeeds reaches. -/
def wOf (f : Nat → Except LFault Where) (l : Nat) : Where :=
  match f l with
  | .ok w => w
  | .error _ => .scr 0 0

/-- The hypotheses of an entering access. -/
def meets (i : Instr) (h : Hdr) (s : State) (n : Nat) (plain wr : Bool) (reach : Iss → Nat → Except LFault Where) : Prop :=
  Issues i h (iss s) s ∧ (iss s).mayEnter h s n ∧ (iss s).reaches h s plain wr (reach (iss s)) (wOf (reach (iss s)))

theorem witness_Loads :
    meets (.ld h3 4 false (r 2) mV) h3 sM 0 true false (fun x l => x.reachG sM .read l (x.gAddr h3 mV l) 4 false) ∧
    meets (.lds h3 6 true (r 4) (mX .rlx)) h3 sM 0 true false (fun x l => x.reachS sM .read l (x.sAddr h3 (mX .rlx) l) 16 true) ∧
    meets (.lda h3 5 (r 2) (mS .acq .sys)) h3 sM 0 true false
      (fun x l => x.reachG sM .read l (x.gAddr h3 (mS .acq .sys) l) 8 false) ∧
    meets (.ldsb h3 31 (r 2) (mX .rlx)) h3 sM 0 true false (fun x l => x.reachS sM .read l (x.sAddr h3 (mX .rlx) l) 128 true) ∧
    (∀ l ∈ lanesOf ((iss sM).active h3), 4 ∣ (iss sM).sAddr h3 (mX .rlx) l) := by
  refine ⟨?_, ?_, ?_, ?_, ?_⟩ <;> (try simp only [meets, issues_iff, Iss.mayEnter, Iss.inPlace, Iss.lone, Iss.reaches]) <;> decide +kernel

theorem witness_Stores :
    meets (.st h3 1 false (r 2) mV) h3 sM 1 true true (fun x l => x.reachG sM .write l (x.gAddr h3 mV l) 1 false) ∧
    meets (.sts h3 6 false (r 4) (mX .rlx)) h3 sM 1 true true (fun x l => x.reachS sM .write l (x.sAddr h3 (mX .rlx) l) 16 false) ∧
    meets (.str h3 5 (r 2) (mS .rel .sys)) h3 sM 1 true true
      (fun x l => x.reachG sM .write l (x.gAddr h3 (mS .rel .sys) l) 8 false) := by
  refine ⟨?_, ?_, ?_⟩ <;> (try simp only [meets, issues_iff, Iss.mayEnter, Iss.inPlace, Iss.lone, Iss.reaches]) <;> decide +kernel

theorem witness_UniformAccess :
    (∃ h, IssuesU (.ldk h3 7 false (r 9) (mS .rlx .grp)) h (iss sM) sM) ∧ (∃ h, IssuesU (.stk h3 5 false (r 9) (mS .rlx .grp)) h (iss sM) sM) ∧
    (iss sM).inPlace sM ∧ (iss sM).lone ∧ (iss sM).sp.only = none ∧ (iss sM).g.full [0] false = false ∧
    (iss sM).g.full [1] false = false ∧
    (let x := iss sM
     let a := x.reachG sM .read 0 (x.gAddr h3 (mS .rlx .grp) 0) 4 false
     let b := x.reachG sM .write 0 (x.gAddr h3 (mS .rlx .grp) 0) 8 false
     a = .ok (wOf (fun _ => a) 0) ∧ x.raceHit sM (wOf (fun _ => a) 0) false = none ∧
     b = .ok (wOf (fun _ => b) 0) ∧ x.raceHit sM (wOf (fun _ => b) 0) true = none) := by
  refine ⟨issues_of_runs ?_, issues_of_runs ?_, ?_⟩
  all_goals first | decide +kernel | (simp only [Iss.inPlace, Iss.lone]; decide +kernel)

/-- The last tag entry is in range. -/
theorem witness_Tags :
    (∀ i ∈ [Instr.lookup h2 (r 2) (.vec (r 4)), .tagset h2 true (r 6) (.scl (r 8)), .taginv h2 (.scl (r 8))],
      ∃ h, IssuesU i h (iss (withG fun g => g.setFile (.s 8) ones 3)) (withG fun g => g.setFile (.s 8) ones 3)) ∧
    (iss base).mayEnter h2 base 0 ∧ (iss base).mayEnter h2 base 1 ∧ (iss base).launch base = some la0 ∧ 3 < la0.kern.tags := by
  refine ⟨issues_of_all ?_, ?_⟩
  · decide +kernel
  · simp only [Iss.mayEnter, Iss.inPlace, Iss.lone]; decide +kernel

/-- Addresses at the edges of R199's checks: bit 56, the last byte below 2^56, a misaligned one and one within a page. -/
theorem witness_AccessChecks :
    (2 ^ 56 ≤ (0x0100000000000000 : DWord).toNat) ∧ 2 ^ 56 < (0x00FFFFFFFFFFFFFF : DWord).toNat + 2 ∧
    noncanon (0x00FFFFFFFFFFFFFE : DWord).toNat = false ∧ noncanon ((0x00FFFFFFFFFFFFFE : DWord).toNat + 2 - 1) = false ∧
    (0x6002 : DWord).toNat % 4 ≠ 0 ∧
    (match base.checkGlob 0 0 0 .read 0 0x7FF0 16 false with | .ok bs => bs.length == 16 | .error _ => false) = true ∧
    (match base.leaf 0 0 0 0 (0x4000 / 8192 * 8192) with | .ok e => !e.permits .write | .error _ => false) = true ∧
    checkScr 16 0 8 8 false = .ok 8 ∧ checkScr 16 0 16 8 false = .error (.plain 0 .range 16) := by decide +kernel

/-- A page that no entry maps, whose walk fails at level 0, and the entries of levels 4, 1 and 0 on the way to a mapped one. -/
theorem witness_PageFaults :
    base.tlbHit 0 0 0 0x8000 = none ∧ base.invals = [] ∧
    (match base.walked 0 0x8000 with | .error (.page, 0) => true | _ => false) = true ∧ base.ctx? 1 = none ∧
    (base.ctx? 0).any (fun c => resolvePa (c.root + 8 * (0x6000 / 2 ^ 53 % 1024)) = some c.root ∧ c.root / 2 ^ 40 ≠ 2 ∧
      ((List.range 8).all fun i => !base.homeBad (c.root + i)) ∧ (leNat (base.homeRead c.root 8)).testBit 0 ∧
      (leNat (base.homeRead c.root 8)).testBit 1 = false) = true ∧
    resolvePa (0x218000 + 8 * (0x6000 / 2 ^ 13 % 1024)) = some 0x218018 ∧
    (leNat (base.homeRead 0x218018 8)).testBit 1 = true ∧ (leNat (base.homeRead 0x218020 8)).testBit 0 = false := by
  decide +kernel

/-- Accesses with no active lane, of each mode and of an order other than .RLX. -/
theorem witness_NoLane :
    let s := sM.modG ⟨0, 0, 0⟩ fun g => { g with kregs := [(3, 0)] }
    let h : Hdr := ⟨.w3, 0, 3, false, 0⟩
    (iss s).active h = 0 ∧ (iss s).g.openBefore (iss s).g.nextOp = false ∧
    (∀ i ∈ [Instr.ld h 4 false (r 2) mV, .lds h 4 false (r 2) ⟨r 5, r 7, .sv, 16, .grp, true, 2, .rlx⟩, .st h 4 false (r 2) mV,
      .sts h 4 false (r 2) ⟨r 0, r 8, .v, 0, .grp, false, 0, .rlx⟩, .ldsb h 31 (r 2) (mX .rlx),
      .lda h 4 (r 2) (mS .acq .sys), .str h 4 (r 2) (mS .rel .pkg), .atom h .add .z32 (r 2) (mS .ar .sys) (r 8),
      .red h .add .z32 (mS .rel .sys) (r 8), .cas h false (r 2) (mS .rlx .sys) (r 8), .atoms h .add .z32 (r 2) (mX .acq) (r 8),
      .cass h true (r 2) (mX .acq) (r 8)], Issues i h (iss s) s) := by
  simp only [issues_iff]; decide +kernel

/-- The state after an instruction. -/
def after (i : Instr) (s : State) : State := match exec i s with
  | .next t => t
  | _ => s

/-- The dirty bytes of a list of lines are valid. -/
def linesOk (m : Map Line) : Bool := Map.wf Line.none m && m.all fun e => e.2.dirty &&& ~~~e.2.valid == 0

/-- A finite check of `State.cacheOk`. -/
def cachesOk (s : State) : Bool :=
  s.dies.length == 4 && s.cores.all (fun c => linesOk c.2.l1) && s.dies.all fun d => linesOk d.dc

/-- A core whose L1 holds a dirty line of which byte 0 is valid, with the line and a release's marker in its FIFO. -/
def sDirty : State :=
  { (base.modCore 0 fun c => { c with l1 := [(0x208000 / 64, ⟨1, 1, 0x55⟩)], fifo := [.line (0x208000 / 64), .mark 0] }) with
    nextMark := 1 }

/-- A die with a dirty line of memory homed elsewhere, and a marker. -/
def sDie : State :=
  { (base.modDie 0 fun d => { d with dc := [(2 ^ 40 / 64, ⟨1, 1, 0x55⟩)], fifo := [.line (2 ^ 40 / 64), .mark 0] }) with
    nextMark := 1 }

/-- Operation 0 of group 0. -/
def o0 : ORef := ⟨0, 0, 0⟩

/-- A condition of the first operation. -/
def op0 (s : State) (P : Team → Group → Op → Bool) : Bool := (s.op? o0).any fun q => P q.1 q.2.1 q.2.2

/-- An operation that may be performed. -/
def ready (g : Group) (p : Op) : Bool := !p.done && !p.waitRetry && g.live && g.mayGo p && p.ord == .rlx && p.skip.isEmpty

theorem witness_Completion :
    op0 (after (.ld h3 4 false (r 2) mV) sM) (fun _ g p => ready g p && match p.kind with
      | .load _ _ accs => decide ((accs.map (·.lane)).Nodup ∧ ∀ a ∈ accs, a.lane < 32 ∧ a.got = 0) | _ => false) = true ∧
    op0 (after (.ldsb h3 31 (r 2) (mX .rlx)) sM) (fun _ g p => ready g p && match p.kind with
      | .loadBlock 2 32 accs => decide ((accs.map (·.lane)).Nodup ∧ ∀ a ∈ accs, a.lane < 32 ∧ a.got = 0) | _ => false) = true ∧
    op0 (after (.ldk h3 7 false (r 63) (mS .rlx .grp)) sM) (fun _ g p => ready g p && match p.kind with
      | .loadK sd _ a => sd == 63 && a.got == 0 | _ => false) = true ∧
    op0 (after (.lookup h2 (r 2) (.vec (r 4))) sM) (fun _ g p => ready g p && match p.kind with
      | .lookup 2 ks => decide ((ks.map (·.1)).Nodup ∧ ∀ k ∈ ks, k.1 < 32) | _ => false) = true ∧
    op0 (after (.taginv h2 (.scl (r 6))) sM) (fun _ g p => ready g p && match p.kind with | .tagset _ => true | _ => false) = true ∧
    op0 (after (.st h3 4 false (r 2) mV) sM) (fun _ g p => ready g p && match p.kind with
      | .store 4 accs => cachesOk (after (.st h3 4 false (r 2) mV) sM) && accs.all fun a => a.got == 0 && (match a.at_ with | .glb _ bs => bs.length == 4 | .scr _ _ => true) | _ => false) = true ∧
    op0 (after (.sldk h2 (r 9) (sr 10)) sM) (fun _ g p => ready g p && match p.kind with
      | .const 9 _ _ => true | _ => false) = true ∧
    op0 (after (.atoms h3 .add .z32 (r 2) (mX .rlx) (r 9)) sM) (fun _ g p => ready g p && match p.kind with
      | .atomic (some .add) .z32 (some 2) accs => decide ((∀ a ∈ accs, a.at_ = .scr 64 4) ∧ (accs.map (·.lane)).Nodup ∧
          (∀ a ∈ accs, a.lane < 32) ∧ accs ≠ []) | _ => false) = true := by decide +kernel

/-- One lane's access to a word, or a pair, of a cached and of an uncached page: the global atomics. -/
theorem witness_GlobalAtomics :
    let one (i : Instr) (uc : Bool) : Bool :=
      let s := { sM with mem := sM.mem }
      let s := if uc then s.homeWrite 0x218018 (natLe 8 0x20A02F) else s
      let s := s.modG ⟨0, 0, 0⟩ fun g => { g with kregs := [(3, 1)] }
      let t := after i s
      op0 t fun tm g p => !p.done && !p.waitRetry && g.live && g.mayGo p && p.skip.isEmpty &&
        (match p.kind with
          | .atomic _ ty _ [a] => match a.at_ with
            | .glb _ ((b :: bs)) => a.lane == 0 && (b :: bs) == ((List.range (ty.bits / 8)).map fun k => ⟨b.pa + k, uc⟩) &&
              b.pa % (ty.bits / 8) == 0 && decide (b.pa < 12 * 2 ^ 36)
            | _ => false
          | _ => false) &&
        (let t0 := if rels p.ord then t.release tm.core p.scope else t
         cachesOk t0 && Memory.wf t0.mem)
    let h : Hdr := ⟨.w3, 0, 3, false, 0⟩
    [one (.atom h .add .z64 (r 2) (mS .rlx .grp) (r 8)) false, one (.atom h .add .f32 (r 2) (mS .ar .sys) (r 8)) false,
     one (.atom h .add .f16 (r 2) (mS .rlx .pkg) (r 8)) true, one (.atom h .add .rx3 (r 2) (mS .rlx .grp) (r 8)) false,
     one (.red h .max .s32 (mS .rel .sys) (r 8)) true, one (.cas h true (r 2) (mS .rlx .grp) (r 8)) false] =
      [true, true, true, true, true, true] := by decide +kernel

/-- The bytes of a line whose L1 copy is dirty. -/
theorem witness_AtomPrep :
    cachesOk sDirty = true ∧ (0x208000 / 64 < 12 * 2 ^ 30) ∧ (lineOf (sDirty.core 0).l1 (0x208000 / 64)).dirty.getLsbD 0 = true ∧
      homeDie 0x208000 = some (dieOf 0) := by decide +kernel

theorem witness_Const :
    (∃ h, IssuesU (.sldk h3 (r 9) (.imm 56)) h (iss sM) sM) ∧ (∃ h, IssuesU (.pref h3 true mV) h (iss sM) sM) ∧
    (iss sM).launch sM = some la0 ∧ 56 + 8 ≤ la0.desc.csize ∧
    (match (iss sM).reachG sM .read 0 (la0.desc.const + 56) 8 true with | .ok (.glb _ bs) => bs.length == 8 | _ => false) = true := by
  refine ⟨issues_of_runs ?_, issues_of_runs ?_, ?_⟩ <;> decide +kernel

theorem witness_Atomics :
    (let m := mS .ar .sys
     meets (.atom h3 .min .s64 (r 2) m (r 8)) h3 sM 0 false true (fun x l => x.reachAtom sM l (x.gAddr h3 m l) 8) ∧
     meets (.cas h3 true (r 2) m (r 8)) h3 sM 0 false true (fun x l => x.reachAtom sM l (x.gAddr h3 m l) 8)) ∧
    (let m := mS .rel .pkg
     meets (.red h3 .add .f32 m (r 8)) h3 sM 1 false true (fun x l => x.reachAtom sM l (x.gAddr h3 m l) 4)) ∧
    meets (.atoms h3 .add .rx3 (r 2) (mX .acq) (r 8)) h3 sM 0 false true
      (fun x l => x.reachS sM .rmw l (x.sAddr h3 (mX .acq) l) 4 false) ∧
    meets (.cass h3 false (r 2) (mX .acq) (r 8)) h3 sM 0 false true
      (fun x l => x.reachS sM .rmw l (x.sAddr h3 (mX .acq) l) 4 false) := by
  refine ⟨⟨?_, ?_⟩, ?_, ?_, ?_⟩
  all_goals simp only [meets, issues_iff, Iss.mayEnter, Iss.inPlace, Iss.lone, Iss.reaches]; decide +kernel

/-! ## Witnesses: floating point and values -/

/-- FADD of the largest F32 with itself under an enabled overflow trap. -/
theorem witness_Fptrap :
    let s := withG fun g => { g with gctl := 0x1F0, vregs := [(4 * 32, 0x7F7FFFFF), (6 * 32, 0x7F7FFFFF)] }
    let x := iss s
    let f (l : Nat) := one 2 l (addF .f32 (x.g.mode .rn) false (inF .f32 false (elt .f32 (x.vN h2 (r 4) l)))
      (inF .f32 false (elt .f32 (x.bN h2 (vr 6) l))))
    (∃ h, IssuesU (.fadd h2 ⟨.f32, .rn, false⟩ (r 2) (r 4) (vr 6)) h x s) ∧
    s.launch? x.tm.launch = some la0 ∧ la0.desc.policy = [.retry, .kparent, .kparent, .kparent, .kparent] ∧
    x.g.pend = [] ∧ x.sp.mask ≠ 0 ∧ ((lanesOf (x.active h2)).any fun l => (f l).fl &&& x.g.te != 0) = true := by
  refine ⟨issues_of_runs ?_, ?_⟩ <;> decide +kernel

/-- A quiet and a signalling NaN, an infinity and a zero; the smallest value under RZ and one beyond the range. -/
theorem witness_Nan :
    (decodeF .f32 0x7FC00000).isNan = true ∧ (decodeF .f32 0x7F800001).isSig = true ∧ (decodeF .f32 0x7F800000).isInf = true ∧
    (decodeF .f16 0x7E00).isNan = true ∧ (decodeF .f32 0).isZero = true ∧ ¬ (decodeF .f32 0x3F800000).isNan = true := by
  decide +kernel

theorem witness_RoundingTowardZero :
    let x : Ex := ⟨1, 3⟩
    let y : Ex := ⟨2 ^ 128, 1⟩
    let top : Ex := ⟨2 ^ 128, 1⟩
    0 < x.d ∧ x.n ≠ 0 ∧ x.abs.lt top = true ∧ 0 < y.d ∧ y.n ≠ 0 ∧ top.le y.abs = true := by decide +kernel

theorem witness_Reductions :
    RedOp.maxz ∉ [RedOp.fadd, .fmin, .fmax] ∧ (∀ v ∈ [2 ^ 32 - 1, 0], v < 2 ^ 32) ∧ [2 ^ 32 - 1, 0].Perm [0, 2 ^ 32 - 1] ∧
    ([0, 31] : List Nat).Pairwise (· < ·) ∧ (-8257920 : Int) ≤ -8257920 ∧ (8257919 : Int) ≤ 8257919 := by decide +kernel

theorem witness_IntegerElements :
    ElemTy.z4 ∈ [ElemTy.s8, .z8, .s4, .z4] ∧ 7 < 32 / ElemTy.z4.bits ∧ ElemTy.s64 ∈ [ElemTy.s32, .z32, .s64, .z64] ∧
    (0x80000001 : Word).getLsbD 30 = false ∧ (0 : DWord) ≠ 1 := by decide +kernel

/-! ## Witnesses: fences, barriers, waits, triggers and copies -/

theorem witness_Fences :
    (∀ i ∈ [Instr.fence h1 .ar .sys, .acq h1 .team, .rel h1 .grp], ∃ h, IssuesU i h (iss base) base) ∧
    dieOf 0 < sDirty.dies.length ∧ (sDirty.core 0).fifo = [0x208000 / 64].map .line ++ .mark 0 :: [] ∧ 0 < sDirty.nextMark ∧
    (lineOf (sDirty.core 0).l1 (0x208000 / 64)).dirty.getLsbD 0 = true ∧
    (sDie.die 0).fifo = [2 ^ 40 / 64].map .line ++ .mark 0 :: [] ∧ homeDie (64 * (2 ^ 40 / 64)) = none ∧
    (lineOf (sDie.die 0).dc (2 ^ 40 / 64)).dirty.getLsbD 0 = true ∧
    ((withG fun g => g.modSplit 0 fun y => { y with hold := .fence .ar .grp [] 0 0 }).at? ⟨0, 0, 0⟩).any (fun x =>
      x.sp.hold = .fence .ar .grp [] 0 0 && x.released (withG fun g => g.modSplit 0 fun y => { y with hold := .fence .ar .grp [] 0 0 })) ∧
    (lineOf (base.core 0).l1 (0x208000 / 64)).dirty.getLsbD 0 = false := by
  refine ⟨issues_of_all ?_, ?_⟩ <;> decide +kernel

theorem linesOk_get {m : Map Line} (a : linesOk m = true) (k : Nat) :
    (lineOf m k).dirty &&& ~~~(lineOf m k).valid = 0 := by
  have b := (Bool.and_eq_true _ _ ▸ a : _ ∧ _).2
  clear a
  unfold lineOf
  induction m with
  | nil => show Line.none.dirty &&& ~~~Line.none.valid = 0; decide +kernel
  | cons p m ih =>
    simp only [List.all_cons, Bool.and_eq_true, beq_iff_eq] at b
    simp only [Map.get]
    split
    · exact b.1
    · exact ih b.2

theorem cacheOk_of {s : State} (a : cachesOk s = true) : s.cacheOk := by
  simp only [cachesOk, Bool.and_eq_true, List.all_eq_true, beq_iff_eq] at a
  obtain ⟨⟨a, b⟩, c⟩ := a
  have hc : ∀ k, linesOk (s.core k).l1 = true := by
    intro k
    unfold State.core
    cases e : s.cores.find? (·.1 = k) with
    | none => decide +kernel
    | some p => exact b p (List.mem_of_find?_eq_some e)
  have hd : ∀ k, linesOk (s.die k).dc = true := by
    intro k
    unfold State.die
    rw [List.getD_eq_getElem?_getD]
    cases e : s.dies[k]? with
    | none => decide +kernel
    | some p => exact c p (List.mem_of_getElem? e)
  exact ⟨a, fun k => (Bool.and_eq_true _ _ ▸ hc k : _ ∧ _).1, fun k => (Bool.and_eq_true _ _ ▸ hd k : _ ∧ _).1,
    fun k => linesOk_get (hc k), fun k => linesOk_get (hd k)⟩

theorem witness_CacheOk : base.cacheOk ∧ sDirty.cacheOk ∧ sDie.cacheOk :=
  ⟨cacheOk_of (by decide +kernel), cacheOk_of (by decide +kernel), cacheOk_of (by decide +kernel)⟩

/-- A team of two groups, the second of which may have arrived already. -/
def sBar (arr : List (Nat × Nat)) (n : DWord) : State := (withG fun g => g.setFile (.s 6) ones n).modTeam 0 fun t => { t with
  groups := t.groups ++ [{ gr0 with grp := 1 }]
  barInst := { t.barInst with arrived := arr } }

/-- The arrivals of BAR: a count of 0 and one above the number of groups; a count that is not the instance's; a first
arrival, the last one, and one of a group that has arrived. -/
theorem witness_BarInstances :
    (∀ i ∈ [Instr.bar h1, .cbar h1, .barCounted h2 (r 6), .cbarCounted h2 (r 6)],
      ∃ h, IssuesU i h (iss (sBar [] 3)) (sBar [] 3)) ∧
    (∀ arr ∈ [[], [(0, 1)], [(0, 0)]], let s := sBar arr 3
      (iss s).inPlace s ∧ (iss s).lone ∧ (iss s).tm.id = 0 ∧ (s.clusterOf? (iss s).tm).isSome = true ∧
      (s.barInst (iss s).tm false).arrived = arr ∧ (s.barGroups (iss s).tm false).length = 2 ∧ s.barLive (iss s).tm false = 2) ∧
    ((iss (sBar [] 0)).sR h2 (r 6) = 0 ∧ (iss (sBar [] 3)).sR h2 (r 6) = 3 ∧
      (let s := sBar [(0, 1)] 1
       s.barExpect (iss s).tm false (s.barInst (iss s).tm false) = 2 ∧ ((iss s).sR h2 (r 6)).toNat ≠ 2)) ∧
    ((base.barInst (iss base).tm false).arrived = [] ∧ (base.barInst (iss base).tm false).fixed = false ∧
      base.barLive (iss base).tm false = 1) ∧
    (let s := after (.bar h1) base
     ∃ tm b, s.team? 0 = some tm ∧ tm.acting = true ∧ s.barDone tm false = [b] ∧ b.arrived = [(0, 0)] ∧
       ((s.barWaiters tm false b.num).map (·.1)).Nodup ∧ s.barWaiters tm false b.num = [(⟨0, 0, 0⟩, 1)] ∧
       (s.group? 0 0).any (fun g => !g.openBefore g.barAt && g.splits.all (fun y => y.parent.isNone))) := by
  refine ⟨issues_of_all ?_, ?_, ?_, ?_, ((after (.bar h1) base).team? 0).getD tm0, ⟨0, [(0, 0)], none, false⟩, ?_⟩
  all_goals first | decide +kernel | (simp only [Iss.inPlace, Iss.lone]; decide +kernel)

/-- The base state with barrier register 2 as given. -/
def withB (b : BarReg) : State := withT fun t => t.setBar 2 b

/-- Each clause about b2, at the counts where it begins. -/
theorem witness_BarrierRegisters :
    (∀ i ∈ [Instr.binit h2 2 (.imm6 1), .binit h3 2 (.imm 1023), .binit h3 2 (.imm 1024), .barv h2 2 (.imm6 1),
      .bexp h3 2 (.imm 0xFFFFFFFF), .bwait h2 2 (.imm true), .btest h2 (r 3) 2 (.imm false)], ∃ h, IssuesU i h (iss base) base) ∧
    (iss base).g.openBefore (iss base).g.nextOp = false ∧ (iss base).g.efaults = [] ∧ (iss base).tm.bar 2 = BarReg.start ∧
    (let s := after (.st h3 4 false (r 2) mV) sM
     (iss s).g.openBefore (iss s).g.nextOp = true ∧ ∃ h, IssuesU (.barv h2 2 (.imm6 1)) h (iss s) s) ∧
    (let f (b : BarReg) (n : Nat) : List Bool :=
       [decide (b.expm ≠ 0 ∧ b.arrm + n < b.expm), decide (b.arrm + n = b.expm ∧ b.arrb < b.expb),
        decide (b.arrm + n = b.expm ∧ b.arrb = b.expb), decide (b.arrm + n = b.expm ∧ b.expb < b.arrb), decide (b.expm < b.arrm + n)]
     let at_ (a e m x : Nat) : BarReg := (iss (withB ⟨a, e, false, m, x⟩)).tm.bar 2
     f (at_ 0 0 0 2) 1 = [true, false, false, false, false] ∧ f (at_ 0 8 1 2) 1 = [false, true, false, false, false] ∧
     f (at_ 8 8 1 2) 1 = [false, false, true, false, false] ∧ f (at_ 9 8 1 2) 1 = [false, false, false, true, false] ∧
     f (at_ 8 8 2 2) 1 = [false, false, false, false, true]) ∧
    (let s := (withB ⟨0, 0, true, 0, 1⟩).modSplit ⟨0, 0, 0⟩ fun y => { y with hold := .bwait 2 false }
     (s.at? ⟨0, 0, 0⟩).any fun x => x.sp.hold = .bwait 2 false && (x.tm.bar 2).phase != false && (x.tm.bar 2).expm != 0) := by
  refine ⟨issues_of_all ?_, ?_, ?_, ?_, ⟨?_, issues_of_runs ?_⟩, ?_, ?_⟩ <;> decide +kernel

/-- A copy in flight names b2. -/
theorem witness_BarrierBusy :
    let s := after (.cpa h3 (some 2) 2 .ss (r 8) (r 9) 0 16) base
    (∃ h, IssuesU (.binit h2 2 (.imm6 1)) h (iss s) s) ∧ (s.teams.any fun t => t.groups.any fun g => g.ops.any fun o =>
      o.bn == some 2 && t.id == 0) = true := by
  refine ⟨issues_of_runs ?_, ?_⟩ <;> decide +kernel

/-- Two loads in flight on n0. -/
def s2Loads : State :=
  let s := after (.ld h3 4 false (r 2) mV) sM
  after (.ld h3 4 false (r 3) mV) s

/-- The bytes of RWR, as they follow a TRIG. -/
def trigBytes : List Byte := (Instr.cpa h3 none 0 .ss (r 8) (r 9) 0 0).encodeBytes

/-- A placed TRIG with a CPA after it. -/
def sTrig : State :=
  let s := (placedWrites ((Instr.trig h3 (.ctr 0) (.imm 0)).encodeBytes ++ trigBytes)).foldl (fun s w => s.homeWrite w.1 w.2) base
  after (.ld h3 4 false (r 2) ⟨r 4, r 0, .s, 0, .grp, false, 0, .rlx⟩)
    { s with teams := [{ tm0 with groups := [{ gr0 with splits := [{ sp0 with pc := 0x3FF4 }], sregs := [(4, 0x6000)] }] }] }

theorem witness_Counters :
    (s2Loads.group? 0 0).any (fun g => g.ctrs[0]? = some [(0, false), (1, false)]) ∧
    (∃ h, IssuesU (.waitn h2 0 (.imm 2)) h (iss s2Loads) s2Loads) ∧ (iss s2Loads).g.efaults = [] ∧ (iss s2Loads).g.ctr 0 = 2 ∧
    (iss s2Loads).waitThr h2 (.imm 2) = 2 ∧ (iss s2Loads).waitThr h2 (.imm 1) = 1 ∧
    ((s2Loads.modSplit ⟨0, 0, 0⟩ fun y => { y with hold := .waitn 0 2 }).at? ⟨0, 0, 0⟩).any (fun x => x.sp.hold = .waitn 0 2) := by
  refine ⟨?_, issues_of_runs ?_, ?_⟩ <;> decide +kernel

theorem witness_Trig :
    let x := iss sTrig
    let i := Instr.cpa h3 none 0 .ss (r 8) (r 9) 0 0
    let y : Iss := { x.follow h3 with g := x.g.consume sTrig.now 0 0 false }
    sTrig.issuer = some x ∧ x.inPlace sTrig ∧ x.lone ∧ x.check (.trig h3 (.ctr 0) (.imm 0)) h3 0xA9 sTrig = none ∧
    sTrig.fetch (x.follow h3) = .word (i.encodeBytes) ∧ trigTarget i.encodeBytes = some (.ok (i, h3, 0xA0)) ∧
    x.g.uGuard 0 h3 = true ∧ y.check i h3 0xA0 sTrig = none ∧ (x.g.ops.filter (·.trig.isSome)).length < 8 ∧
    (y.buildTrig i sTrig).any (fun p => p.2.isEmpty && !x.g.full p.1.ctrs true) = true ∧
    (x.trigWait h3 (.ctr 0) (.imm 0)).holds x.tm x.g = false ∧
    op0 (after (.triggerFire o0) sTrig) (fun _ _ p => p.trig.isNone) = true := by
  unfold Iss.inPlace Iss.lone; decide +kernel

/-- A triggered operation whose condition holds. -/
theorem witness_TriggerFire :
    let s := (after (.memoryAccessCompletion o0) (after (.trig h3 (.ctr 0) (.imm 0)) sTrig))
    (s.op? ⟨0, 0, 1⟩).any (fun q => match q.2.2.trig with | some w => w.holds q.1 q.2.1 && q.1.acting | none => false) = true := by
  decide +kernel

/-- A 128-byte copy descriptor at 0x6000: 8 elements of 4 bytes. -/
def sDesc : State :=
  let d := natLe 4 0x21 ++ natLe 4 0 ++ natLe 4 8 ++ (List.replicate 5 (natLe 4 1)).flatten ++ natLe 8 4 ++
    List.replicate 40 (0 : Byte) ++ natLe 8 4 ++ List.replicate 40 (0 : Byte)
  { (base.homeWrite 0x20A000 d) with
    teams := [{ tm0 with groups := [{ gr0 with sregs := [(4, 0x6000), (5, 64), (6, 0x6100)] }] }] }

theorem witness_Copies :
    (∃ h, IssuesU (.cpa h3 (some 3) 2 .ss (r 8) (r 9) 0 16) h (iss base) base) ∧ (iss base).mayEngine base [2] ∧
    (∀ l ∈ lanesOf ((iss base).active h3), base.checkCopy 0 0 0 16384 .ss 16 l 0 16 = .ok (.scr 0 16, .scr 16 16)) ∧
    (iss sDesc).mayEngine sDesc [2] ∧ (iss sDesc).mustWait ((iss sDesc).descRegion h3 false (.reg (r 4)) sDesc) = false ∧
    (∃ h, IssuesU (.tcopy h3 none .gs false (r 6) (r 5) (.reg (r 4))) h (iss sDesc) sDesc) ∧
    (∃ h, IssuesU (.tcopym h3 none false (r 6) (r 5) (.reg (r 4)) 0) h (iss sDesc) sDesc) ∧
    (match (iss sDesc).buildTcopy h3 none .gs false (r 6) (r 5) (.reg (r 4)) none sDesc with
      | .ok b => decide (b.bytes = 32) | .error _ => false) = true ∧
    (match (iss sDesc).buildTcopy h3 none .gs false (r 6) (r 5) (.reg (r 4)) (some 0) sDesc with
      | .ok b => decide (b.bytes = 32) | .error _ => false) = true := by
  refine ⟨issues_of_runs ?_, ?_, ?_, ?_, ?_, issues_of_runs ?_, issues_of_runs ?_, ?_⟩
  all_goals first | decide +kernel | (simp only [Iss.mayEngine, Iss.inPlace, Iss.lone]; decide +kernel)

/-- One lane's copy from scratch to a word at 0x6000. -/
theorem witness_CopyOut :
    let s := sM.modG ⟨0, 0, 0⟩ fun g => { g with kregs := [(3, 1)], vregs := [(12 * 32, 0x6000)] }
    let t := after (.cpa ⟨.w3, 0, 3, false, 0⟩ none 0 .sg (r 8) (r 12) 0 0) s
    op0 t (fun tm g p => g.mayGo p && !p.waitRetry && cachesOk t && match p.kind with
      | .copy [(0, .scr 0 4, .glb 0x6000 bs)] => bs == (List.range 4).map (fun i => ⟨0x20A000 + i, false⟩) &&
          !((t.engHull tm.core (tm.ctx t) p.fp).engReady tm (.scr 0 4)).engDamaged tm (.scr 0 4)
      | _ => false) = true := by decide +kernel

theorem witness_CopyCompletion :
    (let s := after (.cpa h3 none 2 .ss (r 8) (r 9) 0 16) base
     op0 s (fun tm g p => g.mayGo p && !p.waitRetry && cachesOk s && match p.kind with
       | .copy es => let s1 := es.foldl (fun s e => s.engReady tm e.2.1) (s.engHull tm.core (tm.ctx s) p.fp)
         decide (dieOf tm.core < s.dies.length) && (es.all fun e => !s1.engDamaged tm e.2.1)
       | _ => false)) = true ∧
    (let s := after (.tcopy h3 none .gs false (r 6) (r 5) (.reg (r 4))) sDesc
     op0 s (fun tm g p => g.mayGo p && match p.kind with
       | .tcopy .gs a b esz ns ss ds _ => (indices ns).all fun i =>
           (match s.elemAt 0 tm (tm.ctx s) true .read (baseOf true a + dotStride i ss) esz with
            | .ok w => !s.engDamaged tm w | .error _ => false) && decide (0 ≤ baseOf false b + dotStride i ds)
       | _ => false)) = true := by decide +kernel

/-! ## Witnesses: matrix -/

/-- Tile 0 with residues 1 and slab count 0, and S8 registers v8 to v55 of ones in lanes 0 and 31. -/
def sMat : State := withG fun g => { g with
  tiles := [(0, 0x010101)], vregs := (List.range 48).flatMap fun i => [(32 * (8 + i), 0x01010101), (32 * (8 + i) + 31, 0x01010101)] }

/-- The same tile at its slab budget. -/
def sMatFull : State := withG fun g => { g with tiles := [(0, 0xFF000000)] }

theorem witness_Mma :
    (∀ i ∈ [Instr.mma h2 false .s8 .z8 .wide (r 0) (r 8) (r 32), .mma h2 true .s8 .s8 .wide (r 0) (r 8) (r 32),
      .mma h2 false .f32 .f32 .f16 (r 0) (r 8) (r 32), .mma h2 true .e4m3 .e2m1 .bf16 (r 31) (r 8) (r 32)],
      ∃ h, IssuesU i h (iss sMat) sMat) ∧
    (iss sMat).inPlace sMat ∧ (iss sMat).lone ∧ (iss sMat).mayEngine sMat [3] ∧
    (iss sMat).g.slabCheck .s8 .z8 0 1 = .ok [2] ∧ (iss sMat).g.slabCheck .f32 .f32 0 1 = .none ∧
    (iss sMatFull).g.slabCheck .s8 .s8 0 1 = .over ∧ (iss sMat).g.tilesBusy [tileFp 0 1 true] = false := by
  refine ⟨issues_of_all ?_, ?_, ?_, ?_, ?_, ?_, ?_, ?_⟩
  all_goals first | decide +kernel | (simp only [Iss.mayEngine, Iss.inPlace, Iss.lone]; decide +kernel)

/-- Without race records there is no race. -/
theorem raceNone {x : Iss} {s : State} {w : Where} {wr : Bool} (a : ∀ k, s.races x.r.team x.tm.core w k = []) :
    x.raceHit s w wr = none := by
  have b : ∀ core slot i wr, s.raceHit core slot [] i wr = none := fun _ _ _ _ => rfl
  unfold Iss.raceHit
  simp only [a, b, Option.map_none, ite_self]
  rw [List.findSome?_eq_none_iff]
  intro p _
  simp

/-- A scratch access of the first team, when that has no records. -/
theorem raceNone_scr {s : State} {off n : Nat} {wr : Bool} (a : (iss s).r.team = 0)
    (b : (s.team? 0).map (·.scrRace) = some []) : (iss s).raceHit s (.scr off n) wr = none := by
  refine raceNone fun k => ?_
  rw [a]
  unfold State.races
  cases e : s.team? 0 with
  | none => rfl
  | some t => simp [e] at b; simp [b, Map.get]

theorem witness_Tiles :
    (∀ i ∈ [Instr.rcvt h2 (r 1) (r 0), .scacc h2 .f32 (r 1) (r 0) (r 8) (r 9), .accz h2 (r 31), .accrd h2 7 (r 8) (r 0) 24,
      .accwr h2 31 (r 0) (r 8) 0, .accstat h2 true (r 63) (r 0)], ∃ h, IssuesU i h (iss sMat) sMat) ∧
    (iss sMat).g.tilesBusy [tileFp 1 1 true, tileFp 0 1 false] = false ∧
    (∀ i ∈ [Instr.accld h2 (r 1) (r 5), .accst h2 (r 0) (r 5)], ∃ h, IssuesU i h (iss sM) sM) ∧
    ((iss sM).sR h2 (r 5)).toInt = 64 ∧ 64 + 4096 ≤ (iss sM).tm.scrSize sM ∧
    (iss sM).mustWait [⟨.scratch 0, 64, 64 + 4096, true⟩] = false ∧ (iss sM).tm.scrDamaged 64 4096 = false ∧
    (iss sM).raceHit sM (.scr 64 4096) true = none := by
  refine ⟨issues_of_all ?_, ?_, issues_of_all ?_, ?_, ?_, ?_, ?_, raceNone_scr ?_ ?_⟩ <;> decide +kernel

/-- A team of four groups, each with items, whose members have arrived at an MMAQ. -/
def sQuart : State :=
  let g (i : Nat) : Group := { gr0 with grp := i }
  let s := withT fun t => { t with groups := [g 0, g 1, g 2, g 3] }
  [0, 1, 2, 3].foldl (fun s i => after (.mmaq h2 false .s8 .s8 .wide (r 0) (r 8) (r 40)) { s with sel := some ⟨0, i, 0⟩ }) s

/-- The same, with one arrival of another type. -/
def sQuartBad : State :=
  sQuart.modTeam 0 fun t => { t with quartArr := t.quartArr.map fun a => if a.2.2.grp = 3 then (a.1, a.2.1, { a.2.2 with tb := .z8 }) else a }

theorem witness_Quartet :
    (∃ h, IssuesU (.mmaq h2 false .s8 .s8 .wide (r 0) (r 8) (r 40)) h (iss base) base) ∧ (iss base).tm.groups.length % 4 ≠ 0 ∧
    (let s := withT fun t => { t with groups := [gr0, { gr0 with grp := 1 }, { gr0 with grp := 2 }, { gr0 with grp := 3 }] }
     (iss s).tm.groups.length % 4 = 0 ∧ (iss s).g.slabCheck .s8 .s8 0 4 ≠ .wait ∧ (iss s).g.slabCheck .s8 .s8 0 4 ≠ .over ∧
       (iss s).g.tilesBusy [tileFp 0 4 true] = false ∧ (iss s).g.full [3] true = false ∧
       ∀ g ∈ (iss s).tm.groups, g.grp / 4 = 0 → g.live = true) ∧
    (let tm := (sQuart.team? 0).getD tm0
     let as := sortBy (·.grp) (tm.quartet 0 0)
     sQuart.team? 0 = some tm ∧ (tm.quartArr.filter (·.1 = 0)).map (·.2.1) = [0, 0, 0, 0] ∧ as.length = 4 ∧
       (∀ g ∈ tm.groups, g.grp / 4 = 0 → g.live = true) ∧ (as.map (·.grp)).Nodup ∧
       (∀ a ∈ as, ∀ b ∈ as, a.async = b.async ∧ a.ta = b.ta ∧ a.tb = b.tb ∧ a.tc = b.tc) ∧ (∀ a ∈ as, a.op = none) ∧
       ∀ a ∈ as, (sQuart.group? 0 a.grp).any fun g => g.splits.all fun y => y.id == a.split && y.parent.isNone) ∧
    (let tm := (sQuartBad.team? 0).getD tm0
     ¬ ∀ a ∈ tm.quartet 0 0, ∀ b ∈ tm.quartet 0 0, a.tb = b.tb) := by
  refine ⟨issues_of_runs ?_, ?_, ?_, ?_, ?_⟩ <;> decide +kernel

/-- The MMV of two rows at 0x6000, 16-byte stride. -/
def iMmv : Instr := .mmv h3 .bf16 .bf16 .wide (r 0) (r 8) 4 5 1 0

/-- s4 = 0x6000 and s5 = 64. -/
theorem witness_MmvAndTables :
    (∃ h, IssuesU iMmv h (iss sM) sM) ∧ (iss sM).mayEngine sM [3] ∧ 16 ∣ ((iss sM).sR h3 (r 4)).toNat ∧
    16 ∣ ((iss sM).sR h3 (r 5)).toNat ∧ noncanonHull 0x6000 (0x6000 + 1 * 64 + mmvBytes .bf16 .bf16) = false ∧
    noncanonHull 0xDBFFFFFFFFFFF0 (0xDBFFFFFFFFFFF0 + 1 * 0x4000000000000 + 16) = true ∧
    (∀ i ∈ [Instr.mlutb h2 (r 0) (r 8), .mlut h2 .b1 false (r 6) (r 0) (r 8), .mlut h2 .b2s true (r 31) (r 0) (r 8)],
      ∃ h, IssuesU i h (iss sMat) sMat) ∧
    (iss sMat).g.tilesBusy [tileFp 0 6 true] = false ∧ (iss sMat).g.tilesBusy [tileFp 6 1 true, tileFp 0 6 false] = false := by
  refine ⟨issues_of_runs ?_, ?_, ?_, ?_, ?_, ?_, issues_of_all ?_, ?_⟩
  all_goals first | decide +kernel | (simp only [Iss.mayEngine, Iss.inPlace, Iss.lone]; decide +kernel)

/-- An asynchronous operation queued on the array, and the same one when its time has passed. -/
def sQueued (i : Instr) : State := { after i sM with grants := List.replicate 16 8 }
/-- Started, with its latency over. -/
def sDone (i : Instr) : State := { after (.matrixOpStart 0 0) (sQueued i) with now := 100000 }

theorem witness_MatrixEvents :
    (let s := sQueued (.mma h2 true .s8 .s8 .wide (r 0) (r 8) (r 40))
     (s.core 0).matq.length = 1 ∧ (∀ e ∈ (s.core 0).matq, (s.op? ⟨e.team, e.grp, e.op⟩).isSome ∧ e.bench = 0 ∧ e.started = none) ∧
       op0 s (fun _ _ p => p.matReady) = true ∧ (s.core 0).matFree.getD 0 0 ≤ s.now ∧
       s.demand.getD (islandOf 0) 0 ≤ s.grants.getD (islandOf 0) 0) ∧
    (let s := { sQueued (.mma h2 true .s8 .s8 .wide (r 0) (r 8) (r 40)) with demand := List.replicate 16 9 }
     s.grants.getD (islandOf 0) 0 < s.demand.getD (islandOf 0) 0) ∧
    (∀ i ∈ [Instr.mma h2 true .s8 .s8 .wide (r 0) (r 8) (r 40), .mlut h2 .b1 true (r 6) (r 0) (r 8), iMmv],
      op0 (sDone i) (fun tm g p => g.live && p.bn.isNone &&
        (((sDone i).core tm.core).matq.find? fun q => q.team == 0 && q.grp == 0 && q.op == 0).any fun q =>
          q.started.any fun st => decide (st + q.lat ≤ (sDone i).now)) = true) := by decide +kernel

/-- An element of the destination tile of a started MMA bears an error. -/
theorem witness_BadTile :
    let s := (sDone (.mma h2 true .s8 .s8 .wide (r 0) (r 8) (r 40))).modG ⟨0, 0, 0⟩ fun g => { g with badRegs := [.a 0 1023] }
    op0 s (fun _ g p => g.live && p.bn.isNone && g.tilesBad p.fp) = true := by decide +kernel

set_option maxRecDepth 20000 in
/-- The rows of an MMV at 0x6000 are read, and those of one at an unmapped address are not. -/
theorem witness_MmvRows :
    let rows (s : State) (w : DWord) := ((s.mmvRows tm0 0 w 64 1 (mmvBytes .e2m1 .e2m1)).2)
    (match rows base 0x6000 with | .ok l => l.length == 1 | .error _ => false) = true ∧
    (match (base.mmvRows tm0 0 0x600000 64 1 16).2 with | .ok _ => false | .error f => f.cause == .page) = true := by decide +kernel

/-! ## Witnesses: gathers, scatters, key lookup -/

/-- s20 = 0 names handle 0, s1 = 1 handle 1, s21 = 4096 a scratch base, s22 a key lookup of k = 2 of 4 keys with its record at
8192; v8 of lane 0 holds index 15, of lane 31 the null index, v9 index 16. -/
def sG : State := withG fun g => { g with
  sregs := [(1, 1), (21, 4096), (22, 0x200000020004)]
  vregs := [(32 * 8, 15), (32 * 8 + 31, 0xFFFFFFFF), (32 * 9, 16)] }

/-- A status word. -/
def gs : Option GStat := some ⟨40, 0, 5⟩

theorem witness_GatherClass :
    (∀ i ∈ [Instr.gather h3 .plain false false 21 20 (r 8) (.imm 2) gs, .gather h3 .wsum true true 21 1 (r 8) (.imm 16) gs,
      .scatr h3 .add false false 21 20 (r 8) (.imm 1) gs, .scatr h3 .max true true 21 1 (r 8) (.imm 2) gs,
      .scatw h3 false false 21 20 (r 8) (.imm 1) gs, .klook h3 false false 21 0 1 22 gs, .kgrad h3 false 21 1 22 gs,
      .gstat h2 true (r 67), .hdesc h2 5 (r 9) (r 20) (r 1), .hdesc h2 0 (r 9) (r 20) (r 0)],
      ∃ h, IssuesU i h (iss sG) sG) ∧
    (iss sG).g.ops.any Op.unperformed = false ∧ (iss sG).g.acquireOpen (iss sG).g.nextOp = false ∧
    (iss sG).mayEngine sG [4] ∧ (iss sG).mayEngine sG [1, 4] ∧
    (let hd := (iss sG).tm.handle 0
     (∀ c ∈ gatherChecks 16384 hd (gatherAdmits .plain false hd.fmt) 4096 (32 * 2 * hd.rb) false, c.1 = false) ∧
     (∀ c ∈ gatherChecks 16384 hd (scatrAdmits .add false hd.fmt) 4096 (32 * 1 * hd.eb false) true, c.1 = false) ∧
     (∀ c ∈ gatherChecks 16384 hd (scatwAdmits false hd.fmt) 4096 (32 * 1 * hd.eb false) true, c.1 = false) ∧
     hd.bound = true ∧ 15 < hd.nrows ∧ hd.nrows = 16 ∧ (1 : DWord).toNat < hd.nrows) ∧
    (let hd := (iss sG).tm.handle 1
     keyParams ((iss sG).sR h3 (.plain 22)) = some (4, 2, 8192) ∧
     (∀ c ∈ keyChecks 16384 false hd (gatherAdmits .wsum false hd.fmt) [(4096, 32 * hd.eb false), (0, 256 * 4), (8192, 8192)] false,
       c.1 = false) ∧
     (∀ c ∈ keyChecks 16384 false hd hd.fmt.inF [(4096, 32 * (4 * hd.elems)), (8192, 8192)] true, c.1 = false) ∧
     (iss sG).mustWait [⟨.scratch 0, 0, 1024, false⟩, ⟨.scratch 0, 8192, 16384, true⟩] = false) ∧
    (handleOf (handleBytes 0x37 0x6000)).bound = true ∧ 15 < (handleOf (handleBytes 0x37 0x6000)).nrows ∧
    [(false, Cause.range, (0 : DWord)), (true, .misalign, 2)] = [(false, .range, 0)] ++ (true, .misalign, 2) :: [] := by
  refine ⟨issues_of_all ?_, ?_, ?_, ?_, ?_, ?_, ?_, ?_⟩
  all_goals first | decide +kernel | (simp only [Iss.mayEngine, Iss.inPlace, Iss.lone]; decide +kernel)

/-- A gather of three rows (one out of range), before and after its requests were sent. -/
def sGather : State := after (.gather h3 .plain false false 21 20 (r 8) (.imm 2) gs) sG
/-- As `sGather`, answered. -/
def sAnswered : State := after (.gatherRequestArrival (.own o0)) sGather
/-- A pooled gather by KLOOK in its gather phase. -/
def sKlook : State := { after (.klook h3 false false 21 0 1 22 gs) { sG with
  teams := sG.teams.map fun t => { t with scratch := (List.range 4096).map fun i => (i, 0x3F) } } with now := 10 ^ 6 }

theorem witness_Gathers :
    op0 sGather (fun _ g p => g.mayGo p && match p.kind with | .gather q => !q.sent && !p.waitRetry && q.slots.length == 3 | _ => false) = true ∧
    op0 sAnswered (fun _ g p => g.mayGo p && match p.kind with
      | .gather q => q.sent && q.mode == .plain && q.key == none && q.slots.all (fun z => !z.open_ && !z.placed) &&
          decide ((q.slots.map (·.pos)).Nodup ∧ 0 ≤ q.base) && q.slots.all (fun z => !z.got || z.row.length == q.h.rb)
      | _ => false) = true ∧
    op0 sAnswered (fun _ g p => g.live && p.bn.isNone && p.skip.isEmpty && match p.kind with
      | .gather q => q.slots.all fun z => z.cause.all fun c => causeBit c != 0
      | _ => false) = true := by decide +kernel

/-- A pooled gather of rows, its requests, and its reads done; a row on another package. -/
theorem witness_PooledGathers :
    (let s := after (.gather h3 .sum false false 21 20 (r 8) (.imm 2) gs) sG
     op0 s (fun _ g p => g.mayGo p && !p.waitRetry && match p.kind with
       | .gather q => !q.sent && q.mode != .plain && q.slots.any (fun z => z.open_ && z.pkg == s.pkgNum && z.lane == 0)
       | _ => false) = true ∧
     op0 (after (.gatherRequestArrival (.own o0)) s) (fun _ g p => g.mayGo p && !p.waitRetry && match p.kind with
       | .gather q => q.mode != .plain && q.key.isNone && q.slots.all (fun z => !z.open_) && decide (0 ≤ q.base ∧ 4 ∣ q.h.rb) &&
           gatherAdmits q.mode q.f32 q.h.fmt && (q.parts.filter (·.1 = 0)).length == 1
       | _ => false) = true ∧
     op0 s (fun _ _ p => match p.kind with
       | .gather q =>
           let q : GOp := { q with slots := q.slots.map fun z : GSlot => if z.cause.isNone then { z with pkg := 5 } else z }
           q.slots.any (fun z => z.lane == 0 && z.pkg == 5 && z.open_) && q.h.elems == 1
       | _ => false) = true) ∧
    (base.pkg = .up) ∧
    (let rows : List RowRead := [⟨0, natLe 4 7, [2 ^ 36, 2 ^ 36 + 1, 2 ^ 36 + 2, 2 ^ 36 + 3]⟩, ⟨0, natLe 4 5, [0, 1, 2, 3]⟩]
     ([0, 1] : List Nat).Pairwise (· < ·) ∧ (rows.map fun r => r.pas.getD 0 0 / 2 ^ 36) = [1, 0] ∧ 0 < 1) ∧
    (let ps : List (Nat × Nat × List Word) := [(0, 3, [1]), (0, 0, [2])]
     (ps.filter (·.1 = 0)).Perm [(0, 0, [2]), (0, 3, [1])] ∧
       ([(0, 0, [2]), (0, 3, [1])] : List (Nat × Nat × List Word)).Pairwise fun a b => a.2.1 < b.2.1) := by decide +kernel

/-- The same gather whose row lies on package 5, which is reachable or not. -/
def sFar (down : Bool) : State :=
  { (sGather.modGroup 0 0 fun g => g.modOp 0 fun p => { p with kind := match p.kind with
      | .gather q => .gather { q with slots := q.slots.map fun z => if z.cause.isNone then { z with pkg := 5 } else z }
      | k => k }) with
    peers := [(5, { tiers := [(1, [0])], tier := 1, paths := [0], removed := [], events := 0, down := down })] }

theorem witness_FarGathers :
    (∀ d, op0 (sFar d) (fun _ g p => g.mayGo p && match p.kind with
      | .gather q => !q.sent && q.slots.any (fun z => z.open_ && z.pkg != (sFar d).pkgNum && (sFar d).reachable z.pkg == !d) && !p.waitRetry
      | _ => false) = true) ∧
    op0 (after (.gatherRequestArrival (.own o0)) (sFar false)) (fun _ _ p => match p.kind with
      | .gather q => q.sent && q.slots.any fun z => z.open_ && z.pkg == 5 && z.pos == 0 && q.h.rb == 4
      | _ => false) = true ∧
    ((base.fetchRow 0 0x6000 4).toOption.isSome && !(base.fetchRow 0 0x600000 4).toOption.isSome) = true := by
  refine ⟨fun d => ?_, ?_, ?_⟩
  · cases d <;> decide +kernel
  all_goals decide +kernel

/-- A KLOOK at the end of its selection, and in its gather phase with its rows in. -/
theorem witness_Klook :
    ((sKlook.at? ⟨0, 0, 0⟩).any fun x => x.tm.id == 0 && x.g.splits == [x.sp] && x.sp.parent.isNone && !x.g.full [4] true &&
      match x.sp.hold with
      | .klook till q sq nk _ rec => decide (till ≤ sKlook.now) && (lanesOf q.lanes).all fun l =>
          !x.tm.scrDamaged (sq + 8 * nk * l) (8 * nk) && (x.raceHit sKlook (.scr (rec + 256 * l) 256) true).isNone && x.sp.only.isNone
      | _ => false) = true ∧
    op0 (after (.gatherRequestArrival (.own o0)) (after (.klookSelectionEnd ⟨0, 0, 0⟩) sKlook)) (fun _ g p => g.mayGo p && match p.kind with
      | .gather q => q.key.isSome && !p.waitRetry && q.mode != .plain && decide (0 ≤ q.base ∧ 4 ∣ q.h.rb) &&
          gatherAdmits q.mode q.f32 q.h.fmt && q.slots.all fun z => !z.open_
      | _ => false) = true := by decide +kernel

/-- A SCATR before its source is read, after, and when its updates are done. -/
def sScat : State := after (.scatr h3 .add false false 21 20 (r 8) (.imm 1) gs) { sG with
  teams := sG.teams.map fun t => { t with scratch := (List.range 4).map fun i => (4096 + i, 1) } }

theorem witness_Scatters :
    op0 sScat (fun _ g p => g.mayGo p && match p.kind with | .scatter q => !q.read | _ => false) = true ∧
    (let s := after (.scatrSourceRead o0) sScat
     op0 s (fun _ _ p => match p.kind with
       | .scatter q => q.read && q.upds.any (fun d => !d.done && d.pkg == s.pkgNum) | _ => false) = true) ∧
    (let s := after (.scatterUpdateArrival (.own ⟨0, 0, 0⟩ 0)) (after (.scatrSourceRead o0) sScat)
     op0 s (fun _ _ p => match p.kind with
       | .scatter q => q.read && !q.upds.isEmpty && q.upds.all (·.done) | _ => false) = true) ∧
    (match base.transRow 0 .rmw 0x6000 4 with
      | .ok bs => decide ((bs.map (·.pa)).Nodup) && bs.all (fun b => !base.homeBad b.pa)
      | .error _ => false) = true := by decide +kernel

theorem witness_Combine :
    let z : GSlot := ⟨0, 0, 15, 0, 0, 0x603C, none, [], [], false, false, 0⟩
    let q : SOp := ⟨some .add, false, false, 0, handleOf (handleBytes 0x37 0x6000), 0, 1, 1, [z], none, none, false, [], false⟩
    q.key = none ∧ q.f32 = false ∧ q.h.fmt = .z32 ∧ ([(z, natLe 4 7)].map (·.1.pos)).Nodup ∧
    (q.combine [(z, natLe 4 7)]).length = 1 := by decide +kernel

/-- Two slots of one row, in another order; a source in F32; an update of KGRAD; a slot with a cause. -/
theorem witness_CombineForms :
    let z (p : Nat) (i : Word) : GSlot := ⟨0, p, i, 0x3F800000, 0, 0x603C, none, [], [], false, false, 0⟩
    let hd := handleOf (handleBytes 0x3 0x6100)
    let q (op : Option SMode) (key : Option (Nat × Nat)) : SOp := ⟨op, op.isNone, false, 1, hd, 0, 1, 1, [], none, key, false, [], false⟩
    let ts := [(z 3 15, natLe 4 7), (z 1 15, natLe 4 9), ({ z 2 14 with cause := some .range }, natLe 4 9)]
    (ts.map (·.1.pos)).Nodup ∧ ((q (some .max) none).combine ts).length = 1 ∧ ((q (some .add) (some (8192, 2))).combine ts).length = 1 ∧
    ((q none none).combine ts).length = 1 ∧
    (ts.filter fun t => t.1.cause.isNone && t.1.idx == 15).Perm [(z 1 15, natLe 4 9), (z 3 15, natLe 4 7)] ∧
    ([(z 1 15, natLe 4 9), (z 3 15, natLe 4 7)] : List (GSlot × List Byte)).Pairwise (fun a b => a.1.pos < b.1.pos) ∧
    (match base.transRow 0 .write 0x6000 8 with
      | .ok bs => decide ((bs.map (·.pa)).Nodup) && bs.all (fun b => !base.homeBad b.pa)
      | .error _ => false) = true ∧ cachesOk base = true := by decide +kernel

theorem witness_Hdesc :
    op0 (after (.hdesc h2 5 (r 63) (r 20) (r 1)) sG) (fun _ g p => g.live && p.skip.isEmpty && match p.kind with
      | .hdesc sd _ => decide (sd < 64) | _ => false) = true := by decide +kernel

/-! ## Witnesses: expansion and work queues -/

/-- Lane 0 owns the iterations 100 and 101, lane 31 the iterations 200 to 202. -/
def sXs : State := withG fun g => { g with
  vregs := [(64, 100), (64 + 31, 200), (96, 2), (96 + 31, 3)], occ := 0x80000001 }

/-- XPND of v2 and v3. -/
def iXpnd : Instr := .xpnd h2 .one (r 2) (r 3)
/-- XNEXT into v10, k5 and s6. -/
def iXnext : Instr := .xnext h2 true (r 10) 5 6
/-- SEGRED of v20 onto v21. -/
def iSegred : Instr := .segred h2 .add (r 21) (r 20)

/-- After XPND and some rounds; after the third all five iterations have been dealt. -/
def sX : Nat → State
  | 0 => after iXpnd sXs
  | n + 1 => after iXnext (sX n)

/-- A group's expansion. -/
def xpOf (s : State) : Expand := (iss s).g.xp.getD ⟨.one, [], [], [], 0, 0, 0, [], [], []⟩

theorem witness_Expansion_deal :
    let e := xpOf (sX 2)
    e.pre = prefixes 0 e.lens ∧ e.total = (e.lens.map (·.toNat)).sum ∧
    ((deal e [(iss (sX 2)).g])[0]?).isSome ∧ e.cur + 0 < e.total ∧
    ((deal e [(iss (sX 2)).g])[1]?).isSome ∧ e.total ≤ e.cur + 1 := by decide +kernel

/-- A team of four such groups, the last one dead. -/
def sSpan : State :=
  let g (i : Nat) : Group := { (iss sXs).g with grp := i }
  withT fun t => { t with groups := [g 0, g 1, g 2, { g 3 with live := false }] }

theorem witness_Expansion_issue :
    (∃ h, IssuesU iXpnd h (iss sXs) sXs) ∧ (∀ i ∈ [iXnext, iSegred], ∃ h, IssuesU i h (iss (sX 0)) (sX 0)) ∧
    (iss sSpan).inPlace sSpan ∧ (iss sSpan).lone ∧ (iss sSpan).tm.groups.length % 4 = 0 ∧
    (∃ m ∈ (iss sSpan).tm.span 0 4, m.live = false) ∧ (∀ m ∈ (iss sSpan).tm.span 0 2, m.live = true) ∧
    (∃ h, IssuesU (.xpnd h2 .four (r 2) (r 3)) h (iss sSpan) sSpan) := by
  refine ⟨issues_of_runs ?_, issues_of_all ?_, ?_, ?_, ?_, ?_, ?_, issues_of_runs ?_⟩
  all_goals first | decide +kernel | (simp only [Iss.inPlace, Iss.lone]; decide +kernel)

/-- A span of one: before XPND, with iterations left, with none left, and with terms to fold. -/
theorem witness_Expansion_alone :
    (∀ s ∈ [sXs, sX 0, sX 3], (iss s).inPlace s ∧ (iss s).lone ∧ (iss s).tm.span (iss s).r.grp 1 = [(iss s).g] ∧
      (iss s).g.live = true) ∧
    (iss sXs).g.xp = none ∧
    (let x := iss sXs
     ((List.range 32).map fun l => (if x.g.occ.getLsbD l then x.g.vr x.sp.id (x.eff h2 (r 3)) l else (0 : Word)).toNat).sum < 2 ^ 32) ∧
    (iss (sX 0)).g.xp = some (xpOf (sX 0)) ∧ (xpOf (sX 0)).span.size = 1 ∧ (xpOf (sX 0)).cur < (xpOf (sX 0)).total ∧
    (∃ h, IssuesU iXnext h (iss (sX 3)) (sX 3)) ∧ (iss (sX 3)).g.xp = some (xpOf (sX 3)) ∧
    (xpOf (sX 3)).total ≤ (xpOf (sX 3)).cur ∧ (∀ b ∈ (xpOf (sX 3)).killed, b = false) ∧
    (∃ h, IssuesU iSegred h (iss (sX 2)) (sX 2)) ∧
    (let e := xpOf (sX 2)
     let mine (o : Nat) := (lanesOf (iss (sX 2)).g.occ).filterMap fun l => match e.iter.getD l none with
            | some (p, _, t) => if p = o then some t else none
            | none => none
     mine 31 = [2, 3] ∧ mine 0 = [] ∧ e.killed.getD 31 false = false) := by
  simp only [Iss.inPlace, Iss.lone]
  refine ⟨?_, ?_, ?_, ?_, ?_, ?_, issues_of_runs ?_, ?_, ?_, ?_, issues_of_runs ?_, ?_⟩ <;> decide +kernel

/-- The owner at lane 31 has been killed after two rounds: two of its iterations are dealt and one is to come. -/
theorem witness_Expansion_killed :
    let s := (sX 2).modG ⟨0, 0, 0⟩ fun g => { g with xp := g.xp.map fun e => { e with killed := e.killed.set 31 true } }
    (∃ h, IssuesU iXnext h (iss s) s) ∧ (∃ h, IssuesU iSegred h (iss s) s) ∧ (iss s).inPlace s ∧ (iss s).lone ∧
      (iss s).tm.span (iss s).r.grp 1 = [(iss s).g] ∧ (xpOf s).cur < (xpOf s).total ∧
      (xpOf s).ownerAt (xpOf s).cur = some (31, 2) ∧ (xpOf s).killed.getD 31 false = true := by
  refine ⟨issues_of_runs ?_, issues_of_runs ?_, ?_⟩
  all_goals first | decide +kernel | (simp only [Iss.inPlace, Iss.lone]; decide +kernel)

/-- EXIT and HALT in an expansion. -/
theorem witness_ExitHalt_expansion :
    (∀ i ∈ [Instr.exit h1, .halt h1], ∃ h, IssuesU i h (iss (sX 1)) (sX 1)) ∧ (iss (sX 1)).inPlace (sX 1) ∧
    (sX 1).launch? (iss (sX 1)).tm.launch = some la0 ∧ (iss (sX 1)).g.xp ≠ none ∧
    ∃ n ∈ lanesOf ((iss (sX 1)).active h1), ((iss (sX 1)).g.ownerOf n).isSome := by
  refine ⟨issues_of_all ?_, ?_, ?_⟩
  all_goals first | decide +kernel | (simp only [Iss.inPlace]; decide +kernel)

theorem witness_Expansion_status :
    (∀ i ∈ [Instr.xstat h2 3 (r 9), .xabort h1], ∃ h, IssuesU i h (iss (sX 1)) (sX 1)) ∧
    (∃ h, IssuesU (.xabort h1) h (iss sXs) sXs) ∧ (iss sXs).g.xp = none ∧
    (iss (sX 1)).g.xp = some (xpOf (sX 1)) ∧ (iss (sX 1)).tm.spanArr = [] ∧ (∀ b ∈ (xpOf (sX 1)).killed, b = false) := by
  refine ⟨issues_of_all ?_, issues_of_runs ?_, ?_⟩ <;> decide +kernel

/-- Groups 0 and 1 have arrived at an XPND of two. -/
def sSpan2 : State :=
  [0, 1].foldl (fun s i => after (.xpnd h2 .two (r 2) (r 3)) { s with sel := some ⟨0, i, 0⟩ }) sSpan

/-- The arrival that the rendezvous of a group's span looks at. -/
def arrOf (s : State) (g : Nat) : Option (Nat × Nat × SpanArr) := (s.team? 0).bind fun t => t.spanArr.find? (·.2.2.grp = g)

/-- All members there; one of two; the second with another instruction; one beside a retired member. -/
theorem witness_Expansion_rendezvous :
    (let f (s : State) : Option (Bool × Bool × Bool) := (arrOf s 0).bind fun a => (s.team? 0).map fun t =>
       ((t.span 0 a.1).any (!·.live), (t.spanArrs 0 a.1).length == (t.span 0 a.1).length, (t.spanArrs 0 a.1).all (·.kind == a.2.2.kind))
     f sSpan2 = some (false, true, true) ∧
     f (after (.xpnd h2 .two (r 2) (r 3)) sSpan) = some (false, false, true) ∧
     f (sSpan2.modTeam 0 fun t => { t with spanArr := t.spanArr.map fun a =>
       if a.2.2.grp = 1 then (a.1, a.2.1, { a.2.2 with kind := .xnext true }) else a }) = some (false, true, false) ∧
     f (sSpan2.modGroup 0 1 fun g => { g with live := false }) = some (true, true, true)) := by decide +kernel

/-- Queue 3 feeds the launch, with a ring of four slots at 0x6400, and bin set 1 has two classes; v2 holds row offsets, v3
lengths. -/
def sQ : State :=
  let s := withG fun g => { g with vregs := [(64, 16), (64 + 31, 16368), (96, 8), (96 + 31, 9)], sregs := [(7, 3)] }
  { (s.modLaunch 0 fun l => { l with desc := { l.desc with fed := true, qnum := 3, ring := 0x6400, nslot := 4 } }) with
    queues := [(3, { LQueue.empty with fedBy := some 0 })]
    ctxs := s.ctxs.map fun c => { c with bins := Map.put c.bins 1 (some ⟨[3, 3], [8, 16]⟩) } }

/-- Two rows for queue 3 in flight. -/
def sEnq : State := after (.enq h3 true (r 9) (r 2) (.imm 3)) sQ

theorem witness_Queues_issue :
    (iss sQ).mayEngine sQ [1] ∧
    (∀ l ∈ lanesOf ((iss sQ).active h2), 16 ∣ ((iss sQ).g.vr 0 2 l).toNat ∧ ((iss sQ).g.vr 0 2 l).toNat + 16 ≤ (iss sQ).tm.scrSize sQ) ∧
    (∀ i ∈ [Instr.enq h3 true (r 9) (r 2) (.imm 3), .enq h2 false (r 9) (r 2) (.reg (r 7)), .enqb h3 (r 9) (r 2) (r 3) (.imm 1)],
      ∃ h, IssuesU i h (iss sQ) sQ) ∧
    (sQ.fedQueue? 0 3).isSome ∧ sQ.binSet? 0 1 = some ⟨[3, 3], [8, 16]⟩ ∧
    (BinSet.mk [3, 3] [8, 16]).classOf 8 = 0 ∧ (BinSet.mk [3, 3] [8, 16]).classOf 17 = 1 ∧
    (∀ i ∈ [Instr.qstat h2 2 (r 9) (r 7)], ∃ h, IssuesU i h (iss sQ) sQ) ∧ (iss sQ).g.full [0] false = false := by
  refine ⟨?_, ?_, issues_of_all ?_, ?_, ?_, ?_, ?_, issues_of_all ?_, ?_⟩
  all_goals first | decide +kernel | (simp only [Iss.mayEngine, Iss.inPlace, Iss.lone]; decide +kernel)

/-- The append to an open and to a closed queue; QUEUE_CLOSE; the reading of the queue. -/
theorem witness_Queues_append :
    op0 sEnq (fun tm g p => !p.waitRetry && g.mayGo p && p.bn.isNone && g.live && match p.kind with
      | .enq c false 3 9 rows [] [] => c && p.skip.isEmpty && rows.all (fun r => r.q == 3 && decide (r.lane < 32)) && decide (rows.map (·.lane)).Nodup &&
          (sEnq.fedQueue? (tm.ctx sEnq) 3).any (fun l => decide (rows.length ≤ (sEnq.queue 3).room l.desc.nslot)) &&
          rows.length == 2 && rows.all (fun r => !tm.scrDamaged r.off 16)
      | _ => false) = true ∧
    (sEnq.queue 3).closed = false ∧ sEnq.appending o0 3 = false ∧
    ((after (.queueClose 3) sEnq).queue 3).closed = true ∧ (sEnq.queue 3).fedBy ≠ none ∧ (sEnq.queue 4).fedBy = none ∧
    op0 (after (.qstat h2 3 (r 9) (r 7)) sQ) (fun _ g p => g.live && p.skip.isEmpty && match p.kind with
      | .qstat sd f q => sd == 9 && f == 3 && ((sQ.queue q).fedBy.bind sQ.launch?).isSome
      | _ => false) = true := by decide +kernel

/-! ## Witnesses: remote operations -/

/-- s8 names this package, s9 package 5; v2 and v3 hold remote addresses, v4 and v5 scratch offsets and operands. -/
def sR : State :=
  { (withG fun g => { g with
      vregs := [(64, 0x6200), (64 + 31, 0x6240), (128, 0), (128 + 31, 64)], sregs := [(8, 0), (9, 5), (10, 0x6200)] }).modTeam 0 fun t => t.setBar 2 ⟨0, 32, false, 0, 1⟩ with
    peers := [(5, { tiers := [(1, [0])], tier := 1, paths := [0], removed := [], events := 0, down := false })] }

/-- RWR, RRD, RRED and RFLAG to a peer, 16 bytes a lane. -/
def iRwr (p : Reg) : Instr := .rwr h3 2 (.scl p) (r 2) (r 4) (some 2)
/-- As `iRwr`. -/
def iRrd (p : Reg) : Instr := .rrd h3 2 (.scl p) (r 2) (r 4) none
/-- As `iRwr`. -/
def iRred (p : Reg) : Instr := .rred h3 .add .z32 2 1 (.scl p) (r 2) (r 4) none
/-- As `iRwr`. -/
def iRflag (p : Reg) : Instr := .rflag h3 .add true (.scl p) (r 2) (r 4) none

/-- A transfer of lane 3. -/
def xf (peer : Nat) (va : DWord) (off : Nat) : RXfer := ⟨3, peer, va, off, [], none, false, none, [], 0, false, false⟩

/-- Each check of R354 at its boundary. -/
theorem witness_RemoteChecks :
    4096 ≤ (xf 4096 0 0).peer ∧ (xf 4095 0 0).peer < 4096 ∧ noncanon (xf 0 (BitVec.ofNat 64 (2 ^ 56)) 0).va.toNat = true ∧
    noncanon (2 ^ 56 - 8) = false ∧ noncanon (2 ^ 56 - 8 + 16 - 1) = true ∧
    (xf 0 8 0).va.toNat % min 32 16 ≠ 0 ∧ (xf 0 0 8).off % min 32 16 ≠ 0 ∧ 16384 < (xf 0 0 16368).off + 32 ∧
    (xf 0 0 16352).off + 32 ≤ 16384 := by decide +kernel

theorem witness_RemoteIssue :
    (iss sR).mayEngine sR [4] ∧ (∀ i ∈ [iRwr (r 9), iRrd (r 9), iRred (r 9), iRflag (r 9)], ∃ h, IssuesU i h (iss sR) sR) ∧
    (∀ l ∈ lanesOf ((iss sR).active h3), ∀ scr : Bool, checkRemote ((iss sR).tm.scrSize sR)
      ⟨l, 5, (iss sR).g.vr64 0 2 l, if scr then ((iss sR).g.vr 0 4 l).toNat else 0, [], none, false, none, [], 0, false, false⟩
      (if scr then 16 else 8) scr = none) := by
  refine ⟨?_, issues_of_all ?_, ?_⟩
  all_goals first | decide +kernel | (simp only [Iss.mayEngine, Iss.inPlace, Iss.lone]; decide +kernel)

/-- An RWR of one lane to a peer that is reachable or not. -/
def sRwr (down : Bool) : State :=
  let s := after (iRwr (r 9)) sR
  { (s.modGroup 0 0 fun g => { g with ops := g.ops.map fun p => { p with kind := p.kind.withXfers (p.kind.xfers.take 1) } }) with
    peers := [(5, { tiers := [(1, [0])], tier := 1, paths := [0], removed := [], events := 0, down := down })] }

/-- After the capture of the payloads. -/
def captured (i : Instr) : State := after (.retransmitCapture o0) (after i sR)

theorem witness_RemoteCapture :
    (∀ d, op0 (sRwr d) (fun tm g p => p.kind.isRemote && !p.done && g.mayGo p && (sRwr d).maySend tm g p.id &&
      g.ops.all (fun q => q.id != p.id || q == p) && g.live && (match p.kind with
        | .rwr 16 [y] => y.pkt.isNone && !y.done && y.data.isEmpty && !tm.scrDamaged y.off 16 && (sRwr d).reachable y.peer == !d
        | _ => false) &&
      p.kind.xfers.all (fun y => !g.sendsFirst p y) && decide ((p.kind.xfers.map (·.lane)).Nodup ∧ (∀ t ∈ p.kind.xfers, t.data.length ≤ p.kind.xferSize ∧ t.lane < 32) ∧
        (sRwr d).storeHeld + p.kind.xferSize * p.kind.xfers.length ≤ 2 ^ 26)) = true) ∧
    op0 (captured (iRwr (r 9))) (fun tm g p => !p.waitRetry && !p.done && g.mayGo p && p.kind.xfers.all (·.pkt.isSome) &&
      p.bn == some 2 && ((tm.bar 2).arrive 1 (16 * p.kind.xfers.length)).isSome && g.ctrs[4]? == some [(p.id, false)]) = true := by
  refine ⟨fun d => ?_, ?_⟩
  · cases d <;> decide +kernel
  · decide +kernel

/-- RRD of this package's bytes: requested, and answered by both arrivals; and one lane asked of package 5. -/
theorem witness_RemoteReads :
    (let s := after (.remoteReadArrival (.own 1)) (after (.remoteReadArrival (.own 0)) (captured (iRrd (r 8))))
     op0 s (fun _ g p => !p.waitRetry && !p.done && g.live && g.mayGo p && (match p.kind with | .rrd 16 ts => !ts.isEmpty | _ => false) &&
       p.kind.xfers.all fun y => y.done && decide (y.lane < 32) && y.cause.isNone && y.data.length == 16) = true) ∧
    (let s := (captured (iRrd (r 9))).modGroup 0 0 fun g =>
       { g with ops := g.ops.map fun p => { p with kind := p.kind.withXfers (p.kind.xfers.take 1) } }
     op0 s (fun _ g p => !p.waitRetry && g.mayGo p && p.kind.xfers.all fun a =>
       !a.done && a.pkt.isSome && a.peer != s.pkgNum && a.cause.isNone) = true) := by decide +kernel

/-- Packets to package 5: a write, a contribution before and after its first acknowledgement. -/
theorem witness_RemoteAnswers :
    (∀ i ∈ [iRwr (r 9), iRred (r 9), iRflag (r 9)], ((captured i).store.find? (·.id = 0)).any (fun p =>
      p.peer != (captured i).pkgNum && (match p.msg with | .read .. => false | _ => true) && !p.arrived && decide (p.xfer < 32) &&
      ((captured i).op? p.op).any fun q => q.2.1.live) = true) ∧
    ((after (.ackReceive 0 (.done [])) (captured (iRred (r 9)))).store.find? (·.id = 0)).any (fun p =>
      p.arrived && match p.msg with | .red .. => true | _ => false) = true := by decide +kernel

/-- RFENCE with nothing before it, and with an earlier remote write. -/
theorem witness_RemoteFence :
    (∃ h, IssuesU (.rfence h1) h (iss sR) sR) ∧
    (let s := sR.modSplit ⟨0, 0, 0⟩ fun y => { y with hold := .rfence 0 [] 2 }
     (s.at? ⟨0, 0, 0⟩).any (fun x => x.g.efaults.isEmpty && x.released s && x.sp.hold == .rfence 0 [] 2 && x.g.ops.isEmpty) = true) ∧
    (let s := after (.rfence h1) (captured (iRwr (r 9)))
     (s.at? ⟨0, 0, 0⟩).any (fun x => x.g.efaults.isEmpty && (match x.sp.hold with | .rfence 1 _ _ => true | _ => false) &&
       x.g.ops.any fun q => q.kind.isRemote && decide (q.id < 1)) = true) := by
  refine ⟨issues_of_runs ?_, ?_, ?_⟩ <;> decide +kernel

/-- CSIG of this package and of package 5. -/
def iCsig (f : BitVec 6) (p : Reg) : Instr := .csig h2 f (r 12) p (if f = 0 then r 10 else .zero)

theorem witness_RemoteSignatures :
    (∀ f ∈ [0, 1, 2], ∃ h, IssuesU (iCsig f (r 9)) h (iss sR) sR) ∧ (iss sR).mayEngine sR [4] ∧
    ((iss sR).sR h3 (r 9)).toNat < 4096 ∧ sR.reachable 5 = true ∧ (sR.peers.find? (·.1 = 5)).isSome ∧
    op0 (after (iCsig 0 (r 8)) sR) (fun _ g p => g.live && match p.kind with | .csig 0 q _ 12 none => q == sR.pkgNum | _ => false) = true ∧
    op0 (after (.csigRequestArrival (.own o0)) (after (iCsig 0 (r 8)) sR)) (fun _ g p => g.live &&
      match p.kind with | .csig 0 q _ 12 (some 0) => q == sR.pkgNum | _ => false) = true ∧
    (∀ f ∈ [(0 : BitVec 6), 1, 2], op0 (after (iCsig f (r 9)) sR) (fun _ g p => g.live && match p.kind with
      | .csig k 5 _ 12 none => k == f.toNat | _ => false) = true) := by
  refine ⟨fun f hf => issues_of_runs ?_, ?_, ?_⟩
  · revert f hf; decide +kernel
  · simp only [Iss.mayEngine, Iss.inPlace, Iss.lone]; decide +kernel
  · decide +kernel

/-- The bytes of a remote address of this package. -/
def bytesAt (s : State) (nd : Need) (va : DWord) (n : Nat) : List PByte := ((s.transRemote 0 nd va n).toOption).getD []

theorem witness_RemoteArrivals :
    sR.cacheOk ∧ (∀ p ∈ [(Need.write, 16), (.read, 16), (.rmw, 16), (.rmw, 8)],
      (sR.transRemote 0 p.1 0x6200 p.2).toOption = some (bytesAt sR p.1 0x6200 p.2) ∧
      ((bytesAt sR p.1 0x6200 p.2).map (·.pa)).Nodup ∧ ∀ b ∈ bytesAt sR p.1 0x6200 p.2, sR.homeBad b.pa = false) ∧
    (sR.transRemote 0 .write 0x6000000 16).toOption = none ∧ (sR.transRemote 0 .read 0x6000000 16).toOption = none ∧
    (∀ i ∈ [iRwr (r 8), iRrd (r 8), iRflag (r 8)], ((captured i).ownPacket? 0).any (fun p => !(captured i).packetWaits p) = true) ∧
    ((captured (iRflag (r 8))).ownPacket? 1).any (fun p => (captured (iRflag (r 8))).packetWaits p) = true := by
  refine ⟨?_, ?_⟩
  · exact cacheOk_of (by decide +kernel)
  · decide +kernel

/-- A byte that a higher lane of the instruction has written, and the last of its lanes to come. -/
theorem witness_RemoteWins :
    let s := { sR with wins := [⟨5, o0, 2, [31], [(0x20A200, 31)]⟩] }
    (s.wins.find? fun w => w.src == 5 && w.instr == o0).any (fun w =>
      (w.bytes.any fun e => e.1 == 0x20A200 && decide (3 < e.2)) && w.lanes.length + 1 == max w.count 2) = true ∧ s.pkg = .up := by
  decide +kernel

/-- An endpoint whose rounds are open, any number of them. -/
theorem witness_RemoteRoundsFull (n : Nat) :
    let r : Round := ⟨0, 0x6200, 16, .add, .z32, 2, []⟩
    let s := { sR with rounds := List.replicate n ⟨0, 0x6200, 32, .add, .z32, 2, []⟩ }
    (∀ q ∈ s.rounds, r.same q = false) ∧ n ≤ (s.rounds.filter fun q => q.endpoint == r.endpoint).length := by
  refine ⟨fun a ha => ?_, ?_⟩
  · rw [List.eq_of_mem_replicate ha]; decide +kernel
  · simp only [List.filter_replicate, Round.endpoint]
    simp

/-- A round of two contributions of 16 bytes, one of which has come. -/
def sRound : State := after (.reductionContribution (.peer 5 (.red 0 0x6200 .add .z32 2 0 (List.replicate 16 1)))) sR

theorem witness_RemoteRounds :
    sR.rounds = [] ∧ sRound.rounds.length = 1 ∧
    (sRound.rounds.find? (Round.mk 0 0x6200 16 .add .z32 2 []).same).any (fun q => q.ncon == 2 && q.got.length == 1) = true ∧
    (∀ r ∈ sRound.rounds, r.op = .add ∧ r.ty = .z32 ∧ r.size = 4 * 4 ∧ ∀ c ∈ r.got, c.data.length = r.size) := by decide +kernel

/-! ## Witnesses: system registers, scheduling, graphs -/

/-- After an addition, whose result lands at `t` past its latency. -/
def sLand (now : Nat) : State := { after (.add h2 .z32 (r 1) (r 2) (.vec (r 3))) base with now := now }

theorem witness_System :
    (∀ i ∈ [Instr.csrr h2 0x01 (r 9), .csrr h2 0x0F (r 9), .cyc h1 65, .csrw h2 0 (r 9), .csrw h2 1 (r 9), .trap h1 5, .brk h1 63],
      ∃ h, IssuesU i h (iss base) base) ∧ (iss base).inPlace base ∧ (iss base).lone ∧ (iss base).launch base = some la0 ∧
    (iss (sX 1)).g.xp = some (xpOf (sX 1)) ∧ (xpOf (sX 1)).cur < 2 ^ 32 ∧ (xpOf (sX 1)).total < 2 ^ 32 ∧
    base.issuer = some (iss base) := by
  refine ⟨issues_of_all ?_, ?_⟩
  · decide +kernel
  · simp only [Iss.inPlace, Iss.lone]; decide +kernel

/-- Just before and just after the end of the latency. -/
theorem witness_Landing :
    let g := (iss (sLand 0)).g
    (g.pend[0]?).any (fun e => e.loc != .k 0 && e.mask &&& ~~~e.loc.width == 0 && !e.landed && e.landsAt != 0 &&
      g.pend.zipIdx.all (fun q => q.2 == 0 || q.1.loc != e.loc) && decide ((sLand 0).now < e.landsAt) &&
      decide (e.landsAt ≤ (sLand e.landsAt).now)) = true := by decide +kernel

/-- The launch of the base state, with changes. -/
def laOf (s : State) : Launch := (s.launch? 0).getD la0

/-- The launch is being ended. -/
def sKilling : State := withL fun l => { l with killing := true }
/-- Its only block has been drawn by team 0, and some of its items counted. -/
def sBlock (n : Nat) : State := withL fun l => { l with blks := [⟨0, 0, 0, n, 0⟩] }
/-- Core 1 may take a team when island 0 started at time 0. -/
def sStag (now : Nat) : State :=
  { withL fun l => { l with desc := { l.desc with stagger := 100 }, lastStart := [(0, 0)] } with now := now }

theorem witness_TeamStart :
    base.ready la0 = true ∧ sKilling.ready (laOf sKilling) = false ∧ base.pkg = .up ∧ la0.staggered [1] = false ∧
    [1] ∈ base.places la0 [] 0 ∧ base.firstHere (base.startKey la0 false) [1] = true ∧ (∀ t ∈ base.teams, t.id < base.nextTeamId) ∧
    base.nextBlock la0 = some 0 ∧ (sBlock 0).nextBlock (laOf (sBlock 0)) = none ∧
    (let s := withT fun t => { t with wantBlk := true }
     (s.team? 0).any fun t => t.acting && t.wantBlk && t.nxt.isNone && t.cur.isNone) = true ∧
    la0.killing = false ∧ la0.suspended = false := by decide +kernel

/-- A current block that is exhausted with a next one held, and one that is not with none held. -/
theorem witness_BlockDraw_shift :
    let s (pos : Nat) (nxt : Option Held) := (withT fun t => { t with cur := some ⟨0, pos⟩, nxt := nxt, wantBlk := true }).modLaunch 0
      fun l => { l with desc := { l.desc with items := 96, lblk := 5 }, blks := [⟨0, 0, 0, 0, 0⟩, ⟨1, 0, 0, 0, 0⟩] }
    let f (s : State) : Option (Bool × Option Held × Option Held × Option Nat) := (s.team? 0).map fun t =>
      (s.exhausted (laOf s) (t.cur.getD ⟨0, 0⟩), (s.shift (laOf s) t).cur, (s.shift (laOf s) t).nxt, s.nextBlock (laOf s))
    f (s 32 (some ⟨1, 32⟩)) = some (true, some ⟨1, 32⟩, none, some 2) ∧
      f (s 31 none) = some (false, some ⟨0, 31⟩, none, some 2) := by decide +kernel

theorem witness_Blocks :
    (laOf (sBlock 31)).blks.find? (·.blk = 0) = some ⟨0, 0, 0, 31, 0⟩ ∧ 31 ≠ (sBlock 31).blockSize (laOf (sBlock 31)) 0 ∧
    (laOf (sBlock 32)).blks.find? (·.blk = 0) = some ⟨0, 0, 0, 32, 0⟩ ∧ 32 = (sBlock 32).blockSize (laOf (sBlock 32)) 0 ∧
    ((sBlock 32).team? 0).any (fun t => !t.opsBetween 0 0) = true ∧
    Map.find? (laOf (sStag 99)).lastStart 0 = some 0 ∧ (sStag 99).now < 0 + (laOf (sStag 99)).desc.stagger ∧
    0 + (laOf (sStag 100)).desc.stagger ≤ (sStag 100).now := by decide +kernel

/-- A launch of priority 7 whose cluster fills a die. -/
def la1 : Launch :=
  { Launch.create 1 0 1 0 { placedDesc with prio := 7 } { placedKernel with clw := 12, clh := 8 } [] 0 with
    partCores := [] }

/-- A team of launch 0 on one core of each die, and room for their records. -/
def sPrio : State :=
  let s := base.devWrite 0 0x7000 (natLe 4 8)
  { s with
    teams := [0, 1, 2, 3].map fun i => { tm0 with id := i, clus := i, num := i, core := 96 * i }
    launches := [{ la0 with desc := { la0.desc with save := 0x7000 } }, la1] }

theorem witness_PriorityPreemption :
    (sPrio.teams.map (·.id)).Nodup ∧ sPrio.launch? 1 = some la1 ∧ sPrio.ready la1 = true ∧ la1.held = [] ∧
    (∀ e < 4, sPrio.places la1 [] e = []) ∧ (∀ d < 4, (sPrio.dieSet la1 d).isSome) := by
  refine ⟨?_, ?_, ?_, ?_, ?_, ?_⟩ <;> decide +kernel

/-- A partition of one core, or of two, is requested. -/
def sPart (n : Nat) : State :=
  { base with launches := [la0, { Launch.create 1 0 1 0 { placedDesc with part := true, pcores := n } placedKernel [] 0 with
      partCores := [] }], partWait := [1] }

theorem witness_Partitions :
    (∀ n ∈ [1, 2], ∃ l, (sPart n).launch? 1 = some l ∧ ((sPart n).launches.filter fun x => x.id ≠ 1 ∧ ¬ x.partCores.isEmpty).length < 4 ∧
      tileOf l.kern.clw l.kern.clh 5 = some (0, 0, 5) ∧
      ((l.partCores.filterMap (tileOf l.kern.clw l.kern.clh)).dedup).length < l.desc.pcores / (l.kern.clw * l.kern.clh) ∧
      (∀ x ∈ (sPart n).launches, 5 ∉ x.partCores ∧ 5 ∉ x.held) ∧ (sPart n).vfOfCore 5 = (sPart n).vfOf l) ∧
    (sPart 1).groupsOn 5 [] = [] := by
  refine ⟨fun n hn => ⟨((sPart n).launch? 1).getD la0, ?_⟩, ?_⟩
  · revert n hn; decide +kernel
  · rw [← List.isEmpty_iff]; decide +kernel

/-- Every team has retired; the launch's block is complete, or the launch is being ended. -/
def sQuiet (killing : Bool) : State :=
  (withL fun l => { l with blkDone := [0], exited := 32, killing := killing }).modTeam 0 fun t =>
    { t with st := .retired, groups := t.groups.map fun g => { g with live := false, splits := [] } }

theorem witness_Completion_launch :
    base.quiet la0 = false ∧
    (∀ b : Bool, (sQuiet b).quiet (laOf (sQuiet b)) = true ∧ (laOf (sQuiet b)).st = .running ∧
      (laOf (sQuiet b)).suspended = false ∧ (laOf (sQuiet b)).killing = b) ∧ (sQuiet false).undrawn (laOf (sQuiet false)) = false := by
  decide +kernel

/-- The descriptors of a LAUNCH node in memory: launch at 0x6800, kernel at 0x6900, code at 0x6A00, save area at 0x7000. -/
def sDescs : State :=
  let kb := natLe 8 0x6A00 ++ natLe 4 0x40 ++ natLe 2 8 ++ [8, 0, 1, 1, 1, 0] ++ natLe 4 256 ++ natLe 104 0
  [(0x6800, natLe 8 0x6900 ++ natLe 8 32 ++ [5] ++ natLe 95 0 ++ natLe 8 0x7000 ++ natLe 8 0x6C00), (0x6900, kb),
    (0x6A40, (Instr.refill h1 1).encodeBytes), (0x7000, natLe 4 8 ++ natLe 4 (crSize (kernelOf kb)))].foldl
    (fun s w => s.devWrite 0 w.1 w.2) base

/-- A node. -/
def nd (ty npred pending : Nat) (mark : Bool) (succ : Option Nat) (arg : DWord) : GNode :=
  { ty := ty, npred := npred, tile := false, succ := [succ, none, none, none], arg := arg, pending := pending, mark := mark, state := 0 }

/-- The descriptors' graph in queue 1, with an arrival. -/
def sGraph (n : GNode) (skip : Bool) : State :=
  { sDescs with queues := [(1, { LQueue.empty with nodes := [n, nd 3 1 1 false none 0], arrivals := [⟨0, skip, false, n.npred == 0⟩], busy := true })] }

/-- Whether the launch of node 0 is refused. -/
def refused (s : State) : Bool :=
  let q := s.queue 1
  (s.refusal q.ctx 0 q.nodes (s.readDescs q.ctx ((q.nodes.getD 0 (nd 0 0 0 false none 0)).arg.toNat))).isSome

theorem witness_Graphs :
    graphOk [nd 0 0 0 false (some 1) 0x6800, nd 3 1 1 false none 0] = true ∧ base.pkg = .up ∧ (base.queue 1).busy = false ∧
    (sGraph (nd 0 2 2 false (some 1) 0x6800) false).pkg = .up ∧ base.vfOfQueue 1 = ((base.ctx? 0).map (·.vf)).getD 0 ∧
    base.vfOfQueue 64 = 0 ∧ ((sGraph (nd 0 2 2 false (some 1) 0x6800) false).queue 1).busy = true ∧
    graphOk ((List.range 1).map fun i => gnodeOf (base.devRead 0 (0x6800 + 32 * i) 32)) = false ∧
    graphOk ((List.range 1).map fun i => gnodeOf ((base.devWrite 0 0x6804 (natLe 8 (2 ^ 64 - 1))).devRead 0 (0x6800 + 32 * i) 32)) = true := by
  decide +kernel

/-- A second predecessor outstanding, and none; a node without predecessors; only skips have come; a JOIN; a refused and an accepted launch. -/
theorem witness_GraphNodes :
    (∀ p ∈ [(nd 0 2 2 false (some 1) 0x6800, false), (nd 0 1 1 false (some 1) 0x6800, true), (nd 3 1 1 false (some 1) 0, false),
        (nd 0 1 1 false (some 1) 0x6840, false), (nd 0 1 1 false (some 1) 0x6800, false), (nd 3 0 0 false (some 1) 0, false),
        (nd 0 1 0 false (some 1) 0x6800, false)],
      ((sGraph p.1 p.2).queue 1).arrivals = [⟨0, p.2, false, p.1.npred == 0⟩] ∧ ((sGraph p.1 p.2).queue 1).nodes[0]? = some p.1) ∧
    refused (sGraph (nd 0 1 1 true (some 1) 0x6840) false) = true ∧ refused (sGraph (nd 0 1 1 true (some 1) 0x6800) false) = false := by
  refine ⟨?_, ?_, ?_⟩ <;> decide +kernel

/-! ## Witnesses: answers, pre-emption, links, management, faults -/

/-- The base state under a policy. -/
def sPol (p : List Action) : State := withL fun l => { l with desc := { l.desc with policy := p } }

/-- A load of an unmapped page under RETRY at item level. -/
def sHeld : State := after (.ld h3 4 false (r 2) ⟨r 4, r 0, .s, 0, .grp, false, 0, .rlx⟩) (withG fun g => g.setFile (.s 4) ones 0x600000)

/-- A report, its split and its launch. -/
def repOf (s : State) (trap : Bool) (P : Launch → Report → Group → Split → Bool) : Bool :=
  match s.launch? 0 with
  | none => false
  | some l => (s.report? 0 1 trap).any fun p => (s.splitAt? p.ref).any fun q => q.1.launch == 0 && P l p q.2.1 q.2.2

theorem witness_Answers :
    base.report? 0 1 false = none ∧ base.report? 0 1 true = none ∧
    (∀ s ∈ [sHeld], repOf s false (fun l p _ x => p.eng.isNone && x.hold == .fault 1 && x.only != some 0 && !l.suspended &&
      l.reports.all fun q => q.ref != p.ref || q.trapStop || q.seq == 1) = true) ∧
    repOf sHeld false (fun _ p g _ => p.level == 0 && g.xp.isNone) = true ∧ (sHeld.teams.map (·.id)).Nodup ∧
    repOf (after (.trap h1 5) base) true (fun _ _ _ x => x.hold == .stop 1) = true := by
  refine ⟨?_, ?_, ?_, ?_, ?_, ?_⟩ <;> decide +kernel

/-- The team of the base state as pre-emption leaves it, with room for a record. -/
def sPre (st : TeamSt) (why : PreWhy) (ok : Bool) : State :=
  { ((withT fun t => { t with st := st, why := some why, recordOk := ok }).devWrite 0 0x7000 (natLe 4 8)).modLaunch 0 fun l =>
      { l with desc := { l.desc with save := 0x7000 } } with now := 1024 }

theorem witness_Preemption :
    (base.teams.map (·.id)).Nodup ∧ tm0 ∈ base.targets (.launch 0) ∧ tm0 ∈ base.targets (.team 0) ∧ tm0.st = .running ∧
    (∀ p ∈ [(TeamSt.notice 0, PreWhy.system, true), (.notice 1000, .grid, true), (.held, .priority, true), (.parked, .priority, true),
        (.parked, .priority, false)],
      let s := sPre p.1 p.2.1 p.2.2
      (s.team? 0).any (fun t => s.mates t == [t] && t.st == p.1 && t.why == some p.2.1 && t.pos == 0 && t.recordOk == p.2.2 &&
        (s.launch? 0).any fun l => l.st == .running && !l.suspended && !l.killing && !l.staggered [t.core] &&
          (t.st != .held || (s.drained t && decide (1 ≤ (s.parkTeam 0).freeSlots l))) &&
          (t.st != .parked || (s.mayUse l t.core && s.firstHere (s.startKey l true) [t.core] && decide (1 ≤ s.freeSlots l)))) = true) ∧
    (let s := withT fun t => { t with st := .held, why := some .priority }
     (s.team? 0).any fun t => s.drained t && (s.launch? 0).any fun l => (s.parkTeam 0).freeSlots l == 0) = true ∧
    0 + 1024 ≤ (sPre (.notice 0) .system true).now := by
  refine ⟨?_, ?_, ?_, ?_, ?_, ?_, ?_⟩ <;> decide +kernel

/-- An invalidation of a page with and without a load of it in flight. -/
theorem witness_Invalidation :
    (∀ p ∈ [(base, false), (after (.ld h3 4 false (r 2) mV) sM, true)],
      ({ p.1 with invals := [⟨0, 0, 0x6000, 0x7000, []⟩] } : State).invals.find? (·.id = 0) = some ⟨0, 0, 0x6000, 0x7000, []⟩ ∧
      ({ p.1 with invals := [⟨0, 0, 0x6000, 0x7000, []⟩] } : State).inFlight ⟨0, 0, 0x6000, 0x7000, []⟩ = p.2) ∧
    (∀ l ∈ State.reset.launches, l.st ≠ .running) ∧ la0 ∈ base.launches ∧ la0.st = .running := by
  refine ⟨?_, ?_, ?_, ?_⟩ <;> decide +kernel

/-- A link with two packets on channel 3, the first of which has waited since time 0, and its idle slot in use or not. -/
def lk (busy : Bool) : Link :=
  { Link.start (.die 0, .marver) 5 with chans := [(3, [7, 8])], since := [(3, 0)], fresh := busy, rkeys := [some 5, if busy then some 6 else none] }

/-- The package with this link. -/
def sLink (busy : Bool) (now : Nat) : State := { base with links := [lk busy], now := now }

theorem witness_Links :
    (∀ b : Bool, (sLink b 65536).links[0]? = some (lk b) ∧ (lk b).keys.length = 2 ∧ (lk b).rkeys.length = 2 ∧ (lk b).idleBusy = b) ∧
    (sLink true 0).pkg = .up ∧ (lk false).stalled = false ∧ (lk false).sent < 2 ^ 47 ∧ (lk false).replay.length < 256 ∧
    ((lk false).keys.getD (slotIx (lk false).slot) none).isSome ∧ (lk false).fresh = false ∧
    (lk false).chans = (3, 7 :: [8]) :: [] ∧ Map.wf [] (lk false).chans = true ∧ Map.find? (lk false).since 3 = some 0 ∧
    (sLink false 65535).now < 0 + 65536 ∧ 0 + 65536 ≤ (sLink false 65536).now ∧ State.reset.pkg ≠ .up ∧
    (lk false).rslot = (lk false).slot ∧ (∀ e ∈ (lk false).replay, e.2.1 = (lk false).slot) := by decide +kernel

/-- A channel whose head has waited, alone or behind a bulk packet; a sender that is stalled; one with packets spilled. -/
theorem witness_Spill (a b : Nat) :
    (Config.smallChannel a = false ∨ ({ lk false with chans := [(a, [7])], since := [(a, 0)] } : Link).bulkWaits = false) ∧
    (Config.smallChannel a = true → Config.smallChannel b = false → ({ lk false with chans := [(a, [7]), (b, [8])] } : Link).bulkWaits = true) ∧
    (lk false).maySend = true ∧ ({ lk false with stalled := true } : Link).maySend = false ∧ Map.get [] (lk false).spilled 3 = [] := by
  refine ⟨?_, fun _ hb => ?_, ?_⟩
  · cases e : Config.smallChannel a <;> simp [Link.bulkWaits, e]
  · simp [Link.bulkWaits, hb]
  · decide +kernel

/-- The expected flit, whose tag matches or does not. -/
theorem witness_Flits (key : BitVec 256) (c : BitVec 1792) : ∀ good : Bool, ∃ f : Flit, f.crcOk = true ∧ f.seq.toNat = (lk false).expect % 2 ^ 48 ∧
    (lk false).rkeys.getD (slotIx f.slot) none = some 5 ∧ f.cipher = c ∧
    (((Config.aesGcmOpen key (Config.linkNonce f.seq.toNat 0 f.slot) (flitHead f.seq f.slot f.vc) f.cipher).2 = f.tag) ↔ good = true) := by
  intro good
  refine ⟨{ seq := 0, slot := false, vc := 3, cipher := c, crcOk := true, tag :=
    (Config.aesGcmOpen key (Config.linkNonce 0 0 false) (flitHead 0 false 3) c).2 + if good then 0 else 1 }, rfl, rfl, rfl, rfl, ?_⟩
  cases good <;> simp

/-- Paths of tiers 1 and 2 to package 5, the first tier with one path or two. -/
def pt (n : Nat) : PeerTab := { tiers := [(1, List.range n), (2, [9])], tier := 1, paths := List.range n, removed := [4], events := 0, down := false }

/-- A packet to package 5 that was sent again 32 times. -/
def sLost : State :=
  let s := captured (iRwr (r 9))
  { s with store := (s.store.take 1).map fun p => { p with tries := 32, firstAt := 0 }, now := 2 ^ 27 }

theorem witness_Paths :
    [(1, [0]), (0, [3])] ≠ ([] : List (Nat × List Nat)) ∧ (([(1, [0]), (0, [3])] : List (Nat × List Nat)).map (·.1)).Nodup ∧
    (∀ e ∈ ([(1, [0]), (0, [3])] : List (Nat × List Nat)), e.1 < 8 ∧ 1 ≤ e.2.length ∧ e.2.length ≤ 256) ∧
    (∀ n ∈ [1, 2], ({ base with peers := [(5, pt n)] } : State).peers.find? (·.1 = 5) = some (5, pt n)) ∧
    (pt 2).paths.erase 0 ≠ [] ∧ 0 ∈ (pt 2).paths ∧ (pt 1).paths = [0] ∧ (pt 1).tiers = [(1, [0])] ++ (2, [9]) :: [] ∧
    (∀ y ∈ [(1, [0])], y.1 ≤ (pt 1).tier) ∧ (pt 1).tier < 2 ∧ 4 ∈ (pt 1).removed ∧ 9 ∉ (pt 1).removed ∧
    (∀ n ∈ [255, 256], ({ pt n with removed := [300] } : PeerTab).paths.length = n) ∧ 32 ≤ (sLost.store.headD ⟨0, 0, 0, .request, o0, 0, 0, 0, 0, 0, true, none⟩).tries ∧
    sLost.mayLose 5 = true ∧ base.mayLose 5 = false ∧ 5 ≠ sLost.pkgNum ∧
    sLost.store.any (fun k => k.peer == 5 && decide (k.xfer < 32) && sLost.store.length == 1 && (sLost.op? k.op).any fun q => q.2.1.live &&
      match q.2.2.kind with | .rrd _ _ => false | _ => true) = true := by decide +kernel

/-- Packets that time out: one unanswered, one answered, a request unanswered and one whose operation is gone. -/
theorem witness_Timeout :
    let one (s : State) : Option (Bool × Bool × Bool) := (s.store.find? fun q => q.id == 0 && q.peer != s.pkgNum).map fun p =>
      (s.unanswered p, p.msg == .request, p.path.isSome)
    one sLost = some (true, false, true) ∧
    one (after (.ackReceive 0 (.done [])) (captured (iRred (r 9)))) = some (false, false, true) ∧
    one (after (.gatherRequestArrival (.own o0)) (sFar false)) = some (true, true, true) ∧
    one { after (.gatherRequestArrival (.own o0)) (sFar false) with teams := [] } = some (false, true, true) := by decide +kernel

/-- The package with its dies' caches holding a dirty byte and no team left. -/
def sEmpty : State := { sDie with teams := [] }

theorem witness_Management :
    State.reset.pkg = .off ∧ base.pkg = .up ∧
    (∀ t ∈ [1, 4, 5, 68], (base.tdi t).st = .unlocked) ∧ base.cacheOk ∧ (base.teams.map (·.id)).Nodup ∧
    (∀ tm ∈ base.teams, (base.launch? tm.launch).isSome) ∧
    (∀ l ∈ (sPol [.ign, .ign, .ign, .ign, .ign]).launches, l.desc.policy.getD 4 .kparent = .ign) ∧
    base.teams.filter (fun y => y.onCore && dieOf y.core == 0) = [tm0] ∧
    sEmpty.cacheOk ∧ (∃ k i, (lineOf (sEmpty.die 0).dc k).dirty.getLsbD i = true ∧ homeDie (64 * k) = none) ∧
    (base.launches.map (·.id)).Nodup ∧ (base.ctx? la0.ctx).map (·.vf) = some 0 ∧
    ({ base with ctxs := base.ctxs.map fun c => { c with vf := 64 } } : State).ctx? la0.ctx ≠ none ∧
    State.reset.demand.length = 16 ∧ ((List.range 12).map fun i => base.demand.getD i 0).sum ≤ base.budget ∧
    base.launchesOf 1 = [] ∧ 1 ∉ base.stopping ∧
    (let s : State := { base with ctxs := base.ctxs.map fun c => { c with vf := 1 }, stopping := [5, 6] }
     s.launchesOf (5 - 4) ≠ [] ∧ 6 ∈ s.stopping ∧ s.launchesOf (6 - 4) = []) ∧
    (((List.range 4).map fun i => base.demand.getD (12 + i) 0).sum ≤ base.cap) ∧
    base.manifest.inletLimit < 1 ∧ 0 ≤ base.manifest.inletLimit := by
  refine ⟨?_, ?_, ?_, cacheOk_of ?_, ?_, ?_, ?_, ?_, cacheOk_of ?_, ⟨((sEmpty.die 0).dc.headD (0, Line.none)).1, 0, ?_⟩, ?_⟩
  all_goals decide +kernel

/-- A retired team whose load is still in flight on die 0, and no team on die 1. -/
theorem witness_DieReset :
    let s := (after (.ld h3 4 false (r 2) mV) sM).modTeam 0 fun t => { t with st := .retired }
    let hit (d : Nat) (tm : Team) : Bool := dieOf tm.core == d && (tm.onCore || tm.st == .retired && tm.pending)
    (s.team? 0).any (hit 0) = true ∧ (∀ tm ∈ s.teams, hit 1 tm = false) := by decide +kernel

/-- One case for each action and the level that takes it. -/
theorem witness_Containment :
    (let f (c : Cause) (lv : Nat) : FInfo :=
       { cause := c, level := lv, lanes := 1, addr := 0, detail := 0, pages := [], pc := 0x4000, split := 0x80000001, eng := false,
         fetch := false }
     absorb [.ign, .ign, .ign, .ign, .ign] (f .range 0) = some (0, .ign) ∧
     absorb [.retry, .kparent, .kparent, .kparent, .kparent] (f .page 0) = some (0, .retry) ∧
     absorb [.kparent, .kparent, .kparent, .kparent, .kparent] (f .range 0) = none ∧
     absorb [.kself, .kparent, .kparent, .kparent, .kparent] (f .range 0) = some (0, .kself) ∧
     absorb [.kself, .kself, .kparent, .kparent, .kparent] (f .illop 1) = some (1, .kself) ∧
     absorb [.kparent, .kparent, .kparent, .kparent, .kself] (f .range 0) = some (4, .kself)) ∧
    (iss base).g.occ &&& ~~~(1 : Word) ≠ 0 ∧ (iss base).g.xp = none ∧ (iss base).g.live = true ∧
    (∀ p : List Action, (sPol p).team? 0 = some tm0 ∧ tm0.group? 0 = some gr0 ∧ gr0.split? 0 = some sp0 ∧
      (sPol p).launch? tm0.launch = some { la0 with desc := { la0.desc with policy := p } }) ∧
    (iss (sPol [.kparent, .kparent, .ign, .kparent, .kparent])).inPlace (sPol [.kparent, .kparent, .ign, .kparent, .kparent]) := by
  refine ⟨?_, ?_, ?_, ?_, fun p => ⟨?_, ?_, ?_, ?_⟩, ?_⟩
  all_goals first | decide +kernel | rfl

/-- A split whose PC is beyond the canonical range, odd, on an unmapped page, or at a reserved OP or an ill-formed word. -/
def sPc (pc : DWord) (w : List Byte) : State :=
  { (placedWrites w).foldl (fun s w => s.homeWrite w.1 w.2) base with
    teams := [{ tm0 with groups := [{ gr0 with splits := [{ sp0 with pc := pc }] }] }] }

theorem witness_Fetch :
    (∀ p ∈ [((2 ^ 63 : Nat), [0]), (0x4002, [0]), (0x600000, [0]), (0x4000, natLe 4 0x40000)],
      let s := sPc (BitVec.ofNat 64 p.1) p.2
      ((s.at? ⟨0, 0, 0⟩).any fun x => s.canIssue x && s.chosen x) = true) ∧
    noncanon (2 ^ 63) = true ∧ noncanon 0x4002 = false ∧ 0x4002 % 4 ≠ 0 ∧
    ((sPc 0x600000 [0]).fetch (iss (sPc 0x600000 [0])) matches .fault _) = true ∧
    (sPc 0x4000 (natLe 4 0x40000)).fetch (iss (sPc 0x4000 (natLe 4 0x40000))) = .word (natLe 4 0x40000) ∧
    decodeBytes (natLe 4 0x40000) = .illop ∧ trigWord (wordAt (natLe 4 0x40000) 0) = false := by
  refine ⟨?_, ?_, ?_, ?_, ?_, ?_, ?_, ?_⟩ <;> decide +kernel

/-- The invariants hold of a state that makes a step. -/
theorem witness_Invariants :
    Memory.wf base.mem = true ∧ base.cacheOk ∧ (∃ t, step base = .next t) ∧ (∃ t, exec (.nop h1) base = .next t) ∧
    (Instr.nop h1).head.isSome := by
  have f (o : Host.Outcome State Fault Refusal) (h : (match o with | .next _ => true | _ => false) = true) : ∃ t, o = .next t := by
    cases o <;> simp at h ⊢
  exact ⟨by decide +kernel, cacheOk_of (by decide +kernel), f _ (by decide +kernel), f _ (by decide +kernel), rfl⟩

/-! ## Worked examples of the spec -/

/-- The state after the instruction of some words. -/
def runWords (a b c : Word) (s : State) : State :=
  match decodeWords a b c 0 0 with
  | .instr i => after i s
  | _ => s

/-- Vector registers by number and lane; zeros are not listed. -/
def vregsOf (l : List (Nat × List Word)) : Map Word :=
  (l.flatMap fun p => p.2.zipIdx.map fun w => (32 * p.1 + w.2, w.1)).filter (·.2 ≠ 0)

/-- A group of one split with some occupied lanes and vector registers. -/
def sV (occ : Word) (l : List (Nat × List Word)) : State :=
  withG fun g => { g with occ := occ, splits := [{ sp0 with mask := occ }], vregs := vregsOf l }

/-- The newest values of a vector register in the first lanes. -/
def vNew (s : State) (n k : Nat) : List Nat := (List.range k).map fun l => ((iss s).g.newest 0 (.v n l)).toNat

/-- The newest value of a mask register. -/
def kNew (s : State) (n : Nat) : Nat := ((iss s).g.newest 0 (.k n)).toNat

/-- Example 1.1: an interleaved offset, resolved. -/
theorem test_interleave : resolvePa (3 * 2 ^ 40 + 0x18C40) = some (1 * 2 ^ 36 + 0x2440) := by decide +kernel

/-- Examples 7.1 and 10.2: F32 300.0 and 470.0 to E4M3 with .SAT, and 470.0 without it. -/
theorem test_cvt : vNew (runWords 0x8C080141 0x00200300 0 (sV 3 [(3, [0x43960000, 0x43EB0000])])) 2 2 = [0x79, 0x7E] ∧
    vNew (after (.cvt h2 .e4m3 false .rn .f32 false (r 2) (vr 3)) (sV 1 [(3, [0x43EB0000])])) 2 1 = [0x7F] := by decide +kernel

/-- Example 7.2: the residues of −1,000,000. -/
theorem test_rnsenc : vNew (after (.rnsenc h2 .s32 (r 2) (vr 4)) (sV 1 [(4, [BitVec.ofInt 32 (-1000000)])])) 2 1 = [0x6D6EC0] := by
  decide +kernel

/-- Example 9.1: the BRC at 0x4014 splits lanes 0 to 3 from the others under a join record. -/
theorem test_brc :
    let s := runWords 0x00080009 0x00080006 0 (withG fun g => { g with
      occ := 0xFFFFFFFF, splits := [{ sp0 with mask := 0xFFFFFFFF, pc := 0x4014 }], kregs := [(2, 0xF)] })
    (s.group? 0 0).any (fun g => (g.splits.map fun x => (x.mask, x.pc, x.entry.isSome)) ==
        [(0xFFFFFFF0, 0x4024 - 8, true), (0xF, 0x402C, true)].reverse || (g.splits.map fun x => (x.mask, x.pc, x.entry.isSome)) ==
        [(0xFFFFFFF0, 0x4024 - 8, true), (0xF, 0x402C, true)]) = true := by decide +kernel

/-- Example 9.3: the low and the high half of a 128-bit sum. -/
theorem test_adc :
    let s := after (.adc h2 .z64 (r 8) (r 0) (vr 4) (r 5)) (sV 1 [(0, [0xFFFFFFFF]), (1, [0xFFFFFFFF]), (2, [1]), (4, [1])])
    (vNew s 8 1, vNew s 9 1, kNew s 5) = ([0], [0], 1) ∧
    (let t := after (.adc h2 .z64 (r 10) (r 2) (vr 6) (r 5)) ((sV 1 [(2, [1])]).modG ⟨0, 0, 0⟩ fun g => g.setFile (.k 5) ones 1)
     (vNew t 10 1, vNew t 11 1, kNew t 5)) = ([2], [0], 0) := by decide +kernel

/-- Example 10.3: SCAN and REDU under a guard and beside a vacant lane. -/
def sEx103 : State :=
  (sV 0x5D [(1, [5, 100, BitVec.ofInt 32 (-3), 7, 9, 0, 2])]).modG ⟨0, 0, 0⟩ fun g => g.setFile (.k 2) ones 0xFFFFFFEF

theorem test_scan_redu :
    vNew (runWords 0x00145DD1 0x00000001 0 sEx103) 5 7 = [5, 0, 2, 9, 0, 0, 11] ∧
    vNew (after (.scan ⟨.w2, 0, 2, false, 0⟩ true .add false (r 6) (r 1)) sEx103) 6 7 = [0, 0, 5, 2, 0, 0, 9] ∧
    vNew (after (.redu ⟨.w2, 0, 2, false, 0⟩ false .add false (r 7) (r 1)) sEx103) 7 7 = [11, 0, 11, 11, 0, 0, 11] := by
  decide +kernel

/-- R155: one rounding of the exact sum of 2^24, 1, 1 and −2^24. -/
theorem test_redu_exact : vNew (after (.redu h2 false .fadd false (r 7) (r 1))
    (sV 0xF [(1, [0x4B800000, 0x3F800000, 0x3F800000, 0xCB800000])])) 7 4 = List.replicate 4 0x40000000 := by decide +kernel

/-- Example 11.2: PUSHW with destinations 3, 3, 0, 3, 6, 1, 6, 5. -/
theorem test_pushw :
    let s := runWords 0x002401C5 0x00040708 0 (sV 0xDF [(7, [3, 3, 0, 3, 6, 1, 6, 5]), (8, [100, 101, 102, 103, 104, 105, 106, 107])])
    vNew s 9 8 = [102, 0, 0, 103, 0, 0, 106, 0] ∧ kNew s 4 = 0x48 := by decide +kernel

/-- Example 11.3: CONFL of the keys 7, 4, 7, 9, 4, (7), 7, 9. -/
theorem test_confl :
    let s := runWords 0x002801D5 0x00030008 0 (sV 0xDF [(8, [7, 4, 7, 9, 4, 7, 7, 9])])
    vNew s 10 8 = [0, 0, 1, 0, 2, 0, 5, 8] ∧ kNew s 3 = 0x0B := by decide +kernel

/-- Example 16.3: 96 products of 1 and 2 where row and column are occupied, and 0 where lane 7, which is vacant, takes part. -/
theorem test_mma :
    let x (w : Word) : List Word := [w, w, 0, 0, 0, 0, 0, w]
    let s := after (.mma h2 false .s8 .s8 .wide (r 0) (r 0) (r 24)) (sV 3
      ((List.range 24).map (fun i => (i, x 0x01010101)) ++ (List.range 24).map fun i => (24 + i, x 0x02020202)))
    (s.group? 0 0).any (fun g => (g.tile 0 0 1, g.tile 0 1 7, g.tile 0 7 0) == (0x01C0C0C0, 0x01000000, 0x01000000)) = true := by
  decide +kernel

/-- Example 22.1: the first round of XNEXT. -/
theorem test_xnext :
    let s := runWords 0x00200345 0x00040A00 0 (runWords 0x00000341 0x00000100 0
      (sV 0xF [(0, [10, 7, 20, 40]), (1, [3, 0, 5, 1])]))
    vNew s 8 4 = [10, 11, 12, 20] ∧ kNew s 4 = 0xF ∧ ((iss s).g.newest 0 (.s 10)) = 4 := by decide +kernel

/-- Example 29.2: the signature of a round of packages 4 and 5 at tier 0. -/
theorem test_signature :
    let one (p : Nat) : Contrib := ⟨p, 0, [1, 0, 0, 0], none⟩
    base.signature (base.schedule [one 5, one 4]) = 0x0D9500000B878B00 := by decide +kernel

/-- Example 28.3: F32 contributions in schedule order at tiers 0, 1, 2 and after the first has moved to tier 3. -/
theorem test_reduction :
    let tab (t : Nat) : PeerTab := { tiers := [(t, [0])], tier := t, paths := [0], removed := [], events := 0, down := false }
    let sum (t : Nat) : Nat :=
      let s := { base with peers := [(2, tab 2), (4, tab 1), (7, tab t)] }
      let s := [(2, 0x3F800000), (4, 0x3F800000), (7, 0x4B800000)].foldl
        (fun s p => after (.reductionContribution (.peer p.1 (.red 0 0x6200 .add .f32 3 0 (natLe 4 p.2)))) s) s
      leNat (s.devRead 0 0x6200 4)
    sum 0 = 0x4B800000 ∧ sum 3 = 0x4B800001 := by decide +kernel

/-- TRAP 5 (26 R331): code SYSCALL, the PC, the mask twice, and its operand in the record. -/
theorem test_trap :
    ((after (.trap h1 5) base).group? 0 0).any (fun g => (g.frec.getD 1 0, g.frec.getD 2 0, g.frec.getD 5 0) ==
      (0x4000, 0x8000000180000001, 5)) = true := by decide +kernel

/-! ## Witnesses: forms beside the main ones -/

/-- TRIG under its own never guard, before a CPA. -/
theorem witness_NeverTrig :
    let h : Hdr := ⟨.w3, 0, 0, true, 0⟩
    sTrig.issuer = some (iss sTrig) ∧ h.g = 0 ∧ h.gn = true ∧ sTrig.fetch ((iss sTrig).follow h) = .word trigBytes ∧
    trigTarget trigBytes = some (.ok (.cpa h3 none 0 .ss (r 8) (r 9) 0 0, h3, 0xA0)) := by decide +kernel

/-- What follows a TRIG may be no instruction that it takes, or one that step 4 refuses. -/
theorem witness_TrigFaults :
    let s (w : List Byte) : State :=
      { (placedWrites ((Instr.trig h3 (.ctr 0) (.imm 0)).encodeBytes ++ w)).foldl (fun s w => s.homeWrite w.1 w.2) base with
        teams := [tm0] }
    let nop := natLe 4 0
    let bad := trigBytes.take 4 ++ natLe 4 0xFFFFFFFF ++ natLe 4 0
    (s nop).issuer = some (iss (s nop)) ∧ (s nop).fetch ((iss (s nop)).follow h3) = .word nop ∧ trigTarget nop = none ∧
    (s bad).fetch ((iss (s bad)).follow h3) = .word bad ∧ ∃ e, trigTarget bad = some (.error e) := by
  refine ⟨?_, ?_, ?_, ?_, .illop, ?_⟩ <;> decide +kernel

/-- A partial fill across two blocks; an expansion; an engine fault that waits, under IGN and under RETRY; no item yet, and none
left. -/
theorem witness_Refill_general :
    let s : State := (withT fun t => { t with cur := some ⟨0, 30⟩, nxt := some ⟨1, 32⟩ }).modLaunch 0 fun l =>
      { l with desc := { l.desc with items := 35, lblk := 5 }, blks := [⟨0, 0, 0, 0, 0⟩, ⟨1, 0, 0, 0, 0⟩] }
    let es : List EFault := ((after (.ld h3 4 false (r 2) mV) sM).op? o0).toList.map fun q =>
      { op := q.2.2, cause := .page, lanes := 1, addr := 0, pages := [], detail := 0, own := [], remote := false, stands := false, bar := none }
    let z (n : Nat) : State := (withG fun g => { g with occ := 0 }).modLaunch 0 fun l => { l with desc := { l.desc with items := n } }
    runs (.refill h1 1) s = true ∧ s.launch? (iss s).tm.launch = some (laOf s) ∧ (iss s).inPlace s ∧ (iss s).g.xp = none ∧
    (iss s).g.efaults = [] ∧ (iss s).g.pend = [] ∧ (iss s).lone ∧ (iss s).g.joins = [] ∧ (iss s).behind s.now = false ∧
    (s.blkHi (laOf s) 0 - 30, s.blkHi (laOf s) 1 - 32) = (2, 3) ∧
    (iss (sX 1)).g.xp ≠ none ∧ runs (.refill h1 1) (sX 1) = true ∧
    (∀ p ∈ [Action.ign, .retry], let s := (sPol [p, p, p, p, p]).modG ⟨0, 0, 0⟩ fun g => { g with efaults := es }
      (iss s).g.efaults.length = 1 ∧ runs (.refill h1 1) s = true ∧ (iss s).g.efaults.all (fun f =>
        ((iss s).re ((iss s).engineFault f s).1).any fun y =>
          (match y.sp.hold with | .fault _ => p == .retry | _ => p == .ign) && y.sp.pc == (iss s).sp.pc && y.g.efaults.isEmpty) = true) ∧
    runs (.refill h1 1) (z 32) = true ∧ (z 32).noItems (laOf (z 32)) (iss (z 32)).tm = false ∧
    runs (.refill h1 1) (z 0) = true ∧ (z 0).noItems (laOf (z 0)) (iss (z 0)).tm = true := by
  unfold Iss.inPlace Iss.lone
  refine ⟨?_, ?_, ?_, ?_, ?_, ?_, ?_, ?_, ?_, ?_, ?_, ?_, ?_, ?_, ?_, ?_, ?_⟩ <;> decide +kernel

/-- A split that has been taken out of BAR's instance 0, while that instance is complete and after its departures. -/
theorem witness_BarPast :
    let s (l : List BarInst) : State := (sBar [] 0).modTeam 0 fun t =>
      { (t.modGroup 0 fun g => g.modSplit 0 fun y => { y with bar := some (false, 0) }) with barInst := BarInst.start 1, barDone := l }
    ∀ l ∈ [[], [BarInst.start 0]], (iss (s l)).sp.bar = some (false, 0) ∧ 0 ≠ ((s l).barInst (iss (s l)).tm false).num ∧
      (s l).barDone (iss (s l)).tm false = l := by decide +kernel

/-- Two lanes' copies from scratch to words at 0x6000 and 0x6004. -/
theorem witness_CopyOut_lanes :
    let s := sM.modG ⟨0, 0, 0⟩ fun g => { g with kregs := [(3, 0x80000001)], vregs := [(12 * 32, 0x6000), (12 * 32 + 31, 0x6004)] }
    let t := after (.cpa ⟨.w3, 0, 3, false, 0⟩ none 0 .sg (r 8) (r 12) 0 0) s
    op0 t (fun _ g p => g.mayGo p && !p.waitRetry && cachesOk t && match p.kind with
      | .copy es => es.length == 2 && es.all fun e => match e.2.2 with
          | .glb _ bs => bs.length == 4 && bs.all (!·.uc) && decide ((bs.map (·.pa)).Nodup)
          | _ => false
      | _ => false) = true ∧ dieOf tm0.core < t.dies.length := by decide +kernel

/-- TCOPYs of scratch to global bytes, of global to other global bytes, and within scratch. -/
theorem witness_CopyForms :
    let s := sDesc.modG ⟨0, 0, 0⟩ fun g => { g with sregs := [(4, 0x6000), (5, 64), (6, 0x6100), (7, 0x6200), (8, 1024)] }
    let f (d : CopyDir) (a b : BitVec 8) : State := after (.tcopy h3 none d false (r a) (r b) (.reg (r 4))) s
    (∀ p ∈ [(CopyDir.sg, 5, 6), (.gg, 6, 7)], let t := f p.1 p.2.1 p.2.2
      op0 t (fun tm g q => g.mayGo q && !q.waitRetry && cachesOk t && match q.kind with
        | .tcopy dir a b esz ns ss ds [] => dir == p.1 && (indices ns).all fun i =>
            (match t.elemAt 0 tm 0 (dir == .gg) .read (baseOf (dir == .gg) a + dotStride i ss) esz,
              t.elemAt 0 tm 0 true .write (baseOf true b + dotStride i ds) esz with
             | .ok w, .ok (.glb _ bs) => !t.engDamaged tm w && bs.all (fun c => !c.uc && decide (0x20A200 ≤ c.pa ∨ dir = .sg))
             | _, _ => false)
        | _ => false) = true) ∧
    op0 (f .ss 5 8) (fun _ g q => g.mayGo q && match q.kind with
        | .tcopy .ss a b esz ns ss ds [] => (indices ns).all fun i =>
            decide (0 ≤ baseOf false a + dotStride i ss ∧ baseOf false a + dotStride i ss + esz ≤ 1024 ∧ 1024 ≤ baseOf false b + dotStride i ds)
        | _ => false) = true := by decide +kernel

/-- A gather that a stop has abandoned. -/
theorem witness_AbandonedGather :
    op0 (sGather.modGroup 0 0 fun g => g.modOp 0 fun p => { p with abandoned := true }) (fun _ _ p => p.abandoned && match p.kind with
      | .gather _ => true | _ => false) = true := by decide +kernel

/-- Four values of each kind of floating-point product: finite, a NaN, infinities of one sign and of both. -/
theorem witness_MmaFloat :
    let v (l : List Nat) : List FVal := l.map (decodeF .f32)
    (∀ f ∈ v [0x3F800000, 0x40000000], f.isNan = false ∧ f.isInf = false) ∧ (∃ f ∈ v [0x7FC00000], f.isNan = true) ∧
    (∃ f ∈ v [0x7F800000], f.isInf = true ∧ f.neg = false) ∧ (∃ f ∈ v [0xFF800000], f.isInf = true ∧ f.neg = true) ∧
    (∃ f ∈ v [0], f.isZero = true ∧ f.ex.n = 0) := by decide +kernel

/-- The state after a rendezvous of groups 0 and 1 of a team, and the arrivals of the next instruction. -/
def sPair (i : Instr) (s : State) : State := [0, 1].foldl (fun s g => after i { s with sel := some ⟨0, g, 0⟩ }) s
/-- After XPND over two groups, and after some rounds: the total of ten is dealt in three of four each. -/
def sTwo : Nat → State
  | 0 => after (.spanRendezvous 0 0) sSpan2
  | n + 1 => after (.spanRendezvous 0 0) (sPair iXnext (sTwo n))

/-- The premises of the statement on a rendezvous of two: the arrivals, the members and their shared expansion. -/
def spanMeets (s : State) (P : SpanKind → Bool) (Q : Expand → Bool) : Bool :=
  (s.team? 0).any fun tm =>
    let as := tm.spanArrs 0 2
    let ms := tm.span 0 2
    as.map (·.grp) == [0, 1] && ms.map (·.grp) == [0, 1] && decide ((tm.groups.map (·.grp)).Nodup) && as.all (fun a => P a.kind &&
      a.dst.getD 1 1 != 0 && decide (a.dst.getD 2 0 < 64) && ms.any fun m => m.grp == a.grp && a.occ == m.occ && m.pend.isEmpty &&
        m.splits.any fun y => m.splits == [y] && y.id == a.split && y.parent.isNone && y.leave.isNone && y.hold != .run) &&
    match ms.map (·.xp) with
    | [some a, some b] => a == { b with own := a.own, iter := a.iter } && a.span.size == 2 && a.killed.all (!·) && Q a
    | [none, none] => Q ⟨.one, [], [], [], 0, 0, 0, [], [], []⟩
    | _ => false

theorem witness_WideSpans :
    spanMeets sSpan2 (fun k => k == .xpnd .two) (fun _ => true) = true ∧
    spanMeets (sPair iXnext (sTwo 1)) (fun k => k == .xnext true) (fun e => decide (e.cur < e.total)) = true ∧
    spanMeets (sPair iXnext (sTwo 3)) (fun k => k == .xnext true) (fun e => decide (e.total ≤ e.cur)) = true ∧
    spanMeets (sPair iSegred (sTwo 1)) (fun k => k == .segred .add 21) (fun e => e.iter.any (·.isSome)) = true := by decide +kernel

/-- A row that finds its queue open, closed, full, or behind another operation; the row of ENQB. -/
theorem witness_Appends :
    let s := after (.enqb h3 (r 9) (r 2) (r 3) (.imm 1)) sQ
    op0 s (fun tm g p => p.skip.isEmpty && !p.waitRetry && g.mayGo p && p.bn.isNone && g.live && match p.kind with
      | .enq false true _ _ rows [] [] => rows.map (·.cls) == [0, 1] && decide ((rows.map (·.lane)).Nodup) && rows.all fun z =>
          decide (z.lane < 32) && (s.fedQueue? 0 z.q).any (fun l => decide ((rows.filter (·.q = z.q)).length ≤ (s.queue z.q).room l.desc.nslot)) &&
          !(s.queue z.q).closed && !s.appending o0 z.q && !tm.scrDamaged z.off 16 && (g.sameItems p (maskOf (rows.map (·.lane)))).getLsbD z.lane
      | _ => false) = true ∧
    cachesOk s = true ∧ 16 ∣ (laOf s).desc.ring.toNat ∧ (s.devPlace 0 (laOf s).desc.ring.toNat).isSome ∧ (laOf s).bitmaps = [] ∧
    ((s.modQueue 3 fun q => { q with closed := true }).queue 3).closed = true ∧
    (s.modQueue 3 fun q => { q with appended := 4 }).appending o0 3 = false ∧
    ((s.modQueue 3 fun q => { q with appended := 4 }).queue 3).room 4 = 0 ∧
    (sEnq.modGroup 0 0 fun g => g.modOp 0 fun p => { p with kind := match p.kind with
      | .enq c b q vd rows _ cs => .enq c b q vd (rows.drop 1) [(0, 0)] cs
      | k => k }).appending ⟨0, 0, 1⟩ 3 = true := by decide +kernel

/-- A reply that waits for its acknowledgement, now and after 32 tries. -/
theorem witness_Replies :
    let s := after (.remoteReadArrival (.peer 5 (.read 0 0x6200 16))) sR
    s.replies.map (·.id) = [sR.nextPkt] ∧ (∀ p ∈ s.store, p.id ≠ sR.nextPkt) ∧
    (s.store.find? fun q => q.id == sR.nextPkt && q.peer != s.pkgNum) = none ∧
    ({ s with replies := s.replies.map fun q => { q with tries := 32, firstAt := 0 }, now := 2 ^ 27 } : State).mayLose 5 = true := by
  decide +kernel

/-- Two teams that ask for a block, the second first. -/
theorem witness_BlockDraw_order :
    let s : State := { base with teams := [{ tm0 with wantBlk := true, asked := 7 }, { tm0 with id := 1, wantBlk := true, asked := 3 }] }
    (s.teams.map (·.id)).Nodup ∧ (s.nextAsk (laOf s)).map (·.id) = some 1 ∧
    (∃ u ∈ s.teams, u.launch = 0 ∧ u.acting = true ∧ u.wantBlk = true ∧ (s.shift (laOf s) u).nxt = none ∧ u.id ≠ 0 ∧ u.asked < 7) ∧
    (let s := withT fun t => { t with wantBlk := false }
     s.pkg = .up ∧ s.ready (laOf s) = true ∧ s.nextAsk (laOf s) = none ∧ [1] ∈ s.places (laOf s) [] 0 ∧
       s.firstHere (s.startKey (laOf s) false) [1] = true) ∧ sPrio.wants la1 = true ∧ (∀ e < 4, sPrio.wantPlaces la1 [] e = []) := by
  refine ⟨?_, ?_, ⟨{ tm0 with id := 1, wantBlk := true, asked := 3 }, ?_⟩, ?_, ?_, ?_⟩ <;> decide +kernel

/-- The launch of a cluster of two teams, of which one holds slot 0. -/
def laC : Launch := { la0 with desc := { la0.desc with save := 0x7000 }, kern := { kern with clw := 2 }, slots := [0] }

/-- Team 0 of it is held in place on core 0, team 1 is saved in slot 0 with some bytes as its record. -/
def clusTeams (bytes : List Byte) : List Team :=
  [{ tm0 with st := .parked, why := some .priority },
    { tm0 with id := 1, pos := 1, num := 1, core := 8, why := some .priority, st := .saved 0, recordOk := true, record := bytes }]

def mkClus (s : State) (bytes : List Byte) : State := { s with teams := clusTeams bytes, launches := [laC] }

/-- The record that stands in slot 0. -/
def clusRecord (s : State) : List Byte := s.devRead laC.ctx (s.slotAddr laC 0) (crSize laC.kern)

theorem mkClus_devRead (s : State) (b : List Byte) (c a n : Nat) : (mkClus s b).devRead c a n = s.devRead c a n :=
  State.devRead_with s _ _ c a n

theorem mkClus_slotAddr (s : State) (b : List Byte) : (mkClus s b).slotAddr laC 0 = s.slotAddr laC 0 := by
  unfold State.slotAddr; rw [mkClus_devRead]

theorem mkClus_intact (s : State) (b : List Byte) (hb : b = clusRecord s) :
    ∀ x ∈ (mkClus s b).teams, (mkClus s b).intact laC x = true := by
  intro x hx
  have h : x.recordOk = true ∧ (x.st = .parked ∨ x.st = .saved 0 ∧ x.record = b) := by
    simp only [mkClus, clusTeams, List.mem_cons, List.not_mem_nil, or_false] at hx
    rcases hx with rfl | rfl
    · exact ⟨rfl, .inl rfl⟩
    · exact ⟨rfl, .inr ⟨rfl, rfl⟩⟩
  unfold State.intact
  rw [h.1, Bool.true_and]
  rcases h.2 with h | ⟨h, h'⟩ <;> rw [h]
  dsimp only
  rw [h', mkClus_slotAddr, mkClus_devRead, hb]
  exact beq_self_eq_true _

def clusBase : State := base.devWrite 0 0x7000 (natLe 4 8)

/-- The record stands in its slot. -/
def sClus : State := mkClus clusBase (clusRecord clusBase)

theorem sClus_intact : ∀ x ∈ sClus.teams, sClus.intact laC x = true := mkClus_intact clusBase _ rfl

set_option maxRecDepth 20000 in
theorem witness_ClusterResume :
    (sClus.teams.map (·.id)).Nodup ∧ sClus.launch? 0 = some laC ∧ (sClus.team? 0).any (fun p => (sClus.mates p).find? (·.pos = 0) = some p && sClus.resumable p &&
      !laC.staggered [0, 8] && sClus.firstHere (sClus.startKey laC true) [0, 8] &&
      (sClus.resumePlaces laC p [] 0).contains [0, 8]) = true ∧ laC.slots.Nodup ∧
    ((mkClus clusBase []).modTeam 1 fun t => { t with recordOk := false }).intact laC { tm0 with st := .saved 0, recordOk := false } = false := by
  refine ⟨?_, ?_, ?_, ?_, ?_⟩ <;> decide +kernel

/-- A cluster whose teams' notice intervals are over. -/
theorem witness_ClusterStop :
    let s : State := { sClus with now := 1024, teams := sClus.teams.map fun t => { t with st := .notice 0, why := some .system } }
    (s.teams.map (·.id)).Nodup ∧ ∀ x ∈ (s.mates tm0).filter (·.st != .retired), x.st = .notice 0 ∧ 0 + 1024 ≤ s.now := by decide +kernel

/-- A die with one team, of a launch under each grid policy. -/
theorem witness_DieReset_policies :
    ∀ p ∈ [Action.ign, .kself, .kparent], let s := sPol [.kparent, .kparent, .kparent, .kparent, p]
      s.teams.filter (fun y => dieOf y.core == 0 && (y.onCore || y.st == .retired && y.pending)) = [tm0] ∧
      (laOf s).desc.policy.getD 4 .kparent = p := by decide +kernel

end Sys2Proof.Tests
end

section
/-! PROOFS. Fixed-latency results (05 R57, R58): what entering them and consuming an issue slot does to the newest value of a
place, and what the completion of an instruction by a lone split leaves of its group. -/

namespace Sys2Proof.Machine

/-! ## The newest value of a place -/

/-- A value with the bits that a result writes to the place replaced. -/
def Loc.replaced (l : Loc) (v : DWord) (w : Loc × DWord × DWord) : DWord :=
  (v &&& ~~~(w.2.1 &&& l.width)) ||| (w.2.2 &&& w.2.1 &&& l.width)

/-- The writes of a split that are in flight to a place. -/
def Group.inFlight (g : Group) (sp : Nat) (l : Loc) : List Pend := g.pend.filter fun e => e.split = sp ∧ e.loc = l

/-- A value with the bits of a write that is in flight replaced. -/
def Pend.over (v : DWord) (e : Pend) : DWord := (v &&& ~~~e.mask) ||| (e.new &&& e.mask)

theorem Group.newest_eq_foldl (g : Group) (sp : Nat) (l : Loc) :
    g.newest sp l = (g.inFlight sp l).foldl Pend.over (g.file l) := rfl

@[simp] theorem Group.newest_modSplit (g : Group) (sp i : Nat) (f : Split → Split) (l : Loc) :
    (g.modSplit i f).newest sp l = g.newest sp l := by
  rw [newest_eq_foldl, newest_eq_foldl, Group.modSplit_file]; rfl

/-- While none of a split's writes has landed, a slot that it consumes only shortens their distances. -/
theorem Group.inFlight_consume (g : Group) (now sp st : Nat) (b : Bool) (l : Loc)
    (u : ∀ e ∈ g.pend, e.split = sp → e.landed = false) :
    (g.consume now sp st b).inFlight sp l =
      (g.inFlight sp l).map fun e => { e with dist := e.dist - (st + 1) } := by
  unfold Group.inFlight Group.consume
  dsimp only
  generalize g.pend = es at u ⊢
  induction es with
  | nil => rfl
  | cons e es ih =>
    have ih := ih fun a ha => u a (List.mem_cons_of_mem _ ha)
    by_cases own : e.split = sp
    · have notLanded := u e List.mem_cons_self own
      by_cases here : e.loc = l <;> simp_all
    · by_cases dropped : (e.landed && e.dist == 0) = true <;> simp_all

theorem Group.newest_consume (g : Group) (now sp st : Nat) (b : Bool) (l : Loc)
    (u : ∀ e ∈ g.pend, e.split = sp → e.landed = false) : (g.consume now sp st b).newest sp l = g.newest sp l := by
  rw [newest_eq_foldl, newest_eq_foldl, inFlight_consume g now sp st b l u, List.foldl_map, Group.consume_file]
  rfl

/-- The write that a result puts in flight (05 R57). -/
def Group.pendOf (g : Group) (now sp lat : Nat) (w : Loc × DWord × DWord) : Pend :=
  { split := sp, loc := w.1, mask := w.2.1 &&& w.1.width, old := g.newest sp w.1,
    new := (g.newest sp w.1 &&& ~~~w.2.1) ||| (w.2.2 &&& w.2.1 &&& w.1.width), dist := lat, landsAt := now + lat,
    landed := false }

theorem Group.enter_pend (g : Group) (now sp lat : Nat) (ds : List (Nat × Nat)) (ws : List (Loc × DWord × DWord)) :
    (g.enter now sp lat ds ws).pend = g.pend ++ (ws.filter (·.1 ≠ .k 0)).map (g.pendOf now sp lat) := rfl

/-- Entered writes have not landed. -/
theorem Group.enter_unlanded (g : Group) (now sp lat : Nat) (ds : List (Nat × Nat)) (ws : List (Loc × DWord × DWord))
    (u : ∀ e ∈ g.pend, e.split = sp → e.landed = false) :
    ∀ e ∈ (g.enter now sp lat ds ws).pend, e.split = sp → e.landed = false := by
  intro e he own
  rw [enter_pend, List.mem_append, List.mem_map] at he
  rcases he with old | ⟨w, -, rfl⟩
  · exact u e old own
  · rfl

/-- Of a new value only the bits under the mask count, and these are the result's. -/
theorem Group.over_pendOf (g : Group) (now sp lat : Nat) (w : Loc × DWord × DWord) (v : DWord) :
    (g.pendOf now sp lat w).over v = w.1.replaced v w := by
  have masked (a m y z : DWord) : ((a &&& ~~~m) ||| (y &&& m &&& z)) &&& (m &&& z) = y &&& m &&& z := by
    ext i
    simp only [BitVec.getElem_and, BitVec.getElem_or, BitVec.getElem_not]
    cases m[i] <;> simp
  unfold Pend.over Loc.replaced Group.pendOf
  dsimp only
  rw [masked]

/-- The results for a place are in flight after what was in flight to it before, in their order; k0 takes none (R54). -/
theorem Group.inFlight_enter (g : Group) (now sp lat : Nat) (ds : List (Nat × Nat)) (ws : List (Loc × DWord × DWord))
    (l : Loc) : (g.enter now sp lat ds ws).inFlight sp l =
      g.inFlight sp l ++ (ws.filter fun w => w.1 = l ∧ l ≠ .k 0).map (g.pendOf now sp lat) := by
  unfold Group.inFlight
  rw [enter_pend, List.filter_append, List.filter_map, List.filter_filter]
  congr 2
  apply List.filter_congr
  rintro w -
  simp only [Group.pendOf, Function.comp_apply, true_and, ← Bool.decide_and, decide_eq_decide]
  constructor
  · rintro ⟨rfl, k⟩; exact ⟨rfl, k⟩
  · rintro ⟨rfl, k⟩; exact ⟨rfl, k⟩

/-- After results have entered, the newest value of a place other than k0 has their bits replaced in order. -/
theorem Group.newest_enter (g : Group) (now sp lat : Nat) (ds : List (Nat × Nat)) (ws : List (Loc × DWord × DWord))
    {l : Loc} (k : l ≠ .k 0) : (g.enter now sp lat ds ws).newest sp l =
      (ws.filter (·.1 = l)).foldl l.replaced (g.newest sp l) := by
  rw [newest_eq_foldl, inFlight_enter, List.foldl_append, Group.enter_file, ← newest_eq_foldl, List.foldl_map]
  simp only [ne_eq, k, not_false_eq_true, and_true]
  apply List.foldl_ext
  intro v w hw
  rw [over_pendOf, show w.1 = l by simpa using (List.mem_filter.mp hw).2]

/-- Entering results does not change k0 (R54). -/
theorem Group.newest_enter_k0 (g : Group) (now sp lat : Nat) (ds : List (Nat × Nat)) (ws : List (Loc × DWord × DWord)) :
    (g.enter now sp lat ds ws).newest sp (.k 0) = g.newest sp (.k 0) := by
  rw [newest_eq_foldl, inFlight_enter, Group.enter_file]
  simp [newest_eq_foldl]

/-! ## The group of a lone split that completes -/

/-- The group of a lone split that has completed an instruction with fixed-latency results. -/
def Iss.completed (x : Iss) (i : Instr) (h : Hdr) (ws : List (Loc × DWord × DWord)) (now : Nat) : Group :=
  ((x.g.enter now x.sp.id (lat i) (x.g.fixedDests x.sp.id h i) ws).consume now x.sp.id h.st.toNat
    (ws.any (x.g.changes x.sp.id))).modSplit x.sp.id fun y =>
      { y with pc := x.next h, arrivedBy := .seq, only := none, hold := .run, words := 0, bar := none }

theorem Iss.completed_frame (x : Iss) (i : Instr) (h : Hdr) (ws : List (Loc × DWord × DWord)) (now : Nat) :
    x.completed i h ws now =
      { x.g with splits := (x.completed i h ws now).splits, pend := (x.completed i h ws now).pend,
                 score := (x.completed i h ws now).score, badRegs := (x.completed i h ws now).badRegs } := rfl

section
variable {x : Iss} (i : Instr) (h : Hdr) (ws : List (Loc × DWord × DWord))

theorem Iss.completed_splits (now : Nat) (l : x.lone) : (x.completed i h ws now).splits =
    [{ x.sp with
      pc := x.next h, arrivedBy := .seq, only := none, hold := .run, words := 0, bar := none, leave := none
      readyAt := now + h.st.toNat + 1, issuedAt := now, loud := x.sp.loud || ws.any (x.g.changes x.sp.id) }] := by
  obtain ⟨alone, -, stays⟩ := l
  unfold Iss.completed Group.modSplit
  rw [Group.consume_lone _ x.sp _ _ _ (by rw [Group.enter_splits, alone])]
  simp [stays]

/-- Of the state only the issuing group changes: the lone split neither arrives anywhere nor leaves for the refill point. -/
theorem Iss.result_onlyGroup {s : State} (e : x.inPlace s) (l : x.lone) :
    OnlyGroup x.r (x.completed i h ws s.now) s (x.result i h ws s) := by
  obtain ⟨-, team, -, group, -⟩ := State.at?_eq e
  obtain ⟨alone, top, stays⟩ := l
  have moved := Group.move_of_none ((x.g.enter s.now x.sp.id (lat i) (x.g.fixedDests x.sp.id h i) ws).consume s.now x.sp.id
    h.st.toNat (ws.any (x.g.changes x.sp.id))) s.now x.sp.id (x.next h) .seq (by
      rw [Group.consume_lone _ x.sp _ _ _ (by rw [Group.enter_splits, alone])]; simp [top, stays])
  unfold Iss.completed
  rw [← moved]
  exact State.modG_onlyGroup _ (fun g => by simp) team group

theorem Iss.newest_completed (now : Nat) (u : x.unlanded) (loc : Loc) :
    (x.completed i h ws now).newest x.sp.id loc =
      (x.g.enter now x.sp.id (lat i) (x.g.fixedDests x.sp.id h i) ws).newest x.sp.id loc := by
  unfold Iss.completed
  rw [Group.newest_modSplit, Group.newest_consume _ _ _ _ _ _ (Group.enter_unlanded _ _ _ _ _ _ u)]

end

/-- Settles O7: the group is the completed one, of whose places only the bits that the results write get a new value. -/
theorem resultsEnterOnlyTheIssuingGroup : Obligations.ResultsEnterOnlyTheIssuingGroup := by
  intro i h x ws s place lone unlanded
  refine ⟨x.completed i h ws s.now, Iss.result_onlyGroup i h ws place lone, x.completed_frame i h ws s.now,
    Iss.completed_splits i h ws s.now lone, fun loc k => ?_, ?_⟩
  · rw [Iss.newest_completed i h ws s.now unlanded]
    exact Group.newest_enter _ _ _ _ _ _ k
  · rw [Iss.newest_completed i h ws s.now unlanded, Group.newest_enter_k0]

end Sys2Proof.Machine
end

section
/-! PROOFS. What no step breaks: memory stays canonical and the caches stay consistent (01 R9, 12 R164 to R166). Memory, the
dies and the cores change through a few operations alone; `Keeps` says that going from one state to another has broken
neither form, and every operation of the model is shown to keep it by what it is composed of. -/

namespace Sys2Proof.Machine

-- The theorems are many and short: checked side by side, their threads pass the memory of the check.
set_option Elab.async false

/-! ## The lines of a cache -/

/-- The lines of a cache are in canonical form and every dirty byte of a line is valid (12 R164, R166). -/
def LinesOk (m : Map Line) : Prop :=
  Map.wf Line.none m = true ∧ ∀ k, (lineOf m k).dirty &&& ~~~(lineOf m k).valid = 0

theorem State.cacheOk_iff (s : State) : s.cacheOk ↔
    s.dies.length = 4 ∧ (∀ c, LinesOk (s.core c).l1) ∧ ∀ d, LinesOk (s.die d).dc := by
  unfold State.cacheOk LinesOk
  constructor
  · rintro ⟨n, l1, dc, dirty1, dirtyD⟩
    exact ⟨n, fun c => ⟨l1 c, dirty1 c⟩, fun d => ⟨dc d, dirtyD d⟩⟩
  · rintro ⟨n, l1, dc⟩
    exact ⟨n, fun c => (l1 c).1, fun d => (dc d).1, fun c => (l1 c).2, fun d => (dc d).2⟩

theorem LinesOk.nil : LinesOk [] := ⟨rfl, fun _ => by simp [lineOf, Line.none]⟩

section
variable {m : Map Line} (ok : LinesOk m)
include ok

theorem LinesOk.setLine (k : Nat) {l : Line} (clean : l.dirty &&& ~~~l.valid = 0) : LinesOk (setLine m k l) := by
  refine ⟨setLine_wf k l ok.1, fun j => ?_⟩
  rw [lineOf_setLine]
  split
  · split
    · simp [Line.none]
    · exact clean
  · exact ok.2 j

theorem LinesOk.merge (k : Nat) (v : BitVec 64) (d : BitVec 512) (b : Bool) :
    LinesOk (Sys2Proof.Machine.setLine m k ((lineOf m k).merge v d b)) :=
  ok.setLine k (Line.merge_dirty_valid v d b (ok.2 k))

/-- A line whose bytes have been written back is clean. -/
theorem LinesOk.cleaned (k : Nat) (l : Line) : LinesOk (Sys2Proof.Machine.setLine m k { l with dirty := 0 }) :=
  ok.setLine k (by simp)

theorem LinesOk.del (k : Nat) : LinesOk (Map.del m k) := by
  refine ⟨Map.wf_del k ok.1, fun j => ?_⟩
  unfold lineOf
  rw [Map.get_del]
  split
  · simp [Line.none]
  · exact ok.2 j

end

/-- A listed line is what its number reads as. -/
theorem lineOf_of_mem {m : Map Line} (wf : Map.wf Line.none m = true) {e : Nat × Line} (he : e ∈ m) :
    lineOf m e.1 = e.2 := by
  rw [Map.wf_iff] at wf
  obtain ⟨rising, -⟩ := wf
  induction m with
  | nil => cases he
  | cons q m ih =>
    obtain ⟨k, l⟩ := q
    obtain ⟨first, rest⟩ := List.pairwise_cons.mp rising
    rcases List.mem_cons.mp he with rfl | he
    · simp [lineOf, Map.get]
    · have ne : e.1 ≠ k := Nat.ne_of_gt (first e he)
      simpa [lineOf, Map.get, ne] using ih he rest

/-- What a number reads as is a line that the cache lists, or no line. -/
theorem lineOf_mem_or_none (m : Map Line) (k : Nat) : (k, lineOf m k) ∈ m ∨ lineOf m k = Line.none := by
  induction m with
  | nil => exact .inr rfl
  | cons q m ih =>
    obtain ⟨j, l⟩ := q
    by_cases e : k = j
    · subst e; simp [lineOf, Map.get]
    · simpa [lineOf, Map.get, e] using ih

/-- Every listed line of a consistent cache has only valid dirty bytes. -/
theorem LinesOk.mem {m : Map Line} (ok : LinesOk m) {e : Nat × Line} (he : e ∈ m) : e.2.dirty &&& ~~~e.2.valid = 0 := by
  have := ok.2 e.1
  rwa [lineOf_of_mem ok.1 he] at this

theorem linesOk_of_mem {m : Map Line} (wf : Map.wf Line.none m = true)
    (clean : ∀ e ∈ m, e.2.dirty &&& ~~~e.2.valid = 0) : LinesOk m := by
  refine ⟨wf, fun k => ?_⟩
  rcases lineOf_mem_or_none m k with h | h
  · exact clean _ h
  · rw [h]; simp [Line.none]

/-- Dropping clean bytes leaves of a line its dirty bytes, all of them valid (12 Table 12.3). -/
theorem LinesOk.dropClean {m : Map Line} (ok : LinesOk m) (p : Nat → Bool) : LinesOk (dropClean m p) := by
  have kept {e d : Nat × Line} (he : e ∈ m) (hd : d ∈ (if p e.1 then
      (if e.2.dirty = 0 then none else some (e.1, { e.2 with valid := e.2.valid &&& e.2.dirty })) else some e)) :
      d.1 = e.1 ∧ d.2 ≠ Line.none ∧ d.2.dirty &&& ~~~d.2.valid = 0 := by
    have dirty := ok.mem he
    have some := ((Map.wf_iff _ _).mp ok.1).2 e he
    split at hd
    · split at hd
      · cases hd
      · rename_i ne
        cases hd
        refine ⟨rfl, fun c => ne (congrArg Line.dirty c), ?_⟩
        ext i hi
        have bit := congrArg (fun v : BitVec 64 => v[i]) dirty
        simp only [BitVec.getElem_and, BitVec.getElem_not] at bit ⊢
        revert bit
        cases e.2.dirty[i] <;> cases e.2.valid[i] <;> simp
    · cases hd
      exact ⟨rfl, some, dirty⟩
  refine linesOk_of_mem ((Map.wf_iff _ _).mpr ⟨?_, ?_⟩) ?_
  · rw [Machine.dropClean, List.pairwise_filterMap]
    refine List.Pairwise.imp_of_mem (fun {e f} he hf lt b hb c hc => ?_) ((Map.wf_iff _ _).mp ok.1).1
    rw [(kept he hb).1, (kept hf hc).1]
    exact lt
  · intro d hd
    obtain ⟨e, he, hd⟩ := List.mem_filterMap.mp hd
    exact (kept he hd).2.1
  · intro d hd
    obtain ⟨e, he, hd⟩ := List.mem_filterMap.mp hd
    exact (kept he hd).2.2

/-! ## Going on from a state -/

/-- Memory is canonical in `s` if it was in `a`, and the caches are consistent in `s` if they were in `a`. -/
structure Keeps (a s : State) : Prop where
  mem : a.memOk → s.memOk
  cache : a.cacheOk → s.cacheOk

theorem Keeps.refl (a : State) : Keeps a a := ⟨id, id⟩

/-- As `Keeps`, for whatever next state an outcome answers. -/
def Kept (a : State) (o : Host.Outcome State Fault Refusal) : Prop := ∀ t, o = .next t → Keeps a t

section
variable {a s t : State}

theorem Kept.next (ok : Keeps a s) : Kept a (.next s) := fun _ e => by cases e; exact ok
theorem Kept.fault {f : Fault} : Kept a (.fault f) := fun _ e => by cases e

theorem Kept.ite {c : Prop} [Decidable c] {o p : Host.Outcome State Fault Refusal} (ho : Kept a o) (hp : Kept a p) :
    Kept a (if c then o else p) := by
  split
  · exact ho
  · exact hp

theorem Keeps.ite {c : Prop} [Decidable c] (hs : Keeps a s) (ht : Keeps a t) : Keeps a (if c then s else t) := by
  split
  · exact hs
  · exact ht

/-- What an operation answers, or where it does not answer the state as it was. -/
theorem Keeps.getD {o : Option State} (hs : Keeps a s) (ho : ∀ t, o = some t → Keeps a t) : Keeps a (o.getD s) := by
  cases o with
  | none => exact hs
  | some t => exact ho t rfl

/-- A fold over the states that some values carry. -/
theorem Keeps.foldl_on {α σ : Type} (π : σ → State) {f : σ → α → σ} {l : List α} {o : σ} (ok : Keeps a (π o))
    (hf : ∀ o x, Keeps a (π o) → Keeps a (π (f o x))) : Keeps a (π (l.foldl f o)) :=
  foldl_keeps (P := fun o => Keeps a (π o)) hf l o ok

theorem Keeps.foldl {α : Type} {f : State → α → State} {l : List α} (ok : Keeps a s)
    (hf : ∀ t x, Keeps a t → Keeps a (f t x)) : Keeps a (l.foldl f s) := .foldl_on id ok hf

theorem Keeps.of_fst {α : Type} {p : State × α} {d : α} (ok : Keeps a p.1) (e : p = (s, d)) : Keeps a s := by
  subst e; exact ok

theorem Keeps.of_snd {α : Type} {p : α × State} {d : α} (ok : Keeps a p.2) (e : p = (d, s)) : Keeps a s := by
  subst e; exact ok

/-! ## The operations that write memory, a die or a core -/

/-- The same memory, and in every cache the same lines. -/
theorem Keeps.of_lines (ok : Keeps a s) (hm : t.mem = s.mem) (hn : t.dies.length = s.dies.length)
    (hc : ∀ c, (t.core c).l1 = (s.core c).l1) (hd : ∀ d, (t.die d).dc = (s.die d).dc) : Keeps a t := by
  refine ⟨fun h => ?_, fun h => ?_⟩
  · unfold State.memOk; rw [hm]; exact ok.mem h
  · have := ok.cache h
    rw [State.cacheOk_iff] at this ⊢
    simpa only [hn, hc, hd] using this

/-- Nothing of memory, the dies and the cores changes. -/
theorem Keeps.frame (ok : Keeps a s) (hm : t.mem = s.mem := by rfl) (hd : t.dies = s.dies := by rfl)
    (hc : t.cores = s.cores := by rfl) : Keeps a t :=
  ok.of_lines hm (by rw [hd]) (fun c => by unfold State.core; rw [hc]) (fun d => by unfold State.die; rw [hd])

/-- A change of a core that keeps the lines of its L1 consistent. -/
theorem Keeps.modL1 {c : Nat} {f : Core → Core} (ok : Keeps a s)
    (hf : a.cacheOk → ∀ y, LinesOk y.l1 → LinesOk (f y).l1) : Keeps a (s.modCore c f) := by
  refine ⟨ok.mem, fun h => ?_⟩
  have := ok.cache h
  rw [State.cacheOk_iff] at this ⊢
  obtain ⟨n, l1, dc⟩ := this
  refine ⟨n, fun k => ?_, dc⟩
  rw [State.core_modCore]
  split
  · exact hf h _ (l1 k)
  · exact l1 k

/-- A change of a core beside its L1. -/
theorem Keeps.modCore {c : Nat} {f : Core → Core} (ok : Keeps a s) (hf : ∀ y, (f y).l1 = y.l1 := by intro; rfl) :
    Keeps a (s.modCore c f) := ok.modL1 fun _ y hy => by rw [hf]; exact hy

/-- A change of a die that keeps the lines of its cache consistent. -/
theorem Keeps.modDc {d : Nat} {f : Die → Die} (ok : Keeps a s)
    (hf : a.cacheOk → ∀ y, LinesOk y.dc → LinesOk (f y).dc) : Keeps a (s.modDie d f) := by
  refine ⟨ok.mem, fun h => ?_⟩
  have := ok.cache h
  rw [State.cacheOk_iff] at this ⊢
  obtain ⟨n, l1, dc⟩ := this
  refine ⟨by rw [State.modDie_dies, List.length_modify]; exact n, l1, fun k => ?_⟩
  rw [State.die_modDie]
  split
  · exact hf h _ (dc k)
  · exact dc k

/-- A change of a die beside its cache. -/
theorem Keeps.modDie {d : Nat} {f : Die → Die} (ok : Keeps a s) (hf : ∀ y, (f y).dc = y.dc := by intro; rfl) :
    Keeps a (s.modDie d f) := ok.modDc fun _ y hy => by rw [hf]; exact hy

theorem Keeps.memLine {k : Nat} {m : BitVec 64} {d : BitVec 512} (ok : Keeps a s) : Keeps a (s.memLine k m d) :=
  ⟨fun h => State.memLine_memOk k m d (ok.mem h), ok.cache⟩

/-! ## The memory hierarchy (chapter 12) -/

theorem Keeps.homeLine {k : Nat} {m : BitVec 64} {d : BitVec 512} (ok : Keeps a s) : Keeps a (s.homeLine k m d) := by
  unfold State.homeLine
  split
  · exact .memLine ok
  · exact .ite (.modDc ok fun _ _ l => l.merge ..) (.memLine ok)

theorem Keeps.ucLine {k : Nat} {m : BitVec 64} {d : BitVec 512} (ok : Keeps a s) : Keeps a (s.ucLine k m d) := by
  unfold State.ucLine
  dsimp only
  split
  · exact .memLine ok
  · exact .modDc (.memLine ok) fun _ _ l => l.merge ..

theorem Keeps.homeFlush {k : Nat} (ok : Keeps a s) : Keeps a (s.homeFlush k) := by
  unfold State.homeFlush
  split
  · exact ok
  · exact .modDc (.memLine ok) fun _ _ l => l.del _

theorem Keeps.wbDie {d k : Nat} (ok : Keeps a s) : Keeps a (s.wbDie d k) :=
  .modDc (.ite ok (.homeLine ok)) fun _ _ l => l.cleaned ..

theorem Keeps.dieFill {d pa : Nat} {b : Byte} (ok : Keeps a s) : Keeps a (s.dieFill d pa b) := by
  refine .modDc ok fun _ y l => ?_
  dsimp only
  split
  · exact l.merge ..
  · exact l

theorem Keeps.dieLine {d k : Nat} {m : BitVec 64} {x : BitVec 512} (ok : Keeps a s) : Keeps a (s.dieLine d k m x) := by
  unfold State.dieLine
  split
  · exact .homeLine ok
  · refine .modDc ?_ fun h _ l =>
      l.setLine _ (Line.merge_dirty_valid _ _ _ ((s.cacheOk_iff.mp (ok.cache h)).2.2 d |>.2 k))
    split
    · split
      · exact .wbDie ok
      · exact ok
    · exact ok

theorem Keeps.wbL1 {c k : Nat} (ok : Keeps a s) : Keeps a (s.wbL1 c k) :=
  .ite ok (.modL1 (.dieLine ok) fun _ _ l => l.cleaned ..)

theorem Keeps.evictL1 {c k : Nat} (ok : Keeps a s) : Keeps a (s.evictL1 c k) :=
  .modL1 (.wbL1 ok) fun _ _ l => l.del _

theorem Keeps.evictDc {d k : Nat} (ok : Keeps a s) : Keeps a (s.evictDc d k) :=
  .ite (.homeFlush ok) (.modDc (.wbDie ok) fun _ _ l => l.del _)

theorem Keeps.l1Fetch {c pa : Nat} (ok : Keeps a s) : Keeps a (s.l1Fetch c pa) := by
  refine .ite ok (.modL1 (.dieFill ok) fun _ y l => ?_)
  dsimp only
  split
  · exact l.merge ..
  · exact l

theorem Keeps.l1Line {c k : Nat} {m : BitVec 64} {x : BitVec 512} (ok : Keeps a s) : Keeps a (s.l1Line c k m x) := by
  unfold State.l1Line
  split
  · refine .modL1 ?_ fun _ _ l => l.merge ..
    split
    · split
      · exact .wbL1 ok
      · exact ok
    · exact ok
  · exact .modCore (.dieLine ok)

theorem Keeps.acquire {c : Nat} {sc : Scope} (ok : Keeps a s) : Keeps a (s.acquire c sc) := by
  have l1 : Keeps a (s.modCore c fun y => { y with l1 := Machine.dropClean y.l1 fun _ => true }) :=
    .modL1 ok fun _ _ l => l.dropClean fun _ => true
  have dc (p : Nat → Bool) : Keeps a ((s.modCore c fun y => { y with l1 := Machine.dropClean y.l1 fun _ => true }).modDie
      (dieOf c) fun y => { y with dc := Machine.dropClean y.dc p }) := .modDc l1 fun _ _ l => l.dropClean p
  cases sc
  · exact ok
  · exact l1
  · exact l1
  · exact dc _
  · exact dc _

theorem Keeps.dropTlb {p : TlbEnt → Bool} (ok : Keeps a s) : Keeps a (s.dropTlb p) := by
  refine ok.of_lines rfl (List.length_map _) (fun c => ?_) (fun d => ?_)
  · unfold State.core State.dropTlb
    dsimp only
    rw [List.find?_map]
    show ((Option.map _ (s.cores.find? fun x => decide (x.1 = c))).map _ |>.getD Core.reset).l1 = _
    cases s.cores.find? fun x => decide (x.1 = c) <;> rfl
  · unfold State.die State.dropTlb
    dsimp only
    rw [List.getD_eq_getElem?_getD, List.getD_eq_getElem?_getD, List.getElem?_map]
    cases s.dies[d]? <;> rfl

end

end Sys2Proof.Machine
end

section
/-! PROOFS. The hierarchy’s writes, shared operations, fetch and engine operations keep both forms (03, 12, 14, 26). -/

namespace Sys2Proof.Machine

-- The theorems are many and short: checked side by side, their threads pass the memory of the check.
set_option Elab.async false

section
variable {a s : State} {x : Iss} {h : Hdr} {r : SRef} {o : ORef} {tm : Team}

/-! ## Parts of the state -/

theorem Keeps.modTeam {t : Nat} {f : Team → Team} (ok : Keeps a s) : Keeps a (s.modTeam t f) := .frame ok

theorem Keeps.modGroup {t g : Nat} {f : Group → Group} (ok : Keeps a s) : Keeps a (s.modGroup t g f) := .modTeam ok

theorem Keeps.modSplit {f : Split → Split} (ok : Keeps a s) : Keeps a (s.modSplit r f) := .modGroup ok

theorem Keeps.modLaunch {l : Nat} {f : Launch → Launch} (ok : Keeps a s) : Keeps a (s.modLaunch l f) := .frame ok

theorem Keeps.modCluster {id : Nat} {f : Cluster → Cluster} (ok : Keeps a s) : Keeps a (s.modCluster id f) :=
  .frame ok

theorem Keeps.modQueue {q : Nat} {f : LQueue → LQueue} (ok : Keeps a s) : Keeps a (s.modQueue q f) := .frame ok

theorem Keeps.tell {m : HostMsg} (ok : Keeps a s) : Keeps a (s.tell m) := .frame ok

theorem Keeps.send {m : Outbox} (ok : Keeps a s) : Keeps a (s.send m) := .frame ok

/-! ## The device’s writes and the TLBs -/

theorem Keeps.homeWrite {pa : Nat} {bs : List Byte} (ok : Keeps a s) : Keeps a (s.homeWrite pa bs) :=
  .foldl ok fun _ _ ok => .homeLine ok

theorem Keeps.ucWrite {pa : Nat} {bs : List Byte} (ok : Keeps a s) : Keeps a (s.ucWrite pa bs) :=
  .foldl ok fun _ _ ok => .ucLine ok

theorem Keeps.dieWrite {d pa : Nat} {bs : List Byte} (ok : Keeps a s) : Keeps a (s.dieWrite d pa bs) :=
  .foldl ok fun _ _ ok => .dieLine ok

theorem Keeps.grpTouch {c : Nat} {bs : List PByte} (ok : Keeps a s) : Keeps a (s.grpTouch c bs) :=
  .foldl ok fun _ _ ok => .ite ok (.l1Fetch ok)

theorem Keeps.grpWrite {c : Nat} {bs : List (PByte × Byte)} (ok : Keeps a s) : Keeps a (s.grpWrite c bs) :=
  .foldl ok fun _ _ ok => .ite (.ucWrite ok) (.foldl ok fun _ _ ok => .l1Line ok)

theorem Keeps.engPrep {c : Nat} {bs : List PByte} (ok : Keeps a s) : Keeps a (s.engPrep c bs) :=
  .foldl ok fun _ _ ok => .wbL1 ok

theorem Keeps.engWrite {c : Nat} {bs : List (PByte × Byte)} (ok : Keeps a s) : Keeps a (s.engWrite c bs) :=
  .foldl (.foldl ok fun _ _ ok => .evictL1 ok) fun _ _ ok => .ite (.ucWrite ok) (.dieWrite ok)

theorem Keeps.drainCore {c : Nat} (ok : Keeps a s) : Keeps a (s.drainCore c) := by
  unfold State.drainCore
  refine .foldl ok fun _ _ ok => ?_
  split
  · exact .wbL1 ok
  · exact ok

theorem Keeps.drainDie {d : Nat} (ok : Keeps a s) : Keeps a (s.drainDie d) := by
  unfold State.drainDie
  refine .foldl ok fun _ _ ok => ?_
  split
  · exact .wbDie ok
  · exact ok

theorem Keeps.release {c : Nat} {sc : Scope} (ok : Keeps a s) : Keeps a (s.release c sc) := by
  unfold State.release
  split
  · exact ok
  · exact .drainCore ok
  · exact .drainCore ok
  · exact .drainDie (.drainCore ok)
  · exact .drainDie (.drainCore ok)

theorem Keeps.orderActs {c : Nat} {o : Order} {sc : Scope} (ok : Keeps a s) : Keeps a (s.orderActs c o sc) := by
  unfold State.orderActs
  split
  · exact ok
  · exact .acquire ok
  · exact .release ok
  · exact .acquire (.release ok)

theorem Keeps.engHull {c ctx : Nat} {fp : List Region} (ok : Keeps a s) : Keeps a (s.engHull c ctx fp) :=
  .foldl (.foldl ok fun _ _ ok => .wbL1 ok) fun _ _ ok => .evictL1 ok

theorem Keeps.fillTlb {bench core ctx : Nat} {vas : List Nat} (ok : Keeps a s) :
    Keeps a (s.fillTlb bench core ctx vas) := by
  unfold State.fillTlb
  refine .foldl ok fun _ _ ok => ?_
  split
  · exact ok
  · split
    · exact ok
    · exact .modDie (.modCore ok)

theorem Keeps.devPut {ctx : Nat} {c : Nat × List Byte} (ok : Keeps a s) : Keeps a (s.devPut ctx c) := by
  unfold State.devPut
  split
  · exact ok
  · exact .homeWrite ok

theorem Keeps.devWrite {ctx va : Nat} {bs : List Byte} (ok : Keeps a s) : Keeps a (s.devWrite ctx va bs) :=
  .foldl ok fun _ _ ok => .devPut ok

theorem Keeps.evictTlb {r : TlbRef} {p : TlbEnt → Bool} (ok : Keeps a s) : Keeps a (s.evictTlb r p) := by
  unfold State.evictTlb
  split
  · exact .modCore ok
  · exact .modCore ok
  · exact .modDie ok

/-! ## Shared operations: counting, retirement and faults (03, 14 R208, 26) -/

theorem Keeps.modG {f : Group → Group} (ok : Keeps a s) : Keeps a (s.modG r f) := .modGroup ok

theorem Keeps.pass {loud : Bool} (ok : Keeps a s) : Keeps a (x.pass h loud s) := .modG ok

theorem Keeps.finish {i : Instr} {lat : Nat} {ws : List (Loc × DWord × DWord)} (ok : Keeps a s) :
    Keeps a (x.finish i h lat ws s) :=
  .modG ok

theorem Keeps.finishNow {ws : List (Loc × DWord × DWord)} (ok : Keeps a s) : Keeps a (x.finishNow h ws s) := .modG ok

theorem Keeps.hold {hd : Hold} {loud : Bool} (ok : Keeps a s) : Keeps a (x.hold h hd loud s) := .modG ok

theorem Keeps.passHeld {words : Nat} (ok : Keeps a s) : Keeps a (s.passHeld r words) := .modG ok

theorem Keeps.countItems {lid : Nat} {e : Ending} {items : List Nat} (ok : Keeps a s) :
    Keeps a (s.countItems lid e items) := by
  unfold State.countItems
  dsimp only
  split
  · exact ok
  · exact .ite (.modQueue (.modLaunch ok)) (.modLaunch ok)

theorem Keeps.retireTeam {t : Nat} (ok : Keeps a s) : Keeps a (s.retireTeam t) := by
  unfold State.retireTeam
  split
  · exact ok
  · split
    · exact ok
    next l _ =>
      extract_lets _ _ _ s1 s2 s3 s4
      have ok1 : Keeps a s1 := .countItems ok
      have ok2 : Keeps a s2 := by
        unfold s2
        split
        · split
          · exact .modLaunch ok1
          · exact ok1
        · exact .countItems ok1
      have ok4 : Keeps a s4 := by
        unfold s4
        split
        · exact .modLaunch (.modTeam ok2)
        · exact .modTeam ok2
      exact .modCore ok4

theorem Keeps.setBarInst {cluster : Bool} {b : BarInst} (ok : Keeps a s) : Keeps a (s.setBarInst tm cluster b) := by
  unfold State.setBarInst
  split
  · split
    · exact .modCluster ok
    · exact ok
  · exact .modTeam ok

theorem Keeps.setBarDone {cluster : Bool} {l : List BarInst} (ok : Keeps a s) :
    Keeps a (s.setBarDone tm cluster l) := by
  unfold State.setBarDone
  split
  · split
    · exact .modCluster ok
    · exact ok
  · exact .modTeam ok

theorem Keeps.closeBar {t : Nat} {cluster : Bool} (ok : Keeps a s) : Keeps a (s.closeBar t cluster) := by
  unfold State.closeBar
  dsimp only
  split
  · exact ok
  · exact .ite (.setBarInst (.setBarDone ok)) ok

theorem Keeps.clearRaces {core t gi : Nat} (ok : Keeps a s) : Keeps a (s.clearRaces core t gi) :=
  .modTeam (.modCore ok)

theorem Keeps.retireGroup {t gi : Nat} (ok : Keeps a s) : Keeps a (s.retireGroup t gi) := by
  unfold State.retireGroup
  dsimp only
  split
  · exact ok
  · split
    · exact .modCore (.clearRaces (.closeBar (.closeBar (.modTeam ok))))
    · exact .ite (.retireTeam (.modCore (.clearRaces (.closeBar (.closeBar (.modTeam ok))))))
        (.modCore (.clearRaces (.closeBar (.closeBar (.modTeam ok)))))

theorem Keeps.killGroup {t gi : Nat} (ok : Keeps a s) : Keeps a (s.killGroup t gi) := by
  unfold State.killGroup
  split
  · exact ok
  · split
    · exact ok
    · exact .ite (.retireGroup (.countItems ok)) ok

theorem Keeps.killTeam {t : Nat} (ok : Keeps a s) : Keeps a (s.killTeam t) := by
  unfold State.killTeam
  dsimp only
  split
  · exact ok
  · split
    · exact .foldl ok fun _ _ ok => .killGroup ok
    · exact .ite (.foldl ok fun _ _ ok => .killGroup ok) (.retireTeam (.foldl ok fun _ _ ok => .killGroup ok))

theorem Keeps.killLaunch {l : Nat} (ok : Keeps a s) : Keeps a (s.killLaunch l) :=
  .foldl (.modLaunch ok) fun _ _ ok => .killTeam ok

theorem Keeps.logFault {lid : Nat} {entry : List Byte} (ok : Keeps a s) : Keeps a (s.logFault lid entry) := by
  unfold State.logFault
  dsimp only
  split
  · exact ok
  · exact .modLaunch (.devWrite (.devWrite ok))

theorem Keeps.killLanes {lanes : Word} {fetch : Bool} (ok : Keeps a s) : Keeps a (s.killLanes r lanes fetch) := by
  unfold State.killLanes
  dsimp only
  split
  · exact ok
  · split
    · exact ok
    · exact .ite (.modTeam ok) (.modGroup (.countItems (.modTeam ok)))

theorem Keeps.kself {lv : Nat} {lanes : Word} {fetch : Bool} (ok : Keeps a s) : Keeps a (s.kself tm lv r lanes fetch) :=
  .ite (.killLanes ok) (.ite (.killGroup ok) (.ite (.killTeam ok)
    (.ite (.foldl ok fun _ _ ok => .killTeam ok) (.killLaunch ok))))

theorem Keeps.suspend {lid seq : Nat} (ok : Keeps a s) : Keeps a (s.suspend lid seq) :=
  .frame ok

theorem Keeps.contain {f : FInfo} {eng : Option EFault} (ok : Keeps a s) : Keeps a (s.contain r f eng).1 := by
  unfold State.contain
  dsimp only
  split
  · exact ok
  · split
    · split
      · exact .suspend (.modSplit (.modLaunch (.tell (.logFault (.modGroup (.modGroup (.modLaunch ok)))))))
      · exact .modSplit (.modLaunch (.tell (.modGroup (.modGroup (.modLaunch ok)))))
      · exact .logFault (.modGroup (.modGroup (.modLaunch ok)))
      · exact .modGroup (.modGroup (.modLaunch ok))
      · exact .modSplit (.kself (.modSplit (.logFault (.modGroup (.modGroup (.modLaunch ok))))))
    · exact ok

theorem Keeps.groupFault {c : Cause} {addr : DWord} (ok : Keeps a s) : Keeps a (x.groupFault h c addr s) := by
  unfold Iss.groupFault
  dsimp only
  split
  · next e => exact .pass (.of_fst (.contain ok) e)
  · next e => exact .of_fst (.contain ok) e

theorem Keeps.itemFaults {fs : List LFault} (ok : Keeps a s) : Keeps a (x.itemFaults fs s).s := by
  unfold Iss.itemFaults
  dsimp only
  refine .foldl_on FOut.s ok fun _ _ ok => ?_
  split
  · exact ok
  · split
    · next e => exact .of_fst (.contain ok) e
    · next e => exact .of_fst (.contain ok) e
    · next e => exact .of_fst (.contain ok) e

theorem Keeps.afterFaults {o : FOut} {go : State → State} (ok : Keeps a o.s) (hgo : ∀ t, Keeps a t → Keeps a (go t)) :
    Keeps a (x.afterFaults o go) := by
  unfold Iss.afterFaults
  split
  · exact ok
  · split
    · exact .modSplit ok
    · exact .ite (hgo _ ok) ok

theorem Keeps.uniFaults {fs : List LFault} {zero : List (Loc × DWord × DWord)} (ok : Keeps a s) :
    Keeps a (x.uniFaults h fs zero s) :=
  .afterFaults (.itemFaults ok) (fun _ ok => .ite (.pass ok) (.finishNow ok))

theorem Keeps.issue {i : Instr} {op : Nat} {body : Iss → State → State} (ok : Keeps a s)
    (hbody : ∀ y t, Keeps a t → Keeps a (body y t)) : Keeps a (x.issue i h op body s) := by
  unfold Iss.issue
  split
  · exact hbody _ _ ok
  · exact .pass ok
  · exact .groupFault ok
  · exact .uniFaults ok

theorem Kept.withIssue {i : Instr} {body : Iss → State → State} (ok : Keeps a s)
    (hbody : ∀ y t, Keeps a t → Keeps a (body y t)) : Kept a (withIssue i s body) := by
  unfold Machine.withIssue
  split
  · exact .next (.issue ok (fun _ _ ok => hbody _ _ ok))
  · exact .fault

theorem Keeps.uniform {body : Iss → State → State} (ok : Keeps a s) (hbody : ∀ y t, Keeps a t → Keeps a (body y t)) :
    Keeps a (uniform h body x s) :=
  .ite (hbody _ _ ok) (.pass ok)

theorem Keeps.bumpRegion {t gi : Nat} (ok : Keeps a s) : Keeps a (s.bumpRegion t gi) := by
  unfold State.bumpRegion
  dsimp only
  split
  · exact ok
  · split
    · exact ok
    · exact .ite (.modGroup ok) (.clearRaces (.modGroup ok))

/-! ## Fetch -/

theorem Keeps.fetchFill {n : Nat} (ok : Keeps a s) : Keeps a (s.fetchFill x n) := .fillTlb ok

theorem Keeps.takeFetchFault {f : FInfo} (ok : Keeps a s) : Keeps a (x.takeFetchFault f s) := .contain ok

theorem Keeps.decodeFault {c : Cause} {w0 : Word} (ok : Keeps a s) : Keeps a (x.decodeFault c w0 s) := .groupFault ok

/-! ## Engine operations (14 R213, R219) -/

theorem Keeps.keepFault {t gi : Nat} {f : EFault} (ok : Keeps a s) : Keeps a (s.keepFault t gi f) := .modGroup ok

theorem Keeps.barUpdateOn {t gi : Nat} {o : Op} {last : Bool} {target : Nat} (ok : Keeps a s) :
    Keeps a (s.barUpdateOn t gi o last target) := by
  unfold State.barUpdateOn
  split
  · split
    · exact .modTeam ok
    · exact .keepFault ok
  · exact ok

theorem Keeps.barUpdate {t gi : Nat} {o : Op} {last : Bool} (ok : Keeps a s) : Keeps a (s.barUpdate t gi o last) := by
  unfold State.barUpdate
  split
  · exact .foldl ok fun _ _ ok => .barUpdateOn ok
  · exact .barUpdateOn ok

theorem Keeps.ignoreEngine {t gi : Nat} {f : EFault} (ok : Keeps a s) : Keeps a (s.ignoreEngine t gi f) := by
  unfold State.ignoreEngine
  split
  · exact ok
  · split
    · exact .barUpdateOn ok
    · exact .barUpdate ok

theorem Keeps.engineFault {f : EFault} (ok : Keeps a s) : Keeps a (x.engineFault f s).1 := by
  unfold Iss.engineFault
  dsimp only
  split
  · next e => exact .ignoreEngine (.of_fst (.contain (.modG ok)) e)
  · exact .contain (.modG ok)

theorem Keeps.observeN {sel : EFault → Bool} {go : Iss → State → State} (hgo : ∀ y t, Keeps a t → Keeps a (go y t)) :
    ∀ {n : Nat} {x : Iss} {s : State}, Keeps a s → Keeps a (x.observeN sel go n s)
  | 0, x, _, ok => hgo x _ ok
  | n + 1, x, s, ok => by
    unfold Iss.observeN
    dsimp only
    split
    · exact hgo _ _ ok
    · split
      · exact .engineFault ok
      · split
        · exact .engineFault ok
        · exact .ite (.observeN hgo (.engineFault ok)) (.engineFault ok)

theorem Keeps.observe {sel : EFault → Bool} {go : Iss → State → State} (ok : Keeps a s)
    (hgo : ∀ y t, Keeps a t → Keeps a (go y t)) : Keeps a (x.observe sel go s) := .observeN hgo ok

theorem Keeps.endEngine {t gi : Nat} {o : Op} {fs : List EFault} (ok : Keeps a s) : Keeps a (s.endEngine t gi o fs) :=
  .modGroup (.ite (.barUpdate ok) (.foldl ok fun _ _ ok => .keepFault ok))

end

end Sys2Proof.Machine
end

section
/-! PROOFS. Register instructions, loads, stores, atomics, fences, copies and the matrix array keep both forms
(chapters 9 to 16). -/

namespace Sys2Proof.Machine

-- The theorems are many and short: checked side by side, their threads pass the memory of the check.
set_option Elab.async false

section
variable {a s : State} {x : Iss} {h : Hdr} {r : SRef} {o : ORef} {tm : Team}

/-! ## Register instructions (chapters 9 and 10) -/

theorem Keeps.result {i : Instr} {ws : List (Loc × DWord × DWord)} (ok : Keeps a s) : Keeps a (x.result i h ws s) :=
  .finish ok

theorem Kept.scalarOp {i : Instr} {sd : Reg} {f : Iss → State → DWord} (ok : Keeps a s) :
    Kept a (scalarOp i h sd f s) :=
  .withIssue ok (fun _ _ ok => .uniform ok (fun _ _ ok => .result ok))

theorem Kept.vecOp {i : Instr} {t : ElemTy} {vd : Reg} {f : Iss → State → Nat → DWord} (ok : Keeps a s) :
    Kept a (vecOp i h t vd f s) :=
  .withIssue ok (fun _ _ ok => .result ok)

theorem Kept.intOp {i : Instr} {t : ElemTy} {vd va : Reg} {b : BSrc} {f : Int → Int → Int} (ok : Keeps a s) :
    Kept a (intOp i h t vd va b f s) :=
  .vecOp ok

theorem Kept.carryOp {i : Instr} {sub : Bool} {t : ElemTy} {vd va : Reg} {b : BSrc} {kc : Reg} (ok : Keeps a s) :
    Kept a (carryOp i sub h t vd va b kc s) :=
  .withIssue ok (fun _ _ ok => .result ok)

theorem Kept.bitOp {i : Instr} {t : ElemTy} {vd va : Reg} {b : BSrc} {f : DWord → DWord → DWord} (ok : Keeps a s) :
    Kept a (bitOp i h t vd va b f s) :=
  .vecOp ok

theorem Kept.execAndn {t : ElemTy} {vd va : Reg} {b : BSrc} (ok : Keeps a s) : Kept a (execAndn h t vd va b s) :=
  .bitOp ok

theorem Kept.shiftOp {i : Instr} {t : ElemTy} {vd va : Reg} {b : BSrc} {f : Nat → Nat → Nat} (ok : Keeps a s) :
    Kept a (shiftOp i h t vd va b f s) :=
  .vecOp ok

theorem Kept.execShl {t : ElemTy} {vd va : Reg} {b : BSrc} (ok : Keeps a s) : Kept a (execShl h t vd va b s) :=
  .shiftOp ok

theorem Kept.execShr {t : ElemTy} {vd va : Reg} {b : BSrc} (ok : Keeps a s) : Kept a (execShr h t vd va b s) :=
  .shiftOp ok

theorem Kept.execSar {t : ElemTy} {vd va : Reg} {b : BSrc} (ok : Keeps a s) : Kept a (execSar h t vd va b s) :=
  .shiftOp ok

theorem Kept.execRot {t : ElemTy} {vd va : Reg} {b : BSrc} (ok : Keeps a s) : Kept a (execRot h t vd va b s) :=
  .shiftOp ok

theorem Kept.countOp {i : Instr} {t : ElemTy} {vd : Reg} {b : BSrc} {f : Nat → Nat → Nat} (ok : Keeps a s) :
    Kept a (countOp i h t vd b f s) :=
  .withIssue ok (fun _ _ ok => .result ok)

theorem Keeps.fpFinish {i : Instr} {ws : List (Loc × DWord × DWord)} (ok : Keeps a s) : Keeps a (x.fpFinish i h ws s) :=
  .ite (.result ok) (.finishNow ok)

theorem Kept.fpOp {i : Instr} {f : Iss → State → Nat → LaneOut} (ok : Keeps a s) : Kept a (fpOp i h f s) :=
  .withIssue ok (fun _ _ ok => .ite (.fpFinish ok) (.afterFaults (.itemFaults ok)
    (fun _ ok => .ite (.pass ok) (.finishNow ok))))

theorem Kept.maskOp {i : Instr} {kd : Reg} {f : Iss → Word} (ok : Keeps a s) : Kept a (maskOp i h kd f s) :=
  .withIssue ok (fun _ _ ok => .uniform ok (fun _ _ ok => .result ok))

/-! ## Accesses of classes 0x8 and 0x9 (12, 14) -/

theorem Keeps.raceNote {w : Where} {wr : Bool} (ok : Keeps a s) : Keeps a (x.raceNote s w wr) := by
  unfold Iss.raceNote
  dsimp only
  refine .foldl ok fun _ _ ok => ?_
  split
  · exact .modTeam ok
  · exact .modCore ok

theorem Keeps.reachAll {plain wr : Bool} {reach : Nat → Except LFault Where} {lanes : List Nat} (ok : Keeps a s) :
    Keeps a (x.reachAll plain wr reach lanes s).s := by
  unfold Iss.reachAll
  dsimp only
  refine .fillTlb ?_
  refine .foldl_on Reached.s ok fun _ _ ok => ?_
  split
  · exact ok
  · split
    · exact ok
    · split
      · exact .raceNote ok
      · exact ok

theorem Keeps.settleOp {op : Nat} {loud : Bool} {zero : Word → List (Loc × DWord × DWord)} {o : FOut}
    (ok : Keeps a o.s) : Keeps a (x.settleOp h op loud zero o) :=
  .afterFaults (.modG ok) (fun _ ok => .pass ok)

theorem Keeps.issueOp {kind : OpKind} {ctr : Nat} {fp : List Region} {ord : Order} {sc : Scope} {loud : Bool}
    {fs : List LFault} {zero : Word → List (Loc × DWord × DWord)} (ok : Keeps a s) :
    Keeps a (x.issueOp h kind ctr fp ord sc loud fs zero s) := by
  unfold Iss.issueOp
  split
  · exact ok
  · split
    · exact ok
    · split
      extract_lets s1 s2
      have issued : Keeps a s2 := .ite (.modG ok) (.bumpRegion (.modG ok))
      exact .ite (.pass issued) (.settleOp (.itemFaults issued))

theorem Keeps.uniOpFault {empty : OpKind} {ctr : Nat} {zero : List (Loc × DWord × DWord)} {f : LFault}
    (ok : Keeps a s) : Keeps a (x.uniOpFault h empty ctr zero f s) := by
  unfold Iss.uniOpFault
  dsimp only
  refine .afterFaults ?_ (fun _ ok => .ite (.pass ok) (.finishNow ok))
  split
  · exact .modG (.itemFaults ok)
  · split
    · exact .modG (.itemFaults ok)
    · exact .itemFaults ok

theorem Keeps.emptyOrder {ord : Order} {sc : Scope} (ok : Keeps a s) : Keeps a (x.emptyOrder h ord sc s) :=
  .ite (.pass ok) (.ite ok (.pass (.bumpRegion (.orderActs ok))))

theorem Keeps.accTouch {w : Where} (ok : Keeps a s) : Keeps a (s.accTouch tm w) := by
  unfold State.accTouch
  split
  · exact ok
  · exact .grpTouch ok

theorem Keeps.accWrite {w : Where} {d : List Byte} (ok : Keeps a s) : Keeps a (s.accWrite tm w d) := by
  unfold State.accWrite
  split
  · exact .modTeam ok
  · exact .grpWrite ok

theorem Keeps.atomPrep {core : Nat} {bs : List PByte} (ok : Keeps a s) : Keeps a (s.atomPrep core bs) :=
  .foldl ok fun _ _ ok => .ite (.evictL1 ok) (.evictDc (.wbDie (.evictL1 ok)))

theorem Keeps.atomWrite {red : Bool} {w : Where} {d : List Byte} (ok : Keeps a s) :
    Keeps a (s.atomWrite tm red w d) := by
  unfold State.atomWrite
  dsimp only
  split
  · exact .modTeam ok
  · split
    · exact ok
    · exact .ite (.foldl ok fun _ _ ok => .memLine ok) (.ite (.foldl ok fun _ _ ok => .memLine (.homeFlush ok))
        (.homeWrite ok))

theorem Keeps.storeBytes {w : Where} {d : List Byte} {m : BitVec 16} (ok : Keeps a s) :
    Keeps a (s.storeBytes tm w d m) := by
  unfold State.storeBytes
  split
  · exact .modTeam ok
  · exact .grpWrite ok

theorem Keeps.storeLanes {n : Nat} {accs : List LaneAcc} {sel : LaneAcc → BitVec 16} (ok : Keeps a s) :
    Keeps a (s.storeLanes tm n accs sel) :=
  .foldl ok fun _ _ ok => .storeBytes ok

theorem Keeps.doAtomic {op : Option AtomOp} {t : ElemTy} {rd : Option Nat} {accs : List LaneAcc} (ok : Keeps a s) :
    Keeps a (s.doAtomic tm op t rd accs).s := by
  unfold State.doAtomic
  refine .foldl_on Performed.s (.foldl ok fun _ _ ok => ?_) fun _ _ ok => .ite (.atomWrite ok) ok
  split
  · exact ok
  · exact .atomPrep ok

theorem Keeps.storeRest {n : Nat} {accs : List LaneAcc} (ok : Keeps a s) : Keeps a (s.storeRest tm n accs) :=
  .ite (.foldl ok fun _ _ ok => .accWrite ok) (.storeLanes ok)

theorem Keeps.doAccess {k : OpKind} (ok : Keeps a s) : Keeps a (s.doAccess tm k).s := by
  unfold State.doAccess
  split
  · exact .foldl ok fun _ _ ok => .accTouch ok
  · exact ok
  · exact .accTouch ok
  · exact .frame (.grpTouch ok)
  · exact .storeRest ok
  · exact .doAtomic ok
  · exact ok
  · exact .modTeam ok
  · exact ok
  · exact ok

theorem Keeps.performOp {o : Op} (ok : Keeps a s) : Keeps a (s.performOp tm o).s := by
  unfold State.performOp
  dsimp only
  split
  · exact .acquire (.doAccess (.ite (.release ok) ok))
  · exact .doAccess (.ite (.release ok) ok)

theorem Keeps.placeMark {f : FifoRef} (ok : Keeps a s) : Keeps a (s.placeMark f) := by
  have placed : Keeps a (match f with
      | .core c => s.modCore c fun y => { y with fifo := y.fifo ++ [FEnt.mark s.nextMark] }
      | .die d => s.modDie d fun y => { y with fifo := y.fifo ++ [FEnt.mark s.nextMark] }) := by
    split
    · exact .modCore ok
    · exact .modDie ok
  exact .frame placed

theorem Keeps.pushRelease (ok : Keeps a s) : Keeps a (s.pushRelease r) := by
  unfold State.pushRelease
  dsimp only
  split
  · exact ok
  · split
    · exact ok
    · split
      · exact .ite (.modSplit (.placeMark ok)) ok
      · exact ok

theorem Keeps.pushReleases (ok : Keeps a s) : Keeps a (s.pushReleases) := .foldl ok fun _ _ ok => .pushRelease ok

theorem Kept.execMemoryAccessCompletion (ok : Keeps a s) : Kept a (execMemoryAccessCompletion o s) := by
  unfold Machine.execMemoryAccessCompletion
  dsimp only
  split
  · exact .next ok
  · exact .ite (.next (.pushReleases (.modGroup (.performOp ok)))) (.next ok)

theorem Keeps.performEarly (ok : Keeps a s) : Keeps a (s.performEarly o) := by
  unfold State.performEarly
  dsimp only
  split
  · exact ok
  · exact .ite (.modGroup (.performOp ok)) ok

theorem Keeps.performPiece {k : Nat} (ok : Keeps a s) : Keeps a (s.performPiece o k) := by
  unfold State.performPiece
  dsimp only
  split
  · exact ok
  · split
    · apply Keeps.modGroup
      split
      · exact .storeLanes (.ite (.release ok) ok)
      · exact .ite (.release ok) ok
    · exact ok

theorem Keeps.landPart {i : Nat} (ok : Keeps a s) : Keeps a (s.landPart o i) := by
  unfold State.landPart
  split
  · exact ok
  · split
    · split
      · exact ok
      · exact .modGroup ok
    · exact ok

/-! ## Loads, stores and the tag table (14 R194 to R201) -/

theorem Keeps.load {glob : Bool} {sz : BitVec 3} {ma : Bool} {vd : Reg} {m : Mem} {ord : Order} (ok : Keeps a s) :
    Keeps a (x.load h glob sz ma vd m ord s) :=
  .ite (.emptyOrder ok) (.ite ok (.issueOp (.reachAll ok)))

theorem Keeps.store {glob : Bool} {sz : BitVec 3} {ma : Bool} {vd : Reg} {m : Mem} {ord : Order} (ok : Keeps a s) :
    Keeps a (x.store h glob sz ma vd m ord s) :=
  .ite (.emptyOrder ok) (.ite ok (.issueOp (.reachAll ok)))

theorem Kept.execLdk {sz : BitVec 3} {ma : Bool} {sd : Reg} {m : Mem} (ok : Keeps a s) :
    Kept a (execLdk h sz ma sd m s) := by
  unfold Machine.execLdk
  dsimp only
  refine .withIssue ok (fun _ _ ok => ?_)
  refine .uniform ok (fun _ _ ok => ?_)
  split
  · exact ok
  · split
    · exact .uniOpFault (.reachAll ok)
    · exact .issueOp (.reachAll ok)
    · exact .reachAll ok

theorem Kept.execStk {sz : BitVec 3} {ma : Bool} {sd : Reg} {m : Mem} (ok : Keeps a s) :
    Kept a (execStk h sz ma sd m s) := by
  unfold Machine.execStk
  dsimp only
  refine .withIssue ok (fun _ _ ok => ?_)
  refine .uniform ok (fun _ _ ok => ?_)
  split
  · exact ok
  · split
    · exact .uniOpFault (.reachAll ok)
    · exact .issueOp (.reachAll ok)

theorem Kept.execSldk {sd : Reg} {b : SSrc} (ok : Keeps a s) : Kept a (execSldk h sd b s) := by
  unfold Machine.execSldk
  dsimp only
  refine .withIssue ok (fun _ _ ok => ?_)
  refine .uniform ok (fun _ _ ok => ?_)
  split
  · exact ok
  · split
    · exact ok
    · split
      · exact .uniOpFault (.reachAll ok)
      · exact .issueOp (.reachAll ok)
      · exact .reachAll ok

theorem Keeps.tagWrite {entry : BSrc} {key : Nat → Option DWord} (ok : Keeps a s) :
    Keeps a (x.tagWrite h entry key s) :=
  .ite (.pass ok) (.ite ok (.issueOp ok))

theorem Keeps.prefetch {l1 : Bool} {va : DWord} (ok : Keeps a s) : Keeps a (x.prefetch l1 va s) := by
  unfold Iss.prefetch
  dsimp only
  split
  · exact ok
  · split
    · exact ok
    · exact .ite (.fillTlb ok) (.ite (.grpTouch (.fillTlb ok))
        (.foldl (.fillTlb ok) fun _ _ ok => .ite ok (.dieFill ok)))

/-! ## Atomics (14 R202 to R205) -/

theorem Keeps.atomic {glob : Bool} {op : Option AtomOp} {t : ElemTy} {vd : Option Reg} {m : Mem} {vc : Reg}
    (ok : Keeps a s) : Keeps a (x.atomic h glob op t vd m vc s) :=
  .ite (.emptyOrder ok) (.ite ok (.issueOp (.reachAll ok)))

/-! ## Fences and group barriers (14 R206, R207) -/

theorem Keeps.fence {o : Order} {sc : Scope} (ok : Keeps a s) : Keeps a (x.fence h o sc s) := .pushRelease (.hold ok)

theorem Kept.execReleaseDrainComplete {f : FifoRef} (ok : Keeps a s) : Kept a (execReleaseDrainComplete f s) := by
  unfold Machine.execReleaseDrainComplete
  extract_lets q
  split
  · exact .next ok
  · extract_lets ls s1 s2
    have drained : Keeps a s1 := by
      refine .foldl ok fun _ _ ok => ?_
      split
      · exact .wbL1 ok
      · exact .wbDie ok
      · exact ok
    have marked : Keeps a s2 := by
      unfold s2
      split
      · exact .modCore drained
      · exact .modDie drained
    exact .next (.pushReleases marked)

theorem Kept.execFenceComplete (ok : Keeps a s) : Kept a (execFenceComplete r s) := by
  unfold Machine.execFenceComplete
  dsimp only
  split
  · exact .next ok
  · split
    · exact .ite (.next (.bumpRegion (.passHeld (.ite (.acquire ok) ok)))) (.next ok)
    · exact .next ok

theorem Keeps.barArrive {cluster : Bool} {count : Option DWord} (ok : Keeps a s) :
    Keeps a (x.barArrive h cluster count s) := by
  unfold Iss.barArrive
  dsimp only
  split
  · exact .ite (.hold ok) (.pass ok)
  · exact .ite (.hold ok) (.ite (.groupFault ok) (.closeBar (.bumpRegion (.hold (.modG (.setBarInst ok))))))

theorem Kept.execBarInstanceComplete {team : Nat} {cluster : Bool} (ok : Keeps a s) :
    Kept a (execBarInstanceComplete team cluster s) := by
  unfold Machine.execBarInstanceComplete
  dsimp only
  split
  · exact .next ok
  · split
    · exact .next ok
    · exact .ite (.next (.foldl (.setBarDone (.foldl (.foldl ok fun _ _ ok => .release ok)
        fun _ _ ok => .acquire ok)) fun _ _ ok => .passHeld ok)) (.next ok)

/-! ## Copies, barrier registers and waits (14 R209 to R221) -/

theorem Keeps.issueBuilt {b : Built} {fs : List LFault} {zero : Word → List (Loc × DWord × DWord)} {loud : Bool}
    (ok : Keeps a s) : Keeps a (x.issueBuilt h b fs s zero loud) := by
  unfold Iss.issueBuilt
  dsimp only
  split
  · exact ok
  · split
    · exact ok
    · split
      · exact .pass (.modG ok)
      · exact .settleOp (.itemFaults (.modG ok))

theorem Kept.execCpa {bar : Option (BitVec 4)} {size : BitVec 2} {dir : CopyDir} {src dst : Reg} {ds dd : BitVec 16}
    (ok : Keeps a s) : Kept a (execCpa h bar size dir src dst ds dd s) := by
  unfold Machine.execCpa
  refine .withIssue ok (fun _ _ ok => ?_)
  split
  · exact ok
  · split
    · exact .issueBuilt ok

theorem Keeps.tcopy {bar : Option (BitVec 4)} {dir : CopyDir} {dscr : Bool} {src dst : Reg} {desc : DescSrc}
    {id : Option (BitVec 4)} (ok : Keeps a s) : Keeps a (x.tcopy h bar dir dscr src dst desc id s) := by
  unfold Iss.tcopy
  split
  · exact ok
  · split
    · exact .uniFaults ok
    · exact .issueBuilt ok

theorem Keeps.engTo {w : Where} {d : List Byte} (ok : Keeps a s) : Keeps a (s.engTo tm w d) := by
  unfold State.engTo
  split
  · exact .modTeam ok
  · exact .engWrite ok

theorem Keeps.engReady {w : Where} (ok : Keeps a s) : Keeps a (s.engReady tm w) := by
  unfold State.engReady
  split
  · exact ok
  · exact .engPrep ok

theorem Keeps.runCopy {o : Op} {es : List (Nat × Where × Where)} (ok : Keeps a s) : Keeps a (s.runCopy tm o es).1 := by
  unfold State.runCopy
  dsimp only
  have ready : Keeps a (es.foldl (fun s e => s.engReady tm e.2.1) (s.engHull tm.core (tm.ctx s) o.fp)) :=
    .foldl (.engHull ok) fun _ _ ok => .engReady ok
  split
  · exact .foldl ready fun _ _ ok => .engTo ok
  · exact ready

theorem Keeps.runTcopy {o : Op} {bench : Nat} {dir : CopyDir} {src dst : DWord} {esz : Nat} {ns : List Nat}
    {ss ds : List Int} {members : List Nat} (ok : Keeps a s) :
    Keeps a (s.runTcopy tm o bench dir src dst esz ns ss ds members).1 := by
  unfold State.runTcopy
  dsimp only
  refine .frame (.foldl_on Prod.fst (.foldl (.engHull ok) fun _ _ ok => .engReady ok) fun _ _ ok => ?_) rfl rfl rfl
  dsimp only
  split
  · exact .foldl ok fun _ _ ok => .modTeam ok
  · exact .engTo ok

theorem Kept.execCopyCompletion (ok : Keeps a s) : Kept a (execCopyCompletion o s) := by
  unfold Machine.execCopyCompletion
  dsimp only
  split
  · exact .next ok
  · split
    · exact .next ok
    · split
      · exact .ite (.next (.modGroup (.runCopy ok))) (.next (.endEngine (.runCopy ok)))
      · exact .ite (.next (.endEngine (.runCopy ok))) (.next (.endEngine ok))
      · exact .next (.endEngine (.runTcopy ok))
      · exact .next ok

theorem Keeps.setBar {n : Nat} {b : BarReg} {loud : Bool} (ok : Keeps a s) : Keeps a (x.setBar h n b loud s) :=
  .pass (.modTeam ok)

theorem Kept.execBarv {b : BitVec 4} {v : BarVal} (ok : Keeps a s) : Kept a (execBarv h b v s) := by
  unfold Machine.execBarv
  dsimp only
  refine .withIssue ok (fun _ _ ok => ?_)
  refine .uniform ok (fun _ _ ok => ?_)
  split
  · exact ok
  · split
    · exact .groupFault ok
    · split
      · exact .groupFault ok
      · exact .bumpRegion (.setBar (.release ok))

theorem Kept.execBexp {b : BitVec 4} {v : BarVal} (ok : Keeps a s) : Kept a (execBexp h b v s) := by
  unfold Machine.execBexp
  dsimp only
  refine .withIssue ok (fun _ _ ok => ?_)
  refine .uniform ok (fun _ _ ok => ?_)
  split
  · exact .groupFault ok
  · split
    · exact .groupFault ok
    · exact .setBar ok

theorem Keeps.phaseSeen (ok : Keeps a s) : Keeps a (x.phaseSeen s) := .bumpRegion (.acquire ok)

theorem Kept.execBwait {b : BitVec 4} {p : ParVal} (ok : Keeps a s) : Kept a (execBwait h b p s) :=
  .withIssue ok (fun _ _ ok => .uniform ok (fun _ _ ok => .observe ok
    (fun _ _ ok => .ite (.groupFault ok) (.ite (.pass (.phaseSeen ok)) (.hold ok)))))

theorem Kept.execBwaitReturn (ok : Keeps a s) : Kept a (execBwaitReturn r s) := by
  unfold Machine.execBwaitReturn
  split
  · exact .next ok
  · split
    · exact .next (.observe ok (fun _ _ ok => .ite (.passHeld (.phaseSeen ok)) ok))
    · exact .next ok

theorem Kept.execBtest {kd : Reg} {b : BitVec 4} {p : ParVal} (ok : Keeps a s) : Kept a (execBtest h kd b p s) :=
  .withIssue ok (fun _ _ ok => .uniform ok (fun _ _ ok => .observe ok
    (fun _ _ ok => .ite (.groupFault ok) (.result (.ite (.phaseSeen ok) ok)))))

theorem Kept.execWaitn {n : BitVec 8} {t : WaitThr} (ok : Keeps a s) : Kept a (execWaitn h n t s) :=
  .withIssue ok (fun _ _ ok => .uniform ok (fun _ _ ok => .observe ok
    (fun _ _ ok => .ite (.bumpRegion (.pass ok)) (.hold ok))))

theorem Kept.execWaitnReturn (ok : Keeps a s) : Kept a (execWaitnReturn r s) := by
  unfold Machine.execWaitnReturn
  split
  · exact .next ok
  · split
    · exact .next (.observe ok (fun _ _ ok => .ite (.bumpRegion (.passHeld ok)) ok))
    · exact .next ok

theorem Kept.execTriggerFire (ok : Keeps a s) : Kept a (execTriggerFire o s) := by
  unfold Machine.execTriggerFire
  split
  · exact .next ok
  · split
    · exact .next ok
    · exact .ite (.next (.modGroup ok)) (.next ok)

/-! ## The matrix array (16) -/

theorem Keeps.tileDone {f : Group → Group} (ok : Keeps a s) : Keeps a (x.tileDone h f s) := .modG ok

theorem Keeps.queueMat {core cc lat : Nat} (ok : Keeps a s) : Keeps a (s.queueMat core o cc lat) := .modCore ok

theorem Keeps.issueMat {kind : OpKind} {fp : List Region} {cc lat : Nat} (ok : Keeps a s) :
    Keeps a (x.issueMat h kind fp cc lat s) :=
  .ite ok (.queueMat (.issueBuilt ok))

theorem Kept.execMma {async : Bool} {ta tb : ElemTy} {tc : AccTy} {ad va vb : Reg} (ok : Keeps a s) :
    Kept a (execMma h async ta tb tc ad va vb s) := by
  unfold Machine.execMma
  dsimp only
  refine .withIssue ok (fun _ _ ok => ?_)
  split
  · exact ok
  · exact .groupFault ok
  · exact .ite (.issueMat ok) (.ite ok (.frame ok))

theorem Kept.execMmaq {async : Bool} {ta tb : ElemTy} {tc : AccTy} {ad va vb : Reg} (ok : Keeps a s) :
    Kept a (execMmaq h async ta tb tc ad va vb s) := by
  unfold Machine.execMmaq
  dsimp only
  refine .withIssue ok (fun _ _ ok => ?_)
  split
  · exact .groupFault ok
  · split
    · exact ok
    · exact .groupFault ok
    · exact .ite ok (.ite (.groupFault (.modG ok)) (.hold (.modTeam (.ite (.modG (.modG ok)) (.modG ok)))))

theorem Keeps.failQuart {t : Nat} {w : QuartArr} (ok : Keeps a s) : Keeps a (s.failQuart t w) := by
  unfold State.failQuart
  dsimp only
  split
  · exact .modGroup ok
  · exact .groupFault (.modSplit (.modGroup ok))

theorem Keeps.passQuart {t core : Nat} {cols : List (List (List Word) × Word)} {w : QuartArr} (ok : Keeps a s) :
    Keeps a (s.passQuart t core cols w) := by
  unfold State.passQuart
  dsimp only
  split
  · exact .passHeld (.queueMat (.modGroup ok))
  · exact .passHeld (.frame ok)

theorem Kept.execQuartetRendezvous {team quartet : Nat} (ok : Keeps a s) :
    Kept a (execQuartetRendezvous team quartet s) := by
  unfold Machine.execQuartetRendezvous
  dsimp only
  split
  · exact .next ok
  · split
    · exact .next ok
    · exact .ite (.next (.foldl (.modTeam ok) fun _ _ ok => .failQuart ok))
        (.ite (.next ok) (.ite (.next (.foldl (.modTeam ok) fun _ _ ok => .passQuart ok))
          (.next (.foldl (.modTeam ok) fun _ _ ok => .failQuart ok))))

theorem Keeps.mmvRows {bench : Nat} {w st : DWord} {nr n : Nat} (ok : Keeps a s) :
    Keeps a (s.mmvRows tm bench w st nr n).1 := by
  unfold State.mmvRows
  dsimp only
  split
  · exact ok
  · split
    · exact .foldl ok fun _ _ ok => .engReady ok
    · exact .foldl ok fun _ _ ok => .engReady ok

theorem Kept.execMatrixOpStart {core bench : Nat} (ok : Keeps a s) : Kept a (execMatrixOpStart core bench s) := by
  unfold Machine.execMatrixOpStart
  extract_lets _ _ s1
  have purged : Keeps a s1 := .modCore ok
  split
  · exact .next purged
  · split
    · exact .next purged
    · exact .ite (.next purged) (.ite (.next (.frame purged)) (.next (.modCore (.frame purged))))

theorem Kept.execMatrixAsyncCompletion (ok : Keeps a s) : Kept a (execMatrixAsyncCompletion o s) := by
  unfold Machine.execMatrixAsyncCompletion
  split
  · exact .next ok
  · split
    · exact .next ok
    · extract_lets due s1 put
      have taken : Keeps a s1 := .modCore ok
      split
      · exact .next ok
      · split
        · exact .next (.endEngine taken)
        · split
          · exact .next (.endEngine (.frame taken))
          · exact .next (.endEngine (.frame taken))
          · split
            · next e => exact .next (.endEngine (.frame (.of_fst (.mmvRows (.engHull taken)) e)))
            · next e => exact .next (.endEngine (.of_fst (.mmvRows (.engHull taken)) e))
          · exact .next taken

theorem Keeps.tileMove {d : Nat} {sa : Reg} {st : Bool} {go : Nat → State → State} (ok : Keeps a s)
    (hgo : ∀ z0 t, Keeps a t → Keeps a (go z0 t)) : Keeps a (x.tileMove h d sa st go s) := by
  unfold Iss.tileMove
  dsimp only
  split
  · exact ok
  · split
    · exact .uniFaults ok
    · split
      · exact .uniFaults ok
      · split
        · exact ok
        · split
          · exact .uniFaults ok
          · split
            · exact .uniFaults ok
            · exact hgo _ _ (.raceNote ok)

end

end Sys2Proof.Machine
end

section
/-! PROOFS. Gather and scatter, keys, expansion, queues, remote accesses and triggers keep both forms
(chapters 14, 18 to 22, 28). -/

namespace Sys2Proof.Machine

-- The theorems are many and short: checked side by side, their threads pass the memory of the check.
set_option Elab.async false

section
variable {a s : State} {x : Iss} {h : Hdr} {r : SRef} {o : ORef} {tm : Team}

/-! ## Gather and scatter (18) -/

theorem Keeps.firstFault {cs : List (Bool × Cause × DWord)} {go : State → State} (ok : Keeps a s)
    (hgo : ∀ t, Keeps a t → Keeps a (go t)) : Keeps a (x.firstFault h cs go s) := by
  unfold Iss.firstFault
  split
  · exact hgo _ ok
  · exact .groupFault ok
  · exact .uniFaults ok

theorem Keeps.issueScatter {op : Option SMode} {trap f32 : Bool} {sd sh : BitVec 8} {vi : Reg} {n : NSrc}
    {stat : Option GStat} (ok : Keeps a s) : Keeps a (x.issueScatter h op trap f32 sd sh vi n stat s) :=
  .firstFault ok (fun _ ok => .ite ok (.issueBuilt ok))

theorem Keeps.sprayTo {peer : Nat} (ok : Keeps a s) : Keeps a (s.sprayTo peer).2 := by
  rw [State.sprayTo_frame]
  exact .frame ok

/-- A path is chosen for what is sprayed alone (28 R349, R351). -/
theorem Keeps.spraying {peer : Nat} {c : Prop} [Decidable c] {n : Option Nat} {t : State} (ok : Keeps a s)
    (e : (if c then s.sprayTo peer else (none, s)) = (n, t)) : Keeps a t := by
  split at e
  · exact .of_snd (.sprayTo ok) e
  · exact .of_snd ok e

theorem Keeps.post {peer k : Nat} {spray : Bool} (ok : Keeps a s) : Keeps a (s.post o peer k spray) := by
  unfold State.post
  split
  next e => exact .frame (.spraying ok e)

theorem Keeps.reply {peer : Nat} {spray : Bool} {m : Outbox} (ok : Keeps a s) : Keeps a (s.reply peer spray m) := by
  obtain ⟨r, -, -, -, -, -, e⟩ := s.reply_frame peer spray m
  rw [e]
  exact .frame ok

theorem Keeps.answered {peer k : Nat} (ok : Keeps a s) : Keeps a (s.answered o peer k) := .frame ok

theorem Keeps.readyRow {core : Nat} {bs : List PByte} (ok : Keeps a s) : Keeps a (s.readyRow core bs) :=
  .foldl ok fun _ _ ok => .ite (.wbL1 ok) (.wbDie (.wbL1 ok))

theorem Keeps.serveGather {core ctx : Nat} {q : GOp} (ok : Keeps a s) : Keeps a (s.serveGather core ctx q).1 := by
  refine .foldl (s := s) ok fun _ _ ok => ?_
  split
  · exact .readyRow ok
  · exact ok

theorem Kept.execGatherRequestArrival {q : GatherReq} (ok : Keeps a s) : Kept a (execGatherRequestArrival q s) := by
  unfold Machine.execGatherRequestArrival
  dsimp only
  split
  · split
    · exact .next ok
    · split
      · exact .ite (.next ok) (.next (.modGroup (.foldl (.serveGather (.engHull ok)) fun _ _ ok => .post (.send ok))))
      · exact .next ok
  · exact .ite (.next ok) (.next (.reply ok))

theorem Keeps.putScratch {t : Nat} {w : Int} {bs : List Byte} (ok : Keeps a s) : Keeps a (s.putScratch t w bs) :=
  .modTeam ok

theorem Keeps.placeRows {t : Nat} {q : GOp} {which : GSlot → Bool} (ok : Keeps a s) :
    Keeps a (s.placeRows t q which).1 := .foldl (s := s) ok fun _ _ ok => .putScratch ok

theorem Kept.execGatherReplyArrival {pkg : Nat} {pieces : List GPiece} (ok : Keeps a s) :
    Kept a (execGatherReplyArrival o pkg pieces s) := by
  unfold Machine.execGatherReplyArrival
  dsimp only
  split
  · exact .next ok
  · split
    · exact .ite (.next (.answered ok)) (.ite (.next ok) (.next (.modGroup (.placeRows (.ite ok (.answered ok))))))
    · exact .next ok

theorem Keeps.gatherEnd {p : Op} {slots : List GSlot} {per : Nat} {lanes : Word} {stat : Option GStat}
    {key trap : Bool} (ok : Keeps a s) : Keeps a (s.gatherEnd o p slots per lanes stat key trap) :=
  .endEngine (.modGroup ok)

theorem Keeps.endGather {p : Op} {q : GOp} (ok : Keeps a s) : Keeps a (s.endGather o p q) := by
  unfold State.endGather
  dsimp only
  exact .gatherEnd (.ite (.placeRows ok) (.foldl (.placeRows ok) fun _ _ ok => .putScratch ok))

theorem Kept.execGatherCompletion (ok : Keeps a s) : Kept a (execGatherCompletion o s) := by
  unfold Machine.execGatherCompletion
  split
  · exact .next ok
  · split
    · exact .ite (.next (.endGather ok)) (.next ok)
    · exact .next ok

theorem Keeps.sendUpdates {ups : List SUpd} (ok : Keeps a s) : Keeps a (s.sendUpdates o ups).1 :=
  .foldl (s := s) ok fun _ _ ok => .ite ok (.post (.send ok))

theorem Keeps.readScatter {q : SOp} (ok : Keeps a s) : Keeps a (s.readScatter o tm q).1 :=
  .sendUpdates ok

theorem Kept.execScatrSourceRead (ok : Keeps a s) : Kept a (execScatrSourceRead o s) := by
  unfold Machine.execScatrSourceRead
  split
  · exact .next ok
  · split
    · split
      · exact .next ok
      · split
        · next e => exact .next (.modGroup (.of_fst (.readScatter ok) e))
    · exact .next ok

theorem Keeps.applyRow {core : Option Nat} {ctx : Nat} {op : Option SMode} {t : ElemTy} {va : DWord} {rb : Nat}
    {vals : List Word} {row : List Byte} (ok : Keeps a s) : Keeps a (s.applyRow core ctx op t va rb vals row).1 := by
  unfold State.applyRow
  split
  · exact ok
  · extract_lets s1
    have ready : Keeps a s1 := by
      unfold s1
      split
      · exact .atomPrep ok
      · exact ok
    split
    · exact ready
    · exact .foldl ready fun _ _ ok => .foldl ok fun _ _ ok => .memLine (.homeFlush ok)

theorem Kept.execScatterUpdateArrival {u : ScatUpd} (ok : Keeps a s) : Kept a (execScatterUpdateArrival u s) := by
  unfold Machine.execScatterUpdateArrival
  dsimp only
  split
  · split
    · split
      · exact .ite (.next ok) (.next (.modGroup (.applyRow ok)))
      · exact .next ok
    · exact .next ok
  · split
    · split
      · exact .ite (.next ok) (.next (.modGroup (.answered ok)))
      · exact .next ok
    · exact .next ok
  · exact .ite (.next ok) (.next (.reply (.applyRow ok)))

theorem Kept.execScatterCompletion (ok : Keeps a s) : Kept a (execScatterCompletion o s) := by
  unfold Machine.execScatterCompletion
  dsimp only
  split
  · split
    · exact .ite (.next (.gatherEnd (.engHull ok))) (.next ok)
    · exact .next ok
  · exact .next ok

theorem Kept.execHdesc {f : BitVec 6} {sd sh sb : Reg} (ok : Keeps a s) : Kept a (execHdesc h f sd sh sb s) :=
  .withIssue ok (fun _ _ ok => .uniform ok (fun _ _ ok => .ite ok (.ite (.uniOpFault ok) (.issueOp ok))))

theorem Kept.execHdescCompletion (ok : Keeps a s) : Kept a (execHdescCompletion o s) := by
  unfold Machine.execHdescCompletion
  split
  · split
    · exact .next (.modGroup ok)
    · exact .next ok
  · exact .next ok

/-! ## Key lookup (20) -/

theorem Kept.execKlook {trap f32 : Bool} {sd sq sh sk : BitVec 8} {stat : Option GStat} (ok : Keeps a s) :
    Kept a (execKlook h trap f32 sd sq sh sk stat s) := by
  unfold Machine.execKlook
  exact .withIssue ok fun _ _ ok => .firstFault ok fun _ ok => .ite ok (.hold ok)

theorem Keeps.writeRecords {t rec : Nat} {sels : List (Nat × List (Nat × Nat))} {skip : Word} (ok : Keeps a s) :
    Keeps a (s.writeRecords t rec sels skip) :=
  .foldl ok fun _ _ ok => .ite ok (.putScratch ok)

theorem Keeps.startKlook {q : GOp} {rec : Nat} {wait : Bool} (ok : Keeps a s) : Keeps a (x.startKlook q rec wait s) :=
  .modG ok

theorem Kept.execKlookSelectionEnd (ok : Keeps a s) : Kept a (execKlookSelectionEnd r s) := by
  unfold Machine.execKlookSelectionEnd
  dsimp only
  split
  · exact .next ok
  · split
    · split
      · exact .next ok
      · split
        · exact .next (.passHeld (.modSplit (.startKlook (.writeRecords (.reachAll ok)))))
        · apply Kept.next
          refine .afterFaults ?_ (fun _ ok => .passHeld (.modSplit (.startKlook ok)))
          split
          · exact .itemFaults (.writeRecords (.reachAll ok))
          · exact .startKlook (.itemFaults (.writeRecords (.reachAll ok)))
    · exact .next ok

theorem Kept.execKlookGatherCompletion (ok : Keeps a s) : Kept a (execKlookGatherCompletion o s) := by
  unfold Machine.execKlookGatherCompletion
  split
  · exact .next ok
  · split
    · exact .ite (.next (.endGather ok)) (.next ok)
    · exact .next ok

theorem Kept.execKgrad {trap : Bool} {sg sh sk : BitVec 8} {stat : Option GStat} (ok : Keeps a s) :
    Kept a (execKgrad h trap sg sh sk stat s) := by
  unfold Machine.execKgrad
  exact .withIssue ok fun _ _ ok => .firstFault ok fun _ ok => .ite ok (.issueBuilt ok)

/-! ## Expansion (22) -/

theorem Keeps.failSpan {t : Nat} {c : Cause} {w : SpanArr} (ok : Keeps a s) : Keeps a (s.failSpan t c w) := by
  unfold State.failSpan
  dsimp only
  split
  · exact ok
  · exact .groupFault (.modSplit ok)

theorem Keeps.endExpansion {t g size : Nat} (ok : Keeps a s) : Keeps a (s.endExpansion t g size) := by
  unfold State.endExpansion
  dsimp only
  split
  · exact ok
  · refine .foldl ok fun _ _ ok => ?_
    split
    · exact ok
    · exact .ite (.modGroup ok) (.modGroup (.countItems (.modGroup ok)))

theorem Keeps.passSpan {t : Nat} {w : SpanArr} {ws : List (Loc × DWord × DWord)} {own : Bool} (ok : Keeps a s) :
    Keeps a (s.passSpan t w ws own) :=
  .passHeld (.modGroup ok)

theorem Keeps.beginExpansion {t : Nat} {sp : Span} {as : List SpanArr} (ok : Keeps a s) :
    Keeps a (s.beginExpansion t sp as) := by
  unfold State.beginExpansion
  dsimp only
  split
  · refine .foldl ok fun _ _ ok => ?_
    split
    · exact ok
    · exact .ite (.passSpan ok) (.afterFaults (.itemFaults (.modSplit ok)) (fun _ ok => .passSpan ok))
  · exact .foldl ok fun _ _ ok => .passSpan (.modGroup ok)

theorem Keeps.dealMember {t : Nat} {e : Expand} {ms : List Group} {ds : List Dealt} {n : Nat} {w : SpanArr}
    (ok : Keeps a s) : Keeps a (s.dealMember t e ms ds n w) :=
  .passSpan (.modGroup ok)

theorem Keeps.nextRound {t size : Nat} {as : List SpanArr} (ok : Keeps a s) : Keeps a (s.nextRound t size as) := by
  unfold State.nextRound
  dsimp only
  split
  · split
    · exact .foldl ok fun _ _ ok => .passSpan ok
    · exact .ite (.endExpansion (.foldl ok fun _ _ ok => .passSpan ok)) (.foldl ok fun _ _ ok => .dealMember ok)
  · exact ok

theorem Keeps.segFold {t size : Nat} {as : List SpanArr} {op : RedOp} (ok : Keeps a s) :
    Keeps a (s.segFold t size as op) := by
  unfold State.segFold
  dsimp only
  split
  · split
    · exact .foldl ok fun _ _ ok => .passSpan ok
    · exact .foldl ok fun _ _ ok => .passSpan ok
  · exact ok

theorem Keeps.performSpan {t size : Nat} {as : List SpanArr} (ok : Keeps a s) : Keeps a (s.performSpan t size as) := by
  unfold State.performSpan
  split
  · exact ok
  · split
    · exact .foldl ok fun _ _ ok => .failSpan ok
    · split
      · exact .ite (.foldl ok fun _ _ ok => .failSpan ok) (.beginExpansion ok)
      · exact .nextRound ok
      · exact .segFold ok

theorem Keeps.takeSpan {t : Nat} {as : List SpanArr} (ok : Keeps a s) : Keeps a (s.takeSpan t as) := .modTeam ok

theorem Keeps.arriveSpan {size : Nat} {w : SpanArr} (ok : Keeps a s) : Keeps a (x.arriveSpan h size w s) :=
  .ite (.groupFault (.modG ok)) (.ite (.groupFault (.modG ok))
    (.ite (.performSpan (.hold (.modG ok))) (.modTeam (.hold (.modG ok)))))

theorem Kept.execSpanRendezvous {team grp : Nat} (ok : Keeps a s) : Kept a (execSpanRendezvous team grp s) := by
  unfold Machine.execSpanRendezvous
  dsimp only
  split
  · exact .next ok
  · split
    · exact .next ok
    · exact .ite (.next (.foldl (.takeSpan ok) fun _ _ ok => .failSpan ok))
        (.ite (.next ok) (.next (.performSpan (.takeSpan ok))))

theorem Kept.execXabort (ok : Keeps a s) : Kept a (execXabort h s) := by
  unfold Machine.execXabort
  dsimp only
  refine .withIssue ok (fun _ _ ok => ?_)
  refine .uniform ok (fun _ _ ok => ?_)
  split
  · exact .pass ok
  · exact .endExpansion (.foldl (.pass (.takeSpan ok)) fun _ _ ok => .passSpan ok)

/-! ## Queues (22 R297 to R302) -/

theorem Keeps.enqueue {close bins : Bool} {vd va : Reg} {tgt : Nat} {qs : Option (List Nat)} {cls : Nat → Nat}
    (ok : Keeps a s) : Keeps a (x.enqueue h close bins vd va tgt qs cls s) := by
  unfold Iss.enqueue
  dsimp only
  split
  · exact ok
  · split
    · exact .issueBuilt ok
    · exact .issueBuilt ok

theorem Keeps.clearBit {ctx : Nat} {bitmap : DWord} {b : Nat} (ok : Keeps a s) : Keeps a (s.clearBit ctx bitmap b) :=
  .devWrite ok

theorem Keeps.openBlock {l : Launch} {n : Nat} (ok : Keeps a s) : Keeps a (s.openBlock l n) :=
  .ite (.foldl ok fun _ _ ok => .clearBit ok) ok

theorem Appended.keeps {ctx n : Nat} {w : ERow} {t : State} (ok : Keeps a s) (e : s.append1 o ctx w = .item n t) :
    Keeps a t := by
  unfold State.append1 at e
  dsimp only at e
  split at e
  · split at e
    · cases e
    · split at e
      · cases e
      · split at e
        · cases e
        · cases e
          exact .ite (.countItems (.modQueue (.openBlock (.devWrite ok)))) (.modQueue (.openBlock (.devWrite ok)))
  · cases e

theorem Keeps.appendRows {ctx : Nat} {bins : Bool} {rows : List ERow} (ok : Keeps a s) :
    Keeps a (s.appendRows o ctx bins rows).s := by
  unfold State.appendRows
  refine .foldl_on Appends.s ok fun _ _ ok => ?_
  split
  · exact ok
  · split
    · exact ok
    · exact ok
    · next e => exact Appended.keeps ok e

theorem Kept.execQueueAppend (ok : Keeps a s) : Kept a (execQueueAppend o s) := by
  unfold Machine.execQueueAppend
  dsimp only
  split
  · exact .next ok
  · split
    · exact .ite (.next ok) (.ite (.next (.modGroup (.appendRows ok)))
        (.next (.endEngine (.modGroup (.ite (.modQueue (.appendRows ok)) (.appendRows ok))))))
    · exact .next ok

theorem Kept.execQstat {f : BitVec 6} {sd sb : Reg} (ok : Keeps a s) : Kept a (execQstat h f sd sb s) :=
  .withIssue ok (fun _ _ ok => .uniform ok (fun _ _ ok => .ite ok (.ite (.uniOpFault ok) (.issueOp ok))))

theorem Kept.execQstatCompletion (ok : Keeps a s) : Kept a (execQstatCompletion o s) := by
  unfold Machine.execQstatCompletion
  dsimp only
  split
  · split
    · exact .next (.modGroup ok)
    · exact .next ok
  · exact .next ok

/-! ## Remote accesses (28 R352 to R364) -/

theorem Keeps.issueRemote {b : Built × List LFault} (ok : Keeps a s) : Keeps a (x.issueRemote h b s) :=
  .ite ok (.issueBuilt ok)

theorem Keeps.tidyRemote (ok : Keeps a s) : Keeps a (s.tidyRemote o) := .modGroup ok

theorem Keeps.endXfer {lane : Nat} {data : List Byte} {f : Option LFault} (ok : Keeps a s) :
    Keeps a (s.endXfer o lane data f) :=
  .tidyRemote (.modGroup ok)

theorem Keeps.capture1 {t : RXfer} (ok : Keeps a s) : Keeps a (s.capture1 o t) := by
  unfold State.capture1
  split
  · exact ok
  · extract_lets _ _ _ _ _ _ s1 s2
    have read : Keeps a s1 := .modGroup ok
    refine .ite ok (.ite (.endXfer read) (.ite (.endXfer read) ?_))
    split
    next e =>
      split at e
      · exact .frame (.of_snd (.modGroup read) e)
      · exact .frame (.of_snd (.sprayTo (.modGroup read)) e)

theorem Kept.execRetransmitCapture (ok : Keeps a s) : Kept a (execRetransmitCapture o s) := by
  unfold Machine.execRetransmitCapture
  split
  · exact .next ok
  · exact .ite (.next (.foldl ok fun _ _ ok => .capture1 ok)) (.next ok)

theorem Kept.execRemoteLocalCompletion (ok : Keeps a s) : Kept a (execRemoteLocalCompletion o s) := by
  unfold Machine.execRemoteLocalCompletion
  dsimp only
  split
  · exact .next ok
  · split
    · exact .next ok
    · exact .ite (.next (.tidyRemote (.modGroup (.barUpdate ok)))) (.next ok)

theorem Kept.execRrdCompletion {peers : List (Nat × RAns)} (ok : Keeps a s) : Kept a (execRrdCompletion o peers s) := by
  unfold Machine.execRrdCompletion
  dsimp only
  split
  · exact .next ok
  · split
    · exact .ite (.next ok) (.next (.endEngine (.modGroup (.foldl (.frame ok) fun _ _ ok => .modTeam ok))))
    · exact .next ok

theorem Keeps.homePut {bs : List (PByte × Byte)} (ok : Keeps a s) : Keeps a (s.homePut bs) :=
  .foldl ok fun _ _ ok => .ite (.ucWrite ok) (.homeWrite ok)

theorem Keeps.writeLane {src : Nat} {instr : ORef} {lane count : Nat} {bs : List (PByte × Byte)} (ok : Keeps a s) :
    Keeps a (s.writeLane src instr lane count bs) :=
  .ite (.homePut ok) (.frame (.homePut ok))

theorem Keeps.performMsg {src : Nat} {m : RMsg} (ok : Keeps a s) : Keeps a (s.performMsg src m).1 := by
  unfold State.performMsg
  dsimp only
  split
  · split
    · exact ok
    · exact .writeLane ok
  · split
    · exact ok
    · split
      · exact ok
      · exact ok
  · split
    · exact ok
    · split
      · exact ok
      · exact .homePut ok
  · exact ok
  · exact ok

theorem Keeps.arrive {sel : RMsg → Bool} {answer : State → Nat → RMsg → RAns → State} {w : Arrival} (ok : Keeps a s)
    (hanswer : ∀ {t n m r}, Keeps a t → Keeps a (answer t n m r)) : Keeps a (s.arrive sel answer w) := by
  unfold State.arrive
  dsimp only
  split
  · exact ok
  · split
    · split
      · exact ok
      · split
        · split
          · exact .endXfer (.frame (.performMsg ok) rfl rfl rfl)
          · exact .endXfer (.frame (.performMsg ok) rfl rfl rfl)
        · exact ok
    · exact .ite (hanswer (.performMsg ok)) ok

theorem Keeps.acknowledge {src : Nat} {x : RMsg} {w : RAns} (ok : Keeps a s) : Keeps a (s.acknowledge src x w) :=
  .send ok

theorem Keeps.answerRead {src : Nat} {m : RMsg} {w : RAns} (ok : Keeps a s) : Keeps a (s.answerRead src m w) :=
  .reply ok

theorem Keeps.endContrib {c : Contrib} {f : Option LFault} (ok : Keeps a s) : Keeps a (s.endContrib c f) := by
  unfold State.endContrib
  split
  · exact .send ok
  · split
    · exact ok
    · exact .endXfer (.frame ok)

theorem Keeps.closeRound {r : Round} (ok : Keeps a s) : Keeps a (s.closeRound r) := by
  unfold State.closeRound
  dsimp only
  split
  · exact .foldl ok fun _ _ ok => .endContrib ok
  · exact .ite (.foldl ok fun _ _ ok => .endContrib ok) (.foldl (.frame (.homePut ok)) fun _ _ ok => .endContrib ok)

theorem Keeps.joinRound {c : Contrib} {w : Round} {t : State} (ok : Keeps a s) (e : s.joinRound c w = some t) :
    Keeps a t := by
  unfold State.joinRound at e
  extract_lets accept at e
  have accepted : Keeps a (accept s) := by
    unfold accept
    split
    · exact .send ok
    · exact .frame ok
  split at e
  · cases e
    exact .endContrib ok
  · split at e
    · split at e
      · cases e
        exact .endContrib ok
      · cases e
        exact .ite (.closeRound (.frame accepted)) (.frame accepted)
    · split at e
      · cases e
      · cases e
        exact .ite (.closeRound accepted) (.frame accepted)

theorem Kept.execReductionContribution {w : Arrival} (ok : Keeps a s) : Kept a (execReductionContribution w s) := by
  unfold Machine.execReductionContribution
  split
  · exact .next ok
  · split
    · split
      · split
        · exact .ite (.next ok) (.next (.getD ok fun _ e => .joinRound ok e))
        · exact .next ok
      · exact .next ok
    · split
      · exact .next (.getD ok fun _ e => .joinRound ok e)
      · exact .next ok

theorem Kept.execAckReceive {pkt : Nat} {ans : RAns} (ok : Keeps a s) : Kept a (execAckReceive pkt ans s) := by
  unfold Machine.execAckReceive
  dsimp only
  split
  · exact .next (.frame ok)
  · split
    · exact .next ok
    · split
      · exact .next ok
      · exact .next ok
      · exact .next (.endXfer (.frame ok))
      · exact .ite (.next (.endXfer (.frame ok))) (.next (.frame ok))
      · exact .next (.endXfer (.frame ok))

theorem Kept.execRfenceComplete (ok : Keeps a s) : Kept a (execRfenceComplete r s) := by
  unfold Machine.execRfenceComplete
  split
  · exact .next ok
  · split
    · exact .ite (.next (.observe ok (fun _ _ ok => .bumpRegion (.passHeld ok)))) (.next ok)
    · exact .next ok

theorem Kept.execCsig {f : BitVec 6} {sd sp sr : Reg} (ok : Keeps a s) : Kept a (execCsig h f sd sp sr s) :=
  .withIssue ok (fun _ _ ok => .uniform ok (fun _ _ ok => .ite ok
    (.ite (.uniOpFault ok) (.issueOp (.ite (.post (.send ok)) ok)))))

theorem Kept.execCsigRequestArrival {q : SigReq} (ok : Keeps a s) : Kept a (execCsigRequestArrival q s) := by
  unfold Machine.execCsigRequestArrival
  split
  · split
    · split
      · exact .ite (.next (.modGroup ok)) (.next ok)
      · exact .next ok
    · exact .next ok
  · exact .next (.ite ok (.reply ok))

theorem Kept.execCsigCompletion {peer : Option RAns} (ok : Keeps a s) : Kept a (execCsigCompletion o peer s) := by
  unfold Machine.execCsigCompletion
  split
  · exact .next ok
  · split
    · split
      · exact .next ok
      · exact .next (.modGroup (.answered ok))
      · exact .next (.endEngine (.answered ok))
    · exact .next ok

/-! ## Triggered operations (14 R220, R221) -/

theorem Keeps.passUnit {h2 : Hdr} {loud : Bool} (ok : Keeps a s) : Keeps a (x.passUnit h h2 loud s) := .modG ok

theorem Keeps.unitFault {h2 : Hdr} {pc : DWord} {c : Cause} (ok : Keeps a s) : Keeps a (x.unitFault h h2 pc c s) := by
  unfold Iss.unitFault
  dsimp only
  split
  · next e => exact .passUnit (.of_fst (.contain ok) e)
  · next e => exact .of_fst (.contain ok) e

theorem Keeps.unitFaults {y : Iss} {h2 : Hdr} {fs : List LFault} (ok : Keeps a s) :
    Keeps a (x.unitFaults y h h2 fs s) :=
  .afterFaults (.itemFaults ok) (fun _ ok => .passUnit ok)

theorem Keeps.arm {y : Iss} {h2 : Hdr} {c : TrigCond} {t : TrigThr} {b : Built} (ok : Keeps a s) :
    Keeps a (x.arm y h h2 c t b s) :=
  .passUnit (.modG ok)

theorem Keeps.trig {c : TrigCond} {t : TrigThr} (ok : Keeps a s) : Keeps a (x.trig h c t s) := by
  unfold Iss.trig
  dsimp only
  split
  · exact .takeFetchFault ok
  · split
    · exact .unitFault ok
    · exact .unitFault ok
    · split
      · exact .passUnit ok
      · split
        · exact .unitFault ok
        · split
          · exact .passUnit ok
          · split
            · exact .unitFault ok
            · split
              · exact ok
              · split
                · exact ok
                · exact .ite (.unitFaults ok) (.ite ok (.arm ok))

theorem Keeps.takeDecodeFault {c : Cause} {bs : List Byte} (ok : Keeps a s) : Keeps a (x.takeDecodeFault c bs s) := by
  unfold Iss.takeDecodeFault
  dsimp only
  split
  · exact .decodeFault ok
  · split
    · exact .decodeFault ok
    · exact .unitFault ok

theorem Kept.execTrig {c : TrigCond} {t : TrigThr} (ok : Keeps a s) : Kept a (execTrig h c t s) := by
  unfold Machine.execTrig
  split
  · exact .fault
  · exact .next (.trig ok)

end

end Sys2Proof.Machine
end

section
/-! PROOFS. System, launch, scheduling, pre-emption, management, security, network, control and floating-point operations keep both
forms (chapters 9, 10, 24 to 30). -/

namespace Sys2Proof.Machine

-- The theorems are many and short: checked side by side, their threads pass the memory of the check.
set_option Elab.async false

section
variable {a s : State} {x : Iss} {h : Hdr} {r : SRef} {o : ORef} {tm : Team}

/-! ## System instructions (26) -/

theorem Keeps.stop {cause : Cause} {c : BitVec 6} (ok : Keeps a s) : Keeps a (x.stop h cause c s) := by
  unfold Iss.stop
  dsimp only
  split
  · exact ok
  · exact .hold (.tell (.logFault (.modG (.modLaunch ok))))

theorem Kept.execReservedOpcode {w0 : Word} (ok : Keeps a s) : Kept a (execReservedOpcode w0 s) := by
  unfold Machine.execReservedOpcode
  split
  · exact .fault
  · exact .next (.groupFault ok)

/-! ## Launches and graphs (24) -/

theorem Keeps.createLaunch {qn m : Nat} {n : GNode} (ok : Keeps a s) : Keeps a (s.createLaunch qn m n) := by
  unfold State.createLaunch
  extract_lets _ _ _ _ _ _ s1 s2 _ _ s3 s4
  split
  · exact .modQueue (.devWrite ok)
  · have written : Keeps a s2 := .devWrite (.foldl ok fun _ _ ok => .devWrite ok)
    have added : Keeps a s3 := .frame written
    exact .modQueue (.ite (.modQueue added) added)

theorem Keeps.runNode {qn m : Nat} {n : GNode} (ok : Keeps a s) : Keeps a (s.runNode qn m n) :=
  .ite (.createLaunch ok) (.ite (.modQueue ok) (.ite (.ite (.modQueue ok) (.modQueue ok)) (.modQueue ok)))

theorem Keeps.arrival {queue : Nat} {w : GArr} (ok : Keeps a s) : Keeps a (s.arrival queue w) := by
  unfold State.arrival
  dsimp only
  split
  · exact ok
  · exact .ite (.runNode ok) (.ite (.ite (.runNode ok) ok) (.ite ok
      (.ite (.modQueue ok) (.ite (.modQueue (.modQueue ok)) (.runNode (.modQueue ok))))))

theorem Kept.execGraphNodeArrival {queue : Nat} (ok : Keeps a s) : Kept a (execGraphNodeArrival queue s) := by
  unfold Machine.execGraphNodeArrival
  split
  · exact .next ok
  · exact .next (.modQueue (.arrival (.modQueue ok)))

/-! ## Teams and blocks (24) -/

theorem Keeps.dropHeld {lid : Nat} (ok : Keeps a s) : Keeps a (s.dropHeld lid) := by
  unfold State.dropHeld
  split
  · exact ok
  · exact .ite ok (.modLaunch ok)

theorem Keeps.drawBlock {t : Nat} (ok : Keeps a s) : Keeps a (s.drawBlock t) := by
  unfold State.drawBlock
  dsimp only
  split
  · exact ok
  · split
    · exact ok
    · split
      · exact ok
      · exact .dropHeld (.modTeam (.modLaunch (.modTeam ok)))

theorem Kept.execBlockDraw {team : Nat} (ok : Keeps a s) : Kept a (execBlockDraw team s) := by
  unfold Machine.execBlockDraw
  split
  · exact .next ok
  · split
    · exact .next ok
    · exact .next (.ite (.drawBlock ok) ok)

theorem Keeps.setBit {ctx : Nat} {map : DWord} {b : Nat} (ok : Keeps a s) : Keeps a (s.setBit ctx map b) :=
  .devWrite ok

theorem Kept.execBlockComplete {launch block : Nat} (ok : Keeps a s) : Kept a (execBlockComplete launch block s) := by
  unfold Machine.execBlockComplete
  split
  · exact .next ok
  · split
    · exact .next ok
    · extract_lets _ s1 s2
      have released : Keeps a s1 := by
        unfold s1
        split
        · exact .release ok
        · exact ok
      have marked : Keeps a s2 := .foldl released fun _ _ ok => .setBit ok
      exact .ite (.next ok) (.next (.modLaunch marked))

theorem Keeps.onStart {l : Launch} {cores : List Nat} (ok : Keeps a s) : Keeps a (s.onStart l cores) :=
  .foldl (.modLaunch ok) fun _ _ ok => .acquire ok

theorem Keeps.sendTile {l : Launch} (ok : Keeps a s) : Keeps a (s.sendTile l) := .ite ok (.modQueue (.modLaunch ok))

theorem Core.assign_l1 (c : Core) (t : Nat) (gs : List Nat) : (c.assign t gs).l1 = c.l1 := by
  refine foldl_keeps (P := fun y => y.l1 = c.l1) (fun y g e => ?_) gs c rfl
  split
  · exact e
  · exact e

theorem Keeps.startCluster {l : Launch} {cores : List Nat} (ok : Keeps a s) : Keeps a (s.startCluster l cores) :=
  .foldl (.modLaunch (.frame (s := (s.sendTile l).onStart l cores) (.onStart (.sendTile ok)))) fun _ _ ok =>
    .drawBlock (.modCore ok fun _ => Core.assign_l1 ..)

theorem Kept.execTeamStart {launch : Nat} {cores : List Nat} (ok : Keeps a s) :
    Kept a (execTeamStart launch cores s) := by
  unfold Machine.execTeamStart
  dsimp only
  split
  · exact .next ok
  · exact .next (.ite (.startCluster ok) ok)

theorem Kept.execStaggerExpiry {launch island : Nat} (ok : Keeps a s) : Kept a (execStaggerExpiry launch island s) := by
  unfold Machine.execStaggerExpiry
  split
  · exact .next ok
  · split
    · exact .next ok
    · exact .next (.ite (.modLaunch ok) ok)

theorem Keeps.request {t : Nat} {why : PreWhy} (ok : Keeps a s) : Keeps a (s.request t why) := .modTeam ok

theorem Kept.execPriorityPreemption {launch : Nat} (ok : Keeps a s) : Kept a (execPriorityPreemption launch s) := by
  unfold Machine.execPriorityPreemption
  dsimp only
  split
  · exact .next ok
  · split
    · exact .next (.dropHeld ok)
    · split
      · exact .next ok
      · split
        · exact .next ok
        · exact .next (.foldl (.modLaunch ok) fun _ _ ok => .request ok)

theorem Kept.execPartitionReserve {core : Nat} (ok : Keeps a s) : Kept a (execPartitionReserve core s) := by
  unfold Machine.execPartitionReserve
  dsimp only
  split
  · exact .next ok
  · split
    · exact .next (.frame ok)
    · exact .ite (.next (.frame ok)) (.next ok)

theorem Keeps.endLaunch {l : Launch} (ok : Keeps a s) : Keeps a (s.endLaunch l) :=
  .tell (.modQueue (.frame (.ite (.modQueue (.modLaunch (.devWrite (.foldl ok fun _ _ ok => .release ok))))
    (.modLaunch (.devWrite (.foldl ok fun _ _ ok => .release ok))))))

theorem Kept.execLaunchCompletion {launch : Nat} (ok : Keeps a s) : Kept a (execLaunchCompletion launch s) := by
  unfold Machine.execLaunchCompletion
  dsimp only
  split
  · exact .next ok
  · exact .next (.ite (.endLaunch ok) ok)

/-! ## Pre-emption and resumption (26 R337 to R343) -/

theorem Keeps.stopTeam {t : Nat} (ok : Keeps a s) : Keeps a (s.stopTeam t) := .modTeam ok

theorem Keeps.parkTeam {t : Nat} (ok : Keeps a s) : Keeps a (s.parkTeam t) := by
  unfold State.parkTeam
  dsimp only
  split
  · exact ok
  · exact .modTeam (.modCore (.release ok))

theorem Keeps.saveTeam {t slot : Nat} (ok : Keeps a s) : Keeps a (s.saveTeam t slot) := by
  unfold State.saveTeam
  dsimp only
  split
  · exact ok
  · split
    · exact ok
    · exact .modLaunch (.modTeam (.modCore (.devWrite ok)))

theorem Kept.execPreemptionNoticeEnd {team : Nat} (ok : Keeps a s) : Kept a (execPreemptionNoticeEnd team s) := by
  unfold Machine.execPreemptionNoticeEnd
  dsimp only
  split
  · exact .next ok
  · split
    · exact .next (.foldl ok fun _ _ ok => .stopTeam ok)
    · split
      · exact .ite (.next (.saveTeam (.ite (.parkTeam ok) ok))) (.next (.ite (.parkTeam ok) ok))
      · exact .next (.ite (.parkTeam ok) ok)

theorem Keeps.reissueGather {p : Op} {q : GOp} (ok : Keeps a s) : Keeps a (s.reissueGather o tm p q) := by
  unfold State.reissueGather
  dsimp only
  split
  · apply Keeps.endEngine
    split
    · exact ok
    · exact .writeRecords ok
  · apply Keeps.modGroup
    split
    · exact ok
    · exact .writeRecords ok

theorem Keeps.reissue (ok : Keeps a s) : Keeps a (s.reissue o) := by
  unfold State.reissue
  split
  · exact ok
  · split
    · exact ok
    · split
      · exact .reissueGather ok
      · exact .modGroup ok

theorem Keeps.fireTriggers {t : Nat} (ok : Keeps a s) : Keeps a (s.fireTriggers t) := .modTeam ok

theorem Keeps.restoreTeam {t core : Nat} {handles : Map Byte} (ok : Keeps a s) :
    Keeps a (s.restoreTeam t core handles) := by
  unfold State.restoreTeam
  split
  · exact ok
  · extract_lets _ s1
    have assigned : Keeps a s1 := by
      unfold s1
      split
      · exact .modCore (.modLaunch ok) fun _ => Core.assign_l1 ..
      · exact ok
    exact .fireTriggers (.foldl (.modTeam assigned) fun _ _ ok => .reissue ok)

theorem Keeps.badRecord (ok : Keeps a s) : Keeps a (s.badRecord tm) := by
  unfold State.badRecord
  dsimp only
  split
  · exact ok
  · exact .suspend (.tell (.modLaunch ok))

theorem Kept.execTeamResume {team : Nat} {cores : List Nat} (ok : Keeps a s) :
    Kept a (execTeamResume team cores s) := by
  unfold Machine.execTeamResume
  split
  · exact .next ok
  · split
    · refine .ite (.next ok) ?_
      split
      · exact .next (.badRecord ok)
      · exact .next (.foldl (.onStart ok) fun _ _ ok => .restoreTeam ok)
    · exact .next ok

/-! ## Management commands (30 R368) -/

theorem Keeps.dropReport {lid seq : Nat} (ok : Keeps a s) : Keeps a (s.dropReport lid seq) := .modLaunch ok

theorem Keeps.resumeLaunch {lid : Nat} (ok : Keeps a s) : Keeps a (s.resumeLaunch lid) := by
  unfold State.resumeLaunch
  dsimp only
  split
  · exact ok
  · exact .ite ok (.frame ok)

theorem Keeps.goOn {lid : Nat} {r : Report} {pass : Bool} (ok : Keeps a s) : Keeps a (s.goOn lid r pass) := by
  unfold State.goOn
  split
  · split
    · exact ok
    · split
      · exact .ite (.modSplit ok) (.ite (.passHeld (.modG ok)) (.modSplit ok))
      · exact ok
  · exact ok

theorem Kept.execResolveResolved {launch seq : Nat} (ok : Keeps a s) : Kept a (execResolveResolved launch seq s) := by
  unfold Machine.execResolveResolved
  dsimp only
  split
  · exact .next (.tell ok)
  · split
    · exact .next (.tell ok)
    · apply Kept.next
      refine .resumeLaunch ?_
      refine .goOn ?_
      split
      · exact .modG (.dropReport ok)
      · exact .modSplit (.dropReport ok)

theorem Kept.execResolveKill {launch seq : Nat} (ok : Keeps a s) : Kept a (execResolveKill launch seq s) := by
  unfold Machine.execResolveKill
  dsimp only
  split
  · exact .next (.tell ok)
  · split
    · exact .next (.tell ok)
    · apply Kept.next
      refine .resumeLaunch ?_
      refine .goOn ?_
      split
      · split
        · exact .dropReport ok
        · exact .kself (.dropReport ok)
      · apply Keeps.modSplit
        split
        · exact .dropReport ok
        · exact .kself (.dropReport ok)

theorem Kept.execResolveEnd {launch seq : Nat} (ok : Keeps a s) : Kept a (execResolveEnd launch seq s) := by
  unfold Machine.execResolveEnd
  split
  · exact .next (.tell ok)
  · split
    · exact .next (.tell ok)
    · exact .next (.killLaunch ok)

theorem Kept.execRelease {launch seq : Nat} (ok : Keeps a s) : Kept a (execRelease launch seq s) := by
  unfold Machine.execRelease
  dsimp only
  split
  · exact .next (.tell ok)
  · split
    · exact .next (.tell ok)
    · split
      · exact .next (.ite (.passHeld (.dropReport ok)) (.dropReport ok))
      · exact .next (.dropReport ok)

theorem Keeps.preemptTeam {t : Team} (ok : Keeps a s) : Keeps a (s.preemptTeam t) := .modTeam (.request ok)

theorem Keeps.pause {t : PreTgt} {b : Bool} (ok : Keeps a s) : Keeps a (s.pause t b) := by
  unfold State.pause
  split
  · exact .modLaunch ok
  · exact ok

theorem Kept.execInvalidationComplete {id : Nat} (ok : Keeps a s) : Kept a (execInvalidationComplete id s) := by
  unfold Machine.execInvalidationComplete
  dsimp only
  split
  · exact .next ok
  · exact .ite (.next ok) (.next (.tell (.frame (.dropTlb ok))))

/-! ## Security and resets (30) -/

theorem Keeps.modTdi {t : Nat} {f : Tdi → Tdi} (ok : Keeps a s) : Keeps a (s.modTdi t f) := .frame ok

theorem Keeps.agreeIde {t : Nat} {k : BitVec 256} (ok : Keeps a s) : Keeps a (s.agreeIde t k) := .ite (.modTdi ok) ok

theorem Keeps.tdisp {t : Nat} {f : Tdi → State × TdispAns} (ok : Keeps a s) (hf : ∀ z0, Keeps a (f z0).1) :
    Keeps a (s.tdisp t f) :=
  .ite (.tell (hf _)) ok

theorem Keeps.tdispOther {t : Nat} (ok : Keeps a s) : Keeps a (s.tdispOther t) := .tdisp ok (fun _ => ok)

theorem Kept.execLockInterfaceRequest {t : Nat} (ok : Keeps a s) : Kept a (execLockInterfaceRequest t s) := by
  refine .next (.tdisp ok fun _ => ?_)
  split
  · exact .frame ok
  · exact ok

theorem Kept.execStartInterfaceRequest {t : Nat} (ok : Keeps a s) : Kept a (execStartInterfaceRequest t s) := by
  refine .next (.tdisp ok fun _ => ?_)
  split
  · exact .frame ok
  · exact ok

theorem Keeps.loseTeam {t : Team} (ok : Keeps a s) : Keeps a (s.loseTeam t) := by
  unfold State.loseTeam
  dsimp only
  split
  · exact ok
  · exact .modTeam (.frame (.countItems ok))

theorem Keeps.reportLoss {lid team n : Nat} (ok : Keeps a s) : Keeps a (s.reportLoss lid team n) := by
  unfold State.reportLoss
  dsimp only
  split
  · exact ok
  · split
    · exact .tell (.logFault (.frame ok))
    · exact .killLaunch (.tell (.logFault (.frame ok)))
    · exact .suspend (.tell (.modLaunch (.tell (.logFault (.frame ok)))))

theorem Keeps.resetDie {d : Nat} (ok : Keeps a s) : Keeps a (s.resetDie d) := by
  unfold State.resetDie
  dsimp only
  refine .foldl ?_ fun _ _ ok => .reportLoss ok
  refine .modDc ?_ fun _ _ _ => LinesOk.nil
  refine .foldl ?_ fun _ _ ok => .modL1 ok fun _ _ _ => LinesOk.nil
  exact .foldl (.foldl ok fun _ _ ok => .evictDc ok) fun _ _ ok => .loseTeam ok

theorem Keeps.killVf {vf : Nat} (ok : Keeps a s) : Keeps a (s.killVf vf) := .foldl ok fun _ _ ok => .killLaunch ok

theorem Keeps.stopped {t : Nat} (ok : Keeps a s) : Keeps a (s.stopped t) := .tell (.modTdi ok)

theorem Keeps.stopAnswer {t : Nat} (ok : Keeps a s) : Keeps a (s.stopAnswer t) := .ite (.stopped (.frame ok)) ok

theorem Kept.execStopInterfaceRequest {t : Nat} (ok : Keeps a s) : Kept a (execStopInterfaceRequest t s) :=
  .next (.ite (.ite (.stopped (.resetDie (.modTdi ok))) (.stopAnswer (.frame (.killVf (.modTdi ok))))) ok)

theorem Keeps.alarm (ok : Keeps a s) : Keeps a s.alarm := .frame ok

theorem Keeps.readTelemetry (ok : Keeps a s) : Keeps a (s.readTelemetry) := .ite ok (.tell (.frame ok))

theorem Kept.execPackageReset (ok : Keeps a s) : Kept a (execPackageReset s) := by
  have idle (d : Nat) : (State.reset.die d).dc = [] := by
    match d with
    | 0 | 1 | 2 | 3 | _ + 4 => rfl
  refine .next ⟨fun h => packageReset_memOk (ok.mem h) rfl, fun _ => (State.cacheOk_iff _).mpr ⟨rfl, fun _ => .nil, ?_⟩⟩
  intro d
  exact (idle d).symm ▸ LinesOk.nil

/-! ## The networks (28 R345 to R352) -/

theorem Keeps.modLink {i : Nat} {f : Link → Link} (ok : Keeps a s) : Keeps a (s.modLink i f) := .frame ok

theorem Kept.execInstallKey {t : KeyTgt} {key : BitVec 256} (ok : Keeps a s) : Kept a (execInstallKey t key s) := by
  unfold Machine.execInstallKey
  dsimp only
  split
  · exact .next (.tell ok)
  · split
    · exact .next (.frame ok)
    · split
      · exact .next (.tell ok)
      · exact .ite (.next (.tell ok)) (.next (.modLink ok))

theorem Keeps.queuePacket {i vc p : Nat} (ok : Keeps a s) : Keeps a (s.queuePacket i vc p) := .modLink ok

theorem Kept.execFlitSend {i : Nat} (ok : Keeps a s) : Kept a (execFlitSend i s) := by
  unfold Machine.execFlitSend
  dsimp only
  split
  · exact .next ok
  · split
    · exact .next ok
    · split
      · exact .next ok
      · exact .ite (.next ok) (.next (.modLink (.frame ok)))

theorem Kept.execFlitReceive {i : Nat} {f : Flit} (ok : Keeps a s) : Kept a (execFlitReceive i f s) := by
  unfold Machine.execFlitReceive
  dsimp only
  split
  · exact .next ok
  · split
    · exact .next ok
    · split
      · exact .next (.ite (.alarm ok) (.modLink ok))
      · exact .ite (.next (.ite (.alarm ok) (.modLink ok))) (.next (.modLink ok))

theorem Keeps.modPeer {p : Nat} {f : PeerTab → PeerTab} (ok : Keeps a s) : Keeps a (s.modPeer p f) := .frame ok

theorem Kept.execSetPaths {peer : Nat} {tiers : List (Nat × List Nat)} (ok : Keeps a s) :
    Kept a (execSetPaths peer tiers s) := by
  unfold Machine.execSetPaths
  dsimp only
  split
  · exact .next (.tell ok)
  · exact .ite (.next (.tell ok)) (.next (.frame ok))

theorem Kept.execRetransmitTimeout {pkt : Nat} (ok : Keeps a s) : Kept a (execRetransmitTimeout pkt s) := by
  unfold Machine.execRetransmitTimeout
  split
  · split
    · exact .next ok
    · split
      next e => exact .next (.frame (.spraying ok e))
  · split
    · split
      next e => exact .next (.frame (.spraying ok e))
    · exact .next (.ite (.frame ok) ok)

theorem Keeps.losePeer {peer : Nat} (ok : Keeps a s) : Keeps a (s.losePeer peer) := by
  unfold State.losePeer
  extract_lets ps s1 s2
  have ended : Keeps a s2 := .foldl (s := s1) (.frame ok) fun _ _ ok => .endXfer ok
  exact .frame ended

/-! ## Control (09) -/

theorem Keeps.transfer {cond : Nat → Bool} {empty : Bool} {target : DWord} {j : Option DWord} {pre : Group → Group}
    {loud : Bool} (ok : Keeps a s) : Keeps a (x.transfer h cond empty target j pre loud s) :=
  .modG ok

theorem Kept.execHalt (ok : Keeps a s) : Kept a (execHalt h s) := by
  unfold Machine.execHalt
  dsimp only
  refine .withIssue ok (fun _ _ ok => ?_)
  refine .uniform ok (fun _ _ ok => ?_)
  split
  · exact .groupFault ok
  · split
    · exact ok
    · exact .killGroup (.logFault (.modLaunch ok))

theorem Keeps.refill {kd since : Nat} {t : State} (ok : Keeps a s) (e : x.refill h kd since s = some t) :
    Keeps a t := by
  unfold Iss.refill at e
  split at e
  · cases e
  · extract_lets vacant _ s1 s2 s3 m s4 at e
    have drawn : Keeps a s1 := .modTeam ok
    have counted : Keeps a s2 := .ite (.modQueue drawn) drawn
    have acquired : Keeps a s3 := .ite (.acquire counted) counted
    split at e
    · cases e
    · split at e
      · cases e
      · cases e
        exact .ite (.retireGroup (.modG acquired)) (.modG acquired)

theorem Kept.execRefill {kd : BitVec 8} (ok : Keeps a s) : Kept a (execRefill h kd s) := by
  unfold Machine.execRefill
  refine .withIssue ok fun _ _ ok => .ite (.groupFault ok) (.observe ok fun _ _ ok => ?_)
  split
  · next e => exact .refill ok e
  · exact .modG ok

theorem Kept.execRefillWake (ok : Keeps a s) : Kept a (execRefillWake r s) := by
  unfold Machine.execRefillWake
  split
  · exact .next ok
  · split
    · exact .next (.getD ok fun _ e => .refill ok e)
    · exact .next ok

theorem Kept.execYieldEnd (ok : Keeps a s) : Kept a (execYieldEnd r s) := by
  unfold Machine.execYieldEnd
  split
  · exact .next ok
  · split
    · exact .ite (.next (.modG ok)) (.next ok)
    · exact .next ok

theorem Kept.execSpinhExpiry (ok : Keeps a s) : Kept a (execSpinhExpiry r s) := by
  unfold Machine.execSpinhExpiry
  split
  · exact .next ok
  · split
    · exact .ite (.next (.modG ok)) (.next ok)
    · exact .next ok

theorem Kept.execSyncsReturn (ok : Keeps a s) : Kept a (execSyncsReturn r s) := by
  unfold Machine.execSyncsReturn
  split
  · exact .next ok
  · split
    · exact .ite (.next (.modG ok)) (.next ok)
    · exact .next ok

theorem Kept.execSplitDemotion (ok : Keeps a s) : Kept a (execSplitDemotion r s) := by
  unfold Machine.execSplitDemotion
  split
  · exact .next ok
  · exact .ite (.next (.modSplit ok)) (.next ok)

theorem Kept.execDemotionTimeout (ok : Keeps a s) : Kept a (execDemotionTimeout r s) := by
  unfold Machine.execDemotionTimeout
  split
  · exact .next ok
  · split
    · exact .ite (.next (.modSplit ok)) (.next ok)
    · exact .next ok

/-! ## Floating point (10) -/

theorem Kept.fpArith {i : Instr} {f : FMod} {vd va : Reg} {b : BSrc} {op : RMode → Bool → FVal → FVal → FRes}
    (ok : Keeps a s) : Kept a (fpArith i h f vd va b op s) :=
  .fpOp ok

theorem Kept.fpMinMax {i : Instr} {max : Bool} {f : FMod} {vd va : Reg} {b : BSrc} (ok : Keeps a s) :
    Kept a (fpMinMax i max h f vd va b s) :=
  .fpOp ok

theorem Kept.approxOp {i : Instr} {ftz : Bool} {vd : Reg} {b : BSrc} {f : Bool → Nat → FRes} (ok : Keeps a s) :
    Kept a (approxOp i h ftz vd b f s) :=
  .fpOp ok

theorem Kept.execFdiv {f : FMod} {vd va : Reg} {b : BSrc} (ok : Keeps a s) : Kept a (execFdiv h f vd va b s) :=
  .fpArith ok

theorem Keeps.after {n : Nat} (ok : Keeps a s) : Keeps a (s.after n) := .frame ok

theorem Keeps.hostWrite {pa : Nat} {bs : List Byte} (ok : Keeps a s) : Keeps a (s.hostWrite pa bs) := by
  unfold State.hostWrite
  refine .foldl ok fun _ _ ok => ?_
  split
  · exact .ite ok (.ucWrite ok)
  · exact ok

theorem Keeps.softMem {pa : Nat} (ok : Keeps a s) : Keeps a (s.softMem pa) := by
  unfold State.softMem
  split
  · exact .frame ok
  · exact ok

theorem Keeps.ringWrite {seq : Nat} {i : Instr} (ok : Keeps a s) : Keeps a (s.ringWrite seq i) := .ite (.frame ok) ok

theorem Keeps.ringDone (ok : Keeps a s) : Keeps a (s.ringDone) := by
  unfold State.ringDone
  split
  · exact ok
  · exact .ite (.tell (.frame ok)) ok

theorem Keeps.assignCore {core vf : Nat} (ok : Keeps a s) : Keeps a (s.assignCore core vf) := .ite (.frame ok) ok

theorem Keeps.assignQueue {q vf : Nat} (ok : Keeps a s) : Keeps a (s.assignQueue q vf) := .ite (.frame ok) ok

theorem Keeps.setContext {c : Context} (ok : Keeps a s) : Keeps a (s.setContext c) := .ite (.frame ok) ok

end

end Sys2Proof.Machine
end

section
/-! PROOFS. Every step keeps memory canonical and the caches consistent (01 R9, 12 R164 to R166). -/

namespace Sys2Proof.Machine

-- The theorems are many and short: checked side by side, their threads pass the memory of the check.
set_option Elab.async false

section
variable {a s : State} {x : Iss} {h : Hdr} {r : SRef} {o : ORef} {tm : Team}

/-! ## Every instruction and every event -/
theorem Kept.exec {i : Instr} (ok : Keeps a s) : Kept a (exec i s) := by
  cases i with
  | nop => exact .withIssue ok (fun _ _ ok => .pass ok)
  | bra => exact .withIssue ok (fun _ _ ok => .transfer ok)
  | brc => exact .withIssue ok (fun _ _ ok => .transfer ok)
  | brx => exact .withIssue ok (fun _ _ ok => .modG ok)
  | call => exact .withIssue ok (fun _ _ ok => .transfer ok)
  | ret => exact .withIssue ok (fun _ _ ok => .transfer ok)
  | land => exact .withIssue ok (fun _ _ ok => .pass ok)
  | exit => exact .withIssue ok (fun _ _ ok => .ite (.pass ok) (.ite (.groupFault ok) (.modG (.countItems ok))))
  | refill => exact .execRefill ok
  | refillWake => exact .execRefillWake ok
  | yield => exact .withIssue ok (fun _ _ ok => .uniform ok (fun _ _ ok => .modG ok))
  | yieldEnd => exact .execYieldEnd ok
  | spinh => exact .withIssue ok (fun _ _ ok => .uniform ok (fun _ _ ok => .modG ok))
  | spinhExpiry => exact .execSpinhExpiry ok
  | syncs => exact .withIssue ok (fun _ _ ok => .uniform ok (fun _ _ ok => .modG ok))
  | syncsReturn => exact .execSyncsReturn ok
  | halt => exact .execHalt ok
  | loop => exact .withIssue ok (fun _ _ ok => .uniform ok (fun _ _ ok => .modG ok))
  | splitDemotion => exact .execSplitDemotion ok
  | demotionTimeout => exact .execDemotionTimeout ok
  | smovImm6 => exact .scalarOp ok
  | smov => exact .scalarOp ok
  | sadd => exact .scalarOp ok
  | ssub => exact .scalarOp ok
  | smul => exact .scalarOp ok
  | smad => exact .scalarOp ok
  | sdiv => exact .scalarOp ok
  | sand => exact .scalarOp ok
  | sor => exact .scalarOp ok
  | sxor => exact .scalarOp ok
  | sshl => exact .scalarOp ok
  | sshr => exact .scalarOp ok
  | ssar => exact .scalarOp ok
  | scmp => exact .withIssue ok (fun _ _ ok => .uniform ok (fun _ _ ok => .result ok))
  | ssel => exact .scalarOp ok
  | srdv => exact .scalarOp ok
  | sldk => exact .execSldk ok
  | mov => exact .vecOp ok
  | add => exact .intOp ok
  | sub => exact .intOp ok
  | mul => exact .vecOp ok
  | mulh => exact .intOp ok
  | mad => exact .vecOp ok
  | adc => exact .carryOp ok
  | sbb => exact .carryOp ok
  | min => exact .intOp ok
  | max => exact .intOp ok
  | abs => exact .vecOp ok
  | neg => exact .vecOp ok
  | addsat => exact .intOp ok
  | subsat => exact .intOp ok
  | lea => exact .withIssue ok (fun _ _ ok => .result ok)
  | and => exact .bitOp ok
  | or => exact .bitOp ok
  | xor => exact .bitOp ok
  | not => exact .vecOp ok
  | andn => exact .execAndn ok
  | shl => exact .execShl ok
  | shr => exact .execShr ok
  | sar => exact .execSar ok
  | rot => exact .execRot ok
  | popc => exact .countOp ok
  | clz => exact .countOp ok
  | bfe => exact .vecOp ok
  | bfi => exact .vecOp ok
  | sel => exact .vecOp ok
  | cmp => exact .withIssue ok (fun _ _ ok => .result ok)
  | prmb => exact .vecOp ok
  | fadd => exact .fpArith ok
  | fsub => exact .fpArith ok
  | fmul => exact .fpArith ok
  | fma => exact .fpOp ok
  | fmin => exact .fpMinMax ok
  | fmax => exact .fpMinMax ok
  | fcmp => exact .fpOp ok
  | fcls => exact .fpOp ok
  | frnd => exact .fpOp ok
  | fscl => exact .fpOp ok
  | fdot2 => exact .fpOp ok
  | pfma => exact .fpOp ok
  | pfadd => exact .fpOp ok
  | pfmul => exact .fpOp ok
  | cvt => exact .fpOp ok
  | cvtr => exact .fpOp ok
  | frcp => exact .approxOp ok
  | frsq => exact .approxOp ok
  | fex2 => exact .approxOp ok
  | flg2 => exact .approxOp ok
  | fsin => exact .approxOp ok
  | fcos => exact .approxOp ok
  | fdiv => exact .execFdiv ok
  | fsqrt => exact .fpOp ok
  | qscl => exact .fpOp ok
  | qpack => exact .fpOp ok
  | qunp => exact .fpOp ok
  | rnsenc => exact .fpOp ok
  | rnsdec => exact .fpOp ok
  | kand => exact .maskOp ok
  | kor => exact .maskOp ok
  | kxor => exact .maskOp ok
  | knot => exact .maskOp ok
  | kmov => exact .withIssue ok (fun _ _ ok => .uniform ok (fun _ _ ok => .result ok))
  | vote => exact .withIssue ok (fun _ _ ok => .result ok)
  | kpop => exact .scalarOp ok
  | kfind => exact .scalarOp ok
  | flgk => exact .withIssue ok (fun _ _ ok => .result ok)
  | flgclr => exact .withIssue ok (fun _ _ ok => .result ok)
  | flgrd => exact .withIssue ok (fun _ _ ok => .result ok)
  | lanek => exact .maskOp ok
  | shfl => exact .withIssue ok (fun _ _ ok => .result ok)
  | pushw => exact .withIssue ok (fun _ _ ok => .result ok)
  | bcast => exact .withIssue ok (fun _ _ ok => .result ok)
  | redu => exact .withIssue ok (fun _ _ ok => .result ok)
  | scan => exact .withIssue ok (fun _ _ ok => .result ok)
  | confl => exact .withIssue ok (fun _ _ ok => .result ok)
  | matchk => exact .withIssue ok (fun _ _ ok => .result ok)
  | segscan => exact .withIssue ok (fun _ _ ok => .result ok)
  | gsort => exact .withIssue ok (fun _ _ ok => .result ok)
  | ld => exact .withIssue ok (fun _ _ ok => .load ok)
  | st => exact .withIssue ok (fun _ _ ok => .store ok)
  | lds => exact .withIssue ok (fun _ _ ok => .load ok)
  | sts => exact .withIssue ok (fun _ _ ok => .store ok)
  | ldk => exact .execLdk ok
  | stk => exact .execStk ok
  | lookup => exact .withIssue ok (fun _ _ ok => .ite (.pass ok) (.ite ok (.issueOp ok)))
  | tagset => exact .withIssue ok (fun _ _ ok => .tagWrite ok)
  | taginv => exact .withIssue ok (fun _ _ ok => .tagWrite ok)
  | pref => exact .withIssue ok (fun _ _ ok => .pass (.foldl ok fun _ _ ok => .prefetch ok))
  | lda => exact .withIssue ok (fun _ _ ok => .load ok)
  | str => exact .withIssue ok (fun _ _ ok => .store ok)
  | ldsb => exact .withIssue ok (fun _ _ ok => .ite (.pass ok) (.ite ok (.issueOp (.reachAll ok))))
  | atom => exact .withIssue ok (fun _ _ ok => .atomic ok)
  | cas => exact .withIssue ok (fun _ _ ok => .atomic ok)
  | atoms => exact .withIssue ok (fun _ _ ok => .atomic ok)
  | cass => exact .withIssue ok (fun _ _ ok => .atomic ok)
  | red => exact .withIssue ok (fun _ _ ok => .atomic ok)
  | fence => exact .withIssue ok (fun _ _ ok => .uniform ok (fun _ _ ok => .fence ok))
  | acq => exact .withIssue ok (fun _ _ ok => .uniform ok (fun _ _ ok => .fence ok))
  | rel => exact .withIssue ok (fun _ _ ok => .uniform ok (fun _ _ ok => .fence ok))
  | fenceComplete => exact .execFenceComplete ok
  | releaseDrainComplete => exact .execReleaseDrainComplete ok
  | bar => exact .withIssue ok (fun _ _ ok => .uniform ok (fun _ _ ok => .barArrive ok))
  | barCounted => exact .withIssue ok (fun _ _ ok => .uniform ok (fun _ _ ok => .barArrive ok))
  | cbar => exact .withIssue ok (fun _ _ ok => .uniform ok (fun _ _ ok => .barArrive ok))
  | cbarCounted => exact .withIssue ok (fun _ _ ok => .uniform ok (fun _ _ ok => .barArrive ok))
  | barInstanceComplete => exact .execBarInstanceComplete ok
  | cpa => exact .execCpa ok
  | tcopy => exact .withIssue ok (fun _ _ ok => .tcopy ok)
  | tcopym => exact .withIssue ok (fun _ _ ok => .tcopy ok)
  | binit => exact .withIssue ok (fun _ _ ok => .uniform ok (fun _ _ ok => .ite (.groupFault ok) (.setBar ok)))
  | barv => exact .execBarv ok
  | bexp => exact .execBexp ok
  | bwait => exact .execBwait ok
  | bwaitReturn => exact .execBwaitReturn ok
  | btest => exact .execBtest ok
  | waitn => exact .execWaitn ok
  | waitnReturn => exact .execWaitnReturn ok
  | trig => exact .execTrig ok
  | triggerFire => exact .execTriggerFire ok
  | mma => exact .execMma ok
  | mmaq => exact .execMmaq ok
  | quartetRendezvous => exact .execQuartetRendezvous ok
  | mmv => exact .withIssue ok (fun _ _ ok => .ite (.uniFaults ok) (.ite (.uniFaults ok) (.issueMat ok)))
  | mlutb => exact .withIssue ok (fun _ _ ok => .ite ok (.tileDone ok))
  | mlut => exact .withIssue ok (fun _ _ ok => .ite (.issueMat ok) (.ite ok (.tileDone ok)))
  | matrixOpStart => exact .execMatrixOpStart ok
  | rcvt => exact .withIssue ok (fun _ _ ok => .ite ok (.tileDone ok))
  | scacc => exact .withIssue ok (fun _ _ ok => .ite ok (.tileDone ok))
  | accz => exact .withIssue ok (fun _ _ ok => .ite ok (.tileDone ok))
  | accrd => exact .withIssue ok (fun _ _ ok => .ite ok (.tileDone ok))
  | accwr => exact .withIssue ok (fun _ _ ok => .ite ok (.tileDone ok))
  | accld => exact .withIssue ok (fun _ _ ok => .tileMove ok (fun _ _ ok => .tileDone ok))
  | accst => exact .withIssue ok (fun _ _ ok => .tileMove ok (fun _ _ ok => .tileDone (.modTeam ok)))
  | accstat => exact .withIssue ok (fun _ _ ok => .ite ok (.tileDone ok))
  | gather => exact .withIssue ok (fun _ _ ok => .firstFault ok (fun _ ok => .ite ok (.issueBuilt ok)))
  | scatr => exact .withIssue ok (fun _ _ ok => .issueScatter ok)
  | scatw => exact .withIssue ok (fun _ _ ok => .issueScatter ok)
  | gstat => exact .withIssue ok (fun _ _ ok => .uniform ok (fun _ _ ok => .result (.ite (.modG ok) ok)))
  | klook => exact .execKlook ok
  | klookSelectionEnd => exact .execKlookSelectionEnd ok
  | kgrad => exact .execKgrad ok
  | hdesc => exact .execHdesc ok
  | gatherRequestArrival => exact .execGatherRequestArrival ok
  | scatterUpdateArrival => exact .execScatterUpdateArrival ok
  | xpnd => exact .withIssue ok (fun _ _ ok => .arriveSpan ok)
  | spanRendezvous => exact .execSpanRendezvous ok
  | xnext => exact .withIssue ok (fun _ _ ok => .arriveSpan ok)
  | xstat => exact .withIssue ok (fun _ _ ok => .uniform ok (fun _ _ ok => .result ok))
  | segred => exact .withIssue ok (fun _ _ ok => .arriveSpan ok)
  | xabort => exact .execXabort ok
  | enq => exact .withIssue ok (fun _ _ ok => .enqueue ok)
  | enqb => exact .withIssue ok (fun _ _ ok => .enqueue ok)
  | queueAppend => exact .execQueueAppend ok
  | qstat => exact .execQstat ok
  | queueClose => exact .next (.ite (.modQueue ok) ok)
  | rwr => exact .withIssue ok (fun _ _ ok => .issueRemote ok)
  | rrd => exact .withIssue ok (fun _ _ ok => .issueRemote ok)
  | rred => exact .withIssue ok (fun _ _ ok => .issueRemote ok)
  | rflag => exact .withIssue ok (fun _ _ ok => .issueRemote ok)
  | csig => exact .execCsig ok
  | rfence => exact .withIssue ok (fun _ _ ok => .uniform ok (fun _ _ ok => .pushRelease (.hold ok)))
  | rfenceComplete => exact .execRfenceComplete ok
  | csrr => exact .withIssue ok (fun _ _ ok => .uniform ok (fun _ _ ok => .result ok))
  | csrw => exact .withIssue ok (fun _ _ ok => .uniform ok (fun _ _ ok => .ite (.pass (.modG ok)) (.pass ok)))
  | trap => exact .withIssue ok (fun _ _ ok => .uniform ok (fun _ _ ok => .stop ok))
  | brk => exact .withIssue ok (fun _ _ ok => .uniform ok (fun _ _ ok => .stop ok))
  | cyc => exact .withIssue ok (fun _ _ ok => .uniform ok (fun _ _ ok => .result ok))
  | resultLanding => exact .next (.modGroup ok)
  | memoryAccessCompletion => exact .execMemoryAccessCompletion ok
  | copyCompletion => exact .execCopyCompletion ok
  | matrixAsyncCompletion => exact .execMatrixAsyncCompletion ok
  | gatherCompletion => exact .execGatherCompletion ok
  | scatrSourceRead => exact .execScatrSourceRead ok
  | scatterCompletion => exact .execScatterCompletion ok
  | klookGatherCompletion => exact .execKlookGatherCompletion ok
  | remoteLocalCompletion => exact .execRemoteLocalCompletion ok
  | rrdCompletion => exact .execRrdCompletion ok
  | csigCompletion => exact .execCsigCompletion ok
  | teamStart => exact .execTeamStart ok
  | blockDraw => exact .execBlockDraw ok
  | blockComplete => exact .execBlockComplete ok
  | staggerExpiry => exact .execStaggerExpiry ok
  | priorityPreemption => exact .execPriorityPreemption ok
  | partitionReserve => exact .execPartitionReserve ok
  | launchCompletion => exact .execLaunchCompletion ok
  | graphNodeArrival => exact .execGraphNodeArrival ok
  | preemptionNoticeEnd => exact .execPreemptionNoticeEnd ok
  | teamResume => exact .execTeamResume ok
  | invalidationComplete => exact .execInvalidationComplete ok
  | ackReceive => exact .execAckReceive ok
  | retransmitCapture => exact .execRetransmitCapture ok
  | remoteWriteArrival => exact .next (.arrive ok .acknowledge)
  | remoteReadArrival => exact .next (.arrive ok .answerRead)
  | remoteFlagArrival => exact .next (.arrive ok .acknowledge)
  | reductionContribution => exact .execReductionContribution ok
  | gafferGrant => exact .next (.ite (.frame ok) ok)
  | bringUp => exact .next (.ite ok (.ite (.frame (.frame ok)) (.frame (.frame ok))))
  | reservedOpcode => exact .execReservedOpcode ok
  | gatherReplyArrival => exact .execGatherReplyArrival ok
  | hdescCompletion => exact .execHdescCompletion ok
  | qstatCompletion => exact .execQstatCompletion ok
  | csigRequestArrival => exact .execCsigRequestArrival ok
  | scrub => exact .next (.ite (.tell ok) ok)
  | placeGraph => exact .ite (.next (.tell ok)) (.ite (.next (.modQueue ok)) (.next (.tell ok)))
  | resolveResolved => exact .execResolveResolved ok
  | resolveKill => exact .execResolveKill ok
  | resolveEnd => exact .execResolveEnd ok
  | release => exact .execRelease ok
  | preempt => exact .ite (.next (.tell ok)) (.next (.foldl (.pause ok) fun _ _ ok => .preemptTeam ok))
  | resume => exact .ite (.next (.tell ok)) (.next (.foldl (.pause ok) fun _ _ ok => .modTeam ok))
  | invalidate => exact .ite (.next (.tell ok)) (.next (.frame ok))
  | setPaths => exact .execSetPaths ok
  | setPkg => exact .ite (.next (.frame ok)) (.next (.tell ok))
  | installKey => exact .execInstallKey ok
  | flitSend => exact .execFlitSend ok
  | flitReceive => exact .execFlitReceive ok
  | linkKeyExhausted => exact .next (.modLink ok)
  | oldKeyErase => exact .next (.modLink ok)
  | channelSpill => exact .next (.modLink ok)
  | channelReinject => exact .next (.modLink ok)
  | retransmitTimeout => exact .execRetransmitTimeout ok
  | pathTimeout => exact .next (.modPeer ok)
  | probeSuccess => exact .next (.modPeer ok)
  | peerUnreachable => exact .next (.ite (.losePeer (.modPeer ok)) ok)
  | powerEvent => exact .next (.ite (.tell (.frame ok)) ok)
  | securityAlarm => exact .next (.alarm ok)
  | functionLevelReset => exact .next (.ite (.modTdi (.resetDie ok)) ok)
  | packageReset => exact .execPackageReset ok
  | firmwareUpdate => exact .next (.ite ok (.ite (.tell (.frame ok)) (.tell ok)))
  | manifestReplace => exact .next (.ite ok (.ite (.tell (.frame ok)) (.tell ok)))
  | spdmRequest => exact .next (.ite (.tell ok) ok)
  | getTdispVersion => exact .next (.tdisp ok (fun _ => ok))
  | getTdispCapabilities => exact .next (.tdisp ok (fun _ => ok))
  | lockInterfaceRequest => exact .execLockInterfaceRequest ok
  | getDeviceInterfaceReport => exact .next (.tdisp ok (fun _ => ok))
  | getDeviceInterfaceState => exact .next (.tdisp ok (fun _ => ok))
  | startInterfaceRequest => exact .execStartInterfaceRequest ok
  | stopInterfaceRequest => exact .execStopInterfaceRequest ok
  | tdiConfigChange => exact .next (.ite (.modTdi ok) ok)
  | vfFunctionLevelReset => exact .next (.ite (.killVf ok) ok)

/-! ## Steps -/

theorem Kept.issueNow (ok : Keeps a s) : Kept a (issueNow x s) := by
  unfold Machine.issueNow
  split
  · exact .next (.takeFetchFault ok)
  next bs _ =>
    have fetched : Keeps a (s.fetchFill x bs.length) := .fetchFill ok
    dsimp only
    split
    · exact .exec (.frame fetched)
    · exact .next (.takeDecodeFault (.frame fetched))
    · exact .next (.takeDecodeFault (.frame fetched))

theorem Kept.issueStep (ok : Keeps a s) : Kept a (issueStep r s) := by
  unfold Machine.issueStep
  split
  · exact .next ok
  · exact .ite (.issueNow ok) (.next ok)

theorem Kept.later {n : Nat} {o : Host.Outcome State Fault Refusal} (ok : Kept a o) : Kept a (later n o) := by
  cases o with
  | next s => exact .next (.after (ok s rfl))
  | fault f => exact .fault
  | refused f => exact fun _ e => nomatch e

theorem Kept.ringAct (ok : Keeps a s) : Kept a s.ringAct := by
  unfold State.ringAct
  split
  · exact .next ok
  next c _ =>
    have acted : Kept a (Machine.exec c.cmd s) := .exec ok
    dsimp only
    split
    · next t e => exact .next (.frame (acted t e))
    · exact acted

theorem Kept.runChoice {c : Choice} (ok : Keeps a s) : Kept a (runChoice c s) := by
  cases c with
  | issue => exact .later (.issueStep ok)
  | event => exact .later (.exec ok)
  | tick => exact .next (.after ok)
  | perform => exact .next (.performEarly ok)
  | piece => exact .next (.performPiece ok)
  | landPart => exact .next (.landPart ok)
  | evictL1 => exact .next (.evictL1 ok)
  | evictDc => exact .next (.evictDc ok)
  | evictTlb => exact .next (.evictTlb ok)
  | hostWrite => exact .next (.hostWrite ok)
  | softMem => exact .next (.softMem ok)
  | softScratch => exact .next (.modTeam ok)
  | softReg => exact .next (.modGroup ok)
  | alterRecord => exact .next (.modTeam ok)
  | setContext => exact .next (.setContext ok)
  | setDemand => exact .next (.frame ok)
  | ideKey => exact .next (.agreeIde ok)
  | queuePacket => exact .next (.queuePacket ok)
  | congest => exact .next (.modPeer ok)
  | portAddr => exact .next (.ite (.frame ok) ok)
  | tdispOther => exact .next (.tdispOther ok)
  | stopAnswer => exact .next (.stopAnswer ok)
  | ringWrite => exact .next (.ringWrite ok)
  | ringAct => exact .ringAct ok
  | ringDone => exact .next (.ringDone ok)
  | assignCore => exact .next (.assignCore ok)
  | assignQueue => exact .next (.assignQueue ok)
  | bringUpFails => exact .next (.ite (.frame ok) ok)
  | telemetry => exact .next (.readTelemetry ok)

theorem Kept.step (s : State) : Kept s (step s) := by
  unfold Machine.step runStep
  split
  · exact .runChoice (.frame (.refl s))
  · exact .runChoice (.refl s)

end

/-- Settles O58: a step’s next state goes on from its first through operations that keep the form of memory. -/
theorem memoryStaysCanonical : Obligations.MemoryStaysCanonical := fun s t h e => (Kept.step s t e).mem h

/-- Settles O59: a step’s next state goes on from its first through operations that keep the form of every cache. -/
theorem cachesStayConsistent : Obligations.CachesStayConsistent := fun s t h e => (Kept.step s t e).cache h

end Sys2Proof.Machine
end

section
/-! PROOFS. The words of accumulator tiles (16 R224, R226): what writing a tile leaves of it and of the other tiles, and that
the operations of the array change nothing of a group but its tiles. -/

namespace Sys2Proof.Machine

-- As above: the theorems are checked one after the other, within the memory of the check.
set_option Elab.async false

/-! ## Lists of elements -/

/-- The elements that `Map.splice` lists are, read densely, the list itself. -/
theorem Map.dense_listed {β : Type} [DecidableEq β] (d : β) (k : Nat) (vs : List β) (n : Nat) :
    Map.dense d vs.length (k + n) ((vs.zipIdx n).filterMap fun p => if p.1 = d then none else some (k + p.2, p.1)) =
      vs := by
  have later (l : List (Nat × β)) (i m : Nat) (h : ∀ p ∈ l, i < p.1) :
      Map.dense d (m + 1) i l = d :: Map.dense d m (i + 1) l := by
    cases l with
    | nil => rfl
    | cons p l => simp [Map.dense, Nat.ne_of_gt (h p List.mem_cons_self)]
  induction vs generalizing n with
  | nil => rfl
  | cons v vs ih =>
    rw [List.zipIdx_cons, List.filterMap_cons]
    by_cases e : v = d
    · simp only [e, if_true, List.length_cons]
      rw [later, Nat.add_assoc, ih]
      intro p hp
      obtain ⟨q, hq, e⟩ := List.mem_filterMap.mp hp
      split at e
      · cases e
      · cases e
        have := (List.mem_zipIdx hq).1
        dsimp only
        omega
    · simp only [e, if_false, List.length_cons, Map.dense, if_true]
      rw [Nat.add_assoc, ih]

theorem Map.range_append {β : Type} (m n : Map β) (lo hi : Nat) :
    Map.range (m ++ n) lo hi = Map.range m lo hi ++ Map.range n lo hi :=
  List.filter_append ..

section
variable {β : Type} [DecidableEq β] (d : β) (m : Map β) (k : Nat) (vs : List β)

/-- The keys of the elements that `Map.splice` lists. -/
theorem Map.listed_key {p : Nat × β}
    (h : p ∈ vs.zipIdx.filterMap fun p => if p.1 = d then none else some (k + p.2, p.1)) :
    k ≤ p.1 ∧ p.1 < k + vs.length := by
  obtain ⟨q, hq, e⟩ := List.mem_filterMap.mp h
  split at e
  · cases e
  · cases e
    have := List.mem_zipIdx hq
    dsimp only
    omega

/-- What a splice lists in its own range. -/
theorem Map.range_splice : Map.range (Map.splice d m k vs) k (k + vs.length) =
    vs.zipIdx.filterMap fun p => if p.1 = d then none else some (k + p.2, p.1) := by
  unfold Map.splice
  rw [Map.range_append, Map.range_append]
  have below : Map.range (m.filter fun p => decide (p.1 < k)) k (k + vs.length) = [] := by
    simp only [Map.range, List.filter_filter, List.filter_eq_nil_iff]
    intro p _; simp only [Bool.and_eq_true, decide_eq_true_eq]; omega
  have above : Map.range (m.filter fun p => decide (k + vs.length ≤ p.1)) k (k + vs.length) = [] := by
    simp only [Map.range, List.filter_filter, List.filter_eq_nil_iff]
    intro p _; simp only [Bool.and_eq_true, decide_eq_true_eq]; omega
  rw [below, above, List.nil_append, List.append_nil, Map.range, List.filter_eq_self]
  intro p hp
  simpa using Map.listed_key d k vs hp

/-- A splice leaves what lies wholly beside it. -/
theorem Map.range_splice_beside {lo hi : Nat} (h : hi ≤ k ∨ k + vs.length ≤ lo) :
    Map.range (Map.splice d m k vs) lo hi = Map.range m lo hi := by
  unfold Map.splice
  rw [Map.range_append, Map.range_append]
  have listed : Map.range (vs.zipIdx.filterMap fun p => if p.1 = d then none else some (k + p.2, p.1)) lo hi = [] := by
    simp only [Map.range, List.filter_eq_nil_iff]
    intro p hp
    have := Map.listed_key d k vs hp
    simp only [decide_eq_true_eq]; omega
  rw [listed, List.append_nil]
  simp only [Map.range, List.filter_filter]
  rcases h with h | h
  · have above : (m.filter fun p => decide (lo ≤ p.1 ∧ p.1 < hi) && decide (k + vs.length ≤ p.1)) = [] := by
      rw [List.filter_eq_nil_iff]; intro p _; simp only [Bool.and_eq_true, decide_eq_true_eq]; omega
    rw [above, List.append_nil]
    refine List.filter_congr fun p _ => ?_
    rw [← Bool.decide_and, decide_eq_decide]; omega
  · have below : (m.filter fun p => decide (lo ≤ p.1 ∧ p.1 < hi) && decide (p.1 < k)) = [] := by
      rw [List.filter_eq_nil_iff]; intro p _; simp only [Bool.and_eq_true, decide_eq_true_eq]; omega
    rw [below, List.nil_append]
    refine List.filter_congr fun p _ => ?_
    rw [← Bool.decide_and, decide_eq_decide]; omega

end

@[simp] theorem Map.length_dense {β : Type} (d : β) (n k : Nat) (m : Map β) : (Map.dense d n k m).length = n := by
  induction n generalizing k m with
  | zero => rfl
  | succ n ih =>
    cases m with
    | nil => simp [Map.dense, ih]
    | cons p m =>
      unfold Map.dense
      split <;> simp [ih]

/-! ## The words of a tile -/

@[simp] theorem Group.length_tileWords (g : Group) (b : Nat) : (g.tileWords b).length = 1024 := Map.length_dense ..

theorem Group.tileWords_of_tiles {g g' : Group} (h : g'.tiles = g.tiles) (b : Nat) : g'.tileWords b = g.tileWords b := by
  unfold Group.tileWords; rw [h]

@[simp] theorem length_mapTile (ws : List Word) (f : Nat → Nat → Word → Word × BitVec 2) :
    (mapTile ws f).length = ws.length := by
  simp [mapTile]

/-- An element that `mapTile` computes. -/
theorem mapTile_getD {ws : List Word} {f : Nat → Nat → Word → Word × BitVec 2} {i j : Nat} (hj : j < 32)
    (h : 32 * i + j < ws.length) :
    ((mapTile ws f).map (·.1)).getD (32 * i + j) 0 = (f i j (ws.getD (32 * i + j) 0)).1 := by
  have row : (32 * i + j) / 32 = i := by omega
  have col : (32 * i + j) % 32 = j := by omega
  simp [mapTile, List.getD_eq_getElem?_getD, h, row, col]

section
variable (g : Group) (a : Nat) (es : Els) (cov : Nat → Bool)

theorem Group.tileWords_putEls_self (h : es.length = 1024) : (g.putEls a es cov).tileWords a = es.map (·.1) := by
  have len : ((es.map (·.1)).take 1024).length = 1024 := by simp [h]
  have whole : (es.map (·.1)).take 1024 = es.map (·.1) := List.take_of_length_le (by simp [h])
  have range := Map.range_splice 0 g.tiles (1024 * a) ((es.map (·.1)).take 1024)
  have words := Map.dense_listed 0 (1024 * a) ((es.map (·.1)).take 1024) 0
  rw [len] at range words
  calc (g.putEls a es cov).tileWords a
      = Map.dense 0 1024 (1024 * a)
          (Map.range (Map.splice 0 g.tiles (1024 * a) ((es.map (·.1)).take 1024)) (1024 * a) (1024 * a + 1024)) := rfl
    _ = (es.map (·.1)).take 1024 := by rw [range]; exact words
    _ = es.map (·.1) := whole

theorem Group.tileWords_putEls_ne {b : Nat} (ne : b ≠ a) : (g.putEls a es cov).tileWords b = g.tileWords b := by
  have len : ((es.map (·.1)).take 1024).length ≤ 1024 := by simp
  show Map.dense 0 1024 _ (Map.range (Map.splice 0 g.tiles (1024 * a) ((es.map (·.1)).take 1024)) _ _) = _
  rw [Map.range_splice_beside _ _ _ _ (by omega)]
  rfl

end

/-! ## Nothing but the tiles -/

/-- A group differs from another in its tiles, their flags and which elements are bad alone. -/
def Group.SameButTiles (g g' : Group) : Prop :=
  g' = { g with tiles := g'.tiles, tflags := g'.tflags, badRegs := g'.badRegs }

theorem Group.SameButTiles.refl (g : Group) : g.SameButTiles g := rfl

theorem Group.SameButTiles.trans {g g' g'' : Group} (a : g.SameButTiles g') (b : g'.SameButTiles g'') :
    g.SameButTiles g'' := by
  unfold Group.SameButTiles at *
  rw [b, a]

theorem Group.sameButTiles_putEls (g : Group) (a : Nat) (es : Els) (cov : Nat → Bool) :
    g.SameButTiles (g.putEls a es cov) := rfl

theorem Group.sameButTiles_foldl {α : Type} {f : Group → α → Group}
    (h : ∀ (g : Group) (x : α), g.SameButTiles (f g x)) (l : List α) (g : Group) :
    g.SameButTiles (l.foldl f g) :=
  foldl_keeps (P := g.SameButTiles) (fun _ _ e => e.trans (h ..)) l g (.refl g)

theorem Group.sameButTiles_runMma (g : Group) (d : Nat) (ta tb : ElemTy) (tc : AccTy) (rows : List (List Word)) (occ : Word)
    (cols : List (List (List Word) × Word)) (slabs : List Nat) (free : Nat) :
    g.SameButTiles (g.runMma d ta tb tc rows occ cols slabs free) :=
  Group.sameButTiles_foldl (fun g _ => g.sameButTiles_putEls ..) _ g

theorem Group.sameButTiles_runMlut (g : Group) (m : LutMode) (d a : Nat) (planes : List (List Word)) (occ : Word) :
    g.SameButTiles (g.runMlut m d a planes occ) := g.sameButTiles_putEls ..

section
variable {g g' : Group} (e : g.SameButTiles g')
include e

theorem Group.SameButTiles.grp : g'.grp = g.grp := by rw [e]
theorem Group.SameButTiles.splits : g'.splits = g.splits := by rw [e]
theorem Group.SameButTiles.ops : g'.ops = g.ops := by rw [e]
theorem Group.SameButTiles.regsAs : g'.regsAs g := by
  intro loc reg
  rw [e]
  cases loc with
  | a => cases reg
  | _ => rfl

end

end Sys2Proof.Machine
end

section
/-! PROOFS. The issue of class 0xB by a lone split (16 R228, R230): a synchronous form is complete, an asynchronous one has
entered its group and its bench's queue. -/

namespace Sys2Proof.Machine

-- As above: the theorems are checked one after the other, within the memory of the check.
set_option Elab.async false

/-! ## The state after one group has changed -/

section
variable {r : SRef} {g : Group} {s t : State} (o : OnlyGroup r g s t)
include o

theorem OnlyGroup.mem : t.mem = s.mem := by
  rw [o.1]

theorem OnlyGroup.group?_self : t.group? r.team r.grp = some g := by
  obtain ⟨-, -, -, tm', -, team, -, -, group⟩ := o
  simp [State.group?, team, group]

theorem OnlyGroup.group?_ne {a b : Nat} (ne : (a, b) ≠ (r.team, r.grp)) : t.group? a b = s.group? a b := by
  obtain ⟨-, others, tm, tm', team, team', -, rest, -⟩ := o
  unfold State.group?
  by_cases e : a = r.team
  · subst e
    rw [team, team', Option.bind_some, Option.bind_some]
    exact rest b fun e => ne (by rw [e])
  · rw [others a e]

/-- A further change of the group. -/
theorem OnlyGroup.modG (f : Group → Group) (hf : ∀ g, (f g).grp = g.grp) : OnlyGroup r (f g) s (t.modG r f) := by
  have first := o
  obtain ⟨-, -, tm, tm', -, team, -, -, group⟩ := o
  exact first.trans (State.modG_onlyGroup f hf team group)

end

/-- A change of the group of a split that is in place. -/
theorem Iss.inPlace.modG {x : Iss} {s : State} (p : x.inPlace s) (f : Group → Group) (hf : ∀ g, (f g).grp = g.grp) :
    OnlyGroup x.r (f x.g) s (s.modG x.r f) := by
  obtain ⟨-, team, -, group, -⟩ := State.at?_eq p
  exact State.modG_onlyGroup f hf team group

/-- The group of a split that is in place, put in whole. -/
theorem Iss.inPlace.putGroup {x : Iss} {s : State} (p : x.inPlace s) {g : Group} (hg : g.grp = x.g.grp) :
    OnlyGroup x.r g s (s.modG x.r fun _ => g) := by
  obtain ⟨-, -, -, group, -⟩ := State.at?_eq p
  have here : x.g.grp = x.r.grp := by simpa using List.find?_some group
  have keyed := p.modG (fun y => if y.grp = x.r.grp then g else y) (by
    intro y
    split
    · next e => rw [hg, here, e]
    · rfl)
  rw [if_pos here] at keyed
  suffices s.modG x.r (fun _ => g) = s.modG x.r fun y => if y.grp = x.r.grp then g else y by rwa [this]
  unfold State.modG State.modGroup Team.modGroup
  congr 1
  funext tm
  congr 1
  refine List.map_congr_left fun y _ => ?_
  split
  · next e => simp [e]
  · rfl

/-! ## A lone split goes on -/

/-- A lone split whose group consumes a slot and moves on stands at the next instruction; the registers, the tiles and the
operations of the group stay. -/
theorem Iss.lone.next {x : Iss} (l : x.lone) {g : Group} (same : g.splits = x.g.splits) (now st : Nat) (b : Bool)
    (pc : DWord) :
    ∃ y, ((g.consume now x.sp.id st b).move now x.sp.id pc .seq).splits = [y] ∧ y.mask = x.sp.mask ∧ y.pc = pc ∧
      y.hold = .run ∧ (∀ p, ((g.consume now x.sp.id st b).move now x.sp.id pc .seq).file p = g.file p) ∧
      ((g.consume now x.sp.id st b).move now x.sp.id pc .seq).tiles = g.tiles ∧
      ((g.consume now x.sp.id st b).move now x.sp.id pc .seq).ops = g.ops ∧
      ((g.consume now x.sp.id st b).move now x.sp.id pc .seq).ctrs = g.ctrs := by
  obtain ⟨alone, top, stays⟩ := l
  have splits := Group.consume_lone g x.sp now st b (same.trans alone)
  rw [Group.move_of_none _ _ _ _ _ (by rw [splits]; simp [top, stays])]
  simp only [Group.modSplit_file, Group.consume_file, implies_true, true_and]
  simp only [Group.modSplit, splits, List.map_cons, List.map_nil, if_true]
  exact ⟨_, rfl, rfl, rfl, rfl, rfl, rfl, rfl⟩

/-! ## Synchronous forms -/

/-- A synchronous form of a lone split completes: what its effect on the tiles makes true of every group with these tiles and
with the registers as before holds afterwards. -/
theorem Iss.inPlace.completes {x : Iss} {s : State} (p : x.inPlace s) (l : x.lone) {i : Instr} {h : Hdr} {f : Group → Group}
    (run : exec i s = .next (x.tileDone h f s)) (tilesOnly : ∀ g : Group, g.SameButTiles (f g)) {P : Group → Prop}
    (effect : ∀ g : Group, (∀ b, g.tileWords b = (f x.g).tileWords b) → g.regsAs x.g → P g) :
    Completes i h x s fun _ g => P g := by
  have only := p.modG (fun g => ((f g).consume s.now x.sp.id h.st.toNat true).move s.now x.sp.id (x.next h) .seq)
    fun g => by simp [(tilesOnly g).grp]
  obtain ⟨y, splits, mask, pc, hold, file, tiles, ops, -⟩ :=
    l.next (tilesOnly x.g).splits s.now h.st.toNat true (x.next h)
  refine ⟨_, _, y, run, only.mem, only.group?_self, ⟨Op.skip, ?_⟩, splits, mask, pc, hold, effect _ ?_ ?_⟩
  · rw [ops, (tilesOnly x.g).ops]
    exact (List.map_id _).symm
  · exact Group.tileWords_of_tiles tiles
  · intro loc reg
    rw [file, (tilesOnly x.g).regsAs loc reg]

/-! ## Asynchronous forms -/

/-- An asynchronous form of a lone split enters its group: one engine operation on n3 (16 R228). -/
theorem Iss.mayEngine.enters {x : Iss} {s : State} (may : x.mayEngine s [3]) {i : Instr} {h : Hdr} {kind : OpKind}
    {fp : List Region} {cc lat : Nat} (run : exec i s = .next (x.issueMat h kind fp cc lat s)) :
    EntersOp i h x s [3] fun o => o.engine = true ∧ o.kind = kind := by
  obtain ⟨p, l, fresh, room⟩ := may
  obtain ⟨-, team, -, group, -⟩ := State.at?_eq p
  have waits : x.waiting = none := by simp [Iss.waiting, fresh]
  let g1 := x.addOp s.now kind [3] true fp none 0 none x.g
  have entered : OnlyGroup x.r g1 s (s.modG x.r fun _ => g1) := p.putGroup rfl
  have only := entered.modG (fun g => (g.consume s.now x.sp.id h.st.toNat true).move s.now x.sp.id (x.next h) .seq)
    fun g => by simp
  obtain ⟨y, splits, mask, pc, hold, file, -, ops, ctrs⟩ :=
    l.next (g := g1) rfl s.now h.st.toNat true (x.next h)
  have issued : x.issueMat h kind fp cc lat s =
      ((s.modG x.r fun _ => g1).modG x.r fun g =>
        (g.consume s.now x.sp.id h.st.toNat true).move s.now x.sp.id (x.next h) .seq).queueMat x.tm.core
        ⟨x.r.team, x.r.grp, x.g.nextOp⟩ cc lat := by
    simp only [Iss.issueMat, room, Iss.issueBuilt, team, group, Iss.place, waits]
    rfl
  rw [issued] at run
  refine ⟨_, _, _, y, run, only.mem, only.group?_self, fun a b => only.group?_ne, ops, rfl, rfl, ⟨rfl, rfl⟩, ctrs,
    fun loc => (file loc).trans ?_, splits, mask, pc, hold⟩
  cases loc <;> rfl

end Sys2Proof.Machine
end

section
/-! PROOFS. The streams and the tables of the array (16 R235 to R239) as the issuing split leaves them. -/

namespace Sys2Proof.Machine

-- As above: the theorems are checked one after the other, within the memory of the check.
set_option Elab.async false

/-! ## MMV (R235, R236) -/

section
variable {h : Hdr} {tw tv : ElemTy} {tc : AccTy} {ad vx : Reg} {sw ss : BitVec 8} {nr : BitVec 7} {nv : BitVec 3} {x : Iss}
  {s : State}

/-- The end of the bytes that MMV may read (R235). -/
def Iss.mmvEnd (x : Iss) (h : Hdr) (tw tv : ElemTy) (sw ss : BitVec 8) (nr : BitVec 7) : Nat :=
  (x.sR h (.plain sw)).toNat + nr.toNat * (x.sR h (.plain ss)).toNat + mmvBytes tw tv

/-- What MMV does where its base and its stride are aligned (R235). -/
theorem exec_mmv_aligned (a : Issues (.mmv h tw tv tc ad vx sw ss nr nv) h x s) (base : 16 ∣ (x.sR h (.plain sw)).toNat)
    (stride : 16 ∣ (x.sR h (.plain ss)).toNat) : exec (.mmv h tw tv tc ad vx sw ss nr nv) s = .next
      (if noncanonHull (x.sR h (.plain sw)).toNat (x.mmvEnd h tw tv sw ss nr) then
        x.uniFaults h (x.uniFault .noncanon (x.sR h (.plain sw)) []) [] s
      else x.issueMat h (.mmv (x.eff h ad) tw tv tc (x.sR h (.plain sw)) (x.sR h (.plain ss)) (nr.toNat + 1)
          ((List.range (nv.toNat + 1)).map fun v => x.laneRegs (x.eff h vx + 24 * v) 24) x.g.occ)
        [tileFp (x.eff h ad) 1 true, ⟨.glob, (x.sR h (.plain sw)).toNat, x.mmvEnd h tw tv sw ss nr, false⟩] 16 16 s) := by
  show execMmv .. = _
  rw [execMmv, withIssue_next _ a]
  have aligned : ¬ ((x.sR h (.plain sw)).toNat % 16 ≠ 0 ∨ (x.sR h (.plain ss)).toNat % 16 ≠ 0) := by omega
  dsimp only
  rw [if_neg aligned]
  rfl

end

/-! ## Table lookup (R237 to R239) -/

@[simp] theorem Iss.length_laneRegs (x : Iss) (base n : Nat) : (x.laneRegs base n).length = 32 := by
  simp [Iss.laneRegs]

/-- Writing the tiles from `d` on one after the other, each from its own words, writes each once and no other. -/
theorem Group.tileWords_putRange (g : Group) (d : Nat) {F : Nat → List Word → Els} (cov : Nat → Bool)
    (whole : ∀ t ws, (F t ws).length = ws.length) (n : Nat) :
    (∀ b, b < d ∨ d + n ≤ b →
      ((List.range n).foldl (fun g t => g.putEls (d + t) (F t (g.tileWords (d + t))) cov) g).tileWords b =
      g.tileWords b) ∧
    ∀ t, t < n → ((List.range n).foldl (fun g t => g.putEls (d + t) (F t (g.tileWords (d + t))) cov) g).tileWords (d + t) =
      (F t (g.tileWords (d + t))).map (·.1) := by
  induction n with
  | zero => exact ⟨fun _ _ => rfl, fun _ h => absurd h (Nat.not_lt_zero _)⟩
  | succ n ih =>
    obtain ⟨others, written⟩ := ih
    rw [List.range_succ, List.foldl_append, List.foldl_cons, List.foldl_nil]
    refine ⟨fun b hb => ?_, fun t ht => ?_⟩
    · rw [Group.tileWords_putEls_ne _ _ _ _ (by omega), others b (by omega)]
    · by_cases last : t = n
      · subst last
        rw [Group.tileWords_putEls_self _ _ _ _ (by simp [whole]), others (d + t) (by omega)]
      · rw [Group.tileWords_putEls_ne _ _ _ _ (by omega), written t (by omega)]

section
variable {h : Hdr} {x : Iss} {s : State}

/-- MLUTB's tables of a tile: the entries of the occupied rows (R238). -/
def lutTile (occ : Word) (rows : List (List Int)) (t : Nat) (ws : List Word) : Els :=
  mapTile ws fun i j w =>
    if occ.getLsbD i then
      (pack16 ((rows.getD i []).getD (64 * t + 2 * j) 0) ((rows.getD i []).getD (64 * t + 2 * j + 1) 0), 0)
    else (w, 0)

/-- MLUTB's effect (R238). -/
def Group.runMlutb (g : Group) (d : Nat) (rows : List (List Int)) (occ : Word) : Group :=
  (List.range 6).foldl (fun g t =>
    g.putEls (d + t) (lutTile occ rows t (g.tileWords (d + t))) fun e => occ.getLsbD (e / 32)) g

theorem exec_mlutb {ad va : Reg} (a : Issues (.mlutb h ad va) h x s)
    (free : x.g.tilesBusy [tileFp (x.eff h ad) 6 true] = false) : exec (.mlutb h ad va) s = .next (x.tileDone h
      (·.runMlutb (x.eff h ad) ((x.laneRegs (x.eff h va) 24).map fun r => lutRow (unpackI .s8 r)) x.g.occ) s) := by
  show execMlutb .. = _
  rw [execMlutb, withIssue_next _ a]
  simp only [free]
  rfl

theorem Group.tileWords_runMlutb (g : Group) (d : Nat) (rows : List (List Int)) (occ : Word) :
    (∀ b, b < d ∨ d + 6 ≤ b → (g.runMlutb d rows occ).tileWords b = g.tileWords b) ∧
    ∀ t, t < 6 → (g.runMlutb d rows occ).tileWords (d + t) = (lutTile occ rows t (g.tileWords (d + t))).map (·.1) :=
  g.tileWords_putRange d _ (fun _ _ => length_mapTile ..) 6

/-- MLUTB writes the sums of the occupied rows (R238). -/
theorem mlutb_completes {ad va : Reg} (p : x.inPlace s) (l : x.lone) (a : Issues (.mlutb h ad va) h x s)
    (free : x.g.tilesBusy [tileFp (x.eff h ad) 6 true] = false) :
    Completes (.mlutb h ad va) h x s fun _ g => g.regsAs x.g ∧
      (∀ b, b < x.eff h ad ∨ x.eff h ad + 6 ≤ b → g.tileWords b = x.g.tileWords b) ∧
      ∀ t i j, t < 6 → i < 32 → j < 32 →
        (g.tileWords (x.eff h ad + t)).getD (32 * i + j) 0 = if x.g.occ.getLsbD i = true
          then pack16 ((lutRow (unpackI .s8 ((x.laneRegs (x.eff h va) 24).getD i []))).getD (64 * t + 2 * j) 0)
            ((lutRow (unpackI .s8 ((x.laneRegs (x.eff h va) 24).getD i []))).getD (64 * t + 2 * j + 1) 0)
          else (x.g.tileWords (x.eff h ad + t)).getD (32 * i + j) 0 := by
  refine p.completes l (exec_mlutb a free) (fun g => Group.sameButTiles_foldl (fun g _ => g.sameButTiles_putEls ..) _ g)
    fun g tiles regs => ?_
  obtain ⟨others, written⟩ := x.g.tileWords_runMlutb (x.eff h ad)
    ((x.laneRegs (x.eff h va) 24).map fun r => lutRow (unpackI .s8 r)) x.g.occ
  refine ⟨regs, fun b hb => (tiles b).trans (others b hb), fun t i j ht hi hj => ?_⟩
  have row : ((x.laneRegs (x.eff h va) 24).map fun r => lutRow (unpackI .s8 r)).getD i [] =
      lutRow (unpackI .s8 ((x.laneRegs (x.eff h va) 24).getD i [])) := by
    simp [List.getD_eq_getElem?_getD, hi]
  rw [tiles, written t ht, lutTile, mapTile_getD hj (by rw [Group.length_tileWords]; omega), row]
  split
  · rfl
  · rfl

/-- The tile that MLUT writes (R239). -/
theorem Group.tileWords_runMlut (g : Group) (m : LutMode) (d a : Nat) (planes : List (List Word)) (occ : Word) {i j : Nat}
    (hi : i < 32) (hj : j < 32) : ((g.runMlut m d a planes occ).tileWords d).getD (32 * i + j) 0 =
      if occ.getLsbD i = true ∧ occ.getLsbD j = true
        then (g.tileWords d).getD (32 * i + j) 0 + BitVec.ofInt 32 (lutSum m ((g.lutTables a).getD i []) (planes.getD j []))
        else (g.tileWords d).getD (32 * i + j) 0 := by
  unfold Group.runMlut
  rw [Group.tileWords_putEls_self _ _ _ _ (by simp), mapTile_getD hj (by rw [Group.length_tileWords]; omega)]
  by_cases both : occ.getLsbD i = true ∧ occ.getLsbD j = true
  · rw [if_pos both, if_pos (by simp [both])]
  · rw [if_neg both, if_neg (by simpa using both)]

/-- What MLUT does: it completes, or queues (R239). -/
theorem exec_mlut {m : LutMode} {async : Bool} {ad aa vb : Reg} (a : Issues (.mlut h m async ad aa vb) h x s) :
    ∃ cc lat, exec (.mlut h m async ad aa vb) s = .next
      (if async then x.issueMat h (.mlut m (x.eff h ad) (x.eff h aa)
          (x.laneRegs (x.eff h vb) (if m = .b1 ∨ m = .b1pm then 3 else 6)) x.g.occ)
        [tileFp (x.eff h ad) 1 true, tileFp (x.eff h aa) 6 false] cc lat s
      else if x.g.tilesBusy [tileFp (x.eff h ad) 1 true, tileFp (x.eff h aa) 6 false] then s
      else x.tileDone h (·.runMlut m (x.eff h ad) (x.eff h aa)
        (x.laneRegs (x.eff h vb) (if m = .b1 ∨ m = .b1pm then 3 else 6)) x.g.occ) s) := by
  cases m with
  | b1 => exact ⟨4, 8, withIssue_next _ a⟩
  | b1pm => exact ⟨4, 8, withIssue_next _ a⟩
  | b2 => exact ⟨8, 12, withIssue_next _ a⟩
  | b2s => exact ⟨8, 12, withIssue_next _ a⟩

end

end Sys2Proof.Machine
end

section
/-! PROOFS. The events of the array (16 R228): the start of the oldest ready operation, and the completion of one that has run
for its latency. -/

namespace Sys2Proof.Machine

-- As above: the theorems are checked one after the other, within the memory of the check.
set_option Elab.async false

/-! ## MATRIX_OP_START -/

/-- The first operation of a bench that has not started, among those queued on the core. -/
theorem find?_unstarted {pre post : List MatQ} {q : MatQ} {bench : Nat}
    (older : ∀ e ∈ pre, e.bench ≠ bench ∨ e.started ≠ none) (here : q.bench = bench) (idle : q.started = none) :
    (pre ++ q :: post).find? (fun q => q.bench == bench && q.started.isNone) = some q := by
  rw [List.find?_append, List.find?_cons]
  have none_ : pre.find? (fun q => q.bench == bench && q.started.isNone) = none := by
    rw [List.find?_eq_none]
    intro e he
    rcases older e he with other | begun
    · simp [other]
    · simp [begun]
  simp [none_, here, idle]

@[simp] theorem State.op?_modCore (s : State) (c : Nat) (f : Core → Core) (o : ORef) : (s.modCore c f).op? o = s.op? o := rfl

@[simp] theorem State.group?_modCore (s : State) (c : Nat) (f : Core → Core) (a b : Nat) :
    (s.modCore c f).group? a b = s.group? a b := rfl

/-- A core's queue without the operations that are gone. -/
def State.purgeMat (s : State) (core : Nat) : State :=
  s.modCore core fun c => { c with matq := c.matq.filter fun q => (s.op? ⟨q.team, q.grp, q.op⟩).isSome }

/-- An operation of a core's queue starts on its bench's array (R228). -/
def State.startMat (s : State) (core bench : Nat) (q : MatQ) : State :=
  s.modCore core fun c => { c with
    matFree := c.matFree.set bench (s.now + q.cc)
    matq := c.matq.map fun y => if y = q then { y with started := some s.now } else y }

section
variable {s : State} {core bench : Nat} {pre post : List MatQ} {q : MatQ} {tm : Team} {g : Group} {p : Op}
  (queue : (s.core core).matq = pre ++ q :: post)
  (live : ∀ e ∈ pre ++ q :: post, (s.op? ⟨e.team, e.grp, e.op⟩).isSome)
include queue live

theorem State.purgeMat_matq : ((s.purgeMat core).core core).matq = pre ++ q :: post := by
  unfold State.purgeMat
  rw [State.core_modCore, if_pos rfl]
  dsimp only
  rw [queue, List.filter_eq_self]
  exact live

theorem State.startMat_queue :
    (∃ e ∈ (((s.purgeMat core).startMat core bench q).core core).matq, e = { q with started := some s.now }) ∧
    (((s.purgeMat core).startMat core bench q).core core).matFree = (s.core core).matFree.set bench (s.now + q.cc) := by
  unfold State.startMat
  rw [State.core_modCore, if_pos rfl]
  dsimp only
  rw [State.purgeMat_matq queue live]
  refine ⟨⟨_, List.mem_map.mpr ⟨q, by simp, if_pos rfl⟩, rfl⟩, ?_⟩
  unfold State.purgeMat
  rw [State.core_modCore, if_pos rfl]
  rfl

/-- With a free array and a ready operation at the head of the bench, the island's grant alone decides (R228). -/
theorem exec_matrixOpStart (older : ∀ e ∈ pre, e.bench ≠ bench ∨ e.started ≠ none) (here : q.bench = bench)
    (idle : q.started = none) (op : s.op? ⟨q.team, q.grp, q.op⟩ = some (tm, g, p)) (ready : p.matReady = true)
    (due : (s.core core).matFree.getD bench 0 ≤ s.now) : exec (.matrixOpStart core bench) s = .next
      { if s.grants.getD (islandOf core) 0 < s.demand.getD (islandOf core) 0 ∧ (Config.freeWord s.free).getLsbD 0
          then s.purgeMat core else (s.purgeMat core).startMat core bench q with free := s.free + 1 } := by
  have isSome (e : MatQ) :
      ((s.op? ⟨e.team, e.grp, e.op⟩).map fun _ => true).getD false = (s.op? ⟨e.team, e.grp, e.op⟩).isSome := by
    cases s.op? ⟨e.team, e.grp, e.op⟩ <;> rfl
  have kept : (s.core core).matq.filter (fun e => (s.op? ⟨e.team, e.grp, e.op⟩).isSome) = pre ++ q :: post := by
    rw [queue, List.filter_eq_self]; exact live
  have start : ¬ (!p.matReady || decide (s.now < (s.core core).matFree.getD bench 0)) = true := by
    rw [ready, Bool.not_true, Bool.false_or, decide_eq_true_eq]; omega
  show execMatrixOpStart .. = _
  unfold execMatrixOpStart
  simp only [isSome, kept, find?_unstarted older here idle, State.op?_modCore, op]
  refine (if_neg start).trans ?_
  by_cases delayed : s.grants.getD (islandOf core) 0 < s.demand.getD (islandOf core) 0 ∧ (Config.freeWord s.free).getLsbD 0
  · rw [if_pos delayed]
    exact if_pos delayed
  · rw [if_neg delayed]
    exact if_neg delayed

end

/-! ## Writing a line back leaves the teams -/

theorem State.homeLine_teams (s : State) (k : Nat) (m : BitVec 64) (d : BitVec 512) :
    (s.homeLine k m d).teams = s.teams := by
  unfold State.homeLine
  split
  · rfl
  · split
    · rfl
    · rfl

theorem State.wbDie_teams (s : State) (d k : Nat) : (s.wbDie d k).teams = s.teams := by
  unfold State.wbDie
  dsimp only
  rw [State.modDie_teams]
  split
  · rfl
  · exact s.homeLine_teams ..

theorem State.dieLine_teams (s : State) (d k : Nat) (m : BitVec 64) (x : BitVec 512) :
    (s.dieLine d k m x).teams = s.teams := by
  unfold State.dieLine
  split
  · exact s.homeLine_teams ..
  · dsimp only
    rw [State.modDie_teams]
    split
    · split
      · exact s.wbDie_teams ..
      · rfl
    · rfl

theorem State.wbL1_teams (s : State) (c k : Nat) : (s.wbL1 c k).teams = s.teams := by
  unfold State.wbL1
  dsimp only
  split
  · rfl
  · exact s.dieLine_teams ..

theorem State.evictL1_teams (s : State) (c k : Nat) : (s.evictL1 c k).teams = s.teams := s.wbL1_teams c k

theorem State.engHull_teams (s : State) (c ctx : Nat) (fp : List Region) : (s.engHull c ctx fp).teams = s.teams := by
  unfold State.engHull
  dsimp only
  refine foldl_keeps (P := fun t : State => t.teams = s.teams) (fun t k e => (t.evictL1_teams c k).trans e) _ _ ?_
  exact foldl_keeps (P := fun t : State => t.teams = s.teams) (fun t k e => (t.wbL1_teams c k).trans e) _ _ rfl

theorem State.engReady_teams (s : State) (tm : Team) (w : Where) : (s.engReady tm w).teams = s.teams := by
  unfold State.engReady
  split
  · rfl
  · exact foldl_keeps (P := fun t : State => t.teams = s.teams) (fun t k e => (t.wbL1_teams _ k).trans e) _ _ rfl

theorem State.mmvRows_teams (s : State) (tm : Team) (bench : Nat) (w st : DWord) (nr n : Nat) :
    (s.mmvRows tm bench w st nr n).1.teams = s.teams := by
  have ready (l : List Where) : (l.foldl (fun s w => s.engReady tm w) s).teams = s.teams :=
    foldl_keeps (P := fun t : State => t.teams = s.teams) (fun t w e => (t.engReady_teams tm w).trans e) _ _ rfl
  unfold State.mmvRows
  dsimp only
  split
  · rfl
  · split
    · exact ready _
    · exact ready _

/-! ## MATRIX_ASYNC_COMPLETION -/

/-- The group of an operation. -/
theorem State.op?_group {s : State} {o : ORef} {tm : Team} {g : Group} {p : Op} (e : s.op? o = some (tm, g, p)) :
    s.group? o.team o.grp = some g := by
  unfold State.op? at e
  split at e
  · cases e
  · next team =>
    split at e
    · cases e
    · next group =>
      obtain ⟨q, -, e⟩ := Option.map_eq_some_iff.mp e
      cases e
      simp [State.group?, team, group]

theorem State.group?_of_teams {s t : State} (e : t.teams = s.teams) (a b : Nat) : t.group? a b = s.group? a b := by
  unfold State.group? State.team?
  rw [e]

@[simp] theorem Group.opDone_file (g : Group) (i : Nat) (loc : Loc) : (g.opDone i).file loc = g.file loc := by
  cases loc <;> rfl

theorem Group.opDone_ne (g : Group) (i : Nat) : ∀ e ∈ (g.opDone i).ops, e.id ≠ i := by
  intro e he
  obtain ⟨q, hq, rfl⟩ := List.mem_map.mp he
  simpa using (List.mem_filter.mp hq).2

section
variable {s : State} {t gi : Nat} {g : Group} (group : s.group? t gi = some g)
include group

/-- An engine operation that updates no barrier register ends: its group is as before without it (14 R213). -/
theorem State.endEngine_group {p : Op} (noBar : p.bn = none) :
    (s.endEngine t gi p []).group? t gi = some (g.opDone p.id) := by
  have kept : s.barUpdate t gi p false = s := by
    have on (u : State) (target : Nat) : u.barUpdateOn t gi p false target = u := by
      simp [State.barUpdateOn, noBar]
    unfold State.barUpdate
    split
    · exact foldl_keeps (P := (· = s)) (fun u m e => (on u m).trans e) _ _ rfl
    · exact on s t
  show ((s.barUpdate t gi p false).modGroup t gi fun g => g.opDone p.id).group? t gi = _
  rw [kept, State.group?_modGroup _ _ _ _ _ (·.opDone p.id) fun _ => rfl, if_pos rfl, group]
  rfl

/-- A live group keeps the fault of an operation that ends (14 R219). -/
theorem State.endEngine_fault (live : g.live = true) (p : Op) (f : EFault) : (s.endEngine t gi p [f]).group? t gi =
    some ({ g with efaults := g.efaults ++ [f] }.opDone p.id) := by
  show ((s.keepFault t gi f).modGroup t gi fun g => g.opDone p.id).group? t gi = _
  have grp (g : Group) : (if g.live then { g with efaults := g.efaults ++ [f] } else g).grp = g.grp := by split <;> rfl
  rw [State.group?_modGroup _ _ _ _ _ (·.opDone p.id) fun _ => rfl, if_pos rfl, State.keepFault,
    State.group?_modGroup _ _ _ _ _ _ grp, if_pos rfl, group]
  simp [live]

end

/-- A form's effect on its group's tiles, which takes `n` free values; a group that has retired keeps its tiles. -/
def State.putMat (s : State) (o : ORef) (n : Nat) (f : Group → Group) : State :=
  { s.modGroup o.team o.grp (fun g => if g.live then f g else g) with free := s.free + n }

section
variable {s : State} {o : ORef} {g : Group} (group : s.group? o.team o.grp = some g) (live : g.live = true)
include group live

/-- A form that has run ends with its effect on the tiles (R228). -/
theorem State.putMat_ends {p : Op} (noBar : p.bn = none) (n : Nat) {f : Group → Group}
    (tilesOnly : ∀ g : Group, g.SameButTiles (f g)) :
    ∃ g', ((s.putMat o n f).endEngine o.team o.grp p []).group? o.team o.grp = some g' ∧
      (∀ b, g'.tileWords b = (f g).tileWords b) ∧ (∀ e ∈ g'.ops, e.id ≠ p.id) ∧ g'.regsAs g := by
  have put : (s.putMat o n f).group? o.team o.grp = some (f g) := by
    show (s.modGroup o.team o.grp fun g => if g.live then f g else g).group? o.team o.grp = _
    rw [State.group?_modGroup _ _ _ _ _ _ fun g => by split; exacts [(tilesOnly g).grp, rfl], if_pos rfl, group]
    simp [live]
  refine ⟨_, State.endEngine_group put noBar, fun b => Group.tileWords_of_tiles rfl b, Group.opDone_ne _ _,
    fun loc reg => ?_⟩
  rw [Group.opDone_file, (tilesOnly g).regsAs loc reg]

/-- A form that meets a fault ends with its tiles as they are, and its group keeps the fault (14 R219, 16 R236). -/
theorem State.fault_ends (p : Op) (f : EFault) :
    ∃ g', (s.endEngine o.team o.grp p [f]).group? o.team o.grp = some g' ∧
      ((∀ b, g'.tileWords b = g.tileWords b) ∧ f ∈ g'.efaults) ∧ (∀ e ∈ g'.ops, e.id ≠ p.id) ∧ g'.regsAs g := by
  refine ⟨_, State.endEngine_fault group live p f, ⟨fun b => Group.tileWords_of_tiles rfl b, ?_⟩, Group.opDone_ne _ _,
    fun loc _ => ?_⟩
  · exact List.mem_append_right _ (List.mem_singleton.mpr rfl)
  · rw [Group.opDone_file]
    cases loc <;> rfl

end

/-- An operation leaves its core's queue. -/
def State.takeMat (s : State) (core : Nat) (q : MatQ) : State :=
  s.modCore core fun c => { c with matq := c.matq.filter (· ≠ q) }

/-- The state in which MMV's rows have been streamed, with what was read (R236). -/
def State.streamed (s : State) (tm : Team) (grp : Nat) (fp : List Region) (w st : DWord) (nr n : Nat) :
    State × Except LFault (List (List Byte)) :=
  (s.engHull tm.core (tm.ctx s) fp).mmvRows tm (grp % 4) w st nr n

theorem State.streamed_teams (s : State) (tm : Team) (grp : Nat) (fp : List Region) (w st : DWord) (nr n : Nat) :
    (s.streamed tm grp fp w st nr n).1.teams = s.teams :=
  (State.mmvRows_teams ..).trans (s.engHull_teams ..)

/-- What an operation that has left its queue does at its end (R228, R236). -/
def State.completeMat (s : State) (tm : Team) (o : ORef) (g : Group) (p : Op) : State :=
  if g.tilesBad p.fp then s.endEngine o.team o.grp p [opFault p (.plain 0 .dataerr 0) p.mask]
  else match p.kind with
    | .mma d ta tb tc rows occ cols sl =>
      (s.putMat o 4096 fun g => g.runMma d ta tb tc rows occ cols sl s.free).endEngine o.team o.grp p []
    | .mlut m d a planes occ => (s.putMat o 0 (·.runMlut m d a planes occ)).endEngine o.team o.grp p []
    | .mmv d tw tv tc w st nr xs occ =>
      (match s.streamed tm o.grp p.fp w st nr (mmvBytes tw tv) with
      | (s, .ok rows) =>
        (s.putMat o 1024 fun g => g.putEls d (mmvTile tw tv tc rows xs occ s.free (g.tileWords d))).endEngine
          o.team o.grp p []
      | (s, .error f) => s.endEngine o.team o.grp p [opFault p f p.mask])
    | _ => s

/-- A started operation whose latency has passed completes (R228). -/
theorem exec_matrixAsyncCompletion {s : State} {o : ORef} {tm : Team} {g : Group} {p : Op} {q : MatQ} {st : Nat}
    (op : s.op? o = some (tm, g, p))
    (found : (s.core tm.core).matq.find? (fun q => q.team == o.team && q.grp == o.grp && q.op == o.op) = some q)
    (begun : q.started = some st) (due : st + q.lat ≤ s.now) :
    exec (.matrixAsyncCompletion o) s = .next ((s.takeMat tm.core q).completeMat tm o g p) := by
  show execMatrixAsyncCompletion o s = _
  unfold execMatrixAsyncCompletion State.completeMat
  simp only [op, found, begun, due, State.group?_modCore, State.op?_group op, Option.map_some, Option.getD_some, decide_true,
    Bool.not_true, Bool.false_eq_true, if_false]
  by_cases bad : g.tilesBad p.fp = true
  · rw [if_pos bad, if_pos bad]
    rfl
  · rw [if_neg bad, if_neg bad]
    cases p.kind with
    | mmv d tw tv tc w stp nr xs occ =>
      dsimp only
      split
      · next e => rw [show (s.takeMat tm.core q).streamed tm o.grp p.fp w stp nr (mmvBytes tw tv) = _ from e]; rfl
      · next e => rw [show (s.takeMat tm.core q).streamed tm o.grp p.fp w stp nr (mmvBytes tw tv) = _ from e]
    | _ => rfl

section
variable {s : State} {tm : Team} {o : ORef} {g : Group} {p : Op}

theorem State.completeMat_bad (bad : g.tilesBad p.fp = true) :
    s.completeMat tm o g p = s.endEngine o.team o.grp p [opFault p (.plain 0 .dataerr 0) p.mask] := by
  rw [State.completeMat, if_pos bad]

variable (good : g.tilesBad p.fp = false)
include good

theorem State.completeMat_mma {d : Nat} {ta tb : ElemTy} {tc : AccTy} {rows : List (List Word)} {occ : Word}
    {cols : List (List (List Word) × Word)} {sl : List Nat} (kind : p.kind = .mma d ta tb tc rows occ cols sl) :
    s.completeMat tm o g p =
      (s.putMat o 4096 fun g => g.runMma d ta tb tc rows occ cols sl s.free).endEngine o.team o.grp p [] := by
  simp only [State.completeMat, good, kind, Bool.false_eq_true, if_false]

theorem State.completeMat_mlut {m : LutMode} {d a : Nat} {planes : List (List Word)} {occ : Word}
    (kind : p.kind = .mlut m d a planes occ) :
    s.completeMat tm o g p = (s.putMat o 0 (·.runMlut m d a planes occ)).endEngine o.team o.grp p [] := by
  simp only [State.completeMat, good, kind, Bool.false_eq_true, if_false]

variable {d : Nat} {tw tv : ElemTy} {tc : AccTy} {w st : DWord} {nr : Nat} {xs : List (List (List Word))} {occ : Word}
  {s' : State}

theorem State.completeMat_mmv {rows : List (List Byte)} (kind : p.kind = .mmv d tw tv tc w st nr xs occ)
    (read : s.streamed tm o.grp p.fp w st nr (mmvBytes tw tv) = (s', .ok rows)) : s.completeMat tm o g p =
      (s'.putMat o 1024 fun g => g.putEls d (mmvTile tw tv tc rows xs occ s'.free (g.tileWords d))).endEngine
        o.team o.grp p [] := by
  simp only [State.completeMat, good, kind, read, Bool.false_eq_true, if_false]

theorem State.completeMat_mmv_fault {f : LFault} (kind : p.kind = .mmv d tw tv tc w st nr xs occ)
    (read : s.streamed tm o.grp p.fp w st nr (mmvBytes tw tv) = (s', .error f)) :
    s.completeMat tm o g p = s'.endEngine o.team o.grp p [opFault p f p.mask] := by
  simp only [State.completeMat, good, kind, read, Bool.false_eq_true, if_false]

end

end Sys2Proof.Machine
end

section
/-! PROOFS. MMAQ (16 R233, R234): the arrival of a member at its quartet. -/

namespace Sys2Proof.Machine

-- As above: the theorems are checked one after the other, within the memory of the check.
set_option Elab.async false

/-! ## The arrival of a member -/

/-- What a member brings to its quartet (R233). -/
def Iss.quartArr (x : Iss) (h : Hdr) (async : Bool) (ta tb : ElemTy) (tc : AccTy) (ad va vb : Reg) : QuartArr :=
  { grp := x.r.grp, split := x.sp.id, async := async, ta := ta, tb := tb, tc := tc, d := x.eff h ad
    rows := x.laneRegs (x.eff h va) (matRegs ta), cols := x.laneRegs (x.eff h vb) (matRegs tb), occ := x.g.occ
    op := if async then some x.g.nextOp else none }

/-- The group of a member that has counted its MMAQ and, in an asynchronous form, entered its operation (R228, R233). -/
def Iss.mmaqEntered (x : Iss) (h : Hdr) (async : Bool) (ta tb : ElemTy) (tc : AccTy) (ad va : Reg) (now : Nat)
    (g : Group) : Group :=
  let g := { g with mmaqs := x.g.mmaqs + 1 }
  if async then
    x.addOp now (.mma (x.eff h ad) ta tb tc (x.laneRegs (x.eff h va) (matRegs ta)) x.g.occ []
      (g.slabCheck ta tb (x.eff h ad) 4).list) [3] true [tileFp (x.eff h ad) 4 true] none 0 none g
  else g

/-- Two changes of one group after each other. -/
theorem State.modG_modG (s : State) (r : SRef) {f f' : Group → Group} (hf : ∀ g, (f g).grp = g.grp) :
    (s.modG r f).modG r f' = s.modG r fun g => f' (f g) := by
  have groups (tm : Team) : (tm.modGroup r.grp f).modGroup r.grp f' = tm.modGroup r.grp fun g => f' (f g) := by
    unfold Team.modGroup
    rw [List.map_map]
    congr 1
    refine List.map_congr_left fun g _ => ?_
    by_cases e : g.grp = r.grp
    · simp [e, hf]
    · simp [e]
  unfold State.modG State.modGroup State.modTeam
  dsimp only
  rw [List.map_map]
  congr 1
  refine List.map_congr_left fun tm _ => ?_
  by_cases e : tm.id = r.team
  · simp [e, groups]
  · simp [e]

section
variable {h : Hdr} {async : Bool} {ta tb : ElemTy} {tc : AccTy} {ad va vb : Reg} {x : Iss} {s : State}
  (a : Issues (.mmaq h async ta tb tc ad va vb) h x s)
include a

/-- A team that is no multiple of four takes QUARTET (R234). -/
theorem exec_mmaq_size (odd : x.tm.groups.length % 4 ≠ 0) :
    exec (.mmaq h async ta tb tc ad va vb) s = .next (x.groupFault h .quartet 0 s) := by
  show execMmaq .. = _
  rw [execMmaq, withIssue_next _ a]
  dsimp only
  rw [if_pos odd]

/-- A member that may arrive is held at the next rendezvous of its quartet, with its operands captured (R233). -/
theorem exec_mmaq (even : x.tm.groups.length % 4 = 0) (settled : x.g.slabCheck ta tb (x.eff h ad) 4 ≠ .wait)
    (fits : x.g.slabCheck ta tb (x.eff h ad) 4 ≠ .over)
    (room : (if async then x.g.full [3] true else x.g.tilesBusy [tileFp (x.eff h ad) 4 true]) = false)
    (members : ∀ g ∈ x.tm.groups, g.grp / 4 = x.r.grp / 4 → g.live = true) :
    exec (.mmaq h async ta tb tc ad va vb) s = .next (x.hold h (.mmaq x.g.mmaqs) true
      ((s.modG x.r (x.mmaqEntered h async ta tb tc ad va s.now)).modTeam x.r.team fun t =>
        { t with quartArr := t.quartArr ++ [(x.r.grp / 4, x.g.mmaqs, x.quartArr h async ta tb tc ad va vb)] })) := by
  have lives : x.tm.groups.any (fun g => g.grp / 4 == x.r.grp / 4 && !g.live) = false := by
    rw [List.any_eq_false]
    intro g hg
    by_cases e : g.grp / 4 = x.r.grp / 4
    · simp [members g hg e]
    · simp [e]
  show execMmaq .. = _
  rw [execMmaq, withIssue_next _ a]
  dsimp only
  rw [if_neg (not_not.mpr even)]
  split
  · next e => exact absurd e settled
  · next e => exact absurd e fits
  · cases async with
    | false =>
      have idle : x.g.tilesBusy [tileFp (x.eff h ad) 4 true] = false := room
      simp only [idle, lives, Bool.false_and, Bool.not_false, Bool.and_false, Bool.or_self, Bool.false_eq_true, if_false]
      rfl
    | true =>
      have free : x.g.full [3] true = false := room
      simp only [free, lives, Bool.not_true, Bool.false_and, Bool.and_false, Bool.or_self, Bool.false_eq_true, if_false,
        if_true]
      rw [State.modG_modG s x.r (f := fun g => { g with mmaqs := x.g.mmaqs + 1 }) fun _ => rfl]
      rfl

end

/-- What the arrival of a lone split leaves: its team lists it, and its group is as before but for the MMAQ counted, the
operation entered and the hold. -/
theorem Iss.inPlace.mmaqHeld {x : Iss} {s : State} (p : x.inPlace s) (l : x.lone) (h : Hdr) (async : Bool) (ta tb : ElemTy)
    (tc : AccTy) (ad va : Reg) (hd : Hold) (arr : List (Nat × Nat × QuartArr)) :
    ∃ t' g y,
      (x.hold h hd true ((s.modG x.r (x.mmaqEntered h async ta tb tc ad va s.now)).modTeam x.r.team fun t =>
        { t with quartArr := t.quartArr ++ arr })).team? x.r.team = some t' ∧
      t'.quartArr = x.tm.quartArr ++ arr ∧ t'.group? x.r.grp = some g ∧ g.mmaqs = x.g.mmaqs + 1 ∧
      (∀ loc, g.file loc = x.g.file loc) ∧ (∀ b, g.tileWords b = x.g.tileWords b) ∧ g.splits = [y] ∧ y.pc = x.sp.pc ∧
      y.hold = hd := by
  obtain ⟨-, team, -, group, -⟩ := State.at?_eq p
  obtain ⟨alone, -, -⟩ := l
  have grp (g : Group) : (x.mmaqEntered h async ta tb tc ad va s.now g).grp = g.grp := by cases async <;> rfl
  have same : (x.mmaqEntered h async ta tb tc ad va s.now x.g).mmaqs = x.g.mmaqs + 1 ∧
      (∀ loc, (x.mmaqEntered h async ta tb tc ad va s.now x.g).file loc = x.g.file loc) ∧
      (x.mmaqEntered h async ta tb tc ad va s.now x.g).tiles = x.g.tiles ∧
      (x.mmaqEntered h async ta tb tc ad va s.now x.g).splits = [x.sp] := by
    cases async
    all_goals exact ⟨rfl, fun loc => by cases loc <;> rfl, rfl, alone⟩
  obtain ⟨counted, file, tiles, lone⟩ := same
  have splits := Group.consume_lone _ x.sp s.now h.st.toNat true lone
  have entered : (s.modG x.r (x.mmaqEntered h async ta tb tc ad va s.now)).team? x.r.team =
      some (x.tm.modGroup x.r.grp (x.mmaqEntered h async ta tb tc ad va s.now)) := by
    rw [State.modG, State.team?_modGroup, if_pos rfl, team]
    rfl
  have listed := State.team?_modTeam (s.modG x.r (x.mmaqEntered h async ta tb tc ad va s.now)) x.r.team x.r.team
    (fun t => { t with quartArr := t.quartArr ++ arr }) fun _ => rfl
  rw [if_pos rfl, entered] at listed
  have held := State.team?_modGroup ((s.modG x.r (x.mmaqEntered h async ta tb tc ad va s.now)).modTeam x.r.team fun t =>
    { t with quartArr := t.quartArr ++ arr }) x.r.team x.r.grp x.r.team fun g =>
      (g.consume s.now x.sp.id h.st.toNat true).modSplit x.sp.id fun y => { y with hold := hd }
  rw [if_pos rfl, listed] at held
  refine ⟨_, ((x.mmaqEntered h async ta tb tc ad va s.now x.g).consume s.now x.sp.id h.st.toNat true).modSplit x.sp.id
    fun y => { y with hold := hd }, { x.sp with
      readyAt := s.now + h.st.toNat + 1, issuedAt := s.now, loud := x.sp.loud || true, hold := hd }, held, rfl, ?_, counted,
    fun loc => ?_, Group.tileWords_of_tiles tiles, ?_, rfl, rfl⟩
  · rw [Team.group?_modGroup _ _ _ _ fun g => by simp, if_pos rfl]
    show Option.map _ ((x.tm.modGroup x.r.grp _).group? x.r.grp) = _
    rw [Team.group?_modGroup _ _ _ _ grp, if_pos rfl, group]
    rfl
  · rw [Group.modSplit_file, Group.consume_file, file]
  · simp only [Group.modSplit, splits, List.map_cons, List.map_nil, if_true]

end Sys2Proof.Machine
end

section
/-! PROOFS. QUARTET_RENDEZVOUS (16 R233, R234): the arrivals it takes, and what it leaves of a member whose form is
synchronous. -/

namespace Sys2Proof.Machine

-- As above: the theorems are checked one after the other, within the memory of the check.
set_option Elab.async false

/-! ## What the rendezvous does -/

/-- The members of a rendezvous brought the same form and types. -/
def sameForms : List QuartArr → Bool
  | [] => true
  | a :: as => as.all fun b => (b.async, b.ta, b.tb, b.tc) == (a.async, a.ta, a.tb, a.tc)

theorem sameForms_iff (as : List QuartArr) : sameForms as = true ↔
    ∀ a ∈ as, ∀ b ∈ as, a.async = b.async ∧ a.ta = b.ta ∧ a.tb = b.tb ∧ a.tc = b.tc := by
  cases as with
  | nil => simp [sameForms]
  | cons e as =>
    have asFirst : sameForms (e :: as) = true ↔
        ∀ a ∈ e :: as, a.async = e.async ∧ a.ta = e.ta ∧ a.tb = e.tb ∧ a.tc = e.tc := by
      simp [sameForms, List.all_eq_true]
    rw [asFirst]
    constructor
    · intro first a ha b hb
      obtain ⟨async, ta, tb, tc⟩ := first a ha
      obtain ⟨async', ta', tb', tc'⟩ := first b hb
      exact ⟨async.trans async'.symm, ta.trans ta'.symm, tb.trans tb'.symm, tc.trans tc'.symm⟩
    · exact fun pairs a ha => pairs a ha e List.mem_cons_self

/-- The least of some numbers, as the model folds it. -/
theorem foldl_min_of_least {i n : Nat} {is : List Nat} (least : (i :: is).foldl min n = n) (mem : n ∈ i :: is) :
    is.foldl min i = n := by
  have whole : (n :: i :: is).min? = some n := by rw [List.min?_cons', least]
  have below := (List.min?_eq_some_iff.mp whole).2
  have found : (i :: is).min? = some n := List.min?_eq_some_iff.mpr ⟨mem, fun b hb => below b (List.mem_cons_of_mem _ hb)⟩
  rw [List.min?_cons'] at found
  exact Option.some.inj found

/-- A complete quartet whose members live passes when their forms are the same, and fails otherwise. -/
theorem exec_quartetRendezvous {s : State} {t q n : Nat} {tm : Team} (team : s.team? t = some tm)
    (arrived : (tm.quartArr.filter (·.1 = q)).map (·.2.1) ≠ [])
    (least : ((tm.quartArr.filter (·.1 = q)).map (·.2.1)).foldl min n = n)
    (mem : n ∈ (tm.quartArr.filter (·.1 = q)).map (·.2.1)) {as : List QuartArr}
    (members : as = sortBy (·.grp) (tm.quartet q n)) (four : as.length = 4)
    (live : ∀ g ∈ tm.groups, g.grp / 4 = q → g.live = true) {s' : State}
    (taken : s' = s.modTeam t fun t => { t with quartArr := t.quartArr.filter fun a => !(a.1 = q ∧ a.2.1 = n) }) :
    exec (.quartetRendezvous t q) s = .next (if sameForms as
      then as.foldl (fun s a => s.passQuart t tm.core (as.map fun b => (b.cols, b.occ)) a) s'
      else as.foldl (fun s a => s.failQuart t a) s') := by
  have lives : tm.groups.any (fun g => g.grp / 4 == q && !g.live) = false := by
    rw [List.any_eq_false]
    intro g hg
    by_cases e : g.grp / 4 = q
    · simp [live g hg e]
    · simp [e]
  show execQuartetRendezvous t q s = _
  unfold execQuartetRendezvous
  simp only [team]
  split
  · next e => exact absurd e arrived
  · next i is e =>
    rw [e] at least mem
    simp only [foldl_min_of_least least mem, ← members, ← taken, lives, four, Nat.lt_irrefl, Bool.false_eq_true, if_false]
    by_cases same : sameForms as = true
    · rw [if_pos same]
      exact if_pos same
    · rw [if_neg same]
      exact if_neg same

/-! ## A member that passes -/

/-- Taking arrivals off a team's list leaves the groups. -/
theorem State.group?_takeQuartet (s : State) (t : Nat) (f : List (Nat × Nat × QuartArr) → List (Nat × Nat × QuartArr))
    (k : Nat) : (s.modTeam t fun tm => { tm with quartArr := f tm.quartArr }).group? t k = s.group? t k := by
  unfold State.group?
  rw [State.team?_modTeam _ _ _ (fun tm => { tm with quartArr := f tm.quartArr }) fun _ => rfl, if_pos rfl]
  cases s.team? t with
  | none => rfl
  | some tm => rfl

/-- A member that passes changes its own group alone. -/
theorem State.passQuart_group?_ne (s : State) (t core : Nat) (cols : List (List (List Word) × Word)) (a : QuartArr) {k : Nat}
    (ne : k ≠ a.grp) : (s.passQuart t core cols a).group? t k = s.group? t k := by
  have other : (t, k) ≠ (t, a.grp) := fun e => ne (Prod.mk.inj e).2
  have passes (s : State) : (s.passHeld ⟨t, a.grp, a.split⟩ 2).group? t k = s.group? t k := by
    unfold State.passHeld State.modG
    rw [State.group?_modGroup _ _ _ _ _ _ fun g => by split <;> simp, if_neg other]
  unfold State.passQuart
  split
  · rw [passes, State.queueMat, State.group?_modCore]
    refine (State.group?_modGroup _ _ _ _ _ _ ?_).trans (if_neg other)
    exact fun _ => rfl
  · rw [passes]
    show (s.modGroup t a.grp _).group? t k = _
    rw [State.group?_modGroup _ _ _ _ _ _ fun g => (g.sameButTiles_runMma ..).grp, if_neg other]

/-- Members of other groups that pass leave a group as it is. -/
theorem State.passQuarts_group?_ne (t core : Nat) (cols : List (List (List Word) × Word)) {k : Nat} (as : List QuartArr)
    (others : ∀ a ∈ as, k ≠ a.grp) (s : State) :
    (as.foldl (fun s a => s.passQuart t core cols a) s).group? t k = s.group? t k := by
  induction as generalizing s with
  | nil => rfl
  | cons a as ih =>
    rw [List.foldl_cons, ih fun b hb => others b (List.mem_cons_of_mem _ hb)]
    exact s.passQuart_group?_ne t core cols a (others a List.mem_cons_self)

/-- What a synchronous member's rendezvous makes of its group: the sums over the columns of every member (R233). -/
def QuartArr.runSync (a : QuartArr) (cols : List (List (List Word) × Word)) (free : Nat) (g : Group) : Group :=
  g.runMma a.d a.ta a.tb a.tc a.rows a.occ cols (g.slabCheck a.ta a.tb a.d 4).list free

/-- The lone split of a synchronous member passes its two words, and its four tiles take the sums over the columns of every
member (R233). -/
theorem State.passQuart_sync {s : State} {t core : Nat} {cols : List (List (List Word) × Word)} {a : QuartArr} {g : Group}
    {y : Split} (sync : a.op = none) (group : s.group? t a.grp = some g) (alone : g.splits = [y]) (id : y.id = a.split)
    (top : y.parent = none) (stays : y.leave = none) :
    ∃ g' y', (s.passQuart t core cols a).group? t a.grp = some g' ∧ g'.splits = [y'] ∧ y'.pc = y.pc + 8 ∧ y'.hold = .run ∧
      g'.regsAs g ∧ ∀ b, g'.tileWords b = (g.runMma a.d a.ta a.tb a.tc a.rows a.occ cols
        (g.slabCheck a.ta a.tb a.d 4).list s.free).tileWords b := by
  have only (g : Group) : g.SameButTiles (a.runSync cols s.free g) := g.sameButTiles_runMma ..
  have splits : (a.runSync cols s.free g).splits = [y] := (only g).splits.trans alone
  have summed : ({ s.modGroup t a.grp (a.runSync cols s.free) with free := s.free + 4096 } : State).group? t a.grp =
      some (a.runSync cols s.free g) := by
    show (s.modGroup t a.grp (a.runSync cols s.free)).group? t a.grp = _
    rw [State.group?_modGroup _ _ _ _ _ _ fun g => (only g).grp, if_pos rfl, group]
    rfl
  have moved := (a.runSync cols s.free g).move_of_none s.now a.split (y.pc + BitVec.ofNat 64 (4 * 2)) .seq
    (by rw [splits]; simp [top, stays])
  have passed : (s.passQuart t core cols a).group? t a.grp =
      some ((a.runSync cols s.free g).move s.now a.split (y.pc + BitVec.ofNat 64 (4 * 2)) .seq) := by
    simp only [State.passQuart, sync, State.passHeld, State.modG]
    rw [State.group?_modGroup _ _ _ _ _ _ fun g => by split <;> simp, if_pos rfl]
    refine (congrArg _ summed).trans ?_
    simp [Group.split?, splits, id]
  rw [moved] at passed
  refine ⟨_, { y with
    pc := y.pc + BitVec.ofNat 64 (4 * 2), arrivedBy := .seq, only := none, hold := .run, words := 0, bar := none }, passed,
    ?_, rfl, rfl, fun loc reg => ?_, fun b => Group.tileWords_of_tiles rfl b⟩
  · simp only [Group.modSplit, splits, List.map_cons, List.map_nil, id, if_true]
  · rw [Group.modSplit_file, (only g).regsAs loc reg]

/-- After every member has passed, a synchronous member's group is as its own passing left it. -/
theorem State.passQuarts_sync {s : State} {t core : Nat} {cols : List (List (List Word) × Word)} {as : List QuartArr}
    (distinct : (as.map (·.grp)).Nodup) {a : QuartArr} (mem : a ∈ as) {g : Group} {y : Split} (sync : a.op = none)
    (group : s.group? t a.grp = some g) (alone : g.splits = [y]) (id : y.id = a.split) (top : y.parent = none)
    (stays : y.leave = none) :
    ∃ g' y' f, (as.foldl (fun s a => s.passQuart t core cols a) s).group? t a.grp = some g' ∧ g'.splits = [y'] ∧
      y'.pc = y.pc + 8 ∧ y'.hold = .run ∧ g'.regsAs g ∧ ∀ b, g'.tileWords b =
        (g.runMma a.d a.ta a.tb a.tc a.rows a.occ cols (g.slabCheck a.ta a.tb a.d 4).list f).tileWords b := by
  obtain ⟨pre, post, rfl⟩ := List.append_of_mem mem
  have apart : (∀ b ∈ pre, a.grp ≠ b.grp) ∧ ∀ b ∈ post, a.grp ≠ b.grp := by
    rw [List.map_append, List.map_cons, List.nodup_middle, List.nodup_cons, ← List.map_append] at distinct
    have absent (b : QuartArr) (hb : b ∈ pre ++ post) : a.grp ≠ b.grp := fun e =>
      distinct.1 (List.mem_map.mpr ⟨b, hb, e.symm⟩)
    exact ⟨fun b hb => absent b (List.mem_append_left _ hb), fun b hb => absent b (List.mem_append_right _ hb)⟩
  have before := (State.passQuarts_group?_ne t core cols pre apart.1 s).trans group
  obtain ⟨g', y', own, rest⟩ := State.passQuart_sync (core := core) (cols := cols) sync before alone id top stays
  refine ⟨g', y', _, ?_, rest⟩
  rw [List.foldl_append, List.foldl_cons, State.passQuarts_group?_ne t core cols post apart.2, own]

end Sys2Proof.Machine
end

section
/-! PROOFS. MMAQ, MMV, table lookup and the array's events together (16 R228 to R239). -/

namespace Sys2Proof.Machine

-- As above: the theorems are checked one after the other, within the memory of the check.
set_option Elab.async false

section
variable {h : Hdr} {x : Iss} {s : State}

/-- A lone member that may arrive at its quartet is held there with its operands captured (R233). -/
theorem mmaq_arrives {async : Bool} {ta tb : ElemTy} {tc : AccTy} {ad va vb : Reg} (p : x.inPlace s) (l : x.lone)
    (run : exec (.mmaq h async ta tb tc ad va vb) s = .next (x.hold h (.mmaq x.g.mmaqs) true
      ((s.modG x.r (x.mmaqEntered h async ta tb tc ad va s.now)).modTeam x.r.team fun t =>
        { t with quartArr := t.quartArr ++ [(x.r.grp / 4, x.g.mmaqs, x.quartArr h async ta tb tc ad va vb)] }))) :
    ∃ t t' g y a, exec (.mmaq h async ta tb tc ad va vb) s = .next t ∧ t.mem = s.mem ∧ t.team? x.r.team = some t' ∧
      t'.quartArr = x.tm.quartArr ++ [(x.r.grp / 4, x.g.mmaqs, a)] ∧ a.grp = x.r.grp ∧ a.split = x.sp.id ∧
      a.d = x.eff h ad ∧ a.rows = x.laneRegs (x.eff h va) (matRegs ta) ∧
      a.cols = x.laneRegs (x.eff h vb) (matRegs tb) ∧ a.op = (if async then some x.g.nextOp else none) ∧
      t.group? x.r.team x.r.grp = some g ∧ g.mmaqs = x.g.mmaqs + 1 ∧ (∀ loc, g.file loc = x.g.file loc) ∧
      (∀ b, g.tileWords b = x.g.tileWords b) ∧ g.splits = [y] ∧ y.pc = x.sp.pc ∧ y.hold = .mmaq x.g.mmaqs := by
  obtain ⟨t', g, y, team, listed, group, counted, file, tiles, alone, pc, hold⟩ :=
    p.mmaqHeld l h async ta tb tc ad va (.mmaq x.g.mmaqs)
      [(x.r.grp / 4, x.g.mmaqs, x.quartArr h async ta tb tc ad va vb)]
  refine ⟨_, t', g, y, x.quartArr h async ta tb tc ad va vb, run, rfl, team, listed, rfl, rfl, rfl, rfl, rfl, rfl, ?_,
    counted, file, tiles, alone, pc, hold⟩
  rw [State.group?, team]
  exact group

/-- MLUT of a lone split adds the sums of its tables and planes to its tile (R239). -/
theorem mlut_completes {m : LutMode} {ad aa vb : Reg} (p : x.inPlace s) (l : x.lone)
    (a : Issues (.mlut h m false ad aa vb) h x s)
    (idle : x.g.tilesBusy [tileFp (x.eff h ad) 1 true, tileFp (x.eff h aa) 6 false] = false) :
    Completes (.mlut h m false ad aa vb) h x s fun _ g => g.regsAs x.g ∧
      (∀ b, b ≠ x.eff h ad → g.tileWords b = x.g.tileWords b) ∧ ∀ i j, i < 32 → j < 32 →
        (g.tileWords (x.eff h ad)).getD (32 * i + j) 0 = if x.g.occ.getLsbD i = true ∧ x.g.occ.getLsbD j = true
          then (x.g.tileWords (x.eff h ad)).getD (32 * i + j) 0 + BitVec.ofInt 32 (lutSum m
            ((x.g.lutTables (x.eff h aa)).getD i [])
            ((x.laneRegs (x.eff h vb) (if m = .b1 ∨ m = .b1pm then 3 else 6)).getD j []))
          else (x.g.tileWords (x.eff h ad)).getD (32 * i + j) 0 := by
  obtain ⟨cc, lat, run⟩ := exec_mlut a
  rw [if_neg Bool.false_ne_true, idle, if_neg Bool.false_ne_true] at run
  refine p.completes l run (fun g => g.sameButTiles_runMlut ..) fun g tiles regs =>
    ⟨regs, fun b ne => ?_, fun i j hi hj => ?_⟩
  · rw [tiles, Group.runMlut, Group.tileWords_putEls_ne _ _ _ _ ne]
  · rw [tiles, Group.tileWords_runMlut _ _ _ _ _ _ hi hj]

end

/-- Where its rows have been read, MMV ends with its tile written from them (R236). -/
theorem State.completeMat_mmv_ends {s : State} {tm : Team} {o : ORef} {g : Group} {p : Op} {d : Nat} {tw tv : ElemTy}
    {tc : AccTy} {w st : DWord} {nr : Nat} {xs : List (List (List Word))} {occ : Word} {rows : List (List Byte)}
    (group : s.group? o.team o.grp = some g) (live : g.live = true) (noBar : p.bn = none) (good : g.tilesBad p.fp = false)
    (kind : p.kind = .mmv d tw tv tc w st nr xs occ)
    (read : (s.streamed tm o.grp p.fp w st nr (mmvBytes tw tv)).2 = .ok rows) :
    ∃ f g', (s.completeMat tm o g p).group? o.team o.grp = some g' ∧
      ((∀ b, b ≠ d → g'.tileWords b = g.tileWords b) ∧
        g'.tileWords d = (mmvTile tw tv tc rows xs occ f (g.tileWords d)).map (·.1)) ∧
      (∀ e ∈ g'.ops, e.id ≠ p.id) ∧ g'.regsAs g := by
  let s' := (s.streamed tm o.grp p.fp w st nr (mmvBytes tw tv)).1
  have kept : s'.group? o.team o.grp = some g := (State.group?_of_teams (s.streamed_teams ..) _ _).trans group
  rw [State.completeMat_mmv good kind (Prod.ext rfl read)]
  obtain ⟨g', found, tiles, gone, regs⟩ := State.putMat_ends kept live noBar 1024
    (f := fun g => g.putEls d (mmvTile tw tv tc rows xs occ s'.free (g.tileWords d))) fun g => g.sameButTiles_putEls ..
  refine ⟨s'.free, g', found, ⟨fun b ne => ?_, ?_⟩, gone, regs⟩
  · rw [tiles, Group.tileWords_putEls_ne _ _ _ _ ne]
  · rw [tiles, Group.tileWords_putEls_self _ _ _ _ (by simp [mmvTile])]

/-- Settles O42: each form is run to the state it leaves, and each event to the state it makes. -/
theorem quartetsStreamsAndTablesRunOnTheArray : Obligations.QuartetsStreamsAndTablesRunOnTheArray := by
  unfold Obligations.QuartetsStreamsAndTablesRunOnTheArray
  refine ⟨?_, ?_, ?_, ?_, ?_, ?_⟩
  · intro h async ta tb tc ad va vb x s i d a p l
    exact ⟨exec_mmaq_size a, fun even settled fits room members =>
      mmaq_arrives p l (exec_mmaq a even settled fits room members)⟩
  · intro s team q n tm as found arrived least mem members four live cols s'
    have run := exec_quartetRendezvous found arrived least mem members four live (s' := s') rfl
    refine ⟨fun same => ?_, fun differ => ?_⟩
    · rw [if_pos ((sameForms_iff as).mpr same)] at run
      exact ⟨_, run, fun a ha distinct sync g y group alone id top stays =>
        State.passQuarts_sync distinct ha sync ((State.group?_takeQuartet ..).trans group) alone id top stays⟩
    · rw [run, if_neg (mt (sameForms_iff as).mp differ)]
  · intro h tw tv tc ad vx sw ss nr nv x s i w st hi a base stride
    have run := exec_mmv_aligned a base stride
    refine ⟨fun beyond => ?_, fun inside may => ?_⟩
    · exact run.trans (congrArg _ (if_pos beyond))
    · exact may.enters (run.trans (congrArg _ (if_neg (Bool.eq_false_iff.mp inside))))
  · intro h m ad aa va vb x s p l d a planes el
    refine ⟨fun is free => mlutb_completes p l is free, fun is idle => mlut_completes p l is idle, fun is may => ?_⟩
    obtain ⟨cc, lat, run⟩ := exec_mlut is
    exact may.enters run
  · intro s core bench pre post q tm g p queue live older here idle op ready due
    have run := exec_matrixOpStart queue live older here idle op ready due
    have started := State.startMat_queue (bench := bench) queue live
    refine ⟨fun granted => ?_, fun throttled => ⟨_, run, ?_⟩⟩
    · rw [if_neg fun delayed => absurd delayed.1 (Nat.not_lt.mpr granted)] at run
      exact ⟨_, run, started⟩
    · split
      · exact .inr ((State.purgeMat_matq queue live).trans queue.symm)
      · exact .inl started.1
  · intro s o tm g p q st op live noBar found begun due s1 ends
    have run := exec_matrixAsyncCompletion op found begun due
    have group : (s.takeMat tm.core q).group? o.team o.grp = some g := State.op?_group op
    refine ⟨fun bad => ?_, fun good => ⟨?_, ?_, ?_, ?_⟩⟩
    · rw [State.completeMat_bad bad] at run
      obtain ⟨g', group', ⟨tiles, kept⟩, rest⟩ := State.fault_ends group live p (opFault p (.plain 0 .dataerr 0) p.mask)
      exact ⟨_, run, g', group', ⟨tiles, _, kept, rfl, rfl⟩, rest⟩
    · intro d ta tb tc rows occ cols sl kind
      rw [State.completeMat_mma good kind] at run
      exact ⟨_, _, run, State.putMat_ends group live noBar _ fun g => g.sameButTiles_runMma ..⟩
    · intro m d a planes occ kind
      rw [State.completeMat_mlut good kind] at run
      exact ⟨_, run, State.putMat_ends group live noBar _ fun g => g.sameButTiles_runMlut ..⟩
    · intro d tw tv tc w stp nr xs occ rows kind read
      obtain ⟨f, ended⟩ := State.completeMat_mmv_ends group live noBar good kind read
      exact ⟨_, f, run, ended⟩
    · intro d tw tv tc w stp nr xs occ f kind read
      rw [State.completeMat_mmv_fault (s := s.takeMat tm.core q) good kind (Prod.ext rfl read)] at run
      obtain ⟨g', group', ⟨tiles, kept⟩, rest⟩ :=
        State.fault_ends ((State.group?_of_teams (State.streamed_teams ..) _ _).trans group) live p (opFault p f p.mask)
      exact ⟨_, run, g', group', ⟨tiles, _, kept, rfl, rfl⟩, rest⟩

end Sys2Proof.Machine
end

section
/-! PROOFS. The checks of Table 5.5 (05 R49): every machine instruction but TRIG issues through `withIssue`, and the first check
that fails decides. -/

namespace Sys2Proof.Machine

/-! ## Every instruction issues alike -/

/-- The meaning of a machine instruction but TRIG is its issue by the selected split (05 R49). -/
theorem exec_eq_withIssue {i : Instr} {h : Hdr} {op : Nat} (s : State) (head : i.head = some (h, op)) (plain : op ≠ 0xA9) :
    ∃ body, exec i s = withIssue i s body := by
  cases i with
  | trig => cases head; exact absurd rfl plain
  | _ => cases head <;> exact ⟨_, rfl⟩

section
variable {i : Instr} {h : Hdr} {op : Nat} {x : Iss} {s : State}

/-- A machine instruction that a check stops with a group-level cause takes that fault. -/
theorem exec_of_check {c : Cause} (head : i.head = some (h, op)) (plain : op ≠ 0xA9) (iss : s.issuer = some x)
    (stopped : x.check i h op s = some (.group c)) : exec i s = .next (x.groupFault h c 0 s) := by
  obtain ⟨body, run⟩ := exec_eq_withIssue s head plain
  rw [run, withIssue_barrier body iss head stopped]

/-! ## The first check that fails -/

/-- Step 6 comes right after the guard. -/
theorem Iss.check_converge (guard : h.never = false) (bad : convergeOk op h x.g = false) :
    x.check i h op s = some (.group .converge) := by
  simp [Iss.check, guard, bad]

/-- Step 7 comes after step 6. -/
theorem Iss.check_regbound (guard : h.never = false) (conv : convergeOk op h x.g = true)
    (bad : i.opnds.all (x.g.boundOk (x.kern s) x.sp.id h.xs) = false) : x.check i h op s = some (.group .regbound) := by
  simp [Iss.check, guard, conv, bad]

/-- Step 8 comes after step 7; an instruction without a slot count has no late operands. -/
theorem Iss.check_stallshort (guard : h.never = false) (conv : convergeOk op h x.g = true)
    (bounds : i.opnds.all (x.g.boundOk (x.kern s) x.sp.id h.xs) = true) (count : i.slotReg = none)
    (late : i.slotOpnds 0 = []) (bad : x.g.stallShort x.sp.id h op i i.opnds = true) :
    x.check i h op s = some (.group .stallshort) := by
  simp [Iss.check, Iss.slotReg, guard, conv, bounds, count, late, bad]

/-! ## When a check fails -/

/-- A collective instruction needs one live split, without a join record (R35). -/
theorem convergeOk_of_divergent (collective : opKind op = .c) (apart : x.g.splits.length ≠ 1 ∨ x.g.joins ≠ []) :
    convergeOk op h x.g = false := by
  have several : x.g.oneSplit = false := by
    rcases apart with more | record <;> simp [Group.oneSplit, *]
  simp [convergeOk, collective, several]

/-- An instruction that admits only k0 fails under another guard (R56). -/
theorem convergeOk_of_guard (bare : needsK0 op = true) (guarded : h.g ≠ 0) : convergeOk op h x.g = false := by
  simp only [convergeOk, bare, Bool.or_true, Bool.not_true, Bool.false_or, beq_false_of_ne guarded, Bool.and_false]

/-- An operand of numbered registers beyond the allotment, or misaligned, is out of bounds (R52, R53). -/
theorem Group.boundOk_false {g : Group} {k : Kernel} {sp : Nat} {xs : BitVec 2} {o : Opnd}
    (numbered : o.cls = .v ∨ o.cls = .a ∨ o.reg.num.toNat < 64)
    (out : allot k o.cls < g.eff sp xs o.reg + o.cnt ∨ (2 ≤ o.al ∧ g.eff sp xs o.reg % o.al ≠ 0)) :
    g.boundOk k sp xs o = false := by
  have exists_ : ¬ (o.cls = .s ∧ 64 ≤ o.reg.num.toNat ∧ ¬ o.reg.ix) := by
    rintro ⟨cls, high, -⟩
    rcases numbered with v | a | low
    · simp [cls] at v
    · simp [cls] at a
    · omega
  rw [Group.boundOk, if_neg exists_]
  rcases out with beyond | ⟨wide, odd⟩
  · simp [Nat.not_le.mpr beyond]
  · simp [odd, Nat.not_le.mpr wide]

/-- A destination of the split's own premature write that the instruction touches makes its stall distance too short (R58). -/
theorem Group.stallShort_of_score {g : Group} {sp : Nat} {e : Score} (checking : g.gctl.getLsbD 0 = true) (open_ : e ∈ g.score)
    (own : e.split = sp) (early : e.dist ≠ 0) (touched : (e.cls, e.reg) ∈ g.touches sp h.xs i.opnds) :
    g.stallShort sp h op i i.opnds = true := by
  have seen : (g.score.any fun e => e.split == sp && e.dist ≠ 0 && (g.touches sp h.xs i.opnds ++
      (if i.opnds.any (·.reg.ix) then [(1, 64 + h.xs.toNat)] else []) ++ (if h.g = 0 then [] else [(2, h.g.toNat)]) ++
      (if usesFlags i then [(3, 0)] else [])).contains (e.cls, e.reg)) = true :=
    List.any_eq_true.mpr ⟨e, open_, by simp [own, early, touched]⟩
  simp only [Group.stallShort, checking, seen, Bool.true_or, Bool.and_self]

end

/-- Settles O6: the check that fails is found, and the fault it stands for is taken. -/
theorem issueChecksRaiseGroupFaults : Obligations.IssueChecksRaiseGroupFaults := by
  intro i h op x s head plain iss guard
  refine ⟨fun collective apart => ?_, fun bare guarded => ?_, fun conv o ho numbered out => ?_,
    fun conv bounds count late checking ⟨e, open_, own, early, touched⟩ => ?_⟩
  · exact exec_of_check head plain iss (Iss.check_converge guard (convergeOk_of_divergent collective apart))
  · exact exec_of_check head plain iss (Iss.check_converge guard (convergeOk_of_guard bare guarded))
  · have bad : i.opnds.all (x.g.boundOk (x.kern s) x.sp.id h.xs) = false :=
      List.all_eq_false.mpr ⟨o, ho, by simp [Group.boundOk_false numbered out]⟩
    exact exec_of_check head plain iss (Iss.check_regbound guard conv bad)
  · exact exec_of_check head plain iss (Iss.check_stallshort guard conv bounds count late
      (Group.stallShort_of_score checking open_ own early touched))

end Sys2Proof.Machine
end

section
/-! PROOFS. Reductions (10 R154), the stable order of GSORT (R158) and the residues of RX3 (07 R73, R91). -/

namespace Sys2Proof.Machine

/-! ## Steps of a reduction (Table 10.6) -/

/-- The integer operations of Table 10.6. -/
abbrev IntegerOp (op : RedOp) : Prop := op ∉ [RedOp.fadd, .fmin, .fmax]

/-- The bits of an element of a reduction. -/
abbrev redBits (w64 : Bool) : Nat := if w64 then 64 else 32

/-- The signed value of an element. -/
theorem sgn_of_lt {w64 : Bool} {v : Nat} (lt : v < 2 ^ redBits w64) :
    sgn w64 v = if v < 2 ^ (redBits w64 - 1) then (v : Int) else v - 2 ^ redBits w64 := by
  unfold sgn intVal
  cases w64 <;> simp only [redBits, ElemTy.bits, ElemTy.signed, Bool.false_eq_true, if_true, if_false, Bool.true_and,
    decide_eq_true_eq] at lt ⊢ <;> rw [Nat.mod_eq_of_lt lt] <;> split <;> split <;> omega

/-- Elements of the same signed value are the same. -/
theorem sgn_inj {w64 : Bool} {a b : Nat} (ha : a < 2 ^ redBits w64) (hb : b < 2 ^ redBits w64) (e : sgn w64 a = sgn w64 b) :
    a = b := by
  rw [sgn_of_lt ha, sgn_of_lt hb] at e
  cases w64 <;> simp only [redBits, Bool.false_eq_true, if_true, if_false] at ha hb e <;> split at e <;> split at e <;> omega

section
variable {op : RedOp} {w64 : Bool}

theorem redCombine_eq_foldl (integer : IntegerOp op) (md : RMode) (xs : List Nat) :
    redCombine op w64 md xs = xs.foldl (redStep op w64) (redIdent op w64) := by
  cases op with
  | fadd | fmin | fmax => exact (integer (by decide)).elim
  | _ => rfl

/-- The order of two values does not count. -/
theorem redStep_right_comm {x y : Nat} (hx : x < 2 ^ redBits w64) (hy : y < 2 ^ redBits w64) (z : Nat) :
    redStep op w64 (redStep op w64 z x) y = redStep op w64 (redStep op w64 z y) x := by
  have same := sgn_inj hx hy
  cases op with
  | add => simp only [redStep, Nat.mod_add_mod, Nat.add_right_comm]
  | mins | maxs => simp only [redStep]; split_ifs <;> omega
  | minz => exact Nat.min_right_comm z x y
  | maxz => exact Nat.max_right_comm z x y
  | and => exact Nat.and_right_comm z x y
  | or => exact Nat.or_right_comm z x y
  | xor => exact Nat.xor_right_comm z x y
  | fadd | fmin | fmax => rfl

theorem redIdent_lt (integer : IntegerOp op) : redIdent op w64 < 2 ^ redBits w64 := by
  cases op with
  | fadd | fmin | fmax => exact (integer (by decide)).elim
  | _ => cases w64 <;> decide

/-- A step stays within the elements. -/
theorem redStep_lt {a b : Nat} (ha : a < 2 ^ redBits w64) (hb : b < 2 ^ redBits w64) :
    redStep op w64 a b < 2 ^ redBits w64 := by
  cases op with
  | add => exact Nat.mod_lt _ (by positivity)
  | mins | maxs => simp only [redStep]; split <;> assumption
  | minz => exact Nat.lt_of_le_of_lt (Nat.min_le_left a b) ha
  | maxz => exact Nat.max_lt.mpr ⟨ha, hb⟩
  | and => exact Nat.and_lt_two_pow a hb
  | or => exact Nat.or_lt_two_pow ha hb
  | xor => exact Nat.xor_lt_two_pow ha hb
  | fadd | fmin | fmax => exact ha

/-- The identity changes no value (Table 3.3). -/
theorem redStep_ident_right (integer : IntegerOp op) {a : Nat} (ha : a < 2 ^ redBits w64) :
    redStep op w64 a (redIdent op w64) = a := by
  have signed := sgn_of_lt ha
  have signedIdent := sgn_of_lt (redIdent_lt (w64 := w64) integer)
  cases op with
  | add => exact Nat.mod_eq_of_lt ha
  | mins | maxs =>
    simp only [redStep]
    rw [signed, signedIdent]
    cases w64 <;> simp only [redBits, redIdent, Bool.false_eq_true, if_true, if_false] at ha ⊢ <;> split_ifs <;> omega
  | minz => exact Nat.min_eq_left (Nat.le_sub_one_of_lt ha)
  | maxz => exact Nat.max_zero a
  | and => exact Nat.and_two_pow_sub_one_of_lt_two_pow ha
  | or => exact Nat.or_zero a
  | xor => exact Nat.xor_zero a
  | fadd | fmin | fmax => exact (integer (by decide)).elim

/-- A value combined with the identity is itself. -/
theorem redStep_ident_left (integer : IntegerOp op) {v : Nat} (hv : v < 2 ^ redBits w64) :
    redStep op w64 (redIdent op w64) v = v := by
  have signed := sgn_of_lt hv
  have signedIdent := sgn_of_lt (redIdent_lt (w64 := w64) integer)
  cases op with
  | add => simpa [redStep, redIdent] using Nat.mod_eq_of_lt hv
  | mins | maxs =>
    simp only [redStep]
    rw [signed, signedIdent]
    cases w64 <;> simp only [redBits, redIdent, Bool.false_eq_true, if_true, if_false] at hv ⊢ <;> split_ifs <;> omega
  | minz => exact Nat.min_eq_right (Nat.le_sub_one_of_lt hv)
  | maxz => exact Nat.zero_max v
  | and => exact (Nat.and_comm ..).trans (Nat.and_two_pow_sub_one_of_lt_two_pow hv)
  | or => exact Nat.zero_or v
  | xor => exact Nat.zero_xor v
  | fadd | fmin | fmax => exact (integer (by decide)).elim

/-- A combination of elements is one. -/
theorem foldl_redStep_lt {xs : List Nat} (within : ∀ v ∈ xs, v < 2 ^ redBits w64) {a : Nat} (ha : a < 2 ^ redBits w64) :
    xs.foldl (redStep op w64) a < 2 ^ redBits w64 := by
  induction xs generalizing a with
  | nil => exact ha
  | cons v xs ih =>
    exact ih (fun u hu => within u (List.mem_cons_of_mem _ hu)) (redStep_lt ha (within v List.mem_cons_self))

/-- Addition gives the sum modulo 2^n. -/
theorem foldl_redStep_add (xs : List Nat) (a : Nat) :
    xs.foldl (redStep .add w64) (a % 2 ^ redBits w64) = (a + xs.sum) % 2 ^ redBits w64 := by
  induction xs generalizing a with
  | nil => rfl
  | cons v xs ih => simpa [redStep, Nat.add_assoc] using ih (a + v)

end

/-! ## The lane order of GSORT (R158) -/

/-- Lane `a` comes before lane `b`: by its key, or by its number among equal keys. -/
def laneBefore (key : Nat → Nat) (a b : Nat) : Prop := key a < key b ∨ (key a = key b ∧ a < b)

/-- A lane is inserted and none is lost. -/
theorem sortIns_perm (lt : Nat → Nat → Bool) (l : Nat) (ys : List Nat) : (sortIns lt l ys).Perm (l :: ys) := by
  induction ys with
  | nil => exact .refl _
  | cons y ys ih =>
    unfold sortIns
    split
    · exact .refl _
    · exact (ih.cons y).trans (.swap l y ys)

/-- A lane above those in order is inserted into its place. -/
theorem sortIns_pairwise {key : Nat → Nat} {l : Nat} {ys : List Nat} (above : ∀ y ∈ ys, y < l)
    (order : ys.Pairwise (laneBefore key)) :
    (sortIns (fun a b => decide (key a < key b)) l ys).Pairwise (laneBefore key) := by
  induction ys with
  | nil => exact List.pairwise_singleton _ _
  | cons y ys ih =>
    obtain ⟨first, rest⟩ := List.pairwise_cons.mp order
    unfold sortIns
    split
    · rename_i less
      have less : key l < key y := by simpa using less
      refine List.pairwise_cons.mpr ⟨fun z hz => ?_, order⟩
      rcases List.mem_cons.mp hz with rfl | hz
      · exact .inl less
      · rcases first z hz with lt | ⟨eq, -⟩
        · exact .inl (less.trans lt)
        · exact .inl (eq ▸ less)
    · rename_i notLess
      have le : key y ≤ key l := by simpa using notLess
      refine List.pairwise_cons.mpr ⟨fun z hz => ?_, ih (fun z hz => above z (List.mem_cons_of_mem _ hz)) rest⟩
      rcases List.mem_cons.mp ((sortIns_perm _ l ys).mem_iff.mp hz) with rfl | hz
      · rcases Nat.lt_or_eq_of_le le with lt | eq
        · exact .inl lt
        · exact .inr ⟨eq, above y List.mem_cons_self⟩
      · exact first z hz

/-- Lanes taken in ascending order are inserted one after the other. -/
theorem foldl_sortIns {key : Nat → Nat} {ls acc : List Nat} (asc : ls.Pairwise (· < ·)) (above : ∀ a ∈ acc, ∀ l ∈ ls, a < l)
    (order : acc.Pairwise (laneBefore key)) :
    let r := ls.foldl (fun acc l => sortIns (fun a b => decide (key a < key b)) l acc) acc
    r.Perm (acc ++ ls) ∧ r.Pairwise (laneBefore key) := by
  induction ls generalizing acc with
  | nil => simpa using order
  | cons l ls ih =>
    obtain ⟨first, rest⟩ := List.pairwise_cons.mp asc
    have perm := sortIns_perm (fun a b => decide (key a < key b)) l acc
    obtain ⟨perm', order'⟩ := ih (acc := sortIns (fun a b => decide (key a < key b)) l acc) rest
      (fun a ha m hm => by
        rcases List.mem_cons.mp (perm.mem_iff.mp ha) with rfl | ha
        · exact first m hm
        · exact above a ha m (List.mem_cons_of_mem _ hm))
      (sortIns_pairwise (fun a ha => above a ha l List.mem_cons_self) order)
    exact ⟨perm'.trans ((perm.append_right ls).trans List.perm_middle.symm), order'⟩

/-! ## Residues (R73, R91) -/

/-- The fields of a word of three residues. -/
theorem rx3_fields {a b c : Nat} (hb : b < 256) (hc : c < 256) (ha : a < 256) :
    (a * 65536 + b * 256 + c) % 256 = c ∧ (a * 65536 + b * 256 + c) / 256 % 256 = b ∧
      (a * 65536 + b * 256 + c) / 65536 % 256 = a := by
  omega

/-- The residues of an integer are the fields of its word. -/
theorem rx3Of_fields (x : Int) : rx3Of x % 256 = (x % 256).toNat ∧ rx3Of x / 256 % 256 = (x % 255).toNat ∧
    rx3Of x / 65536 % 256 = (x % 253).toNat :=
  rx3_fields (by omega) (by omega) (by omega)

/-- The number that the residues of an integer reconstruct to is congruent to it, since it is modulo each modulus (R91). -/
theorem rx3_congruent {x : Int} {a b c : Nat} (ha : x % 253 = a) (hb : x % 255 = b) (hc : x % 256 = c) :
    (16515840 : Int) ∣ (c * 171 * 64515 + b * 127 * 64768 + a * 211 * 65280 : Nat) - x := by
  have mod256 : (256 : Int) ∣ (c * 171 * 64515 + b * 127 * 64768 + a * 211 * 65280 : Nat) - x := by omega
  have mod255 : (255 : Int) ∣ (c * 171 * 64515 + b * 127 * 64768 + a * 211 * 65280 : Nat) - x := by omega
  have mod253 : (253 : Int) ∣ (c * 171 * 64515 + b * 127 * 64768 + a * 211 * 65280 : Nat) - x := by omega
  exact (show IsCoprime (256 * 255 : Int) 253 by norm_num).mul_dvd
    ((show IsCoprime (256 : Int) 255 by norm_num).mul_dvd mod256 mod255) mod253

/-- The residue of an integer, as a number. -/
theorem toNat_residue {m : Nat} (pos : 0 < m) (x : Int) : x % m = ((x % m).toNat : Int) ∧ (x % m).toNat % m = (x % m).toNat :=
  have nonneg : 0 ≤ x % m := Int.emod_nonneg x (by omega)
  ⟨(Int.toNat_of_nonneg nonneg).symm, Nat.mod_eq_of_lt ((Int.toNat_lt nonneg).mpr (Int.emod_lt_of_pos x (by omega)))⟩

/-- The residues of two integers are added modulo the modulus. -/
theorem toNat_residue_add {m : Nat} (pos : 0 < m) (x y : Int) :
    ((x % m).toNat + (y % m).toNat) % m = ((x + y) % m).toNat := by
  have sum : ((((x % m).toNat + (y % m).toNat) % m : Nat) : Int) = (((x + y) % m).toNat : Int) := by
    rw [← (toNat_residue pos (x + y)).1, Int.natCast_emod, Int.natCast_add, ← (toNat_residue pos x).1,
      ← (toNat_residue pos y).1, ← Int.add_emod]
  exact_mod_cast sum

/-- What the residues of an integer reconstruct to is congruent to it and lies in the range that the word represents (R91). -/
theorem rx3Val_rx3Of (x : Int) : (rx3Val (rx3Of x) - x) % 16515840 = 0 ∧ -8257920 ≤ rx3Val (rx3Of x) ∧
    rx3Val (rx3Of x) ≤ 8257919 := by
  obtain ⟨c, b, a⟩ := rx3Of_fields x
  have congruent := rx3_congruent (toNat_residue (m := 253) (by decide) x).1 (toNat_residue (m := 255) (by decide) x).1
    (toNat_residue (m := 256) (by decide) x).1
  have hb := (toNat_residue (m := 255) (by decide) x).2
  have ha := (toNat_residue (m := 253) (by decide) x).2
  push_cast at congruent ha hb
  unfold rx3Val
  rw [c, b, a, hb, ha]
  clear a b c ha hb
  generalize (x % 256).toNat = c, (x % 255).toNat = b, (x % 253).toNat = a at congruent
  dsimp only
  split <;> omega

/-- The words of two integers are added channel by channel (R92). -/
theorem rx3Add_rx3Of (x y : Int) : rx3Add (rx3Of x) (rx3Of y) = rx3Of (x + y) := by
  obtain ⟨cx, bx, ax⟩ := rx3Of_fields x
  obtain ⟨cy, bY, ay⟩ := rx3Of_fields y
  have c := toNat_residue_add (m := 256) (by decide) x y
  have b := toNat_residue_add (m := 255) (by decide) x y
  have a := toNat_residue_add (m := 253) (by decide) x y
  push_cast at a b c
  rw [rx3Add, cx, bx, ax, cy, bY, ay, rx3Of, a, b, c]

/-- Settles O24: the steps of an integer operation commute and absorb its identity, lanes are inserted in order, and residues
determine an integer modulo the product of their moduli. -/
theorem reductionsAndResiduesAreExact : Obligations.ReductionsAndResiduesAreExact := by
  refine ⟨fun op w64 md xs ys integer within => ⟨fun perm => ?_, ?_, fun v hv => ?_, ?_⟩, fun key ls asc => ?_,
    rx3Val_rx3Of, fun x lo hi => ?_, rx3Add_rx3Of⟩
  · rw [redCombine_eq_foldl integer, redCombine_eq_foldl integer]
    exact perm.foldl_eq' (fun a ha b hb => redStep_right_comm (within a ha) (within b hb)) _
  · rw [redCombine_eq_foldl integer, redCombine_eq_foldl integer, List.foldl_append]
    exact redStep_ident_right integer (foldl_redStep_lt within (redIdent_lt integer))
  · rw [redCombine_eq_foldl integer]
    exact redStep_ident_left integer hv
  · rw [redCombine_eq_foldl (by decide)]
    simpa [redIdent] using foldl_redStep_add (w64 := w64) xs 0
  · exact foldl_sortIns (acc := []) asc (fun a ha => by cases ha) .nil
  · obtain ⟨congruent, low, high⟩ := rx3Val_rx3Of x
    omega

end Sys2Proof.Machine
end

section
/-! PROOFS. A transfer lands what its split has in flight (05 R60). The statement lists the register maps that this may change
without the tiles, and a write to a tile element may be among what is in flight. -/

namespace Sys2Proof.Machine

/-! ## A split with a write to a tile in flight -/

/-- A write to element 0 of tile 0 that the split 0 has in flight. -/
def tileWrite : Pend :=
  { split := 0, loc := .a 0 0, mask := ones, old := 0, new := 1, dist := 0, landsAt := 0, landed := false }

/-- A group of one occupied lane, with that write in flight. -/
def tileWriter : Group :=
  { Group.start 0 0 0 with occ := 1, splits := [Split.fresh 0 1 0 0], pend := [tileWrite] }

/-- Its split, alone in the team that a placed instruction runs in. -/
def tileWriterIss : Iss :=
  ⟨⟨0, 0, 0⟩, { Team.start 0 0 0 0 0 0 placedKernel [] 0 with groups := [tileWriter] }, tileWriter, Split.fresh 0 1 0 0⟩

/-- The package with that team alone. -/
def tileWriterState : State := { State.reset with teams := [tileWriterIss.tm] }

/-- The split branches to its own address, with every lane. -/
def tileWriterBranch : State :=
  tileWriterIss.transfer refillHdr (fun _ => true) false 0 none id false tileWriterState

/-- The transfer lands the write. -/
theorem tileWriterBranch_tiles : (tileWriterBranch.group? 0 0).map (·.tiles) = some [(0, 1)] := by decide

/-- Refutes O26: the second clause keeps the tiles of the group as they were, and a transfer of a split that has a write to a
tile element in flight lands it there. The model's own tile instructions write their tile at once, but the
statement speaks of every state. -/
theorem not_transferMovesOrDiverges : ¬ Obligations.TransferMovesOrDiverges := by
  intro holds
  obtain ⟨g, only, -, frame, -⟩ := (holds.1 refillHdr tileWriterIss (fun _ => true) false false 0 none tileWriterState rfl
    ⟨rfl, rfl, rfl⟩ rfl rfl (by decide)).2 (by decide)
  have kept : g.tiles = [] := by rw [frame]; rfl
  have landed := tileWriterBranch_tiles
  rw [show tileWriterBranch.group? 0 0 = some g from only.group?_self] at landed
  simp [kept] at landed

end Sys2Proof.Machine
end

section
/-! PROOFS. The hints and waits of class 0x0 and the spin detector (03 R37, 09 R105 to R110). -/

namespace Sys2Proof.Machine

/-! ## Issuing -/

section
variable {h : Hdr} {x : Iss} {s : State}

/-- YIELD ends at once where no other split of its group is issuable (R105). -/
theorem exec_yield (a : IssuesU (.yield h) h x s) : exec (.yield h) s = .next (s.modG x.r fun g =>
    let g := { (g.landSplits [x.sp.id]).wake with yielded := true }
    if g.otherIssuable x.sp.id = [] then (g.consume s.now x.sp.id h.st.toNat false).move s.now x.sp.id (x.next h) .seq
    else (x.doneButHeld h (.yield (s.now + 64) []) g s.now).settle s.now 64) := by
  simp only [exec, execYield, withIssue_uniform _ a, List.isEmpty_iff]

/-- The split has a result that has not landed (R107). -/
theorem Group.unlanded_iff (g : Group) (sp : Nat) : g.unlanded sp = true ↔ ∃ e ∈ g.pend, e.split = sp ∧ e.landed = false := by
  simp [Group.unlanded]

/-- SYNCS holds the split while a result of it has not landed (R107). -/
theorem exec_syncs (a : IssuesU (.syncs h) h x s) : exec (.syncs h) s = .next (s.modG x.r fun g =>
    if ∃ e ∈ g.pend, e.split = x.sp.id ∧ e.landed = false then x.doneButHeld h .syncs g s.now
    else ((g.consume s.now x.sp.id h.st.toNat false).landSplits [x.sp.id]).move s.now x.sp.id (x.next h) .seq) := by
  simp only [exec, execSyncs, withIssue_uniform _ a, Group.unlanded_iff]

end

/-! ## The events that end a hold -/

section
variable {r : SRef} {x : Iss} {s : State} (found : s.at? r = some x)
include found

/-- YIELD_END ends a YIELD that has lasted, or since whose issue every other issuable split has issued (R105). -/
theorem exec_yieldEnd {till : Nat} {seen : List Nat} (hold : x.sp.hold = .yield till seen)
    (due : till ≤ s.now ∨ ∀ y ∈ x.g.otherIssuable x.sp.id, y.id ∈ seen) : exec (.yieldEnd r) s =
      .next (s.modG r fun g => (g.modSplit r.split fun y => { y with hold := .run }).boundary s.now r.split) := by
  have ended : till ≤ s.now ∨ (x.g.otherIssuable x.sp.id).all (fun y => seen.contains y.id) = true := by
    simpa [List.all_eq_true] using due
  simp only [exec, execYieldEnd, found, hold, if_pos ended]

/-- SPINH_EXPIRY ends a SPINH that has lasted (R106). -/
theorem exec_spinhExpiry {till : Nat} (hold : x.sp.hold = .spinh till) (due : till ≤ s.now) : exec (.spinhExpiry r) s =
    .next (s.modG r fun g => (g.modSplit r.split fun y => { y with hold := .run }).boundary s.now r.split) := by
  simp only [exec, execSpinhExpiry, found, hold, if_pos due]

/-- SYNCS_RETURN ends a SYNCS all of whose results have landed or land now (R107). -/
theorem exec_syncsReturn (hold : x.sp.hold = .syncs)
    (due : ∀ e ∈ x.g.pend, e.split = r.split → e.landed = true ∨ e.landsAt ≤ s.now) : exec (.syncsReturn r) s =
      .next (s.modG r fun g =>
        ((g.landSplits [r.split]).modSplit r.split fun y => { y with hold := .run }).boundary s.now r.split) := by
  have landed : (x.g.pend.all fun e => e.split ≠ r.split || e.landed || decide (e.landsAt ≤ s.now)) = true := by
    rw [List.all_eq_true]
    intro e he
    by_cases own : e.split = r.split
    · simpa [own] using due e he own
    · simp [own]
  simp only [exec, execSyncsReturn, found, hold, if_pos landed]

/-- SPLIT_DEMOTION stops a split whose quiet count has reached 64 (R37). -/
theorem exec_splitDemotion (hold : x.sp.hold = .run) (quiet : 64 ≤ x.sp.quiet) : exec (.splitDemotion r) s =
    .next (s.modSplit r fun y => { y with hold := .demoted (y.issuedAt + 4096) }) := by
  simp only [exec, execSplitDemotion, found, if_pos (And.intro quiet hold)]

/-- DEMOTION_TIMEOUT returns a demoted split when its time has passed (R37). -/
theorem exec_demotionTimeout {till : Nat} (hold : x.sp.hold = .demoted till) (due : till ≤ s.now) :
    exec (.demotionTimeout r) s = .next (s.modSplit r fun y => { y with hold := .run, quiet := 0 }) := by
  simp only [exec, execDemotionTimeout, found, hold, if_pos due]

end

/-- Settles O27: each instruction issues to its own effect, and each event finds the hold that it ends. -/
theorem waitsAndNoOpsOfClassZero : Obligations.WaitsAndNoOpsOfClassZero :=
  ⟨fun h _ _ => ⟨fun a => withIssue_next (i := .nop h) _ a, fun a => withIssue_next (i := .land h) _ a, exec_yield,
      fun w a => withIssue_uniform (i := .spinh h w) _ a, exec_syncs⟩,
    fun _ _ _ found => ⟨fun _ _ => exec_yieldEnd found, fun _ => exec_spinhExpiry found, exec_syncsReturn found,
      exec_splitDemotion found, fun _ => exec_demotionTimeout found⟩⟩

end Sys2Proof.Machine
end

section
/-! PROOFS. The end of a fed launch (22 R297, R298). Once another launch feeds on the queue, the queue's state no longer says
whether this launch's feed has closed; the model reads the feed that the launch keeps, the statement the queue. -/

namespace Sys2Proof.Machine

/-! ## A launch whose own feed is open while its queue is closed -/

/-- A fed launch without an item, whose feed stood open when another launch took the queue. -/
def openFeedLaunch : Launch :=
  { Launch.create 0 0 0 0 { placedDesc with fed := true } placedKernel [] 0 with fedEnd := some (0, false) }

/-- The package with that launch alone; its queue has been closed since. -/
def openFeedState : State :=
  { State.reset with launches := [openFeedLaunch], queues := [(0, { LQueue.empty with closed := true })] }

/-- The launch has no operation, no team and no block left, and does not complete. -/
theorem exec_launchCompletion_openFeed : exec (.launchCompletion 0) openFeedState = .next openFeedState := rfl

/-- Refutes O51: its last clause has a fed launch complete when its queue is closed; the model lets it run on when the feed
that the launch keeps (22 R297) is still open. -/
theorem not_teamsStartDrawBlocksAndComplete : ¬ Obligations.TeamsStartDrawBlocksAndComplete := by
  intro holds
  obtain ⟨-, -, -, -, -, -, -, -, completion⟩ := holds
  obtain ⟨t, l, step, found, -, status, -⟩ :=
    (completion openFeedState 0 openFeedLaunch rfl).2 rfl rfl rfl (.inr ⟨rfl, fun _ => rfl⟩)
  rw [exec_launchCompletion_openFeed] at step
  obtain rfl : openFeedState = t := by injection step
  obtain rfl : openFeedLaunch = l := by injection found
  exact absurd status (by decide)

end Sys2Proof.Machine
end

section
/-! PROOFS. The package after reset and its bring-up (30 R377), and what starts with it: groups, teams and links. -/

namespace Sys2Proof.Machine

/-! ## Bring-up (30 R377) -/

/-- Bring-up of a package that is not up verifies the image and the manifest, and that no later step fails. -/
theorem exec_bringUp {s : State} (off : s.pkg = .off) : exec .bringUp s = .next
    (if s.imageOk s.image s.imageSig = true ∧ s.manifestGood = true ∧ s.badStep = none then
      { s with fwOk := s.imageOk s.image s.imageSig, manifestOk := s.manifestGood, pkg := .up, free := s.free + 64,
               links := linkEnds.zipIdx.map fun e => Link.start e.1 (freshKey (s.free + 4 * e.2)) }
    else { s with fwOk := s.imageOk s.image s.imageSig, manifestOk := s.manifestGood, pkg := .recovery }) := by
  simp only [exec, execBringUp, off, ne_eq, not_true_eq_false, if_false]
  cases s.imageOk s.image s.imageSig <;> cases s.manifestGood <;> cases s.badStep <;> simp

/-! ## After reset -/

/-- Every die of a package after reset is as at reset. -/
theorem State.reset_die (d : Nat) : State.reset.die d = Die.reset := by
  match d with
  | 0 | 1 | 2 | 3 | _ + 4 => rfl

/-- The caches of a package after reset are empty. -/
theorem State.reset_cacheOk : State.reset.cacheOk :=
  State.reset.cacheOk_iff.mpr ⟨rfl, fun _ => .nil, fun d => by rw [State.reset_die]; exact .nil⟩

/-- Every direction of the links starts without a key. -/
theorem State.reset_links : ∀ l ∈ State.reset.links, l.keys = [none, none] ∧ l.rkeys = [none, none] := by
  intro l hl
  obtain ⟨e, -, rfl⟩ := List.mem_map.mp hl
  exact ⟨rfl, rfl⟩

/-! ## A group and a team as they start -/

/-- Every register of a group that starts is 0, but for k0. -/
theorem Group.start_file (n now : Nat) (entry : DWord) {loc : Loc} (k : loc ≠ .k 0) :
    (Group.start n entry now).file loc = 0 := by
  cases loc with
  | k n =>
    have other : n ≠ 0 := fun zero => k (zero ▸ rfl)
    simp [Group.file, Group.start, other]
  | _ => simp [Group.file, Group.start]

/-- Its counters and its fault record too. -/
theorem Group.start_counts (n now : Nat) (entry : DWord) (k : Nat) :
    (Group.start n entry now).ctr k = 0 ∧ (Group.start n entry now).frec.getD k 0 = 0 := by
  constructor
  · match k with
    | 0 | 1 | 2 | 3 | 4 | _ + 5 => rfl
  · match k with
    | 0 | 1 | 2 | 3 | 4 | 5 | 6 | 7 | _ + 8 => rfl

/-- The barrier registers of a team that starts are 0; there is none beyond the sixteenth. -/
theorem Team.start_bar (id launch num clus pos core : Nat) (k : Kernel) (hs : Map Byte) (now b : Nat) :
    (Team.start id launch num clus pos core k hs now).bar b =
      { arrb := 0, expb := 0, phase := false, arrm := 0, expm := 0 } := by
  have all (n : Nat) : (List.replicate n BarReg.start).getD b BarReg.start = BarReg.start := by
    rw [List.getD_eq_getElem?_getD, List.getElem?_replicate]
    split <;> rfl
  exact all 16

/-- Settles O57: every field is read off; bring-up verifies image and manifest, and no step after it fails yet. -/
theorem resetAndStartsHoldTheirValues : Obligations.ResetAndStartsHoldTheirValues := by
  refine ⟨⟨rfl, rfl, rfl, rfl, rfl, rfl, rfl, rfl, rfl, rfl, rfl, rfl, State.reset_links, rfl, rfl, rfl, State.reset_cacheOk,
    fun _ => rfl, State.reset_die, fun _ => rfl, _, exec_bringUp rfl, ?_⟩, fun n now entry => ?_,
    fun id launch num clus pos core now k hs => ?_, fun e key => ?_⟩
  · rw [apply_ite State.pkg]
    simp [State.reset]
  · have counts := Group.start_counts n now entry
    exact ⟨fun _ => Group.start_file n now entry, rfl, fun _ => rfl, rfl, rfl, by simp [Group.start, Split.fresh], rfl,
      fun k => (counts k).2, rfl, fun k => (counts k).1, fun _ _ _ => rfl, rfl, rfl, rfl⟩
  · exact ⟨fun b => Team.start_bar id launch num clus pos core k hs now b, fun _ => rfl, fun _ => rfl, by simp [Team.start], rfl, rfl, rfl⟩
  · exact ⟨rfl, rfl, rfl, rfl, rfl, rfl, rfl⟩

end Sys2Proof.Machine
end

section
/-! PROOFS. What the operations of the split table leave of a group (03 R32 to R37): they change its splits and join records,
and results land in its registers; its lanes, items, operations and status stay. -/

namespace Sys2Proof.Machine

/-! ## The frame -/

/-- A group differs from another in its splits, its join records, its registers and what is in flight to them alone. -/
def Group.SplitsMove (g g' : Group) : Prop :=
  g' = { g with splits := g'.splits, joins := g'.joins, nextId := g'.nextId, pend := g'.pend, score := g'.score,
                vregs := g'.vregs, sregs := g'.sregs, kregs := g'.kregs, flg := g'.flg, tiles := g'.tiles }

theorem Group.SplitsMove.refl (g : Group) : g.SplitsMove g := rfl

theorem Group.SplitsMove.trans {a b c : Group} (ab : a.SplitsMove b) (bc : b.SplitsMove c) : a.SplitsMove c := by
  unfold Group.SplitsMove at *
  rw [bc, ab]

section
variable {g g' : Group} (m : g.SplitsMove g')
include m

theorem Group.SplitsMove.grp : g'.grp = g.grp := by rw [m]
theorem Group.SplitsMove.live : g'.live = g.live := by rw [m]
theorem Group.SplitsMove.occ : g'.occ = g.occ := by rw [m]
theorem Group.SplitsMove.item : g'.item = g.item := by rw [m]
theorem Group.SplitsMove.frec : g'.frec = g.frec := by rw [m]
theorem Group.SplitsMove.xp : g'.xp = g.xp := by rw [m]

end

/-- Whatever every step of a fold does, the fold does. -/
theorem Group.SplitsMove.foldl {α : Type} {f : Group → α → Group} (step : ∀ (g : Group) a, g.SplitsMove (f g a)) (l : List α) (g : Group) :
    g.SplitsMove (l.foldl f g) := by
  induction l generalizing g with
  | nil => exact .refl g
  | cons a l ih => exact (step g a).trans (ih (f g a))

/-! ## The operations -/

theorem Group.splitsMove_setFile (g : Group) (l : Loc) (m v : DWord) : g.SplitsMove (g.setFile l m v) := by
  unfold Group.SplitsMove
  rw [g.setFile_frame l m v]

theorem Group.SplitsMove.ite {g a b : Group} {c : Prop} [Decidable c] (ha : g.SplitsMove a) (hb : g.SplitsMove b) :
    g.SplitsMove (if c then a else b) := by
  split
  · exact ha
  · exact hb

theorem Group.splitsMove_landSplits (g : Group) (sps : List Nat) : g.SplitsMove (g.landSplits sps) := by
  have fold : ∀ (p : Pend → Bool) (es : List Pend), g.SplitsMove (es.foldl (fun g e => if p e then g.land e else g) g) :=
    fun p es => .foldl (fun g e => .ite (g.splitsMove_setFile e.loc e.mask e.new) (.refl g)) es g
  exact .trans (fold _ g.pend) rfl

@[simp] theorem Group.landSplits_splits (g : Group) (sps : List Nat) : (g.landSplits sps).splits = g.splits := by
  have fold : ∀ (p : Pend → Bool) (es : List Pend) (g : Group),
      (es.foldl (fun g e => if p e then g.land e else g) g).splits = g.splits := by
    intro p es
    induction es with
    | nil => exact fun _ => rfl
    | cons e es ih =>
      intro g
      rw [List.foldl_cons, ih]
      split
      · exact g.setFile_splits ..
      · rfl
  exact fold _ g.pend g

@[simp] theorem Group.landSplits_joins (g : Group) (sps : List Nat) : (g.landSplits sps).joins = g.joins := by
  have fold : ∀ (p : Pend → Bool) (es : List Pend) (g : Group),
      (es.foldl (fun g e => if p e then g.land e else g) g).joins = g.joins := by
    intro p es
    induction es with
    | nil => exact fun _ => rfl
    | cons e es ih =>
      intro g
      rw [List.foldl_cons, ih]
      split
      · unfold Group.land; rw [g.setFile_frame]
      · rfl
  exact fold _ g.pend g

/-- With nothing in flight, nothing lands. -/
theorem Group.landSplits_file (g : Group) (sps : List Nat) (none : g.pend = []) (l : Loc) :
    (g.landSplits sps).file l = g.file l := by
  unfold Group.landSplits
  rw [none]
  cases l <;> rfl

theorem Group.splitsMove_wake (g : Group) : g.SplitsMove g.wake := rfl

theorem Group.splitsMove_modSplit (g : Group) (i : Nat) (f : Split → Split) : g.SplitsMove (g.modSplit i f) := rfl

theorem Group.splitsMove_consume (g : Group) (now sp st : Nat) (b : Bool) : g.SplitsMove (g.consume now sp st b) := rfl

/-- A change of the table alone. -/
theorem Group.splitsMove_table (g : Group) (xs : List Split) (rs : List Join) (n : Nat) :
    g.SplitsMove { g with splits := xs, joins := rs, nextId := n } := rfl

theorem Group.splitsMove_promote (g : Group) (j : Nat) (e : Option Nat) : g.SplitsMove (g.promote j e) := by
  unfold Group.promote
  split
  · exact .refl g
  · dsimp only
    split
    · exact .refl g
    · exact g.splitsMove_modSplit ..

theorem Group.splitsMove_fuse (g : Group) (now j : Nat) : g.SplitsMove (g.fuse now j) := by
  unfold Group.fuse
  split
  · exact .refl g
  · exact .ite (.refl g) rfl

theorem Group.splitsMove_arrive (g : Group) (now : Nat) (sp : Split) : g.SplitsMove (g.arrive now sp) := by
  unfold Group.arrive
  split
  · exact .refl g
  · have parked : g.SplitsMove (g.landSplits [sp.id]).wake := (g.splitsMove_landSplits _).trans rfl
    exact parked.trans ((Group.splitsMove_table ..).trans ((Group.splitsMove_promote ..).trans (Group.splitsMove_fuse ..)))

theorem Group.splitsMove_settleRecord (now fuel : Nat) (g : Group) (j : Nat) : g.SplitsMove (g.settleRecord now fuel j) := by
  induction fuel generalizing g j with
  | zero => exact .refl g
  | succ n ih =>
    unfold Group.settleRecord
    split
    · exact .refl g
    · refine .ite (.ite ?_ (g.splitsMove_fuse ..)) (.ite rfl (.refl g))
      split
      · exact rfl
      · exact (Group.splitsMove_table ..).trans (ih ..)

theorem Group.splitsMove_removeSplit (g : Group) (now : Nat) (sp : Split) : g.SplitsMove (g.removeSplit now sp) := by
  have gone : g.SplitsMove { (g.landSplits [sp.id]).wake with
      splits := (g.landSplits [sp.id]).wake.splits.filter (·.id ≠ sp.id) } := 
    ((g.splitsMove_landSplits _).trans (Group.splitsMove_wake _)).trans (Group.splitsMove_table ..)
  unfold Group.removeSplit
  dsimp only
  split
  · exact gone
  · exact gone.trans ((Group.splitsMove_promote ..).trans (Group.splitsMove_settleRecord ..))

theorem Group.splitsMove_settle (now fuel : Nat) (g : Group) : g.SplitsMove (g.settle now fuel) := by
  induction fuel generalizing g with
  | zero => exact .refl g
  | succ n ih =>
    unfold Group.settle
    split
    · exact .refl g
    · exact (g.splitsMove_arrive ..).trans (ih _)

theorem Group.splitsMove_autoJump (g : Group) (now : Nat) (refill : DWord) : g.SplitsMove (g.autoJump now refill) :=
  (g.splitsMove_landSplits _).trans rfl

theorem Group.splitsMove_boundary (g : Group) (now sp : Nat) : g.SplitsMove (g.boundary now sp) := by
  unfold Group.boundary
  split
  · exact g.splitsMove_autoJump ..
  · exact Group.splitsMove_settle ..

theorem Group.splitsMove_move (g : Group) (now sp : Nat) (pc : DWord) (a : Arrived) : g.SplitsMove (g.move now sp pc a) :=
  (g.splitsMove_modSplit ..).trans (Group.splitsMove_boundary ..)

theorem Group.splitsMove_dropLanes (g : Group) (now : Nat) (lanes : Word) : g.SplitsMove (g.dropLanes now lanes) := by
  unfold Group.dropLanes
  refine .trans (b := { g with
    splits := g.splits.map fun (x : Split) => { x with mask := x.mask &&& ~~~lanes }
    joins := g.joins.map fun (r : Join) =>
      { r with arrived := (r.arrived.map fun (m : Word) => m &&& ~~~lanes).filter (· ≠ 0) } }) rfl ?_
  refine .trans (.foldl (fun g j => g.splitsMove_wake.trans (Group.splitsMove_settleRecord ..)) _ _)
    (.trans (.foldl (fun g i => ?_) _ _) (Group.splitsMove_settle ..))
  split
  · exact g.splitsMove_removeSplit ..
  · exact .refl g

/-- Vacating lanes clears their bits of the occupied ones; beyond that only the split table moves (R23, R26). -/
theorem Group.splitsMove_vacate (g : Group) (now : Nat) (lanes : Word) (refill : DWord) (sp : Option Nat) :
    { g with occ := g.occ &&& ~~~lanes }.SplitsMove (g.vacate now lanes refill sp) := by
  unfold Group.vacate
  refine .ite (Group.splitsMove_dropLanes ..) ?_
  dsimp only
  split
  · exact Group.splitsMove_autoJump ..
  · exact .trans (Group.splitsMove_landSplits ..) rfl

end Sys2Proof.Machine
end

section
/-! PROOFS. What a write by the device leaves of the package (12 R166, 26 R326): memory, its uncorrectable words and the die
caches change, and the management processor hears of the words that the write merges into; nothing else. -/

namespace Sys2Proof.Machine

/-! ## The frame -/

/-- A state differs from another as writes at their homes make it. -/
structure State.HomeWritten (s t : State) : Prop where
  frame : t = { s with mem := t.mem, memBad := t.memBad, dies := t.dies, hostOut := t.hostOut }
  told : ∃ r, t.hostOut = s.hostOut ++ r ∧ ∀ m ∈ r, ∃ w ∈ s.memBad, m = .eccLeft w
  bad : t.memBad ⊆ s.memBad

namespace State.HomeWritten

theorem refl (s : State) : s.HomeWritten s := ⟨rfl, ⟨[], by simp⟩, fun _ m => m⟩

theorem trans {a b c : State} (ab : a.HomeWritten b) (bc : b.HomeWritten c) : a.HomeWritten c where
  frame := by rw [bc.frame, ab.frame]
  told := by
    obtain ⟨r, hr, fromA⟩ := ab.told
    obtain ⟨r', hr', fromB⟩ := bc.told
    refine ⟨r ++ r', by rw [hr', hr, List.append_assoc], fun m hm => ?_⟩
    rcases List.mem_append.1 hm with old | new
    · exact fromA m old
    · obtain ⟨w, bad, rfl⟩ := fromB m new
      exact ⟨w, ab.bad bad, rfl⟩
  bad := fun _ m => ab.bad (bc.bad m)

/-- Whatever every step of a fold writes, the fold writes. -/
theorem foldl {α : Type} {f : State → α → State} (step : ∀ (s : State) a, s.HomeWritten (f s a)) (l : List α) (s : State) :
    s.HomeWritten (l.foldl f s) := by
  induction l generalizing s with
  | nil => exact .refl s
  | cons a l ih => exact (step s a).trans (ih (f s a))

theorem hostOut_mem {s t : State} (w : s.HomeWritten t) {m : HostMsg} (h : m ∈ s.hostOut) : m ∈ t.hostOut := by
  obtain ⟨r, e, -⟩ := w.told
  rw [e]
  exact List.mem_append_left r h

section
variable {s t : State} (w : s.HomeWritten t)
include w

theorem teams : t.teams = s.teams := by rw [w.frame]
theorem launches : t.launches = s.launches := by rw [w.frame]
theorem queues : t.queues = s.queues := by rw [w.frame]
theorem cores : t.cores = s.cores := by rw [w.frame]
theorem now : t.now = s.now := by rw [w.frame]
theorem team? (k : Nat) : t.team? k = s.team? k := by unfold State.team?; rw [w.teams]
theorem launch? (k : Nat) : t.launch? k = s.launch? k := by unfold State.launch?; rw [w.launches]
theorem group? (k g : Nat) : t.group? k g = s.group? k g := by unfold State.group?; rw [w.team?]

end

end State.HomeWritten

/-! ## The writes -/

theorem State.homeWritten_modDie (s : State) (d : Nat) (f : Die → Die) : s.HomeWritten (s.modDie d f) :=
  ⟨rfl, ⟨[], by simp [State.modDie]⟩, fun _ m => m⟩

theorem State.homeWritten_memLine (s : State) (k : Nat) (m : BitVec 64) (d : BitVec 512) : s.HomeWritten (s.memLine k m d) where
  frame := rfl
  told := ⟨_, rfl, fun e he => by
    obtain ⟨w, hw, rfl⟩ := List.mem_map.1 he
    exact ⟨w, (List.mem_filter.1 hw).1, rfl⟩⟩
  bad := fun _ hw => (List.mem_filter.1 hw).1

theorem State.homeWritten_homeLine (s : State) (k : Nat) (m : BitVec 64) (d : BitVec 512) :
    s.HomeWritten (s.homeLine k m d) := by
  unfold State.homeLine
  split
  · exact s.homeWritten_memLine ..
  · split
    · exact s.homeWritten_modDie ..
    · exact s.homeWritten_memLine ..

theorem State.homeWritten_homeWrite (s : State) (pa : Nat) (bs : List Byte) : s.HomeWritten (s.homeWrite pa bs) := by
  unfold State.homeWrite
  exact .foldl (fun s _ => s.homeWritten_homeLine ..) _ s

theorem State.homeWritten_devPut (s : State) (ctx : Nat) (c : Nat × List Byte) : s.HomeWritten (s.devPut ctx c) := by
  unfold State.devPut
  split
  · exact .refl s
  · exact s.homeWritten_homeWrite ..

theorem State.homeWritten_devWrite (s : State) (ctx va : Nat) (bs : List Byte) : s.HomeWritten (s.devWrite ctx va bs) :=
  .foldl (fun s c => s.homeWritten_devPut ctx c) _ s

theorem State.homeWritten_homeFlush (s : State) (k : Nat) : s.HomeWritten (s.homeFlush k) := by
  unfold State.homeFlush
  split
  · exact .refl s
  · exact (s.homeWritten_memLine ..).trans (State.homeWritten_modDie ..)

theorem State.homeWritten_wbDie (s : State) (d k : Nat) : s.HomeWritten (s.wbDie d k) := by
  unfold State.wbDie
  refine .trans ?_ (State.homeWritten_modDie ..)
  split
  · exact .refl s
  · exact s.homeWritten_homeLine ..

theorem State.homeWritten_evictDc (s : State) (d k : Nat) : s.HomeWritten (s.evictDc d k) := by
  unfold State.evictDc
  split
  · exact s.homeWritten_homeFlush k
  · exact (s.homeWritten_wbDie d k).trans (State.homeWritten_modDie ..)

/-! ## The fault log (26 R323, R340) -/

/-- A log entry of a launch writes through its context and counts. -/
theorem State.logFault_of {s : State} {lid : Nat} {l : Launch} (found : s.launch? lid = some l) (entry : List Byte) :
    ∃ t, s.HomeWritten t ∧ s.logFault lid entry = t.modLaunch lid fun l => { l with nfault := l.nfault + 1 } := by
  refine ⟨_, .trans (s.homeWritten_devWrite l.ctx (l.desc.save.toNat + 4096 + l.nfault % 1024 * 1024) entry)
    (State.homeWritten_devWrite _ l.ctx (l.desc.save.toNat + 8) (natLe 8 (l.nfault + 1))), ?_⟩
  unfold State.logFault
  rw [found]

end Sys2Proof.Machine
end

section
/-! PROOFS. Lanes of masks, and folds that reach what one of their steps brings about. -/

namespace Sys2Proof.Machine

/-! ## Masks -/

theorem getLsbD_one_shiftLeft (l i : Nat) : (1#32 <<< l).getLsbD i = true ↔ i < 32 ∧ i = l := by
  simp only [BitVec.getLsbD_shiftLeft, BitVec.getLsbD_one, Bool.and_eq_true, Bool.not_eq_true', decide_eq_true_eq, decide_eq_false_iff_not]
  omega

theorem getLsbD_maskOf (ls : List Nat) (i : Nat) : (maskOf ls).getLsbD i = true ↔ i < 32 ∧ i ∈ ls := by
  have fold : ∀ (ls : List Nat) (m : Word),
      (ls.foldl (fun m l => m ||| (1#32 <<< l)) m).getLsbD i = true ↔ m.getLsbD i = true ∨ i < 32 ∧ i ∈ ls := by
    intro ls
    induction ls with
    | nil => simp
    | cons l ls ih =>
      intro m
      rw [List.foldl_cons, ih, BitVec.getLsbD_or, Bool.or_eq_true, getLsbD_one_shiftLeft, List.mem_cons]
      tauto
  simpa [maskOf] using fold ls 0

theorem getLsbD_maskBy (f : Nat → Bool) (i : Nat) : (maskBy f).getLsbD i = true ↔ i < 32 ∧ f i = true := by
  rw [maskBy, getLsbD_maskOf, List.mem_filter, List.mem_range]
  exact ⟨fun h => h.2, fun h => ⟨h.1, h⟩⟩

theorem mem_lanesOf {m : Word} {i : Nat} : i ∈ lanesOf m ↔ m.getLsbD i = true := by
  rw [lanesOf, List.mem_filter, List.mem_range]
  exact ⟨And.right, fun h => ⟨BitVec.lt_of_getLsbD h, h⟩⟩

/-- A mask is determined by its lanes. -/
theorem maskBy_getLsbD (m : Word) : (maskBy fun i => m.getLsbD i) = m := by
  refine BitVec.eq_of_getLsbD_eq fun i hi => Bool.eq_iff_iff.2 ?_
  rw [getLsbD_maskBy]
  exact ⟨And.right, fun h => ⟨hi, h⟩⟩

/-! ## Folds -/

/-- What a step of a fold brings about and every step keeps, the fold brings about. -/
theorem foldl_reaches {α σ : Type} {f : σ → α → σ} {P Q : σ → Prop} {a : α} (ready : ∀ s b, Q s → Q (f s b))
    (does : ∀ s, Q s → P (f s a)) (keeps : ∀ s b, P s → P (f s b)) :
    ∀ (l : List α) (s : σ), a ∈ l → Q s → P (l.foldl f s)
  | b :: l, s, m, q => by
    rcases List.mem_cons.1 m with rfl | m
    · exact foldl_keeps (fun s b => keeps s b) l _ (does s q)
    · exact foldl_reaches ready does keeps l _ m (ready s b q)

/-! ## A launch and a group that were found, after a change -/

theorem State.launch?_modLaunch_self {s : State} {k : Nat} {l : Launch} {f : Launch → Launch} (found : s.launch? k = some l)
    (id : ∀ x, (f x).id = x.id) : (s.modLaunch k f).launch? k = some (f l) := by
  rw [State.launch?_modLaunch s k k f id, if_pos rfl, found, Option.map_some]

theorem State.group?_modGroup_self {s : State} {k i : Nat} {g : Group} {f : Group → Group} (found : s.group? k i = some g)
    (grp : ∀ x, (f x).grp = x.grp) : (s.modGroup k i f).group? k i = some (f g) := by
  rw [State.group?_modGroup s k i k i f grp, if_pos rfl, found, Option.map_some]

theorem Team.group?_modGroup_self {tm : Team} {i : Nat} {g : Group} {f : Group → Group} (found : tm.group? i = some g)
    (grp : ∀ x, (f x).grp = x.grp) : (tm.modGroup i f).group? i = some (f g) := by
  rw [Team.group?_modGroup tm i i f grp, if_pos rfl, found, Option.map_some]

/-- The group is found in its team. -/
theorem State.group?_of {s : State} {k i : Nat} {tm : Team} {g : Group} (ft : s.team? k = some tm) (fg : tm.group? i = some g) :
    s.group? k i = some g := by
  rw [State.group?, ft, Option.bind_some, fg]

/-- A log entry leaves groups, and of launches it counts one fault. -/
theorem State.logFault_found {s : State} {lid : Nat} {l : Launch} (found : s.launch? lid = some l) (entry : List Byte) :
    (s.logFault lid entry).teams = s.teams ∧ (s.logFault lid entry).now = s.now ∧
      (s.logFault lid entry).launch? lid = some { l with nfault := l.nfault + 1 } ∧
      (∃ r, (s.logFault lid entry).hostOut = s.hostOut ++ r ∧ ∀ m ∈ r, ∃ w ∈ s.memBad, m = .eccLeft w) ∧
      (s.logFault lid entry).queues = s.queues := by
  obtain ⟨t, w, e⟩ := State.logFault_of found entry
  rw [e]
  exact ⟨w.teams, w.now, State.launch?_modLaunch_self ((w.launch? lid).trans found) fun _ => rfl, w.told, w.queues⟩

end Sys2Proof.Machine
end

section
/-! PROOFS. What the end of groups, teams and launches leaves (03 R31, R41, Table 3.5): the counts of the launches concerned
grow, groups and teams that have ended stay so, and fault records, operations' owners and memory stay. -/

namespace Sys2Proof.Machine

/-! ## The relations -/

/-- A launch some of whose items have been counted as killed, and whose blocks and slots have come back. -/
structure Launch.Counted (l l' : Launch) : Prop where
  frame : l' = { l with killed := l'.killed, returned := l'.returned, blks := l'.blks, slots := l'.slots }
  killed : l.killed ≤ l'.killed

/-- A group that may have ended. -/
structure Group.Ends (g g' : Group) : Prop where
  grp : g'.grp = g.grp
  frec : g'.frec = g.frec
  live : g.live = false → g'.live = false
  occ : g.occ = 0 → g'.occ = 0
  done : (∀ o ∈ g.ops, o.done = true) → ∀ o ∈ g'.ops, o.done = true

/-- A team that may have ended, and some of its groups. -/
structure Team.Ends (a b : Team) : Prop where
  frame : b = { a with st := b.st, cur := b.cur, nxt := b.nxt, wantBlk := b.wantBlk, groups := b.groups, quartArr := b.quartArr,
                       spanArr := b.spanArr, barInst := b.barInst, barDone := b.barDone, scrRace := b.scrRace }
  retired : a.st = .retired → b.st = .retired
  groups : List.Forall₂ Group.Ends a.groups b.groups

/-- A core that has been reset at a time. -/
def Core.cleared (n : Nat) : Core := { Core.reset with resetAt := n }

/-- Cores that have been reset and not used since stay so. -/
def State.KeepsCleared (s t : State) : Prop := ∀ c n, s.core c = Core.cleared n → t.core c = Core.cleared n

/-- Teams and groups of some launches may have ended; the other launches and their teams stay. -/
structure State.Ends (P : Nat → Prop) (s t : State) : Prop where
  frame : t = { s with launches := t.launches, teams := t.teams, clusters := t.clusters, queues := t.queues, cores := t.cores }
  ids : t.teams.map (·.id) = s.teams.map (·.id)
  launches : List.Forall₂ (fun l l' : Launch => l.Counted l' ∧ (¬ P l.id → l' = l)) s.launches t.launches
  team : ∀ k, Option.Rel (fun a b : Team => a.Ends b ∧ (¬ P a.launch → b = a)) (s.team? k) (t.team? k)
  core : s.KeepsCleared t

/-! ## Related values -/

theorem rel_refl {α : Type} {r : α → α → Prop} (h : ∀ a, r a a) (o : Option α) : Option.Rel r o o := by
  cases o with
  | none => exact .none
  | some a => exact .some (h a)

theorem rel_trans {α : Type} {r q p : α → α → Prop} (h : ∀ a b c, r a b → q b c → p a c) {a b c : Option α}
    (ab : Option.Rel r a b) (bc : Option.Rel q b c) : Option.Rel p a c := by
  cases ab with
  | none => cases bc; exact .none
  | some ab => cases bc with | some bc => exact .some (h _ _ _ ab bc)

theorem forall₂_trans {α : Type} {r q p : α → α → Prop} (h : ∀ a b c, r a b → q b c → p a c) {as bs cs : List α}
    (ab : List.Forall₂ r as bs) (bc : List.Forall₂ q bs cs) : List.Forall₂ p as cs := by
  induction ab generalizing cs with
  | nil =>
    cases bc
    exact .nil
  | cons first _ ih =>
    cases bc with
    | cons second rest => exact .cons (h _ _ _ first second) (ih rest)

theorem rel_map {α : Type} {r : α → α → Prop} {f : α → α} (h : ∀ a, r a (f a)) (o : Option α) :
    Option.Rel r o (o.map f) := by
  cases o with
  | none => exact .none
  | some a => exact .some (h a)

/-- What a found value is related to. -/
theorem rel_some {α β : Type} {r : α → β → Prop} {o : Option α} {q : Option β} {a : α} (h : Option.Rel r o q)
    (found : o = some a) : ∃ b, q = some b ∧ r a b := by
  subst found
  cases h with | some h => exact ⟨_, rfl, h⟩

theorem rel_some_right {α β : Type} {r : α → β → Prop} {o : Option α} {q : Option β} {b : β} (h : Option.Rel r o q)
    (found : q = some b) : ∃ a, o = some a ∧ r a b := by
  subst found
  cases h with | some h => exact ⟨_, rfl, h⟩

/-! ## Launches, groups, teams -/

theorem Launch.Counted.refl (l : Launch) : l.Counted l := ⟨rfl, le_rfl⟩

theorem Launch.Counted.trans {a b c : Launch} (ab : a.Counted b) (bc : b.Counted c) : a.Counted c :=
  ⟨by rw [bc.frame, ab.frame], ab.killed.trans bc.killed⟩

theorem Group.Ends.refl (g : Group) : g.Ends g := ⟨rfl, rfl, id, id, id⟩

theorem Group.Ends.trans {a b c : Group} (ab : a.Ends b) (bc : b.Ends c) : a.Ends c :=
  ⟨bc.grp.trans ab.grp, bc.frec.trans ab.frec, bc.live ∘ ab.live, bc.occ ∘ ab.occ, bc.done ∘ ab.done⟩

theorem Group.SplitsMove.ends {g g' : Group} (m : g.SplitsMove g') : g.Ends g' :=
  ⟨m.grp, m.frec, fun h => m.live.trans h, fun h => m.occ.trans h, fun h => by rw [m]; exact h⟩

theorem Team.Ends.refl (a : Team) : a.Ends a := ⟨rfl, fun h => h, List.forall₂_same.2 fun g _ => .refl g⟩

theorem Team.Ends.trans {a b c : Team} (ab : a.Ends b) (bc : b.Ends c) : a.Ends c :=
  ⟨by rw [bc.frame, ab.frame], bc.retired ∘ ab.retired,
    forall₂_trans (fun _ _ _ h h' => h.trans h') ab.groups bc.groups⟩

/-- The groups of a number are related too. -/
theorem Team.Ends.group {a b : Team} (e : a.Ends b) (i : Nat) : Option.Rel Group.Ends (a.group? i) (b.group? i) := by
  have found : ∀ {gs gs' : List Group}, List.Forall₂ Group.Ends gs gs' →
      Option.Rel Group.Ends (gs.find? (·.grp = i)) (gs'.find? (·.grp = i)) := by
    intro gs gs' r
    induction r with
    | nil => exact .none
    | @cons g g' gs gs' first _ ih =>
      rw [List.find?_cons, List.find?_cons, first.grp]
      split
      · exact .some first
      · exact ih
  exact found e.groups

/-- Groups that have each changed by one function. -/
theorem Team.forall₂_map {f : Group → Group} (h : ∀ g : Group, g.Ends (f g)) (gs : List Group) : List.Forall₂ Group.Ends gs (gs.map f) :=
  List.forall₂_map_right_iff.2 (List.forall₂_same.2 fun g _ => h g)

theorem Team.Ends.launch {a b : Team} (e : a.Ends b) : b.launch = a.launch := by rw [e.frame]

theorem Team.Ends.id_eq {a b : Team} (e : a.Ends b) : b.id = a.id := by rw [e.frame]

/-- A group of a team whose groups have changed each by a function that keeps their numbers. -/
theorem Team.group?_map {a b : Team} {f : Group → Group} (e : b.groups = a.groups.map f) (hf : ∀ g, (f g).grp = g.grp) (i : Nat) :
    b.group? i = (a.group? i).map f := by
  unfold Team.group?
  rw [e, List.find?_map]
  exact congrArg _ (congrArg (List.find? · a.groups) (funext fun g => by simp [hf]))

theorem Team.Ends.modGroup (a : Team) (gi : Nat) {f : Group → Group} (h : ∀ g : Group, g.Ends (f g)) : a.Ends (a.modGroup gi f) where
  frame := rfl
  retired h := h
  groups := Team.forall₂_map (fun g => by
    split
    · exact h g
    · exact .refl g) a.groups

/-! ## States -/

theorem State.keepsCleared_modCore (s : State) (c : Nat) {f : Core → Core} (keeps : ∀ n, f (Core.cleared n) = Core.cleared n) :
    s.KeepsCleared (s.modCore c f) := by
  intro k n h
  rw [State.core_modCore]
  split
  · rw [h, keeps]
  · exact h

namespace State.Ends

variable {P : Nat → Prop}

theorem refl (s : State) : s.Ends P s :=
  ⟨rfl, rfl, List.forall₂_same.2 fun l _ => ⟨.refl l, fun _ => rfl⟩, fun _ => rel_refl (fun a => ⟨.refl a, fun _ => rfl⟩) _,
    fun _ _ h => h⟩

/-- The launch of a number is found as its counted self. -/
theorem launch {s t : State} (e : s.Ends P t) (k : Nat) :
    Option.Rel (fun l l' : Launch => l.Counted l' ∧ (¬ P k → l' = l)) (s.launch? k) (t.launch? k) := by
  have found : ∀ {ls ls' : List Launch}, List.Forall₂ (fun l l' : Launch => l.Counted l' ∧ (¬ P l.id → l' = l)) ls ls' →
      Option.Rel (fun l l' : Launch => l.Counted l' ∧ (¬ P k → l' = l)) (ls.find? (·.id = k)) (ls'.find? (·.id = k)) := by
    intro ls ls' r
    induction r with
    | nil => exact .none
    | @cons l l' ls ls' first _ ih =>
      rw [List.find?_cons, List.find?_cons, show l'.id = l.id by rw [first.1.frame]]
      by_cases here : l.id = k
      · simpa [here] using Option.Rel.some (here ▸ first)
      · simpa [here] using ih
  exact found e.launches

theorem trans {a b c : State} (ab : a.Ends P b) (bc : b.Ends P c) : a.Ends P c where
  frame := by rw [bc.frame, ab.frame]
  ids := bc.ids.trans ab.ids
  launches := forall₂_trans (fun _ _ _ h h' => ⟨h.1.trans h'.1, fun n => (h'.2 (by rw [h.1.frame]; exact n)).trans (h.2 n)⟩)
    ab.launches bc.launches
  team k := rel_trans (fun _ _ _ h h' => ⟨h.1.trans h'.1, fun n => (h'.2 (h.1.launch ▸ n)).trans (h.2 n)⟩) (ab.team k) (bc.team k)
  core c n h := bc.core c n (ab.core c n h)

/-- Changes of clusters, queues and cores end nothing. -/
theorem aside {s t : State} (e : t = { s with clusters := t.clusters, queues := t.queues, cores := t.cores })
    (core : s.KeepsCleared t) : s.Ends P t := by
  have launches : t.launches = s.launches := by rw [e]
  have teams : t.teams = s.teams := by rw [e]
  refine ⟨by rw [e], by rw [teams], ?_, fun k => ?_, core⟩
  · rw [launches]
    exact List.forall₂_same.2 fun l _ => ⟨.refl l, fun _ => rfl⟩
  · rw [show t.team? k = s.team? k by unfold State.team?; rw [teams]]
    exact rel_refl (fun a => ⟨.refl a, fun _ => rfl⟩) _

theorem modLaunch (s : State) {lid : Nat} (own : P lid) {f : Launch → Launch} (h : ∀ l : Launch, l.Counted (f l)) :
    s.Ends P (s.modLaunch lid f) := by
  refine ⟨rfl, rfl, List.forall₂_map_right_iff.2 (List.forall₂_same.2 fun l _ => ?_),
    fun k => rel_refl (fun a => ⟨.refl a, fun _ => rfl⟩) _, fun _ _ h => h⟩
  split
  case isTrue e => exact ⟨h l, fun n => absurd (e ▸ own) n⟩
  case isFalse => exact ⟨.refl l, fun _ => rfl⟩

theorem modTeam (s : State) {t : Nat} (own : ∀ tm, s.team? t = some tm → P tm.launch) {f : Team → Team} (h : ∀ a : Team, a.Ends (f a)) :
    s.Ends P (s.modTeam t f) := by
  refine ⟨rfl, ?_, List.forall₂_same.2 fun l _ => ⟨.refl l, fun _ => rfl⟩, fun k => ?_, fun _ _ h => h⟩
  · simp only [State.modTeam, List.map_map]
    refine List.map_congr_left fun a _ => ?_
    dsimp only [Function.comp]
    split
    · exact (h a).id_eq
    · rfl
  · rw [State.team?_modTeam s t k f fun a => (h a).id_eq]
    split
    case isTrue e =>
      subst e
      cases found : s.team? k with
      | none => exact .none
      | some a => exact .some ⟨h a, fun n => absurd (own a found) n⟩
    case isFalse => exact rel_refl (fun a => ⟨.refl a, fun _ => rfl⟩) _

/-- The launch of a team stays. -/
theorem own {s t : State} (e : s.Ends P t) {k : Nat} (own : ∀ tm, s.team? k = some tm → P tm.launch) :
    ∀ tm, t.team? k = some tm → P tm.launch := by
  intro tm found
  obtain ⟨a, fa, r, -⟩ := rel_some_right (e.team k) found
  exact r.launch ▸ own a fa

section
variable {s t : State} (e : s.Ends P t)
include e

theorem team_of {k : Nat} {tm : Team} (found : s.team? k = some tm) :
    ∃ tm', t.team? k = some tm' ∧ tm.Ends tm' ∧ (¬ P tm.launch → tm' = tm) := rel_some (e.team k) found

theorem launch_of {k : Nat} {l : Launch} (found : s.launch? k = some l) :
    ∃ l', t.launch? k = some l' ∧ l.Counted l' ∧ (¬ P k → l' = l) := rel_some (e.launch k) found

theorem group_of {k gi : Nat} {g : Group} (found : s.group? k gi = some g) : ∃ g', t.group? k gi = some g' ∧ g.Ends g' := by
  obtain ⟨tm, ft, fg⟩ := Option.bind_eq_some_iff.1 found
  obtain ⟨tm', ft', r, -⟩ := e.team_of ft
  obtain ⟨g', fg', rg⟩ := rel_some (r.group gi) fg
  exact ⟨g', by rw [State.group?, ft', Option.bind_some, fg'], rg⟩

theorem hostOut : t.hostOut = s.hostOut := by rw [e.frame]
theorem now : t.now = s.now := by rw [e.frame]

end

/-- What every step of a fold over a list ends, the fold ends. -/
theorem foldl {α : Type} {f : State → α → State} {Q : α → State → Prop} (later : ∀ a (s t : State), s.Ends P t → Q a s → Q a t)
    (step : ∀ (s : State) a, Q a s → s.Ends P (f s a)) (l : List α) (s : State) (h : ∀ a ∈ l, Q a s) :
    s.Ends P (l.foldl f s) := by
  induction l generalizing s with
  | nil => exact .refl s
  | cons a l ih =>
    have first := step s a (h a (List.mem_cons_self ..))
    exact first.trans (ih _ fun b m => later b _ _ first (h b (List.mem_cons_of_mem _ m)))

end State.Ends

/-! ## Counting items (R41) -/

/-- The launch after some of its items have been counted. -/
def Launch.tally (l : Launch) (now : Nat) (e : Ending) (items : List Nat) : Launch :=
  { l with
    exited := if e = .exited then l.exited + items.length else l.exited
    killed := if e = .killed then l.killed + items.length else l.killed
    lost := if e = .lost then l.lost + items.length else l.lost
    blks := l.blks.map fun (b : Blk) =>
      let k := (items.filter fun i => i / 2 ^ l.desc.lblk = b.blk).length
      if k = 0 then b else { b with counted := b.counted + k, last := now } }

/-- Counting changes the launch, and of the queues at most the freed slots of its ring. -/
theorem State.countItems_eq (s : State) (lid : Nat) (e : Ending) (items : List Nat) :
    s.countItems lid e items =
      { s.modLaunch lid (·.tally s.now e items) with queues := (s.countItems lid e items).queues } := by
  unfold State.countItems
  split
  case h_1 none =>
    have absent : ∀ l ∈ s.launches, l.id ≠ lid := by simpa [State.launch?] using none
    have same : s.launches.map (fun l => if l.id = lid then l.tally s.now e items else l) = s.launches := by
      refine (List.map_congr_left fun l m => ?_).trans (List.map_id _)
      rw [if_neg (absent l m), id]
    simp only [State.modLaunch, same]
  case h_2 l found =>
    dsimp only
    split
    · rfl
    · rfl

theorem State.countItems_launch? (s : State) (lid k : Nat) (e : Ending) (items : List Nat) :
    (s.countItems lid e items).launch? k =
      if k = lid then (s.launch? k).map (·.tally s.now e items) else s.launch? k := by
  rw [State.countItems_eq]
  exact State.launch?_modLaunch s lid k _ fun _ => rfl

theorem State.countItems_teams (s : State) (lid : Nat) (e : Ending) (items : List Nat) :
    (s.countItems lid e items).teams = s.teams := by
  rw [State.countItems_eq]
  rfl

theorem State.countItems_team? (s : State) (lid k : Nat) (e : Ending) (items : List Nat) :
    (s.countItems lid e items).team? k = s.team? k := by
  unfold State.team?
  rw [State.countItems_teams]

theorem Launch.counted_tally (l : Launch) (now : Nat) (items : List Nat) : l.Counted (l.tally now .killed items) :=
  ⟨rfl, Nat.le_add_right ..⟩

theorem Group.itemsOf_length (g : Group) (m : Word) : (g.itemsOf m).length = popCount m := by
  simp [Group.itemsOf, popCount]

theorem State.ends_countItems {P : Nat → Prop} (s : State) {lid : Nat} (own : P lid) (items : List Nat) :
    s.Ends P (s.countItems lid .killed items) := by
  rw [State.countItems_eq]
  exact (State.Ends.modLaunch s own fun l => l.counted_tally ..).trans (.aside rfl fun _ _ h => h)

/-! ## A team retires (R31) -/

theorem Group.ends_opDone (g : Group) (i : Nat) : g.Ends (g.opDone i) := by
  refine ⟨rfl, rfl, id, id, fun done o m => ?_⟩
  obtain ⟨p, mp, rfl⟩ := List.mem_map.1 m
  exact done p (List.mem_filter.1 mp).1

theorem Group.ends_opsDone (ops : List Op) (g : Group) : g.Ends (ops.foldl (fun g o => g.opDone o.id) g) := by
  induction ops generalizing g with
  | nil => exact .refl g
  | cons o ops ih => exact (g.ends_opDone o.id).trans (ih _)

/-- The triggered operations of a group that have not fired are discarded (14 R221). -/
def Group.discard (g : Group) : Group := (g.ops.filter (·.trig.isSome)).foldl (fun g o => g.opDone o.id) g

theorem Group.ends_discard (g : Group) : g.Ends g.discard := Group.ends_opsDone _ g

/-- A retired team. -/
def Team.close (tm : Team) : Team :=
  { tm with st := .retired, cur := none, nxt := none, wantBlk := false, groups := tm.groups.map Group.discard }

theorem Team.ends_close (tm : Team) : tm.Ends tm.close where
  frame := rfl
  retired _ := rfl
  groups := Team.forall₂_map Group.ends_discard tm.groups

/-- The items of a held block that have not been handed out. -/
def State.undispensed (s : State) (l : Launch) : Option Held → List Nat
  | none => []
  | some h => (List.range (s.blkHi l h.blk - h.pos)).map (h.pos + ·)

/-- What retirement does with the next block (R31). -/
def State.endNext (s : State) (l : Launch) (left : List Nat) : Option Held → State
  | none => s.countItems l.id .killed left
  | some h =>
    if h.pos = l.blkLo h.blk then
      s.modLaunch l.id fun l => { l with returned := l.returned ++ [h.blk], blks := l.blks.filter (·.blk ≠ h.blk) }
    else s.countItems l.id .killed left

/-- The slot of a saved team falls free. -/
def State.freeSlot (s : State) (l : Nat) : TeamSt → State
  | .saved slot => s.modLaunch l fun l => { l with slots := l.slots.erase slot }
  | _ => s

/-- The retirement of a team as the order of its steps. -/
theorem State.retireTeam_of {s : State} {t : Nat} {tm : Team} {l : Launch} (found : s.team? t = some tm)
    (launch : s.launch? tm.launch = some l) :
    let tm := s.shift l tm
    s.retireTeam t = (((((s.countItems l.id .killed (s.undispensed l tm.cur)).endNext l (s.undispensed l tm.nxt) tm.nxt).modTeam t
      Team.close).freeSlot l.id tm.st).modCore tm.core fun c => { c with slots := c.slots.filter (·.2.1 ≠ t) }) := by
  unfold State.retireTeam
  rw [found]
  dsimp only
  rw [launch]
  dsimp only
  congr 1
  cases (s.shift l tm).cur <;> cases nxt : (s.shift l tm).nxt <;> cases (s.shift l tm).st <;>
    simp only [State.endNext, State.undispensed, State.freeSlot, decide_eq_true_eq] <;> rfl

section
variable {P : Nat → Prop}

theorem State.ends_endNext (s : State) (l : Launch) (own : P l.id) (left : List Nat) (o : Option Held) :
    s.Ends P (s.endNext l left o) := by
  unfold State.endNext
  split
  · exact s.ends_countItems own _
  · split
    · exact .modLaunch s own fun l => ⟨rfl, le_rfl⟩
    · exact s.ends_countItems own _

theorem State.ends_freeSlot (s : State) {l : Nat} (own : P l) (st : TeamSt) : s.Ends P (s.freeSlot l st) := by
  unfold State.freeSlot
  split
  · exact .modLaunch s own fun l => ⟨rfl, le_rfl⟩
  · exact .refl s

/-- The number of a launch that was found. -/
theorem State.launch?_id {s : State} {k : Nat} {l : Launch} (found : s.launch? k = some l) : l.id = k := by
  simpa using List.find?_some found

theorem State.team?_id {s : State} {k : Nat} {tm : Team} (found : s.team? k = some tm) : tm.id = k := by
  simpa using List.find?_some found

theorem Team.group?_grp {tm : Team} {k : Nat} {g : Group} (found : tm.group? k = some g) : g.grp = k := by
  simpa using List.find?_some found

/-- Until the team closes, retirement counts items and returns a block. -/
theorem State.ends_retireTeam (s : State) (t : Nat) (own : ∀ tm, s.team? t = some tm → P tm.launch) : s.Ends P (s.retireTeam t) := by
  cases found : s.team? t with
  | none => unfold State.retireTeam; rw [found]; exact .refl s
  | some tm =>
    cases launch : s.launch? tm.launch with
    | none => unfold State.retireTeam; rw [found]; dsimp only; rw [launch]; exact .refl s
    | some l =>
      rw [State.retireTeam_of found launch]
      have mine : P l.id := State.launch?_id launch ▸ own tm found
      have counted := (s.ends_countItems mine (s.undispensed l (s.shift l tm).cur)).trans
        (State.ends_endNext _ l mine (s.undispensed l (s.shift l tm).nxt) (s.shift l tm).nxt)
      exact ((counted.trans (.modTeam _ (counted.own own) Team.ends_close)).trans (State.ends_freeSlot _ mine _)).trans
        (.aside rfl (State.keepsCleared_modCore _ _ fun _ => rfl))

/-- The team has retired. -/
theorem State.retireTeam_st {s : State} {t : Nat} {tm : Team} {l : Launch} (found : s.team? t = some tm)
    (launch : s.launch? tm.launch = some l) : ∃ tm', (s.retireTeam t).team? t = some tm' ∧ tm'.st = .retired := by
  rw [State.retireTeam_of found launch]
  have counted := (s.ends_countItems (P := fun _ => True) (lid := l.id) trivial (s.undispensed l (s.shift l tm).cur)).trans
    (State.ends_endNext _ l trivial (s.undispensed l (s.shift l tm).nxt) (s.shift l tm).nxt)
  obtain ⟨a, fa, -⟩ := counted.team_of found
  have freed := State.ends_freeSlot (P := fun _ => True) (((s.countItems l.id .killed (s.undispensed l (s.shift l tm).cur)).endNext l
    (s.undispensed l (s.shift l tm).nxt) (s.shift l tm).nxt).modTeam t Team.close) (l := l.id) trivial (s.shift l tm).st
  obtain ⟨b, fb, rb, -⟩ := freed.team_of (tm := a.close) (k := t) (by
    rw [State.team?_modTeam _ t t Team.close fun _ => rfl, if_pos rfl, fa, Option.map_some])
  exact ⟨b, fb, rb.retired rfl⟩

/-! ## A group retires (R31, 14 R207) -/

/-- A team differs from another in its barrier instances and its race records alone. -/
def Team.BarsMove (a b : Team) : Prop := b = { a with barInst := b.barInst, barDone := b.barDone, scrRace := b.scrRace }

theorem Team.BarsMove.trans {a b c : Team} (ab : a.BarsMove b) (bc : b.BarsMove c) : a.BarsMove c := by
  unfold Team.BarsMove at *
  rw [bc, ab]

theorem Team.BarsMove.group? {a b : Team} (m : a.BarsMove b) (i : Nat) : b.group? i = a.group? i := by
  rw [m]; rfl

theorem Team.BarsMove.ends {a b : Team} (m : a.BarsMove b) : a.Ends b :=
  ⟨by rw [m], fun h => by rw [m]; exact h, by rw [m]; exact List.forall₂_same.2 fun g _ => .refl g⟩

/-- Barriers close and race records go; teams' groups and launches stay. -/
structure State.BarsMove (P : Nat → Prop) (s t : State) : Prop where
  frame : t = { s with teams := t.teams, clusters := t.clusters, cores := t.cores }
  ids : t.teams.map (·.id) = s.teams.map (·.id)
  team : ∀ k, Option.Rel (fun a b : Team => a.BarsMove b ∧ (¬ P a.launch → b = a)) (s.team? k) (t.team? k)
  core : s.KeepsCleared t

theorem State.BarsMove.trans {a b c : State} (ab : a.BarsMove P b) (bc : b.BarsMove P c) : a.BarsMove P c where
  frame := by rw [bc.frame, ab.frame]
  ids := bc.ids.trans ab.ids
  team k := rel_trans (fun _ _ _ h h' => ⟨h.1.trans h'.1, fun n => (h'.2 (h.1.ends.launch ▸ n)).trans (h.2 n)⟩) (ab.team k) (bc.team k)
  core c n h := bc.core c n (ab.core c n h)

theorem State.BarsMove.launch? {s t : State} (m : s.BarsMove P t) (k : Nat) : t.launch? k = s.launch? k := by
  rw [m.frame]; rfl

theorem State.BarsMove.ends {s t : State} (m : s.BarsMove P t) : s.Ends P t where
  frame := by rw [m.frame]
  ids := m.ids
  launches := by
    rw [m.frame]
    exact List.forall₂_same.2 fun l _ => ⟨.refl l, fun _ => rfl⟩
  team k := by
    have r := m.team k
    cases found : s.team? k with
    | none => rw [found] at r; cases h : t.team? k with
      | none => exact .none
      | some b => rw [h] at r; cases r
    | some a =>
      obtain ⟨b, fb, rb, stays⟩ := rel_some r found
      rw [fb]
      exact .some ⟨rb.ends, stays⟩
  core := m.core

theorem State.BarsMove.aside {s t : State} (e : t = { s with clusters := t.clusters, cores := t.cores }) (core : s.KeepsCleared t) :
    s.BarsMove P t := by
  have teams : t.teams = s.teams := by rw [e]
  refine ⟨by rw [e], by rw [teams], fun k => ?_, core⟩
  rw [show t.team? k = s.team? k by unfold State.team?; rw [teams]]
  exact rel_refl (fun a => ⟨rfl, fun _ => rfl⟩) _

theorem State.BarsMove.modCore (s : State) (c : Nat) {f : Core → Core} (keeps : ∀ n, f (Core.cleared n) = Core.cleared n) :
    s.BarsMove P (s.modCore c f) := .aside rfl (State.keepsCleared_modCore s c keeps)

theorem State.BarsMove.modTeam (s : State) {t : Nat} (own : ∀ tm, s.team? t = some tm → P tm.launch) {f : Team → Team}
    (h : ∀ a : Team, a.BarsMove (f a)) : s.BarsMove P (s.modTeam t f) := by
  have e := State.Ends.modTeam s own fun a => (h a).ends
  refine ⟨rfl, e.ids, fun k => ?_, fun _ _ h => h⟩
  rw [State.team?_modTeam s t k f fun a => (h a).ends.id_eq]
  split
  case isTrue e =>
    subst e
    cases found : s.team? k with
    | none => exact .none
    | some a => exact .some ⟨h a, fun n => absurd (own a found) n⟩
  case isFalse => exact rel_refl (fun a => ⟨rfl, fun _ => rfl⟩) _

theorem State.BarsMove.modCoreTeam (s : State) {c t : Nat} (own : ∀ tm, s.team? t = some tm → P tm.launch) {f : Core → Core}
    (keeps : ∀ n, f (Core.cleared n) = Core.cleared n) {h : Team → Team} (ok : ∀ a : Team, a.BarsMove (h a)) : s.BarsMove P ((s.modCore c f).modTeam t h) :=
  .trans (.modCore s c keeps) (.modTeam (s.modCore c f) own ok)

theorem State.BarsMove.setBarInst (s : State) (tm : Team) (own : ∀ a, s.team? tm.id = some a → P a.launch) (cluster : Bool)
    (b : BarInst) : s.BarsMove P (s.setBarInst tm cluster b) := by
  unfold State.setBarInst
  split
  · split
    · exact .aside rfl fun _ _ h => h
    · exact .aside rfl fun _ _ h => h
  · exact .modTeam s own fun _ => rfl

theorem State.BarsMove.setBarDone (s : State) (tm : Team) (own : ∀ a, s.team? tm.id = some a → P a.launch) (cluster : Bool)
    (b : List BarInst) : s.BarsMove P (s.setBarDone tm cluster b) := by
  unfold State.setBarDone
  split
  · split
    · exact .aside rfl fun _ _ h => h
    · exact .aside rfl fun _ _ h => h
  · exact .modTeam s own fun _ => rfl

theorem State.BarsMove.closeBar (s : State) (t : Nat) (own : ∀ a, s.team? t = some a → P a.launch) (cluster : Bool) :
    s.BarsMove P (s.closeBar t cluster) := by
  unfold State.closeBar
  split
  · exact .aside rfl fun _ _ h => h
  case h_2 tm found =>
    dsimp only
    split
    · obtain rfl := State.team?_id found
      have first := State.BarsMove.setBarDone s tm own cluster (s.barDone tm cluster ++ [s.barInst tm cluster])
      exact first.trans (.setBarInst _ tm (first.ends.own own) ..)
    · exact .aside rfl fun _ _ h => h

theorem State.BarsMove.clearRaces (s : State) (c t gi : Nat) (own : ∀ a, s.team? t = some a → P a.launch) :
    s.BarsMove P (s.clearRaces c t gi) := by
  unfold State.clearRaces
  exact .modCoreTeam s own (fun _ => rfl) fun _ => rfl

/-- A group whose slot has fallen free. -/
def Group.emptied (g : Group) : Group :=
  { g with
    live := false, splits := [], joins := [], occ := 0, pend := [], score := [], vregs := [], sregs := [], kregs := [], tiles := []
    tflags := [], xp := none, efaults := [], ops := g.ops.map fun (o : Op) => { o with waitRetry := false } }

theorem Group.ends_emptied (g : Group) : g.Ends g.emptied := by
  refine ⟨rfl, rfl, fun _ => rfl, fun _ => rfl, fun done o m => ?_⟩
  obtain ⟨p, mp, rfl⟩ := List.mem_map.1 m
  exact done p mp

/-- A team one of whose groups has retired: its arrivals at rendezvous are withdrawn. -/
def Team.emptyGroup (tm : Team) (gi : Nat) : Team :=
  { tm.modGroup gi Group.emptied with
    quartArr := tm.quartArr.filter (·.2.2.grp ≠ gi), spanArr := tm.spanArr.filter (·.2.2.grp ≠ gi) }

theorem Team.ends_emptyGroup (tm : Team) (gi : Nat) : tm.Ends (tm.emptyGroup gi) where
  frame := rfl
  retired h := h
  groups := (Team.Ends.modGroup tm gi Group.ends_emptied).groups

/-- The barriers that a retired group no longer takes part in, its race records and its slot. -/
def State.leaveBars (s : State) (t gi core : Nat) : State :=
  (((s.closeBar t false).closeBar t true).clearRaces core t gi).modCore core fun c =>
    { c with slots := c.slots.filter fun x => !(x.2.1 = t && x.2.2 = gi) }

theorem State.barsMove_leaveBars (s : State) (t gi core : Nat) (own : ∀ a, s.team? t = some a → P a.launch) :
    s.BarsMove P (s.leaveBars t gi core) := by
  have team := State.BarsMove.closeBar s t own false
  have cluster := team.trans (.closeBar _ t (team.ends.own own) true)
  exact (cluster.trans (.clearRaces _ core t gi (cluster.ends.own own))).trans
    (.aside rfl (State.keepsCleared_modCore _ _ fun _ => rfl))

/-- The retirement of a group as the order of its steps. -/
theorem State.retireGroup_of {s : State} {t : Nat} {tm : Team} (found : s.team? t = some tm) (gi : Nat) :
    let s1 := (s.modTeam t (·.emptyGroup gi)).leaveBars t gi tm.core
    s.retireGroup t gi = if ((s1.team? t).map fun tm => tm.groups.all (!·.live)) = some true then s1.retireTeam t else s1 := by
  unfold State.retireGroup
  rw [found]
  change (match ((s.modTeam t (·.emptyGroup gi)).leaveBars t gi tm.core).team? t with
    | none => (s.modTeam t (·.emptyGroup gi)).leaveBars t gi tm.core
    | some tm' => if tm'.groups.all (!·.live) then ((s.modTeam t (·.emptyGroup gi)).leaveBars t gi tm.core).retireTeam t
        else (s.modTeam t (·.emptyGroup gi)).leaveBars t gi tm.core) = _
  cases ((s.modTeam t (·.emptyGroup gi)).leaveBars t gi tm.core).team? t <;> simp

theorem State.ends_leaveGroup {s : State} {t gi core : Nat} (own : ∀ tm, s.team? t = some tm → P tm.launch) :
    s.Ends P ((s.modTeam t (·.emptyGroup gi)).leaveBars t gi core) := by
  have empties := State.Ends.modTeam s own (Team.ends_emptyGroup · gi)
  exact empties.trans (State.barsMove_leaveBars _ t gi core (empties.own own)).ends

theorem State.ends_retireGroup (s : State) (t gi : Nat) (own : ∀ tm, s.team? t = some tm → P tm.launch) :
    s.Ends P (s.retireGroup t gi) := by
  cases found : s.team? t with
  | none => unfold State.retireGroup; rw [found]; exact .refl s
  | some tm =>
    rw [State.retireGroup_of found]
    have left := State.ends_leaveGroup (gi := gi) (core := tm.core) own
    split
    · exact left.trans (State.ends_retireTeam _ t (left.own own))
    · exact left

/-- The group that retires is empty. -/
theorem State.retireGroup_group {s : State} {t gi : Nat} {g : Group} (found : s.group? t gi = some g) :
    ∃ g', (s.retireGroup t gi).group? t gi = some g' ∧ g'.live = false ∧ g'.occ = 0 ∧ g'.frec = g.frec := by
  obtain ⟨tm, ft, fg⟩ := Option.bind_eq_some_iff.1 found
  have emptied : (s.modTeam t (·.emptyGroup gi)).group? t gi = some g.emptied := by
    unfold State.group?
    rw [State.team?_modTeam s t t (·.emptyGroup gi) fun _ => rfl, if_pos rfl, ft]
    exact (Team.group?_modGroup tm gi gi Group.emptied fun _ => rfl).trans (by rw [if_pos rfl, fg, Option.map_some])
  have left := (State.barsMove_leaveBars (P := fun _ => True) (s.modTeam t (·.emptyGroup gi)) t gi tm.core fun _ _ => trivial).ends
  have whole : (s.modTeam t (·.emptyGroup gi)).Ends (fun _ => True) (s.retireGroup t gi) := by
    rw [State.retireGroup_of ft]
    split
    · exact left.trans (State.ends_retireTeam _ t fun _ _ => trivial)
    · exact left
  obtain ⟨g', fg', r⟩ := whole.group_of emptied
  exact ⟨g', fg', r.live rfl, r.occ rfl, r.frec⟩

/-! ## Kills (Table 3.5) -/

theorem State.killGroup_of {s : State} {t gi : Nat} {tm : Team} {g : Group} (ft : s.team? t = some tm) (fg : tm.group? gi = some g)
    (live : g.live = true) : s.killGroup t gi = (s.countItems tm.launch .killed (g.itemsOf g.occ)).retireGroup t gi := by
  unfold State.killGroup
  rw [ft]
  dsimp only
  rw [fg]
  dsimp only
  rw [if_pos live]

theorem State.ends_killGroup (s : State) (t gi : Nat) (own : ∀ tm, s.team? t = some tm → P tm.launch) :
    s.Ends P (s.killGroup t gi) := by
  unfold State.killGroup
  split
  · exact .refl s
  case h_2 tm found =>
    split
    · exact .refl s
    · split
      · have counted := s.ends_countItems (own tm found) (Group.itemsOf ‹Group› (Group.occ ‹Group›))
        exact counted.trans (State.ends_retireGroup _ t gi (counted.own own))
      · exact .refl s

/-- A killed group has retired. -/
theorem State.killGroup_live {s : State} {t gi : Nat} {g : Group} (found : s.group? t gi = some g) :
    ∃ g', (s.killGroup t gi).group? t gi = some g' ∧ g'.live = false := by
  obtain ⟨tm, ft, fg⟩ := Option.bind_eq_some_iff.1 found
  cases live : g.live with
  | true =>
    rw [State.killGroup_of ft fg live]
    have kept : (s.countItems tm.launch .killed (g.itemsOf g.occ)).group? t gi = some g := by
      rw [State.group?, State.countItems_team?]
      exact found
    obtain ⟨g', fg', dead, -⟩ := State.retireGroup_group kept
    exact ⟨g', fg', dead⟩
  | false =>
    refine ⟨g, ?_, live⟩
    unfold State.killGroup
    rw [ft]
    dsimp only
    rw [fg]
    simpa [live] using found

theorem State.ends_killGroups (t : Nat) (gs : List Group) (s : State) (own : ∀ tm, s.team? t = some tm → P tm.launch) :
    s.Ends P (gs.foldl (fun s g => s.killGroup t g.grp) s) :=
  .foldl (Q := fun _ s => ∀ tm, s.team? t = some tm → P tm.launch) (fun _ _ _ e own => e.own own)
    (fun s g own => s.ends_killGroup t g.grp own) gs s fun _ _ => own

theorem State.ends_killTeam (s : State) (t : Nat) (own : ∀ tm, s.team? t = some tm → P tm.launch) : s.Ends P (s.killTeam t) := by
  unfold State.killTeam
  split
  · exact .refl s
  · have groups := State.ends_killGroups t (Team.groups ‹Team›) s own
    dsimp only
    split
    · exact groups
    · split
      · exact groups
      · exact groups.trans (State.ends_retireTeam _ t (groups.own own))

/-- Every group of a killed team has retired. -/
theorem State.killTeam_live {s : State} {t gi : Nat} {g : Group} (found : s.group? t gi = some g) :
    ∃ g', (s.killTeam t).group? t gi = some g' ∧ g'.live = false := by
  obtain ⟨tm, ft, fg⟩ := Option.bind_eq_some_iff.1 found
  have later : ∀ (s : State) (y g : Group), s.group? t gi = some g → ∃ g', (s.killGroup t y.grp).group? t gi = some g' ∧ g.Ends g' :=
    fun s y _ found => (s.ends_killGroup (P := fun _ => True) t y.grp fun _ _ => trivial).group_of found
  obtain ⟨g1, f1, dead⟩ := foldl_reaches (f := fun (s : State) (y : Group) => s.killGroup t y.grp)
    (Q := fun s => ∃ g, s.group? t gi = some g) (P := fun s => ∃ g, s.group? t gi = some g ∧ g.live = false)
    (fun s y ⟨g, found⟩ => let ⟨g', fg', _⟩ := later s y g found; ⟨g', fg'⟩)
    (fun s ⟨g', found⟩ => (Team.group?_grp fg).symm ▸ State.killGroup_live found)
    (fun s y ⟨g, found, dead⟩ => let ⟨g', fg', r⟩ := later s y g found; ⟨g', fg', r.live dead⟩)
    tm.groups s (List.mem_of_find?_eq_some fg) ⟨g, found⟩
  unfold State.killTeam
  rw [ft]
  dsimp only
  split
  · exact ⟨g1, f1, dead⟩
  · split
    · exact ⟨g1, f1, dead⟩
    · obtain ⟨g', fg', r⟩ := (State.ends_retireTeam (P := fun _ => True) _ t fun _ _ => trivial).group_of f1
      exact ⟨g', fg', r.live dead⟩

/-- A killed team of a launch has retired. -/
theorem State.killTeam_st {s : State} {t : Nat} {tm : Team} {l : Launch} (found : s.team? t = some tm)
    (launch : s.launch? tm.launch = some l) : ∃ tm', (s.killTeam t).team? t = some tm' ∧ tm'.st = .retired := by
  have groups := State.ends_killGroups (P := fun _ => True) t tm.groups s fun _ _ => trivial
  obtain ⟨a, fa, ra, -⟩ := groups.team_of found
  obtain ⟨l', fl, -⟩ := groups.launch_of (ra.launch ▸ launch)
  unfold State.killTeam
  rw [found]
  dsimp only
  rw [fa]
  dsimp only
  split
  case isTrue gone => exact ⟨a, fa, gone⟩
  case isFalse => exact State.retireTeam_st fa fl

/-- The teams of a launch are killed one after another. -/
theorem State.ends_killTeams (ts : List Team) (s : State) (own : ∀ u ∈ ts, ∀ tm, s.team? u.id = some tm → P tm.launch) :
    s.Ends P (ts.foldl (fun s t => s.killTeam t.id) s) :=
  .foldl (Q := fun (u : Team) s => ∀ tm, s.team? u.id = some tm → P tm.launch) (fun _ _ _ e own => e.own own)
    (fun s u own => s.ends_killTeam u.id own) ts s own

end

end Sys2Proof.Machine
end

section
/-! PROOFS. Taking a fault (03 R38 to R40, 26 R321 to R325): which level absorbs it, what the record and the launch's count say
in every case, and what each action does. -/

namespace Sys2Proof.Machine

/-! ## The level that absorbs a fault (R39) -/

/-- What one level does with a fault. -/
def levelTakes (pol : List Action) (f : FInfo) (lv : Nat) : Option (Nat × Action) :=
  if lv < f.level then none
  else match pol.getD lv .kparent with
    | .kparent => none
    | .ign => if f.fetch then none else some (lv, .ign)
    | .retry => if f.cause.retryable then some (lv, .retry) else none
    | .kself => some (lv, .kself)

theorem absorb_eq (pol : List Action) (f : FInfo) : absorb pol f = (List.range 5).findSome? (levelTakes pol f) := rfl

/-- A level's policy lets a fault pass to its parent. -/
def PassesUp (pol : List Action) (f : FInfo) (k : Nat) : Prop :=
  pol.getD k .kparent = .kparent ∨ (pol.getD k .kparent = .retry ∧ f.cause.retryable = false) ∨
    (pol.getD k .kparent = .ign ∧ f.fetch = true)

theorem levelTakes_eq_none {pol : List Action} {f : FInfo} {lv : Nat} :
    levelTakes pol f lv = none ↔ lv < f.level ∨ PassesUp pol f lv := by
  unfold levelTakes PassesUp
  split
  case isTrue low => simp [low]
  case isFalse high => cases pol.getD lv .kparent <;> simp [high]

theorem levelTakes_eq_some {pol : List Action} {f : FInfo} {lv k : Nat} {a : Action} :
    levelTakes pol f lv = some (k, a) ↔ k = lv ∧ f.level ≤ lv ∧ pol.getD lv .kparent = a ∧ ¬ PassesUp pol f lv := by
  unfold levelTakes PassesUp
  split
  case isTrue low => simp; omega
  case isFalse high =>
    have above := Nat.not_lt.1 high
    cases pol.getD lv .kparent <;> cases a <;> simp [above, eq_comm (a := lv), and_comm]

/-- The first of some levels that takes a fault. -/
theorem findSome?_levelTakes (pol : List Action) (f : FInfo) (n lv : Nat) (a : Action) :
    (List.range n).findSome? (levelTakes pol f) = some (lv, a) ↔
      lv < n ∧ levelTakes pol f lv = some (lv, a) ∧ ∀ k < lv, levelTakes pol f k = none := by
  induction n with
  | zero => simp
  | succ n ih =>
    rw [List.range_succ, List.findSome?_append, Option.or_eq_some_iff, ih, List.findSome?_eq_none_iff]
    simp only [List.findSome?_singleton, List.mem_range]
    constructor
    · rintro (⟨inside, taken⟩ | ⟨before, taken⟩)
      · exact ⟨Nat.lt_succ_of_lt inside, taken⟩
      · obtain ⟨rfl, -⟩ := levelTakes_eq_some.1 taken
        exact ⟨Nat.lt_succ_self _, taken, before⟩
    · rintro ⟨inside, taken, before⟩
      rcases Nat.lt_succ_iff_lt_or_eq.1 inside with below | rfl
      · exact .inl ⟨below, taken, before⟩
      · exact .inr ⟨before, taken⟩

/-- The lowest level, from the origin up, that lets a fault not pass absorbs it. -/
theorem absorb_eq_some {pol : List Action} {f : FInfo} {lv : Nat} {a : Action} :
    absorb pol f = some (lv, a) ↔
      f.level ≤ lv ∧ lv < 5 ∧ pol.getD lv .kparent = a ∧ ¬ PassesUp pol f lv ∧ ∀ k, f.level ≤ k → k < lv → PassesUp pol f k := by
  rw [absorb_eq, findSome?_levelTakes, levelTakes_eq_some]
  simp only [levelTakes_eq_none, true_and]
  constructor
  · rintro ⟨inside, ⟨above, act, stays⟩, below⟩
    exact ⟨above, inside, act, stays, fun k from_ lt => (below k lt).resolve_left (Nat.not_lt.2 from_)⟩
  · rintro ⟨above, inside, act, stays, below⟩
    exact ⟨inside, ⟨above, act, stays⟩, fun k lt => (Nat.lt_or_ge k f.level).imp_right fun from_ => below k from_ lt⟩

/-- A fault that every level passes leaves the grid. -/
theorem absorb_eq_none {pol : List Action} {f : FInfo} : absorb pol f = none ↔ ∀ k, f.level ≤ k → k < 5 → PassesUp pol f k := by
  rw [absorb_eq, List.findSome?_eq_none_iff]
  simp only [levelTakes_eq_none, List.mem_range]
  exact ⟨fun h k from_ inside => (h k inside).resolve_left (Nat.not_lt.2 from_),
    fun h k inside => (Nat.lt_or_ge k f.level).imp_right fun from_ => h k from_ inside⟩

/-! ## The record and the count (26 R321, R322) -/

/-- The state in which containment acts: the launch's sequence number has grown, the group holds the fault's record, and the
split's results have landed. -/
def State.recorded (s : State) (r : SRef) (l seq : Nat) (frec : List DWord) : State :=
  ((s.modLaunch l fun l => { l with seq := seq }).modGroup r.team r.grp fun g => { g with frec := frec }).modGroup r.team r.grp
    fun g => g.landSplits [r.split]

/-- The record of a fault. -/
def recordFor (tm : Team) (g : Group) (f : FInfo) (l : Launch) : List DWord :=
  frecOf tm g f (l.seq + 1) ((absorb l.desc.policy f).getD (7, .kparent)).1 ((absorb l.desc.policy f).getD (7, .kparent)).2.code

/-- The log entry of a fault. -/
def entryFor (tm : Team) (g : Group) (f : FInfo) (l : Launch) : List Byte :=
  logEntry (recordFor tm g f l) f.pages (if f.cause = .converge then g.convergeList else [])

/-- How a split is held otherwise than for a fault. -/
def Hold.plain : Hold → Hold
  | .fault _ => .run
  | h => h

/-- How a split of the group is held. -/
def Group.holdOf (g : Group) (i : Nat) : Hold := ((g.split? i).map (·.hold)).getD .run

/-- The report of a fault to the host. -/
def reportFor (r : SRef) (g : Group) (f : FInfo) (l : Launch) (eng : Option EFault) : Report :=
  { seq := l.seq + 1, team := r.team, grp := r.grp, split := r.split, level := f.level, cause := some f.cause, lanes := f.lanes,
    grid := (absorb l.desc.policy f).isNone, trapStop := false, held := (g.holdOf r.split).plain,
    eng := eng, fetch := f.fetch }

/-- A split waits for the answer to its fault. -/
def State.await (s : State) (r : SRef) (l : Nat) (p : Report) : State :=
  (s.modLaunch l fun l => { l with reports := l.reports ++ [p] }).modSplit r fun x => { x with hold := .fault p.seq }

section
variable {s : State} {r : SRef} {f : FInfo} {tm : Team} {g : Group} {l : Launch} (eng : Option EFault)
  (ft : s.team? r.team = some tm) (fg : tm.group? r.grp = some g) (fl : s.launch? tm.launch = some l)
include ft fg fl

/-- What containment does, by the level and action that absorb the fault. -/
theorem State.contain_of :
    let s1 := s.recorded r l.id (l.seq + 1) (recordFor tm g f l)
    let entry := entryFor tm g f l
    s.contain r f eng = match absorb l.desc.policy f with
      | none => (((((s1.logFault l.id entry).tell (.delivered l.id (l.seq + 1) entry)).await r l.id (reportFor r g f l eng)).suspend
          l.id (l.seq + 1)), .held (f.level != 0))
      | some (lv, .retry) => ((s1.tell (.delivered l.id (l.seq + 1) entry)).await r l.id (reportFor r g f l eng), .held (lv != 0))
      | some (lv, .ign) => (s1.logFault l.id entry, .ign lv)
      | some (_, .kparent) => (s1, .killed)
      | some (lv, .kself) =>
        ((((s1.logFault l.id entry).modSplit r fun x => { x with hold := .fault (l.seq + 1) }).kself tm lv r f.lanes f.fetch).modSplit
          r fun x => if x.hold = .fault (l.seq + 1) then { x with hold := g.holdOf r.split } else x,
          .killed) := by
  unfold State.contain
  rw [ft]
  dsimp only
  rw [fg, fl]
  rfl

end

/-- The words of a record; the fourth, sixth and seventh are of no concern here. -/
theorem frecOf_eq (tm : Team) (g : Group) (f : FInfo) (seq lv act : Nat) : ∃ a b c : DWord, ∃ it : Bool, frecOf tm g f seq lv act =
    [BitVec.ofNat 64 (seq * 2 ^ 32 + min (pageList f.pages).length 32 * 2 ^ 24 + (if 32 < (pageList f.pages).length then 2 ^ 23 else 0)
        + (if it then 2 ^ 22 else 0) + (if f.eng then 2 ^ 21 else 0) + act * 2 ^ 19 + lv * 2 ^ 16 + f.level * 2 ^ 8 + f.cause.code),
      f.pc, BitVec.ofNat 64 (f.split.toNat * 2 ^ 32 + f.lanes.toNat), a, f.addr, b, c, BitVec.ofNat 64 (g.grp * 2 ^ 32 + tm.num)] := by
  unfold frecOf
  exact ⟨_, _, _, _, rfl⟩

/-- The fields of FREC0 (Table 26.2). -/
theorem frec0_fields {seq n act lv o c : Nat} (it eng : Bool) (hn : n ≤ 32) (ha : act < 4) (hl : lv < 8) (ho : o < 5) (hc : c < 256) :
    let w := (BitVec.ofNat 64 (seq * 2 ^ 32 + min n 32 * 2 ^ 24 + (if 32 < n then 2 ^ 23 else 0)
        + (if it then 2 ^ 22 else 0) + (if eng then 2 ^ 21 else 0) + act * 2 ^ 19 + lv * 2 ^ 16 + o * 2 ^ 8 + c)).toNat
    w % 2 ^ 8 = c ∧ w / 2 ^ 8 % 8 = o ∧ w / 2 ^ 16 % 8 = lv ∧ w / 2 ^ 19 % 4 = act ∧ w / 2 ^ 32 = seq % 2 ^ 32 := by
  simp only [BitVec.toNat_ofNat]
  refine ⟨?_, ?_, ?_, ?_, ?_⟩ <;> split <;> split <;> split <;> omega

theorem absorb_level {pol : List Action} {f : FInfo} : ((absorb pol f).getD (7, .kparent)).1 < 8 := by
  cases h : absorb pol f with
  | none => decide
  | some p => obtain ⟨-, inside, -⟩ := absorb_eq_some.1 h; simpa using inside.trans (by decide)

theorem Action.code_lt (a : Action) : a.code < 4 := by cases a <;> decide

/-- What the record of a fault says (Table 26.2). -/
theorem recordFor_fields (tm : Team) (g : Group) (f : FInfo) (l : Launch) :
    let w := recordFor tm g f l
    (f.cause.code < 256 → f.level < 5 → (pageList f.pages).length ≤ 32 →
      (w.getD 0 0).toNat % 2 ^ 8 = f.cause.code ∧ (w.getD 0 0).toNat / 2 ^ 8 % 8 = f.level ∧
      (w.getD 0 0).toNat / 2 ^ 16 % 8 = ((absorb l.desc.policy f).map (·.1)).getD 7 ∧
      (w.getD 0 0).toNat / 2 ^ 19 % 4 = ((absorb l.desc.policy f).map (·.2.code)).getD 3 ∧
      (w.getD 0 0).toNat / 2 ^ 32 = (l.seq + 1) % 2 ^ 32) ∧
    w.length = 8 ∧ w.getD 1 0 = f.pc ∧ (w.getD 2 0).toNat = f.split.toNat * 2 ^ 32 + f.lanes.toNat ∧ w.getD 4 0 = f.addr ∧
    w.getD 7 0 = BitVec.ofNat 64 (g.grp * 2 ^ 32 + tm.num) := by
  obtain ⟨a, b, c, it, e⟩ := frecOf_eq tm g f (l.seq + 1) ((absorb l.desc.policy f).getD (7, .kparent)).1
    ((absorb l.desc.policy f).getD (7, .kparent)).2.code
  have e : recordFor tm g f l = _ := e
  dsimp only
  rw [e]
  have level : ((absorb l.desc.policy f).map (·.1)).getD 7 = ((absorb l.desc.policy f).getD (7, .kparent)).1 := by
    cases absorb l.desc.policy f <;> rfl
  have action : ((absorb l.desc.policy f).map (·.2.code)).getD 3 = ((absorb l.desc.policy f).getD (7, .kparent)).2.code := by
    cases absorb l.desc.policy f <;> rfl
  refine ⟨fun code lv pages => ?_, rfl, rfl, ?_, rfl, rfl⟩
  · rw [level, action]
    exact frec0_fields it f.eng pages (Action.code_lt _) absorb_level lv code
  · have split := f.split.isLt
    have lanes := f.lanes.isLt
    simp only [List.getD_cons_succ, List.getD_cons_zero, BitVec.toNat_ofNat]
    omega

/-! ## What every action leaves -/

/-- The group of a fault bears its record, and the launch its sequence number. -/
structure State.Bears (r : SRef) (k seq : Nat) (frec : List DWord) (s : State) : Prop where
  group : ∃ g, s.group? r.team r.grp = some g ∧ g.frec = frec
  launch : ∃ l, s.launch? k = some l ∧ l.seq = seq

namespace State.Bears

variable {r : SRef} {k seq : Nat} {frec : List DWord} {s t : State} (b : s.Bears r k seq frec)
include b

theorem homeWritten (w : s.HomeWritten t) : t.Bears r k seq frec :=
  ⟨by rw [w.group?]; exact b.group, by rw [w.launch?]; exact b.launch⟩

theorem tell (m : HostMsg) : (s.tell m).Bears r k seq frec := ⟨b.group, b.launch⟩

theorem modLaunch (lid : Nat) {f : Launch → Launch} (id : ∀ l, (f l).id = l.id) (keeps : ∀ l, (f l).seq = l.seq) :
    (s.modLaunch lid f).Bears r k seq frec := by
  refine ⟨b.group, ?_⟩
  obtain ⟨l, fl, e⟩ := b.launch
  rw [State.launch?_modLaunch s lid k f id, fl]
  split
  · exact ⟨_, rfl, (keeps l).trans e⟩
  · exact ⟨_, rfl, e⟩

theorem modGroup (a c : Nat) {f : Group → Group} (grp : ∀ g, (f g).grp = g.grp) (keeps : ∀ g, (f g).frec = g.frec) :
    (s.modGroup a c f).Bears r k seq frec := by
  refine ⟨?_, b.launch⟩
  obtain ⟨g, fg, e⟩ := b.group
  rw [State.group?_modGroup s a c _ _ f grp, fg]
  split
  · exact ⟨_, rfl, (keeps g).trans e⟩
  · exact ⟨_, rfl, e⟩

theorem modSplit (x : SRef) (f : Split → Split) : (s.modSplit x f).Bears r k seq frec :=
  b.modGroup _ _ (fun _ => rfl) fun _ => rfl

theorem logFault (lid : Nat) (entry : List Byte) : (s.logFault lid entry).Bears r k seq frec := by
  cases found : s.launch? lid with
  | none => unfold State.logFault; rw [found]; exact b
  | some l =>
    obtain ⟨t, w, e⟩ := State.logFault_of found entry
    rw [e]
    exact (b.homeWritten w).modLaunch lid (fun _ => rfl) fun _ => rfl

theorem ends {P : Nat → Prop} (e : s.Ends P t) : t.Bears r k seq frec := by
  obtain ⟨g, fg, hg⟩ := b.group
  obtain ⟨l, fl, hl⟩ := b.launch
  obtain ⟨g', fg', rg⟩ := e.group_of fg
  obtain ⟨l', fl', rl, -⟩ := e.launch_of fl
  exact ⟨⟨g', fg', rg.frec.trans hg⟩, ⟨l', fl', by rw [rl.frame]; exact hl⟩⟩

end State.Bears

theorem State.team?_map {s t : State} {f : Team → Team} (e : t.teams = s.teams.map f) (id : ∀ x, (f x).id = x.id) (k : Nat) :
    t.team? k = (s.team? k).map f := by
  unfold State.team?
  rw [e, List.find?_map]
  exact congrArg _ (congrArg (List.find? · s.teams) (funext fun x => by simp [id]))

/-- A team that a launch's suspension stops (R40). -/
def Team.stopFor (lid now : Nat) (t : Team) : Team :=
  if t.launch = lid then (match t.st with
    | .running | .notice _ => { t with st := .notice now, why := some .grid }
    | _ => t) else t

theorem Team.stopFor_frame (lid now : Nat) (t : Team) :
    t.stopFor lid now = { t with st := (t.stopFor lid now).st, why := (t.stopFor lid now).why } := by
  unfold Team.stopFor
  split
  · split <;> rfl
  · rfl

/-- A stopped team runs on only towards the stop. -/
theorem Team.stopFor_st {lid now : Nat} {t : Team} (mine : (t.stopFor lid now).launch = lid) :
    (t.stopFor lid now).st ≠ .running ∧ ∀ n, (t.stopFor lid now).st = .notice n → (t.stopFor lid now).why = some .grid := by
  have same : t.launch = lid := by rw [t.stopFor_frame] at mine; exact mine
  unfold Team.stopFor
  rw [if_pos same]
  cases st : t.st <;> simp [st]

theorem State.suspend_stops (s : State) (lid seq : Nat) :
    ∀ y ∈ (s.suspend lid seq).teams, y.launch = lid → y.st ≠ .running ∧ ∀ n, y.st = .notice n → y.why = some .grid := by
  intro y my mine
  obtain ⟨z, -, rfl⟩ := List.mem_map.1 my
  exact Team.stopFor_st mine

theorem State.suspend_team? (s : State) (lid seq k : Nat) : (s.suspend lid seq).team? k = (s.team? k).map (·.stopFor lid s.now) :=
  State.team?_map (s := s) rfl (fun x => by rw [x.stopFor_frame]) k

theorem State.suspend_group? (s : State) (lid seq k i : Nat) : (s.suspend lid seq).group? k i = s.group? k i := by
  unfold State.group?
  rw [State.suspend_team?]
  cases s.team? k with
  | none => rfl
  | some tm =>
    change (tm.stopFor lid s.now).group? i = tm.group? i
    rw [tm.stopFor_frame]
    rfl

theorem State.suspend_launch? (s : State) (lid seq k : Nat) : (s.suspend lid seq).launch? k =
    if k = lid then (s.launch? k).map (fun l => { l with suspended := true, held := [] }) else s.launch? k :=
  State.launch?_modLaunch s lid k _ fun _ => rfl

section
variable {r : SRef} {k seq : Nat} {frec : List DWord} {s : State} (b : s.Bears r k seq frec)
include b

theorem State.Bears.suspend (lid n : Nat) : (s.suspend lid n).Bears r k seq frec := by
  refine ⟨by rw [State.suspend_group?]; exact b.group, ?_⟩
  obtain ⟨l, fl, e⟩ := b.launch
  rw [State.suspend_launch?, fl]
  split
  · exact ⟨_, rfl, e⟩
  · exact ⟨_, rfl, e⟩

theorem State.Bears.await (x : SRef) (lid : Nat) (p : Report) : (s.await x lid p).Bears r k seq frec :=
  (b.modLaunch lid (f := fun l => { l with reports := l.reports ++ [p] }) (fun _ => rfl) fun _ => rfl).modSplit x _

end

/-! ## KSELF (Table 3.5) -/

theorem State.modTeam_same (s : State) (t : Nat) {f : Team → Team} (same : ∀ x, f x = x) : s.modTeam t f = s := by
  have e : s.teams.map (fun x => if x.id = t then f x else x) = s.teams := by
    refine (List.map_congr_left fun x _ => ?_).trans (List.map_id _)
    rw [same, ite_self, id]
  simp only [State.modTeam, e]

/-- Lanes of a group outside an expansion are vacated and their items counted as killed. -/
theorem State.killLanes_of {s : State} {r : SRef} {tm : Team} {g : Group} (ft : s.team? r.team = some tm)
    (fg : tm.group? r.grp = some g) (plain : g.xp = none) (lanes : Word) (fetch : Bool) :
    s.killLanes r lanes fetch = if lanes &&& g.occ = 0 then s
      else (s.countItems tm.launch .killed (g.itemsOf (lanes &&& g.occ))).modGroup r.team r.grp fun g' =>
        g'.vacate s.now (lanes &&& g.occ) (tm.refillPc s) (some r.split) := by
  have iter : ∀ l, g.iterOf l = none := fun l => by simp [Group.iterOf, plain]
  have owner : ∀ l, g.ownerOf l = none := fun l => by simp [Group.ownerOf, plain]
  have out : (maskBy fun l => lanes.getLsbD l && g.occ.getLsbD l && (fetch || true)) = lanes &&& g.occ := by
    rw [← maskBy_getLsbD (lanes &&& g.occ)]
    exact congrArg maskBy (funext fun l => by simp)
  unfold State.killLanes
  rw [ft]
  dsimp only
  rw [fg]
  dsimp only
  simp only [iter, owner, List.filterMap_none, List.foldl_nil, Option.isNone_none]
  rw [out, State.modTeam_same s r.team fun _ => rfl]

theorem Group.vacate_grp (g : Group) (now : Nat) (lanes : Word) (refill : DWord) (sp : Option Nat) :
    (g.vacate now lanes refill sp).grp = g.grp := (g.splitsMove_vacate now lanes refill sp).grp

/-- Every team of the launch is killed, after the launch's own end is noted. -/
theorem State.ends_killLaunch (s : State) (lid : Nat) :
    (s.modLaunch lid fun x => { x with killing := true, suspended := false, reports := [], held := [] }).Ends (fun _ => True)
      (s.killLaunch lid) := by
  exact State.ends_killTeams _ (s.modLaunch lid fun x => { x with killing := true, suspended := false, reports := [], held := [] })
    fun _ _ _ _ => trivial

theorem State.Bears.kself {r : SRef} {k seq : Nat} {frec : List DWord} {s : State} (b : s.Bears r k seq frec) {u : Team} {g : Group}
    (ft : s.team? r.team = some u) (fg : u.group? r.grp = some g) (plain : g.xp = none) (tm : Team) (lv : Nat) (lanes : Word)
    (fetch : Bool) : (s.kself tm lv r lanes fetch).Bears r k seq frec := by
  unfold State.kself
  split
  · rw [State.killLanes_of ft fg plain]
    split
    · exact b
    · exact (b.ends (s.ends_countItems (P := fun _ => True) trivial _)).modGroup _ _ (fun g => g.vacate_grp ..)
        fun g => (g.splitsMove_vacate ..).frec
  · split
    · exact b.ends (s.ends_killGroup (P := fun _ => True) _ _ fun _ _ => trivial)
    · split
      · exact b.ends (s.ends_killTeam (P := fun _ => True) _ fun _ _ => trivial)
      · split
        · exact b.ends (State.ends_killTeams (P := fun _ => True) _ s fun _ _ _ _ => trivial)
        · exact (b.modLaunch tm.launch (f := fun x => { x with killing := true, suspended := false, reports := [], held := [] })
            (fun _ => rfl) fun _ => rfl).ends (s.ends_killLaunch tm.launch)

/-- Every group of the teams of a killed launch that had not retired has retired. -/
theorem State.killLaunch_live {s : State} {lid t gi : Nat} {tm : Team} {g : Group} (ft : s.team? t = some tm)
    (fg : tm.group? gi = some g) (mine : tm.launch = lid) (st : tm.st ≠ .retired) :
    ∃ g', (s.killLaunch lid).group? t gi = some g' ∧ g'.live = false := by
  obtain rfl := State.team?_id ft
  have member : tm ∈ s.teams.filter fun t => t.launch = lid ∧ t.st ≠ .retired :=
    List.mem_filter.2 ⟨List.mem_of_find?_eq_some ft, by simp [mine, st]⟩
  refine foldl_reaches (f := fun (s : State) (t : Team) => s.killTeam t.id) (Q := fun s => ∃ g, s.group? tm.id gi = some g)
    (P := fun s => ∃ g, s.group? tm.id gi = some g ∧ g.live = false) ?_ ?_ ?_ _ _ member ⟨g, ?_⟩
  · rintro s u ⟨g, found⟩
    obtain ⟨g', fg', -⟩ := (s.ends_killTeam (P := fun _ => True) u.id fun _ _ => trivial).group_of found
    exact ⟨g', fg'⟩
  · rintro s ⟨g, found⟩
    exact State.killTeam_live found
  · rintro s u ⟨g, found, dead⟩
    obtain ⟨g', fg', r⟩ := (s.ends_killTeam (P := fun _ => True) u.id fun _ _ => trivial).group_of found
    exact ⟨g', fg', r.live dead⟩
  · rw [State.group?, State.team?_modLaunch, ft, Option.bind_some, fg]

/-! ## The state in which containment acts -/

/-- The group of a fault as containment finds it. -/
def Group.recorded (g : Group) (frec : List DWord) (i : Nat) : Group := { g with frec := frec }.landSplits [i]

theorem Group.recorded_splitsMove (g : Group) (frec : List DWord) (i : Nat) : { g with frec := frec }.SplitsMove (g.recorded frec i) :=
  Group.splitsMove_landSplits ..

theorem Group.recorded_split? (g : Group) (frec : List DWord) (i k : Nat) : (g.recorded frec i).split? k = g.split? k := by
  unfold Group.split? Group.recorded
  rw [Group.landSplits_splits]

theorem State.modSplit_group? (s : State) (r : SRef) (f : Split → Split) :
    (s.modSplit r f).group? r.team r.grp = (s.group? r.team r.grp).map (·.modSplit r.split f) :=
  (State.group?_modGroup s r.team r.grp r.team r.grp (·.modSplit r.split f) fun _ => rfl).trans (if_pos rfl)

theorem State.modSplit_team? (s : State) (r : SRef) (f : Split → Split) :
    (s.modSplit r f).team? r.team = (s.team? r.team).map (·.modGroup r.grp (·.modSplit r.split f)) :=
  (State.team?_modGroup s r.team r.grp r.team _).trans (if_pos rfl)

theorem State.modSplit_launch? (s : State) (r : SRef) (f : Split → Split) (k : Nat) : (s.modSplit r f).launch? k = s.launch? k := rfl

section
variable {s : State} {r : SRef} {tm : Team} {g : Group} {l : Launch} (seq : Nat) (frec : List DWord)
  (ft : s.team? r.team = some tm) (fg : tm.group? r.grp = some g) (fl : s.launch? l.id = some l)

include ft fg in
theorem State.recorded_group? : (s.recorded r l.id seq frec).group? r.team r.grp = some (g.recorded frec r.split) := by
  have first : (s.modLaunch l.id fun l => { l with seq := seq }).group? r.team r.grp = some g := State.group?_of ft fg
  exact State.group?_modGroup_self (State.group?_modGroup_self first fun _ => rfl) fun g => (g.splitsMove_landSplits _).grp

include fl in
theorem State.recorded_launch? : (s.recorded r l.id seq frec).launch? l.id = some { l with seq := seq } := by
  unfold State.recorded
  exact State.launch?_modLaunch_self (f := fun l => { l with seq := seq }) fl fun _ => rfl

include ft in
/-- Its team keeps its status. -/
theorem State.recorded_team? :
    ∃ u, (s.recorded r l.id seq frec).team? r.team = some u ∧ u.st = tm.st ∧ u.launch = tm.launch := by
  unfold State.recorded
  rw [State.team?_modGroup, if_pos rfl, State.team?_modGroup, if_pos rfl, State.team?_modLaunch, ft]
  exact ⟨_, rfl, rfl, rfl⟩

include ft fg fl in
theorem State.recorded_bears : (s.recorded r l.id seq frec).Bears r l.id seq frec :=
  ⟨⟨_, State.recorded_group? seq frec ft fg, (g.recorded_splitsMove frec r.split).frec⟩, ⟨_, State.recorded_launch? seq frec fl, rfl⟩⟩

end

/-- The group of a split that awaits an answer, delivered with a message. -/
theorem State.await_group? {s : State} {r : SRef} {g : Group} (found : s.group? r.team r.grp = some g) (m : HostMsg) (lid : Nat)
    (p : Report) :
    ((s.tell m).await r lid p).group? r.team r.grp = some (g.modSplit r.split fun x => { x with hold := .fault p.seq }) :=
  (State.modSplit_group? _ r _).trans (congrArg _ found)

theorem State.await_launch? {s : State} {k : Nat} {l : Launch} (found : s.launch? k = some l) (m : HostMsg) (r : SRef) (p : Report) :
    ((s.tell m).await r k p).launch? k = some { l with reports := l.reports ++ [p] } :=
  State.launch?_modLaunch_self (s := s.tell m) (f := fun l => { l with reports := l.reports ++ [p] }) found fun _ => rfl

theorem Group.modSplit_split? {g : Group} {i : Nat} {x : Split} (found : g.split? i = some x) {f : Split → Split}
    (id : ∀ x, (f x).id = x.id) : (g.modSplit i f).split? i = some (f x) := by
  rw [Group.split?_modSplit g i i f id, if_pos rfl, found, Option.map_some]

/-! ## The actions (R40) -/

section
variable {s : State} {r : SRef} {f : FInfo} {tm : Team} {g : Group} {l : Launch} {eng : Option EFault}
  (ft : s.team? r.team = some tm) (fg : tm.group? r.grp = some g) (fl : s.launch? l.id = some l)
  (own : tm.launch = l.id)
include ft fg fl

/-- The state after a logged fault's entry. -/
theorem State.logged :
    let t := (s.recorded r l.id (l.seq + 1) (recordFor tm g f l)).logFault l.id (entryFor tm g f l)
    (∃ u, t.team? r.team = some u ∧ u.group? r.grp = some (g.recorded (recordFor tm g f l) r.split) ∧ u.st = tm.st ∧
        u.launch = tm.launch) ∧
      t.launch? l.id = some { l with seq := l.seq + 1, nfault := l.nfault + 1 } ∧ t.now = s.now ∧
      (∃ r, t.hostOut = s.hostOut ++ r ∧ ∀ m ∈ r, ∃ w ∈ s.memBad, m = .eccLeft w) ∧
      t.Bears r l.id (l.seq + 1) (recordFor tm g f l) := by
  have found := State.recorded_launch? (r := r) (l.seq + 1) (recordFor tm g f l) fl
  obtain ⟨teams, now, launch, told, -⟩ := State.logFault_found found (entryFor tm g f l)
  obtain ⟨u, fu, st, mine⟩ := State.recorded_team? (l := l) (l.seq + 1) (recordFor tm g f l) ft
  have group := State.recorded_group? (l := l) (l.seq + 1) (recordFor tm g f l) ft fg
  rw [State.group?, fu, Option.bind_some] at group
  refine ⟨⟨u, ?_, group, st, mine⟩, launch, now, told,
    (State.recorded_bears (l.seq + 1) (recordFor tm g f l) ft fg fl).logFault _ _⟩
  unfold State.team? at fu ⊢
  rw [teams, fu]

include own

/-- Containment writes the record and counts, whatever the action. -/
theorem State.contain_bears (plain : g.xp = none) : (s.contain r f eng).1.Bears r l.id (l.seq + 1) (recordFor tm g f l) := by
  have first := State.recorded_bears (l.seq + 1) (recordFor tm g f l) ft fg fl
  obtain ⟨⟨u, fu, fgu, -⟩, -, -, -, logged⟩ := State.logged (f := f) ft fg fl
  rw [State.contain_of eng ft fg (own ▸ fl)]
  split
  · exact ((logged.tell _).await ..).suspend ..
  · exact (first.tell _).await ..
  · exact logged
  · exact first
  · refine ((logged.modSplit r _).kself (u := u.modGroup r.grp (·.modSplit r.split fun x => { x with hold := .fault (l.seq + 1) }))
      (g := (g.recorded (recordFor tm g f l) r.split).modSplit r.split fun x => { x with hold := .fault (l.seq + 1) }) ?_ ?_ ?_
      tm _ f.lanes f.fetch).modSplit r _
    · rw [State.modSplit_team?, fu, Option.map_some]
    · exact Team.group?_modGroup_self fgu fun _ => rfl
    · exact (g.recorded_splitsMove (recordFor tm g f l) r.split).xp.trans plain

/-- IGN logs the fault and lets the split be. -/
theorem State.contain_ign {lv : Nat} (act : absorb l.desc.policy f = some (lv, .ign)) :
    let t := (s.contain r f eng).1
    (s.contain r f eng).2 = .ign lv ∧ t.launch? l.id = some { l with seq := l.seq + 1, nfault := l.nfault + 1 } ∧
      t.group? r.team r.grp = some (g.recorded (recordFor tm g f l) r.split) ∧ t.now = s.now ∧
      ∃ r, t.hostOut = s.hostOut ++ r ∧ ∀ m ∈ r, ∃ w ∈ s.memBad, m = .eccLeft w := by
  obtain ⟨⟨u, fu, fgu, -⟩, launch, now, told, -⟩ := State.logged (f := f) ft fg fl
  rw [State.contain_of eng ft fg (own ▸ fl), act]
  exact ⟨rfl, launch, State.group?_of fu fgu, now, told⟩

/-- RETRY delivers the entry and holds the split until an answer. -/
theorem State.contain_retry {lv : Nat} (act : absorb l.desc.policy f = some (lv, .retry)) :
    let t := (s.contain r f eng).1
    (s.contain r f eng).2 = .held (lv != 0) ∧
      t.launch? l.id = some { l with seq := l.seq + 1, reports := l.reports ++ [reportFor r g f l eng] } ∧
      t.group? r.team r.grp = some ((g.recorded (recordFor tm g f l) r.split).modSplit r.split
        fun x => { x with hold := .fault (l.seq + 1) }) ∧
      .delivered l.id (l.seq + 1) (entryFor tm g f l) ∈ t.hostOut := by
  rw [State.contain_of eng ft fg (own ▸ fl), act]
  have launch := State.recorded_launch? (r := r) (l.seq + 1) (recordFor tm g f l) fl
  have group := State.recorded_group? (l := l) (l.seq + 1) (recordFor tm g f l) ft fg
  exact ⟨rfl, State.await_launch? launch _ r _, State.await_group? group ..,
    List.mem_append_right _ (List.mem_singleton.2 rfl)⟩

/-- What leaves the grid is logged and delivered; the split is held and the launch suspended, its teams asked to stop. -/
theorem State.contain_leaves (act : absorb l.desc.policy f = none) :
    let t := (s.contain r f eng).1
    (s.contain r f eng).2 = .held (f.level != 0) ∧
      t.launch? l.id = some { l with
        seq := l.seq + 1, nfault := l.nfault + 1, reports := l.reports ++ [reportFor r g f l eng], suspended := true, held := [] } ∧
      t.group? r.team r.grp = some ((g.recorded (recordFor tm g f l) r.split).modSplit r.split
        fun x => { x with hold := .fault (l.seq + 1) }) ∧
      .suspended l.id (l.seq + 1) ∈ t.hostOut ∧
      ∀ y ∈ t.teams, y.launch = l.id → y.st ≠ .running ∧ ∀ n, y.st = .notice n → y.why = some .grid := by
  obtain ⟨⟨u, fu, fgu, -⟩, launch, -⟩ := State.logged (f := f) ft fg fl
  rw [State.contain_of eng ft fg (own ▸ fl), act]
  refine ⟨rfl, ?_, ?_, List.mem_append_right _ (List.mem_singleton.2 rfl), State.suspend_stops _ _ _⟩
  · rw [State.suspend_launch?, if_pos rfl]
    exact congrArg _ (State.await_launch? launch _ r _)
  · rw [State.suspend_group?]
    exact State.await_group? (State.group?_of fu fgu) ..

/-- KSELF acts on the logged state, with the split standing still. -/
theorem State.contain_kself {lv : Nat} (act : absorb l.desc.policy f = some (lv, .kself)) :
    ∃ (u : State) (v : Team) (g1 : Group) (back : Split → Split), (s.contain r f eng).2 = .killed ∧
      (s.contain r f eng).1 = (u.kself tm lv r f.lanes f.fetch).modSplit r back ∧
      u.team? r.team = some v ∧ v.group? r.grp = some g1 ∧ v.st = tm.st ∧ v.launch = l.id ∧
      { g with frec := recordFor tm g f l }.SplitsMove g1 ∧
      u.launch? l.id = some { l with seq := l.seq + 1, nfault := l.nfault + 1 } := by
  obtain ⟨⟨u, fu, fgu, st, mine⟩, launch, -⟩ := State.logged (f := f) ft fg fl
  rw [State.contain_of eng ft fg (own ▸ fl), act]
  refine ⟨_, u.modGroup r.grp (·.modSplit r.split fun x => { x with hold := .fault (l.seq + 1) }), _, _, rfl, rfl, ?_,
    Team.group?_modGroup_self fgu fun _ => rfl, st, mine.trans own,
    (g.recorded_splitsMove (recordFor tm g f l) r.split).trans (Group.splitsMove_modSplit ..), launch⟩
  rw [State.modSplit_team?, fu, Option.map_some]

/-- KSELF at item level vacates the faulting lanes and counts their items. -/
theorem State.contain_killsItems (plain : g.xp = none) (act : absorb l.desc.policy f = some (0, .kself)) :
    (s.contain r f eng).2 = .killed ∧ ∃ g' l', (s.contain r f eng).1.group? r.team r.grp = some g' ∧
      (s.contain r f eng).1.launch? l.id = some l' ∧ l'.nfault = l.nfault + 1 ∧
      l'.killed = l.killed + popCount (f.lanes &&& g.occ) ∧ g'.live = g.live ∧ g'.occ = g.occ &&& ~~~f.lanes := by
  obtain ⟨u, v, g1, back, dead, e, fv, fg1, -, mine, moved, launch⟩ := State.contain_kself (eng := eng) ft fg fl own act
  have others : g.occ &&& ~~~(f.lanes &&& g.occ) = g.occ &&& ~~~f.lanes := by
    refine BitVec.eq_of_getLsbD_eq fun i hi => ?_
    simp only [BitVec.getLsbD_and, BitVec.getLsbD_not, hi, decide_true, Bool.true_and, Bool.not_and]
    cases g.occ.getLsbD i <;> simp
  refine ⟨dead, ?_⟩
  rw [e, State.modSplit_launch?, State.modSplit_group?]
  simp only [State.kself, if_pos, State.killLanes_of fv fg1 (moved.xp.trans plain), moved.occ]
  split
  case isTrue none =>
    refine ⟨_, _, congrArg _ (State.group?_of fv fg1), launch, rfl, ?_, moved.live, ?_⟩
    · rw [none]; rfl
    · refine moved.occ.trans ?_
      rw [← others, none, show ~~~(0 : Word) = BitVec.allOnes 32 from rfl, BitVec.and_allOnes]
  case isFalse =>
    have counted : (u.countItems v.launch .killed (g1.itemsOf (f.lanes &&& g.occ))).group? r.team r.grp = some g1 := by
      rw [State.group?, State.countItems_team?]
      exact State.group?_of fv fg1
    refine ⟨_, { l with seq := l.seq + 1, nfault := l.nfault + 1 }.tally u.now .killed (g1.itemsOf (f.lanes &&& g.occ)),
      congrArg _ (State.group?_modGroup_self counted fun g => g.vacate_grp ..), ?_, rfl, ?_, ?_, ?_⟩
    · rw [State.launch?_modGroup, State.countItems_launch?, if_pos mine.symm, launch, Option.map_some]
    · exact congrArg (l.killed + ·) (g1.itemsOf_length _)
    · exact (g1.splitsMove_vacate ..).live.trans moved.live
    · exact (g1.splitsMove_vacate ..).occ.trans ((congrArg (· &&& _) moved.occ).trans others)

/-- KSELF at group level retires the group. -/
theorem State.contain_killsGroup (act : absorb l.desc.policy f = some (1, .kself)) (live : g.live = true) :
    (s.contain r f eng).2 = .killed ∧ ∃ g' l', (s.contain r f eng).1.group? r.team r.grp = some g' ∧
      (s.contain r f eng).1.launch? l.id = some l' ∧ g'.live = false ∧ g'.occ = 0 ∧ l.killed + popCount g.occ ≤ l'.killed := by
  obtain ⟨u, v, g1, back, dead, e, fv, fg1, -, mine, moved, launch⟩ := State.contain_kself (eng := eng) ft fg fl own act
  have counted : (u.countItems v.launch .killed (g1.itemsOf g1.occ)).group? r.team r.grp = some g1 := by
    rw [State.group?, State.countItems_team?]
    exact State.group?_of fv fg1
  obtain ⟨g2, fg2, gone, empty, -⟩ := State.retireGroup_group counted
  have tallied : (u.countItems v.launch .killed (g1.itemsOf g1.occ)).launch? l.id =
      some ({ l with seq := l.seq + 1, nfault := l.nfault + 1 }.tally u.now .killed (g1.itemsOf g1.occ)) := by
    rw [State.countItems_launch?, if_pos mine.symm, launch, Option.map_some]
  obtain ⟨l', fl', more, -⟩ := (State.ends_retireGroup (P := fun _ => True) _ r.team r.grp fun _ _ => trivial).launch_of tallied
  have killed : l.killed + popCount g.occ ≤ l'.killed := by
    refine le_trans (le_of_eq ?_) more.killed
    rw [← moved.occ]
    exact congrArg (l.killed + ·) (g1.itemsOf_length g1.occ).symm
  refine ⟨dead, g2.modSplit r.split back, l', ?_, ?_, gone, empty, killed⟩
  · rw [e, State.modSplit_group?, State.kself, if_neg (by decide), if_pos rfl, State.team?_id ft,
      State.killGroup_of fv fg1 (moved.live.trans live), fg2, Option.map_some]
  · rw [e, State.modSplit_launch?, State.kself, if_neg (by decide), if_pos rfl, State.team?_id ft,
      State.killGroup_of fv fg1 (moved.live.trans live), fl']

/-- KSELF at grid level kills the launch. -/
theorem State.contain_killsLaunch (act : absorb l.desc.policy f = some (4, .kself)) (st : tm.st ≠ .retired) :
    (s.contain r f eng).2 = .killed ∧ ∃ g' l', (s.contain r f eng).1.group? r.team r.grp = some g' ∧
      (s.contain r f eng).1.launch? l.id = some l' ∧ g'.live = false ∧ l'.killing = true := by
  obtain ⟨u, v, g1, back, dead, e, fv, fg1, same, mine, moved, launch⟩ := State.contain_kself (eng := eng) ft fg fl own act
  obtain ⟨g2, fg2, gone⟩ := State.killLaunch_live fv fg1 mine (same ▸ st)
  have noted := State.launch?_modLaunch_self (f := fun x => { x with killing := true, suspended := false, reports := [], held := [] })
    launch fun _ => rfl
  obtain ⟨l', fl', more, -⟩ := (u.ends_killLaunch l.id).launch_of noted
  refine ⟨dead, g2.modSplit r.split back, l', ?_, ?_, gone, by rw [more.frame]⟩
  · rw [e, State.modSplit_group?, show u.kself tm 4 r f.lanes f.fetch = u.killLaunch tm.launch from rfl, own, fg2, Option.map_some]
  · rw [e, State.modSplit_launch?, show u.kself tm 4 r f.lanes f.fetch = u.killLaunch tm.launch from rfl, own, fl']

end

/-! ## A fault of the instruction under IGN (Table 3.5) -/

/-- A group-level fault of the issuing instruction. -/
def Iss.groupInfo (x : Iss) (c : Cause) (ad : DWord) : FInfo :=
  { cause := c, level := max 1 c.level, lanes := 0, addr := ad, detail := 0, pages := [], pc := x.sp.pc, split := x.sp.mask
    eng := false, fetch := false }

theorem Iss.groupFault_ign {x : Iss} {s : State} {l : Launch} (place : x.inPlace s) (fl : x.launch s = some l) (h : Hdr) (c : Cause)
    (ad : DWord) {lv : Nat} (below : ∀ k, max 1 c.level ≤ k → k < lv → l.desc.policy.getD k .kparent = .kparent)
    (from_ : max 1 c.level ≤ lv) (inside : lv < 5) (ign : l.desc.policy.getD lv .kparent = .ign) :
    ∃ t, x.groupFault h c ad s = x.pass h false t ∧ t.now = s.now ∧
      ∃ r, t.hostOut = s.hostOut ++ r ∧ ∀ m ∈ r, ∃ w ∈ s.memBad, m = .eccLeft w := by
  obtain ⟨-, ft, -, fg, -⟩ := State.at?_eq place
  have own := (State.launch?_id fl).symm
  have act : absorb l.desc.policy (x.groupInfo c ad) = some (lv, .ign) :=
    absorb_eq_some.2 ⟨from_, inside, ign, by unfold PassesUp; rw [ign]; simp [Iss.groupInfo], fun k hk lt => .inl (below k hk lt)⟩
  obtain ⟨d, -, -, now, told⟩ := State.contain_ign (eng := none) ft fg (own ▸ fl) own act
  refine ⟨(s.contain x.r (x.groupInfo c ad)).1, ?_, now, told⟩
  change (match s.contain x.r (x.groupInfo c ad) with
    | (s, .ign _) => x.pass h false s
    | (s, _) => s) = _
  rw [show s.contain x.r (x.groupInfo c ad) = ((s.contain x.r (x.groupInfo c ad)).1, .ign lv) from Prod.ext rfl d]

/-! ## Faults of fetch and decode (05 R47, R49, 09 R100) -/

/-- Every fault of a fetch has no decoded instruction, and the split's PC. -/
theorem State.fetchBytes_error {s : State} {x : Iss} {a n : Nat} {f : FInfo} (e : s.fetchBytes x a n = .error f) :
    f.fetch = true ∧ f.pc = x.sp.pc := by
  unfold State.fetchBytes at e
  split at e
  · cases e; exact ⟨rfl, rfl⟩
  · split at e
    · cases e; exact ⟨rfl, rfl⟩
    · cases e

theorem State.instrBytes_error {s : State} {x : Iss} {a : Nat} {f : FInfo} (e : s.instrBytes x a = .error f) :
    f.fetch = true ∧ f.pc = x.sp.pc := by
  unfold State.instrBytes at e
  split at e
  case h_1 e' => cases e; exact State.fetchBytes_error e'
  case h_2 =>
    dsimp only at e
    split at e
    · cases e
    · exact State.fetchBytes_error e

theorem State.fetch_fault {s : State} {x : Iss} {f : FInfo} (e : s.fetch x = .fault f) : f.fetch = true ∧ f.pc = x.sp.pc := by
  unfold State.fetch at e
  dsimp only at e
  split at e
  · cases e; exact ⟨rfl, rfl⟩
  · split at e
    · cases e; exact ⟨rfl, rfl⟩
    · split at e
      case h_1 e' => cases e; exact State.instrBytes_error e'
      case h_2 =>
        split at e
        · split at e
          · cases e; exact ⟨rfl, rfl⟩
          · cases e
        · cases e

/-- A step whose choice is a split that can issue runs its instruction. -/
theorem step_issue {s : State} {r : SRef} {rest : List Choice} {x : Iss} (agenda : s.agenda = .issue r :: rest)
    (found : { s with agenda := rest }.at? r = some x) (can : { s with agenda := rest }.canIssue x = true)
    (chosen : { s with agenda := rest }.chosen x = true) : step s = later 1 (issueNow x { s with agenda := rest }) := by
  unfold step runStep
  rw [agenda]
  dsimp only [runChoice]
  congr 1
  unfold issueStep
  rw [found]
  dsimp only
  rw [can, chosen]
  rfl

/-- Settles O56: the level is the lowest whose policy takes the fault (`absorb_eq_some`); what every action leaves is
`State.contain_bears`, and each action is one lemma of its own. -/
theorem faultsAreRecordedThenContained : Obligations.FaultsAreRecordedThenContained := by
  refine ⟨fun pol f => ⟨fun lv a => absorb_eq_some, absorb_eq_none⟩, ?_, ?_, ?_⟩
  · intro s r f tm g x l ft fg fx fl plain
    have own := (State.launch?_id fl).symm
    rw [own] at fl ⊢
    obtain ⟨⟨g', fg', record⟩, ⟨l', fl', seq⟩⟩ := State.contain_bears (eng := none) (f := f) ft fg fl own plain
    obtain ⟨frec0, length, pc, split, addr, place⟩ := recordFor_fields tm g f l
    have stands : (g.recorded (recordFor tm g f l) r.split).split? r.split = some x := (g.recorded_split? ..).trans fx
    refine ⟨g', l', fg', fl', seq, record ▸ frec0, record ▸ length, record ▸ pc, record ▸ split, record ▸ addr,
      record ▸ place, fun lv act => ?_, fun lv act => ?_, fun act => ?_, fun act => ?_, fun act live => ?_, fun act st => ?_⟩
    · obtain ⟨d, launch, group, -⟩ := State.contain_ign (eng := none) ft fg fl own act
      obtain rfl := Option.some.inj (fl'.symm.trans launch)
      obtain rfl := Option.some.inj (fg'.symm.trans group)
      exact ⟨d, rfl, rfl, rfl, x, stands, rfl⟩
    · obtain ⟨d, launch, group, told⟩ := State.contain_retry (eng := none) ft fg fl own act
      obtain rfl := Option.some.inj (fl'.symm.trans launch)
      obtain rfl := Option.some.inj (fg'.symm.trans group)
      refine ⟨d, rfl, rfl, rfl, ?_, ⟨_, Group.modSplit_split? stands fun _ => rfl, rfl⟩, _, rfl, rfl, rfl, rfl, rfl, ?_⟩
      · rw [record]; exact told
      · simp [reportFor, act]
    · obtain ⟨d, launch, group, told, stopped⟩ := State.contain_leaves (eng := none) ft fg fl own act
      obtain rfl := Option.some.inj (fl'.symm.trans launch)
      obtain rfl := Option.some.inj (fg'.symm.trans group)
      refine ⟨d, rfl, rfl, told, ⟨_, Group.modSplit_split? stands fun _ => rfl, rfl⟩, ⟨_, rfl, rfl, rfl, ?_⟩, stopped⟩
      simp [reportFor, act]
    · obtain ⟨d, g2, l2, group, launch, nfault, killed, live, occ⟩ := State.contain_killsItems (eng := none) ft fg fl own plain act
      obtain rfl := Option.some.inj (fl'.symm.trans launch)
      obtain rfl := Option.some.inj (fg'.symm.trans group)
      exact ⟨d, nfault, killed, fun _ => ⟨live, occ⟩⟩
    · obtain ⟨d, g2, l2, group, launch, gone, empty, killed⟩ := State.contain_killsGroup (eng := none) ft fg fl own act live
      obtain rfl := Option.some.inj (fl'.symm.trans launch)
      obtain rfl := Option.some.inj (fg'.symm.trans group)
      exact ⟨d, gone, empty, killed⟩
    · obtain ⟨d, g2, l2, group, launch, gone, killing⟩ := State.contain_killsLaunch (eng := none) ft fg fl own act st
      obtain rfl := Option.some.inj (fl'.symm.trans launch)
      obtain rfl := Option.some.inj (fg'.symm.trans group)
      exact ⟨d, killing, gone⟩
  · intro x h c ad s l lv place fl below from_ inside ign
    exact x.groupFault_ign place fl h c ad below from_ inside ign
  · intro s r rest x s0 agenda found can chosen
    have run := step_issue agenda found can chosen
    refine ⟨fun bad => by rw [State.fetch, if_pos bad], fun ok odd => ?_, fun f fault => ?_, fun bs word plain => ?_⟩
    · rw [State.fetch]
      simp [ok, odd]
    · obtain ⟨fetch, pc⟩ := State.fetch_fault fault
      refine ⟨fetch, pc, ?_⟩
      obtain ⟨same, -⟩ := State.at?_eq found
      rw [run, issueNow, fault, ← same]
      rfl
    · obtain ⟨same, -⟩ := State.at?_eq found
      refine ⟨fun bad => ⟨_, rfl, ?_⟩, fun bad => ⟨_, rfl, ?_⟩⟩
      · rw [run, issueNow, word]
        dsimp only
        rw [bad, same]
        simp only [Iss.takeDecodeFault, plain]
        rfl
      · rw [run, issueNow, word]
        dsimp only
        rw [bad, same]
        simp only [Iss.takeDecodeFault, plain]
        rfl

end Sys2Proof.Machine
end

section
/-! PROOFS. Which bytes a write by the device changes, and what it does not look at (12 R166, 26 R332): a byte outside the
places that the write stores stays, and launches have no part in it. -/

namespace Sys2Proof.Machine

/-! ## One line -/

/-- What a line gives for a byte that lies behind it. -/
def Line.cover (l : Line) (i : Nat) (b : Byte) : Byte := if l.valid.getLsbD i then l.byte i else b

/-- A line without a valid byte is as good as none. -/
theorem Line.cover_set (l : Line) (i : Nat) (b : Byte) : Line.cover (if l.valid = 0 then Line.none else l) i b = l.cover i b := by
  by_cases empty : l.valid = 0
  · rw [if_pos empty]
    simp [Line.cover, empty, Line.none]
  · rw [if_neg empty]

/-- Bytes merged beside a byte leave it. -/
theorem Line.cover_merge {l : Line} {m : BitVec 64} {i : Nat} (inside : i < 64) (beside : m.getLsbD i = false) (d : BitVec 512)
    (dirty : Bool) (b : Byte) : (l.merge m d dirty).cover i b = l.cover i b := by
  unfold Line.cover
  rw [Line.merge_valid, BitVec.getLsbD_or, beside, Bool.or_false, Line.byte_merge _ _ _ _ _ inside, beside]
  rfl

theorem State.homeByte_of {s t : State} (mem : t.mem = s.mem) (dies : t.dies = s.dies) (pa : Nat) : t.homeByte pa = s.homeByte pa := by
  unfold State.homeByte State.die
  rw [mem, dies]

/-- What ends teams and groups leaves memory. -/
theorem State.Ends.homeByte {P : Nat → Prop} {s t : State} (e : s.Ends P t) (pa : Nat) : t.homeByte pa = s.homeByte pa :=
  State.homeByte_of (by rw [e.frame]) (by rw [e.frame]) pa

/-- A write of a line at its home changes bytes under its mask alone. -/
theorem State.homeByte_homeLine {s : State} {k : Nat} {m : BitVec 64} {d : BitVec 512} {pa : Nat}
    (apart : ¬ (pa / 64 = k ∧ m.getLsbD (pa % 64) = true)) : (s.homeLine k m d).homeByte pa = s.homeByte pa := by
  have memory : (s.memLine k m d).homeByte pa = s.homeByte pa := by
    unfold State.homeByte
    rw [State.memLine_get, if_neg apart]
    rfl
  unfold State.homeLine
  split
  · exact memory
  · split
    · unfold State.homeByte
      split
      · rfl
      · dsimp only
        rw [State.die_modDie]
        split
        case isFalse => rfl
        case isTrue =>
          dsimp only
          rw [lineOf_setLine]
          split
          case isFalse => rfl
          case isTrue same =>
            subst same
            have beside : m.getLsbD (pa % 64) = false := by simpa using apart
            exact (Line.cover_set _ _ _).trans (Line.cover_merge (Nat.mod_lt _ (by decide)) beside d true _)
    · exact memory

/-- The mask of a line of a run of bytes covers bytes of the run alone. -/
theorem lineRuns_mask {pa : Nat} {bs : List Byte} {r : Nat × BitVec 64 × BitVec 512} (m : r ∈ lineRuns pa bs) {a : Nat}
    (line : a / 64 = r.1) (bit : r.2.1.getLsbD (a % 64) = true) : pa ≤ a ∧ a < pa + bs.length := by
  obtain ⟨j, -, rfl⟩ := List.mem_map.1 m
  dsimp only at line bit
  have fold : ∀ (is : List Nat) (z : BitVec 64 × BitVec 512), (is.foldl (fun (z : BitVec 64 × BitVec 512) i =>
      if pa ≤ 64 * (pa / 64 + j) + i ∧ 64 * (pa / 64 + j) + i < pa + bs.length then
        (z.1 ||| (1#64 <<< i), z.2 ||| ((bs.getD (64 * (pa / 64 + j) + i - pa) 0).setWidth 512 <<< (8 * i))) else z) z).1.getLsbD
          (a % 64) = true → z.1.getLsbD (a % 64) = true ∨ pa ≤ a ∧ a < pa + bs.length := by
    intro is
    induction is with
    | nil => exact fun z h => .inl h
    | cons i is ih =>
      intro z h
      rw [List.foldl_cons] at h
      rcases ih _ h with set | inside
      · split at set
        case isTrue here =>
          rw [BitVec.getLsbD_or, Bool.or_eq_true] at set
          rcases set with old | new
          · exact .inl old
          · simp only [BitVec.getLsbD_shiftLeft, BitVec.getLsbD_one, Bool.and_eq_true, decide_eq_true_eq,
              Bool.not_eq_true', decide_eq_false_iff_not] at new
            exact .inr (by omega)
        case isFalse => exact .inl set
      · exact .inr inside
  exact (fold _ _ bit).resolve_left (by simp)

theorem State.homeByte_homeWrite {s : State} {k : Nat} {bs : List Byte} {pa : Nat} (apart : ¬ (k ≤ pa ∧ pa < k + bs.length)) :
    (s.homeWrite k bs).homeByte pa = s.homeByte pa := by
  have fold : ∀ (rs : List (Nat × BitVec 64 × BitVec 512)) (s : State), (∀ r ∈ rs, r ∈ lineRuns k bs) →
      (rs.foldl (fun s r => s.homeLine r.1 r.2.1 r.2.2) s).homeByte pa = s.homeByte pa := by
    intro rs
    induction rs with
    | nil => exact fun _ _ => rfl
    | cons r rs ih =>
      intro s sub
      rw [List.foldl_cons, ih _ fun q m => sub q (List.mem_cons_of_mem _ m)]
      exact State.homeByte_homeLine fun ⟨line, bit⟩ => apart (lineRuns_mask (sub r (List.mem_cons_self ..)) line bit)
  exact fold _ s fun _ m => m

/-! ## A write by the device -/

/-- A byte at which the device stores nothing stays as it was. -/
theorem State.homeByte_devWrite {s : State} {ctx va : Nat} {bs : List Byte} {pa : Nat} (apart : ¬ s.devStores ctx va bs pa) :
    (s.devWrite ctx va bs).homeByte pa = s.homeByte pa := by
  have fold : ∀ (post pre : List (Nat × List Byte)), lineCuts va bs = pre ++ post →
      (post.foldl (fun s c => s.devPut ctx c) (pre.foldl (fun s c => s.devPut ctx c) s)).homeByte pa =
        (pre.foldl (fun s c => s.devPut ctx c) s).homeByte pa := by
    intro post
    induction post with
    | nil => exact fun _ _ => rfl
    | cons c post ih =>
      intro pre cuts
      have next := ih (pre ++ [c]) (by rw [cuts]; simp)
      rw [List.foldl_append, List.foldl_cons, List.foldl_nil] at next
      rw [List.foldl_cons, next]
      unfold State.devPut
      split
      · rfl
      case h_2 k place =>
        exact State.homeByte_homeWrite fun ⟨lo, hi⟩ => apart ⟨pre, c, post, k, cuts, place, lo, hi⟩
  exact fold (lineCuts va bs) [] rfl

/-! ## Launches have no part in it -/

theorem State.homeLine_modLaunch (s : State) (l : Nat) (f : Launch → Launch) (k : Nat) (m : BitVec 64) (d : BitVec 512) :
    (s.modLaunch l f).homeLine k m d = (s.homeLine k m d).modLaunch l f := by
  unfold State.homeLine
  split
  · rfl
  case h_2 x _ =>
    by_cases room : hasRoom dcLines (s.die x).dc k = true
    · rw [if_pos room, if_pos (show hasRoom dcLines ((s.modLaunch l f).die x).dc k = true from room)]
      rfl
    · rw [if_neg room, if_neg (show ¬ hasRoom dcLines ((s.modLaunch l f).die x).dc k = true from room)]
      rfl

theorem State.devPut_modLaunch (s : State) (l : Nat) (f : Launch → Launch) (ctx : Nat) (c : Nat × List Byte) :
    (s.modLaunch l f).devPut ctx c = (s.devPut ctx c).modLaunch l f := by
  have fold : ∀ (rs : List (Nat × BitVec 64 × BitVec 512)) (s : State),
      rs.foldl (fun s r => s.homeLine r.1 r.2.1 r.2.2) (s.modLaunch l f) =
        (rs.foldl (fun s r => s.homeLine r.1 r.2.1 r.2.2) s).modLaunch l f := by
    intro rs
    induction rs with
    | nil => exact fun _ => rfl
    | cons r rs ih =>
      intro s
      rw [List.foldl_cons, State.homeLine_modLaunch, ih]
      rfl
  unfold State.devPut
  rw [show (s.modLaunch l f).devPlace ctx c.1 = s.devPlace ctx c.1 from rfl]
  split
  · rfl
  · exact fold _ s

/-- A write by the device and a change of a launch commute. -/
theorem State.devWrite_modLaunch (s : State) (l : Nat) (f : Launch → Launch) (ctx va : Nat) (bs : List Byte) :
    (s.modLaunch l f).devWrite ctx va bs = (s.devWrite ctx va bs).modLaunch l f := by
  have fold : ∀ (cs : List (Nat × List Byte)) (s : State),
      cs.foldl (fun s c => s.devPut ctx c) (s.modLaunch l f) = (cs.foldl (fun s c => s.devPut ctx c) s).modLaunch l f := by
    intro cs
    induction cs with
    | nil => exact fun _ => rfl
    | cons c cs ih =>
      intro s
      rw [List.foldl_cons, State.devPut_modLaunch, ih]
      rfl
  exact fold _ s

end Sys2Proof.Machine
end

section
/-! PROOFS. What a team's retirement counts (03 R19, R31): the blocks it holds, as they stand before anything is counted. -/

namespace Sys2Proof.Machine

/-! ## What counting does not change -/

/-- Two states have the same feeds: what has been appended to their queues, and whether they are closed. -/
def State.SameFeeds (s t : State) : Prop :=
  ∀ q, (t.queue q).appended = (s.queue q).appended ∧ (t.queue q).closed = (s.queue q).closed

theorem State.sameFeeds_of {s t : State} (e : t.queues = s.queues) : s.SameFeeds t := by
  intro q
  unfold State.queue
  rw [e]
  exact ⟨rfl, rfl⟩

theorem State.SameFeeds.trans {a b c : State} (ab : a.SameFeeds b) (bc : b.SameFeeds c) : a.SameFeeds c :=
  fun q => ⟨(bc q).1.trans (ab q).1, (bc q).2.trans (ab q).2⟩

/-- Counting frees slots of a ring; nothing is appended. -/
theorem State.sameFeeds_countItems (s : State) (lid : Nat) (e : Ending) (items : List Nat) :
    s.SameFeeds (s.countItems lid e items) := by
  unfold State.countItems
  split
  · exact State.sameFeeds_of rfl
  · dsimp only
    split
    · intro q
      rw [State.queue_modQueue]
      split
      · exact ⟨rfl, rfl⟩
      · exact ⟨rfl, rfl⟩
    · exact State.sameFeeds_of rfl

section
variable {s t : State} {l l' : Launch} (feeds : s.SameFeeds t) (desc : l'.desc = l.desc) (fed : l'.fedEnd = l.fedEnd)
include feeds desc fed

theorem State.SameFeeds.feed : t.feed l' = s.feed l := by
  obtain ⟨appended, closed⟩ := feeds l.desc.qnum
  unfold State.feed
  rw [desc, fed, appended, closed]

theorem State.SameFeeds.blkHi (j : Nat) : t.blkHi l' j = s.blkHi l j := by
  unfold State.blkHi State.itemCount Launch.blkLo
  rw [feeds.feed desc fed, desc]

theorem State.SameFeeds.exhausted (b : Held) : t.exhausted l' b = s.exhausted l b := by
  unfold State.exhausted
  rw [feeds.blkHi desc fed, feeds.feed desc fed]
  unfold Launch.blkLo
  rw [desc]

theorem State.SameFeeds.undispensed (o : Option Held) : t.undispensed l' o = s.undispensed l o := by
  cases o with
  | none => rfl
  | some b => simp only [State.undispensed, feeds.blkHi desc fed]

end

/-! ## The change of blocks (R19) -/

theorem Team.ask_frame (t : Team) (now : Nat) (b : Bool) :
    t.ask now b = { t with wantBlk := (t.ask now b).wantBlk, asked := (t.ask now b).asked } := by
  unfold Team.ask
  split <;> rfl

/-- The current block is exhausted, or there is none. -/
def State.spentBlock (s : State) (l : Launch) (t : Team) : Bool := (t.cur.map (s.exhausted l)).getD true

theorem State.shift_cur (s : State) (l : Launch) (t : Team) : (s.shift l t).cur = if s.spentBlock l t then t.nxt else t.cur := by
  unfold State.shift State.spentBlock
  split
  · rw [Team.ask_frame]
  · rfl

theorem State.shift_nxt (s : State) (l : Launch) (t : Team) : (s.shift l t).nxt = if s.spentBlock l t then none else t.nxt := by
  unfold State.shift State.spentBlock
  split
  · rw [Team.ask_frame]
  · rfl

/-- The blocks of a team after the change, in a state with the same feeds. -/
theorem State.SameFeeds.shift {s t : State} {l l' : Launch} (feeds : s.SameFeeds t) (desc : l'.desc = l.desc)
    (fed : l'.fedEnd = l.fedEnd) {a b : Team} (cur : b.cur = a.cur) (nxt : b.nxt = a.nxt) :
    (t.shift l' b).cur = (s.shift l a).cur ∧ (t.shift l' b).nxt = (s.shift l a).nxt := by
  have spent : t.spentBlock l' b = s.spentBlock l a := by
    unfold State.spentBlock
    rw [cur, show t.exhausted l' = s.exhausted l from funext (feeds.exhausted desc fed)]
  rw [State.shift_cur, State.shift_cur, State.shift_nxt, State.shift_nxt, spent, cur, nxt]
  exact ⟨rfl, rfl⟩

/-! ## The counts of a retirement (R31) -/

/-- The number of items of a held block that have not been handed out. -/
def State.leftOf (s : State) (l : Launch) (o : Option Held) : Nat := (o.map fun b => s.blkHi l b.blk - b.pos).getD 0

theorem State.undispensed_length (s : State) (l : Launch) (o : Option Held) : (s.undispensed l o).length = s.leftOf l o := by
  cases o <;> simp [State.undispensed, State.leftOf]

theorem State.SameFeeds.leftOf {s t : State} {l l' : Launch} (feeds : s.SameFeeds t) (desc : l'.desc = l.desc)
    (fed : l'.fedEnd = l.fedEnd) : t.leftOf l' = s.leftOf l := by
  funext o
  rw [← State.undispensed_length, ← State.undispensed_length, feeds.undispensed desc fed]

/-- What retirement makes of the launch: a next block not yet begun returns, everything else that is held counts as killed. -/
def Launch.Retires (s : State) (l : Launch) (cur nxt : Option Held) (l' : Launch) : Prop :=
  l.Counted l' ∧
    ((∃ b, nxt = some b ∧ b.pos = l.blkLo b.blk ∧ l'.returned = l.returned ++ [b.blk] ∧ l'.killed = l.killed + s.leftOf l cur) ∨
      (∀ b, nxt = some b → b.pos ≠ l.blkLo b.blk) ∧ l'.returned = l.returned ∧
        l'.killed = l.killed + s.leftOf l cur + s.leftOf l nxt)

/-- The slot of a saved team alone changes. -/
theorem State.freeSlot_launch {s : State} {k : Nat} {l : Launch} (found : s.launch? k = some l) (st : TeamSt) :
    ∃ slots, (s.freeSlot k st).launch? k = some { l with slots := slots } := by
  unfold State.freeSlot
  split
  · exact ⟨_, State.launch?_modLaunch_self (f := fun l => { l with slots := l.slots.erase _ }) found fun _ => rfl⟩
  · exact ⟨l.slots, found⟩

theorem State.endNext_launch {s : State} {l k : Launch} (found : s.launch? l.id = some k) (left : List Nat) (o : Option Held) :
    ∃ k', (s.endNext l left o).launch? l.id = some k' ∧
      ((∃ b, o = some b ∧ b.pos = l.blkLo b.blk ∧ k'.returned = k.returned ++ [b.blk] ∧ k'.killed = k.killed) ∨
        (∀ b, o = some b → b.pos ≠ l.blkLo b.blk) ∧ k'.returned = k.returned ∧ k'.killed = k.killed + left.length) := by
  have counted : (s.countItems l.id .killed left).launch? l.id = some (k.tally s.now .killed left) := by
    rw [State.countItems_launch?, if_pos rfl, found, Option.map_some]
  unfold State.endNext
  split
  case h_1 => exact ⟨_, counted, .inr ⟨nofun, rfl, rfl⟩⟩
  case h_2 b =>
    split
    case isTrue whole =>
      exact ⟨_, State.launch?_modLaunch_self (f := fun l => { l with
        returned := l.returned ++ [b.blk], blks := l.blks.filter (·.blk ≠ b.blk) }) found fun _ => rfl, .inl ⟨b, rfl, whole, rfl, rfl⟩⟩
    case isFalse begun =>
      exact ⟨_, counted, .inr ⟨fun c e => by cases e; exact begun, rfl, rfl⟩⟩

theorem State.retireTeam_launch {s : State} {t : Nat} {tm : Team} {l : Launch} (found : s.team? t = some tm)
    (launch : s.launch? tm.launch = some l) :
    ∃ l', (s.retireTeam t).launch? l.id = some l' ∧ l.Retires s (s.shift l tm).cur (s.shift l tm).nxt l' := by
  have own := State.launch?_id launch
  obtain ⟨l', fl', counted, -⟩ := (s.ends_retireTeam (P := fun _ => True) t fun _ _ => trivial).launch_of (own ▸ launch)
  refine ⟨l', fl', counted, ?_⟩
  have first : (s.countItems l.id .killed (s.undispensed l (s.shift l tm).cur)).launch? l.id =
      some (l.tally s.now .killed (s.undispensed l (s.shift l tm).cur)) := by
    rw [State.countItems_launch?, if_pos rfl, own, launch, Option.map_some]
  obtain ⟨k, fk, next⟩ := State.endNext_launch first (s.undispensed l (s.shift l tm).nxt) (s.shift l tm).nxt
  obtain ⟨slots, freed⟩ := State.freeSlot_launch (s := State.modTeam _ t Team.close) fk (s.shift l tm).st
  rw [State.retireTeam_of found launch] at fl'
  obtain rfl := Option.some.inj (fl'.symm.trans freed)
  simp only [State.undispensed_length, Launch.tally, if_true] at next
  exact next

end Sys2Proof.Machine
end

section
/-! PROOFS. EXIT and HALT (03 R26, R27, R31, 09 R104, R108). -/

namespace Sys2Proof.Machine

/-! ## EXIT vacates the lanes of a group (R26, R27) -/

/-- A group left without an occupied lane, no other split of which is within an instruction, stands at the refill point. -/
theorem Group.vacate_jumps {g : Group} {now i : Nat} {lanes : Word} {refill : DWord} (empty : g.occ &&& ~~~lanes = 0)
    (idle : ∀ y ∈ g.splits, y.id ≠ i → y.midway = false) :
    (g.vacate now lanes refill (some i)).joins = [] ∧
      ∃ n, (g.vacate now lanes refill (some i)).splits = [Split.fresh n 0 refill now] := by
  have none : g.splits.find? (fun x => decide (some x.id ≠ some i ∧ x.midway = true)) = none := by
    refine List.find?_eq_none.2 fun y my => ?_
    simp only [decide_eq_true_eq, not_and, Bool.not_eq_true]
    exact fun other => idle y my fun e => other (congrArg some e)
  unfold Group.vacate
  rw [if_neg (by simpa using empty)]
  dsimp only
  rw [none]
  exact ⟨rfl, _, rfl⟩

/-- A lone split that keeps lanes goes on with them. -/
theorem Group.vacate_lone {g : Group} {y : Split} (alone : g.splits = [y]) (free : y.parent = none) (joins : g.joins = [])
    {now : Nat} {lanes : Word} {refill : DWord} {sp : Option Nat} (occ : g.occ &&& ~~~lanes ≠ 0) (keeps : y.mask &&& ~~~lanes ≠ 0) :
    (g.vacate now lanes refill sp).splits = [{ y with mask := y.mask &&& ~~~lanes }] ∧ (g.vacate now lanes refill sp).joins = [] := by
  unfold Group.vacate
  rw [if_pos occ]
  unfold Group.dropLanes
  simp only [alone, joins, List.filter_nil, List.map_nil, List.foldl_nil, List.map_cons, List.filter_cons, keeps, decide_false]
  unfold Group.settle
  simp [free]

section
variable {h : Hdr} {x : Iss} {s : State} {l : Launch}

/-- What EXIT makes of the issuing group. -/
def Iss.exits (x : Iss) (h : Hdr) (s : State) (g : Group) : Group :=
  ((g.consume s.now x.sp.id h.st.toNat false).modSplit x.sp.id fun y =>
    { y with pc := x.next h, arrivedBy := .seq, only := none, hold := .run, words := 0, bar := none }).vacate s.now
      (x.active h) (x.tm.refillPc s) (some x.sp.id)

theorem exec_exit_owner (iss : Issues (.exit h) h x s) (owner : ∃ n ∈ lanesOf (x.active h), (x.g.ownerOf n).isSome) :
    exec (.exit h) s = .next (x.groupFault h .xbusy 0 s) := by
  obtain ⟨n, mem, own⟩ := owner
  have active : x.active h ≠ 0 := by
    intro none
    rw [mem_lanesOf, none] at mem
    simp at mem
  refine (withIssue_next _ iss).trans ?_
  dsimp only
  rw [if_neg active, if_pos (List.any_eq_true.2 ⟨n, mem, own⟩)]

/-- EXIT with active lanes, none of them an owner, counts their items and vacates them. -/
theorem exec_exit_items (iss : Issues (.exit h) h x s) (active : x.active h ≠ 0)
    (free : ∀ n ∈ lanesOf (x.active h), x.g.ownerOf n = none) :
    exec (.exit h) s = .next ((s.countItems x.tm.launch .exited (x.g.itemsOf (x.active h))).modG x.r
      (x.exits h (s.countItems x.tm.launch .exited (x.g.itemsOf (x.active h))))) := by
  refine (withIssue_next _ iss).trans ?_
  dsimp only
  rw [if_neg active, if_neg]
  · rfl
  · simp only [List.any_eq_true, not_exists, not_and]
    exact fun n m => by simp [free n m]

theorem Iss.exits_splitsMove (x : Iss) (h : Hdr) (s : State) (g : Group) :
    { g with occ := g.occ &&& ~~~x.active h }.SplitsMove (x.exits h s g) := by
  refine .trans ?_ (Group.splitsMove_vacate ..)
  exact rfl

/-- Every other split of the group is held, or not, as before an instruction of one of them. -/
theorem Group.consume_midway {g : Group} {now i st : Nat} {b : Bool} (idle : ∀ y ∈ g.splits, y.id ≠ i → y.midway = false) :
    ∀ y ∈ (g.consume now i st b).splits, y.id ≠ i → y.midway = false := by
  intro y my other
  obtain ⟨z, mz, rfl⟩ := List.mem_map.1 my
  by_cases same : z.id = i
  · rw [if_pos same] at other
    exact absurd same other
  · have still := idle z mz same
    rw [if_neg same]
    unfold Split.midway at still ⊢
    cases hold : z.hold <;> simp_all

theorem Iss.exits_jumps (empty : x.g.occ &&& ~~~x.active h = 0)
    (idle : ∀ y ∈ x.g.splits, y.id ≠ x.sp.id → y.midway = false) :
    (x.exits h s x.g).joins = [] ∧ ∃ n, (x.exits h s x.g).splits = [Split.fresh n 0 (x.tm.refillPc s) s.now] := by
  refine Group.vacate_jumps empty fun y my other => ?_
  obtain ⟨z, mz, rfl⟩ := List.mem_map.1 my
  by_cases same : z.id = x.sp.id
  · rw [if_pos same] at other
    exact absurd same other
  · rw [if_neg same]
    exact Group.consume_midway idle z mz same

theorem Iss.exits_lone (lone : x.lone) (joins : x.g.joins = []) (occ : x.g.occ &&& ~~~x.active h ≠ 0)
    (keeps : x.sp.mask &&& ~~~x.active h ≠ 0) : (x.exits h s x.g).joins = [] ∧
      ∃ y, (x.exits h s x.g).splits = [y] ∧ y.mask = x.sp.mask &&& ~~~x.active h ∧ y.pc = x.next h ∧ y.hold = .run := by
  obtain ⟨alone, free, -⟩ := lone
  have consumed := Group.consume_lone x.g x.sp s.now h.st.toNat false alone
  have moved : ((x.g.consume s.now x.sp.id h.st.toNat false).modSplit x.sp.id fun y =>
      { y with pc := x.next h, arrivedBy := .seq, only := none, hold := .run, words := 0, bar := none }).splits =
      [{ x.sp with readyAt := s.now + h.st.toNat + 1, issuedAt := s.now, loud := x.sp.loud || false, pc := x.next h
                   arrivedBy := .seq, only := none, hold := .run, words := 0, bar := none }] := by
    simp only [Group.modSplit, consumed, List.map_cons, List.map_nil, if_pos]
  obtain ⟨splits, none⟩ := Group.vacate_lone moved free joins (now := s.now) (refill := x.tm.refillPc s) (sp := some x.sp.id) occ keeps
  exact ⟨none, _, splits, rfl, rfl, rfl⟩

/-! ## A group retires beside another, or as the last (R31) -/

theorem Team.emptyGroup_all (tm : Team) (gi : Nat) :
    (tm.emptyGroup gi).groups.all (!·.live) = true ↔ ∀ g ∈ tm.groups, g.grp ≠ gi → g.live = false := by
  unfold Team.emptyGroup Team.modGroup
  simp only [List.all_map, List.all_eq_true, Function.comp, Bool.not_eq_true']
  refine forall_congr' fun g => forall_congr' fun _ => ?_
  by_cases same : g.grp = gi
  · rw [if_pos same]
    exact ⟨fun _ other => absurd same other, fun _ => rfl⟩
  · rw [if_neg same]
    exact ⟨fun h _ => h, fun h => h same⟩

/-- The state and the team in which a group has left its barriers. -/
theorem State.leftGroup {s : State} {t gi : Nat} {tm : Team} (found : s.team? t = some tm) (core : Nat) :
    ∃ u tm', (s.modTeam t (·.emptyGroup gi)).leaveBars t gi core = u ∧ u.team? t = some tm' ∧ (tm.emptyGroup gi).BarsMove tm' ∧
      u.launches = s.launches ∧ u.queues = s.queues := by
  have bars := State.barsMove_leaveBars (P := fun _ => True) (s.modTeam t (·.emptyGroup gi)) t gi core fun _ _ => trivial
  have emptied : (s.modTeam t (·.emptyGroup gi)).team? t = some (tm.emptyGroup gi) := by
    rw [State.team?_modTeam s t t (·.emptyGroup gi) fun _ => rfl, if_pos rfl, found, Option.map_some]
  obtain ⟨tm', fb, moved, -⟩ := rel_some (bars.team t) emptied
  exact ⟨_, tm', rfl, fb, moved, by rw [bars.frame]; rfl, by rw [bars.frame]; rfl⟩

theorem State.launch?_of {s t : State} (e : t.launches = s.launches) (k : Nat) : t.launch? k = s.launch? k := by
  unfold State.launch?
  rw [e]

/-- Beside another live group, a group that retires leaves the launches and the other groups. -/
theorem State.retireGroup_beside {s : State} {t gi : Nat} {tm : Team} (found : s.team? t = some tm)
    (other : ∃ g ∈ tm.groups, g.grp ≠ gi ∧ g.live = true) :
    (∀ k, (s.retireGroup t gi).launch? k = s.launch? k) ∧
      ∀ k, k ≠ gi → (s.retireGroup t gi).group? t k = s.group? t k := by
  obtain ⟨u, tm', e, fb, moved, launches, -⟩ := State.leftGroup (gi := gi) found tm.core
  have alive : (u.team? t).map (fun tm => tm.groups.all (!·.live)) ≠ some true := by
    rw [fb, Option.map_some, moved]
    intro dead
    obtain ⟨g, mg, ne, live⟩ := other
    simpa [live] using (tm.emptyGroup_all gi).1 (Option.some.inj dead) g mg ne
  rw [State.retireGroup_of found, e, if_neg alive]
  refine ⟨State.launch?_of launches, fun k ne => ?_⟩
  unfold State.group?
  rw [fb, found, Option.bind_some, Option.bind_some, moved.group? k]
  exact (Team.group?_modGroup tm gi k Group.emptied fun _ => rfl).trans (if_neg ne)

/-- With the last live group the team retires. -/
theorem State.retireGroup_last {s : State} {t gi : Nat} {tm : Team} {l : Launch} (found : s.team? t = some tm)
    (launch : s.launch? tm.launch = some l) (last : ∀ g ∈ tm.groups, g.grp ≠ gi → g.live = false) :
    (((s.retireGroup t gi).team? t).map (·.st)) = some .retired ∧
      ∃ l', (s.retireGroup t gi).launch? l.id = some l' ∧ l.Retires s (s.shift l tm).cur (s.shift l tm).nxt l' := by
  obtain ⟨u, tm', e, fb, moved, launches, queues⟩ := State.leftGroup (gi := gi) found tm.core
  have dead : (u.team? t).map (fun tm => tm.groups.all (!·.live)) = some true := by
    rw [fb, Option.map_some, moved]
    exact congrArg some ((tm.emptyGroup_all gi).2 last)
  rw [State.retireGroup_of found, e, if_pos dead]
  have mine : u.launch? tm'.launch = some l := by
    rw [moved, State.launch?_of launches]
    exact launch
  obtain ⟨y, fy, st⟩ := State.retireTeam_st fb mine
  obtain ⟨l', fl', counted, retires⟩ := State.retireTeam_launch fb mine
  have feeds := State.sameFeeds_of queues
  obtain ⟨cur, nxt⟩ := feeds.shift (l' := l) (a := tm) (b := tm') rfl rfl (by rw [moved]; rfl) (by rw [moved]; rfl)
  rw [cur, nxt, feeds.leftOf rfl rfl] at retires
  exact ⟨by rw [fy, Option.map_some, st], l', fl', counted, retires⟩

/-! ## HALT (R108) -/

/-- The launch of a group that has halted, but for what the retirement of its team counts. -/
def Iss.haltCounts (x : Iss) (l : Launch) (now : Nat) : Launch :=
  { l with seq := l.seq + 1, nfault := l.nfault + 1 }.tally now .killed (x.g.itemsOf x.g.occ)

theorem Iss.haltCounts_killed (x : Iss) (l : Launch) (now : Nat) : (x.haltCounts l now).killed = l.killed + popCount x.g.occ :=
  congrArg (l.killed + ·) (x.g.itemsOf_length x.g.occ)

theorem exec_halt (iss : IssuesU (.halt h) h x s) (plain : x.g.xp = none) (launch : s.launch? x.tm.launch = some l) :
    exec (.halt h) s = .next (((s.modLaunch l.id fun k => { k with seq := l.seq + 1 }).logFault l.id (x.haltEntry l)).killGroup
      x.r.team x.r.grp) := by
  refine (withIssue_uniform _ iss).trans ?_
  simp only [plain, Option.isSome_none, launch]
  rfl

theorem exec_halt_expansion (iss : IssuesU (.halt h) h x s) (spread : x.g.xp ≠ none) :
    exec (.halt h) s = .next (x.groupFault h .xbusy 0 s) := by
  refine (withIssue_uniform _ iss).trans ?_
  rw [if_pos (Option.isSome_iff_ne_none.2 spread)]

/-- The log entry of a HALT changes the bytes that it and LOGN store. -/
theorem State.homeByte_logFault {s : State} {l : Launch} (launch : s.launch? l.id = some l) (f : Launch → Launch)
    (id : ∀ k, (f k).id = k.id) (ctx : (f l).ctx = l.ctx) (desc : (f l).desc = l.desc) (nfault : (f l).nfault = l.nfault)
    (entry : List Byte) (pa : Nat) :
    let at_ := l.desc.save.toNat + 4096 + l.nfault % 1024 * 1024
    ¬ s.devStores l.ctx at_ entry pa →
    ¬ (s.devWrite l.ctx at_ entry).devStores l.ctx (l.desc.save.toNat + 8) (natLe 8 (l.nfault + 1)) pa →
    ((s.modLaunch l.id f).logFault l.id entry).homeByte pa = s.homeByte pa := by
  intro at_ first second
  unfold State.logFault
  rw [State.launch?_modLaunch_self launch id]
  dsimp only
  rw [ctx, desc, nfault, State.devWrite_modLaunch, State.devWrite_modLaunch]
  exact (State.homeByte_devWrite second).trans (State.homeByte_devWrite first)

end

/-- Settles O28: EXIT vacates lanes (`Iss.exits`), HALT retires the group (`State.retireGroup_beside`, `State.retireGroup_last`),
and only its log entry touches memory. -/
theorem exitAndHaltEndItems : Obligations.ExitAndHaltEndItems := by
  intro h x s l place launch
  obtain ⟨-, ft, -, fg, fx⟩ := State.at?_eq place
  have own := State.launch?_id launch
  refine ⟨exec_exit_owner, fun iss active free => ?_, exec_halt_expansion, fun iss plain live => ?_⟩
  · have kept : (s.countItems x.tm.launch .exited (x.g.itemsOf (x.active h))).group? x.r.team x.r.grp = some x.g := by
      rw [State.group?, State.countItems_team?]
      exact State.group?_of ft fg
    have tallied : (s.countItems x.tm.launch .exited (x.g.itemsOf (x.active h))).launch? x.tm.launch =
        some (l.tally s.now .exited (x.g.itemsOf (x.active h))) := by
      rw [State.countItems_launch?, if_pos rfl, launch, Option.map_some]
    have moved := x.exits_splitsMove h (s.countItems x.tm.launch .exited (x.g.itemsOf (x.active h))) x.g
    have refill : x.tm.refillPc (s.countItems x.tm.launch .exited (x.g.itemsOf (x.active h))) =
        l.kern.entry + BitVec.ofNat 64 l.kern.refill := by
      unfold Team.refillPc
      rw [tallied]
      rfl
    have frame := s.countItems_eq x.tm.launch .exited (x.g.itemsOf (x.active h))
    refine ⟨_, l.tally s.now .exited (x.g.itemsOf (x.active h)), _, exec_exit_items iss active free, by rw [frame]; rfl, by rw [frame]; rfl, by rw [frame]; rfl, by rw [own]; exact tallied,
      congrArg (l.exited + ·) (x.g.itemsOf_length _), rfl, rfl,
      State.group?_modGroup_self kept fun g => (x.exits_splitsMove h _ g).grp, moved.occ, fun n => ?_, fun empty idle => ?_,
      fun occ lone joins keeps => Iss.exits_lone lone joins occ keeps⟩
    · unfold Group.itemOf
      rw [moved.item]
    · obtain ⟨none, n, splits⟩ := Iss.exits_jumps (s := s.countItems x.tm.launch .exited (x.g.itemsOf (x.active h))) empty idle
      exact ⟨none, _, splits, rfl, rfl, refill⟩
  · have logged := State.launch?_modLaunch_self (f := fun k => { k with seq := l.seq + 1 }) (own ▸ launch) fun _ => rfl
    obtain ⟨teams, -, counts, -, queues⟩ := State.logFault_found logged (x.haltEntry l)
    generalize whole : (s.modLaunch l.id fun k => { k with seq := l.seq + 1 }).logFault l.id (x.haltEntry l) = u at teams counts queues
    have fu : u.team? x.r.team = some x.tm := by
      unfold State.team? at ft ⊢
      rw [teams]
      exact ft
    have kept : (u.countItems l.id .killed (x.g.itemsOf x.g.occ)).team? x.r.team = some x.tm := by
      rw [State.countItems_team?, fu]
    have tallied : (u.countItems l.id .killed (x.g.itemsOf x.g.occ)).launch? l.id =
        some (x.haltCounts l u.now) := by
      rw [State.countItems_launch?, if_pos rfl, counts, Option.map_some]
      rfl
    have run : exec (.halt h) s = .next ((u.countItems l.id .killed (x.g.itemsOf x.g.occ)).retireGroup x.r.team x.r.grp) := by
      rw [exec_halt iss plain launch, whole, State.killGroup_of fu fg live, own]
    obtain ⟨g', fg', gone, empty, -⟩ := State.retireGroup_group (State.group?_of kept fg)
    have ends := State.ends_retireGroup (P := fun _ => True) (u.countItems l.id .killed (x.g.itemsOf x.g.occ)) x.r.team x.r.grp
      fun _ _ => trivial
    obtain ⟨l', fl', counted, -⟩ := ends.launch_of tallied
    refine ⟨_, l', g', run, fl', by rw [counted.frame]; rfl, by rw [counted.frame]; rfl, by rw [counted.frame]; rfl, fg', gone, empty,
      fun other => ?_, fun last => ?_, fun pa first second => ?_⟩
    · obtain ⟨launches, groups⟩ := State.retireGroup_beside kept other
      obtain rfl := Option.some.inj (fl'.symm.trans ((launches l.id).trans tallied))
      refine ⟨x.haltCounts_killed l u.now, fun k ne => (groups k ne).trans ?_⟩
      rw [State.group?, State.group?, kept, ft]
    · obtain ⟨st, l2, fl2, -, retires⟩ := State.retireGroup_last kept (by rw [← own]; exact tallied) last
      obtain rfl := Option.some.inj (fl'.symm.trans fl2)
      have feeds : s.SameFeeds (u.countItems l.id .killed (x.g.itemsOf x.g.occ)) :=
        State.SameFeeds.trans (State.sameFeeds_of queues) (State.sameFeeds_countItems u l.id .killed (x.g.itemsOf x.g.occ))
      obtain ⟨cur, nxt⟩ := feeds.shift (l := l) (l' := x.haltCounts l u.now) rfl rfl (a := x.tm) rfl rfl
      rw [cur, nxt, feeds.leftOf (l := l) (l' := x.haltCounts l u.now) rfl rfl, x.haltCounts_killed] at retires
      exact ⟨st, retires⟩
    · rw [((u.ends_countItems (P := fun _ => True) trivial _).trans ends).homeByte pa, ← whole]
      exact State.homeByte_logFault (own ▸ launch) (fun k => { k with seq := l.seq + 1 }) (fun _ => rfl) rfl rfl rfl _ pa first second

end Sys2Proof.Machine
end

section
/-! PROOFS. What a team's blocks give a dispensing request (03 R19, R20, 22 R298): the lowest items there are, in order. -/

namespace Sys2Proof.Machine

/-! ## Sorting by a key -/

theorem insBy_pairwise {α : Type} (key : α → Nat) (x : α) {l : List α} (order : l.Pairwise (key · ≤ key ·)) :
    (insBy key x l).Pairwise (key · ≤ key ·) := by
  induction l with
  | nil => exact List.pairwise_singleton _ x
  | cons y l ih =>
    obtain ⟨first, rest⟩ := List.pairwise_cons.1 order
    unfold insBy
    split
    case isTrue below =>
      refine List.pairwise_cons.2 ⟨fun z mz => ?_, order⟩
      rcases List.mem_cons.1 mz with rfl | mz
      · exact below.le
      · exact below.le.trans (first z mz)
    case isFalse above =>
      refine List.pairwise_cons.2 ⟨fun z mz => ?_, ih rest⟩
      rcases List.mem_cons.1 ((insBy_perm key x l).mem_iff.1 mz) with rfl | mz
      · exact Nat.not_lt.1 above
      · exact first z mz

theorem sortBy_pairwise {α : Type} (key : α → Nat) (l : List α) : (sortBy key l).Pairwise (key · ≤ key ·) :=
  foldl_keeps (P := fun acc : List α => acc.Pairwise (key · ≤ key ·)) (fun _ x order => insBy_pairwise key x order) l [] .nil

/-- Of numbers, the least comes first. -/
theorem sortBy_id_cons {a : Nat} {l r : List Nat} (perm : l.Perm (a :: r)) (least : ∀ b ∈ r, a ≤ b) :
    sortBy id l = a :: sortBy id r := by
  have left : (sortBy id l).Perm (a :: sortBy id r) := ((sortBy_perm id l).trans perm).trans ((sortBy_perm id r).symm.cons a)
  have order : ∀ l : List Nat, (sortBy id l).Pairwise (· ≤ ·) := sortBy_pairwise id
  exact left.eq_of_pairwise' (order l) (List.pairwise_cons.2 ⟨fun b mb => least b ((mem_sortBy id r b).1 mb), order r⟩)

/-! ## The items of held blocks -/

section
variable {s : State} {l : Launch}

/-- A block with an item to hand out gives that one, and then the rest. -/
theorem State.undispensed_avail {b : Held} (there : b.pos < s.blkHi l b.blk) :
    s.undispensed l (some b) = b.pos :: s.undispensed l (some { b with pos := b.pos + 1 }) := by
  unfold State.undispensed
  obtain ⟨n, hn⟩ : ∃ n, s.blkHi l b.blk - b.pos = n + 1 := ⟨s.blkHi l b.blk - b.pos - 1, by omega⟩
  have rest : s.blkHi l b.blk - (b.pos + 1) = n := by omega
  simp only [hn, rest, List.range_succ_eq_map, List.map_cons, List.map_map, Nat.add_zero]
  congr 1
  refine List.map_congr_left fun i _ => ?_
  simp only [Function.comp]
  omega

theorem State.undispensed_mem {b : Held} {i : Nat} (m : i ∈ s.undispensed l (some b)) : b.pos ≤ i := by
  obtain ⟨j, -, rfl⟩ := List.mem_map.1 m
  exact Nat.le_add_right ..

theorem State.avail_eq_some {o : Option Held} {b : Held} (h : s.avail l o = some b) : o = some b ∧ b.pos < s.blkHi l b.blk := by
  have := Option.filter_eq_some_iff.1 h
  exact ⟨this.1, by simpa using this.2⟩

theorem State.undispensed_of_avail_none {o : Option Held} (h : s.avail l o = none) : s.undispensed l o = [] := by
  cases o with
  | none => rfl
  | some b =>
    have none_left : ¬ b.pos < s.blkHi l b.blk := by simpa [State.avail, Option.filter] using h
    simp [State.undispensed, Nat.sub_eq_zero_of_le (Nat.not_lt.1 none_left)]

/-- An exhausted block has nothing to hand out. -/
theorem State.not_exhausted {b : Held} (there : b.pos < s.blkHi l b.blk) : s.exhausted l b = false := by
  have last : s.blkHi l b.blk ≤ l.blkLo (b.blk + 1) := Nat.min_le_left ..
  simp only [State.exhausted, Bool.or_eq_false_iff, decide_eq_false_iff_not, Bool.and_eq_false_iff]
  exact ⟨by omega, .inl (by omega)⟩

theorem State.undispensed_of_exhausted {b : Held} (gone : s.exhausted l b = true) : s.undispensed l (some b) = [] := by
  have none_left : ¬ b.pos < s.blkHi l b.blk := fun there => by simp [State.not_exhausted there] at gone
  simp [State.undispensed, Nat.sub_eq_zero_of_le (Nat.not_lt.1 none_left)]

/-- What a team holds, in the order in which it is handed out (22 R298). -/
def State.stock (s : State) (l : Launch) (t : Team) : List Nat :=
  if l.desc.fed then sortBy id (s.undispensed l t.cur ++ s.undispensed l t.nxt) else s.undispensed l t.cur ++ s.undispensed l t.nxt

/-- The change of blocks leaves what the team holds. -/
theorem State.shift_stock (t : Team) : s.stock l (s.shift l t) = s.stock l t := by
  have same : s.undispensed l (s.shift l t).cur ++ s.undispensed l (s.shift l t).nxt =
      s.undispensed l t.cur ++ s.undispensed l t.nxt := by
    rw [State.shift_cur, State.shift_nxt]
    cases spent : s.spentBlock l t with
    | false => rfl
    | true =>
      have first : s.undispensed l t.cur = [] := by
        unfold State.spentBlock at spent
        cases cur : t.cur with
        | none => rfl
        | some b => exact State.undispensed_of_exhausted (by simpa [cur] using spent)
      rw [first, if_pos rfl, if_pos rfl]
      exact List.append_nil _
  unfold State.stock
  rw [same]

/-! ## A dispensing request -/

/-- The current block's next item comes first when no lower one of a fed launch is in the next block. -/
theorem State.stock_cur {t : Team} {b : Held} (there : s.avail l t.cur = some b)
    (least : l.desc.fed = true → ∀ i ∈ s.undispensed l t.nxt, b.pos ≤ i) :
    s.stock l t = b.pos :: s.stock l { t with cur := some { b with pos := b.pos + 1 } } := by
  obtain ⟨cur, more⟩ := State.avail_eq_some there
  unfold State.stock
  rw [cur, State.undispensed_avail more]
  split
  case isTrue fed =>
    refine sortBy_id_cons (List.Perm.refl _) fun i mi => ?_
    rcases List.mem_append.1 mi with here | there
    · have := State.undispensed_mem here
      exact Nat.le_of_succ_le this
    · exact least fed i there
  case isFalse => rfl

/-- The next block's next item comes first when the current block has none, or for a fed launch none as low. -/
theorem State.stock_nxt {t : Team} {b : Held} (there : s.avail l t.nxt = some b)
    (empty : l.desc.fed = false → s.undispensed l t.cur = []) (least : ∀ i ∈ s.undispensed l t.cur, b.pos ≤ i) :
    s.stock l t = b.pos :: s.stock l { t with nxt := some { b with pos := b.pos + 1 } } := by
  obtain ⟨nxt, more⟩ := State.avail_eq_some there
  unfold State.stock
  rw [nxt, State.undispensed_avail more]
  split
  case isTrue =>
    refine sortBy_id_cons List.perm_middle fun i mi => ?_
    rcases List.mem_append.1 mi with here | there
    · exact least i here
    · have := State.undispensed_mem there
      exact Nat.le_of_succ_le this
  case isFalse unfed => rw [empty (by simpa using unfed)]; rfl

/-- A request takes the first items of what the team holds. -/
theorem State.takeItems_items (n : Nat) (t : Team) : (s.takeItems l n t).1 = (s.stock l t).take n := by
  induction n generalizing t with
  | zero => simp [State.takeItems]
  | succ n ih =>
    rw [← State.shift_stock (s := s) (l := l) t]
    unfold State.takeItems
    dsimp only
    generalize s.shift l t = u
    have ask : ∀ (t : Team) (i : Nat) (k : Bool), s.stock l (t.ask i k) = s.stock l t := fun t i k => by
      unfold State.stock
      rw [Team.ask_frame]
    cases cur : s.avail l u.cur with
    | none =>
      have empty := State.undispensed_of_avail_none cur
      cases nxt : s.avail l u.nxt with
      | none => simp [State.stock, empty, State.undispensed_of_avail_none nxt, sortBy]
      | some k =>
        rw [State.stock_nxt nxt (fun _ => empty) (by simp [empty]), List.take_succ_cons, ← ih]
    | some h =>
      obtain ⟨-, more⟩ := State.avail_eq_some cur
      cases nxt : s.avail l u.nxt with
      | none =>
        rw [State.stock_cur cur (by simp [State.undispensed_of_avail_none nxt]), List.take_succ_cons, ← ask, ← ih]
      | some k =>
        obtain ⟨nxt', -⟩ := State.avail_eq_some nxt
        obtain ⟨cur', -⟩ := State.avail_eq_some cur
        dsimp only
        split
        case isTrue lower =>
          obtain ⟨fed, below⟩ : l.desc.fed = true ∧ k.pos < h.pos := by simpa using lower
          rw [State.stock_nxt nxt (by simp [fed]) fun i mi => below.le.trans (State.undispensed_mem (cur' ▸ mi)),
            List.take_succ_cons, ← ih]
        case isFalse higher =>
          rw [State.stock_cur cur fun fed i mi => ?_, List.take_succ_cons, ← ask, ← ih]
          have above : h.pos ≤ k.pos := by simpa [fed] using higher
          exact above.trans (State.undispensed_mem (nxt' ▸ mi))

/-- A request that the current block can satisfy moves its position; an exhausted block makes way (R19). -/
theorem State.takeItems_cur (n : Nat) {t : Team} {b : Held} (cur : t.cur = some b) (nxt : t.nxt = none)
    (enough : b.pos + n ≤ s.blkHi l b.blk) :
    (s.takeItems l n t).2.cur =
      if s.exhausted l { b with pos := b.pos + n } then none else some { b with pos := b.pos + n } := by
  induction n generalizing t b with
  | zero =>
    simp only [State.takeItems, State.shift_cur, State.spentBlock, cur, nxt, Option.map_some, Option.getD_some, Nat.add_zero]
  | succ n ih =>
    have more : b.pos < s.blkHi l b.blk := by omega
    have stays : s.shift l t = t := by
      unfold State.shift
      rw [cur]
      simp [State.not_exhausted more]
    have there : s.avail l t.cur = some b := by simp [State.avail, cur, Option.filter, more]
    have none_next : s.avail l t.nxt = none := by simp [State.avail, nxt]
    unfold State.takeItems
    dsimp only
    rw [stays, there, none_next]
    dsimp only
    rw [ih (b := { b with pos := b.pos + 1 }) (by rw [Team.ask_frame]) (by rw [Team.ask_frame]; exact nxt) (by dsimp only; omega),
      show b.pos + 1 + n = b.pos + (n + 1) by omega]

end

end Sys2Proof.Machine
end

section
/-! PROOFS. Filling the vacant lanes of a group (03 R29): items, ages, cleared flags and `.fresh` registers, with nothing in
flight. -/

namespace Sys2Proof.Machine

/-! ## Writes at once -/

/-- A group after writes at once: its registers, what is in flight to them and what operations have been overtaken. -/
structure Group.Writes (g g' : Group) : Prop where
  frame : g' = { g with vregs := g'.vregs, sregs := g'.sregs, kregs := g'.kregs, flg := g'.flg, tiles := g'.tiles, ops := g'.ops
                        badRegs := g'.badRegs }
  pend : g.pend = []

theorem Group.writeNow_of_none {g : Group} (none : g.pend = []) (l : Loc) (m v : DWord) :
    g.Writes (g.writeNow l m v) ∧ ∀ k, (g.writeNow l m v).file k = (g.setFile l m v).file k := by
  have landed : g.landLoc l = g := by
    unfold Group.landLoc
    rw [none]
    cases g
    cases none
    rfl
  unfold Group.writeNow Group.writeAs
  rw [landed]
  refine ⟨⟨?_, none⟩, fun k => by cases k <;> rfl⟩
  rw [g.setFile_frame l m v]
  rfl

theorem Group.Writes.refl {g : Group} (none : g.pend = []) : g.Writes g := ⟨rfl, none⟩

theorem Group.Writes.trans {a b c : Group} (ab : a.Writes b) (bc : b.Writes c) : a.Writes c :=
  ⟨by rw [bc.frame, ab.frame], ab.pend⟩

theorem Group.Writes.none {g g' : Group} (w : g.Writes g') : g'.pend = [] := by rw [w.frame]; exact w.pend

/-- Some places have become 0, and the others are as they were. -/
structure Group.Zeroes (L : Loc → Prop) (g g' : Group) : Prop where
  writes : g.Writes g'
  zero : ∀ k, L k → g'.file k = 0
  kept : ∀ k, ¬ L k → g'.file k = g.file k

theorem Group.Zeroes.trans {L M : Loc → Prop} {a b c : Group} (ab : a.Zeroes L b) (bc : b.Zeroes M c) :
    a.Zeroes (fun k => L k ∨ M k) c where
  writes := ab.writes.trans bc.writes
  zero k h := by
    by_cases m : M k
    · exact bc.zero k m
    · exact (bc.kept k m).trans (ab.zero k (h.resolve_right m))
  kept k h := (bc.kept k fun m => h (.inr m)).trans (ab.kept k fun m => h (.inl m))

theorem Group.Zeroes.congr {L M : Loc → Prop} {a b : Group} (z : a.Zeroes L b) (same : ∀ k, M k ↔ L k) : a.Zeroes M b :=
  ⟨z.writes, fun k h => z.zero k ((same k).1 h), fun k h => z.kept k fun m => h ((same k).2 m)⟩

theorem Group.Zeroes.foldl {α : Type} {f : Group → α → Group} {L : α → Loc → Prop} (step : ∀ (g : Group) a, g.pend = [] → g.Zeroes (L a) (f g a))
    (as : List α) {g : Group} (none : g.pend = []) : g.Zeroes (fun k => ∃ a ∈ as, L a k) (as.foldl f g) := by
  induction as generalizing g with
  | nil => exact ⟨.refl none, fun k ⟨a, m, _⟩ => absurd m List.not_mem_nil, fun _ _ => rfl⟩
  | cons a as ih =>
    have first := step g a none
    refine (first.trans (ih first.writes.none)).congr fun k => ?_
    simp

/-- A register that is cleared for a lane. -/
theorem Group.zeroes_writeNow {g : Group} (none : g.pend = []) (v n : Nat) : g.Zeroes (· = .v v n) (g.writeNow (.v v n) ones 0) := by
  obtain ⟨writes, file⟩ := Group.writeNow_of_none none (.v v n) ones 0
  refine ⟨writes, fun k e => ?_, fun k ne => (file k).trans (g.file_setFile_ne ones 0 ne)⟩
  rw [file, e, Group.file_setFile g _ _ _ (by simp)]
  have all : ones &&& (Loc.v v n).width = (Loc.v v n).width := BitVec.allOnes_and
  rw [all, g.file_within (.v v n) (by simp)]
  simp

theorem Group.zeroes_freshen {g : Group} (none : g.pend = []) (k : Kernel) (lanes : Word) :
    g.Zeroes (fun p => ∃ v < 256, k.fresh.getLsbD v = true ∧ ∃ n, lanes.getLsbD n = true ∧ p = .v v n) (g.freshen k lanes) := by
  have lane : ∀ (g : Group) (v : Nat), g.pend = [] → g.Zeroes (fun p => k.fresh.getLsbD v = true ∧ ∃ n ∈ lanesOf lanes, p = .v v n)
      (if k.fresh.getLsbD v then (lanesOf lanes).foldl (fun g l => g.writeNow (.v v l) ones 0) g else g) := by
    intro g v none
    split
    case isTrue fresh =>
      refine (Group.Zeroes.foldl (L := fun n p => p = .v v n) (fun g n none => Group.zeroes_writeNow none v n) _ none).congr fun p => ?_
      simp [fresh]
    case isFalse stale => exact ⟨.refl none, fun p h => absurd h.1 stale, fun _ _ => rfl⟩
  refine (Group.Zeroes.foldl (fun g v none => lane g v none) (List.range 256) none).congr fun p => ?_
  simp only [List.mem_range, mem_lanesOf]

/-- A mask register written whole. -/
theorem Group.file_writeNow_mask {g : Group} (none : g.pend = []) {k : Nat} (proper : k ≠ 0) (m : Word) :
    (g.writeNow (.k k) ones (m.setWidth 64)).file (.k k) = m.setWidth 64 := by
  obtain ⟨-, file⟩ := Group.writeNow_of_none none (.k k) ones (m.setWidth 64)
  have all : ones &&& (Loc.k k).width = (Loc.k k).width := BitVec.allOnes_and
  rw [file, Group.file_setFile g _ _ _ (by simpa using proper), all, g.file_within (.k k) (by simp)]
  refine BitVec.eq_of_getLsbD_eq fun i hi => ?_
  have low : (Loc.width (.k k)).getLsbD i = decide (i < 32) := by
    rw [show Loc.width (.k k) = (BitVec.allOnes 32).setWidth 64 from rfl, BitVec.getLsbD_setWidth, BitVec.getLsbD_allOnes]
    simp [hi]
  simp only [BitVec.getLsbD_or, BitVec.getLsbD_and, BitVec.getLsbD_setWidth, low, hi, decide_true, Bool.true_and]
  by_cases inside : i < 32
  · simp [inside]
  · simp [inside, BitVec.getLsbD_of_ge m i (Nat.not_lt.1 inside)]

/-! ## Items of vacant lanes (R29) -/

/-- One vacant lane takes an item: its age grows and its flags are cleared. -/
def Group.occupy (g : Group) (p : Nat × Nat) : Group :=
  { g with
    item := g.item.set 0 p.1 (BitVec.ofNat 48 p.2)
    age := g.age.set 0 p.1 (g.ageOf p.1 + 1)
    flg := g.flg.set 0 p.1 0 }

/-- What a lane holds. -/
theorem Group.occupy_lane (g : Group) (p : Nat × Nat) (n : Nat) :
    (g.occupy p).itemOf n = (if n = p.1 then BitVec.ofNat 48 p.2 else g.itemOf n) ∧
    (g.occupy p).ageOf n = (if n = p.1 then g.ageOf n + 1 else g.ageOf n) ∧
    (g.occupy p).flg.get 0 n = if n = p.1 then 0 else g.flg.get 0 n := by
  unfold Group.occupy Group.itemOf Group.ageOf
  simp only [Map.get_set]
  refine ⟨trivial, ?_, trivial⟩
  split
  case isTrue e => rw [e]
  case isFalse => rfl

/-- Lanes beside those that take items keep theirs. -/
theorem Group.foldl_occupy_other {n : Nat} (ps : List (Nat × Nat)) (g : Group) (apart : n ∉ ps.map (·.1)) :
    (ps.foldl Group.occupy g).itemOf n = g.itemOf n ∧ (ps.foldl Group.occupy g).ageOf n = g.ageOf n ∧
      (ps.foldl Group.occupy g).flg.get 0 n = g.flg.get 0 n := by
  induction ps generalizing g with
  | nil => exact ⟨rfl, rfl, rfl⟩
  | cons p ps ih =>
    rw [List.map_cons, List.mem_cons, not_or] at apart
    obtain ⟨item, age, flg⟩ := ih (g.occupy p) apart.2
    obtain ⟨item', age', flg'⟩ := g.occupy_lane p n
    rw [if_neg apart.1] at item' age' flg'
    exact ⟨item.trans item', age.trans age', flg.trans flg'⟩

/-- Every lane that takes an item has it. -/
theorem Group.foldl_occupy_lane {p : Nat × Nat} (ps : List (Nat × Nat)) (g : Group) (once : (ps.map (·.1)).Nodup) (m : p ∈ ps) :
    (ps.foldl Group.occupy g).itemOf p.1 = BitVec.ofNat 48 p.2 ∧ (ps.foldl Group.occupy g).ageOf p.1 = g.ageOf p.1 + 1 ∧
      (ps.foldl Group.occupy g).flg.get 0 p.1 = 0 := by
  induction ps generalizing g with
  | nil => cases m
  | cons q ps ih =>
    rw [List.map_cons, List.nodup_cons] at once
    obtain ⟨item', age', flg'⟩ := g.occupy_lane q p.1
    rcases List.mem_cons.1 m with rfl | m
    · obtain ⟨item, age, flg⟩ := Group.foldl_occupy_other ps (g.occupy p) once.1
      rw [if_pos rfl] at item' age' flg'
      exact ⟨item.trans item', age.trans age', flg.trans flg'⟩
    · have apart : p.1 ≠ q.1 := fun e => once.1 (e ▸ List.mem_map_of_mem m)
      obtain ⟨item, age, flg⟩ := ih (g.occupy q) once.2 m
      rw [if_neg apart] at age'
      exact ⟨item, age.trans (congrArg (· + 1) age'), flg⟩

/-- Items, ages and flags alone change. -/
theorem Group.foldl_occupy_frame (ps : List (Nat × Nat)) (g : Group) :
    ps.foldl Group.occupy g = { g with
      item := (ps.foldl Group.occupy g).item, age := (ps.foldl Group.occupy g).age, flg := (ps.foldl Group.occupy g).flg } := by
  induction ps generalizing g with
  | nil => rfl
  | cons p ps ih =>
    rw [List.foldl_cons, ih]
    rfl

/-- The filled group, before its occupied lanes are noted. -/
theorem Group.fill_eq (g : Group) (k : Kernel) (lanes items : List Nat) :
    let m := maskOf ((lanes.zip items).map (·.1))
    let g' := ((lanes.zip items).foldl Group.occupy g).freshen k m
    g.fill k lanes items = { g' with occ := g'.occ ||| m } := rfl

/-- What filling does: the lanes that take an item have it, an age one higher, cleared flags and zero in the `.fresh`
registers; nothing else changes. -/
structure Group.Filled (k : Kernel) (lanes items : List Nat) (g g' : Group) : Prop where
  frame : g' = { g with item := g'.item, age := g'.age, flg := g'.flg, vregs := g'.vregs, sregs := g'.sregs, kregs := g'.kregs
                        tiles := g'.tiles, ops := g'.ops, badRegs := g'.badRegs, occ := g'.occ }
  occ : g'.occ = g.occ ||| maskOf ((lanes.zip items).map (·.1))
  lane : ∀ p ∈ lanes.zip items, g'.itemOf p.1 = BitVec.ofNat 48 p.2 ∧ g'.ageOf p.1 = g.ageOf p.1 + 1 ∧ g'.file (.flg p.1) = 0 ∧
    ∀ v < 256, k.fresh.getLsbD v = true → g'.file (.v v p.1) = 0
  other : ∀ n, n ∉ (lanes.zip items).map (·.1) → g'.itemOf n = g.itemOf n ∧ g'.ageOf n = g.ageOf n ∧
    ∀ v, g'.file (.v v n) = g.file (.v v n)

theorem map_fst_zip_eq_take {α β : Type} (as : List α) (bs : List β) : (as.zip bs).map (·.1) = as.take bs.length := by
  induction as generalizing bs with
  | nil => simp
  | cons a as ih =>
    cases bs with
    | nil => rfl
    | cons b bs => simp [ih]

theorem Group.filled_fill {g : Group} (none : g.pend = []) (k : Kernel) {lanes items : List Nat} (once : lanes.Nodup)
    (inside : ∀ n ∈ lanes, n < 32) : g.Filled k lanes items (g.fill k lanes items) := by
  rw [Group.fill_eq]
  have once' : ((lanes.zip items).map (·.1)).Nodup := by
    rw [map_fst_zip_eq_take]
    exact once.sublist (List.take_sublist ..)
  have inside' : ∀ p ∈ lanes.zip items, p.1 < 32 := fun p m => inside _ (List.of_mem_zip m).1
  generalize zip : lanes.zip items = ps at *
  have frame := Group.foldl_occupy_frame ps g
  have lane : ∀ p ∈ ps, _ := fun p m => Group.foldl_occupy_lane ps g once' m
  have other : ∀ n, n ∉ ps.map (·.1) → _ := fun n apart => Group.foldl_occupy_other (n := n) ps g apart
  generalize ps.foldl Group.occupy g = o at *
  have z := Group.zeroes_freshen (g := o) (by rw [frame]; exact none) k (maskOf (ps.map (·.1)))
  generalize o.freshen k (maskOf (ps.map (·.1))) = f at *
  have writes := z.writes.frame
  have items : f.item = o.item := by rw [writes]
  have ages : f.age = o.age := by rw [writes]
  have bit : ∀ n, (maskOf (ps.map (·.1))).getLsbD n = true ↔ n < 32 ∧ n ∈ ps.map (·.1) := fun n => getLsbD_maskOf _ n
  constructor
  · rw [writes, frame]
  · rw [zip, writes, frame]
  · intro p m
    rw [zip] at m
    obtain ⟨item, age, flg⟩ := lane p m
    have flag : f.file (.flg p.1) = o.file (.flg p.1) := z.kept _ fun ⟨_, _, _, _, _, e⟩ => by cases e
    refine ⟨(congrArg (·.get 0 p.1) items).trans item, (congrArg (·.get 0 p.1) ages).trans age, flag.trans ?_, fun v hv fresh => ?_⟩
    · exact congrArg (BitVec.setWidth 64) flg
    · exact z.zero _ ⟨v, hv, fresh, p.1, (bit p.1).2 ⟨inside' p m, List.mem_map_of_mem m⟩, rfl⟩
  · intro n apart
    rw [zip] at apart
    obtain ⟨item, age, -⟩ := other n apart
    refine ⟨(congrArg (·.get 0 n) items).trans item, (congrArg (·.get 0 n) ages).trans age, fun v => ?_⟩
    have kept : f.file (.v v n) = o.file (.v v n) := by
      refine z.kept _ fun ⟨_, _, _, _, b, e⟩ => ?_
      cases e
      exact apart ((bit n).1 b).2
    refine kept.trans ?_
    rw [frame]
    rfl

end Sys2Proof.Machine
end

section
/-! PROOFS. REFILL (03 R19 to R21, R29 to R31): the first items of what the team holds go to the vacant lanes in order. -/

namespace Sys2Proof.Machine

/-- The lanes of a group without an item. -/
def Group.vacant (g : Group) : List Nat := (List.range 32).filter fun i => !g.occ.getLsbD i

/-- The lanes that a number of items fill. -/
def Group.filling (g : Group) (items : List Nat) : Word := maskOf ((g.vacant.zip items).map (·.1))

/-! ## The group of a REFILL -/

/-- What the completion of a REFILL makes of the issuing group. -/
def Iss.dispensed (x : Iss) (h : Hdr) (kd now : Nat) (k : Kernel) (items : List Nat) (g : Group) : Group :=
  let m := x.g.filling items
  let g := (g.landSplits (g.splits.map (·.id))).fill k x.g.vacant items
  let loud := m != 0 || (kd != 0 && g.kr x.sp.id kd != m)
  let g := (g.writeNow (.k kd) ones (m.setWidth 64)).consume now x.sp.id h.st.toNat loud
  (g.modSplit x.sp.id fun y => { y with mask := y.mask ||| m }).move now x.sp.id (x.next h) .seq

theorem Group.vacant_nodup (g : Group) : g.vacant.Nodup := List.nodup_range.filter _

theorem Group.mem_vacant {g : Group} {n : Nat} : n ∈ g.vacant ↔ n < 32 ∧ g.occ.getLsbD n = false := by
  simp [Group.vacant]

theorem Group.filling_eq (g : Group) (items : List Nat) : g.filling items = maskOf (g.vacant.take items.length) := by
  rw [Group.filling, map_fst_zip_eq_take]

/-- Items that vacant lanes can hold fill a lane. -/
theorem Group.filling_ne_zero {g : Group} {src : List Nat} (some_ : src.take g.vacant.length ≠ []) :
    g.filling (src.take g.vacant.length) ≠ 0 := by
  intro unfilled
  cases lanes : g.vacant with
  | nil => rw [lanes] at some_; exact some_ rfl
  | cons n ns =>
    have low := (Group.mem_vacant.1 (lanes ▸ List.mem_cons_self : n ∈ g.vacant)).1
    have filled : n ∈ g.vacant.take (src.take g.vacant.length).length := by
      obtain ⟨k, hk⟩ := Nat.exists_eq_succ_of_ne_zero fun e => some_ (List.length_eq_zero_iff.1 e)
      rw [hk, lanes, List.take_succ_cons]
      exact List.mem_cons_self
    have bit := (getLsbD_maskOf (g.vacant.take (src.take g.vacant.length).length) n).2 ⟨low, filled⟩
    rw [← Group.filling_eq, unfilled] at bit
    simp at bit

/-- With every vacant lane filled, every lane is occupied. -/
theorem Group.occ_or_vacant (g : Group) : g.occ ||| maskOf g.vacant = 0xFFFFFFFF := by
  refine BitVec.eq_of_getLsbD_eq fun i low => ?_
  have full : (0xFFFFFFFF : Word).getLsbD i = true := by
    rw [show (0xFFFFFFFF : Word) = BitVec.allOnes 32 from rfl, BitVec.getLsbD_allOnes]
    simpa using low
  rw [full, BitVec.getLsbD_or]
  cases occ : g.occ.getLsbD i with
  | true => rfl
  | false => exact (getLsbD_maskOf ..).2 ⟨low, Group.mem_vacant.2 ⟨low, occ⟩⟩

theorem Group.landSplits_of_none {g : Group} (none : g.pend = []) (sps : List Nat) :
    g.landSplits sps = { g with score := (g.landSplits sps).score } := by
  unfold Group.landSplits
  rw [none]
  cases g
  cases none
  rfl

section
variable {x : Iss} {h : Hdr} {kd now : Nat} {k : Kernel} {items : List Nat} (none : x.g.pend = []) (lone : x.lone)
include none lone

/-- With nothing in flight, the lone split of a group fills its vacant lanes and goes on with them. -/
theorem Iss.dispensed_gives : let g := x.dispensed h kd now k items x.g
    let m := x.g.filling items
    g.occ = x.g.occ ||| m ∧
    (∀ p ∈ x.g.vacant.zip items, g.itemOf p.1 = BitVec.ofNat 48 p.2 ∧ g.ageOf p.1 = x.g.ageOf p.1 + 1 ∧ g.file (.flg p.1) = 0 ∧
      ∀ v < 256, k.fresh.getLsbD v = true → g.file (.v v p.1) = 0) ∧
    (∀ n, n ∉ (x.g.vacant.zip items).map (·.1) → g.itemOf n = x.g.itemOf n ∧ g.ageOf n = x.g.ageOf n ∧
      ∀ v, g.file (.v v n) = x.g.file (.v v n)) ∧
    (kd ≠ 0 → g.file (.k kd) = m.setWidth 64) ∧
    ∃ y, g.splits = [y] ∧ y.mask = x.sp.mask ||| m ∧ y.pc = x.next h ∧ y.hold = .run := by
  obtain ⟨alone, free, stays⟩ := lone
  have landed := Group.landSplits_of_none none (x.g.splits.map (·.id))
  unfold Iss.dispensed
  dsimp only
  generalize x.g.landSplits (x.g.splits.map (·.id)) = g0 at *
  have filled := Group.filled_fill (g := g0) (by rw [landed]; exact none) k (items := items) x.g.vacant_nodup
    fun n m => (Group.mem_vacant.1 m).1
  generalize g0.fill k x.g.vacant items = f at *
  have pend : f.pend = [] := by rw [filled.frame, landed]; exact none
  obtain ⟨writes, file⟩ := Group.writeNow_of_none pend (.k kd) ones ((x.g.filling items).setWidth 64)
  have mask := fun proper : kd ≠ 0 => Group.file_writeNow_mask pend proper (x.g.filling items)
  have others : ∀ p, p ≠ .k kd → (f.writeNow (.k kd) ones ((x.g.filling items).setWidth 64)).file p = f.file p :=
    fun p ne => (file p).trans (f.file_setFile_ne _ _ ne)
  generalize f.writeNow (.k kd) ones ((x.g.filling items).setWidth 64) = w at *
  have splits : w.splits = [x.sp] := by rw [writes.frame, filled.frame, landed]; exact alone
  have consumed := Group.consume_lone w x.sp now h.st.toNat (x.g.filling items != 0 || (kd != 0 && f.kr x.sp.id kd != x.g.filling items))
    splits
  generalize used : w.consume now x.sp.id h.st.toNat (x.g.filling items != 0 || (kd != 0 && f.kr x.sp.id kd != x.g.filling items)) = c
    at *
  have kept : c.occ = f.occ ∧ c.item = f.item ∧ c.age = f.age ∧ ∀ p, c.file p = w.file p := by
    subst used
    refine ⟨?_, ?_, ?_, fun p => w.consume_file ..⟩ <;> rw [Group.consume, writes.frame]
  obtain ⟨occ, item, age, files⟩ := kept
  have sames : ∀ p, g0.file p = x.g.file p := fun p => by rw [landed]; cases p <;> rfl
  rw [Group.move_of_none]
  · simp only [Group.modSplit_file]
    refine ⟨occ.trans (filled.occ.trans (by rw [landed]; rfl)), fun p m => ?_, fun n apart => ?_,
      fun proper => (files _).trans (mask proper), ?_⟩
    · obtain ⟨item', age', flg, fresh⟩ := filled.lane p m
      refine ⟨(congrArg (·.get 0 p.1) item).trans item', (congrArg (·.get 0 p.1) age).trans (age'.trans (by rw [landed]; rfl)), ?_,
        fun v hv hf => ?_⟩
      · rw [files, others _ (by simp), flg]
      · rw [files, others _ (by simp), fresh v hv hf]
    · obtain ⟨item', age', regs⟩ := filled.other n apart
      refine ⟨(congrArg (·.get 0 n) item).trans (item'.trans (by rw [landed]; rfl)),
        (congrArg (·.get 0 n) age).trans (age'.trans (by rw [landed]; rfl)), fun v => ?_⟩
      rw [files, others _ (by simp), regs, sames]
    · simp only [Group.modSplit, consumed, List.map_cons, List.map_nil, if_pos]
      exact ⟨_, rfl, rfl, rfl, rfl⟩
  · simp only [Group.modSplit, consumed, List.map_cons, List.map_nil, if_pos, List.mem_singleton]
    rintro y rfl
    exact ⟨free, stays⟩

end

/-! ## The dispensing request (R20, R30) -/

theorem Group.writeNow_grp (g : Group) (l : Loc) (m v : DWord) : (g.writeNow l m v).grp = g.grp := by
  have fold : ∀ (p : Pend → Bool) (es : List Pend), g.SplitsMove (es.foldl (fun g e => if p e then g.land e else g) g) :=
    fun p es => .foldl (fun g e => .ite (g.splitsMove_setFile e.loc e.mask e.new) (.refl g)) es g
  have landed : g.SplitsMove (g.landLoc l) := .trans (fold _ g.pend) rfl
  exact (Group.splitsMove_setFile (g.landLoc l) l m v).grp.trans landed.grp

theorem Group.fill_grp (g : Group) (k : Kernel) (lanes items : List Nat) : (g.fill k lanes items).grp = g.grp := by
  have lane : ∀ (g : Group) (v : Nat) (m : Word), ((lanesOf m).foldl (fun g l => g.writeNow (.v v l) ones 0) g).grp = g.grp :=
    fun g v m => foldl_keeps (P := fun y : Group => y.grp = g.grp) (fun y l e => (y.writeNow_grp (.v v l) ones 0).trans e) _ _ rfl
  have fresh : ∀ (m : Word) (vs : List Nat) (g : Group), (vs.foldl (fun g v =>
      if k.fresh.getLsbD v then (lanesOf m).foldl (fun g l => g.writeNow (.v v l) ones 0) g else g) g).grp = g.grp := by
    intro m vs g
    refine foldl_keeps (P := fun y : Group => y.grp = g.grp) (fun y v e => ?_) vs g rfl
    split
    · exact (lane y v m).trans e
    · exact e
  have kept : ((((lanes.zip items).foldl Group.occupy g).freshen k (maskOf ((lanes.zip items).map (·.1))))).grp = g.grp := by
    unfold Group.freshen
    rw [fresh, Group.foldl_occupy_frame]
  have filled := Group.fill_eq g k lanes items
  dsimp only at filled
  generalize Group.freshen _ k _ = f at filled kept
  rw [filled, ← kept]

theorem Iss.dispensed_grp (x : Iss) (h : Hdr) (kd now : Nat) (k : Kernel) (items : List Nat) (g : Group) :
    (x.dispensed h kd now k items g).grp = g.grp := by
  unfold Iss.dispensed
  dsimp only
  refine (Group.splitsMove_move ..).grp.trans ?_
  exact (Group.writeNow_grp ..).trans ((Group.fill_grp ..).trans (g.splitsMove_landSplits _).grp)

/-- A team with the blocks and the request of another. -/
def Team.deal (r t : Team) : Team := { t with cur := r.cur, nxt := r.nxt, wantBlk := r.wantBlk, asked := r.asked }

/-- Items that have been handed out, and what an acquire drops (24 R313). -/
def Iss.dealt (x : Iss) (l : Launch) (s : State) : State :=
  let r := s.takeItems l x.g.vacant.length x.tm
  let s1 := s.modTeam x.r.team r.2.deal
  let s2 := if l.desc.fed then s1.modQueue l.desc.qnum fun q => { q with dispensed := q.dispensed + r.1.length } else s1
  if s2.acquires l r.1 then s2.acquire x.tm.core .pkg else s2

section
variable {x : Iss} {h : Hdr} {kd since : Nat} {s : State} {l : Launch} (launch : s.launch? x.tm.launch = some l)
include launch

/-- A request waits behind an earlier one while the team holds an item. -/
theorem Iss.refill_behind (behind : x.behind since = true) (there : s.stock l x.tm ≠ []) : x.refill h kd since s = none := by
  have one : (s.takeItems l 1 x.tm).1.isEmpty = false := by
    rw [State.takeItems_items]
    cases stock : s.stock l x.tm with
    | nil => exact absurd stock there
    | cons a as => rfl
  unfold Iss.refill
  rw [launch]
  dsimp only
  rw [if_pos ⟨behind, by simp [one]⟩]

/-- An empty group waits while an item may still come. -/
theorem Iss.refill_waits (none : s.stock l x.tm = []) (empty : x.g.occ = 0) (more : s.noItems l x.tm = false) :
    x.refill h kd since s = Option.none := by
  have taken : ∀ n, (s.takeItems l n x.tm).1.isEmpty = true := fun n => by rw [State.takeItems_items, none]; simp
  unfold Iss.refill
  rw [launch]
  dsimp only
  rw [if_neg (by simp [taken]), if_pos ⟨taken _, empty, by simp [more]⟩]

/-- Otherwise the request completes. -/
theorem Iss.refill_completes (first : s.stock l x.tm = [] ∨ x.behind since = false)
    (go : (s.stock l x.tm).take x.g.vacant.length ≠ [] ∨ x.g.occ ≠ 0 ∨ s.noItems l x.tm = true) :
    let items := (s.stock l x.tm).take x.g.vacant.length
    let t := (x.dealt l s).modG x.r (x.dispensed h kd (x.dealt l s).now l.kern items)
    x.refill h kd since s =
      some (if x.g.occ = 0 ∧ x.g.filling items = 0 then t.retireGroup x.r.team x.r.grp else t) := by
  have turn : ¬ (x.behind since = true ∧ ¬ (s.takeItems l 1 x.tm).1.isEmpty = true) := by
    rintro ⟨behind, there⟩
    rcases first with none | ahead
    · rw [State.takeItems_items, none] at there
      simp at there
    · rw [ahead] at behind
      cases behind
  have goes : ¬ ((s.takeItems l x.g.vacant.length x.tm).1.isEmpty = true ∧ x.g.occ = 0 ∧ ¬ s.noItems l x.tm = true) := by
    rintro ⟨none, empty, more⟩
    rw [State.takeItems_items, List.isEmpty_iff] at none
    rcases go with some_ | occ | last
    · exact some_ none
    · exact occ empty
    · exact more last
  unfold Iss.refill
  rw [launch]
  dsimp only
  rw [if_neg turn]
  refine (if_neg goes).trans ?_
  rw [← State.takeItems_items]
  rfl

end

/-- The team after its items have been handed out. -/
theorem Iss.dealt_team (x : Iss) (l : Launch) (s : State) (ft : s.team? x.r.team = some x.tm) :
    (x.dealt l s).team? x.r.team = some ((s.takeItems l x.g.vacant.length x.tm).2.deal x.tm) := by
  have kept : (x.dealt l s).teams = (s.modTeam x.r.team (s.takeItems l x.g.vacant.length x.tm).2.deal).teams := by
    unfold Iss.dealt
    dsimp only
    split <;> split <;> rfl
  have dealt : (s.modTeam x.r.team (s.takeItems l x.g.vacant.length x.tm).2.deal).team? x.r.team = _ :=
    State.team?_modTeam s x.r.team x.r.team _ fun _ => rfl
  rw [if_pos rfl, ft, Option.map_some] at dealt
  unfold State.team? at dealt ⊢
  rw [kept, dealt]

/-! ## REFILL -/

/-- A REFILL that waits: what is in flight lands, and the split stands at its instruction. -/
def heldRefill (kd : Nat) (r : SRef) (s : State) : State := s.modG r fun g =>
  (g.landSplits [r.split]).modSplit r.split fun y => { y with hold := .refill kd s.now }

/-- A REFILL completes its request, or waits. -/
def Iss.refillOrHold (x : Iss) (h : Hdr) (kd : Nat) (s : State) : State := (x.refill h kd s.now s).getD (heldRefill kd x.r s)

theorem Iss.observeN_none (sel : EFault → Bool) (go : Iss → State → State) (fuel : Nat) {x : Iss} (none : x.g.efaults = []) (s : State) :
    x.observeN sel go fuel s = go x s := by
  cases fuel with
  | zero => rfl
  | succ n => unfold Iss.observeN; rw [none]; rfl

/-- The number of a split that was found. -/
theorem Group.split?_id {g : Group} {i : Nat} {x : Split} (found : g.split? i = some x) : x.id = i := by
  simpa using List.find?_some found

section
variable {x : Iss} {h : Hdr} {kd : BitVec 8} {s : State}

/-- What REFILL does outside an expansion, once its engine faults have been raised. -/
def Iss.goRefill (h : Hdr) (kd : Nat) (x : Iss) (s : State) : State :=
  match x.refill h kd s.now s with
  | some t => t
  | none => s.modG x.r fun g => (g.landSplits [x.sp.id]).modSplit x.sp.id fun y => { y with hold := .refill kd s.now }

theorem Iss.goRefill_eq {kd : Nat} (same : x.sp.id = x.r.split) : x.goRefill h kd s = x.refillOrHold h kd s := by
  unfold Iss.goRefill Iss.refillOrHold heldRefill
  rw [same]
  cases x.refill h kd s.now s <;> rfl

theorem exec_refill_observe (iss : Issues (.refill h kd) h x s) (plain : x.g.xp = none) :
    exec (.refill h kd) s = .next (x.observe (fun _ => true) (Iss.goRefill h kd.toNat) s) := by
  refine (withIssue_next _ iss).trans ?_
  rw [plain]
  rfl

theorem exec_refill_expansion (iss : Issues (.refill h kd) h x s) (spread : x.g.xp ≠ none) :
    exec (.refill h kd) s = .next (x.groupFault h .xbusy 0 s) := by
  refine (withIssue_next _ iss).trans ?_
  rw [if_pos (Option.isSome_iff_ne_none.2 spread)]

theorem exec_refill_of (place : x.inPlace s) (iss : Issues (.refill h kd) h x s) (plain : x.g.xp = none) (calm : x.g.efaults = []) :
    exec (.refill h kd) s = .next (x.refillOrHold h kd.toNat s) := by
  obtain ⟨-, -, -, -, fx⟩ := State.at?_eq place
  rw [exec_refill_observe iss plain, Iss.observe, Iss.observeN_none _ _ _ calm, Iss.goRefill_eq (Group.split?_id fx)]

/-- The first engine fault that waits is raised; one that holds or ends the split ends the instruction. -/
theorem exec_refill_fault (iss : Issues (.refill h kd) h x s) (plain : x.g.xp = none) {f : EFault} {fs : List EFault}
    (first : x.g.efaults = f :: fs) :
    let r := (x.engineFault f s).1
    ((x.re r = none ∨ ∃ y n, x.re r = some y ∧ y.sp.hold = .fault n) → exec (.refill h kd) s = .next r) ∧
    (∀ y, x.re r = some y → (∀ n, y.sp.hold ≠ .fault n) → y.sp.pc = x.sp.pc → y.g.efaults = [] →
      exec (.refill h kd) s = .next (y.refillOrHold h kd.toNat r)) := by
  rw [exec_refill_observe iss plain]
  unfold Iss.observe
  obtain ⟨n, hn⟩ : ∃ n, 13 * x.g.efaults.length + 1 = n + 1 := ⟨_, rfl⟩
  rw [hn]
  unfold Iss.observeN
  rw [first]
  simp only [List.find?_cons_of_pos]
  refine ⟨?_, fun y found free same calm => ?_⟩
  · rintro (gone | ⟨y, k, found, held⟩)
    · rw [gone]
    · rw [found]
      dsimp only
      rw [held]
  · obtain ⟨-, -, -, -, fx⟩ := State.at?_eq found
    obtain ⟨ref, -⟩ := State.at?_eq found
    rw [found]
    dsimp only
    split
    case h_1 n held => exact absurd held (free n)
    case h_2 => rw [if_pos same, Iss.observeN_none _ _ _ calm, Iss.goRefill_eq (ref ▸ Group.split?_id fx)]

end

/-! ## What a request gives -/

section
variable {x : Iss} {h : Hdr} {kd since : Nat} {s : State} {l : Launch} (place : x.inPlace s)
include place

theorem Iss.dealt_group (items : List Nat) :
    ((x.dealt l s).modG x.r (x.dispensed h kd (x.dealt l s).now l.kern items)).group? x.r.team x.r.grp =
      some (x.dispensed h kd (x.dealt l s).now l.kern items x.g) := by
  obtain ⟨-, ft, -, fg, -⟩ := State.at?_eq place
  exact State.group?_modGroup_self (State.group?_of (x.dealt_team l s ft) fg) fun g => x.dispensed_grp ..

variable (launch : s.launch? x.tm.launch = some l)
include launch

/-- With no item, no occupied lane and none to come, the group retires. -/
theorem Iss.refill_retires (none : s.stock l x.tm = []) (empty : x.g.occ = 0) (last : s.noItems l x.tm = true) :
    ∃ t g, x.refill h kd since s = some t ∧ t.group? x.r.team x.r.grp = some g ∧ g.live = false := by
  have run := Iss.refill_completes (h := h) (kd := kd) (since := since) launch (.inl none) (.inr (.inr last))
  have unfilled : x.g.filling ((s.stock l x.tm).take x.g.vacant.length) = 0 := by
    rw [none]
    simp [Group.filling, maskOf]
  dsimp only at run
  rw [if_pos ⟨empty, unfilled⟩] at run
  obtain ⟨g, fg, gone, -⟩ := State.retireGroup_group (Iss.dealt_group (h := h) (kd := kd) place
    ((s.stock l x.tm).take x.g.vacant.length))
  exact ⟨_, g, run, fg, gone⟩

/-- With items or an occupied lane, and nothing in flight, the lone split goes on with the lanes that are filled. -/
theorem Iss.refill_fills (first : s.stock l x.tm = [] ∨ x.behind since = false) (calm : x.g.pend = []) (lone : x.lone)
    (go : (s.stock l x.tm).take x.g.vacant.length ≠ [] ∨ x.g.occ ≠ 0) :
    let items := (s.stock l x.tm).take x.g.vacant.length
    let m := x.g.filling items
    ∃ t g y, x.refill h kd since s = some t ∧ (t.team? x.r.team).map (·.cur) = some (s.takeItems l x.g.vacant.length x.tm).2.cur ∧
      t.group? x.r.team x.r.grp = some g ∧ g.occ = x.g.occ ||| m ∧
      (∀ p ∈ x.g.vacant.zip items, g.itemOf p.1 = BitVec.ofNat 48 p.2 ∧ g.ageOf p.1 = x.g.ageOf p.1 + 1 ∧ g.file (.flg p.1) = 0 ∧
        ∀ v < 256, l.kern.fresh.getLsbD v = true → g.file (.v v p.1) = 0) ∧
      (∀ n, n ∉ (x.g.vacant.zip items).map (·.1) → g.itemOf n = x.g.itemOf n ∧ g.ageOf n = x.g.ageOf n ∧
        ∀ v, g.file (.v v n) = x.g.file (.v v n)) ∧
      (kd ≠ 0 → g.file (.k kd) = m.setWidth 64) ∧
      g.splits = [y] ∧ y.mask = x.sp.mask ||| m ∧ y.pc = x.next h ∧ y.hold = .run := by
  intro items m
  obtain ⟨-, ft, -, fg, -⟩ := State.at?_eq place
  have run := Iss.refill_completes (h := h) (kd := kd) (since := since) launch first (go.imp_right .inl)
  have lives : ¬ (x.g.occ = 0 ∧ m = 0) := by
    rintro ⟨empty, unfilled⟩
    exact Group.filling_ne_zero (go.resolve_right (· empty)) unfilled
  dsimp only at run
  rw [if_neg lives] at run
  obtain ⟨occ, lanes, others, mask, y, splits, ymask, pc, hold⟩ := Iss.dispensed_gives (h := h) (kd := kd)
    (now := (x.dealt l s).now) (k := l.kern) (items := items) calm lone
  refine ⟨_, _, y, run, ?_, Iss.dealt_group place items, occ, lanes, others, mask, splits, ymask, pc, hold⟩
  rw [State.modG, State.team?_modGroup, if_pos rfl, x.dealt_team l s ft]
  rfl

end

/-- The pairs of two lists are those at the same place. -/
theorem mem_zip_of_getElem? {α β : Type} {as : List α} {bs : List β} {i : Nat} {a : α} {b : β} (ha : as[i]? = some a)
    (hb : bs[i]? = some b) : (a, b) ∈ as.zip bs :=
  List.mem_of_getElem? (i := i) (by rw [List.getElem?_zip_eq_some]; exact ⟨ha, hb⟩)

/-- Of a launch that is not fed, a team without a next block holds what is left of its current one. -/
theorem State.stock_of_unfed {s : State} {l : Launch} {t : Team} (unfed : l.desc.fed = false) (nonext : t.nxt = none) :
    s.stock l t = s.undispensed l t.cur := by
  simp [State.stock, unfed, nonext, State.undispensed]

/-- A block that holds enough gives its first items. -/
theorem State.take_undispensed {s : State} {l : Launch} {b : Held} {n : Nat} (enough : b.pos + n ≤ s.blkHi l b.blk) :
    (s.undispensed l (some b)).take n = (List.range n).map (b.pos + ·) := by
  have fits : min n (s.blkHi l b.blk - b.pos) = n := by omega
  simp only [State.undispensed, ← List.map_take, List.take_range, fits]

section
variable {h : Hdr} {kd : BitVec 8} {x : Iss} {s : State} (place : x.inPlace s) (iss : Issues (.refill h kd) h x s)
  (plain : x.g.xp = none) (faults : x.g.efaults = [])
include place iss plain faults

theorem exec_refill_goes {t : State} (run : x.refill h kd.toNat s.now s = some t) : exec (.refill h kd) s = .next t := by
  rw [exec_refill_of place iss plain faults, Iss.refillOrHold, run, Option.getD_some]

theorem exec_refill_held (waits : x.refill h kd.toNat s.now s = none) :
    exec (.refill h kd) s = .next (heldRefill kd.toNat x.r s) := by
  rw [exec_refill_of place iss plain faults, Iss.refillOrHold, waits, Option.getD_none]

end

/-- REFILL_WAKE completes the request of a split that is held. -/
theorem exec_refillWake {x : Iss} {s t : State} {k z : Nat} (place : x.inPlace s) (held : x.sp.hold = .refill k z)
    (run : x.refill refillHdr k z s = some t) : exec (.refillWake x.r) s = .next t := by
  change execRefillWake x.r s = _
  unfold execRefillWake
  rw [show s.at? x.r = some x from place]
  dsimp only
  rw [held]
  dsimp only
  rw [run, Option.getD_some]

/-- Settles O29: a request takes the first items of what the team holds (`State.takeItems_items`), in the vacant lanes in order
(`Iss.refill_fills`), or waits, or retires the group. -/
theorem refillFillsVacantLanes : Obligations.RefillFillsVacantLanes := by
  refine ⟨fun h kd x s l place launch plain unfed nonext calm => ?_, fun h kd x s l place launch iss => ?_⟩
  · have whole : s.stock l x.tm = s.undispensed l x.tm.cur := State.stock_of_unfed unfed nonext
    have none_of : x.tm.cur = none → s.stock l x.tm = [] := fun cur => by rw [whole, cur, State.undispensed]
    have ref : x.sp.id = x.r.split := Group.split?_id (State.at?_eq place).2.2.2.2
    rw [ref]
    intro vacant
    have same : vacant = x.g.vacant := rfl
    clear_value vacant
    subst same
    refine ⟨fun iss faults lone joins => ⟨fun b cur enough some_ first => ?_, fun b cur more some_ behind => ?_,
      fun cur some_ => ?_, fun cur empty last => ?_, fun cur empty more => ?_⟩, fun k z t held run => exec_refillWake place held run⟩
    · have taken : (s.stock l x.tm).take x.g.vacant.length = (List.range x.g.vacant.length).map (b.pos + ·) := by
        rw [whole, cur, State.take_undispensed enough]
      obtain ⟨t, g, y, run, last, fg, occ, lanes, others, mask, splits, ymask, pc, hold⟩ := Iss.refill_fills (h := h)
        (kd := kd.toNat) (since := s.now) place launch (.inr first) calm lone (.inl (by
          rw [taken]
          simpa using fun e => some_ (List.length_eq_zero_iff.1 e)))
      have all : x.g.vacant.take ((List.range x.g.vacant.length).map (b.pos + ·)).length = x.g.vacant := by simp
      rw [taken] at occ lanes others mask ymask
      rw [Group.filling_eq, all] at occ mask ymask
      refine ⟨t, g, y, exec_refill_goes place iss plain faults run, fg, occ.trans x.g.occ_or_vacant, fun i n hn => ?_,
        fun n low full => others n fun filled => ?_, fun proper => mask fun e => proper (BitVec.eq_of_toNat_eq e),
        splits, ymask, pc, hold, ?_⟩
      · obtain ⟨low, -⟩ := List.getElem?_eq_some_iff.1 hn
        exact lanes (n, b.pos + i) (mem_zip_of_getElem? hn (by
          rw [List.getElem?_map, List.getElem?_range low, Option.map_some]))
      · rw [map_fst_zip_eq_take, all] at filled
        rw [(Group.mem_vacant.1 filled).2] at full
        cases full
      · exact last.trans (congrArg some (State.takeItems_cur _ cur nonext enough))
    · refine exec_refill_held place iss plain faults (Iss.refill_behind launch behind ?_)
      rw [whole, cur, State.undispensed_avail more]
      exact List.cons_ne_nil _ _
    · have none := none_of cur
      obtain ⟨t, g, y, run, -, fg, occ, -, -, mask, splits, ymask, pc, -⟩ := Iss.refill_fills (h := h) (kd := kd.toNat)
        (since := s.now) place launch (.inl none) calm lone (.inr some_)
      have unfilled : x.g.filling ((s.stock l x.tm).take x.g.vacant.length) = 0 := by
        rw [none, Group.filling_eq, List.take_nil]
        rfl
      rw [unfilled] at occ mask ymask
      exact ⟨t, g, exec_refill_goes place iss plain faults run, fg, occ.trans (BitVec.or_zero ..),
        fun proper => mask fun e => proper (BitVec.eq_of_toNat_eq e), y, splits, ymask.trans (BitVec.or_zero ..), pc⟩
    · obtain ⟨t, g, run, fg, gone⟩ := Iss.refill_retires (h := h) (kd := kd.toNat) (since := s.now) place launch (none_of cur)
        empty last
      exact ⟨t, g, exec_refill_goes place iss plain faults run, fg, gone⟩
    · exact exec_refill_held place iss plain faults (Iss.refill_waits launch (none_of cur) empty more)
  · intro vacant pool src items m held
    have stock : s.stock l x.tm = src := by
      have pools : ∀ o, s.undispensed l o = pool o := fun o => by cases o <;> rfl
      simp only [State.stock, pools, src]
    refine ⟨exec_refill_expansion iss, fun plain f fs first => exec_refill_fault iss plain first,
      fun plain faults none empty more => exec_refill_held place iss plain faults
        (Iss.refill_waits launch (stock.trans none) empty more),
      fun plain faults none empty last => ?_, fun plain faults calm lone joins first go => ?_⟩
    · obtain ⟨t, g, run, fg, gone⟩ := Iss.refill_retires (h := h) (kd := kd.toNat) (since := s.now) place launch
        (stock.trans none) empty last
      exact ⟨t, g, exec_refill_goes place iss plain faults run, fg, gone⟩
    · obtain ⟨t, g, y, run, -, fg, occ, lanes, others, mask, splits, ymask, pc, hold⟩ := Iss.refill_fills (h := h) (kd := kd.toNat)
        (since := s.now) place launch (stock ▸ first) calm lone (by rw [stock]; exact go)
      rw [stock] at occ lanes others mask ymask
      rw [Group.filling_eq] at occ mask ymask
      refine ⟨t, g, y, exec_refill_goes place iss plain faults run, fg, occ,
        fun i n a hn ha => lanes (n, a) (mem_zip_of_getElem? hn ha), fun n low out => others n fun filled => ?_,
        fun proper => mask fun e => proper (BitVec.eq_of_toNat_eq e), splits, ymask, pc, hold⟩
      rw [map_fst_zip_eq_take] at filled
      have bit : m.getLsbD n = true := (getLsbD_maskOf ..).2 ⟨low, filled⟩
      rw [out] at bit
      cases bit

end Sys2Proof.Machine
end

section
/-! PROOFS. The answers to faults (03 R40, 30 R368): RESOLVE and RELEASE. -/

namespace Sys2Proof.Machine

/-! ## A team or a split that was found -/

/-- With numbers of their own, teams are found by them. -/
theorem State.team?_of_mem {s : State} (once : (s.teams.map (·.id)).Nodup) {y : Team} (m : y ∈ s.teams) : s.team? y.id = some y := by
  have unique : ∀ x ∈ s.teams, x.id = y.id → x = y := fun x mx same => List.inj_on_of_nodup_map once mx m same
  cases found : s.team? y.id with
  | none => exact absurd (List.find?_eq_none.1 found y m) (by simp)
  | some x => rw [unique x (List.mem_of_find?_eq_some found) (State.team?_id found)]

theorem State.splitAt?_eq {s : State} {r : SRef} {tm : Team} {g : Group} {x : Split} (found : s.splitAt? r = some (tm, g, x)) :
    s.team? r.team = some tm ∧ tm.group? r.grp = some g ∧ g.split? r.split = some x := by
  unfold State.splitAt? at found
  split at found
  · cases found
  · rename_i ft
    split at found
    · cases found
    · rename_i fg
      obtain ⟨y, fx, e⟩ := Option.map_eq_some_iff.1 found
      cases e
      exact ⟨ft, fg, fx⟩

theorem State.splitAt?_of {s : State} {r : SRef} {tm : Team} {g : Group} {x : Split} (ft : s.team? r.team = some tm)
    (fg : tm.group? r.grp = some g) (fx : g.split? r.split = some x) : s.splitAt? r = some (tm, g, x) := by
  unfold State.splitAt?
  rw [ft]
  dsimp only
  rw [fg]
  dsimp only
  rw [fx, Option.map_some]

theorem State.splitAt?_modSplit {s : State} {r : SRef} {tm : Team} {g : Group} {x : Split} (found : s.splitAt? r = some (tm, g, x))
    {f : Split → Split} (id : ∀ y, (f y).id = y.id) :
    (s.modSplit r f).splitAt? r = some (tm.modGroup r.grp (·.modSplit r.split f), g.modSplit r.split f, f x) := by
  obtain ⟨ft, fg, fx⟩ := State.splitAt?_eq found
  refine State.splitAt?_of ?_ (Team.group?_modGroup_self fg fun _ => rfl) (Group.modSplit_split? fx id)
  rw [State.modSplit_team?, ft, Option.map_some]

/-! ## Reports -/

section
variable {s : State} {lid seq : Nat} {l : Launch} (fl : s.launch? lid = some l)
include fl

theorem State.report?_mem {r : Report} {trap : Bool} (found : s.report? lid seq trap = some r) :
    r ∈ l.reports ∧ r.seq = seq ∧ r.trapStop = trap := by
  unfold State.report? at found
  rw [fl] at found
  dsimp only at found
  split at found
  case isFalse => cases found
  case isTrue =>
    have same := List.find?_some found
    simp only [Bool.and_eq_true, beq_iff_eq] at same
    exact ⟨List.mem_of_find?_eq_some found, same⟩

theorem State.dropReport_launch? (seq : Nat) :
    (s.dropReport lid seq).launch? lid = some { l with reports := l.reports.filter (·.seq ≠ seq) } :=
  State.launch?_modLaunch_self fl fun _ => rfl

/-- The one split that a fault stopped runs its instruction again when no report of it is left. -/
theorem State.goOn_runs {r : Report} {tm : Team} {g : Group} {x : Split} (fx : s.splitAt? r.ref = some (tm, g, x))
    (clear : ∀ q ∈ l.reports, q.ref = r.ref → q.trapStop = true) (plain : r.eng = none) {n : Nat} (held : x.hold = .fault n)
    (more : x.only ≠ some 0) : s.goOn lid r false = s.modSplit r.ref fun y => { y with hold := .run } := by
  have answered : (l.reports.any fun q => q.ref == r.ref && !q.trapStop) = false := by
    rw [List.any_eq_false]
    intro q m
    by_cases same : q.ref = r.ref
    · simp [clear q m same]
    · simp [same]
  unfold State.goOn
  rw [fl, fx]
  dsimp only
  rw [answered, held, plain]
  have reissues : ¬ (x.only = some 0 ∨ false = true ∧ x.only = none) := by simpa using more
  exact if_neg reissues

theorem State.resumeLaunch_of (free : l.suspended = false) : s.resumeLaunch lid = s := by
  unfold State.resumeLaunch
  rw [fl]
  simp [free]

/-- Resuming a launch leaves its counts and its reports. -/
theorem State.resumeLaunch_launch? : ∃ l', (s.resumeLaunch lid).launch? lid = some l' ∧ l' = { l with suspended := l'.suspended } := by
  unfold State.resumeLaunch
  rw [fl]
  dsimp only
  split
  · exact ⟨l, fl, rfl⟩
  · exact ⟨_, State.launch?_modLaunch_self fl fun _ => rfl, rfl⟩

end

theorem State.resumeLaunch_mem (s : State) (lid : Nat) : (s.resumeLaunch lid).mem = s.mem := by
  unfold State.resumeLaunch
  split
  · rfl
  · dsimp only
    split <;> rfl

/-- Going on changes splits of one group. -/
theorem State.goOn_frame (s : State) (lid : Nat) (r : Report) (pass : Bool) :
    s.goOn lid r pass = { s with teams := (s.goOn lid r pass).teams } := by
  unfold State.goOn
  split
  · split
    · rfl
    · split
      · split
        · rfl
        · split <;> rfl
      · rfl
  · rfl

/-- Every team of a killed launch has retired. -/
theorem State.killLaunch_retires {s : State} {lid : Nat} {l : Launch} (fl : s.launch? lid = some l) (once : (s.teams.map (·.id)).Nodup) :
    ∀ y ∈ (s.killLaunch lid).teams, y.launch = lid → y.st = .retired := by
  intro y my mine
  have ends := s.ends_killLaunch lid
  have fy : (s.killLaunch lid).team? y.id = some y := by
    refine State.team?_of_mem ?_ my
    rw [ends.ids]
    exact once
  obtain ⟨a, fa, ra, -⟩ := rel_some_right (ends.team y.id) fy
  by_cases gone : a.st = .retired
  · exact ra.retired gone
  have fa : s.team? y.id = some a := fa
  have launch : a.launch = lid := ra.launch.symm.trans mine
  have member : a ∈ s.teams.filter fun t => t.launch = lid ∧ t.st ≠ .retired :=
    List.mem_filter.2 ⟨List.mem_of_find?_eq_some fa, by simp [launch, gone]⟩
  have same : a.id = y.id := State.team?_id fa
  have killed : ∃ b, (s.killLaunch lid).team? a.id = some b ∧ b.st = .retired := by
    refine foldl_reaches (f := fun (s : State) (t : Team) => s.killTeam t.id)
      (Q := fun s => (∃ b, s.team? a.id = some b ∧ b.launch = lid) ∧ ∃ l, s.launch? lid = some l)
      (P := fun s => ∃ b, s.team? a.id = some b ∧ b.st = .retired) ?_ ?_ ?_ _ _ member ⟨⟨a, ?_, launch⟩, _,
        State.launch?_modLaunch_self fl fun _ => rfl⟩
    · rintro s u ⟨⟨b, fb, mb⟩, l, fl⟩
      have kept := s.ends_killTeam (P := fun _ => True) u.id fun _ _ => trivial
      obtain ⟨c, fc, rc, -⟩ := kept.team_of fb
      obtain ⟨l', fl', -⟩ := kept.launch_of fl
      exact ⟨⟨c, fc, rc.launch.trans mb⟩, l', fl'⟩
    · rintro s ⟨⟨b, fb, mb⟩, l, fl⟩
      exact State.killTeam_st fb (mb.symm ▸ fl)
    · rintro s u ⟨b, fb, dead⟩
      obtain ⟨c, fc, rc, -⟩ := (s.ends_killTeam (P := fun _ => True) u.id fun _ _ => trivial).team_of fb
      exact ⟨c, fc, rc.retired dead⟩
    · rw [same]
      exact fa
  obtain ⟨b, fb, dead⟩ := killed
  rw [same, fy] at fb
  cases fb
  exact dead

/-! ## RESOLVED, KILL, END -/

section
variable {s : State} {lid seq : Nat} {l : Launch} {r : Report} {tm : Team} {g : Group} {x : Split}
  (up : s.pkg = .up) (fl : s.launch? lid = some l) (fr : s.report? lid seq false = some r)
include up fl fr

theorem exec_resolveResolved_runs (fx : s.splitAt? r.ref = some (tm, g, x)) (plain : r.eng = none)
    (held : x.hold = .fault seq) (more : x.only ≠ some 0) (free : l.suspended = false)
    (last : ∀ q ∈ l.reports, q.ref = r.ref → q.trapStop = false → q.seq = seq) :
    exec (.resolveResolved lid seq) s = .next (((s.dropReport lid seq).modSplit r.ref fun x =>
      if x.only.isNone then { x with words := 0 } else x).modSplit r.ref fun y => { y with hold := .run }) := by
  have dropped := State.dropReport_launch? fl seq
  have fx1 : (s.dropReport lid seq).splitAt? r.ref = some (tm, g, x) := fx
  have fx2 := State.splitAt?_modSplit fx1 (f := fun x => if x.only.isNone then { x with words := 0 } else x)
    fun y => by split <;> rfl
  change execResolveResolved lid seq s = _
  unfold execResolveResolved
  rw [if_neg (by simp [up]), fr]
  dsimp only
  rw [plain]
  dsimp only
  generalize again : (s.dropReport lid seq).modSplit r.ref _ = s2 at *
  have fl2 : s2.launch? lid = some { l with reports := l.reports.filter (·.seq ≠ seq) } := by rw [← again]; exact dropped
  rw [State.goOn_runs fl2 fx2 (n := seq) ?clear plain ?held ?more]
  · have fl3 : (s2.modSplit r.ref fun y => { y with hold := .run }).launch? lid = _ := fl2
    rw [State.resumeLaunch_of fl3 free]
  case clear =>
    intro q m same
    obtain ⟨m, ne⟩ := List.mem_filter.1 m
    cases trap : q.trapStop with
    | true => rfl
    | false => simp [last q m same trap] at ne
  case held => split <;> exact held
  case more => split <;> exact more

theorem exec_resolveKill_counts (ft : s.team? r.team = some tm) (fg : tm.group? r.grp = some g) (mine : tm.launch = lid)
    (items : r.level = 0) (plain : g.xp = none) :
    ∃ t l', exec (.resolveKill lid seq) s = .next t ∧ t.mem = s.mem ∧ t.launch? lid = some l' ∧
      l'.killed = l.killed + popCount (r.lanes &&& g.occ) ∧ ∀ q ∈ l'.reports, q.seq ≠ seq := by
  have dropped := State.dropReport_launch? fl seq
  have ft1 : (s.dropReport lid seq).team? r.team = some tm := ft
  obtain ⟨l2, fl2, mem2, killed, reports⟩ : ∃ l2, ((s.dropReport lid seq).kself tm r.level r.ref r.lanes r.fetch).launch? lid = some l2 ∧
      ((s.dropReport lid seq).kself tm r.level r.ref r.lanes r.fetch).mem = s.mem ∧
      l2.killed = l.killed + popCount (r.lanes &&& g.occ) ∧ l2.reports = l.reports.filter (·.seq ≠ seq) := by
    rw [State.kself, if_pos items, State.killLanes_of (r := r.ref) ft1 fg plain]
    split
    case isTrue none => exact ⟨_, dropped, rfl, by rw [none]; rfl, rfl⟩
    case isFalse =>
      refine ⟨Launch.tally { l with reports := l.reports.filter (·.seq ≠ seq) } s.now .killed (g.itemsOf (r.lanes &&& g.occ)),
        ?_, ?_, ?_, ?_⟩
      · rw [State.launch?_modGroup, State.countItems_launch?, if_pos mine.symm, dropped, Option.map_some]
        rfl
      · rw [State.modGroup_mem, State.countItems_eq]
        rfl
      · exact congrArg (l.killed + ·) (g.itemsOf_length _)
      · rfl
  change ∃ t l', execResolveKill lid seq s = .next t ∧ _
  unfold execResolveKill
  rw [if_neg (by simp [up]), fr]
  dsimp only
  rw [ft1]
  dsimp only
  generalize (s.dropReport lid seq).kself tm r.level r.ref r.lanes r.fetch = s2 at *
  have passed : ∀ t : State, t.launch? lid = some l2 → t.mem = s.mem →
      ∃ l', ((t.goOn lid r true).resumeLaunch lid).mem = s.mem ∧ ((t.goOn lid r true).resumeLaunch lid).launch? lid = some l' ∧
        l'.killed = l.killed + popCount (r.lanes &&& g.occ) ∧ ∀ q ∈ l'.reports, q.seq ≠ seq := by
    intro t ft mem
    have on : (t.goOn lid r true).launch? lid = some l2 := by rw [State.goOn_frame]; exact ft
    obtain ⟨l', fl', same⟩ := State.resumeLaunch_launch? on
    refine ⟨l', ?_, fl', by rw [same]; exact killed, fun q m => ?_⟩
    · rw [State.resumeLaunch_mem, State.goOn_frame]
      exact mem
    · rw [same] at m
      have m : q ∈ l2.reports := m
      rw [reports] at m
      simpa using (List.mem_filter.1 m).2
  split
  · exact ⟨_, _, rfl, (passed s2 fl2 mem2).choose_spec⟩
  · exact ⟨_, _, rfl, (passed (s2.modSplit r.ref fun x => { x with only := x.only.map (· &&& ~~~r.lanes) }) fl2 mem2).choose_spec⟩

theorem exec_resolveEnd_kills (once : (s.teams.map (·.id)).Nodup) :
    ∃ t l', exec (.resolveEnd lid seq) s = .next t ∧ t.launch? lid = some l' ∧ l'.killing = true ∧ l'.reports = [] ∧
      l'.suspended = false ∧ ∀ y ∈ t.teams, y.launch = lid → y.st = .retired := by
  obtain ⟨l', fl', counted, -⟩ := (s.ends_killLaunch lid).launch_of (State.launch?_modLaunch_self fl fun _ => rfl)
  refine ⟨s.killLaunch lid, l', ?_, fl', ?_, ?_, ?_, State.killLaunch_retires fl once⟩
  · change execResolveEnd lid seq s = _
    unfold execResolveEnd
    rw [if_neg (by simp [up]), fr]
  all_goals rw [counted.frame]

end

theorem exec_release_passes {s : State} {lid seq : Nat} {r : Report} {tm : Team} {g : Group} {x : Split} (up : s.pkg = .up)
    (fr : s.report? lid seq true = some r) (fx : s.splitAt? r.ref = some (tm, g, x)) (held : x.hold = .stop seq) :
    exec (.release lid seq) s = .next ((s.dropReport lid seq).passHeld r.ref 1) := by
  change execRelease lid seq s = _
  unfold execRelease
  rw [if_neg (by simp [up]), fr]
  dsimp only
  rw [show (s.dropReport lid seq).splitAt? r.ref = _ from fx]
  dsimp only
  rw [if_pos held]

end Sys2Proof.Machine
end

section
/-! PROOFS. Pre-emption (26 R337 to R342): requests, the end of the notice interval, holding in place and saving. -/

namespace Sys2Proof.Machine

/-! ## Folds over different teams -/

/-- What the step of one element brings about, of elements with keys of their own, the fold brings about. -/
theorem foldl_once {α σ : Type} {f : σ → α → σ} {key : α → Nat} {a : α} {P Q : σ → Prop}
    (before : ∀ s b, key b ≠ key a → P s → P (f s b)) (does : ∀ s, P s → Q (f s a))
    (after : ∀ s b, key b ≠ key a → Q s → Q (f s b)) {l : List α} (once : (l.map key).Nodup) (m : a ∈ l) {s : σ} (p : P s) :
    Q (l.foldl f s) := by
  induction l generalizing s with
  | nil => cases m
  | cons b l ih =>
    obtain ⟨apart, once⟩ := List.nodup_cons.1 once
    rcases List.mem_cons.1 m with rfl | m
    · have rest : ∀ b ∈ l, key b ≠ key a := fun b mb same => apart (same ▸ List.mem_map_of_mem mb)
      exact List.foldlRecOn (motive := Q) l f (does s p) fun s q b mb => after s b (rest b mb) q
    · exact ih once m (before s b (fun same => apart (same ▸ List.mem_map_of_mem m)) p)

/-- What no step of a fold over other elements changes, the fold keeps. -/
theorem foldl_apart {α σ : Type} {f : σ → α → σ} {key : α → Nat} {n : Nat} {P : σ → Prop}
    (step : ∀ s b, key b ≠ n → P s → P (f s b)) {l : List α} (apart : ∀ b ∈ l, key b ≠ n) {s : σ} (p : P s) : P (l.foldl f s) :=
  List.foldlRecOn (motive := P) l f p fun s q b mb => step s b (apart b mb) q

theorem State.modTeam_team?_ne (s : State) {t k : Nat} (ne : t ≠ k) {f : Team → Team} (id : ∀ x, (f x).id = x.id) :
    (s.modTeam t f).team? k = s.team? k := by
  rw [State.team?_modTeam s t k f id, if_neg (Ne.symm ne)]

theorem State.modTeam_team?_self {s : State} {k : Nat} {tm : Team} (found : s.team? k = some tm) {f : Team → Team}
    (id : ∀ x, (f x).id = x.id) : (s.modTeam k f).team? k = some (f tm) := by
  rw [State.team?_modTeam s k k f id, if_pos rfl, found, Option.map_some]

/-- Some of the teams have numbers of their own too. -/
theorem State.nodup_ids_filter {s : State} (once : (s.teams.map (·.id)).Nodup) (p : Team → Bool) :
    ((s.teams.filter p).map (·.id)).Nodup := once.sublist (List.filter_sublist.map _)

/-! ## PREEMPT and RESUME -/

theorem State.targets_sublist (s : State) (c : PreTgt) : (s.targets c).Sublist s.teams := by
  cases c with
  | launch l => exact List.filter_sublist
  | team i =>
    rw [State.targets]
    split
    · exact List.nil_sublist _
    · exact List.filter_sublist.trans List.filter_sublist

theorem State.pause_team? (s : State) (c : PreTgt) (b : Bool) (k : Nat) : (s.pause c b).team? k = s.team? k := by
  cases c <;> rfl

theorem State.pause_mem (s : State) (c : PreTgt) (b : Bool) : (s.pause c b).mem = s.mem := by
  cases c <;> rfl

/-- A running team after a request of system software, or one that is stopped already. -/
def Team.preempted (now : Nat) (t : Team) : Team :=
  let t := if t.st = .running then
      { t with st := .notice now, why := some .system, groups := t.groups.map fun (g : Group) => { g with yielded := false } }
    else t
  if t.why = some .priority then { t with why := some .system } else t

theorem Team.preempted_id (now : Nat) (t : Team) : (t.preempted now).id = t.id := by
  unfold Team.preempted
  dsimp only
  split <;> split <;> rfl

theorem Team.preempted_running {now : Nat} {t : Team} (runs : t.st = .running) :
    (t.preempted now).st = .notice now ∧ (t.preempted now).why = some .system := by
  unfold Team.preempted
  dsimp only
  rw [if_pos runs]
  exact ⟨rfl, rfl⟩

theorem Team.preempted_stopped {now : Nat} {t : Team} (stopped : t.st ≠ .running) : (t.preempted now).st = t.st := by
  unfold Team.preempted
  dsimp only
  rw [if_neg stopped]
  split <;> rfl

theorem State.preemptTeam_eq (s : State) (t : Team) : s.preemptTeam t = s.modTeam t.id (·.preempted s.now) := by
  unfold State.preemptTeam State.request Team.preempted
  simp only [State.modTeam, List.map_map]
  congr 1
  refine List.map_congr_left fun x _ => ?_
  simp only [Function.comp]
  by_cases same : x.id = t.id
  · by_cases runs : x.st = .running
    · simp [same, runs]
    · simp [same, runs]
  · simp [same]

theorem Team.resumed_id (t : Team) : t.resumed.id = t.id := by
  unfold Team.resumed
  split
  · rfl
  · split <;> rfl

section
variable {s : State} {c : PreTgt} (up : s.pkg = .up) (once : (s.teams.map (·.id)).Nodup)
include up once

theorem exec_preempt_requests : ∃ t, exec (.preempt c) s = .next t ∧ t.mem = s.mem ∧ ∀ tm ∈ s.teams,
    (tm ∉ s.targets c → t.team? tm.id = some tm) ∧
    (tm ∈ s.targets c → ∃ y, t.team? tm.id = some y ∧
      (tm.st = .running → y.st = .notice s.now ∧ y.why = some .system) ∧ (tm.st ≠ .running → y.st = tm.st)) := by
  refine ⟨(s.targets c).foldl State.preemptTeam (s.pause c true), ?_, ?_, fun tm m => ⟨fun out => ?_, fun target => ?_⟩⟩
  · change execPreempt c s = _
    unfold execPreempt
    rw [if_neg (by simp [up])]
  · refine foldl_keeps (P := fun t : State => t.mem = s.mem) (fun t x e => ?_) _ _ (s.pause_mem c true)
    rw [State.preemptTeam_eq]
    exact e
  · refine foldl_apart (key := Team.id) (n := tm.id) (P := fun t : State => t.team? tm.id = some tm) (fun t x ne e => ?_) (fun x mx same => ?_)
      ((s.pause_team? c true _).trans (State.team?_of_mem once m))
    · rw [State.preemptTeam_eq, State.modTeam_team?_ne _ ne (Team.preempted_id _)]
      exact e
    · exact out ((List.inj_on_of_nodup_map once ((s.targets_sublist c).subset mx) m same) ▸ mx)
  · refine foldl_once (key := Team.id) (P := fun t : State => t.team? tm.id = some tm ∧ t.now = s.now)
      (Q := fun t : State => ∃ y, t.team? tm.id = some y ∧ (tm.st = .running → y.st = .notice s.now ∧ y.why = some .system) ∧
        (tm.st ≠ .running → y.st = tm.st)) (fun t x ne e => ?_) (fun t e => ?_) (fun t x ne e => ?_)
      (once.sublist ((s.targets_sublist c).map _)) target ⟨(s.pause_team? c true _).trans (State.team?_of_mem once m), by cases c <;> rfl⟩
    · rw [State.preemptTeam_eq, State.modTeam_team?_ne _ ne (Team.preempted_id _)]
      exact e
    · obtain ⟨found, now⟩ := e
      refine ⟨tm.preempted s.now, ?_, Team.preempted_running, Team.preempted_stopped⟩
      rw [State.preemptTeam_eq, State.modTeam_team?_self found (Team.preempted_id _), now]
    · rw [State.preemptTeam_eq, State.modTeam_team?_ne _ ne (Team.preempted_id _)]
      exact e

theorem exec_resume_withdraws : ∃ t, exec (.resume c) s = .next t ∧ t.mem = s.mem ∧ ∀ tm ∈ s.teams,
    (tm ∉ s.targets c ∨ tm.why = some .grid → t.team? tm.id = some tm) ∧
    (tm ∈ s.targets c → t.team? tm.id = some tm.resumed) := by
  refine ⟨(s.targets c).foldl (fun s t => s.modTeam t.id Team.resumed) (s.pause c false), ?_, ?_, fun tm m => ?_⟩
  · change execResume c s = _
    unfold execResume
    rw [if_neg (by simp [up])]
  · exact foldl_keeps (P := fun t : State => t.mem = s.mem) (f := fun (s : State) (t : Team) => s.modTeam t.id Team.resumed)
      (fun t x e => e) _ _ (s.pause_mem c false)
  · have start : (s.pause c false).team? tm.id = some tm := (s.pause_team? c false _).trans (State.team?_of_mem once m)
    have aside : ∀ (o : Option Team) (t : State) (x : Team), x.id ≠ tm.id → t.team? tm.id = o →
        (t.modTeam x.id Team.resumed).team? tm.id = o := fun o t x ne e =>
      (State.modTeam_team?_ne _ ne Team.resumed_id).trans e
    have goes : tm ∈ s.targets c → ((s.targets c).foldl (fun s t => s.modTeam t.id Team.resumed) (s.pause c false)).team? tm.id =
        some tm.resumed := fun target =>
      foldl_once (key := Team.id) (P := fun t : State => t.team? tm.id = some tm) (aside _)
        (fun t e => State.modTeam_team?_self e Team.resumed_id) (aside _) (once.sublist ((s.targets_sublist c).map _)) target start
    have stays : tm ∉ s.targets c → ((s.targets c).foldl (fun s t => s.modTeam t.id Team.resumed) (s.pause c false)).team? tm.id =
        some tm := fun out =>
      foldl_apart (key := Team.id) (n := tm.id) (P := fun t : State => t.team? tm.id = some tm) (aside _)
        (fun x mx same => out ((List.inj_on_of_nodup_map once ((s.targets_sublist c).subset mx) m same) ▸ mx)) start
    refine ⟨fun why => ?_, goes⟩
    by_cases target : tm ∈ s.targets c
    · rw [goes target, Team.resumed, if_pos (why.resolve_left (· target))]
    · exact stays target

end

/-! ## Registers of a stopped group -/

/-- What lands depends on the registers and on what is in flight alone. -/
theorem Group.file_setFile_congr {a b : Group} (same : ∀ k, a.file k = b.file k) (l : Loc) (m v : DWord) (k : Loc) :
    (a.setFile l m v).file k = (b.setFile l m v).file k := by
  by_cases zero : l = .k 0
  · subst zero
    rw [Group.setFile_k0, Group.setFile_k0, same]
  by_cases here : k = l
  · subst here
    rw [Group.file_setFile _ _ _ _ zero, Group.file_setFile _ _ _ _ zero, same]
  · rw [Group.file_setFile_ne _ _ _ here, Group.file_setFile_ne _ _ _ here, same]

theorem Group.file_landSplits_congr {a b : Group} (same : ∀ k, a.file k = b.file k) (pend : a.pend = b.pend) (sps : List Nat) (k : Loc) :
    (a.landSplits sps).file k = (b.landSplits sps).file k := by
  have fold : ∀ (p : Pend → Bool) (es : List Pend) (a b : Group), (∀ k, a.file k = b.file k) →
      ∀ k, (es.foldl (fun g e => if p e then g.land e else g) a).file k = (es.foldl (fun g e => if p e then g.land e else g) b).file k := by
    intro p es
    induction es with
    | nil => exact fun _ _ same => same
    | cons e es ih =>
      refine fun a b same => ih _ _ ?_
      dsimp only
      split
      · exact Group.file_setFile_congr same e.loc e.mask e.new
      · exact same
  have landed : ∀ (g : Group), (g.landSplits sps).file k = (g.pend.foldl (fun (y : Group) e =>
      if (sps.contains e.split || g.pend.any fun x => sps.contains x.split && x.loc == e.loc && !x.landed) && !e.landed then
        y.land e else y) g).file k := fun g => by cases k <;> rfl
  rw [landed, landed, pend]
  exact fold _ _ a b same k

/-- The registers of a group. -/
def Group.regs (g : Group) : Map Word × Map DWord × Map Word × Map (BitVec 5) × Map Word :=
  (g.vregs, g.sregs, g.kregs, g.flg, g.tiles)

theorem Group.file_of_regs {a b : Group} (same : a.regs = b.regs) (k : Loc) : a.file k = b.file k := by
  simp only [Group.regs, Prod.mk.injEq] at same
  obtain ⟨v, r, m, f, t⟩ := same
  cases k <;> simp only [Group.file, v, r, m, f, t]

/-- Neither registers nor what is in flight to them change. -/
def Group.Still (g g' : Group) : Prop := g'.pend = g.pend ∧ g'.regs = g.regs

namespace Group.Still

theorem refl (g : Group) : g.Still g := ⟨rfl, rfl⟩

theorem trans {a b c : Group} (ab : a.Still b) (bc : b.Still c) : a.Still c := ⟨bc.1.trans ab.1, bc.2.trans ab.2⟩

end Group.Still

theorem Group.still_landSplits {g : Group} (none : g.pend = []) (sps : List Nat) : g.Still (g.landSplits sps) := by
  rw [Group.landSplits_of_none none]
  exact ⟨rfl, rfl⟩

theorem Group.still_promote (g : Group) (j : Nat) (e : Option Nat) : g.Still (g.promote j e) := by
  unfold Group.promote
  split
  · exact .refl g
  · dsimp only
    split
    · exact .refl g
    · exact ⟨rfl, rfl⟩

theorem Group.still_fuse (g : Group) (now j : Nat) : g.Still (g.fuse now j) := by
  unfold Group.fuse
  split
  · exact .refl g
  · split
    · exact .refl g
    · exact ⟨rfl, rfl⟩

theorem Group.still_arrive {g : Group} (none : g.pend = []) (now : Nat) (sp : Split) : g.Still (g.arrive now sp) := by
  unfold Group.arrive
  split
  · exact .refl g
  · have table : ∀ (y : Group) (xs : List Split) (rs : List Join), y.Still { y.wake with splits := xs, joins := rs } := fun _ _ _ => ⟨rfl, rfl⟩
    exact (Group.still_landSplits none _).trans ((table ..).trans ((Group.still_promote ..).trans (Group.still_fuse ..)))

/-- With nothing in flight, arrivals change no register. -/
theorem Group.still_settle (now fuel : Nat) {g : Group} (none : g.pend = []) : g.Still (g.settle now fuel) := by
  induction fuel generalizing g with
  | zero => exact .refl g
  | succ n ih =>
    unfold Group.settle
    split
    · exact .refl g
    · have first := Group.still_arrive none now ‹Split›
      exact first.trans (ih (first.1.trans none))

/-- Landing what every split has in flight leaves nothing, when each result is of a split of the table. -/
theorem Group.landSplits_pend {g : Group} (owned : ∀ e ∈ g.pend, e.split ∈ g.splits.map (·.id)) :
    (g.landSplits (g.splits.map (·.id))).pend = [] := by
  have none : (g.pend.filter fun e => !(g.splits.map (·.id)).contains e.split) = [] := by
    refine List.filter_eq_nil_iff.2 fun e m => ?_
    simpa using owned e m
  unfold Group.landSplits
  dsimp only
  rw [none, List.map_nil]

/-- A stopped group has its results landed. -/
theorem Group.stopped_landed {g : Group} (now : Nat) (owned : ∀ e ∈ g.pend, e.split ∈ g.splits.map (·.id)) :
    (g.stopped now).pend = [] ∧ ∀ k, (g.stopped now).file k = (g.landSplits (g.splits.map (·.id))).file k := by
  have none := Group.landSplits_pend owned
  have settled : ∀ (l y : Group), y.pend = [] → y.regs = l.regs → (y.settle now 64).pend = [] ∧ ∀ k, (y.settle now 64).file k = l.file k := by
    intro l y empty same
    obtain ⟨pend, regs⟩ := Group.still_settle now 64 empty
    exact ⟨pend.trans empty, fun k => Group.file_of_regs (regs.trans same) k⟩
  unfold Group.stopped
  exact settled _ _ none rfl

theorem Group.stopped_grp (g : Group) (now : Nat) : (g.stopped now).grp = g.grp := by
  unfold Group.stopped
  dsimp only
  rw [Group.settle_grp]
  exact g.landSplits_grp _

/-! ## Stopping a team -/

/-- A group whose arrivals at a matrix quartet have been withdrawn. -/
def Group.withdrawn (g : Group) (as : List (Nat × Nat × QuartArr)) : Group :=
  (as.filter (·.2.2.grp = g.grp)).foldl (fun g a => match a.2.2.op with
    | some o => g.uncount o
    | none => g) g

theorem Group.withdrawn_frame (g : Group) (as : List (Nat × Nat × QuartArr)) :
    g.withdrawn as = { g with ops := (g.withdrawn as).ops, ctrs := (g.withdrawn as).ctrs, ctot := (g.withdrawn as).ctot } := by
  unfold Group.withdrawn
  generalize as.filter _ = bs
  refine foldl_keeps (P := fun y : Group => y = { g with ops := y.ops, ctrs := y.ctrs, ctot := y.ctot }) (fun y a e => ?_) bs g rfl
  split
  · rw [e]
    rfl
  · exact e

/-- A stopped team. -/
def Team.stopped (now : Nat) (tm : Team) : Team :=
  { tm with st := .held, quartArr := [], spanArr := [], groups := tm.groups.map fun g => (g.withdrawn tm.quartArr).stopped now }

theorem Team.stopped_id (now : Nat) (tm : Team) : (tm.stopped now).id = tm.id := rfl

theorem State.stopTeam_eq (s : State) (t : Nat) : s.stopTeam t = s.modTeam t (·.stopped s.now) := rfl

/-- Each group of a stopped team has its results landed, of splits of its table. -/
theorem Team.stopped_group {tm : Team} {grp : Nat} {g : Group} (now : Nat) (found : tm.group? grp = some g)
    (owned : ∀ e ∈ g.pend, e.split ∈ g.splits.map (·.id)) : ∃ g', (tm.stopped now).group? grp = some g' ∧ g'.pend = [] ∧
      ∀ k, g'.file k = (g.landSplits (g.splits.map (·.id))).file k := by
  have frame := g.withdrawn_frame tm.quartArr
  have pend : (g.withdrawn tm.quartArr).pend = g.pend := by rw [frame]
  have splits : (g.withdrawn tm.quartArr).splits = g.splits := by rw [frame]
  have regs : (g.withdrawn tm.quartArr).regs = g.regs := by rw [frame]; rfl
  refine ⟨(g.withdrawn tm.quartArr).stopped now, ?_, ?_⟩
  · rw [Team.group?_map (f := fun g => (g.withdrawn tm.quartArr).stopped now) rfl fun g => ?_, found, Option.map_some]
    rw [Group.stopped_grp, g.withdrawn_frame]
  · obtain ⟨empty, files⟩ := Group.stopped_landed (g := g.withdrawn tm.quartArr) now (by rw [pend, splits]; exact owned)
    refine ⟨empty, fun k => (files k).trans ?_⟩
    rw [splits]
    exact Group.file_landSplits_congr (Group.file_of_regs regs) pend _ k

/-- The teams of a cluster that have not retired. -/
def State.clusterOf (s : State) (tm : Team) : List Team := (s.mates tm).filter (·.st != .retired)

theorem State.clusterOf_sublist (s : State) (tm : Team) : (s.clusterOf tm).Sublist s.teams :=
  List.filter_sublist.trans List.filter_sublist

/-- The notice interval of a team is over (26 R338). -/
def State.noticeOver (s : State) (t : Team) : Bool := match t.st with
  | .notice since => t.why == some .grid || decide (since + 1024 ≤ s.now) || t.groups.all fun g => !g.live || g.yielded
  | _ => false

section
variable {s : State} {k : Nat} {tm : Team} (ft : s.team? k = some tm)
include ft

theorem exec_preemptionNoticeEnd_stops (once : (s.teams.map (·.id)).Nodup)
    (ended : ∀ x ∈ s.clusterOf tm, ∃ n, x.st = .notice n ∧
      (x.why = some .grid ∨ n + 1024 ≤ s.now ∨ ∀ g ∈ x.groups, g.live = true → g.yielded = true)) :
    ∃ t, exec (.preemptionNoticeEnd k) s = .next t ∧ t.mem = s.mem ∧
      ∀ x ∈ s.clusterOf tm, t.team? x.id = some (x.stopped s.now) := by
  have all : (s.clusterOf tm).all s.noticeOver = true := by
    refine List.all_eq_true.2 fun x m => ?_
    obtain ⟨n, st, over_⟩ := ended x m
    unfold State.noticeOver
    rw [st]
    simp only [Bool.or_eq_true, beq_iff_eq, decide_eq_true_eq, List.all_eq_true]
    rcases over_ with grid | late | yields
    · exact .inl (.inl grid)
    · exact .inl (.inr late)
    · refine .inr fun g mg => ?_
      cases live : g.live with
      | false => exact .inl rfl
      | true => exact .inr (yields g mg live)
  refine ⟨(s.clusterOf tm).foldl (fun s t => s.stopTeam t.id) s, ?_, foldl_keeps (P := fun t : State => t.mem = s.mem)
    (f := fun (s : State) (t : Team) => s.stopTeam t.id) (fun t x e => e) _ _ rfl, fun x m => ?_⟩
  · change execPreemptionNoticeEnd k s = _
    unfold execPreemptionNoticeEnd
    rw [ft]
    exact if_pos all
  · refine foldl_once (key := Team.id) (P := fun t : State => t.team? x.id = some x ∧ t.now = s.now)
      (Q := fun t : State => t.team? x.id = some (x.stopped s.now)) (fun t y ne e => ?_) (fun t e => ?_) (fun t y ne e => ?_)
      (once.sublist ((s.clusterOf_sublist tm).map _)) m ⟨State.team?_of_mem once ((s.clusterOf_sublist tm).subset m), rfl⟩
    · exact ⟨(State.modTeam_team?_ne t ne (Team.stopped_id t.now)).trans e.1, e.2⟩
    · rw [State.stopTeam_eq, State.modTeam_team?_self e.1 (Team.stopped_id t.now), e.2]
    · exact (State.modTeam_team?_ne t ne (Team.stopped_id t.now)).trans e

end

/-! ## Holding in place and saving -/

/-- Nothing but bytes, cached or at home, and the cores' caches changes. -/
def State.OnlyCaches (s t : State) : Prop :=
  t = { s with mem := t.mem, memBad := t.memBad, dies := t.dies, cores := t.cores, hostOut := t.hostOut }

namespace State.OnlyCaches

theorem refl (s : State) : s.OnlyCaches s := rfl

theorem trans {a b c : State} (ab : a.OnlyCaches b) (bc : b.OnlyCaches c) : a.OnlyCaches c := by
  unfold State.OnlyCaches at *
  rw [bc, ab]

theorem foldl {α : Type} {f : State → α → State} (step : ∀ (s : State) a, s.OnlyCaches (f s a)) (l : List α) (s : State) :
    s.OnlyCaches (l.foldl f s) :=
  foldl_keeps (P := s.OnlyCaches) (fun t a e => e.trans (step t a)) l s (.refl s)

theorem of_homeWritten {s t : State} (w : s.HomeWritten t) : s.OnlyCaches t := by
  unfold State.OnlyCaches
  rw [w.frame]

section
variable {s t : State} (o : s.OnlyCaches t)
include o

theorem teams : t.teams = s.teams := by rw [o]
theorem launches : t.launches = s.launches := by rw [o]
theorem now : t.now = s.now := by rw [o]
theorem ctxs : t.ctxs = s.ctxs := by rw [o]
theorem team? (k : Nat) : t.team? k = s.team? k := by unfold State.team?; rw [o.teams]
theorem launch? (k : Nat) : t.launch? k = s.launch? k := by unfold State.launch?; rw [o.launches]

end

end State.OnlyCaches

theorem State.onlyCaches_dieLine (s : State) (d k : Nat) (m : BitVec 64) (x : BitVec 512) : s.OnlyCaches (s.dieLine d k m x) := by
  unfold State.dieLine
  split
  · exact .of_homeWritten (s.homeWritten_homeLine ..)
  · dsimp only
    refine State.OnlyCaches.trans (b := if (lineOf (s.die d).dc k).dirty = 0 ∧ 65536 ≤ lineCount (s.die d).fifo then
      (match oldest (s.die d).fifo with | some o => s.wbDie d o | Option.none => s) else s) ?_ rfl
    split
    · split
      · exact .of_homeWritten (s.homeWritten_wbDie ..)
      · exact .refl s
    · exact .refl s

theorem State.onlyCaches_wbL1 (s : State) (c k : Nat) : s.OnlyCaches (s.wbL1 c k) := by
  unfold State.wbL1
  dsimp only
  split
  · exact .refl s
  · exact (s.onlyCaches_dieLine ..).trans rfl

theorem State.onlyCaches_release (s : State) (c : Nat) (sc : Scope) : s.OnlyCaches (s.release c sc) := by
  have core : s.OnlyCaches (s.drainCore c) := .foldl (fun s e => by
    split
    · exact s.onlyCaches_wbL1 ..
    · exact .refl s) _ s
  have die : s.OnlyCaches ((s.drainCore c).drainDie (dieOf c)) := core.trans (.foldl (fun s e => by
    split
    · exact .of_homeWritten (s.homeWritten_wbDie ..)
    · exact .refl s) _ _)
  cases sc with
  | grp => exact .refl s
  | team => exact core
  | clus => exact core
  | pkg => exact die
  | sys => exact die

theorem State.onlyCaches_acquire (s : State) (c : Nat) (sc : Scope) : s.OnlyCaches (s.acquire c sc) := by
  cases sc <;> rfl

/-- A team put in the place of the one of its number. -/
theorem State.modTeam_team?_const {s : State} {k : Nat} {tm c : Team} (found : s.team? k = some tm) (same : c.id = k) :
    (s.modTeam k fun _ => c).team? k = some c := by
  have keyed : (s.modTeam k fun _ => c) = s.modTeam k fun x => { c with id := x.id } := by
    simp only [State.modTeam]
    congr 1
    refine List.map_congr_left fun x _ => ?_
    split
    case isTrue e => rw [e, ← same]
    case isFalse => rfl
  rw [keyed, State.modTeam_team?_self (f := fun x : Team => { c with id := x.id }) found fun _ => rfl, State.team?_id found, ← same]

/-- A team as its record in a slot keeps it. -/
def Team.savedIn (tm : Team) (l : Launch) (slot : Nat) : Team :=
  let saved := { tm with st := .saved slot, recordOk := true, record := [] }
  { saved with record := recordBytes l saved }

/-- The lowest slot that is not in use. -/
theorem State.slotsFree_headD (s : State) (l : Launch) : (s.slotsFree l 1).headD 0 ∉ l.slots := by
  have some_ : (List.range (l.slots.length + 1)).filter (fun i => !l.slots.contains i) ≠ [] := by
    intro none
    have all : List.range (l.slots.length + 1) ⊆ l.slots := fun i mi => by
      have := List.filter_eq_nil_iff.1 none i mi
      simpa using this
    have := (List.subperm_of_subset List.nodup_range all).length_le
    simp at this
  unfold State.slotsFree
  cases free : (List.range (l.slots.length + 1)).filter fun i => !l.slots.contains i with
  | nil => exact absurd free some_
  | cons a as =>
    have out := List.mem_filter.1 (free ▸ List.mem_cons_self : a ∈ (List.range (l.slots.length + 1)).filter fun i => !l.slots.contains i)
    simpa using out.2

section
variable {s : State} {k : Nat} {tm : Team} (ft : s.team? k = some tm)
include ft

/-- A team held in place: of the teams it alone changes, and no launch. -/
theorem State.parkTeam_team? : (s.parkTeam k).team? k = some { tm with st := .parked, scrRace := [] } := by
  unfold State.parkTeam
  rw [ft]
  refine State.modTeam_team?_self (f := fun tm => { tm with st := .parked, scrRace := [] }) ?_ fun _ => rfl
  exact ((s.onlyCaches_release tm.core .sys).team? k).trans ft

theorem State.parkTeam_launch? (i : Nat) : (s.parkTeam k).launch? i = s.launch? i := by
  unfold State.parkTeam
  rw [ft]
  exact (s.onlyCaches_release tm.core .sys).launch? i

/-- A saved team stands in its slot with its state, and its launch's slots hold that one too. -/
theorem State.saveTeam_found {l : Launch} (fl : s.launch? tm.launch = some l) (slot : Nat) :
    (s.saveTeam k slot).team? k = some (tm.savedIn l slot) ∧
    (s.saveTeam k slot).launch? tm.launch = some { l with slots := l.slots ++ [slot] } := by
  unfold State.saveTeam
  rw [ft]
  dsimp only
  rw [fl]
  have written := s.homeWritten_devWrite l.ctx (s.slotAddr l slot) (tm.savedIn l slot).record
  refine ⟨?_, State.launch?_modLaunch_self ((written.launch? _).trans fl) fun _ => rfl⟩
  exact State.modTeam_team?_const (c := tm.savedIn l slot) ((written.team? k).trans ft)
    (show tm.id = k from State.team?_id ft)

/-- A team that is held or held in place is not stopped again. -/
theorem State.clusterOf_not_over (stopped : tm.st = .held ∨ tm.st = .parked) : (s.clusterOf tm).all s.noticeOver = false := by
  have mine : tm ∈ s.clusterOf tm := by
    refine List.mem_filter.2 ⟨List.mem_filter.2 ⟨List.mem_of_find?_eq_some ft, by simp⟩, ?_⟩
    rcases stopped with st | st <;> rw [st] <;> rfl
  refine List.all_eq_false.2 ⟨tm, mine, ?_⟩
  rcases stopped with st | st <;> simp [State.noticeOver, st]

/-- A drained team is held in place when no slot is free. -/
theorem exec_preemptionNoticeEnd_parks {l : Launch} (fl : s.launch? tm.launch = some l) (held : tm.st = .held)
    (drained : s.drained tm = true) (full : (s.parkTeam k).freeSlots l = 0) :
    exec (.preemptionNoticeEnd k) s = .next (s.parkTeam k) := by
  have drains : (tm.st == .held && s.drained tm) = true := by rw [held, drained]; rfl
  change execPreemptionNoticeEnd k s = _
  unfold execPreemptionNoticeEnd
  rw [ft]
  refine (if_neg fun all => Bool.noConfusion ((State.clusterOf_not_over ft (.inl held)).symm.trans all)).trans ?_
  rw [if_pos drains]
  dsimp only
  rw [State.parkTeam_team? ft, (State.parkTeam_launch? ft _).trans fl]
  exact if_neg fun free => by omega

/-- A team held in place, now or before, is saved into a free slot. -/
theorem exec_preemptionNoticeEnd_saves {l : Launch} (fl : s.launch? tm.launch = some l)
    (ready : tm.st = .held ∧ s.drained tm = true ∧ 1 ≤ (s.parkTeam k).freeSlots l ∨ tm.st = .parked ∧ 1 ≤ s.freeSlots l) :
    ∃ t y slot, exec (.preemptionNoticeEnd k) s = .next t ∧ t.team? k = some y ∧ y.st = .saved slot ∧ y.groups = tm.groups ∧
      y.scratch = tm.scratch ∧ y.tags = tm.tags ∧ y.bars = tm.bars ∧ slot ∉ l.slots ∧
      t.launch? tm.launch = some { l with slots := l.slots ++ [slot] } := by
  have ended : ¬ (s.clusterOf tm).all s.noticeOver = true := fun all =>
    Bool.noConfusion ((State.clusterOf_not_over ft (ready.imp And.left And.left)).symm.trans all)
  change ∃ t y slot, execPreemptionNoticeEnd k s = .next t ∧ _
  unfold execPreemptionNoticeEnd
  rw [ft]
  refine Exists.imp (fun t => Exists.imp fun y => Exists.imp fun slot => And.imp_left (if_neg ended).trans) ?_
  dsimp only
  rcases ready with ⟨held, drained, free⟩ | ⟨parked, free⟩
  · have drains : (tm.st == .held && s.drained tm) = true := by rw [held, drained]; rfl
    have ft' := State.parkTeam_team? ft
    have fl' := (State.parkTeam_launch? ft tm.launch).trans fl
    rw [if_pos drains, ft', fl']
    dsimp only
    rw [if_pos ⟨rfl, free⟩]
    obtain ⟨saved, slots⟩ := State.saveTeam_found ft' fl' (((s.parkTeam k).slotsFree l 1).headD 0)
    exact ⟨_, _, _, rfl, saved, rfl, rfl, rfl, rfl, rfl, State.slotsFree_headD _ l, slots⟩
  · have stays : (tm.st == .held && s.drained tm) = false := by rw [parked]; rfl
    rw [stays]
    simp only [Bool.false_eq_true, if_false]
    rw [ft, fl]
    dsimp only
    rw [if_pos ⟨parked, free⟩]
    obtain ⟨saved, slots⟩ := State.saveTeam_found ft fl ((s.slotsFree l 1).headD 0)
    exact ⟨_, _, _, rfl, saved, rfl, rfl, rfl, rfl, rfl, State.slotsFree_headD _ l, slots⟩

end

end Sys2Proof.Machine
end

section
/-! PROOFS. Resumption (26 R343): a team that goes on keeps its registers, and what it reissues is its own. -/

namespace Sys2Proof.Machine

/-! ## Reissuing -/

def Group.SameRegs (g g' : Group) : Prop := g'.regs = g.regs

theorem Group.SameRegs.refl (g : Group) : g.SameRegs g := rfl

theorem Group.SameRegs.trans {a b c : Group} (ab : a.SameRegs b) (bc : b.SameRegs c) : a.SameRegs c := Eq.trans bc ab

/-- A team whose operations and scratch may have changed. -/
structure Team.Reissued (a b : Team) : Prop where
  frame : b = { a with groups := b.groups, scratch := b.scratch, scrBad := b.scrBad }
  group : ∀ i, Option.Rel Group.SameRegs (a.group? i) (b.group? i)

/-- One team has reissued operations. -/
structure State.Reissued (t : Nat) (s u : State) : Prop where
  frame : u = { s with teams := u.teams }
  other : ∀ k, k ≠ t → u.team? k = s.team? k
  own : Option.Rel Team.Reissued (s.team? t) (u.team? t)

theorem Team.Reissued.refl (a : Team) : a.Reissued a := ⟨rfl, fun _ => rel_refl .refl _⟩

theorem Team.Reissued.trans {a b c : Team} (ab : a.Reissued b) (bc : b.Reissued c) : a.Reissued c where
  frame := by rw [bc.frame, ab.frame]
  group i := rel_trans (fun _ _ _ => .trans) (ab.group i) (bc.group i)

theorem Team.Reissued.id_eq {a b : Team} (r : a.Reissued b) : b.id = a.id := by rw [r.frame]

theorem Team.Reissued.modGroup (a : Team) (gi : Nat) {f : Group → Group} (grp : ∀ g, (f g).grp = g.grp) (regs : ∀ g, (f g).regs = g.regs) :
    a.Reissued (a.modGroup gi f) := by
  refine ⟨rfl, fun i => ?_⟩
  rw [Team.group?_modGroup a gi i f grp]
  split
  · exact rel_map regs _
  · exact rel_refl .refl _

namespace State.Reissued

variable {t : Nat}

theorem refl (s : State) : s.Reissued t s := ⟨rfl, fun _ _ => rfl, rel_refl Team.Reissued.refl _⟩

theorem trans {a b c : State} (ab : a.Reissued t b) (bc : b.Reissued t c) : a.Reissued t c where
  frame := by rw [bc.frame, ab.frame]
  other k ne := (bc.other k ne).trans (ab.other k ne)
  own := rel_trans (r := Team.Reissued) (q := Team.Reissued) (fun _ _ _ => .trans) ab.own bc.own

theorem modTeam (s : State) {f : Team → Team} (h : ∀ a : Team, a.Reissued (f a)) : s.Reissued t (s.modTeam t f) where
  frame := rfl
  other k ne := State.modTeam_team?_ne s (Ne.symm ne) fun a => (h a).id_eq
  own := by
    rw [State.team?_modTeam s t t f fun a => (h a).id_eq, if_pos rfl]
    exact rel_map h _

theorem modGroup (s : State) (gi : Nat) {f : Group → Group} (grp : ∀ g, (f g).grp = g.grp) (regs : ∀ g, (f g).regs = g.regs) :
    s.Reissued t (s.modGroup t gi f) := .modTeam s fun a => .modGroup a gi grp regs

theorem foldl {α : Type} {f : State → α → State} (step : ∀ (s : State) a, s.Reissued t (f s a)) (l : List α) (s : State) :
    s.Reissued t (l.foldl f s) :=
  foldl_keeps (P := s.Reissued t) (fun u a e => e.trans (step u a)) l s (.refl s)

end State.Reissued

theorem State.reissued_keepFault (s : State) (t gi : Nat) (f : EFault) : s.Reissued t (s.keepFault t gi f) :=
  .modGroup s gi (fun g => by split <;> rfl) fun g => by split <;> rfl

/-- An operation that ends with a fault changes no barrier. -/
theorem State.reissued_endEngine (s : State) (t gi : Nat) (o : Op) {fs : List EFault} (some_ : fs ≠ []) :
    s.Reissued t (s.endEngine t gi o fs) := by
  unfold State.endEngine
  rw [if_neg (by simpa using some_)]
  have kept : s.Reissued t (fs.foldl (fun s f => s.keepFault t gi f) s) := .foldl (fun s f => s.reissued_keepFault t gi f) fs s
  exact kept.trans (.modGroup _ gi (f := fun g => g.opDone o.id) (fun _ => rfl) fun _ => rfl)

theorem Team.reissued_scrWrite (a : Team) (n : Nat) (bs : List Byte) : a.Reissued (a.scrWrite n bs) := ⟨rfl, fun _ => rel_refl .refl _⟩

theorem State.reissued_writeRecords (s : State) (t rec : Nat) (sels : List (Nat × List (Nat × Nat))) (skip : Word) :
    s.Reissued t (s.writeRecords t rec sels skip) := by
  unfold State.writeRecords
  refine .foldl (fun s e => ?_) sels s
  split
  · exact .refl s
  · exact .modTeam s fun a => a.reissued_scrWrite ..

theorem State.reissued_reissueGather (s : State) (o : ORef) (tm : Team) (p : Op) (q : GOp) :
    s.Reissued o.team (s.reissueGather o tm p q) := by
  unfold State.reissueGather
  have ended : ∀ (u : State) (p : Op) (f : EFault), s.Reissued o.team u → s.Reissued o.team (u.endEngine o.team o.grp p [f]) :=
    fun u p f r => r.trans (u.reissued_endEngine _ _ p (List.cons_ne_nil _ _))
  have issued : ∀ (u : State) (f : Op → Op), s.Reissued o.team u →
      s.Reissued o.team (u.modGroup o.team o.grp fun g => (g.modOp p.id f).reEdge p.id) :=
    fun u f r => r.trans (.modGroup u _ (f := fun g => (g.modOp p.id f).reEdge p.id) (fun _ => rfl) fun _ => rfl)
  cases key : q.key with
  | none =>
    dsimp only
    split
    · exact ended _ _ _ (.refl s)
    · exact issued _ _ (.refl s)
  | some rec =>
    dsimp only
    split
    · exact ended _ _ _ (s.reissued_writeRecords ..)
    · exact issued _ _ (s.reissued_writeRecords ..)

theorem State.reissued_reissue (s : State) (o : ORef) : s.Reissued o.team (s.reissue o) := by
  unfold State.reissue
  split
  · exact .refl s
  · split
    · exact .refl s
    · split
      · exact s.reissued_reissueGather ..
      · exact .modGroup _ _ (f := fun g => (g.modOp _ fun p => { p with abandoned := false }).reEdge _) (fun _ => rfl) fun _ => rfl

/-- A group whose armed operations fire where their conditions hold. -/
def Group.fire (g : Group) (tm : Team) : Group :=
  { g with ops := g.ops.map fun (o : Op) => { o with trig := o.trig.filter fun w => !w.holds tm g } }

theorem Group.sameRegs_fire (tm : Team) (g : Group) : g.SameRegs (g.fire tm) := rfl

def Team.fire (tm : Team) : Team := { tm with groups := tm.groups.map (·.fire tm) }

theorem Team.reissued_fire (tm : Team) : tm.Reissued tm.fire := by
  refine ⟨rfl, fun i => ?_⟩
  rw [Team.group?_map (a := tm) (b := tm.fire) rfl fun _ => rfl]
  exact rel_map (r := Group.SameRegs) (Group.sameRegs_fire tm) _

theorem State.fireTriggers_eq (s : State) (t : Nat) : s.fireTriggers t = s.modTeam t Team.fire := rfl

theorem State.reissued_fireTriggers (s : State) (t : Nat) : s.Reissued t (s.fireTriggers t) := .modTeam s Team.reissued_fire

/-! ## A team that goes on -/

/-- A group whose time-outs run on. -/
def Group.again (g : Group) (now : Nat) : Group :=
  { g with splits := g.splits.map fun (x : Split) => { x with hold := x.hold.again now } }

theorem Group.sameRegs_again (now : Nat) (g : Group) : g.SameRegs (g.again now) := rfl

/-- A team as it goes on, before its operations are reissued. -/
def Team.again (tm : Team) (now core off : Nat) (handles : Map Byte) : Team :=
  { tm with
    st := .running, why := none, record := [], core := core, startedAt := now, handles := handles, scrOff := off
    groups := tm.groups.map (·.again now) }

theorem Team.again_group (tm : Team) (now core off : Nat) (handles : Map Byte) (i : Nat) :
    Option.Rel Group.SameRegs (tm.group? i) ((tm.again now core off handles).group? i) := by
  rw [Team.group?_map (a := tm) (b := tm.again now core off handles) rfl fun _ => rfl]
  exact rel_map (r := Group.SameRegs) (Group.sameRegs_again now) _

theorem Team.again_id (tm : Team) (now core off : Nat) (handles : Map Byte) : (tm.again now core off handles).id = tm.id := rfl

/-- A launch with a slot that fell free. -/
def Launch.free (l : Launch) (slot : Nat) : Launch := { l with slots := l.slots.erase slot }

/-- The slot of a saved team falls free, and its groups have slots of the core. -/
def State.takeOut (s : State) (tm : Team) (t core : Nat) : State := match tm.st with
  | .saved slot => (s.modLaunch tm.launch (·.free slot)).modCore core fun c =>
      c.assign t ((tm.groups.filter fun (g : Group) => g.live).map fun (g : Group) => g.grp)
  | _ => s

theorem State.takeOut_team? (s : State) (tm : Team) (t core k : Nat) : (s.takeOut tm t core).team? k = s.team? k := by
  unfold State.takeOut
  split <;> rfl

theorem State.takeOut_now (s : State) (tm : Team) (t core : Nat) : (s.takeOut tm t core).now = s.now := by
  unfold State.takeOut
  split <;> rfl

theorem State.takeOut_launch? (s : State) (tm : Team) (t core : Nat) {i : Nat} {l : Launch} (fl : s.launch? i = some l) :
    ∃ l', (s.takeOut tm t core).launch? i = some l' ∧ l'.slots.Sublist l.slots ∧
      ∀ slot, tm.st = .saved slot → tm.launch = i → l'.slots = l.slots.erase slot := by
  unfold State.takeOut
  split
  case h_1 slot saved =>
    have freed := State.launch?_modLaunch s tm.launch i (·.free slot) fun _ => rfl
    rw [fl] at freed
    split at freed
    case isTrue mine =>
      refine ⟨_, freed, List.erase_sublist, fun n e _ => ?_⟩
      rw [saved] at e
      cases e
      rfl
    case isFalse other => exact ⟨l, freed, .refl _, fun n e mine => absurd mine.symm other⟩
  case h_2 stays => exact ⟨l, fl, .refl _, fun n e _ => absurd e (stays n)⟩

/-- Where a team's window stands when it goes on. -/
def State.windowOf (s : State) (tm : Team) (t core : Nat) : Nat := match tm.st with
  | .saved _ => (s.scrGap core (tm.scrSize s) [t]).getD 0
  | _ => tm.scrOff

/-- The operations of a team. -/
def Team.opRefs (tm : Team) (t : Nat) : List ORef := tm.groups.flatMap fun g => g.ops.map fun o => ⟨t, g.grp, o.id⟩

/-- A team that goes on runs on its core with its registers, and without operations to reissue with its window and barriers. -/
def Team.GoesOn (tm : Team) (core : Nat) (y : Team) : Prop :=
  y.st = .running ∧ y.why = none ∧ y.core = core ∧
  ((∀ g ∈ tm.groups, g.ops = []) → y.scratch = tm.scratch ∧ y.tags = tm.tags ∧ y.bars = tm.bars) ∧
  ∀ grp g, tm.group? grp = some g → ∃ g', y.group? grp = some g' ∧ ∀ loc, g'.file loc = g.file loc

section
variable {s : State} {t core : Nat} {handles : Map Byte} {tm : Team} (ft : s.team? t = some tm)
include ft

theorem State.restoreTeam_of : s.restoreTeam t core handles = ((tm.opRefs t).foldl State.reissue
    ((s.takeOut tm t core).modTeam t (·.again s.now core (s.windowOf tm t core) handles))).fireTriggers t := by
  rw [← s.takeOut_now tm t core]
  unfold State.restoreTeam
  rw [ft]
  rfl

/-- What a restored team reissues changes that team alone. -/
theorem State.restoreTeam_reissued : ((s.takeOut tm t core).modTeam t (·.again s.now core (s.windowOf tm t core) handles)).Reissued t
    (s.restoreTeam t core handles) := by
  rw [State.restoreTeam_of ft]
  refine State.Reissued.trans (List.foldlRecOn (motive := State.Reissued t _) _ State.reissue (.refl _) fun u r o m => ?_)
    (State.reissued_fireTriggers _ t)
  have mine : o.team = t := by
    obtain ⟨g, -, mo⟩ := List.mem_flatMap.1 m
    obtain ⟨p, -, rfl⟩ := List.mem_map.1 mo
    rfl
  exact r.trans (mine ▸ u.reissued_reissue o)

theorem State.restoreTeam_other {k : Nat} (ne : k ≠ t) : (s.restoreTeam t core handles).team? k = s.team? k := by
  rw [(State.restoreTeam_reissued ft).other k ne, State.modTeam_team?_ne _ (Ne.symm ne) fun a => a.again_id .., State.takeOut_team?]

theorem State.restoreTeam_launch? {i : Nat} {l : Launch} (fl : s.launch? i = some l) :
    ∃ l', (s.restoreTeam t core handles).launch? i = some l' ∧ l'.slots.Sublist l.slots ∧
      ∀ slot, tm.st = .saved slot → tm.launch = i → l'.slots = l.slots.erase slot := by
  have same : (s.restoreTeam t core handles).launch? i = (s.takeOut tm t core).launch? i := by
    unfold State.launch?
    rw [(State.restoreTeam_reissued ft).frame]
    rfl
  rw [same]
  exact s.takeOut_launch? tm t core fl

theorem State.restoreTeam_found : ∃ y, (s.restoreTeam t core handles).team? t = some y ∧ tm.GoesOn core y := by
  have start : ((s.takeOut tm t core).modTeam t (·.again s.now core (s.windowOf tm t core) handles)).team? t =
      some (tm.again s.now core (s.windowOf tm t core) handles) :=
    State.modTeam_team?_self ((s.takeOut_team? ..).trans ft) fun a => a.again_id ..
  obtain ⟨y, fy, r⟩ := rel_some (State.restoreTeam_reissued (core := core) (handles := handles) ft).own start
  refine ⟨y, fy, by rw [r.frame]; rfl, by rw [r.frame]; rfl, by rw [r.frame]; rfl, fun idle => ?_, fun grp g fg => ?_⟩
  · have none : tm.opRefs t = [] := List.flatMap_eq_nil_iff.2 fun g m => by rw [idle g m, List.map_nil]
    have alone := State.restoreTeam_of (core := core) (handles := handles) ft
    rw [none, List.foldl_nil] at alone
    rw [alone, State.fireTriggers_eq, State.modTeam_team?_self (f := Team.fire) start fun _ => rfl] at fy
    cases fy
    exact ⟨rfl, rfl, rfl⟩
  · obtain ⟨g', fg', same⟩ := rel_some (rel_trans (r := Group.SameRegs) (q := Group.SameRegs) (p := Group.SameRegs) (fun _ _ _ => .trans)
      (tm.again_group ..) (r.group grp)) fg
    exact ⟨g', fg', fun loc => Group.file_of_regs same loc⟩

end

end Sys2Proof.Machine
end

section
/-! PROOFS. TEAM_RESUME (26 R341, R343): the teams of a stopped cluster go on, each on its core. -/

namespace Sys2Proof.Machine

/-- A launch after a start on some cores. -/
def Launch.startedOn (l : Launch) (now : Nat) (cores : List Nat) : Launch := { l with
  held := []
  usedCores := (l.usedCores ++ cores).dedup
  lastStart := if l.desc.stagger = 0 then l.lastStart
    else (cores.map islandOf).dedup.foldl (fun m i => Map.put m i now) l.lastStart }

/-- The start of a cluster changes caches, and its launch but not that one's slots. -/
theorem State.onStart_of (s : State) (l : Launch) (cores : List Nat) :
    (∀ k, (s.onStart l cores).team? k = s.team? k) ∧
    ∀ l0, s.launch? l.id = some l0 → ∃ l', (s.onStart l cores).launch? l.id = some l' ∧ l'.slots = l0.slots := by
  have caches : (s.modLaunch l.id (·.startedOn s.now cores)).OnlyCaches (s.onStart l cores) :=
    .foldl (fun s c => s.onlyCaches_acquire c .sys) cores _
  refine ⟨fun k => caches.team? k, fun l0 fl => ⟨l0.startedOn s.now cores, ?_, rfl⟩⟩
  rw [caches.launch?, State.launch?_modLaunch_self (f := (·.startedOn s.now cores)) fl fun _ => rfl]

/-- What a team that goes on leaves of the other teams, and of the slots in use. -/
theorem State.restoreTeam_ne (s : State) {t k : Nat} (ne : t ≠ k) (core : Nat) (handles : Map Byte) :
    (s.restoreTeam t core handles).team? k = s.team? k := by
  cases ft : s.team? t with
  | none => unfold State.restoreTeam; rw [ft]
  | some tm => exact State.restoreTeam_other ft (Ne.symm ne)

theorem State.restoreTeam_slots (s : State) (t core : Nat) (handles : Map Byte) {i : Nat} {l : Launch} (fl : s.launch? i = some l) :
    ∃ l', (s.restoreTeam t core handles).launch? i = some l' ∧ l'.slots.Sublist l.slots := by
  cases ft : s.team? t with
  | none =>
    refine ⟨l, ?_, .refl _⟩
    unfold State.restoreTeam
    rw [ft]
    exact fl
  | some tm =>
    obtain ⟨l', fl', sub, -⟩ := State.restoreTeam_launch? (core := core) (handles := handles) ft fl
    exact ⟨l', fl', sub⟩

/-- A team of a launch has gone on, on a core: its slot is free. -/
def State.Restored (u : State) (l : Launch) (x : Team) (core : Nat) : Prop :=
  (∃ l', u.launch? l.id = some l' ∧ ∀ slot, x.st = .saved slot → l.slots.Nodup → slot ∉ l'.slots) ∧
  ∃ y, u.team? x.id = some y ∧ x.GoesOn core y

/-- The core on which a team of a stopped cluster goes on. -/
def Team.coreAgain (x : Team) (cores : List Nat) : Nat := if x.st = .parked then x.core else cores.getD x.pos 0

section
variable {s : State} {k : Nat} {tm p : Team} {l : Launch} {cores : List Nat} (ft : s.team? k = some tm)
  (fl : s.launch? tm.launch = some l) (lead : (s.mates tm).find? (·.pos = 0) = some p)
  (once : ((s.clusterOf p).map (·.id)).Nodup)
include lead

/-- The first team of a cluster stands for it. -/
theorem State.clusterOf_lead : s.clusterOf p = s.clusterOf tm ∧ p.launch = tm.launch := by
  have mate := List.mem_of_find?_eq_some lead
  obtain ⟨-, same⟩ := List.mem_filter.1 mate
  simp only [decide_eq_true_eq] at same
  unfold State.clusterOf State.mates
  rw [same.1, same.2]
  exact ⟨rfl, rfl⟩

include ft fl once

theorem exec_teamResume_of (resumes : s.resumable p = true) (unhindered : l.staggered ((s.clusterOf p).map (·.coreAgain cores)) = false)
    (first : s.firstHere (s.startKey l true) ((s.clusterOf p).map (·.coreAgain cores)) = true)
    (fits : ∃ d < 4, (if ∀ x ∈ s.clusterOf p, x.st = .parked then (s.clusterOf p).map (·.coreAgain cores) else cores) ∈
      s.resumePlaces l p [] d) :
    exec (.teamResume k cores) s = .next (match (s.clusterOf p).find? (!s.intact l ·) with
      | some t => s.badRecord t
      | none => (s.clusterOf p).foldl (fun u t => u.restoreTeam t.id (t.coreAgain cores)
          ((s.onStart l ((s.clusterOf p).map (·.coreAgain cores))).snapshot l.ctx l.desc.htab.toNat (4096 * 64)))
            (s.onStart l ((s.clusterOf p).map (·.coreAgain cores)))) := by
  have cluster : (s.mates p).filter (·.st != .retired) = s.clusterOf p := rfl
  have stays : ∀ x ∈ s.clusterOf p, (((s.clusterOf p).filter (·.st == .parked)).map (·.id)).contains x.id = true ↔ x.st = .parked := by
    intro x mx
    rw [List.contains_iff_mem, List.mem_map]
    constructor
    · rintro ⟨y, my, same⟩
      obtain ⟨my, parked⟩ := List.mem_filter.1 my
      rw [← List.inj_on_of_nodup_map once my mx same]
      simpa using parked
    · exact fun parked => ⟨x, List.mem_filter.2 ⟨mx, by simp [parked]⟩, rfl⟩
  have core : ∀ x ∈ s.clusterOf p, (if (((s.clusterOf p).filter (·.st == .parked)).map (·.id)).contains x.id then x.core
      else cores.getD x.pos 0) = x.coreAgain cores := by
    intro x mx
    unfold Team.coreAgain
    simp only [stays x mx]
  have here := List.map_congr_left core
  have whole : ((((s.clusterOf p).filter (·.st == .parked)).map (·.id)).length = (s.clusterOf p).length) ↔
      ∀ x ∈ s.clusterOf p, x.st = .parked := by
    rw [List.length_map, List.length_filter_eq_length_iff]
    simp
  have placed : ((List.range 4).any fun d => (s.resumePlaces l p [] d).contains
      (if (((s.clusterOf p).filter (·.st == .parked)).map (·.id)).length = (s.clusterOf p).length then
        (s.clusterOf p).map (·.coreAgain cores) else cores)) = true := by
    obtain ⟨d, low, fits⟩ := fits
    refine List.any_eq_true.2 ⟨d, List.mem_range.2 low, ?_⟩
    rw [List.contains_iff_mem]
    simpa only [whole] using fits
  change execTeamResume k cores s = _
  unfold execTeamResume
  rw [ft]
  dsimp only
  rw [lead, fl]
  dsimp only
  rw [cluster, here, placed, resumes, unhindered, first]
  simp only [Bool.not_false, Bool.and_self, Bool.not_true, Bool.false_eq_true, if_false]
  cases (s.clusterOf p).find? (!s.intact l ·) with
  | some x => rfl
  | none =>
    refine congrArg _ (List.foldl_ext _ _ _ fun u x mx => ?_)
    exact congrArg (fun c => u.restoreTeam x.id c _) (core x mx)

/-- The teams of an intact cluster go on, and their slots fall free. -/
theorem exec_teamResume_restores (found : ∀ x ∈ s.clusterOf p, s.team? x.id = some x)
    (resumes : s.resumable p = true) (unhindered : l.staggered ((s.clusterOf p).map (·.coreAgain cores)) = false)
    (first : s.firstHere (s.startKey l true) ((s.clusterOf p).map (·.coreAgain cores)) = true)
    (fits : ∃ d < 4, (if ∀ x ∈ s.clusterOf p, x.st = .parked then (s.clusterOf p).map (·.coreAgain cores) else cores) ∈
      s.resumePlaces l p [] d) (intact : ∀ x ∈ s.clusterOf p, s.intact l x = true) :
    ∃ t l', exec (.teamResume k cores) s = .next t ∧ t.launch? l.id = some l' ∧ ∀ x ∈ s.clusterOf p,
      (∀ slot, x.st = .saved slot → l.slots.Nodup → slot ∉ l'.slots) ∧
      ∃ y, t.team? x.id = some y ∧ x.GoesOn (x.coreAgain cores) y := by
  have run := exec_teamResume_of ft fl lead once resumes unhindered first fits
  have none : (s.clusterOf p).find? (!s.intact l ·) = none := List.find?_eq_none.2 fun x mx => by simp [intact x mx]
  rw [none] at run
  dsimp only at run
  obtain ⟨teams, slots⟩ := s.onStart_of l ((s.clusterOf p).map (·.coreAgain cores))
  obtain ⟨l0, fl0, same⟩ := slots l (by rw [State.launch?_id fl]; exact fl)
  generalize (s.onStart l _).snapshot _ _ _ = handles at run
  generalize s.onStart l _ = s0 at *
  obtain ⟨l', fl', -⟩ : ∃ l', ((s.clusterOf p).foldl (fun u t => u.restoreTeam t.id (t.coreAgain cores) handles) s0).launch? l.id = some l' ∧
      l'.slots.Sublist l.slots := by
    refine foldl_keeps (P := fun u : State => ∃ l', u.launch? l.id = some l' ∧ l'.slots.Sublist l.slots)
      (f := fun (u : State) (t : Team) => u.restoreTeam t.id (t.coreAgain cores) handles) (fun u b => ?_) _ _ ⟨l0, fl0, same ▸ .refl _⟩
    rintro ⟨l1, f1, sub⟩
    obtain ⟨l2, f2, sub'⟩ := u.restoreTeam_slots b.id (b.coreAgain cores) handles f1
    exact ⟨l2, f2, sub'.trans sub⟩
  refine ⟨_, l', run, fl', fun x mx => ?_⟩
  have mine : x.launch = l.id := by
    obtain ⟨mate, -⟩ := List.mem_filter.1 mx
    obtain ⟨-, same⟩ := List.mem_filter.1 mate
    simp only [decide_eq_true_eq] at same
    rw [same.1, (State.clusterOf_lead lead).2, State.launch?_id fl]
  have reaches : ((s.clusterOf p).foldl (fun u t => u.restoreTeam t.id (t.coreAgain cores) handles) s0).Restored l x (x.coreAgain cores) := by
    refine foldl_once (key := Team.id)
      (f := fun (u : State) (t : Team) => u.restoreTeam t.id (t.coreAgain cores) handles)
      (P := fun u : State => u.team? x.id = some x ∧ ∃ l1, u.launch? l.id = some l1 ∧ l1.slots.Sublist l.slots)
      (Q := fun u : State => u.Restored l x (x.coreAgain cores))
      (fun u b ne => ?_) (fun u => ?_) (fun u b ne => ?_) once mx ⟨(teams _).trans (found x mx), l0, fl0, same ▸ .refl _⟩
    · rintro ⟨fx, l1, f1, sub⟩
      obtain ⟨l2, f2, sub'⟩ := u.restoreTeam_slots b.id (b.coreAgain cores) handles f1
      exact ⟨(u.restoreTeam_ne ne _ _).trans fx, l2, f2, sub'.trans sub⟩
    · rintro ⟨fx, l1, f1, sub⟩
      obtain ⟨l2, f2, -, freed⟩ := State.restoreTeam_launch? (core := x.coreAgain cores) (handles := handles) fx f1
      refine ⟨⟨l2, f2, fun slot saved distinct => ?_⟩, State.restoreTeam_found fx⟩
      rw [freed slot saved mine]
      exact (distinct.sublist sub).not_mem_erase
    · rintro ⟨⟨l1, f1, freed⟩, y, fy, rest⟩
      obtain ⟨l2, f2, sub⟩ := u.restoreTeam_slots b.id (b.coreAgain cores) handles f1
      exact ⟨⟨l2, f2, fun slot saved distinct out => freed slot saved distinct (sub.subset out)⟩, y, (u.restoreTeam_ne ne _ _).trans fy, rest⟩
  obtain ⟨⟨l1, f1, freed⟩, restored⟩ := reaches
  rw [fl'] at f1
  cases f1
  exact ⟨freed, restored⟩

end

end Sys2Proof.Machine
end

section
/-! PROOFS. The management commands and the events of pre-emption (26 R336 to R343, 30 R368). -/

namespace Sys2Proof.Machine

/-! ## Refusals -/

theorem exec_management_down {s : State} (down : s.pkg ≠ .up) {i : Instr} (named : ∃ l n c d a b, i ∈ [.resolveResolved l n, .resolveKill l n,
    .resolveEnd l n, .release l n, .preempt c, .resume c, .invalidate d a b, .setPkg n]) : exec i s = .next (s.tell .refusedCmd) := by
  obtain ⟨l, n, c, d, a, b, m⟩ := named
  simp only [List.mem_cons, List.not_mem_nil, or_false] at m
  rcases m with rfl | rfl | rfl | rfl | rfl | rfl | rfl | rfl
  exacts [if_pos down, if_pos down, if_pos down, if_pos down, if_pos down, if_pos down, if_pos down, if_neg fun ok => down ok.1]

section
variable {s : State} {lid seq : Nat}

theorem exec_resolve_refused (none : s.report? lid seq false = none) :
    exec (.resolveResolved lid seq) s = .next (s.tell .refusedCmd) ∧ exec (.resolveKill lid seq) s = .next (s.tell .refusedCmd) ∧
      exec (.resolveEnd lid seq) s = .next (s.tell .refusedCmd) := by
  change execResolveResolved lid seq s = _ ∧ execResolveKill lid seq s = _ ∧ execResolveEnd lid seq s = _
  unfold execResolveResolved execResolveKill execResolveEnd
  rw [none]
  exact ⟨ite_self _, ite_self _, ite_self _⟩

theorem exec_release_refused (none : s.report? lid seq true = none) : exec (.release lid seq) s = .next (s.tell .refusedCmd) := by
  change execRelease lid seq s = _
  unfold execRelease
  rw [none]
  exact ite_self _

end

/-! ## Invalidation -/

/-- A core, and a die, without the translations that an invalidation drops. -/
def Core.dropTlb (c : Core) (p : TlbEnt → Bool) : Core := { c with tlb := c.tlb.filter (!p ·), btlb := c.btlb.filter (!p ·.2) }

def Die.dropTlb (d : Die) (p : TlbEnt → Bool) : Die := { d with tlb := d.tlb.filter (!p ·) }

theorem State.core_dropTlb (s : State) (p : TlbEnt → Bool) (c : Nat) : (s.dropTlb p).core c = (s.core c).dropTlb p := by
  have found : (s.cores.map fun c : Nat × Core => (c.1, c.2.dropTlb p)).find? (·.1 = c) =
      (s.cores.find? (·.1 = c)).map fun c => (c.1, c.2.dropTlb p) := List.find?_map ..
  change (((s.cores.map fun c : Nat × Core => (c.1, c.2.dropTlb p)).find? (·.1 = c)).map (·.2)).getD Core.reset = _
  rw [found]
  unfold State.core
  cases s.cores.find? (·.1 = c) <;> rfl

theorem State.die_dropTlb (s : State) (p : TlbEnt → Bool) (d : Nat) : (s.dropTlb p).die d = (s.die d).dropTlb p :=
  List.getD_map s.dies Die.reset (·.dropTlb p)

theorem State.l1Byte_of {s t : State} (mem : t.mem = s.mem) (dies : t.dies = s.dies) (cores : t.cores = s.cores) (c pa : Nat) :
    t.l1Byte c pa = s.l1Byte c pa := by
  unfold State.l1Byte State.dieByte
  rw [State.homeByte_of mem dies]
  unfold State.core State.die
  rw [dies, cores]

/-- Dropping translations leaves every cached byte. -/
theorem State.l1Byte_dropTlb (s : State) (p : TlbEnt → Bool) (c pa : Nat) : (s.dropTlb p).l1Byte c pa = s.l1Byte c pa := by
  have home : (s.dropTlb p).homeByte pa = s.homeByte pa := by
    unfold State.homeByte
    simp only [State.die_dropTlb]
    rfl
  unfold State.l1Byte State.dieByte
  simp only [State.core_dropTlb, State.die_dropTlb, home]
  rfl

/-- The translations that an invalidation drops. -/
def Inval.covers (i : Inval) (e : TlbEnt) : Bool := e.ctx == i.ctx && decide (e.base < i.hi ∧ i.lo < e.base + 2 ^ e.bits)

theorem Inval.apart {i : Inval} {e : TlbEnt} (kept : (!i.covers e) = true) (ctx : e.ctx = i.ctx) : i.hi ≤ e.base ∨ e.base + 2 ^ e.bits ≤ i.lo := by
  simpa [Inval.covers, ctx] using kept

section
variable {s : State} {n : Nat} {i : Inval} (found : s.invals.find? (·.id = n) = some i)
include found

theorem exec_invalidationComplete_waits (busy : s.inFlight i = true) : exec (.invalidationComplete n) s = .next s := by
  change execInvalidationComplete n s = _
  unfold execInvalidationComplete
  rw [found]
  exact if_pos busy

theorem exec_invalidationComplete_drops (calm : s.inFlight i = false) : ∃ t, exec (.invalidationComplete n) s = .next t ∧ t.mem = s.mem ∧
    t.hostOut = s.hostOut ++ [.invalidated n] ∧ t.invals = s.invals.filter (·.id ≠ n) ∧
    (∀ c, ∀ e ∈ (t.core c).tlb ++ (t.core c).btlb.map (·.2), e.ctx = i.ctx → i.hi ≤ e.base ∨ e.base + 2 ^ e.bits ≤ i.lo) ∧
    (∀ d, ∀ e ∈ (t.die d).tlb, e.ctx = i.ctx → i.hi ≤ e.base ∨ e.base + 2 ^ e.bits ≤ i.lo) ∧
    ∀ c pa, t.l1Byte c pa = s.l1Byte c pa := by
  have bytes : ∀ t : State, t.mem = s.mem → t.dies = (s.dropTlb i.covers).dies → t.cores = (s.dropTlb i.covers).cores →
      ∀ c pa, t.l1Byte c pa = s.l1Byte c pa := fun t mem dies cores c pa =>
    (State.l1Byte_of (s := s.dropTlb i.covers) mem dies cores c pa).trans (s.l1Byte_dropTlb i.covers c pa)
  refine ⟨({ s.dropTlb i.covers with invals := s.invals.filter (·.id ≠ n) }).tell (.invalidated n), ?_, rfl, rfl, rfl,
    fun c e m => ?_, fun d e m => ?_,
    bytes _ rfl rfl rfl⟩
  · change execInvalidationComplete n s = _
    unfold execInvalidationComplete
    rw [found]
    exact if_neg (by simp [calm])
  · have m : e ∈ ((s.dropTlb i.covers).core c).tlb ++ ((s.dropTlb i.covers).core c).btlb.map (·.2) := m
    rw [State.core_dropTlb] at m
    rcases List.mem_append.1 m with core | bench
    · exact Inval.apart (List.mem_filter.1 core).2
    · obtain ⟨b, mb, rfl⟩ := List.mem_map.1 bench
      exact Inval.apart (List.mem_filter.1 mb).2
  · have m : e ∈ ((s.dropTlb i.covers).die d).tlb := m
    rw [State.die_dropTlb] at m
    exact Inval.apart (List.mem_filter.1 m).2

end

theorem exec_invalidate_requests {s : State} (up : s.pkg = .up) (ctx : Nat) (lo hi : DWord) : ∃ t olds, exec (.invalidate ctx lo hi) s = .next t ∧
    t = { s with invals := t.invals, nextInval := s.nextInval + 1 } ∧
    t.invals = s.invals ++ [⟨s.nextInval, ctx, lo.toNat, hi.toNat, olds⟩] ∧
    ∀ e, e ∈ olds ↔ e ∈ s.tlbAll ∧ e.ctx = ctx ∧ e.base < hi.toNat ∧ lo.toNat < e.base + 2 ^ e.bits := by
  refine ⟨_, s.tlbAll.filter fun e => e.ctx == ctx && decide (e.base < hi.toNat ∧ lo.toNat < e.base + 2 ^ e.bits),
    if_neg (by simp [up]), rfl, rfl, fun e => ?_⟩
  rw [List.mem_filter]
  simp

/-! ## A lone team held in place -/

section
variable {s : State} {tm : Team} {l : Launch} (alone : s.mates tm = [tm]) (parked : tm.st = .parked)
include alone parked

theorem State.clusterOf_alone : s.clusterOf tm = [tm] := by
  unfold State.clusterOf
  rw [alone]
  simp [parked]

theorem State.resumable_alone (fl : s.launch? tm.launch = some l) (why : tm.why = some .priority) (first : tm.pos = 0)
    (runs : l.st = .running) (free : l.suspended = false) (alive : l.killing = false) : s.resumable tm = true := by
  unfold State.resumable
  rw [alone, fl]
  simp [parked, why, first, runs, free, alive, Team.acting]

theorem State.resumePlaces_alone (may : s.mayUse l tm.core = true) : [tm.core] ∈ s.resumePlaces l tm [] (dieOf tm.core) := by
  have cluster : (s.mates tm).filter (·.st != .retired) = [tm] := State.clusterOf_alone alone parked
  unfold State.resumePlaces
  rw [cluster]
  simp [parked, may]

end

/-- Settles O53: answers go to the split of their report, a stopped team keeps its registers, and one that goes on has them
(`exec_teamResume_restores`). -/
theorem answersAndPreemptionActOnTheirTargets : Obligations.AnswersAndPreemptionActOnTheirTargets := by
  refine ⟨fun s i down named => exec_management_down down named, fun s lid seq => ⟨exec_resolve_refused, exec_release_refused⟩,
    fun s lid seq l r tm g x up fl fr fx mine => ?_, fun s lid seq r tm g x up fr fx held => exec_release_passes up fr fx held,
    fun s c up once => ⟨exec_preempt_requests up once, ?_⟩, fun s k tm l ft fl => ?_,
    fun s ctx lo hi up => exec_invalidate_requests up ctx lo hi,
    fun s n i found => ⟨exec_invalidationComplete_waits found, exec_invalidationComplete_drops found⟩, fun s w => ?_,
    fun s n up => ⟨fun low idle => if_pos ⟨up, low, ?_⟩, fun no => if_neg ?_⟩⟩
  · obtain ⟨ft, fg, -⟩ := State.splitAt?_eq fx
    refine ⟨fun plain held more free last => ?_, fun items plain => exec_resolveKill_counts up fl fr ft fg mine items plain,
      exec_resolveEnd_kills up fl fr⟩
    have run := exec_resolveResolved_runs up fl fr fx plain held more free last
    have fx1 : (s.dropReport lid seq).splitAt? r.ref = some (tm, g, x) := fx
    have fx2 := State.splitAt?_modSplit fx1 (f := fun x => if x.only.isNone then { x with words := 0 } else x)
      fun y => by split <;> rfl
    have fx3 := State.splitAt?_modSplit fx2 (f := fun y => { y with hold := .run }) fun _ => rfl
    refine ⟨_, _, _, _, _, run, rfl, fx3, fun loc => ?_, rfl, rfl, ?_, ?_, ?_, State.dropReport_launch? fl seq, fun q m => ?_⟩
    · rw [Group.modSplit_file, Group.modSplit_file]
    · dsimp only; split <;> rfl
    · dsimp only; split <;> rfl
    · dsimp only; split <;> rfl
    · simpa using (List.mem_filter.1 m).2
  · obtain ⟨t, run, mem, teams⟩ := exec_resume_withdraws (c := c) up once
    refine ⟨t, run, mem, fun tm m => ⟨(teams tm m).1, fun target other => ⟨_, (teams tm m).2 target, fun n st => ?_, fun st => ?_⟩⟩⟩
    · rw [Team.resumed, if_neg other, st]
      exact ⟨rfl, rfl⟩
    · rw [Team.resumed, if_neg other]
      rcases st with st | st <;> simp [st]
  · have lid : l.id = tm.launch := State.launch?_id fl
    refine ⟨fun once ended => ?_, fun held drained full => ⟨_, exec_preemptionNoticeEnd_parks ft fl held drained full,
      State.parkTeam_team? ft, rfl⟩, fun ready => ?_, fun cores p once lead resumes unhindered first fits => ?_,
      fun cores alone parked may ahead why first runs free alive unhindered => ?_⟩
    · obtain ⟨t, run, mem, teams⟩ := exec_preemptionNoticeEnd_stops ft once ended
      exact ⟨t, run, mem, fun x mx => ⟨_, teams x mx, rfl, fun grp g fg owned => Team.stopped_group s.now fg owned⟩⟩
    · obtain ⟨t, y, slot, run, fy, saved, groups, scratch, tags, bars, out, slots⟩ := exec_preemptionNoticeEnd_saves ft fl ready
      exact ⟨t, y, slot, _, run, fy, saved, groups, scratch, tags, bars, out, by rw [lid]; exact slots, rfl⟩
    · obtain ⟨cluster, -⟩ := State.clusterOf_lead lead
      have found : ∀ x ∈ s.clusterOf p, s.team? x.id = some x := fun x mx =>
        State.team?_of_mem once ((s.clusterOf_sublist p).subset mx)
      have distinct : ((s.clusterOf p).map (·.id)).Nodup := once.sublist ((s.clusterOf_sublist p).map _)
      have run := exec_teamResume_of (cores := cores) ft fl lead distinct resumes
      have goes := exec_teamResume_restores (cores := cores) ft fl lead distinct found resumes
      rw [cluster] at run goes
      refine ⟨fun x altered => ?_, goes unhindered first fits⟩
      rw [run unhindered first fits]
      have altered : (s.clusterOf tm).find? (!s.intact l ·) = some x := altered
      rw [altered]
    · have cluster := State.clusterOf_alone alone parked
      have lead : (s.mates tm).find? (·.pos = 0) = some tm := by rw [alone]; simp [first]
      have here : (s.clusterOf tm).map (·.coreAgain cores) = [tm.core] := by simp [cluster, Team.coreAgain, parked]
      have distinct : ((s.clusterOf tm).map (·.id)).Nodup := by simp [cluster]
      have mine : tm.id = k := State.team?_id ft
      have found : ∀ x ∈ s.clusterOf tm, s.team? x.id = some x := by simp [cluster, mine, ft]
      have resumes := State.resumable_alone alone parked fl why first runs free alive
      have fits : ∃ d < 4, (if ∀ x ∈ s.clusterOf tm, x.st = .parked then (s.clusterOf tm).map (·.coreAgain cores) else cores) ∈
          s.resumePlaces l tm [] d := by
        refine ⟨dieOf tm.core, Nat.mod_lt _ (by decide), ?_⟩
        rw [if_pos (by simp [cluster, parked]), here]
        exact State.resumePlaces_alone alone parked may
      have intact : s.intact l tm = tm.recordOk := by simp [State.intact, parked]
      have run := exec_teamResume_of ft fl lead distinct resumes (by rw [here]; exact unhindered) (by rw [here]; exact ahead) fits
      refine ⟨fun altered => ?_, fun whole => ?_⟩
      · rw [cluster] at run
        rw [run, List.find?_cons_of_pos (by simp [intact, altered])]
      · obtain ⟨t, l', run, -, restored⟩ := exec_teamResume_restores ft fl lead distinct found resumes
          (by rw [here]; exact unhindered) (by rw [here]; exact ahead) fits (by simp [cluster, intact, whole])
        obtain ⟨-, y, fy, st, why, core, -, regs⟩ := restored tm (by simp [cluster])
        refine ⟨t, y, run, mine ▸ fy, st, why, core.trans ?_, regs⟩
        rw [Team.coreAgain, if_pos parked]
  · change execScrub w s = _
    unfold execScrub
    simp only [List.contains_iff_mem]
  · rintro ⟨-, low, idle⟩
    rcases no with high | ⟨l, m, runs⟩
    · omega
    · have := List.all_eq_true.1 idle l m
      simp [runs] at this
  · exact List.all_eq_true.2 fun l m => by simpa using idle l m

end Sys2Proof.Machine
end

section
/-! PROOFS. The package's commands that leave its teams (30 R369 to R377): bring-up, interfaces, the alarm, updates, package
reset, power and measurements. -/

namespace Sys2Proof.Machine

/-! ## Bring-up -/

theorem linkEnds_start {i n : Nat} {l : Link} (found : (linkEnds.zipIdx.map fun e => Link.start e.1 (freshKey (n + 4 * e.2)))[i]? = some l) :
    ∃ e k, linkEnds[i]? = some e ∧ l = Link.start e k := by
  rw [List.getElem?_map, List.getElem?_zipIdx, Option.map_map, Option.map_eq_some_iff] at found
  obtain ⟨e, he, rfl⟩ := found
  exact ⟨e, _, he, rfl⟩

/-! ## Interfaces (R370) -/

theorem State.tdi_eq (s : State) (n : Nat) : s.tdi n = (Map.find? s.tdis n).getD { st := .unlocked, keys := [] } := by
  unfold State.tdi
  rw [Map.find?_eq_list]
  cases Map.find? s.tdis n <;> rfl

theorem State.tdi_modTdi (s : State) (n k : Nat) (f : Tdi → Tdi) : (s.modTdi n f).tdi k = if k = n then f (s.tdi n) else s.tdi k := by
  rw [State.tdi_eq, State.modTdi, Map.find?_put]
  split
  · rfl
  · rw [State.tdi_eq]

theorem State.tdi_of {s t : State} (e : t.tdis = s.tdis) (n : Nat) : t.tdi n = s.tdi n := by
  unfold State.tdi
  rw [e]

theorem State.stopped_tdi (s : State) (n k : Nat) : (s.stopped n).tdi k = if k = n then { st := .unlocked, keys := [] } else s.tdi k :=
  (State.tdi_of (s := s.modTdi n fun _ => { st := .unlocked, keys := [] }) rfl k).trans (s.tdi_modTdi n k _)

section
variable {s : State} {n : Nat} (up : s.pkg = .up) (lo : 1 ≤ n) (hi : n ≤ 68)
include up lo hi

/-- A request of an interface of a package that is up. -/
theorem State.tdisp_of (f : Tdi → State × TdispAns) : s.tdisp n f = (f (s.tdi n)).1.tell (.tdisp n (f (s.tdi n)).2) :=
  if_pos ⟨up, decide_eq_true ⟨lo, hi⟩⟩

/-- A request that takes an interface from one state to another, and is refused in any other state. -/
theorem State.tdisp_moves (a b : TdiSt) (ans : TdispAns) : let t := s.tdisp n fun x =>
      if x.st = a then (s.modTdi n fun x => { x with st := b }, ans) else (s, .error .invalidState)
    (t.tdi n).st = (if (s.tdi n).st = a then b else (s.tdi n).st) ∧
    t.hostOut = s.hostOut ++ [.tdisp n (if (s.tdi n).st = a then ans else .error .invalidState)] := by
  intro t
  have run : t = _ := State.tdisp_of up lo hi _
  clear_value t
  subst run
  by_cases here : (s.tdi n).st = a
  · simp only [here, if_true]
    refine ⟨?_, rfl⟩
    have moved := s.tdi_modTdi n n fun x => { x with st := b }
    rw [if_pos rfl] at moved
    exact congrArg Tdi.st moved
  · simp only [here, if_false]
    exact ⟨rfl, rfl⟩

theorem exec_tdiConfigChange_of : ∃ t, exec (.tdiConfigChange n) s = .next t ∧ (t.tdi n).keys = (s.tdi n).keys ∧
    (t.tdi n).st = (if (s.tdi n).st = .locked ∨ (s.tdi n).st = .run then .error else (s.tdi n).st) ∧ ∀ k, k ≠ n → t.tdi k = s.tdi k := by
  refine ⟨_, rfl, ?_⟩
  by_cases set : (s.tdi n).st = .locked ∨ (s.tdi n).st = .run
  · rw [if_pos ⟨up, decide_eq_true ⟨lo, hi⟩, set⟩, if_pos set]
    refine ⟨?_, ?_, fun k ne => ?_⟩
    · rw [State.tdi_modTdi, if_pos rfl]
    · rw [State.tdi_modTdi, if_pos rfl]
    · rw [State.tdi_modTdi, if_neg ne]
  · rw [if_neg fun all => set all.2.2, if_neg set]
    exact ⟨rfl, rfl, fun _ _ => rfl⟩

/-- A STOP of an interface. -/
theorem exec_stopInterfaceRequest_of : exec (.stopInterfaceRequest n) s = .next
    (if isPf n then ((s.modTdi n fun x => { x with keys := [] }).resetDie (s.dieOfPf n)).stopped n
     else ({ (s.modTdi n fun x => { x with keys := [] }).killVf (n - 4) with
        stopping := n :: s.stopping.filter (· ≠ n) }).stopAnswer n) := by
  have named : s.pkg = .up ∧ isTdi n = true := ⟨up, decide_eq_true ⟨lo, hi⟩⟩
  exact congrArg Host.Outcome.next (if_pos named)

end

/-- The answer to a STOP of a virtual function whose launches have ended. -/
theorem State.stopAnswer_ended {s : State} {n : Nat} (waits : n ∈ s.stopping) (ended : s.launchesOf (n - 4) = []) :
    s.stopAnswer n = { s with stopping := s.stopping.filter (· ≠ n) }.stopped n :=
  if_pos ⟨List.contains_iff_mem.2 waits, by rw [ended]; rfl⟩

theorem State.stopAnswer_waits {s : State} {n : Nat} (more : s.launchesOf (n - 4) ≠ []) : s.stopAnswer n = s :=
  if_neg fun all => more (List.isEmpty_iff.1 all.2)

/-! ## The alarm -/

theorem State.alarm_tdi (s : State) {n : Nat} (lo : 1 ≤ n) (hi : n ≤ 68) : s.alarm.tdi n = { st := .error, keys := [] } := by
  obtain ⟨k, rfl⟩ : ∃ k, n = k + 1 := ⟨n - 1, by omega⟩
  have low : k < 68 := by omega
  change ((((List.range 68).map fun i => (i + 1, ({ st := .error, keys := [] } : Tdi))).find? (·.1 = k + 1)).map (·.2)).getD _ = _
  rw [List.find?_map]
  have found : (List.range 68).find? ((fun p : Nat × Tdi => decide (p.1 = k + 1)) ∘ fun i => (i + 1, { st := .error, keys := [] })) = some k := by
    rw [List.find?_range_eq_some]
    refine ⟨by simp, List.mem_range.2 low, fun j lt => by simp; omega⟩
  rw [found]
  rfl

theorem State.alarm_links (s : State) : ∀ l ∈ s.alarm.links, l.keys = [none, none] ∧ l.rkeys = [none, none] := by
  intro l m
  obtain ⟨x, -, rfl⟩ := List.mem_map.1 m
  exact ⟨rfl, rfl⟩

/-! ## Package reset -/

theorem Map.get_range {β : Type} (d : β) (m : Map β) (lo hi i : Nat) :
    (Map.range m lo hi).get d i = if lo ≤ i ∧ i < hi then m.get d i else d := by
  induction m with
  | nil => simp [Map.range]
  | cons p m ih =>
    obtain ⟨k, v⟩ := p
    unfold Map.range at ih ⊢
    rw [List.filter_cons]
    by_cases same : i = k
    · subst same
      split
      case isTrue inside => simp [Map.get, of_decide_eq_true inside]
      case isFalse outside =>
        rw [ih, if_neg (by simpa using outside), if_neg (by simpa using outside)]
    · simp only [Map.get, if_neg same]
      split
      · exact (if_neg same).trans ih
      · exact ih

/-! ## Power (R376) -/

/-- Shares in proportion to demand do not exceed what is shared. -/
theorem sum_shares_le (b total : Nat) (ds : List Nat) : (ds.map fun d => d * b / total).sum ≤ ds.sum * b / total := by
  induction ds with
  | nil => simp
  | cons d ds ih =>
    rw [List.map_cons, List.sum_cons, List.sum_cons, Nat.add_mul]
    calc d * b / total + (ds.map fun d => d * b / total).sum ≤ d * b / total + ds.sum * b / total := Nat.add_le_add_left ih _
      _ ≤ (d * b + ds.sum * b) / total := Nat.div_add_div_le_add_div ..

/-- The demand of the compute islands, and that of the four others. -/
def State.computeDemand (s : State) : Nat := ((List.range 12).map fun i => s.demand.getD i 0).sum

def State.otherDemand (s : State) : Nat := ((List.range 4).map fun i => s.demand.getD (12 + i) 0).sum

/-- What a compute island is granted of a demand. -/
def State.share (s : State) (d : Nat) : Nat := if s.computeDemand ≤ s.budget then d else d * s.budget / s.computeDemand

def State.grant (s : State) (i : Nat) : Nat := if i < 12 then s.share (s.demand.getD i 0) else s.demand.getD i 0

theorem State.share_le (s : State) (d : Nat) : s.share d ≤ d := by
  unfold State.share
  split
  · exact le_rfl
  · have less : s.budget ≤ s.computeDemand := by omega
    calc d * s.budget / s.computeDemand ≤ d * s.computeDemand / s.computeDemand := Nat.div_le_div_right (Nat.mul_le_mul_left d less)
      _ ≤ d := Nat.div_le_of_le_mul (Nat.mul_comm ..).le

theorem State.grant_le (s : State) (i : Nat) : s.grant i ≤ s.demand.getD i 0 := by
  unfold State.grant
  split
  · exact s.share_le _
  · exact le_rfl

/-- The compute islands share no more than their budget. -/
theorem State.sum_grant_le (s : State) : ((List.range 12).map s.grant).sum ≤ s.budget := by
  have shares : (List.range 12).map s.grant = ((List.range 12).map fun i => s.demand.getD i 0).map s.share := by
    rw [List.map_map]
    refine List.map_congr_left fun i m => ?_
    rw [State.grant, if_pos (List.mem_range.1 m), Function.comp]
  rw [shares]
  by_cases enough : s.computeDemand ≤ s.budget
  · have same : s.share = id := by
      funext d
      rw [State.share, if_pos enough, id]
    rw [same, List.map_id]
    exact enough
  · have same : s.share = fun d => d * s.budget / s.computeDemand := by
      funext d
      rw [State.share, if_neg enough]
    rw [same]
    exact (sum_shares_le ..).trans (Nat.div_le_of_le_mul le_rfl)

theorem State.sum_grants (s : State) : ((List.range 16).map s.grant).sum = ((List.range 12).map s.grant).sum + s.otherDemand := by
  have cut : List.range 16 = List.range 12 ++ (List.range 4).map (12 + ·) := rfl
  have others : ((List.range 4).map (12 + ·)).map s.grant = (List.range 4).map fun i => s.demand.getD (12 + i) 0 := by
    rw [List.map_map]
    exact List.map_congr_left fun i _ => if_neg (by simp)
  rw [cut, List.map_append, List.sum_append, others]
  rfl

/-- The sum of all grants is within what the limits leave, when the demand of islands 12 to 15 is. -/
theorem State.sum_grants_le {s : State} (fits : s.otherDemand ≤ s.cap) : ((List.range 16).map s.grant).sum ≤ s.cap := by
  have shared := s.sum_grant_le
  have budget : s.budget = s.cap - s.otherDemand := rfl
  rw [s.sum_grants]
  omega

theorem exec_gafferGrant_of {s : State} (up : s.pkg = .up) : exec .gafferGrant s = .next { s with
    grants := (List.range 16).map s.grant
    past := (((List.range 16).map s.grant).sum :: s.past).take (Config.gafferWindow - 1) } :=
  congrArg Host.Outcome.next (if_pos up)

theorem exec_gafferGrant_shares {s : State} (up : s.pkg = .up) (all : s.demand.length = 16) :
    ∃ t, exec .gafferGrant s = .next t ∧ t = { s with grants := t.grants, past := t.past } ∧ t.grants.length = 16 ∧
      (((List.range 4).map fun i => s.demand.getD (12 + i) 0).sum ≤ s.cap →
        t.grants.sum ≤ min s.manifest.peak 4000 ∧ (t.grants.sum = 0 ∨ t.grants.sum +
          (s.past.take (max 1 Config.gafferWindow - 1)).sum ≤ min s.manifest.sustained 3600 * max 1 Config.gafferWindow)) ∧
      (∀ i, 12 ≤ i → i < 16 → t.grants[i]? = s.demand[i]?) ∧ (∀ i, t.grants.getD i 0 ≤ s.demand.getD i 0) ∧
      ((List.range 12).map fun i => t.grants.getD i 0).sum ≤ s.budget ∧
      (((List.range 12).map fun i => s.demand.getD i 0).sum ≤ s.budget → t.grants = s.demand) := by
  have at_ : ∀ i, i < 16 → ((List.range 16).map s.grant)[i]? = some (s.grant i) := fun i low => by
    rw [List.getElem?_map, List.getElem?_range low, Option.map_some]
  have demand : ∀ i, i < 16 → s.demand[i]? = some (s.demand.getD i 0) := fun i low => by
    rw [List.getD_eq_getElem?_getD, List.getElem?_eq_getElem (by omega), Option.getD_some]
  refine ⟨_, exec_gafferGrant_of up, rfl, by simp, fun fits => ?_, fun i lo hi => ?_, fun i => ?_, ?_, fun enough => ?_⟩
  · have below := State.sum_grants_le fits
    dsimp only
    generalize ((List.range 16).map s.grant).sum = total at below ⊢
    unfold State.cap at below
    dsimp only at below
    omega
  · rw [at_ i hi, demand i hi, State.grant, if_neg (by omega)]
  · dsimp only
    rw [List.getD_eq_getElem?_getD]
    by_cases low : i < 16
    · rw [at_ i low]
      exact s.grant_le i
    · rw [List.getElem?_eq_none (by simp; omega)]
      exact Nat.zero_le _
  · refine le_of_eq_of_le (congrArg List.sum (List.map_congr_left fun i m => ?_)) s.sum_grant_le
    have low := List.mem_range.1 m
    rw [List.getD_eq_getElem?_getD, at_ i (by omega), Option.getD_some]
  · refine List.ext_getElem? fun i => ?_
    by_cases low : i < 16
    · rw [at_ i low, demand i low, State.grant, State.share, if_pos (show s.computeDemand ≤ s.budget from enough), ite_self]
    · rw [List.getElem?_eq_none (by simp; omega), List.getElem?_eq_none (by omega)]

/-- What a power event leaves an island of its grant. -/
def lowered (g : Nat × Nat) : Nat := if g.2 < 12 then min g.1 (Config.islandPeak g.2 / 8) else g.1

/-- A power event lowers the grants of the compute islands. -/
theorem exec_powerEvent_lowers {s : State} {e : PowerEv} (up : s.pkg = .up)
    (bad : e = .powerGoodDrop ∨ ∃ c, e = .inlet c ∧ s.manifest.inletLimit < c) : ∃ t, exec (.powerEvent e) s = .next t ∧
      t.hostOut = s.hostOut ++ [.powerLow] ∧ t.grants.length = s.grants.length ∧
      (∀ i, i < 12 → t.grants.getD i 0 = min (s.grants.getD i 0) (Config.islandPeak i / 8)) ∧
      ∀ i, 12 ≤ i → t.grants[i]? = s.grants[i]? := by
  have run : exec (.powerEvent e) s = .next ({ s with grants := s.grants.zipIdx.map lowered }.tell .powerLow) := by
    rcases bad with rfl | ⟨c, rfl, hot⟩
    · exact congrArg Host.Outcome.next (if_pos ⟨up, rfl⟩)
    · exact congrArg Host.Outcome.next (if_pos ⟨up, decide_eq_true hot⟩)
  have at_ : ∀ i : Nat, (s.grants.zipIdx.map lowered)[i]? =
      (s.grants[i]?).map fun g => lowered (g, i) := fun i => by
    rw [List.getElem?_map, List.getElem?_zipIdx, Option.map_map, Nat.zero_add]
    rfl
  refine ⟨_, run, rfl, by simp, fun i low => ?_, fun i high => ?_⟩
  · change (s.grants.zipIdx.map lowered).getD i 0 = _
    rw [List.getD_eq_getElem?_getD, at_, List.getD_eq_getElem?_getD]
    cases s.grants[i]? with
    | none => simp
    | some g => simp [lowered, low]
  · refine (at_ i).trans ?_
    have out : ¬ i < 12 := by omega
    simp [lowered, out]

end Sys2Proof.Machine
end

section
/-! PROOFS. The end of a virtual function's launches (30 R367, R370, Table 30.1). -/

namespace Sys2Proof.Machine

/-! ## A launch is killed -/

/-- The launch as its end is noted. -/
def Launch.noted (x : Launch) : Launch := { x with killing := true, suspended := false, reports := [], held := [] }

/-- Of the teams and launches, the end of a launch concerns its own. -/
theorem State.ends_killLaunch_own {s : State} (once : (s.teams.map (·.id)).Nodup) (lid : Nat) :
    (s.modLaunch lid Launch.noted).Ends (· = lid) (s.killLaunch lid) := by
  refine State.ends_killTeams _ (s.modLaunch lid Launch.noted) fun u m tm found => ?_
  obtain ⟨mem, mine⟩ := List.mem_filter.1 m
  have same : s.team? u.id = some u := State.team?_of_mem once mem
  cases same.symm.trans found
  exact (of_decide_eq_true mine).1

theorem State.killLaunch_ids (s : State) (lid : Nat) : (s.killLaunch lid).teams.map (·.id) = s.teams.map (·.id) :=
  (s.ends_killLaunch lid).ids

theorem State.killLaunch_launch?_ne {s : State} (once : (s.teams.map (·.id)).Nodup) {lid k : Nat} (ne : k ≠ lid) :
    (s.killLaunch lid).launch? k = s.launch? k := by
  have kept := (State.ends_killLaunch_own once lid).launch k
  have noted : (s.modLaunch lid Launch.noted).launch? k = s.launch? k := by
    rw [State.launch?_modLaunch s lid k Launch.noted fun _ => rfl, if_neg ne]
  rw [noted] at kept
  cases found : s.launch? k with
  | none =>
    rw [found] at kept
    cases h : (s.killLaunch lid).launch? k with
    | none => rfl
    | some l => rw [h] at kept; cases kept
  | some l =>
    obtain ⟨l', found', -, same⟩ := rel_some kept found
    rw [found', same ne]

/-- The launch that is killed. -/
theorem State.killLaunch_launch? {s : State} {lid : Nat} {l : Launch} (found : s.launch? lid = some l) :
    ∃ l', (s.killLaunch lid).launch? lid = some l' ∧ l.noted.Counted l' := by
  obtain ⟨l', found', counted, -⟩ := (s.ends_killLaunch lid).launch_of (State.launch?_modLaunch_self (f := Launch.noted) found fun _ => rfl)
  exact ⟨l', found', counted⟩

/-- A launch that is being killed stays so when another is killed. -/
theorem State.killLaunch_killing {s : State} (lid : Nat) {k : Nat} (h : ∃ l, s.launch? k = some l ∧ l.killing = true) :
    ∃ l, (s.killLaunch lid).launch? k = some l ∧ l.killing = true := by
  obtain ⟨l, found, killing⟩ := h
  have noted : ∃ x, (s.modLaunch lid Launch.noted).launch? k = some x ∧ x.killing = true := by
    rw [State.launch?_modLaunch s lid k Launch.noted fun _ => rfl, found]
    split
    · exact ⟨_, rfl, rfl⟩
    · exact ⟨_, rfl, killing⟩
  obtain ⟨x, found, killing⟩ := noted
  obtain ⟨l', found', counted, -⟩ := (s.ends_killLaunch lid).launch_of found
  exact ⟨l', found', by rw [counted.frame]; exact killing⟩

/-! ## What does not change -/

/-- The state and the context of each launch, which decide whose launches run. -/
def State.running (s : State) : List (Nat × LaunchSt × Nat) := s.launches.map fun l => (l.id, l.st, l.ctx)

/-- Launches that end leave the package's interfaces and what the launches are. -/
structure State.Kills (s t : State) : Prop where
  frame : t = { s with launches := t.launches, teams := t.teams, clusters := t.clusters, queues := t.queues, cores := t.cores }
  running : t.running = s.running

theorem State.Kills.trans {a b c : State} (ab : a.Kills b) (bc : b.Kills c) : a.Kills c :=
  ⟨by rw [bc.frame, ab.frame], bc.running.trans ab.running⟩

theorem State.kills_of_ends {P : Nat → Prop} {s t : State} (e : s.Ends P t) : s.Kills t where
  frame := e.frame
  running := by
    have same : List.Forall₂ (· = ·) s.running t.running := by
      refine List.forall₂_map_left_iff.2 (List.forall₂_map_right_iff.2 (e.launches.imp fun _ _ r => ?_))
      rw [r.1.frame]
    rw [List.forall₂_eq_eq_eq] at same
    exact same.symm

theorem State.kills_killLaunch (s : State) (lid : Nat) : s.Kills (s.killLaunch lid) := by
  refine .trans (b := s.modLaunch lid Launch.noted) ⟨rfl, ?_⟩ (State.kills_of_ends (s.ends_killLaunch lid))
  simp only [State.running, State.modLaunch, List.map_map]
  refine List.map_congr_left fun l _ => ?_
  dsimp only [Function.comp]
  split <;> rfl

theorem State.kills_killVf (s : State) (vf : Nat) : s.Kills (s.killVf vf) :=
  List.foldlRecOn (motive := s.Kills) _ _ ⟨rfl, rfl⟩ fun t k l _ => k.trans (t.kills_killLaunch l.id)

theorem State.launchesOf_eq_nil (s : State) (vf : Nat) : s.launchesOf vf = [] ↔
    ∀ e ∈ s.running, ¬ ((e.2.1 == .running || e.2.1 == .ending) && ((s.ctx? e.2.2).map fun c => c.vf == vf).getD false) = true := by
  simp only [State.launchesOf, List.filter_eq_nil_iff, State.running, List.forall_mem_map]

theorem State.Kills.launchesOf {s t : State} (k : s.Kills t) (vf : Nat) : t.launchesOf vf = [] ↔ s.launchesOf vf = [] := by
  have ctx : ∀ c, t.ctx? c = s.ctx? c := fun c => by
    unfold State.ctx?
    rw [k.frame]
  simp only [State.launchesOf_eq_nil, k.running, ctx]

/-! ## A function-level reset of a virtual function -/

theorem State.launch?_of_mem {s : State} (once : (s.launches.map (·.id)).Nodup) {y : Launch} (m : y ∈ s.launches) :
    s.launch? y.id = some y := by
  cases found : s.launch? y.id with
  | none => exact absurd (List.find?_eq_none.1 found y m) (by simp)
  | some x => rw [List.inj_on_of_nodup_map once (List.mem_of_find?_eq_some found) m (State.launch?_id found)]

section
variable {s : State} {vf : Nat} {l : Launch} {c : Context} (m : l ∈ s.launches) (fc : s.ctx? l.ctx = some c)
  (launches : (s.launches.map (·.id)).Nodup)
include m fc launches

/-- A running launch of the function is killed. -/
theorem State.killVf_kills (mine : c.vf = vf) (st : l.st = .running) : ∃ l', (s.killVf vf).launch? l.id = some l' ∧ l'.killing = true := by
  have member : l ∈ (s.launchesOf vf).filter (·.st == .running) := by
    simp [State.launchesOf, m, st, fc, mine]
  refine foldl_reaches (f := fun (s : State) (l : Launch) => s.killLaunch l.id) (Q := fun s => ∃ x, s.launch? l.id = some x)
    (P := fun s => ∃ x, s.launch? l.id = some x ∧ x.killing = true) ?_ ?_
    (fun s b h => State.killLaunch_killing b.id h) _ _ member ⟨l, State.launch?_of_mem launches m⟩
  · rintro s b ⟨x, found⟩
    have noted : ∃ y, (s.modLaunch b.id Launch.noted).launch? l.id = some y := by
      rw [State.launch?_modLaunch s b.id l.id Launch.noted fun _ => rfl, found]
      split <;> exact ⟨_, rfl⟩
    obtain ⟨y, found⟩ := noted
    obtain ⟨l', found', -⟩ := (s.ends_killLaunch b.id).launch_of found
    exact ⟨l', found'⟩
  · rintro s ⟨x, found⟩
    obtain ⟨l', found', counted⟩ := State.killLaunch_launch? found
    exact ⟨l', found', by rw [counted.frame]; rfl⟩

/-- A launch of another function stays as it is. -/
theorem State.killVf_other (teams : (s.teams.map (·.id)).Nodup) (other : c.vf ≠ vf) : (s.killVf vf).launch? l.id = some l := by
  have apart : ∀ b ∈ (s.launchesOf vf).filter (·.st == .running), b.id ≠ l.id := by
    intro b mb same
    obtain ⟨of, -⟩ := List.mem_filter.1 mb
    obtain ⟨memb, named⟩ := List.mem_filter.1 of
    cases List.inj_on_of_nodup_map launches memb m same
    simp [fc, other] at named
  refine (foldl_apart (f := fun (s : State) (l : Launch) => s.killLaunch l.id) (key := Launch.id) (n := l.id)
    (P := fun s => (s.teams.map (·.id)).Nodup ∧ s.launch? l.id = some l) ?_ apart ⟨teams, State.launch?_of_mem launches m⟩).2
  rintro s b ne ⟨once, found⟩
  exact ⟨by rw [State.killLaunch_ids]; exact once, (State.killLaunch_launch?_ne once ne.symm).trans found⟩

end

end Sys2Proof.Machine
end

section
/-! PROOFS. The eviction of a compute die's cache (12 R166, 30 R371): every dirty byte reaches its home. -/

namespace Sys2Proof.Machine

/-! ## What concerns one line -/

/-- Of memory and the die caches, the lines other than one stay. -/
structure State.OnLine (k : Nat) (s t : State) : Prop where
  line : ∀ d j, j ≠ k → lineOf (t.die d).dc j = lineOf (s.die d).dc j
  mem : ∀ pa, pa / 64 ≠ k → t.mem.get 0 pa = s.mem.get 0 pa
  dies : t.dies.length = s.dies.length

namespace State.OnLine

variable {k : Nat}

theorem refl (s : State) : State.OnLine k s s := ⟨fun _ _ _ => rfl, fun _ _ => rfl, rfl⟩

theorem trans {a b c : State} (ab : State.OnLine k a b) (bc : State.OnLine k b c) : State.OnLine k a c :=
  ⟨fun d j ne => (bc.line d j ne).trans (ab.line d j ne), fun pa ne => (bc.mem pa ne).trans (ab.mem pa ne), bc.dies.trans ab.dies⟩

theorem memLine (s : State) (m : BitVec 64) (d : BitVec 512) : State.OnLine k s (s.memLine k m d) where
  line _ _ _ := rfl
  mem pa ne := by rw [State.memLine_get, if_neg fun h => ne h.1]
  dies := rfl

theorem modDie (s : State) (d : Nat) {f : Die → Die} (keeps : ∀ y j, j ≠ k → lineOf (f y).dc j = lineOf y.dc j) :
    State.OnLine k s (s.modDie d f) where
  line x j ne := by
    rw [State.die_modDie]
    split
    · exact keeps _ j ne
    · rfl
  mem _ _ := rfl
  dies := by rw [State.modDie_dies, List.length_modify]

/-- A byte of another line is at its home as before. -/
theorem homeByte {s t : State} (o : State.OnLine k s t) {pa : Nat} (ne : pa / 64 ≠ k) : t.homeByte pa = s.homeByte pa := by
  unfold State.homeByte
  cases homeDie pa with
  | none => exact o.mem pa ne
  | some d => simp only [o.line d _ ne, o.mem pa ne]

end State.OnLine

theorem lineOf_setLine_ne (m : Map Line) {k j : Nat} (ne : j ≠ k) (l : Line) : lineOf (setLine m k l) j = lineOf m j := by
  rw [lineOf_setLine, if_neg ne]

theorem lineOf_del (m : Map Line) (k j : Nat) : lineOf (Map.del m k) j = if j = k then Line.none else lineOf m j :=
  Map.get_del ..

section
variable (s : State) (d k : Nat)

theorem State.onLine_homeLine (m : BitVec 64) (x : BitVec 512) : State.OnLine k s (s.homeLine k m x) := by
  unfold State.homeLine
  split
  · exact .memLine s m x
  · split
    · exact .modDie s _ fun y j ne => lineOf_setLine_ne y.dc ne _
    · exact .memLine s m x

theorem State.onLine_homeFlush : State.OnLine k s (s.homeFlush k) := by
  unfold State.homeFlush
  split
  · exact .refl s
  · exact .trans (.memLine s _ _) (.modDie _ _ fun y j ne => (lineOf_del y.dc k j).trans (if_neg ne))

theorem State.onLine_wbDie : State.OnLine k s (s.wbDie d k) := by
  unfold State.wbDie
  refine .trans ?_ (.modDie _ d fun y j ne => lineOf_setLine_ne y.dc ne _)
  split
  · exact .refl s
  · exact s.onLine_homeLine ..

theorem State.onLine_evictDc : State.OnLine k s (s.evictDc d k) := by
  unfold State.evictDc
  split
  · exact s.onLine_homeFlush k
  · exact (s.onLine_wbDie d k).trans (.modDie _ d fun y j ne => (lineOf_del y.dc k j).trans (if_neg ne))

end

/-! ## Bytes that reach their home -/

/-- A line lies in one home. -/
theorem homeDie_line (k : Nat) {i : Nat} (low : i < 64) : homeDie (64 * k + i) = homeDie (64 * k) := by
  unfold homeDie
  have whole : (64 * k + i) / 2 ^ 36 = 64 * k / 2 ^ 36 := by omega
  have inside : 64 * k + i < 12 * 2 ^ 36 ↔ 64 * k < 12 * 2 ^ 36 := by omega
  simp only [whole, inside]

theorem homeDie_lt {pa d : Nat} (h : homeDie pa = some d) : d < 4 := by
  unfold homeDie at h
  split at h
  · cases h
    omega
  · cases h

theorem State.homeByte_modDie_ne (s : State) {d pa : Nat} (f : Die → Die) (ne : homeDie pa ≠ some d) :
    (s.modDie d f).homeByte pa = s.homeByte pa := by
  unfold State.homeByte
  cases home : homeDie pa with
  | none => rfl
  | some x =>
    have other : ¬ (x = d ∧ d < s.dies.length) := fun h => ne (h.1 ▸ home)
    simp only [State.die_modDie, if_neg other]
    rfl

theorem State.homeFlush_of {s : State} {k d : Nat} (home : homeDie (64 * k) = some d) : s.homeFlush k =
    (s.memLine k (lineOf (s.die d).dc k).dirty (lineOf (s.die d).dc k).data).modDie d fun y => { y with dc := Map.del y.dc k } := by
  unfold State.homeFlush
  rw [home]

section
variable {s : State} {k i : Nat} (low : i < 64) (dies : s.dies.length = 4)
include low

theorem State.memLine_byte {m : BitVec 64} (bit : m.getLsbD i = true) (x : BitVec 512) :
    (s.memLine k m x).mem.get 0 (64 * k + i) = x.extractLsb' (8 * i) 8 := by
  have line : (64 * k + i) / 64 = k := by omega
  have at_ : (64 * k + i) % 64 = i := by omega
  rw [State.memLine_get, line, at_, if_pos ⟨rfl, bit⟩]

/-- The home of a byte that no line of its die holds is memory. -/
theorem State.homeByte_uncached {d : Nat} (home : homeDie (64 * k) = some d) (absent : lineOf (s.die d).dc k = Line.none) :
    s.homeByte (64 * k + i) = s.mem.get 0 (64 * k + i) := by
  have line : (64 * k + i) / 64 = k := by omega
  unfold State.homeByte
  rw [homeDie_line k low, home]
  simp [line, absent, Line.none]

include dies

/-- A byte written at its home is there. -/
theorem State.homeLine_byte {m : BitVec 64} (bit : m.getLsbD i = true) (x : BitVec 512) :
    (s.homeLine k m x).homeByte (64 * k + i) = x.extractLsb' (8 * i) 8 := by
  have line : (64 * k + i) / 64 = k := by omega
  have at_ : (64 * k + i) % 64 = i := by omega
  unfold State.homeLine
  cases home : homeDie (64 * k) with
  | none =>
    dsimp only
    unfold State.homeByte
    rw [homeDie_line k low, home]
    exact State.memLine_byte low bit x
  | some d =>
    dsimp only
    split
    · have here : d = d ∧ d < s.dies.length := ⟨rfl, dies ▸ homeDie_lt home⟩
      have valid : ((lineOf (s.die d).dc k).merge m x true).valid.getLsbD i = true := by
        rw [Line.merge_valid, BitVec.getLsbD_or, bit, Bool.or_true]
      have some_ : ((lineOf (s.die d).dc k).merge m x true).valid ≠ 0 := fun zero => by
        rw [zero] at valid
        simp at valid
      unfold State.homeByte
      rw [homeDie_line k low, home]
      dsimp only
      rw [State.die_modDie, if_pos here, line, at_, lineOf_setLine, if_pos rfl, if_neg some_, if_pos valid,
        Line.byte_merge _ _ _ _ _ low, if_pos bit]
    case isFalse full =>
      have absent : lineOf (s.die d).dc k = Line.none := by
        simp only [hasRoom, Bool.or_eq_true, not_or] at full
        rcases lineOf_mem_or_none (s.die d).dc k with listed | absent
        · have found := full.1
          have isSome : (List.find? (fun p => decide (p.1 = k)) (s.die d).dc).isSome := List.find?_isSome.2 ⟨_, listed, by simp⟩
          rw [Map.find?_eq_list, Option.isSome_map] at isSome
          exact absurd isSome found
        · exact absent
      exact (State.homeByte_uncached (s := s.memLine k m x) low home absent).trans (State.memLine_byte low bit x)

/-- The eviction of a line brings its dirty bytes to their home, and the die holds it no longer. -/
theorem State.evictDc_byte {d : Nat} (hd : d < 4) (dirty : (lineOf (s.die d).dc k).dirty.getLsbD i = true) :
    lineOf ((s.evictDc d k).die d).dc k = Line.none ∧ (s.evictDc d k).homeByte (64 * k + i) = (lineOf (s.die d).dc k).byte i := by
  unfold State.evictDc
  split
  case isTrue home =>
    rw [State.homeFlush_of home]
    have gone : lineOf (((s.memLine k (lineOf (s.die d).dc k).dirty (lineOf (s.die d).dc k).data).modDie d
        fun y => { y with dc := Map.del y.dc k }).die d).dc k = Line.none := by
      rw [State.die_modDie, if_pos ⟨rfl, show d < s.dies.length from dies ▸ hd⟩, lineOf_del, if_pos rfl]
    refine ⟨gone, ?_⟩
    rw [State.homeByte_uncached low home gone, State.modDie_mem, State.memLine_byte low dirty, Line.byte]
  case isFalse away =>
    have away' : homeDie (64 * k + i) ≠ some d := by rw [homeDie_line k low]; exact away
    have some_ : (lineOf (s.die d).dc k).dirty ≠ 0 := fun zero => by simp [zero] at dirty
    have length : (s.wbDie d k).dies.length = 4 := (s.onLine_wbDie d k).dies.trans dies
    refine ⟨?_, ?_⟩
    · rw [State.die_modDie, if_pos ⟨rfl, length.symm ▸ hd⟩, lineOf_del, if_pos rfl]
    · rw [State.homeByte_modDie_ne _ _ away', State.wbDie]
      rw [if_neg some_, State.homeByte_modDie_ne _ _ away']
      exact State.homeLine_byte low dies dirty _

end

/-! ## The whole cache -/

/-- The die's cache is evicted line by line. -/
def State.evictDie (s : State) (d : Nat) : State := ((s.die d).dc.map (·.1)).foldl (fun s k => s.evictDc d k) s

theorem State.homeWritten_evictDie (s : State) (d : Nat) : s.HomeWritten (s.evictDie d) :=
  .foldl (fun s k => s.homeWritten_evictDc d k) _ s

theorem State.evictDie_length (s : State) (d : Nat) : (s.evictDie d).dies.length = s.dies.length :=
  List.foldlRecOn (motive := fun t : State => t.dies.length = s.dies.length) _ _ rfl
    fun t e k _ => (t.onLine_evictDc d k).dies.trans e

section
variable {s : State} {d k i : Nat} (ok : s.cacheOk) (hd : d < 4) (low : i < 64)
  (dirty : (lineOf (s.die d).dc k).dirty.getLsbD i = true)
include ok hd low dirty

theorem State.evictDie_byte : lineOf ((s.evictDie d).die d).dc k = Line.none ∧
    (s.evictDie d).homeByte (64 * k + i) = (lineOf (s.die d).dc k).byte i := by
  obtain ⟨dies, -, wf, -, -⟩ := ok
  have keys : ((s.die d).dc.map (·.1)).Nodup := (List.pairwise_map.2 ((Map.wf_iff _ _).1 (wf d)).1).imp Nat.ne_of_lt
  have listed : k ∈ (s.die d).dc.map (·.1) := by
    rcases lineOf_mem_or_none (s.die d).dc k with listed | absent
    · exact List.mem_map_of_mem (f := (·.1)) listed
    · simp [absent, Line.none] at dirty
  refine foldl_once (f := fun (s : State) k => s.evictDc d k) (key := id)
    (P := fun t : State => t.dies.length = 4 ∧ lineOf (t.die d).dc k = lineOf (s.die d).dc k)
    (Q := fun t : State => lineOf (t.die d).dc k = Line.none ∧ t.homeByte (64 * k + i) = (lineOf (s.die d).dc k).byte i)
    ?_ ?_ ?_ (by rwa [List.map_id]) listed ⟨dies, rfl⟩
  · rintro t j ne ⟨length, same⟩
    have only := t.onLine_evictDc d j
    exact ⟨only.dies.trans length, (only.line d k (Ne.symm ne)).trans same⟩
  · rintro t ⟨length, same⟩
    rw [← same] at dirty ⊢
    exact State.evictDc_byte low length hd dirty
  · rintro t j ne ⟨gone, there⟩
    have only := t.onLine_evictDc d j
    have line : (64 * k + i) / 64 ≠ j := by
      have : j ≠ k := ne
      omega
    exact ⟨(only.line d k (Ne.symm ne)).trans gone, (only.homeByte line).trans there⟩

/-- A dirty byte of a die that is then cleared is at its home. -/
theorem State.evictDie_home : ((s.evictDie d).modDie d fun _ => Die.reset).homeByte (64 * k + i) = s.dieByte d (64 * k + i) := by
  have line : (64 * k + i) / 64 = k := by omega
  have at_ : (64 * k + i) % 64 = i := by omega
  obtain ⟨gone, there⟩ := State.evictDie_byte ok hd low dirty
  obtain ⟨dies, -, -, -, valid⟩ := ok
  have valid : (lineOf (s.die d).dc k).valid.getLsbD i = true := by
    have bit := congrArg (·.getLsbD i) (valid d k)
    simpa [low, dirty] using bit
  have byte : s.dieByte d (64 * k + i) = (lineOf (s.die d).dc k).byte i := by
    unfold State.dieByte
    simp only [line, at_, valid, if_true]
  rw [byte, ← there]
  by_cases home : homeDie (64 * k) = some d
  · rw [State.homeByte_uncached low home gone]
    refine State.homeByte_uncached low home ?_
    rw [State.die_modDie, if_pos ⟨rfl, by rw [State.evictDie_length, dies]; exact hd⟩]
    rfl
  · exact State.homeByte_modDie_ne _ _ (by rw [homeDie_line k low]; exact home)

end

end Sys2Proof.Machine
end

section
/-! PROOFS. The teams and launches of a compute die that is reset (30 R371): their items are lost, and the loss is reported. -/

namespace Sys2Proof.Machine

/-! ## What a loss leaves -/

/-- A team that may have ended, and whose operations may have been dropped. -/
structure Team.Lost (a b : Team) : Prop where
  id : b.id = a.id
  launch : b.launch = a.launch
  retired : a.st = .retired → b.st = .retired
  groups : List.Forall₂ Group.Ends a.groups b.groups

/-- Teams, by their number and launch, may be lost; the launches' descriptions and the other teams stay. -/
structure State.Loses (P : Nat → Nat → Prop) (s t : State) : Prop where
  now : t.now = s.now
  ids : t.teams.map (·.id) = s.teams.map (·.id)
  launch : ∀ k, Option.Rel (fun l l' : Launch => l'.desc = l.desc) (s.launch? k) (t.launch? k)
  team : ∀ k, Option.Rel (fun a b : Team => a.Lost b ∧ (¬ P a.id a.launch → b = a)) (s.team? k) (t.team? k)

theorem Team.Lost.refl (a : Team) : a.Lost a := ⟨rfl, rfl, fun h => h, List.forall₂_same.2 fun g _ => .refl g⟩

theorem Team.Lost.trans {a b c : Team} (ab : a.Lost b) (bc : b.Lost c) : a.Lost c :=
  ⟨bc.id.trans ab.id, bc.launch.trans ab.launch, bc.retired ∘ ab.retired, forall₂_trans (fun _ _ _ h h' => h.trans h') ab.groups bc.groups⟩

theorem Team.Ends.lost {a b : Team} (e : a.Ends b) : a.Lost b := ⟨e.id_eq, e.launch, e.retired, e.groups⟩

/-- A team that has retired, and all of whose groups and operations have ended. -/
def Team.Gone (t : Team) : Prop := t.st = .retired ∧ ∀ g ∈ t.groups, g.live = false ∧ ∀ o ∈ g.ops, o.done = true

theorem Team.Lost.gone {a b : Team} (r : a.Lost b) (h : a.Gone) : b.Gone := by
  obtain ⟨st, groups⟩ := h
  refine ⟨r.retired st, ?_⟩
  have all := r.groups
  generalize a.groups = gs at all groups
  generalize b.groups = gs' at all
  induction all with
  | nil => simp
  | @cons g g' gs gs' first _ ih =>
    obtain ⟨live, done⟩ := groups g (List.mem_cons_self ..)
    rintro x mx
    rcases List.mem_cons.1 mx with rfl | mx
    · exact ⟨first.live live, first.done done⟩
    · exact ih (fun y my => groups y (List.mem_cons_of_mem _ my)) x mx

namespace State.Loses

variable {P : Nat → Nat → Prop}

theorem trans {a b c : State} (ab : a.Loses P b) (bc : b.Loses P c) : a.Loses P c where
  now := bc.now.trans ab.now
  ids := bc.ids.trans ab.ids
  launch k := rel_trans (fun _ _ _ h h' => h'.trans h) (ab.launch k) (bc.launch k)
  team k := rel_trans (fun _ _ _ h h' => ⟨h.1.trans h'.1, fun n => (h'.2 (by rw [h.1.id, h.1.launch]; exact n)).trans (h.2 n)⟩)
    (ab.team k) (bc.team k)

theorem rel_desc (o : Option Launch) : Option.Rel (fun l l' : Launch => l'.desc = l.desc) o o :=
  rel_refl (r := fun l l' : Launch => l'.desc = l.desc) (fun _ => rfl) o

/-- The teams stay, and the launches' descriptions. -/
theorem aside {s t : State} (now : t.now = s.now) (teams : t.teams = s.teams)
    (launch : ∀ k, Option.Rel (fun l l' : Launch => l'.desc = l.desc) (s.launch? k) (t.launch? k)) : s.Loses P t where
  now := now
  ids := by rw [teams]
  launch := launch
  team k := by
    rw [show t.team? k = s.team? k by unfold State.team?; rw [teams]]
    exact rel_refl (fun a => ⟨.refl a, fun _ => rfl⟩) _

theorem frame {s t : State} (now : t.now = s.now) (teams : t.teams = s.teams) (launches : t.launches = s.launches) : s.Loses P t :=
  .aside now teams fun k => by
    rw [show t.launch? k = s.launch? k by unfold State.launch?; rw [launches]]
    exact rel_desc _

theorem refl (s : State) : s.Loses P s := .frame rfl rfl rfl

theorem modLaunch (s : State) (lid : Nat) {f : Launch → Launch} (id : ∀ l, (f l).id = l.id) (desc : ∀ l, (f l).desc = l.desc) :
    s.Loses P (s.modLaunch lid f) := by
  refine .aside rfl rfl fun k => ?_
  rw [State.launch?_modLaunch s lid k f id]
  split
  · exact rel_map desc _
  · exact rel_desc _

theorem modTeam (s : State) {t : Nat} (own : ∀ a, s.team? t = some a → P a.id a.launch) {f : Team → Team} (h : ∀ a : Team, a.Lost (f a)) :
    s.Loses P (s.modTeam t f) where
  now := rfl
  ids := by
    simp only [State.modTeam, List.map_map]
    refine List.map_congr_left fun a _ => ?_
    dsimp only [Function.comp]
    split
    · exact (h a).id
    · rfl
  launch k := rel_desc _
  team k := by
    rw [State.team?_modTeam s t k f fun a => (h a).id]
    split
    case isTrue e =>
      subst e
      cases found : s.team? k with
      | none => exact .none
      | some a => exact .some ⟨h a, fun n => absurd (own a found) n⟩
    case isFalse => exact rel_refl (fun a => ⟨.refl a, fun _ => rfl⟩) _

theorem ends {Q : Nat → Prop} {s t : State} (e : s.Ends Q t) (own : ∀ k a, s.team? k = some a → Q a.launch → P a.id a.launch) :
    s.Loses P t where
  now := e.now
  ids := e.ids
  launch k := by
    have r := e.launch k
    cases found : s.launch? k with
    | none =>
      rw [found] at r
      cases h : t.launch? k with
      | none => exact .none
      | some l => rw [h] at r; cases r
    | some l =>
      obtain ⟨l', found', counted, -⟩ := rel_some r found
      rw [found']
      exact .some (by rw [counted.frame])
  team k := by
    have r := e.team k
    cases found : s.team? k with
    | none =>
      rw [found] at r
      cases h : t.team? k with
      | none => exact .none
      | some l => rw [h] at r; cases r
    | some a =>
      obtain ⟨b, found', ended, same⟩ := rel_some r found
      rw [found']
      exact .some ⟨ended.lost, fun n => same fun q => n (own k a found q)⟩

theorem homeWritten {s t : State} (w : s.HomeWritten t) : s.Loses P t := .frame w.now w.teams w.launches

end State.Loses

/-! ## A team's items are lost -/

/-- A group of a lost team. -/
def Group.forfeit (g : Group) : Group :=
  { g with
    live := false, splits := [], joins := [], occ := 0, pend := [], score := [], vregs := [], sregs := [], kregs := []
    tiles := [], tflags := [], xp := none, efaults := [], ops := g.ops.filter (·.done), ctrs := [[], [], [], [], []] }

/-- A lost team. -/
def Team.forfeit (t : Team) : Team :=
  { t with st := .retired, cur := none, nxt := none, wantBlk := false, quartArr := [], spanArr := [], groups := t.groups.map Group.forfeit }

theorem Group.ends_forfeit (g : Group) : g.Ends g.forfeit :=
  ⟨rfl, rfl, fun _ => rfl, fun _ => rfl, fun done o m => done o (List.mem_filter.1 m).1⟩

theorem Team.lost_forfeit (t : Team) : t.Lost t.forfeit := ⟨rfl, rfl, fun _ => rfl, Team.forall₂_map Group.ends_forfeit t.groups⟩

theorem Team.gone_forfeit (t : Team) : t.forfeit.Gone := by
  refine ⟨rfl, fun g m => ?_⟩
  obtain ⟨x, -, rfl⟩ := List.mem_map.1 m
  exact ⟨rfl, fun o mo => (List.mem_filter.1 mo).2⟩

/-- The items of a team that is lost are counted, and then it retires. -/
theorem State.loseTeam_of {s : State} {tm : Team} {l : Launch} (found : s.launch? tm.launch = some l) :
    ∃ c : State, s.loseTeam tm = c.modTeam tm.id Team.forfeit ∧ c.teams = s.teams ∧
      c.now = s.now ∧ c.tdis = s.tdis ∧ c.dies = s.dies ∧ ∀ k,
      c.launch? k = if k = l.id then (s.launch? k).map (·.tally s.now .lost (s.heldItems l tm)) else s.launch? k := by
  have counts : ∃ st, s.loseTeam tm = ({ s.countItems l.id .lost (s.heldItems l tm) with store := st }).modTeam tm.id Team.forfeit := by
    unfold State.loseTeam
    rw [found]
    exact ⟨_, rfl⟩
  obtain ⟨st, e⟩ := counts
  refine ⟨_, e, ?_, ?_, ?_, ?_, fun k => State.countItems_launch? s l.id k .lost (s.heldItems l tm)⟩
  · exact State.countItems_teams ..
  · rw [State.countItems_eq]; rfl
  · rw [State.countItems_eq]; rfl
  · rw [State.countItems_eq]; rfl

theorem State.loseTeam_none {s : State} {tm : Team} (none : s.launch? tm.launch = none) : s.loseTeam tm = s := by
  unfold State.loseTeam
  rw [none]

theorem State.loses_loseTeam {P : Nat → Nat → Prop} (s : State) (tm : Team) (own : ∀ b, P tm.id b) : s.Loses P (s.loseTeam tm) := by
  cases found : s.launch? tm.launch with
  | none => rw [State.loseTeam_none found]; exact .refl s
  | some l =>
    obtain ⟨c, e, teams, now, -, -, launch⟩ := State.loseTeam_of found
    rw [e]
    have counted : s.Loses P c := .aside now teams fun k => by
      rw [launch]
      split
      · refine rel_map (fun _ => ?_) _
        rfl
      · exact State.Loses.rel_desc _
    refine counted.trans (.modTeam c (fun a fa => ?_) Team.lost_forfeit)
    rw [State.team?_id fa]
    exact own _

/-- The lost team is gone. -/
theorem State.loseTeam_gone {s : State} {tm a : Team} (fa : s.team? tm.id = some a) (found : (s.launch? tm.launch).isSome) :
    ∃ y, (s.loseTeam tm).team? tm.id = some y ∧ y.Gone := by
  obtain ⟨l, found⟩ := Option.isSome_iff_exists.1 found
  obtain ⟨c, e, teams, -⟩ := State.loseTeam_of found
  rw [e]
  refine ⟨a.forfeit, State.modTeam_team?_self ?_ fun _ => rfl, a.gone_forfeit⟩
  unfold State.team? at fa ⊢
  rw [teams]
  exact fa

/-! ## The report of a loss -/

/-- What grid containment does about lost items (03 R41). -/
def Launch.grid (l : Launch) : Action := l.desc.policy.getD 4 .kparent

/-- A loss that has been logged. -/
def State.lossLogged (s : State) (lid seq n : Nat) (entry : List Byte) : State :=
  ((({ s with free := s.free + 1 }).modLaunch lid fun l => { l with seq := seq }).logFault lid entry).tell (.lostItems lid n)

/-- A loss for which the launch waits for an answer. -/
def State.lossHeld (s : State) (lid seq : Nat) (rep : Report) (m : HostMsg) : State :=
  ((s.modLaunch lid fun l => { l with reports := l.reports ++ [rep] }).tell m).suspend lid seq

theorem State.reportLoss_of {s : State} {lid : Nat} {l : Launch} (found : s.launch? lid = some l) (team n : Nat) :
    ∃ entry rep m, s.reportLoss lid team n = match l.grid with
      | .ign => s.lossLogged lid (l.seq + 1) n entry
      | .kself => (s.lossLogged lid (l.seq + 1) n entry).killLaunch lid
      | _ => (s.lossLogged lid (l.seq + 1) n entry).lossHeld lid (l.seq + 1) rep m := by
  unfold State.reportLoss
  rw [found]
  exact ⟨_, _, _, rfl⟩

theorem State.lossLogged_launch? {s : State} {lid : Nat} {l : Launch} (found : s.launch? lid = some l) (seq n : Nat) (entry : List Byte) :
    (s.lossLogged lid seq n entry).launch? lid = some { l with seq := seq, nfault := l.nfault + 1 } := by
  have first : (({ s with free := s.free + 1 }).modLaunch lid fun l => { l with seq := seq }).launch? lid = some { l with seq := seq } :=
    State.launch?_modLaunch_self (s := { s with free := s.free + 1 }) found fun _ => rfl
  exact (State.logFault_found first entry).2.2.1

theorem State.loses_logFault {P : Nat → Nat → Prop} (s : State) (lid : Nat) (entry : List Byte) : s.Loses P (s.logFault lid entry) := by
  cases found : s.launch? lid with
  | none =>
    unfold State.logFault
    rw [found]
    exact .refl s
  | some l =>
    obtain ⟨t, w, e⟩ := State.logFault_of found entry
    rw [e]
    exact (State.Loses.homeWritten w).trans (.modLaunch t lid (fun _ => rfl) fun _ => rfl)

theorem State.loses_lossLogged {P : Nat → Nat → Prop} (s : State) (lid seq n : Nat) (entry : List Byte) :
    s.Loses P (s.lossLogged lid seq n entry) := by
  have noted : s.Loses P (({ s with free := s.free + 1 }).modLaunch lid fun l => { l with seq := seq }) :=
    .trans (b := { s with free := s.free + 1 }) (.frame rfl rfl rfl) (.modLaunch _ lid (fun _ => rfl) fun _ => rfl)
  exact (noted.trans (State.loses_logFault _ lid entry)).trans (.frame rfl rfl rfl)

theorem Team.lost_stopFor (lid now : Nat) (t : Team) : t.Lost (t.stopFor lid now) := by
  have frame := t.stopFor_frame lid now
  refine ⟨by rw [frame], by rw [frame], fun gone => ?_, by rw [frame]; exact List.forall₂_same.2 fun g _ => .refl g⟩
  unfold Team.stopFor
  rw [gone]
  split
  · exact gone
  · exact gone

theorem State.loses_suspend {P : Nat → Nat → Prop} (s : State) (lid seq : Nat)
    (own : ∀ k a, s.team? k = some a → a.launch = lid → P a.id a.launch) : s.Loses P (s.suspend lid seq) where
  now := rfl
  ids := by
    change (s.teams.map (Team.stopFor lid s.now)).map (·.id) = _
    rw [List.map_map]
    exact List.map_congr_left fun a _ => (Team.lost_stopFor lid s.now a).id
  launch k := by
    rw [State.suspend_launch?]
    split
    · refine rel_map (fun _ => ?_) _
      rfl
    · exact State.Loses.rel_desc _
  team k := by
    rw [State.suspend_team?]
    cases found : s.team? k with
    | none => exact .none
    | some a =>
      refine .some ⟨Team.lost_stopFor lid s.now a, fun n => ?_⟩
      exact if_neg fun mine => n (own k a found mine)

theorem State.loses_lossHeld {P : Nat → Nat → Prop} (s : State) (lid seq : Nat) (rep : Report) (m : HostMsg)
    (own : ∀ a : Team, a.launch = lid → P a.id a.launch) : s.Loses P (s.lossHeld lid seq rep m) := by
  have noted : s.Loses P (s.modLaunch lid fun l => { l with reports := l.reports ++ [rep] }) :=
    .modLaunch s lid (fun _ => rfl) fun _ => rfl
  have told : s.Loses P ((s.modLaunch lid fun l => { l with reports := l.reports ++ [rep] }).tell m) := noted.trans (.frame rfl rfl rfl)
  exact told.trans (State.loses_suspend _ lid seq fun _ a _ => own a)

theorem State.lossHeld_of {s : State} {lid : Nat} {l : Launch} (found : s.launch? lid = some l) (seq : Nat) (rep : Report) (m : HostMsg) :
    (∃ l', (s.lossHeld lid seq rep m).launch? lid = some l' ∧ l'.lost = l.lost ∧ l'.exited = l.exited ∧ l'.suspended = true) ∧
      (∀ x ∈ s.hostOut, x ∈ (s.lossHeld lid seq rep m).hostOut) ∧
      ∀ y ∈ (s.lossHeld lid seq rep m).teams, y.launch = lid → y.st ≠ .running := by
  have noted : ((s.modLaunch lid fun l => { l with reports := l.reports ++ [rep] }).tell m).launch? lid =
      some { l with reports := l.reports ++ [rep] } := State.launch?_modLaunch_self found fun _ => rfl
  refine ⟨⟨{ l with reports := l.reports ++ [rep], suspended := true, held := [] }, ?_, rfl, rfl, rfl⟩, fun x mx => ?_,
    fun y my mine => (State.suspend_stops _ lid seq y my mine).1⟩
  · rw [State.lossHeld, State.suspend_launch?, if_pos rfl, noted, Option.map_some]
  · exact List.mem_append_left _ (List.mem_append_left _ mx)

theorem State.loses_killLaunch {P : Nat → Nat → Prop} {s : State} (once : (s.teams.map (·.id)).Nodup) {lid : Nat}
    (own : ∀ k a, s.team? k = some a → a.launch = lid → P a.id a.launch) : s.Loses P (s.killLaunch lid) :=
  .trans (.modLaunch s lid (f := Launch.noted) (fun _ => rfl) fun _ => rfl) (.ends (State.ends_killLaunch_own once lid) own)

/-- A report concerns the teams of its launch, and none when the launch's policy is IGN. -/
theorem State.loses_reportLoss {P : Nat → Nat → Prop} {s : State} (once : (s.teams.map (·.id)).Nodup) {lid : Nat}
    (own : ∀ l, s.launch? lid = some l → l.grid ≠ .ign → ∀ a, P a lid) (team n : Nat) : s.Loses P (s.reportLoss lid team n) := by
  cases found : s.launch? lid with
  | none =>
    unfold State.reportLoss
    rw [found]
    exact .refl s
  | some l =>
    obtain ⟨entry, rep, m, e⟩ := State.reportLoss_of found team n
    rw [e]
    have logged := State.loses_lossLogged (P := P) s lid (l.seq + 1) n entry
    have once' : ((s.lossLogged lid (l.seq + 1) n entry).teams.map (·.id)).Nodup := by rw [logged.ids]; exact once
    have concerned : l.grid ≠ .ign → ∀ a : Team, a.launch = lid → P a.id a.launch := fun act a mine => by
      rw [mine]
      exact own l found act a.id
    have suspends : l.grid ≠ .ign → s.Loses P ((s.lossLogged lid (l.seq + 1) n entry).lossHeld lid (l.seq + 1) rep m) := fun act =>
      logged.trans (State.loses_lossHeld _ lid _ rep m fun a => concerned act a)
    cases act : l.grid with
    | ign => exact logged
    | kself => exact logged.trans (State.loses_killLaunch once' fun _ a _ mine => concerned (by simp [act]) a mine)
    | retry => exact suspends (by simp [act])
    | kparent => exact suspends (by simp [act])

/-! ## What a report leaves of cores and dies -/

/-- Cores that have been reset stay so, and empty queues and TLBs of dies stay empty. -/
structure State.KeepsReset (s t : State) : Prop where
  core : s.KeepsCleared t
  die : ∀ d, (s.die d).tlb = [] ∧ (s.die d).fifo = [] → (t.die d).tlb = [] ∧ (t.die d).fifo = []

namespace State.KeepsReset

theorem trans {a b c : State} (ab : a.KeepsReset b) (bc : b.KeepsReset c) : a.KeepsReset c :=
  ⟨fun k n h => bc.core k n (ab.core k n h), fun d h => bc.die d (ab.die d h)⟩

theorem frame {s t : State} (cores : t.cores = s.cores) (dies : t.dies = s.dies) : s.KeepsReset t where
  core c n h := by
    unfold State.core at h ⊢
    rw [cores]
    exact h
  die d h := by
    unfold State.die at h ⊢
    rw [dies]
    exact h

theorem refl (s : State) : s.KeepsReset s := .frame rfl rfl

theorem foldl {α : Type} {f : State → α → State} (step : ∀ (s : State) a, s.KeepsReset (f s a)) (l : List α) (s : State) :
    s.KeepsReset (l.foldl f s) :=
  List.foldlRecOn (motive := s.KeepsReset) l f (.refl s) fun t k a _ => k.trans (step t a)

end State.KeepsReset

theorem State.keepsReset_homeLine (s : State) (k : Nat) (m : BitVec 64) (x : BitVec 512) : s.KeepsReset (s.homeLine k m x) := by
  unfold State.homeLine
  split
  · exact .frame rfl rfl
  · split
    · refine ⟨fun _ _ h => h, fun d h => ?_⟩
      rw [State.die_modDie]
      split
      · exact h
      · exact h
    · exact .frame rfl rfl

theorem State.keepsReset_devWrite (s : State) (ctx va : Nat) (bs : List Byte) : s.KeepsReset (s.devWrite ctx va bs) := by
  refine .foldl (fun s c => ?_) _ s
  unfold State.devPut
  split
  · exact .refl s
  · exact .foldl (fun (s : State) (r : Nat × BitVec 64 × BitVec 512) => s.keepsReset_homeLine r.1 r.2.1 r.2.2) _ s

theorem State.keepsReset_logFault (s : State) (lid : Nat) (entry : List Byte) : s.KeepsReset (s.logFault lid entry) := by
  unfold State.logFault
  split
  · exact .refl s
  · exact ((s.keepsReset_devWrite ..).trans (State.keepsReset_devWrite ..)).trans (.frame rfl rfl)

theorem State.keepsReset_lossLogged (s : State) (lid seq n : Nat) (entry : List Byte) : s.KeepsReset (s.lossLogged lid seq n entry) := by
  have noted : s.KeepsReset (({ s with free := s.free + 1 }).modLaunch lid fun l => { l with seq := seq }) := .frame rfl rfl
  exact (noted.trans (State.keepsReset_logFault _ lid entry)).trans (.frame rfl rfl)

theorem State.keepsReset_tell (s : State) (m : HostMsg) : s.KeepsReset (s.tell m) := .frame rfl rfl

theorem State.keepsReset_suspend (s : State) (lid seq : Nat) : s.KeepsReset (s.suspend lid seq) := .frame rfl rfl

theorem State.keepsReset_lossHeld (s : State) (lid seq : Nat) (rep : Report) (m : HostMsg) : s.KeepsReset (s.lossHeld lid seq rep m) := by
  have noted : s.KeepsReset (s.modLaunch lid fun l => { l with reports := l.reports ++ [rep] }) := .frame rfl rfl
  have told := noted.trans (State.keepsReset_tell _ m)
  exact told.trans (State.keepsReset_suspend _ lid seq)

theorem State.keepsReset_killLaunch (s : State) (lid : Nat) : s.KeepsReset (s.killLaunch lid) where
  core c n h := (s.ends_killLaunch lid).core c n h
  die d h := by
    rw [(s.kills_killLaunch lid).frame]
    exact h

theorem State.keepsReset_reportLoss (s : State) (lid team n : Nat) : s.KeepsReset (s.reportLoss lid team n) := by
  cases found : s.launch? lid with
  | none =>
    unfold State.reportLoss
    rw [found]
    exact .refl s
  | some l =>
    obtain ⟨entry, rep, m, e⟩ := State.reportLoss_of found team n
    rw [e]
    have logged := s.keepsReset_lossLogged lid (l.seq + 1) n entry
    cases l.grid with
    | ign => exact logged
    | kself => exact logged.trans (State.keepsReset_killLaunch _ lid)
    | retry => exact logged.trans (State.keepsReset_lossHeld _ lid _ rep m)
    | kparent => exact logged.trans (State.keepsReset_lossHeld _ lid _ rep m)

end Sys2Proof.Machine
end

section
/-! PROOFS. The reset of a compute die (30 R371), in its steps: eviction, loss of the teams, clearing, reports. -/

namespace Sys2Proof.Machine

/-! ## The steps -/

/-- A team that the reset of a die concerns. -/
def Team.hitBy (d : Nat) (t : Team) : Bool := dieOf t.core == d && (t.onCore || t.st == .retired && t.pending)

def State.hitTeams (s : State) (d : Nat) : List Team := s.teams.filter (Team.hitBy d)

/-- The number of items that the lost teams of a launch hold. -/
def State.lostOf (s : State) (ts : List Team) (l : Nat) : Nat :=
  ((ts.filter (·.launch = l)).map fun t => match s.launch? l with
    | some x => (s.heldItems x t).length
    | none => 0).sum

/-- Of several entries of a launch, the first. -/
def firstOf (m : List (Nat × Nat × Nat)) (p : Nat × Nat × Nat) : List (Nat × Nat × Nat) := if m.any (·.1 == p.1) then m else m ++ [p]

/-- What is reported of lost teams: for each launch its first team and the number of its items. -/
def State.losses (s : State) (ts : List Team) : List (Nat × Nat × Nat) :=
  (ts.map fun t => (t.launch, t.id, s.lostOf ts t.launch)).foldl firstOf []

/-- Cores are reset. -/
def State.clearCores (s : State) (cs : List Nat) : State := cs.foldl (fun s c => s.modCore c fun _ => Core.cleared s.now) s

/-- The cores and the caches of a die start anew. -/
def State.clearDie (s : State) (d : Nat) : State := (s.clearCores ((List.range 96).map (d * 96 + ·))).modDie d fun _ => Die.reset

theorem State.resetDie_of (s : State) (d : Nat) : s.resetDie d =
    ((s.evictDie d).losses ((s.evictDie d).hitTeams d)).foldl (fun s p => s.reportLoss p.1 p.2.1 p.2.2)
      ((((s.evictDie d).hitTeams d).foldl State.loseTeam (s.evictDie d)).clearDie d) := by
  rw [State.clearDie, State.clearCores, List.foldl_map]
  rfl

theorem State.losses_mem {s : State} {ts : List Team} {p : Nat × Nat × Nat} (m : p ∈ s.losses ts) : ∃ t ∈ ts, t.launch = p.1 := by
  have all : ∀ q ∈ s.losses ts, ∃ t ∈ ts, t.launch = q.1 := by
    refine List.foldlRecOn (motive := fun m : List (Nat × Nat × Nat) => ∀ q ∈ m, ∃ t ∈ ts, t.launch = q.1) _ _ (by simp) ?_
    intro done ih q mq x mx
    unfold firstOf at mx
    split at mx
    · exact ih x mx
    · rcases List.mem_append.1 mx with old | new
      · exact ih x old
      · cases List.mem_singleton.1 new
        obtain ⟨t, mt, rfl⟩ := List.mem_map.1 mq
        exact ⟨t, mt, rfl⟩
  exact all p m

/-! ## Clearing -/

section
variable (s : State) (d : Nat)

theorem State.clearCores_frame (cs : List Nat) : s.clearCores cs = { s with cores := (s.clearCores cs).cores } :=
  List.foldlRecOn (motive := fun t : State => t = { s with cores := t.cores }) cs _ rfl fun t e c _ => by
    rw [e]
    rfl

theorem State.clearCores_core {cs : List Nat} {c : Nat} (m : c ∈ cs) : (s.clearCores cs).core c = Core.cleared s.now := by
  refine (foldl_reaches (f := fun (s : State) c => s.modCore c fun _ => Core.cleared s.now)
    (Q := fun t : State => t.now = s.now) (P := fun t : State => t.now = s.now ∧ t.core c = Core.cleared s.now)
    (fun t c now => now) (fun t now => ⟨now, ?_⟩) ?_ cs s m rfl).2
  · rw [State.core_modCore, if_pos rfl, now]
  · rintro t k ⟨now, done⟩
    refine ⟨now, ?_⟩
    rw [State.core_modCore, now]
    split
    · rfl
    · exact done

theorem State.clearDie_frame : s.clearDie d = { s with cores := (s.clearDie d).cores, dies := (s.clearDie d).dies } := by
  unfold State.clearDie
  have frame := s.clearCores_frame ((List.range 96).map (d * 96 + ·))
  generalize s.clearCores ((List.range 96).map (d * 96 + ·)) = t at frame ⊢
  rw [frame]
  rfl

theorem State.clearDie_dies : (s.clearDie d).dies = s.dies.modify d fun _ => Die.reset := by
  unfold State.clearDie
  have frame := s.clearCores_frame ((List.range 96).map (d * 96 + ·))
  generalize s.clearCores ((List.range 96).map (d * 96 + ·)) = t at frame ⊢
  rw [State.modDie_dies, frame]

theorem State.clearDie_core {c : Nat} (low : c < 384) (on : dieOf c = d) : (s.clearDie d).core c = Core.cleared s.now := by
  have named : c ∈ (List.range 96).map (d * 96 + ·) := by
    refine List.mem_map.2 ⟨c % 96, List.mem_range.2 (by omega), ?_⟩
    unfold dieOf at on
    omega
  have cleared := s.clearCores_core named
  unfold State.clearDie
  generalize s.clearCores ((List.range 96).map (d * 96 + ·)) = t at cleared ⊢
  exact cleared

theorem State.clearDie_die (low : d < s.dies.length) : (s.clearDie d).die d = Die.reset := by
  have same : (s.clearDie d).die d = (s.modDie d fun _ => Die.reset).die d := by
    unfold State.die
    rw [State.clearDie_dies, State.modDie_dies]
  rw [same, State.die_modDie, if_pos ⟨rfl, low⟩]

theorem State.loses_clearDie {P : Nat → Nat → Prop} : s.Loses P (s.clearDie d) := by
  have frame := s.clearDie_frame d
  exact .frame (by rw [frame]) (by rw [frame]) (by rw [frame])

end

/-! ## The report of one launch -/

theorem State.lossLogged_told (s : State) (lid seq n : Nat) (entry : List Byte) :
    HostMsg.lostItems lid n ∈ (s.lossLogged lid seq n entry).hostOut :=
  List.mem_append_right _ (List.mem_singleton_self _)

/-- A loss is told, and contained as the launch's policy says. -/
theorem State.reportLoss_contains {s : State} {lid : Nat} {l : Launch} (found : s.launch? lid = some l)
    (once : (s.teams.map (·.id)).Nodup) (team n : Nat) :
    ∃ l', (s.reportLoss lid team n).launch? lid = some l' ∧ l'.lost = l.lost ∧ l'.exited = l.exited ∧
      HostMsg.lostItems lid n ∈ (s.reportLoss lid team n).hostOut ∧
      (l.grid = .kself → l'.killing = true ∧ ∀ y ∈ (s.reportLoss lid team n).teams, y.launch = lid → y.st = .retired) ∧
      (l.grid ≠ .ign → l.grid ≠ .kself → l'.suspended = true ∧
        ∀ y ∈ (s.reportLoss lid team n).teams, y.launch = lid → y.st ≠ .running) := by
  obtain ⟨entry, rep, m, e⟩ := State.reportLoss_of found team n
  rw [e]
  have logged := State.lossLogged_launch? found (l.seq + 1) n entry
  have told := s.lossLogged_told lid (l.seq + 1) n entry
  have fresh : ((s.lossLogged lid (l.seq + 1) n entry).teams.map (·.id)).Nodup := by
    rw [(State.loses_lossLogged (P := fun _ _ => True) s lid (l.seq + 1) n entry).ids]
    exact once
  obtain ⟨⟨l', found', lost, exited, suspended⟩, out, stopped⟩ := State.lossHeld_of logged (l.seq + 1) rep m
  cases act : l.grid with
  | ign => exact ⟨_, logged, rfl, rfl, told, by simp, by simp⟩
  | kself =>
    obtain ⟨l', found', counted⟩ := State.killLaunch_launch? logged
    have out := (State.ends_killLaunch (s.lossLogged lid (l.seq + 1) n entry) lid).hostOut
    refine ⟨l', found', by rw [counted.frame]; rfl, by rw [counted.frame]; rfl, ?_, fun _ => ⟨by rw [counted.frame]; rfl, ?_⟩, by simp⟩
    · rw [out]
      exact told
    · exact State.killLaunch_retires logged fresh
  | retry => exact ⟨l', found', lost, exited, out _ told, by simp, fun _ _ => ⟨suspended, stopped⟩⟩
  | kparent => exact ⟨l', found', lost, exited, out _ told, by simp, fun _ _ => ⟨suspended, stopped⟩⟩

/-! ## The teams -/

section
variable {s : State} {d : Nat}

/-- Teams are lost that the reset concerns, and those of a launch that containment ends or suspends. -/
def State.concerns (s : State) (d a lid : Nat) : Prop :=
  (∃ x ∈ s.hitTeams d, x.id = a) ∨ ((∃ x ∈ s.hitTeams d, x.launch = lid) ∧ ∃ l, s.launch? lid = some l ∧ l.grid ≠ .ign)

theorem State.evictDie_hitTeams (s : State) (d : Nat) : (s.evictDie d).hitTeams d = s.hitTeams d :=
  congrArg (List.filter (Team.hitBy d)) (s.homeWritten_evictDie d).teams

theorem State.heldItems_evictDie (s : State) (d : Nat) (l : Launch) (t : Team) : (s.evictDie d).heldItems l t = s.heldItems l t := by
  unfold State.heldItems State.blkHi State.itemCount State.feed State.queue
  rw [(s.homeWritten_evictDie d).queues]

theorem State.loses_loseTeams {P : Nat → Nat → Prop} (ts : List Team) (own : ∀ x ∈ ts, ∀ b, P x.id b) (s : State) :
    s.Loses P (ts.foldl State.loseTeam s) :=
  List.foldlRecOn (motive := s.Loses P) ts _ (.refl s) fun t r x m => r.trans (t.loses_loseTeam x (own x m))

/-- The state in which losses are reported. -/
def State.lostDie (s : State) (d : Nat) : State := ((s.hitTeams d).foldl State.loseTeam (s.evictDie d)).clearDie d

theorem State.resetDie_lostDie (s : State) (d : Nat) : s.resetDie d =
    ((s.evictDie d).losses (s.hitTeams d)).foldl (fun s p => s.reportLoss p.1 p.2.1 p.2.2) (s.lostDie d) := by
  rw [State.resetDie_of, State.evictDie_hitTeams]
  rfl

theorem State.loses_lostDie (s : State) (d : Nat) : s.Loses (s.concerns d) (s.lostDie d) := by
  have evicts : s.Loses (s.concerns d) (s.evictDie d) := .homeWritten (s.homeWritten_evictDie d)
  exact (evicts.trans (State.loses_loseTeams _ (fun x m b => .inl ⟨x, m, rfl⟩) _)).trans (State.loses_clearDie ..)

theorem State.loses_reports (once : (s.teams.map (·.id)).Nodup) : (s.lostDie d).Loses (s.concerns d) (s.resetDie d) := by
  rw [State.resetDie_lostDie]
  have lost := s.loses_lostDie d
  refine List.foldlRecOn (motive := (s.lostDie d).Loses (s.concerns d)) _ _ (.refl _) fun t r p m => r.trans ?_
  have all := lost.trans r
  refine State.loses_reportLoss (by rw [all.ids]; exact once) (fun l found act a => .inr ⟨?_, ?_⟩) _ _
  · exact State.losses_mem m
  · obtain ⟨l0, found0, same⟩ := rel_some_right (all.launch p.1) found
    exact ⟨l0, found0, by unfold Launch.grid at act ⊢; rwa [same] at act⟩

theorem State.keepsReset_reports (s : State) (d : Nat) : (s.lostDie d).KeepsReset (s.resetDie d) := by
  rw [State.resetDie_lostDie]
  exact .foldl (fun (s : State) (p : Nat × Nat × Nat) => s.keepsReset_reportLoss p.1 p.2.1 p.2.2) _ _

section
variable (once : (s.teams.map (·.id)).Nodup)
include once

/-- A team that the reset does not concern stays as it is. -/
theorem State.resetDie_apart {tm : Team} (m : tm ∈ s.teams) (apart : ¬ s.concerns d tm.id tm.launch) :
    (s.resetDie d).team? tm.id = some tm := by
  obtain ⟨b, found, -, same⟩ := rel_some (((s.loses_lostDie d).trans (State.loses_reports once)).team tm.id) (State.team?_of_mem once m)
  rw [found, same apart]

theorem State.not_concerns {tm : Team} (m : tm ∈ s.teams) (unhit : tm.hitBy d = false)
    (ign : (∃ y ∈ s.teams, y.hitBy d = true ∧ y.launch = tm.launch) → ∀ l, s.launch? tm.launch = some l → l.grid = .ign) :
    ¬ s.concerns d tm.id tm.launch := by
  rintro (⟨x, mx, same⟩ | ⟨⟨x, mx, mine⟩, l, found, act⟩)
  · obtain ⟨mem, hit⟩ := List.mem_filter.1 mx
    cases List.inj_on_of_nodup_map once mem m same
    simp [unhit] at hit
  · obtain ⟨mem, hit⟩ := List.mem_filter.1 mx
    exact act (ign ⟨x, mem, hit, mine⟩ l found)

/-- A team that the reset concerns is gone. -/
theorem State.resetDie_gone (launches : ∀ tm ∈ s.teams, (s.launch? tm.launch).isSome) {tm : Team} (m : tm ∈ s.teams)
    (hit : tm.hitBy d = true) : ∃ y, (s.resetDie d).team? tm.id = some y ∧ y.Gone := by
  have later : ∀ {t u : State}, t.Loses (fun _ _ => True) u → (∃ y, t.team? tm.id = some y ∧ y.Gone) →
      ∃ y, u.team? tm.id = some y ∧ y.Gone := fun r ⟨y, found, gone⟩ => by
    obtain ⟨z, found', lost, -⟩ := rel_some (r.team tm.id) found
    exact ⟨z, found', lost.gone gone⟩
  have lost : ∃ y, ((s.hitTeams d).foldl State.loseTeam (s.evictDie d)).team? tm.id = some y ∧ y.Gone := by
    refine foldl_reaches (Q := fun t : State => (∃ a, t.team? tm.id = some a) ∧ (t.launch? tm.launch).isSome)
      (P := fun t : State => ∃ y, t.team? tm.id = some y ∧ y.Gone) ?_ ?_ ?_ _ _ (List.mem_filter.2 ⟨m, hit⟩) ⟨⟨tm, ?_⟩, ?_⟩
    · rintro t x ⟨⟨a, fa⟩, fl⟩
      have r := t.loses_loseTeam (P := fun _ _ => True) x fun _ => trivial
      obtain ⟨l, fl⟩ := Option.isSome_iff_exists.1 fl
      obtain ⟨b, fb, -⟩ := rel_some (r.team tm.id) fa
      obtain ⟨l', fl', -⟩ := rel_some (r.launch tm.launch) fl
      exact ⟨⟨b, fb⟩, by rw [fl']; rfl⟩
    · rintro t ⟨⟨a, fa⟩, fl⟩
      exact State.loseTeam_gone fa fl
    · exact fun t x gone => later (t.loses_loseTeam x fun _ => trivial) gone
    · rw [(s.homeWritten_evictDie d).team?]
      exact State.team?_of_mem once m
    · rw [(s.homeWritten_evictDie d).launch?]
      exact launches tm m
  obtain ⟨y, found, gone⟩ := later (State.loses_clearDie _ d) lost
  obtain ⟨z, found', r, -⟩ := rel_some ((State.loses_reports (d := d) once).team tm.id) found
  exact ⟨z, found', r.gone gone⟩

end

/-! ## The die and its cores -/

theorem State.loseTeam_dies (s : State) (tm : Team) : (s.loseTeam tm).dies = s.dies := by
  cases found : s.launch? tm.launch with
  | none => rw [State.loseTeam_none found]
  | some l =>
    obtain ⟨c, e, -, -, -, dies, -⟩ := State.loseTeam_of found
    rw [e]
    exact dies

theorem State.lostDie_dies (s : State) (d : Nat) : (s.lostDie d).dies = (s.evictDie d).dies.modify d fun _ => Die.reset := by
  rw [State.lostDie, State.clearDie_dies]
  exact congrArg (List.modify · d fun _ => Die.reset) (List.foldlRecOn (motive := fun t : State => t.dies = (s.evictDie d).dies) _ _ rfl
    fun t e x _ => (t.loseTeam_dies x).trans e)

section
variable (dies : s.dies.length = 4) (hd : d < 4)
include dies hd

theorem State.lostDie_die : (s.lostDie d).die d = Die.reset := by
  have same : (s.lostDie d).die d = ((s.evictDie d).modDie d fun _ => Die.reset).die d := by
    unfold State.die
    rw [State.lostDie_dies, State.modDie_dies]
  rw [same, State.die_modDie, if_pos ⟨rfl, by rw [State.evictDie_length, dies]; exact hd⟩]

theorem State.resetDie_queues : ((s.resetDie d).die d).tlb = [] ∧ ((s.resetDie d).die d).fifo = [] := by
  refine (s.keepsReset_reports d).die d ?_
  rw [State.lostDie_die dies hd]
  exact ⟨rfl, rfl⟩

end

theorem State.resetDie_core {c : Nat} (low : c < 384) (on : dieOf c = d) : (s.resetDie d).core c = Core.cleared s.now := by
  refine (s.keepsReset_reports d).core c s.now ?_
  have now : ((s.hitTeams d).foldl State.loseTeam (s.evictDie d)).now = s.now :=
    (State.loses_loseTeams (P := fun _ _ => True) _ (fun _ _ _ => trivial) _).now.trans (s.homeWritten_evictDie d).now
  rw [← now]
  exact State.clearDie_core _ d low on

/-! ## No team on the die -/

theorem State.resetDie_unhit (unhit : ∀ tm ∈ s.teams, tm.hitBy d = false) : s.resetDie d = (s.evictDie d).clearDie d := by
  have none : s.hitTeams d = [] := List.filter_eq_nil_iff.2 fun tm m => by simp [unhit tm m]
  rw [State.resetDie_lostDie, State.lostDie, none]
  rfl

/-- Without a team on it the die's cache is empty and its dirty bytes are at their homes. -/
theorem State.resetDie_home (ok : s.cacheOk) (hd : d < 4) (unhit : ∀ tm ∈ s.teams, tm.hitBy d = false) :
    (s.resetDie d).die d = Die.reset ∧ ∀ k i, i < 64 → (lineOf (s.die d).dc k).dirty.getLsbD i = true →
      (s.resetDie d).homeByte (64 * k + i) = s.dieByte d (64 * k + i) := by
  rw [State.resetDie_unhit unhit]
  refine ⟨State.clearDie_die _ d (by rw [State.evictDie_length, ok.1]; exact hd), fun k i low dirty => ?_⟩
  rw [← State.evictDie_home ok hd low dirty]
  have frame := (s.evictDie d).clearDie_frame d
  have dies : ((s.evictDie d).clearDie d).dies = ((s.evictDie d).modDie d fun _ => Die.reset).dies := by
    rw [State.clearDie_dies, State.modDie_dies]
  have mem : ((s.evictDie d).clearDie d).mem = ((s.evictDie d).modDie d fun _ => Die.reset).mem := by
    rw [frame]
    rfl
  unfold State.homeByte State.die
  rw [dies, mem]

/-! ## One team on the die -/

section
variable {tm : Team} {l : Launch} (found : s.launch? tm.launch = some l)
include found

theorem State.losses_alone : (s.evictDie d).losses [tm] = [(l.id, tm.id, (s.heldItems l tm).length)] := by
  have mine := State.launch?_id found
  have found' : (s.evictDie d).launch? tm.launch = some l := ((s.homeWritten_evictDie d).launch? _).trans found
  have count : (s.evictDie d).lostOf [tm] tm.launch = (s.heldItems l tm).length := by
    unfold State.lostOf
    simp [found', State.heldItems_evictDie]
  rw [mine, ← count]
  rfl

variable (alone : s.hitTeams d = [tm])
include alone

theorem State.lostDie_launch? : (s.lostDie d).launch? l.id = some (l.tally s.now .lost (s.heldItems l tm)) := by
  have mine := State.launch?_id found
  have evicts := s.homeWritten_evictDie d
  have found' : (s.evictDie d).launch? tm.launch = some l := (evicts.launch? _).trans found
  have frame := ((s.evictDie d).loseTeam tm).clearDie_frame d
  obtain ⟨c, e, -, -, -, -, launch⟩ := State.loseTeam_of found'
  rw [State.lostDie, alone, List.foldl_cons, List.foldl_nil]
  have same : (((s.evictDie d).loseTeam tm).clearDie d).launch? l.id = c.launch? l.id := by
    rw [State.launch?_of (s := (s.evictDie d).loseTeam tm) (by rw [frame]), e]
    rfl
  rw [same, launch, if_pos rfl, mine, found', evicts.now, State.heldItems_evictDie]
  rfl

theorem State.resetDie_reports : s.resetDie d = (s.lostDie d).reportLoss l.id tm.id (s.heldItems l tm).length := by
  rw [State.resetDie_lostDie, alone, State.losses_alone found, List.foldl_cons, List.foldl_nil]

/-- The loss of one team is counted, reported and contained. -/
theorem State.resetDie_alone (once : (s.teams.map (·.id)).Nodup) :
    ∃ l', (s.resetDie d).launch? l.id = some l' ∧ l'.lost = l.lost + (s.heldItems l tm).length ∧ l'.exited = l.exited ∧
      HostMsg.lostItems l.id (s.heldItems l tm).length ∈ (s.resetDie d).hostOut ∧
      (l.grid = .kself → l'.killing = true ∧ ∀ y ∈ (s.resetDie d).teams, y.launch = l.id → y.st = .retired) ∧
      (l.grid ≠ .ign → l.grid ≠ .kself → l'.suspended = true ∧ ∀ y ∈ (s.resetDie d).teams, y.launch = l.id → y.st ≠ .running) := by
  have counted := State.lostDie_launch? found alone
  have fresh : ((s.lostDie d).teams.map (·.id)).Nodup := by rw [(s.loses_lostDie d).ids]; exact once
  rw [State.resetDie_reports found alone]
  exact State.reportLoss_contains counted fresh tm.id (s.heldItems l tm).length
end

end

end Sys2Proof.Machine
end

section
/-! PROOFS. The commands of chapter 30 that end launches or reset dies, and what they leave of the interfaces. -/

namespace Sys2Proof.Machine

/-! ## The interfaces stay -/

theorem State.HomeWritten.tdis {s t : State} (w : s.HomeWritten t) : t.tdis = s.tdis := by rw [w.frame]

theorem State.loseTeam_tdis (s : State) (tm : Team) : (s.loseTeam tm).tdis = s.tdis := by
  cases found : s.launch? tm.launch with
  | none => rw [State.loseTeam_none found]
  | some l =>
    obtain ⟨c, e, -, -, tdis, -⟩ := State.loseTeam_of found
    rw [e]
    exact tdis

theorem State.lossLogged_tdis (s : State) (lid seq n : Nat) (entry : List Byte) : (s.lossLogged lid seq n entry).tdis = s.tdis := by
  have logs : ∀ t : State, (t.logFault lid entry).tdis = t.tdis := fun t => by
    cases found : t.launch? lid with
    | none =>
      unfold State.logFault
      rw [found]
    | some l =>
      obtain ⟨u, w, e⟩ := State.logFault_of found entry
      rw [e]
      exact w.tdis
  exact logs _

theorem State.suspend_tdis (s : State) (lid seq : Nat) : (s.suspend lid seq).tdis = s.tdis := rfl

theorem State.lossHeld_tdis (s : State) (lid seq : Nat) (rep : Report) (m : HostMsg) : (s.lossHeld lid seq rep m).tdis = s.tdis := by
  rw [State.lossHeld, State.suspend_tdis]
  rfl

theorem State.reportLoss_tdis (s : State) (lid team n : Nat) : (s.reportLoss lid team n).tdis = s.tdis := by
  cases found : s.launch? lid with
  | none =>
    unfold State.reportLoss
    rw [found]
  | some l =>
    obtain ⟨entry, rep, m, e⟩ := State.reportLoss_of found team n
    have logged := s.lossLogged_tdis lid (l.seq + 1) n entry
    have kills := ((s.lossLogged lid (l.seq + 1) n entry).kills_killLaunch lid).frame
    rw [e]
    cases l.grid with
    | ign => exact logged
    | kself =>
      dsimp only
      rw [kills]
      exact logged
    | retry => exact (State.lossHeld_tdis _ lid _ rep m).trans logged
    | kparent => exact (State.lossHeld_tdis _ lid _ rep m).trans logged

theorem State.resetDie_tdis (s : State) (d : Nat) : (s.resetDie d).tdis = s.tdis := by
  have lost : ((s.hitTeams d).foldl State.loseTeam (s.evictDie d)).tdis = s.tdis :=
    List.foldlRecOn (motive := fun t : State => t.tdis = s.tdis) _ _ (s.homeWritten_evictDie d).tdis
      fun t e x _ => (t.loseTeam_tdis x).trans e
  have cleared : (s.lostDie d).tdis = s.tdis := by
    rw [State.lostDie, State.clearDie_frame]
    exact lost
  rw [State.resetDie_lostDie]
  exact List.foldlRecOn (motive := fun t : State => t.tdis = s.tdis) _ _ cleared fun t e p _ => (t.reportLoss_tdis ..).trans e

/-! ## STOP and function-level reset -/

theorem isPf_of {n : Nat} (lo : 1 ≤ n) (low : n ≤ 4) : isPf n = true := decide_eq_true ⟨lo, low⟩

theorem isPf_not {n : Nat} (high : 4 < n) : isPf n = false := decide_eq_false fun h => by omega

section
variable {s : State} {n : Nat} (up : s.pkg = .up) (lo : 1 ≤ n)
include up lo

theorem exec_functionLevelReset_of (low : n ≤ 4) : exec (.functionLevelReset n) s =
    .next ((s.resetDie (s.dieOfPf n)).modTdi n fun _ => { st := .error, keys := [] }) :=
  congrArg Host.Outcome.next (if_pos ⟨up, isPf_of lo low⟩)

theorem exec_functionLevelReset_tdi (low : n ≤ 4) : ∃ t, exec (.functionLevelReset n) s = .next t ∧
    t.tdi n = { st := .error, keys := [] } ∧ ∀ k, k ≠ n → t.tdi k = s.tdi k := by
  refine ⟨_, exec_functionLevelReset_of up lo low, ?_, fun k ne => ?_⟩
  · rw [State.tdi_modTdi, if_pos rfl]
  · rw [State.tdi_modTdi, if_neg ne]
    exact State.tdi_of (s.resetDie_tdis _) k

theorem exec_stopInterfaceRequest_pf (low : n ≤ 4) : exec (.stopInterfaceRequest n) s =
    .next (((s.modTdi n fun y => { y with keys := [] }).resetDie (s.dieOfPf n)).stopped n) := by
  rw [exec_stopInterfaceRequest_of up lo (by omega), if_pos (isPf_of lo low)]

theorem exec_stopInterfaceRequest_vf (hi : n ≤ 68) (high : 4 < n) : exec (.stopInterfaceRequest n) s =
    .next (({ (s.modTdi n fun x => { x with keys := [] }).killVf (n - 4) with
        stopping := n :: s.stopping.filter (· ≠ n) }).stopAnswer n) := by
  rw [exec_stopInterfaceRequest_of up lo hi, isPf_not high]
  rfl

/-- A STOP that can be answered at once is. -/
theorem exec_stopInterfaceRequest_answers (hi : n ≤ 68) (ended : n ≤ 4 ∨ s.launchesOf (n - 4) = []) :
    ∃ t, exec (.stopInterfaceRequest n) s = .next t ∧ t.tdi n = { st := .unlocked, keys := [] } ∧
      HostMsg.tdisp n .stopped ∈ t.hostOut ∧ ∀ k, k ≠ n → t.tdi k = s.tdi k := by
  have stops : ∀ u : State, u.tdis = (s.modTdi n fun y => { y with keys := [] }).tdis →
      (u.stopped n).tdi n = { st := .unlocked, keys := [] } ∧ HostMsg.tdisp n .stopped ∈ (u.stopped n).hostOut ∧
      ∀ k, k ≠ n → (u.stopped n).tdi k = s.tdi k := by
    intro u same
    refine ⟨?_, List.mem_append_right _ (List.mem_singleton_self _), fun k ne => ?_⟩
    · rw [State.stopped_tdi, if_pos rfl]
    · rw [State.stopped_tdi, if_neg ne, State.tdi_of same, State.tdi_modTdi, if_neg ne]
  by_cases low : n ≤ 4
  · exact ⟨_, exec_stopInterfaceRequest_pf up lo low, stops _ (State.resetDie_tdis ..)⟩
  · have high : 4 < n := by omega
    have none : s.launchesOf (n - 4) = [] := ended.resolve_left low
    have kills := (s.modTdi n fun y => { y with keys := [] }).kills_killVf (n - 4)
    have none' : ((s.modTdi n fun y => { y with keys := [] }).killVf (n - 4)).launchesOf (n - 4) = [] := (kills.launchesOf _).2 none
    have run := exec_stopInterfaceRequest_vf up lo hi high
    generalize (s.modTdi n fun y => { y with keys := [] }).killVf (n - 4) = u at kills none' run
    refine ⟨_, run, ?_⟩
    rw [State.stopAnswer_ended (s := { u with stopping := n :: s.stopping.filter (· ≠ n) }) (List.mem_cons_self ..) none']
    exact stops _ (by rw [kills.frame])

/-- A STOP of a virtual function with launches waits for their end. -/
theorem exec_stopInterfaceRequest_waits (hi : n ≤ 68) (high : 4 < n) (more : s.launchesOf (n - 4) ≠ []) :
    ∃ t, exec (.stopInterfaceRequest n) s = .next t ∧ t.tdi n = { st := (s.tdi n).st, keys := [] } ∧
      n ∈ t.stopping ∧ ∀ k, k ≠ n → t.tdi k = s.tdi k := by
  have kills := (s.modTdi n fun y => { y with keys := [] }).kills_killVf (n - 4)
  have more' : ((s.modTdi n fun y => { y with keys := [] }).killVf (n - 4)).launchesOf (n - 4) ≠ [] :=
    fun none => more ((kills.launchesOf _).1 none)
  have run := exec_stopInterfaceRequest_vf up lo hi high
  generalize (s.modTdi n fun y => { y with keys := [] }).killVf (n - 4) = u at kills more' run
  have tdi : ∀ k, u.tdi k = (s.modTdi n fun y => { y with keys := [] }).tdi k := State.tdi_of (by rw [kills.frame])
  refine ⟨_, run, ?_⟩
  rw [State.stopAnswer_waits (s := { u with stopping := n :: s.stopping.filter (· ≠ n) }) more']
  refine ⟨?_, List.mem_cons_self .., fun k ne => ?_⟩
  · exact (tdi n).trans (by rw [State.tdi_modTdi, if_pos rfl])
  · exact (tdi k).trans (by rw [State.tdi_modTdi, if_neg ne])

end

theorem State.stopAnswer_answers {s : State} {n : Nat} (waits : n ∈ s.stopping) (ended : s.launchesOf (n - 4) = []) :
    ∃ t, t = s.stopAnswer n ∧ t.tdi n = { st := .unlocked, keys := [] } ∧
      t.hostOut = s.hostOut ++ [.tdisp n .stopped] ∧ n ∉ t.stopping := by
  refine ⟨_, rfl, ?_⟩
  rw [State.stopAnswer_ended waits ended]
  refine ⟨?_, rfl, ?_⟩
  · rw [State.stopped_tdi, if_pos rfl]
  · change n ∉ s.stopping.filter (· ≠ n)
    simp

/-! ## Firmware, manifest, measurements -/

section
variable {s : State} (on : s.pkg ≠ .off)
include on

theorem exec_firmwareUpdate_of (img : Signed (List Byte)) : exec (.firmwareUpdate img) s =
    if ∃ k ∈ s.manifest.fwKeys, Config.ed448Verify k (Config.shake256 img.body) img.sig = true
    then .next ({ s with image := img.body, imageSig := img.sig }.tell .updated) else .next (s.tell .updateRefused) := by
  have run : exec (.firmwareUpdate img) s = .next (if s.imageOk img.body img.sig then
      { s with image := img.body, imageSig := img.sig }.tell .updated else s.tell .updateRefused) :=
    congrArg Host.Outcome.next (if_neg on)
  have good : s.imageOk img.body img.sig = true ↔
      ∃ k ∈ s.manifest.fwKeys, Config.ed448Verify k (Config.shake256 img.body) img.sig = true := List.any_eq_true
  rw [run, apply_ite Host.Outcome.next]
  exact if_congr good rfl rfl

theorem exec_manifestReplace_of (m : Signed Manifest) : exec (.manifestReplace m) s =
    if Config.ed448Verify s.manifest.signKey (Config.shake256 (Config.manifestBytes m.body)) m.sig = true
    then .next ({ s with nextManifest := some m }.tell .updated) else .next (s.tell .updateRefused) := by
  have run : exec (.manifestReplace m) s = .next (if signed s.manifest.signKey (Config.manifestBytes m.body) m.sig = true then
      { s with nextManifest := some m }.tell .updated else s.tell .updateRefused) := congrArg Host.Outcome.next (if_neg on)
  rw [run, apply_ite Host.Outcome.next]
  rfl

end

theorem exec_packageReset_of (s : State) : ∃ t, exec .packageReset s = .next t ∧
    t = { State.reset with
      free := s.free, agenda := s.agenda, mem := t.mem, image := s.image, imageSig := s.imageSig
      manifest := match s.nextManifest with | some m => m.body | none => s.manifest
      manSig := match s.nextManifest with | some m => m.sig | none => s.manSig
      manKey := match s.nextManifest with | some _ => s.manifest.signKey | none => s.manKey
      identity := s.identity, hostOut := s.hostOut, outbox := s.outbox } ∧
    (∀ pa, 2 ^ 40 ≤ pa → pa < 2 ^ 41 → t.mem.get 0 pa = s.mem.get 0 pa) ∧ ∀ pa, pa < 2 ^ 40 → t.mem.get 0 pa = 0 := by
  refine ⟨_, rfl, ?_, fun pa lo hi => (Map.get_range ..).trans (if_pos ⟨lo, hi⟩),
    fun pa low => (Map.get_range ..).trans (if_neg fun h => absurd h.1 (Nat.not_le.2 low))⟩
  cases s.nextManifest with
  | none => rfl
  | some m => rfl

theorem exec_spdmRequest_of {s : State} (up : s.pkg = .up) (q : List Byte) :
    let body := Config.spdmAnswer q [Config.shake256 s.image, Config.shake256 (Config.manifestBytes s.manifest)]
    exec (.spdmRequest q) s = .next (s.tell (.spdm (match s.identity with
      | none => body
      | some k => body ++ natLe 114 (Config.ed448Sign k (Config.shake256 body)).toNat))) := by
  have run : exec (.spdmRequest q) s = .next (s.tell (.spdm (s.spdm q))) := congrArg Host.Outcome.next (if_pos up)
  rw [run]
  unfold State.spdm State.measurements
  cases s.identity with
  | none => rfl
  | some k => rfl

theorem exec_powerEvent_cool {s : State} {c : Nat} (cool : c ≤ s.manifest.inletLimit) : exec (.powerEvent (.inlet c)) s = .next s :=
  congrArg Host.Outcome.next (if_neg fun h => absurd (of_decide_eq_true h.2) (Nat.not_lt.2 cool))

/-! ## Bring-up -/

theorem exec_bringUp_on {s : State} (on : s.pkg ≠ .off) : exec .bringUp s = .next s := congrArg Host.Outcome.next (if_pos on)

end Sys2Proof.Machine
end

section
/-! PROOFS. O55: the management side. -/

namespace Sys2Proof.Machine

/-- Bring-up of a package that is off. -/
theorem exec_bringUp_starts {s : State} (off : s.pkg = .off) :
    let fw := s.manifest.fwKeys.any fun k => Config.ed448Verify k (Config.shake256 s.image) s.imageSig
    let man := Config.ed448Verify s.manKey (Config.shake256 (Config.manifestBytes s.manifest)) s.manSig
    let s1 := { s with fwOk := fw, manifestOk := man }
    ∃ t, exec .bringUp s = .next t ∧
      if fw = true ∧ man = true ∧ s.badStep = none then
        t = { s1 with pkg := .up, free := t.free, links := t.links } ∧ t.links.length = 16 ∧
        ∀ (i : Nat) (l : Link), t.links[i]? = some l → ∃ e k, linkEnds[i]? = some e ∧ l = Link.start e k
      else t = { s1 with pkg := .recovery } := by
  intro fw man s1
  refine ⟨_, exec_bringUp off, ?_⟩
  by_cases good : fw = true ∧ man = true ∧ s.badStep = none
  · rw [if_pos good, if_pos (show s.imageOk s.image s.imageSig = true ∧ s.manifestGood = true ∧ s.badStep = none from good)]
    exact ⟨rfl, rfl, fun i l found => linkEnds_start found⟩
  · rw [if_neg good, if_neg (show ¬ (s.imageOk s.image s.imageSig = true ∧ s.manifestGood = true ∧ s.badStep = none) from good)]
    rfl

section
variable {s : State} {n : Nat} (up : s.pkg = .up) (lo : 1 ≤ n) (hi : n ≤ 68)
include up lo hi

/-- The requests that only ask. -/
theorem exec_tdisp_answers :
    exec (.getTdispVersion n) s = .next (s.tell (.tdisp n .version)) ∧
    exec (.getTdispCapabilities n) s = .next (s.tell (.tdisp n .capabilities)) ∧
    exec (.getDeviceInterfaceState n) s = .next (s.tell (.tdisp n (.state (s.tdi n).st))) ∧
    exec (.getDeviceInterfaceReport n) s = .next (s.tell (.tdisp n
      (if (s.tdi n).st = .locked ∨ (s.tdi n).st = .run then .report else .error .invalidState))) ∧
    s.tdispOther n = s.tell (.tdisp n (.error .unsupportedRequest)) :=
  ⟨congrArg Host.Outcome.next (State.tdisp_of up lo hi _), congrArg Host.Outcome.next (State.tdisp_of up lo hi _),
    congrArg Host.Outcome.next (State.tdisp_of up lo hi _), congrArg Host.Outcome.next (State.tdisp_of up lo hi _),
    State.tdisp_of up lo hi _⟩

end

theorem exec_securityAlarm_erases (s : State) (e : AlarmEv) : ∃ t, exec (.securityAlarm e) s = .next t ∧
    t.mem = s.mem ∧ t.pkg = .recovery ∧ t.sessionKeys = [] ∧ t.store = [] ∧ t.replies = [] ∧ (∀ l ∈ t.links, l.keys = [none, none] ∧ l.rkeys = [none, none]) ∧
    t.teams = [] ∧ t.launches = [] ∧ (∀ n, 1 ≤ n → n ≤ 68 → t.tdi n = { st := .error, keys := [] }) ∧
    t.identity = (if s.manifest.eraseId then none else s.identity) ∧ t.hostOut = s.hostOut ++ [.alarm true, .alarm false] :=
  ⟨s.alarm, rfl, rfl, rfl, rfl, rfl, rfl, s.alarm_links, rfl, rfl, fun _ => s.alarm_tdi, rfl, List.append_assoc ..⟩

/-- Settles O55: each command's clause is its lemma above; a die's reset is taken in its steps (eviction, loss of the teams,
clearing, reports), each of which leaves the teams that it does not concern. -/
theorem managementAndSecurityFollowTheirStates : Obligations.ManagementAndSecurityFollowTheirStates := by
  refine ⟨fun s => ⟨exec_bringUp_on, exec_bringUp_starts⟩, fun s n up lo hi => ?_, fun s d ok hd once launches => ?_,
    fun s v up lo hi launches teams => ?_, exec_securityAlarm_erases,
    fun s img m on => ⟨exec_firmwareUpdate_of on img, exec_manifestReplace_of on m⟩, exec_packageReset_of,
    fun s => exec_gafferGrant_shares, fun s e up => ⟨exec_powerEvent_lowers up, fun c is cool => is ▸ exec_powerEvent_cool cool⟩,
    fun s q up => exec_spdmRequest_of up q⟩
  · obtain ⟨version, capabilities, state, report, other⟩ := exec_tdisp_answers up lo hi
    exact ⟨version, capabilities, state, report, ⟨_, rfl, State.tdisp_moves up lo hi .unlocked .locked .locked⟩,
      ⟨_, rfl, State.tdisp_moves up lo hi .locked .run .started⟩, exec_tdiConfigChange_of up lo hi, other, rfl,
      fun low => ⟨exec_stopInterfaceRequest_pf up lo low, exec_functionLevelReset_of up lo low⟩,
      exec_stopInterfaceRequest_answers up lo hi, exec_stopInterfaceRequest_waits up lo hi, State.stopAnswer_answers,
      exec_functionLevelReset_tdi up lo⟩
  · obtain ⟨tlb, fifo⟩ := State.resetDie_queues ok.1 hd
    exact ⟨tlb, fifo, State.resetDie_home ok hd, fun c => State.resetDie_core, fun tm => State.resetDie_gone once launches,
      fun tm m unhit ign => State.resetDie_apart once m (State.not_concerns once m unhit ign),
      fun tm l alone found => State.resetDie_alone found alone once⟩
  · exact ⟨s.killVf v, congrArg Host.Outcome.next (if_pos ⟨up, lo, hi⟩), fun l m c fc =>
      ⟨State.killVf_kills m fc launches, State.killVf_other m fc launches teams⟩⟩

end Sys2Proof.Machine
end

section
/-! PROOFS. The fields of words and the words of fields (05 Tables 5.1 to 5.3): each packing is undone by its reading. -/

namespace Sys2Proof

-- As above: the theorems are checked one after the other, within the memory of the check.
set_option Elab.async false

/-! ## Bits of a packed word -/

theorem toNat_append_eq_add {m n : Nat} (x : BitVec m) (y : BitVec n) :
    (x ++ y).toNat = x.toNat * 2 ^ n + y.toNat := by
  rw [BitVec.toNat_append, ← Nat.shiftLeft_add_eq_or_of_lt y.isLt, Nat.shiftLeft_eq]

/-- A bit field is the quotient of the word modulo its width. -/
theorem extractLsb'_eq_of_toNat {w s n : Nat} {x : BitVec w} {y : BitVec n} (e : x.toNat / 2 ^ s % 2 ^ n = y.toNat) :
    x.extractLsb' s n = y := by
  apply BitVec.eq_of_toNat_eq
  rw [BitVec.extractLsb'_toNat, Nat.shiftRight_eq_div_pow, e]

theorem getLsbD_eq_of_toNat {w s : Nat} {x : BitVec w} {b : Bool} (e : x.toNat / 2 ^ s % 2 = b.toNat) :
    x.getLsbD s = b := by
  rw [BitVec.getLsbD, Nat.testBit_eq_decide_div_mod_eq, e]
  cases b <;> rfl

theorem toNat_getLsbD {w s : Nat} (x : BitVec w) : (x.getLsbD s).toNat = x.toNat / 2 ^ s % 2 := by
  rw [BitVec.getLsbD, Nat.toNat_testBit]

theorem toNat_extractLsb' {w s n : Nat} (x : BitVec w) : (x.extractLsb' s n).toNat = x.toNat / 2 ^ s % 2 ^ n := by
  rw [BitVec.extractLsb'_toNat, Nat.shiftRight_eq_div_pow]

/-! ## Word 1 (Table 5.3) -/

theorem pack1_toNat (f : W1) : (pack1 f).toNat =
    f.md.toNat * 2 ^ 30 + f.xs.toNat * 2 ^ 28 + f.ixc.toNat * 2 ^ 27 + f.ixb.toNat * 2 ^ 26 + f.ixa.toNat * 2 ^ 25 +
      f.ixd.toNat * 2 ^ 24 + f.c.toNat * 2 ^ 16 + f.b.toNat * 2 ^ 8 + f.a.toNat := by
  unfold pack1
  repeat rw [toNat_append_eq_add]
  simp only [BitVec.toNat_ofBool]
  omega

@[simp] theorem unpack1_pack1 (f : W1) : unpack1 (pack1 f) = f := by
  have whole := pack1_toNat f
  have bitC := f.ixc.toNat_lt
  have bitB := f.ixb.toNat_lt
  have bitA := f.ixa.toNat_lt
  have bitD := f.ixd.toNat_lt
  refine W1.mk.injEq .. ▸ ⟨extractLsb'_eq_of_toNat ?_, extractLsb'_eq_of_toNat ?_, getLsbD_eq_of_toNat ?_,
    getLsbD_eq_of_toNat ?_, getLsbD_eq_of_toNat ?_, getLsbD_eq_of_toNat ?_, extractLsb'_eq_of_toNat ?_,
    extractLsb'_eq_of_toNat ?_, extractLsb'_eq_of_toNat ?_⟩ <;> omega

/-! ## Word 0 (Table 5.1) -/

theorem pack0_toNat (f : Fields) : (pack0 f).toNat =
    f.sub.toNat * 2 ^ 26 + f.d.toNat * 2 ^ 18 + f.gn.toNat * 2 ^ 17 + f.g.toNat * 2 ^ 13 + f.st.toNat * 2 ^ 10 +
      f.op.toNat * 2 ^ 2 + f.len.code.toNat := by
  unfold pack0
  repeat rw [toNat_append_eq_add]
  simp only [BitVec.toNat_ofBool]
  omega

@[simp] theorem Len.ofCode_code (l : Len) : Len.ofCode l.code = l := by
  cases l <;> rfl

@[simp] theorem Len.code_ofCode (c : BitVec 2) : (Len.ofCode c).code = c := by
  revert c
  decide

theorem pack0_op (f : Fields) : (pack0 f).extractLsb' 2 8 = f.op := by
  have whole := pack0_toNat f
  exact extractLsb'_eq_of_toNat (by omega)

theorem pack0_len (f : Fields) : Len.ofCode ((pack0 f).extractLsb' 0 2) = f.len := by
  have whole := pack0_toNat f
  rw [extractLsb'_eq_of_toNat (y := f.len.code) (by omega), Len.ofCode_code]

/-- What a form does not hold is zero: word 1 in one word, word 2 below three, the literal below five (Table 5.2). -/
def Fields.Fits (f : Fields) : Prop :=
  (f.len = .w1 → f.w1 = 0) ∧ (f.len = .w1 ∨ f.len = .w2 → f.w2 = 0) ∧ (f.len ≠ .w5 → f.lit = 0)

theorem append_extractLsb'_lit (x : DWord) : x.extractLsb' 32 32 ++ x.extractLsb' 0 32 = x := by
  apply BitVec.eq_of_toNat_eq
  rw [toNat_append_eq_add, toNat_extractLsb', toNat_extractLsb']
  omega

/-- The fields of an instruction's own words are its fields. -/
theorem Fields.unpack0_words {f : Fields} (fits : f.Fits) :
    unpack0 (f.words.getD 0 0) (f.words.getD 1 0) (f.words.getD 2 0) (f.words.getD 3 0) (f.words.getD 4 0) = f := by
  obtain ⟨one, two, lit⟩ := fits
  have first (w1 w2 w3 w4 : Word) : unpack0 (pack0 f) w1 w2 w3 w4 =
      { f with w1 := if f.len = .w1 then 0 else w1, w2 := if f.len = .w1 ∨ f.len = .w2 then 0 else w2,
               lit := if f.len = .w5 then w4 ++ w3 else 0 } := by
    have whole := pack0_toNat f
    have bit := f.gn.toNat_lt
    unfold unpack0
    rw [pack0_len, pack0_op, extractLsb'_eq_of_toNat (y := f.sub) (by omega), extractLsb'_eq_of_toNat (y := f.d) (by omega),
      getLsbD_eq_of_toNat (b := f.gn) (by omega), extractLsb'_eq_of_toNat (y := f.g) (by omega),
      extractLsb'_eq_of_toNat (y := f.st) (by omega)]
  obtain ⟨sub, d, gn, g, st, op, len, w1, w2, x⟩ := f
  cases len <;> simp_all [Fields.words, append_extractLsb'_lit]

/-- The words of the fields of five words are the first of them, as many as the length says (R44). -/
theorem Fields.words_unpack0 (w0 w1 w2 w3 w4 : Word) :
    (unpack0 w0 w1 w2 w3 w4).words = [w0, w1, w2, w3, w4].take (wordsOf w0) := by
  have first : pack0 (unpack0 w0 w1 w2 w3 w4) = w0 := by
    apply BitVec.eq_of_toNat_eq
    rw [pack0_toNat]
    simp only [unpack0, Len.code_ofCode, toNat_extractLsb', toNat_getLsbD]
    omega
  have high (x y : Word) : (x ++ y).extractLsb' 32 32 = x := extractLsb'_eq_of_toNat (by rw [toNat_append_eq_add]; omega)
  have low (x y : Word) : (x ++ y).extractLsb' 0 32 = y := extractLsb'_eq_of_toNat (by rw [toNat_append_eq_add]; omega)
  unfold Fields.words wordsOf
  rw [first]
  cases len : Len.ofCode (w0.extractLsb' 0 2) <;> simp [unpack0, len, Len.words, high, low]

end Sys2Proof
end

section
/-! PROOFS. What each reading of SUB, of C and of D finds where the encoder has written it (05 Tables 5.6, 5.7 and 5.13, and the
tables of 09 to 28). -/

namespace Sys2Proof

-- As above: the theorems are checked one after the other, within the memory of the check.
set_option Elab.async false

/-! ## Codes (Tables 5.7, 9.7, 10.2, 10.6) -/

@[simp] theorem CondCode.fromNat_code (c : CondCode) : CondCode.fromNat c.code.toNat = some c := by cases c <;> rfl
@[simp] theorem RedOp.fromNat_code (o : RedOp) : RedOp.fromNat o.code.toNat = some o := by cases o <;> rfl
@[simp] theorem FCond.fromNat_code (c : FCond) : FCond.fromNat c.code.toNat = some c := by cases c <;> rfl
@[simp] theorem Scope.fromNat_code (s : Scope) : Scope.fromNat s.code.toNat = some s := by cases s <;> rfl
@[simp] theorem Order.fromNat_code (o : Order) : Order.fromNat o.code.toNat = some o := by cases o <;> rfl

/-! ## SUB (Table 5.13): a modifier bit, a type, an operation -/

section
variable (m w : Bool) (t : ElemTy)

@[simp] theorem ElemTy.fromNat_subT : ElemTy.fromNat ((subT m t).extractLsb' 0 5).toNat = some t := by
  cases m <;> cases t <;> rfl
@[simp] theorem subT_modifier : (subT m t)[5] = m := by cases m <;> cases t <;> rfl
@[simp] theorem sub64_width : (sub64 w)[2] = w := by cases w <;> rfl
@[simp] theorem sub64_low : (sub64 w)[0] = false := by cases w <;> rfl
@[simp] theorem bcastLane0_width : (0#3 ++ BitVec.ofBool w ++ 0b01#2 : BitVec 6)[2] = w := by cases w <;> rfl
@[simp] theorem bcastLane0_low : (0#3 ++ BitVec.ofBool w ++ 0b01#2 : BitVec 6)[0] = true := by cases w <;> rfl
@[simp] theorem subHigh_bit : (BitVec.ofBool w ++ 0#5 : BitVec 6)[5] = w := by cases w <;> rfl
@[simp] theorem subLow_bit : (0#5 ++ BitVec.ofBool w : BitVec 6)[0] = w := by cases w <;> rfl
@[simp] theorem subPair_low : (0#4 ++ BitVec.ofBool m ++ BitVec.ofBool w : BitVec 6)[0] = w := by
  cases m <;> cases w <;> rfl
@[simp] theorem subPair_high : (0#4 ++ BitVec.ofBool m ++ BitVec.ofBool w : BitVec 6)[1] = m := by
  cases m <;> cases w <;> rfl

@[simp] theorem RedOp.fromNat_subR (op : RedOp) : RedOp.fromNat ((subR m w op).extractLsb' 0 4).toNat = some op := by
  cases m <;> cases w <;> cases op <;> rfl
@[simp] theorem subR_width (op : RedOp) : (subR m w op)[4] = w := by cases m <;> cases w <;> cases op <;> rfl
@[simp] theorem subR_modifier (op : RedOp) : (subR m w op)[5] = m := by cases m <;> cases w <;> cases op <;> rfl
@[simp] theorem AtomOp.fromNat_subA (op : AtomOp) : AtomOp.fromNat ((subA op t).extractLsb' 0 3).toNat = some op := by
  cases op <;> cases t <;> rfl
/-- The types that an atomic admits have codes of their own (Table 14.7). -/
theorem ElemTy.ofAtomCode_subA {op : AtomOp} {rx : Bool} {t : ElemTy} (ok : atomTyOk op t rx = true) :
    ElemTy.ofAtomCode ((subA op t).extractLsb' 3 3).toNat = t := by
  cases t <;> simp [atomTyOk] at ok <;> cases op <;> rfl

@[simp] theorem subM_size (ma : Bool) (sz : BitVec 3) : (subM ma sz).extractLsb' 0 3 = sz := by
  cases ma <;> revert sz <;> decide
@[simp] theorem subM_aligned (ma : Bool) (sz : BitVec 3) : (subM ma sz)[3] = ma := by
  cases ma <;> revert sz <;> decide
@[simp] theorem subCount (n : BitVec 5) : (0#1 ++ n : BitVec 6).extractLsb' 0 5 = n := by
  revert n; decide
@[simp] theorem subSize (z : BitVec 4) : (0#2 ++ z : BitVec 6).extractLsb' 0 4 = z := by
  revert z; decide

theorem ElemTy.inF_of_half {t : ElemTy} (half : (t == .f16 || t == .bf16) = true) : t.inF = true := by
  cases t <;> simp_all [ElemTy.inF]

/-- SUB of class 0x4 holds its type, where that has a code there, its rounding and .FTZ. -/
theorem FMod.code_reads {f : FMod} (ok : f.ty.inF = true) :
    ElemTy.ofFcode (f.code.extractLsb' 0 2).toNat = some f.ty ∧
      RndCode.fromNat (f.code.extractLsb' 2 3).toNat = some f.rnd ∧ f.code[5] = f.ftz := by
  obtain ⟨t, r, z⟩ := f
  cases t <;> simp [ElemTy.inF] at ok <;> cases r <;> cases z <;> decide

@[simp] theorem ShflMode.ofCode_sub (s : ShflMode) :
    ShflMode.ofCode ((0#3 ++ BitVec.ofBool w ++ s.code : BitVec 6).extractLsb' 0 2) = s := by
  cases w <;> cases s <;> rfl
@[simp] theorem shflSub_width (s : ShflMode) : (0#3 ++ BitVec.ofBool w ++ s.code : BitVec 6)[2] = w := by
  cases w <;> cases s <;> rfl

@[simp] theorem Order.fromNat_fenceSub (o : Order) (s : Scope) :
    Order.fromNat ((0#1 ++ s.code ++ o.code : BitVec 6).extractLsb' 0 2).toNat = some o := by
  cases o <;> cases s <;> rfl
@[simp] theorem Scope.fromNat_fenceSub (o : Order) (s : Scope) :
    Scope.fromNat ((0#1 ++ s.code ++ o.code : BitVec 6).extractLsb' 2 3).toNat = some s := by
  cases o <;> cases s <;> rfl
@[simp] theorem Scope.fromNat_sub (s : Scope) :
    Scope.fromNat ((0#1 ++ s.code ++ 0#2 : BitVec 6).extractLsb' 2 3).toNat = some s := by
  cases s <;> rfl

@[simp] theorem CopyDir.ofCode_cpaSub (dir : CopyDir) (size : BitVec 2) :
    CopyDir.ofCode ((0#2 ++ dir.code ++ size : BitVec 6).extractLsb' 2 2) = dir := by
  cases dir <;> revert size <;> decide
@[simp] theorem cpaSub_size (dir : CopyDir) (size : BitVec 2) :
    (0#2 ++ dir.code ++ size : BitVec 6).extractLsb' 0 2 = size := by
  cases dir <;> revert size <;> decide
@[simp] theorem CopyDir.ofCode_tcopySub (dir : CopyDir) :
    CopyDir.ofCode ((0#3 ++ BitVec.ofBool w ++ dir.code : BitVec 6).extractLsb' 0 2) = dir := by
  cases w <;> cases dir <;> rfl
@[simp] theorem tcopySub_dscr (dir : CopyDir) : (0#3 ++ BitVec.ofBool w ++ dir.code : BitVec 6)[2] = w := by
  cases w <;> cases dir <;> rfl
@[simp] theorem tcopymSub_dscr : (0#3 ++ BitVec.ofBool w ++ 0#2 : BitVec 6)[2] = w := by cases w <;> rfl

@[simp] theorem LutMode.ofCode_sub (l : LutMode) :
    LutMode.ofCode ((BitVec.ofBool w ++ 0#3 ++ l.code : BitVec 6).extractLsb' 0 2) = l := by
  cases w <;> cases l <;> rfl
@[simp] theorem lutSub_async (l : LutMode) : (BitVec.ofBool w ++ 0#3 ++ l.code : BitVec 6)[5] = w := by
  cases w <;> cases l <;> rfl

@[simp] theorem GMode.ofCode_sub (g : GMode) :
    GMode.ofCode ((0#2 ++ BitVec.ofBool m ++ BitVec.ofBool w ++ g.code : BitVec 6).extractLsb' 0 2) = g := by
  cases m <;> cases w <;> cases g <;> rfl
@[simp] theorem gatherSub_trap (g : GMode) : (0#2 ++ BitVec.ofBool m ++ BitVec.ofBool w ++ g.code : BitVec 6)[2] = w := by
  cases m <;> cases w <;> cases g <;> rfl
@[simp] theorem gatherSub_f32 (g : GMode) : (0#2 ++ BitVec.ofBool m ++ BitVec.ofBool w ++ g.code : BitVec 6)[3] = m := by
  cases m <;> cases w <;> cases g <;> rfl
@[simp] theorem SMode.fromNat_sub (g : SMode) :
    SMode.fromNat ((0#2 ++ BitVec.ofBool m ++ BitVec.ofBool w ++ g.code : BitVec 6).extractLsb' 0 2).toNat = some g := by
  cases m <;> cases w <;> cases g <;> rfl
@[simp] theorem scatterSub_trap (g : SMode) : (0#2 ++ BitVec.ofBool m ++ BitVec.ofBool w ++ g.code : BitVec 6)[2] = w := by
  cases m <;> cases w <;> cases g <;> rfl
@[simp] theorem scatterSub_f32 (g : SMode) : (0#2 ++ BitVec.ofBool m ++ BitVec.ofBool w ++ g.code : BitVec 6)[3] = m := by
  cases m <;> cases w <;> cases g <;> rfl
@[simp] theorem lookupSub_trap : (0#2 ++ BitVec.ofBool m ++ BitVec.ofBool w ++ 0#2 : BitVec 6)[2] = w := by
  cases m <;> cases w <;> rfl
@[simp] theorem lookupSub_f32 : (0#2 ++ BitVec.ofBool m ++ BitVec.ofBool w ++ 0#2 : BitVec 6)[3] = m := by
  cases m <;> cases w <;> rfl

@[simp] theorem FlagOp.ofCode_sub (o : FlagOp) :
    FlagOp.ofCode ((0#3 ++ BitVec.ofBool w ++ o.code : BitVec 6).extractLsb' 0 2) = o := by
  cases w <;> cases o <;> rfl
@[simp] theorem flagSub_width (o : FlagOp) : (0#3 ++ BitVec.ofBool w ++ o.code : BitVec 6)[2] = w := by
  cases w <;> cases o <;> rfl

end

/-! ## The C and A fields of the typed forms -/

@[simp] theorem CondCode.fromNat_c (c : CondCode) : CondCode.fromNat (0#4 ++ c.code : BitVec 8).toNat = some c := by
  cases c <;> rfl
@[simp] theorem cvtA_ftz (z : Bool) : (0#7 ++ BitVec.ofBool z : BitVec 8)[0] = z := by cases z <;> rfl
@[simp] theorem RndCode.fromNat_cRnd (r : RndCode) (t : BitVec 5) :
    RndCode.fromNat ((r.code ++ t : BitVec 8).extractLsb' 5 3).toNat = some r := by
  cases r <;> revert t <;> decide
@[simp] theorem ElemTy.fromNat_cRnd (r : RndCode) (t : ElemTy) :
    ElemTy.fromNat ((r.code ++ t.code : BitVec 8).extractLsb' 0 5).toNat = some t := by
  cases r <;> cases t <;> rfl
@[simp] theorem ElemTy.fromNat_mmaC (a : AccTy) (t : ElemTy) :
    ElemTy.fromNat ((0#1 ++ a.code ++ t.code : BitVec 8).extractLsb' 0 5).toNat = some t := by
  cases a <;> cases t <;> rfl
@[simp] theorem AccTy.fromNat_mmaC (a : AccTy) (t : ElemTy) :
    AccTy.fromNat ((0#1 ++ a.code ++ t.code : BitVec 8).extractLsb' 5 2).toNat = some a := by
  cases a <;> cases t <;> rfl

/-! ## D of a copy, of a trigger and of a barrier form (R211, R214, R220) -/

@[simp] theorem barField_reads (b : Option (BitVec 4)) :
    (if (barField b)[4] = true then some ((barField b).extractLsb' 0 4) else none) = b := by
  cases b with
  | none => rfl
  | some n => revert n; decide

@[simp] theorem ofK_num (n : BitVec 4) : (Reg.ofK n).num.extractLsb' 0 4 = n := by
  revert n; decide

end Sys2Proof
end

section
/-! PROOFS. What the forms of the encoder read back as, field by field (05 Tables 5.1 to 5.4 and 5.13). -/

namespace Sys2Proof

-- As above: the theorems are checked one after the other, within the memory of the check.
set_option Elab.async false

/-! ## Forms with word 1 of Table 5.3 -/

@[simp] theorem Reg.plain_num (n : BitVec 8) : (Reg.plain n).num = n := rfl
@[simp] theorem Reg.zero_num : Reg.zero.num = 0 := rfl

section
variable {h : Hdr} {op : BitVec 8} {sub : BitVec 6} {d a b c : Reg} {md : BitVec 2} {w2 : Word} {lit : DWord}

@[simp] theorem mkF_unpack1 : unpack1 (mkF h op sub d a b c md w2 lit).w1 =
    ⟨md, h.xs, c.ix, b.ix, a.ix, d.ix, c.num, b.num, a.num⟩ := unpack1_pack1 _
@[simp] theorem mkF_hdr : (mkF h op sub d a b c md w2 lit).hdr = h := by
  rw [Fields.hdr, mkF_unpack1]
  rfl
@[simp] theorem mkF_rd : (mkF h op sub d a b c md w2 lit).rd = d := by
  rw [Fields.rd, mkF_unpack1]
  rfl
@[simp] theorem mkF_ra : (mkF h op sub d a b c md w2 lit).ra = a := by rw [Fields.ra, mkF_unpack1]
@[simp] theorem mkF_rb : (mkF h op sub d a b c md w2 lit).rb = b := by rw [Fields.rb, mkF_unpack1]
@[simp] theorem mkF_rc : (mkF h op sub d a b c md w2 lit).rc = c := by rw [Fields.rc, mkF_unpack1]
@[simp] theorem mkF_md : (mkF h op sub d a b c md w2 lit).md = md := by rw [Fields.md, mkF_unpack1]
@[simp] theorem mkF_op : (mkF h op sub d a b c md w2 lit).op = op := rfl
@[simp] theorem mkF_sub : (mkF h op sub d a b c md w2 lit).sub = sub := rfl
@[simp] theorem mkF_d : (mkF h op sub d a b c md w2 lit).d = d.num := rfl
@[simp] theorem mkF_w2 : (mkF h op sub d a b c md w2 lit).w2 = w2 := rfl
@[simp] theorem mkF_lit : (mkF h op sub d a b c md w2 lit).lit = lit := rfl
@[simp] theorem mkF_len : (mkF h op sub d a b c md w2 lit).len = h.len := rfl
@[simp] theorem mkF_subN (lo n : Nat) : (mkF h op sub d a b c md w2 lit).subN lo n = (sub.extractLsb' lo n).toNat := rfl
@[simp] theorem mkF_ty : (mkF h op sub d a b c md w2 lit).ty = ElemTy.fromNat (sub.extractLsb' 0 5).toNat := rfl
@[simp] theorem mkF_tyC : (mkF h op sub d a b c md w2 lit).tyC = ElemTy.fromNat (c.num.extractLsb' 0 5).toNat := by
  rw [Fields.tyC, mkF_unpack1]
@[simp] theorem mkF_rndC : (mkF h op sub d a b c md w2 lit).rndC = RndCode.fromNat (c.num.extractLsb' 5 3).toNat := by
  rw [Fields.rndC, mkF_unpack1]

/-- A vector-class operand is in its register field, MOD and word 2 (Table 5.13). -/
@[simp] theorem mkF_bsrc (b : BSrc) : (mkF h op sub d a b.reg c b.md b.w2 lit).bsrc = some b := by
  cases b <;> simp [Fields.bsrc, BSrc.md, BSrc.reg, BSrc.w2]

/-- SUB of class 0x4 where its type has a code there. -/
theorem mkF_fmod {f : FMod} (ok : f.ty.inF = true) : (mkF h op f.code d a b c md w2 lit).fmod = some f := by
  obtain ⟨ty, rnd, ftz⟩ := FMod.code_reads ok
  simp [Fields.fmod, -BitVec.extractLsb'_toNat, ty, rnd, ftz]

theorem Mem.w2_toNat (m : Mem) : m.w2.toNat = m.disp.toNat * 2 ^ 12 + m.scope.code.toNat * 2 ^ 9 + m.ixz.toNat * 2 ^ 8 +
    m.sc.toNat * 2 ^ 6 + m.ord.code.toNat * 2 ^ 4 := by
  unfold Mem.w2
  repeat rw [toNat_append_eq_add]
  simp only [BitVec.toNat_ofBool, BitVec.toNat_ofNat]
  omega

/-- A memory operand is in two register fields, MOD and word 2 (Tables 14.1 and 14.2). -/
@[simp] theorem mkM_mem (m : Mem) : (mkM h op sub d m c).mem = some m := by
  have whole := m.w2_toNat
  have bit := m.ixz.toNat_lt
  have scope : m.w2.extractLsb' 9 3 = m.scope.code := extractLsb'_eq_of_toNat (by omega)
  have ord : m.w2.extractLsb' 4 2 = m.ord.code := extractLsb'_eq_of_toNat (by omega)
  have disp : m.w2.extractLsb' 12 20 = m.disp := extractLsb'_eq_of_toNat (by omega)
  have sc : m.w2.extractLsb' 6 2 = m.sc := extractLsb'_eq_of_toNat (by omega)
  have ixz : m.w2.getLsbD 8 = m.ixz := getLsbD_eq_of_toNat (by omega)
  unfold Fields.mem mkM
  rw [mkF_md, mkF_ra, mkF_rb, mkF_w2, scope, ord, disp, sc, ixz, Scope.fromNat_code, Order.fromNat_code]
  obtain ⟨sa, vb, mode, _⟩ := m
  cases mode <;> rfl

end

/-! ## The scalar class (Table 5.13) -/

/-- The B field of a scalar-class operand. -/
def SSrc.fieldB : SSrc → Reg
  | .reg r => r
  | _ => .zero
/-- MOD of a scalar-class operand. -/
def SSrc.fieldMod : SSrc → BitVec 2
  | .reg _ => 0
  | _ => 1
/-- Word 2 of a scalar-class operand. -/
def SSrc.fieldW2 : SSrc → Word
  | .imm w => w
  | _ => 0
/-- The literal of a scalar-class operand. -/
def SSrc.fieldLit : SSrc → DWord
  | .lit x => x
  | _ => 0

theorem mkS_eq_mkF (h : Hdr) (op : BitVec 8) (sub : BitVec 6) (d a : Reg) (b : SSrc) :
    mkS h op sub d a b = mkF h op sub d a b.fieldB .zero b.fieldMod b.fieldW2 b.fieldLit := by
  cases b <;> rfl

/-- A scalar-class operand is in B, word 2 or the literal, as the length allows. -/
theorem mkF_ssrc {h : Hdr} {b : SSrc} (ok : b.encOk h = true) {op : BitVec 8} {sub : BitVec 6} {d a c : Reg} :
    (mkF h op sub d a b.fieldB c b.fieldMod b.fieldW2 b.fieldLit).ssrc = some b := by
  unfold Fields.ssrc
  rw [mkF_md, mkF_rb, mkF_len, mkF_w2, mkF_lit]
  cases b with
  | reg r => rfl
  | imm w =>
    have short : h.len ≠ .w5 := by
      intro long
      simp [SSrc.encOk, long] at ok
    simp [SSrc.fieldMod, SSrc.fieldW2, short]
  | lit x =>
    have long : h.len = .w5 := by simpa [SSrc.encOk] using ok
    simp [SSrc.fieldMod, SSrc.fieldLit, long]

/-! ## Branch forms (Table 5.4) -/

/-- An offset that a form of the length can hold: 16 bits, or 32 in three words. -/
def Hdr.holds (h : Hdr) (w : Word) : Prop := h.len = .w3 ∨ w = (w.extractLsb' 0 16).signExtend 32

section
variable {h : Hdr} {op d : BitVec 8} {jo t : Word}

theorem mkBr_hdrB (bare : h.xs = 0) : (mkBr h op d jo t).hdrB = h := by
  obtain ⟨len, st, g, gn, xs⟩ := h
  cases bare
  rfl

theorem mkBr_halves (short : h.len ≠ .w3) : (mkBr h op d jo t).w1.extractLsb' 16 16 = jo.extractLsb' 0 16 ∧
    (mkBr h op d jo t).w1.extractLsb' 0 16 = t.extractLsb' 0 16 := by
  rw [mkBr, if_neg short]
  exact ⟨extractLsb'_eq_of_toNat (by rw [toNat_append_eq_add]; omega),
    extractLsb'_eq_of_toNat (by rw [toNat_append_eq_add]; omega)⟩

theorem mkBr_jo (fits : h.holds jo) : (mkBr h op d jo t).jo = jo := by
  by_cases long : h.len = .w3
  · simp [Fields.jo, mkBr, long]
  · unfold Fields.jo
    rw [(mkBr_halves long).1, show (mkBr h op d jo t).len = h.len from rfl, if_neg long]
    exact (fits.resolve_left long).symm

theorem mkBr_tgt (fits : h.holds t) : (mkBr h op d jo t).tgt = t := by
  by_cases long : h.len = .w3
  · simp [Fields.tgt, mkBr, long]
  · unfold Fields.tgt
    rw [(mkBr_halves long).2, show (mkBr h op d jo t).len = h.len from rfl, if_neg long]
    exact (fits.resolve_left long).symm

@[simp] theorem mkBr_op : (mkBr h op d jo t).op = op := rfl
@[simp] theorem mkBr_d : (mkBr h op d jo t).d = d := rfl
@[simp] theorem mkBr_len : (mkBr h op d jo t).len = h.len := rfl

end

theorem brCond_code (c : BrCond) {f : Fields} (d : f.d = c.code) : f.brCond = some c := by
  unfold Fields.brCond
  rw [d]
  clear d
  cases c with
  | lane k n => cases n <;> revert k <;> decide
  | nz s => revert s; decide
  | z s => revert s; decide

/-! ## Word 2 of the other forms -/

theorem gstatW2_reads (g : GStat) : (0#12 ++ g.km ++ g.vw ++ g.vs : Word).extractLsb' 0 8 = g.vs ∧
    (0#12 ++ g.km ++ g.vw ++ g.vs : Word).extractLsb' 8 8 = g.vw ∧
    (0#12 ++ g.km ++ g.vw ++ g.vs : Word).extractLsb' 16 4 = g.km := by
  have whole : (0#12 ++ g.km ++ g.vw ++ g.vs : Word).toNat = g.km.toNat * 2 ^ 16 + g.vw.toNat * 2 ^ 8 + g.vs.toNat := by
    repeat rw [toNat_append_eq_add]
    simp only [BitVec.toNat_ofNat]
    omega
  exact ⟨extractLsb'_eq_of_toNat (by omega), extractLsb'_eq_of_toNat (by omega), extractLsb'_eq_of_toNat (by omega)⟩

theorem remW2_reads (ncon : BitVec 12) (z : BitVec 4) (b : Option (BitVec 4)) :
    (remW2 ncon z b).extractLsb' 16 12 = ncon ∧ (remW2 ncon z b).extractLsb' 8 4 = z ∧
    (if (remW2 ncon z b).getLsbD 4 = true then some ((remW2 ncon z b).extractLsb' 0 4) else none) = b := by
  have whole : (remW2 ncon z b).toNat =
      ncon.toNat * 2 ^ 16 + z.toNat * 2 ^ 8 + b.elim 0 (16 + BitVec.toNat ·) := by
    unfold remW2
    repeat rw [toNat_append_eq_add]
    cases b <;> simp only [BitVec.toNat_ofNat, Option.elim]
    · omega
    · rw [toNat_append_eq_add]; simp only [BitVec.toNat_ofNat]; omega
  refine ⟨extractLsb'_eq_of_toNat ?_, extractLsb'_eq_of_toNat ?_, ?_⟩
  · cases b <;> simp only [Option.elim] at whole <;> omega
  · cases b <;> simp only [Option.elim] at whole <;> omega
  · cases b with
    | none => rw [getLsbD_eq_of_toNat (b := false) (by simp only [Option.elim] at whole; simp; omega)]; rfl
    | some n =>
      simp only [Option.elim] at whole
      rw [getLsbD_eq_of_toNat (b := true) (by simp; omega), extractLsb'_eq_of_toNat (y := n) (by omega)]
      rfl

/-- What step 3 asks of one offset of a branch. -/
theorem Hdr.holds_iff {h : Hdr} {t : Word} :
    (h.len == .w3 || t == (t.extractLsb' 0 16).signExtend 32) = true ↔ h.holds t := by
  simp [Hdr.holds]

/-- What step 3 asks of the two offsets of a branch. -/
theorem Hdr.holds_both {h : Hdr} {jo t : Word} (ok : (h.len == .w3 ||
    (jo == (jo.extractLsb' 0 16).signExtend 32 && t == (t.extractLsb' 0 16).signExtend 32)) = true) :
    h.holds jo ∧ h.holds t := by
  simp only [Bool.or_eq_true, Bool.and_eq_true, beq_iff_eq] at ok
  rcases ok with long | ⟨join, target⟩
  · exact ⟨.inl long, .inl long⟩
  · exact ⟨.inr join, .inr target⟩

theorem mmvW2_reads (tv : ElemTy) (tc : AccTy) (nr : BitVec 7) (nv : BitVec 3) :
    ElemTy.fromNat ((0#15 ++ tc.code ++ tv.code ++ nv ++ nr : Word).extractLsb' 10 5).toNat = some tv ∧
    AccTy.fromNat ((0#15 ++ tc.code ++ tv.code ++ nv ++ nr : Word).extractLsb' 15 2).toNat = some tc ∧
    (0#15 ++ tc.code ++ tv.code ++ nv ++ nr : Word).extractLsb' 0 7 = nr ∧
    (0#15 ++ tc.code ++ tv.code ++ nv ++ nr : Word).extractLsb' 7 3 = nv := by
  have whole : (0#15 ++ tc.code ++ tv.code ++ nv ++ nr : Word).toNat =
      tc.code.toNat * 2 ^ 15 + tv.code.toNat * 2 ^ 10 + nv.toNat * 2 ^ 7 + nr.toNat := by
    repeat rw [toNat_append_eq_add]
    simp only [BitVec.toNat_ofNat]
    omega
  rw [extractLsb'_eq_of_toNat (y := tv.code) (by omega), extractLsb'_eq_of_toNat (y := tc.code) (by omega),
    extractLsb'_eq_of_toNat (y := nr) (by omega), extractLsb'_eq_of_toNat (y := nv) (by omega)]
  exact ⟨by cases tv <;> rfl, by cases tc <;> rfl, rfl, rfl⟩

theorem cpaW2_reads (dd ds : BitVec 16) :
    (dd ++ ds : Word).extractLsb' 0 16 = ds ∧ (dd ++ ds : Word).extractLsb' 16 16 = dd := by
  have whole := toNat_append_eq_add dd ds
  exact ⟨extractLsb'_eq_of_toNat (by omega), extractLsb'_eq_of_toNat (by omega)⟩

/-- The condition of BRC is in D. -/
theorem mkBr_brCond {h : Hdr} {op : BitVec 8} {c : BrCond} {jo t : Word} : (mkBr h op c.code jo t).brCond = some c :=
  brCond_code c rfl

theorem mkBr_va {h : Hdr} {op d : BitVec 8} {jo : Word} {va : BitVec 8} (short : h.len ≠ .w3) :
    (mkBr h op d jo (va.setWidth 32)).w1.extractLsb' 0 8 = va := by
  rw [mkBr, if_neg short]
  apply extractLsb'_eq_of_toNat
  rw [toNat_append_eq_add]
  simp
  omega

/-! ## Word 2 of the gather class (Table 18.2) and of the remote class (Table 28.2) -/

/-- Word 2 of a form with a status word. -/
def statWord : Option GStat → Word
  | none => 0
  | some g => 0#12 ++ g.km ++ g.vw ++ g.vs

/-- The C field of a slot count (R252). -/
def NSrc.fieldC : NSrc → Reg
  | .reg r => r
  | .imm k => .plain k
/-- MOD of a slot count (R252). -/
def NSrc.fieldMod : NSrc → BitVec 2
  | .reg _ => 0
  | .imm _ => 2

theorem mkG_eq_mkF (h : Hdr) (op : BitVec 8) (sub : BitVec 6) (sd sh : BitVec 8) (vi : Reg) (n : NSrc)
    (st : Option GStat) :
    mkG h op sub sd sh vi n st = mkF h op sub (.plain sd) (.plain sh) vi n.fieldC n.fieldMod (statWord st) := by
  cases n <;> cases st <;> rfl

theorem toFields_klook (h : Hdr) (tr f32 : Bool) (sd sq sh sk : BitVec 8) (sx : Option GStat) :
    (Instr.klook h tr f32 sd sq sh sk sx).toFields =
      some (mkF h 0xC4 (0#2 ++ BitVec.ofBool f32 ++ BitVec.ofBool tr ++ 0#2) (.plain sd) (.plain sq) (.plain sh)
        (.plain sk) 0 (statWord sx)) := by
  cases sx <;> rfl

theorem toFields_kgrad (h : Hdr) (tr : Bool) (sg sh sk : BitVec 8) (sx : Option GStat) :
    (Instr.kgrad h tr sg sh sk sx).toFields =
      some (mkF h 0xC5 (0#3 ++ BitVec.ofBool tr ++ 0#2) (.plain sg) .zero (.plain sh) (.plain sk) 0 (statWord sx)) := by
  cases sx <;> rfl

section
variable {h : Hdr} {op : BitVec 8} {sub : BitVec 6} {d a b c : Reg} {md : BitVec 2} {w2 : Word} {lit : DWord}

@[simp] theorem mkF_nsrc {n : NSrc} : (mkF h op sub d a b n.fieldC n.fieldMod w2 lit).nsrc = some n := by
  cases n <;> simp [Fields.nsrc, NSrc.fieldC, NSrc.fieldMod]

/-- A status word is read back from the form whose length it asks for (R252). -/
theorem mkF_stat {sx : Option GStat} {ws : Bool} (ok : statOk h sx ws = true) :
    (mkF h op sub d a b c md (statWord sx) lit).stat = sx := by
  cases sx with
  | none =>
    have two : h.len = .w2 := beq_iff_eq.mp ok
    simp [Fields.stat, two]
  | some g =>
    have three : h.len = .w3 := beq_iff_eq.mp (Bool.and_eq_true_iff.mp ok).1
    obtain ⟨vs, vw, km⟩ := gstatW2_reads g
    simp [Fields.stat, three, statWord, vs, vw, km]

@[simp] theorem mkF_peer {p : Peer} : (mkF h op sub d p.reg b c p.md w2 lit).peer = some p := by
  cases p <;> simp [Fields.peer, Peer.reg, Peer.md]

@[simp] theorem mkF_barR {ncon : BitVec 12} {z : BitVec 4} {bar : Option (BitVec 4)} :
    (mkF h op sub d a b c md (remW2 ncon z bar) lit).barR = bar := (remW2_reads ncon z bar).2.2

end

/-- D of TRIG (R220). -/
def TrigCond.field : TrigCond → BitVec 8
  | .ctr n => 0#5 ++ n
  | .bar b => 0b1000#4 ++ b

theorem TrigCond.field_reads (c : TrigCond) :
    (if c.field[7] = true then TrigCond.bar (c.field.extractLsb' 0 4) else .ctr (c.field.extractLsb' 0 3)) = c := by
  cases c with
  | ctr n => revert n; decide
  | bar b => revert b; decide

theorem toFields_trig_reg (h : Hdr) (c : TrigCond) (r : Reg) :
    (Instr.trig h c (.reg r)).toFields = some (mkF h 0xA9 0 (.plain c.field) .zero r .zero) := by
  cases c <;> rfl

theorem toFields_trig_imm (h : Hdr) (c : TrigCond) (w : Word) :
    (Instr.trig h c (.imm w)).toFields = some (mkF h 0xA9 0 (.plain c.field) .zero .zero .zero 1 w) := by
  cases c <;> rfl

/-- The type of a remote reduction has a code of its own (Table 14.7). -/
theorem rred_atomTyOk {h : Hdr} {op : AtomOp} {t : ElemTy} {z : BitVec 4} {nc : BitVec 12} {p : Peer} {vb vc : Reg}
    {b : Option (BitVec 4)} (ok : (Instr.rred h op t z nc p vb vc b).subOk = true) : atomTyOk op t true = true := by
  have types : ((decide (z.toNat ≤ 10) && atomTyOk op t true) && op != .exch) = true :=
    (Bool.and_eq_true_iff.mp (Bool.and_eq_true_iff.mp ok).1).1
  simp only [Bool.and_eq_true] at types
  exact types.1.2

/-- The number of a queue is in word 2 (R299). -/
theorem enqW2_reads (q : BitVec 6) : (q.setWidth 32).extractLsb' 0 6 = q :=
  extractLsb'_eq_of_toNat (by rw [BitVec.toNat_setWidth]; omega)

theorem tcopymW2_reads (id : BitVec 4) : (0#28 ++ id : Word).extractLsb' 0 4 = id :=
  extractLsb'_eq_of_toNat (by rw [toNat_append_eq_add]; omega)

@[simp] theorem mkM_reads (h : Hdr) (op : BitVec 8) (sub : BitVec 6) (d c : Reg) (m : Mem) :
    (mkM h op sub d m c).op = op ∧ (mkM h op sub d m c).sub = sub ∧ (mkM h op sub d m c).hdr = h ∧
    (mkM h op sub d m c).rd = d ∧ (mkM h op sub d m c).rc = c ∧
    ∀ lo n, (mkM h op sub d m c).subN lo n = (sub.extractLsb' lo n).toNat := by simp [mkM]

end Sys2Proof
end

section
/-! PROOFS. Reading an instruction back from its own fields (05 Table 5.11): class by class, each slot's reading finds what the
encoder has put there. -/

namespace Sys2Proof

-- As above: the theorems are checked one after the other, within the memory of the check.
set_option Elab.async false

/-! ## What well-formedness says of an instruction -/

section
variable {i : Instr} {h : Hdr} {op : Nat} (wf : i.wellFormed = true)
include wf

theorem Instr.wellFormed_steps : i.lenOk = true ∧ i.opOk = true ∧ i.formOk = true := by
  simpa [Instr.wellFormed, and_assoc] using wf

theorem Instr.wellFormed_subOk : i.subOk = true := by
  have ok := (Instr.wellFormed_steps wf).2.1
  unfold Instr.opOk at ok
  split at ok
  · exact absurd ok Bool.false_ne_true
  · simp only [Bool.and_eq_true] at ok
    exact ok.1.1.1.1

variable (head : i.head = some (h, op))
include head

theorem Instr.wellFormed_len : h.len ∈ (opLens op).getD [] := by
  have ok := (Instr.wellFormed_steps wf).1
  simp only [Instr.lenOk, head, Bool.and_eq_true] at ok
  simpa using ok.1

theorem Instr.wellFormed_xs (bare : i.hasXs = false) : h.xs = 0 := by
  have ok := (Instr.wellFormed_steps wf).2.1
  simp only [Instr.opOk, head, bare, Bool.and_eq_true] at ok
  simpa using ok.1.1.2

theorem Instr.wellFormed_bImm {b : BSrc} {t : ElemTy} (imm : i.bImm = some (b, t)) : b.formOk h = true := by
  have ok := (Instr.wellFormed_steps wf).2.2
  simp only [Instr.formOk, head, imm, Bool.and_eq_true] at ok
  exact ok.1.1

theorem Instr.wellFormed_sSrc {b : SSrc} (src : i.sSrc = some b) : b.encOk h = true ∧ b.formOk h = true := by
  obtain ⟨-, enc, form⟩ := Instr.wellFormed_steps wf
  simp only [Instr.opOk, head, src, Bool.and_eq_true] at enc
  simp only [Instr.formOk, head, src, Bool.and_eq_true] at form
  exact ⟨enc.2, form.1.2⟩

end

/-! ## The reading of the fields -/

/-- Each slot's reading of an instruction's fields is the instruction. -/
theorem Instr.parse_toFields {i : Instr} {f : Fields} (wf : i.wellFormed = true) (enc : i.toFields = some f) :
    f.parse = some i := by
  have sub := Instr.wellFormed_subOk wf
  cases i with
  | nop | ret | land | exit | refill | yield | spinh | syncs | halt =>
    obtain rfl := Option.some.inj enc
    simp [Fields.parse, Fields.parse0, mk1]
  | sadd h sd sa b | ssub h sd sa b | sdiv h u r sd sa b | sand h sd sa b | sor h sd sa b | sxor h sd sa b | sshl h sd sa b
  | sshr h sd sa b | ssar h sd sa b | scmp h cc kd sa b | srdv h w sd va b | sldk h sd b =>
    obtain rfl := Option.some.inj enc
    have src := (Instr.wellFormed_sSrc wf rfl rfl).1
    simp [Fields.parse, Fields.parse1, mkS_eq_mkF, mkF_ssrc src, -BitVec.extractLsb'_toNat]
  | smul h m sd sa b =>
    obtain rfl := Option.some.inj enc
    have src := (Instr.wellFormed_sSrc wf rfl rfl).1
    cases m <;> simp [Fields.parse, Fields.parse1, mkS_eq_mkF, mkF_ssrc src, -BitVec.extractLsb'_toNat]
  | smad | ssel =>
    obtain rfl := Option.some.inj enc
    simp [Fields.parse, Fields.parse1]
  | add | sub | mul | mad | mulh | adc | sbb | min | max | abs | neg | addsat | subsat | lea =>
    obtain rfl := Option.some.inj enc
    simp [Fields.parse, Fields.parse2, mkB, -BitVec.extractLsb'_toNat]
  | and | or | xor | not | andn | shl | shr | sar | rot | popc | clz | bfe | bfi | sel | cmp | prmb =>
    obtain rfl := Option.some.inj enc
    simp [Fields.parse, Fields.parse3, mkB, -BitVec.extractLsb'_toNat]
  | fadd h f vd va b | fsub h f vd va b | fmul h f vd va b | fma h f vd va b vc | frnd h f vd b | fscl h f vd va b =>
    obtain rfl := Option.some.inj enc
    simp [Fields.parse, Fields.parse4, mkB, mkF_fmod sub, -BitVec.extractLsb'_toNat]
  | fmin h f vd va b | fmax h f vd va b | fcmp h f cc kd va b =>
    obtain rfl := Option.some.inj enc
    have ty : f.ty.inF = true := (Bool.and_eq_true_iff.mp sub).1
    simp [Fields.parse, Fields.parse4, mkB, mkF_fmod ty]
  | fcls h f set kd b =>
    obtain rfl := Option.some.inj enc
    have ty : f.ty.inF = true := (Bool.and_eq_true_iff.mp (Bool.and_eq_true_iff.mp sub).1).1
    simp [Fields.parse, Fields.parse4, mkB, mkF_fmod ty]
  | fdot2 h f vd va b vc | pfma h f vd va b vc | pfadd h f vd va b | pfmul h f vd va b =>
    obtain rfl := Option.some.inj enc
    simp [Fields.parse, Fields.parse4, mkB, mkF_fmod (ElemTy.inF_of_half sub)]
  | cvt | cvtr | frcp | frsq | fex2 | flg2 | fsin | fcos | qscl | qpack | qunp | rnsenc | rnsdec =>
    obtain rfl := Option.some.inj enc
    simp [Fields.parse, Fields.parse5, mkB, cRnd, -BitVec.extractLsb'_toNat]
  | fdiv h f vd va b | fsqrt h f vd b =>
    obtain rfl := Option.some.inj enc
    simp [Fields.parse, Fields.parse5, mkB, mkF_fmod sub]
  | kand | kor | kxor | knot | kpop | kfind | flgk | flgclr | flgrd =>
    obtain rfl := Option.some.inj enc
    simp [Fields.parse, Fields.parse6]
  | kmov h m | vote h m | lanek h m =>
    obtain rfl := Option.some.inj enc
    cases m <;> simp [Fields.parse, Fields.parse6]
  | shfl | pushw | redu | scan | confl | matchk | segscan | gsort =>
    obtain rfl := Option.some.inj enc
    simp [Fields.parse, Fields.parse7, mkB, -BitVec.extractLsb'_toNat]
  | bcast h w vd va b =>
    cases b <;> obtain rfl := Option.some.inj enc <;> simp [Fields.parse, Fields.parse7, mkB]
  | ld | st | lds | sts | ldk | stk | lookup | tagset | taginv | pref | lda | str | ldsb =>
    obtain rfl := Option.some.inj enc
    simp [Fields.parse, Fields.parse8, mkB]
  | fence | acq | rel =>
    obtain rfl := Option.some.inj enc
    simp [Fields.parse, Fields.parse9, mk1, -BitVec.extractLsb'_toNat]
  | cas h w | cass h w =>
    obtain rfl := Option.some.inj enc
    cases w <;> simp [Fields.parse, Fields.parse9]
  | atom h op t vd m vc | atoms h op t vd m vc | red h op t m vc =>
    obtain rfl := Option.some.inj enc
    have ty := ElemTy.ofAtomCode_subA (Bool.and_eq_true_iff.mp sub).1
    simp [Fields.parse, Fields.parse9, ty, -BitVec.extractLsb'_toNat]
  | mlutb | mlut | rcvt | scacc | accz | accrd | accwr | accld | accst | accstat | mma | mmaq =>
    obtain rfl := Option.some.inj enc
    simp [Fields.parse, Fields.parseB, -BitVec.extractLsb'_toNat]
  | xstat | segred | xabort | qstat | xnext =>
    obtain rfl := Option.some.inj enc
    simp [Fields.parse, Fields.parseD, mk1]
  | xpnd h sp =>
    obtain rfl := Option.some.inj enc
    cases sp <;> simp [Fields.parse, Fields.parseD, Span.code]
  | csig | rfence =>
    obtain rfl := Option.some.inj enc
    simp [Fields.parse, Fields.parseE, mk1]
  | csrr | csrw | trap | brk | cyc =>
    obtain rfl := Option.some.inj enc
    simp [Fields.parse, Fields.parseF, mk1]
  | bra h jo t | call h sd jo t =>
    obtain rfl := Option.some.inj enc
    have bare := Instr.wellFormed_xs wf rfl rfl
    obtain ⟨join, target⟩ := Hdr.holds_both sub
    simp [Fields.parse, Fields.parse0, mkBr_hdrB bare, mkBr_jo join, mkBr_tgt target]
  | brc h c jo t =>
    obtain rfl := Option.some.inj enc
    have bare := Instr.wellFormed_xs wf rfl rfl
    obtain ⟨join, target⟩ := Hdr.holds_both sub
    simp [Fields.parse, Fields.parse0, mkBr_hdrB bare, mkBr_jo join, mkBr_tgt target, mkBr_brCond]
  | brx h jo va =>
    obtain rfl := Option.some.inj enc
    have bare := Instr.wellFormed_xs wf rfl rfl
    have two : h.len ≠ .w3 := by
      rw [List.mem_singleton.mp (Instr.wellFormed_len wf rfl)]
      exact Len.noConfusion
    have join : h.holds jo := .inr (beq_iff_eq.mp sub)
    simp [Fields.parse, Fields.parse0, mkBr_hdrB bare, mkBr_jo join, mkBr_va two]
  | loop h c t =>
    obtain rfl := Option.some.inj enc
    have bare := Instr.wellFormed_xs wf rfl rfl
    have target : h.holds t := Hdr.holds_iff.mp sub
    simp [Fields.parse, Fields.parse0, mkBr_hdrB bare, mkBr_tgt target]
  | smovImm6 h sd i =>
    obtain rfl := Option.some.inj enc
    have one : h.len = .w1 := by
      have ok := (Instr.wellFormed_steps wf).1
      simpa using (Bool.and_eq_true_iff.mp ok).2
    simp [Fields.parse, Fields.parse1, mk1, one]
  | smov h sd b =>
    have long : h.len ≠ .w1 := by
      have ok := (Instr.wellFormed_steps wf).1
      simpa using (Bool.and_eq_true_iff.mp ok).2
    cases b with
    | src b =>
      obtain rfl := Option.some.inj enc
      have src := (Instr.wellFormed_sSrc wf rfl rfl).1
      simp [Fields.parse, Fields.parse1, mkS_eq_mkF, mkF_ssrc src, long]
    | special n =>
      obtain rfl := Option.some.inj enc
      simp [Fields.parse, Fields.parse1, long]
  | mov h t vd b =>
    cases b with
    | src b =>
      obtain rfl := Option.some.inj enc
      have short : ¬ (b.md = 2#2 ∧ h.len = .w5) := by
        rintro ⟨md, long⟩
        cases b with
        | vec r => exact absurd (show 0#2 = 2#2 from md) (by decide)
        | scl r => exact absurd (show 1#2 = 2#2 from md) (by decide)
        | imm w => exact bne_iff_ne.mp (Bool.and_eq_true_iff.mp sub).2 long
      simp [Fields.parse, Fields.parse2, mkB, short, -BitVec.extractLsb'_toNat]
    | lit x =>
      obtain rfl := Option.some.inj enc
      have long : h.len = .w5 := beq_iff_eq.mp (Bool.and_eq_true_iff.mp sub).2
      simp [Fields.parse, Fields.parse2, long, -BitVec.extractLsb'_toNat]
    | special n =>
      obtain rfl := Option.some.inj enc
      simp [Fields.parse, Fields.parse2, -BitVec.extractLsb'_toNat]
  | mmv h tw tv tc ad vx sw ss nr nv =>
    obtain rfl := Option.some.inj enc
    obtain ⟨ty, acc, rows, vecs⟩ := mmvW2_reads tv tc nr nv
    simp [Fields.parse, Fields.parseB, ty, acc, rows, vecs, -BitVec.extractLsb'_toNat]
  | cpa h bar size dir src dst ds dd =>
    obtain rfl := Option.some.inj enc
    obtain ⟨high, low⟩ := cpaW2_reads dd ds
    simp [Fields.parse, Fields.parseA, Fields.barD, high, low]
  | tcopy h bar dir dscr src dst desc | tcopym h bar dscr src dst desc =>
    obtain rfl := Option.some.inj enc
    cases desc with
    | reg r =>
      have three : h.len = .w3 := beq_iff_eq.mp sub
      simp [Fields.parse, Fields.parseA, Fields.barD, tcopymW2_reads, three]
    | lit x =>
      have five : h.len = .w5 := beq_iff_eq.mp sub
      simp [Fields.parse, Fields.parseA, Fields.barD, tcopymW2_reads, five]
  | binit h b v | barv h b v | bexp h b v =>
    obtain rfl := Option.some.inj enc
    cases v <;> simp [Fields.parse, Fields.parseA, mkBar, Fields.barVal]
  | bwait h b p | btest h kd b p =>
    obtain rfl := Option.some.inj enc
    cases p <;> simp [Fields.parse, Fields.parseA, mkPar, Fields.parVal]
  | waitn h n t =>
    cases t <;> obtain rfl := Option.some.inj enc <;> simp [Fields.parse, Fields.parseA]
  | trig h c t =>
    cases t with
    | reg r =>
      obtain rfl := Option.some.inj ((toFields_trig_reg h c r).symm.trans enc)
      simp [Fields.parse, Fields.parseA, c.field_reads]
    | imm w =>
      obtain rfl := Option.some.inj ((toFields_trig_imm h c w).symm.trans enc)
      simp [Fields.parse, Fields.parseA, c.field_reads]
  | bar h | cbar h =>
    obtain rfl := Option.some.inj enc
    have one : h.len = .w1 := by
      have ok := (Instr.wellFormed_steps wf).1
      simpa using (Bool.and_eq_true_iff.mp ok).2
    simp [Fields.parse, Fields.parse9, mk1, one]
  | barCounted h sa | cbarCounted h sa =>
    obtain rfl := Option.some.inj enc
    have two : h.len ≠ .w1 := by
      have ok := (Instr.wellFormed_steps wf).1
      simpa using (Bool.and_eq_true_iff.mp ok).2
    simp [Fields.parse, Fields.parse9, two]
  | gather h m tr f32 sd sh vi n sx =>
    obtain rfl := Option.some.inj enc
    have stat := (Bool.and_eq_true_iff.mp (Bool.and_eq_true_iff.mp sub).1).2
    simp [Fields.parse, Fields.parseC, mkG_eq_mkF, mkF_stat stat]
  | scatr h m tr f32 sd sh vi n sx | scatw h tr f32 sd sh vi n sx =>
    obtain rfl := Option.some.inj enc
    have stat := (Bool.and_eq_true_iff.mp sub).2
    simp [Fields.parse, Fields.parseC, mkG_eq_mkF, mkF_stat stat, -BitVec.extractLsb'_toNat]
  | klook h tr f32 sd sq sh sk sx =>
    obtain rfl := Option.some.inj ((toFields_klook ..).symm.trans enc)
    simp [Fields.parse, Fields.parseC, mkF_stat (show statOk h sx false = true from sub)]
  | kgrad h tr sg sh sk sx =>
    obtain rfl := Option.some.inj ((toFields_kgrad ..).symm.trans enc)
    simp [Fields.parse, Fields.parseC, mkF_stat (show statOk h sx false = true from sub)]
  | gstat | hdesc =>
    obtain rfl := Option.some.inj enc
    simp [Fields.parse, Fields.parseC]
  | enq h cl vd va q | enqb h vd va vc q =>
    obtain rfl := Option.some.inj enc
    cases q <;> simp [Fields.parse, Fields.parseD, mkEnq, Fields.enqTgt, enqW2_reads]
  | rwr | rrd | rflag =>
    obtain rfl := Option.some.inj enc
    simp [Fields.parse, Fields.parseE]
  | rred h op t z nc p vb vc b =>
    obtain rfl := Option.some.inj enc
    obtain ⟨ncon, size, -⟩ := remW2_reads nc z b
    simp [Fields.parse, Fields.parseE, ElemTy.ofAtomCode_subA (rred_atomTyOk sub), ncon, size,
      -BitVec.extractLsb'_toNat]
  | _ => exact absurd enc (Option.some_ne_none _).symm

end Sys2Proof
end

section
/-! PROOFS. The encoding of the instruction set (05 R44 to R49): each well-formed instruction is read back from its words, and the
words that decode are the encoding of what they decode to. -/

namespace Sys2Proof

-- As above: the theorems are checked one after the other, within the memory of the check.
set_option Elab.async false

/-! ## Forms and lengths -/

theorem Fields.Fits.of_long {f : Fields} (long : f.len ≠ .w1) (w2 : f.len = .w2 → f.w2 = 0)
    (lit : f.len ≠ .w5 → f.lit = 0) : f.Fits :=
  ⟨(absurd · long), fun short => w2 (short.resolve_left long), lit⟩

theorem mk1_fits {h : Hdr} {op : BitVec 8} {sub : BitVec 6} {d : BitVec 8} (bare : h.xs = 0) :
    (mk1 h op sub d).Fits := by
  have none : (mk1 h op sub d).w1 = 0 := by
    show pack1 ⟨0, h.xs, false, false, false, false, 0, 0, 0⟩ = 0
    rw [bare]
    decide
  exact ⟨fun _ => none, fun _ => rfl, fun _ => rfl⟩

theorem mkBr_fits {h : Hdr} {op d : BitVec 8} {jo t : Word} (long : h.len ≠ .w1) : (mkBr h op d jo t).Fits :=
  .of_long long (fun two => if_neg fun three => Len.noConfusion (two.symm.trans three)) fun _ => rfl

section
variable {h : Hdr} {op : BitVec 8} {sub : BitVec 6} {d a b c : Reg} {md : BitVec 2}

theorem mkF_fits (long : h.len ≠ .w1) : (mkF h op sub d a b c md).Fits := .of_long long (fun _ => rfl) fun _ => rfl

theorem mkB_fits {b : BSrc} (long : h.len ≠ .w1) (ok : b.formOk h = true) : (mkB h op sub d a b c).Fits := by
  refine .of_long long (fun two => ?_) fun _ => rfl
  cases b with
  | vec | scl => rfl
  | imm w =>
    have three : h.len = .w3 := beq_iff_eq.mp ok
    exact Len.noConfusion (two.symm.trans three)

theorem mkS_fits {b : SSrc} (long : h.len ≠ .w1) (ok : b.encOk h = true ∧ b.formOk h = true) :
    (mkS h op sub d a b).Fits := by
  obtain ⟨enc, form⟩ := ok
  cases b with
  | reg => exact mkF_fits long
  | imm w =>
    have three : h.len = .w3 := beq_iff_eq.mp form
    exact .of_long long (fun two => Len.noConfusion (two.symm.trans three)) fun _ => rfl
  | lit x =>
    have five : h.len = .w5 := beq_iff_eq.mp enc
    exact .of_long long (fun _ => rfl) fun short => absurd five short

/-- A memory operand that passes its checks leaves word 2 zero in the two-word form (Table 14.1). -/
theorem mkM_fits {m : Mem} {ords : List Order} {scp : Bool} (long : h.len ≠ .w1) (ok : m.opOk h ords scp = true) :
    (mkM h op sub d m c).Fits := by
  refine .of_long long (fun two => ?_) fun _ => rfl
  replace two : h.len = .w2 := two
  simp only [Mem.opOk, two, Bool.and_eq_true, Bool.or_eq_true] at ok
  obtain ⟨⟨⟨-, three | short⟩, -⟩, -⟩ := ok
  · exact absurd three (by decide)
  · simp only [beq_iff_eq, Bool.not_eq_true'] at short
    obtain ⟨⟨⟨⟨disp, scope⟩, ixz⟩, sc⟩, ord⟩ := short
    show m.w2 = 0
    rw [Mem.w2, disp, scope, ixz, sc, ord]
    rfl

theorem statWord_fits {sx : Option GStat} {ws : Bool} (long : h.len ≠ .w1) (ok : statOk h sx ws = true) :
    (mkF h op sub d a b c md (statWord sx)).Fits := by
  refine .of_long long (fun two => ?_) fun _ => rfl
  replace two : h.len = .w2 := two
  cases sx with
  | none => rfl
  | some g =>
    simp [statOk, two] at ok

theorem remW2_fits {bar : Option (BitVec 4)} (long : h.len ≠ .w1) (ok : (h.len == .w3 || bar == none) = true) :
    (mkF h op sub d a b c md (remW2 0 0 bar)).Fits := by
  refine .of_long long (fun two => ?_) fun _ => rfl
  replace two : h.len = .w2 := two
  simp [two] at ok
  subst ok
  rfl

theorem mkF_fits_three {w2 : Word} (three : h.len = .w3) : (mkF h op sub d a b c md w2).Fits :=
  .of_long (fun one => Len.noConfusion (one.symm.trans three)) (fun two => Len.noConfusion (two.symm.trans three))
    fun _ => rfl

theorem cpaW2_fits {ds dd : BitVec 16} (long : h.len ≠ .w1) (ok : (h.len == .w3 || (ds == 0 && dd == 0)) = true) :
    (mkF h op sub d a b c md (dd ++ ds)).Fits := by
  by_cases three : h.len = .w3
  · exact mkF_fits_three three
  · simp only [beq_false_of_ne three, Bool.false_or, Bool.and_eq_true, beq_iff_eq] at ok
    obtain ⟨rfl, rfl⟩ := ok
    exact .of_long long (fun _ => rfl) fun _ => rfl

theorem mkBar_fits {n : BitVec 4} {v : BarVal} (long : h.len ≠ .w1) (ok : v.formOk h = true) : (mkBar h op n v).Fits := by
  cases v with
  | reg | imm6 => exact mkF_fits long
  | imm w => exact mkF_fits_three (beq_iff_eq.mp ok)

end

/-- A form whose slot takes more than one word is longer. -/
theorem Instr.wellFormed_long {i : Instr} {h : Hdr} {op : Nat} (wf : i.wellFormed = true) (head : i.head = some (h, op))
    (no : Len.w1 ∉ (opLens op).getD []) : h.len ≠ .w1 :=
  fun one => no (one ▸ Instr.wellFormed_len wf head)

/-- What an instruction's length does not hold is zero in its fields (R48). -/
theorem Instr.fits_toFields {i : Instr} {f : Fields} (wf : i.wellFormed = true) (enc : i.toFields = some f) :
    f.Fits := by
  have sub := Instr.wellFormed_subOk wf
  obtain ⟨lenOk, -, formOk⟩ := Instr.wellFormed_steps wf
  cases i with
  | nop h | ret h | land h | exit h | refill h | yield h | spinh h | syncs h | halt h | fence h | acq h | rel h | xabort h
  | rfence h | trap h | brk h | cyc h =>
    obtain rfl := Option.some.inj enc
    have one : h.len = .w1 := List.mem_singleton.mp (Instr.wellFormed_len wf rfl)
    exact mk1_fits (Instr.wellFormed_xs wf rfl (bne_eq_false_iff_eq.mpr one))
  | smovImm6 h | bar h | cbar h =>
    obtain rfl := Option.some.inj enc
    have one : h.len = .w1 := beq_iff_eq.mp (Bool.and_eq_true_iff.mp lenOk).2
    exact mk1_fits (Instr.wellFormed_xs wf rfl (bne_eq_false_iff_eq.mpr one))
  | bra | brc | brx | call | loop =>
    obtain rfl := Option.some.inj enc
    exact mkBr_fits (Instr.wellFormed_long wf rfl (by decide))
  | smad | ssel | kand | kor | kxor | knot | kmov | vote | kpop | kfind | flgk | flgclr | flgrd | lanek | redu | scan
  | confl | matchk | segscan | gsort | mma | mmaq | mlutb | mlut | rcvt | scacc | accz | accrd | accwr | accld | accst
  | accstat | gstat | hdesc | xpnd | xnext | xstat | segred | qstat | csig | csrr | csrw =>
    obtain rfl := Option.some.inj enc
    exact mkF_fits (Instr.wellFormed_long wf rfl (by decide))
  | barCounted | cbarCounted =>
    obtain rfl := Option.some.inj enc
    exact mkF_fits (bne_iff_ne.mp (Bool.and_eq_true_iff.mp lenOk).2)
  | sadd | ssub | smul | sdiv | sand | sor | sxor | sshl | sshr | ssar | scmp | srdv | sldk =>
    obtain rfl := Option.some.inj enc
    exact mkS_fits (Instr.wellFormed_long wf rfl (by decide)) (Instr.wellFormed_sSrc wf rfl rfl)
  | smov h sd b =>
    have long : h.len ≠ .w1 := bne_iff_ne.mp (Bool.and_eq_true_iff.mp lenOk).2
    cases b with
    | src b =>
      obtain rfl := Option.some.inj enc
      exact mkS_fits long (Instr.wellFormed_sSrc wf rfl rfl)
    | special n =>
      obtain rfl := Option.some.inj enc
      exact mkF_fits long
  | add | sub | mul | mad | mulh | adc | sbb | min | max | abs | neg | addsat | subsat | lea | and | or | xor | not | andn
  | shl | shr | sar | rot | popc | clz | bfe | bfi | sel | cmp | prmb | fadd | fsub | fmul | fma | fmin | fmax | fcmp
  | fcls | frnd | fscl | fdot2 | pfma | pfadd | pfmul | cvt | cvtr | frcp | frsq | fex2 | flg2 | fsin | fcos | fdiv
  | fsqrt | qscl | qpack | qunp | rnsenc | rnsdec | shfl | pushw | lookup | tagset | taginv =>
    obtain rfl := Option.some.inj enc
    exact mkB_fits (Instr.wellFormed_long wf rfl (by decide)) (Instr.wellFormed_bImm wf rfl rfl)
  | mov h t vd b =>
    have long := Instr.wellFormed_long wf rfl (by decide)
    cases b with
    | src b =>
      obtain rfl := Option.some.inj enc
      exact mkB_fits long (Instr.wellFormed_bImm wf rfl rfl)
    | lit x =>
      obtain rfl := Option.some.inj enc
      have five : h.len = .w5 := beq_iff_eq.mp (Bool.and_eq_true_iff.mp sub).2
      exact .of_long long (fun _ => rfl) fun short => absurd five short
    | special n =>
      obtain rfl := Option.some.inj enc
      exact mkF_fits long
  | bcast h w vd va b =>
    have long := Instr.wellFormed_long wf rfl (by decide)
    cases b with
    | none =>
      obtain rfl := Option.some.inj enc
      exact mkF_fits long
    | some b =>
      obtain rfl := Option.some.inj enc
      exact mkB_fits long (Instr.wellFormed_bImm wf rfl rfl)
  | ld | st | lds | sts | ldsb | pref =>
    obtain rfl := Option.some.inj enc
    exact mkM_fits (Instr.wellFormed_long wf rfl (by decide)) sub
  | cas | cass =>
    obtain rfl := Option.some.inj enc
    exact mkM_fits (Instr.wellFormed_long wf rfl (by decide)) sub
  | ldk | stk | lda | str | atom | atoms | red =>
    obtain rfl := Option.some.inj enc
    exact mkM_fits (Instr.wellFormed_long wf rfl (by decide)) (Bool.and_eq_true_iff.mp sub).2
  | cpa h bar size dir src dst ds dd =>
    obtain rfl := Option.some.inj enc
    exact cpaW2_fits (Instr.wellFormed_long wf rfl (by decide)) (Bool.and_eq_true_iff.mp sub).2
  | tcopy h bar dir dscr src dst desc | tcopym h bar dscr src dst desc =>
    obtain rfl := Option.some.inj enc
    have long := Instr.wellFormed_long wf rfl (by decide)
    cases desc with
    | reg r =>
      have three : h.len = .w3 := beq_iff_eq.mp sub
      exact .of_long long (fun two => Len.noConfusion (two.symm.trans three)) fun _ => rfl
    | lit x =>
      have five : h.len = .w5 := beq_iff_eq.mp sub
      exact .of_long long (fun two => Len.noConfusion (two.symm.trans five)) fun short => absurd five short
  | binit h b v | barv h b v | bexp h b v =>
    obtain rfl := Option.some.inj enc
    exact mkBar_fits (Instr.wellFormed_long wf rfl (by decide)) formOk
  | bwait h b p | btest h kd b p =>
    obtain rfl := Option.some.inj enc
    have long := Instr.wellFormed_long wf rfl (by decide)
    cases p <;> exact mkF_fits long
  | waitn h n t =>
    have long := Instr.wellFormed_long wf rfl (by decide)
    cases t <;> obtain rfl := Option.some.inj enc <;> exact mkF_fits long
  | trig h c t =>
    have three : h.len = .w3 := List.mem_singleton.mp (Instr.wellFormed_len wf rfl)
    cases t with
    | reg r =>
      obtain rfl := Option.some.inj ((toFields_trig_reg h c r).symm.trans enc)
      exact mkF_fits_three three
    | imm w =>
      obtain rfl := Option.some.inj ((toFields_trig_imm h c w).symm.trans enc)
      exact mkF_fits_three three
  | mmv h =>
    obtain rfl := Option.some.inj enc
    have three : h.len = .w3 := List.mem_singleton.mp (Instr.wellFormed_len wf rfl)
    exact mkF_fits_three three
  | gather h m tr f32 sd sh vi n sx =>
    obtain rfl := Option.some.inj enc
    rw [mkG_eq_mkF]
    exact statWord_fits (Instr.wellFormed_long wf rfl (by decide))
      (Bool.and_eq_true_iff.mp (Bool.and_eq_true_iff.mp sub).1).2
  | scatr h m tr f32 sd sh vi n sx | scatw h tr f32 sd sh vi n sx =>
    obtain rfl := Option.some.inj enc
    rw [mkG_eq_mkF]
    exact statWord_fits (Instr.wellFormed_long wf rfl (by decide)) (Bool.and_eq_true_iff.mp sub).2
  | klook =>
    obtain rfl := Option.some.inj ((toFields_klook ..).symm.trans enc)
    exact statWord_fits (Instr.wellFormed_long wf rfl (by decide)) sub
  | kgrad =>
    obtain rfl := Option.some.inj ((toFields_kgrad ..).symm.trans enc)
    exact statWord_fits (Instr.wellFormed_long wf rfl (by decide)) sub
  | enq h cl vd va q | enqb h vd va vc q =>
    obtain rfl := Option.some.inj enc
    have long := Instr.wellFormed_long wf rfl (by decide)
    cases q with
    | reg r => exact mkF_fits long
    | imm w => exact mkF_fits_three (beq_iff_eq.mp formOk)
  | rwr | rrd =>
    obtain rfl := Option.some.inj enc
    exact remW2_fits (Instr.wellFormed_long wf rfl (by decide)) (Bool.and_eq_true_iff.mp sub).2
  | rflag =>
    obtain rfl := Option.some.inj enc
    exact remW2_fits (Instr.wellFormed_long wf rfl (by decide)) sub
  | rred =>
    obtain rfl := Option.some.inj enc
    exact mkF_fits_three (beq_iff_eq.mp formOk)
  | _ => exact absurd enc (Option.some_ne_none _).symm

/-! ## The encoding and the decoder -/

/-- The fields of an instruction carry its OP and its length. -/
theorem Instr.head_toFields {i : Instr} {f : Fields} (enc : i.toFields = some f) :
    ∃ h, i.head = some (h, f.op.toNat) ∧ f.len = h.len := by
  cases i with
  | smov _ _ b =>
    rcases b with (_ | _ | _) | _ <;> obtain rfl := Option.some.inj enc <;> exact ⟨_, rfl, rfl⟩
  | sadd _ _ _ b | ssub _ _ _ b | smul _ _ _ _ b | sdiv _ _ _ _ _ b | sand _ _ _ b | sor _ _ _ b | sxor _ _ _ b
  | sshl _ _ _ b | sshr _ _ _ b | ssar _ _ _ b | scmp _ _ _ _ b | srdv _ _ _ _ b | sldk _ _ b | mov _ _ _ b
  | bcast _ _ _ _ b | binit _ _ b | barv _ _ b | bexp _ _ b | bwait _ _ b | btest _ _ _ b | waitn _ _ b | trig _ _ b
  | enq _ _ _ _ b | enqb _ _ _ _ b =>
    cases b <;> obtain rfl := Option.some.inj enc <;> exact ⟨_, rfl, rfl⟩
  | _ => cases enc <;> exact ⟨_, rfl, rfl⟩

/-- Every machine instruction has fields. -/
theorem Instr.toFields_of_head {i : Instr} {h : Hdr} {op : Nat} (head : i.head = some (h, op)) :
    ∃ f, i.toFields = some f := by
  cases i with
  | smov _ _ b | mov _ _ _ b | bcast _ _ _ _ b | waitn _ _ b | trig _ _ b => cases b <;> exact ⟨_, rfl⟩
  | _ => cases head <;> exact ⟨_, rfl⟩

theorem Instr.encode_eq_words {i : Instr} {f : Fields} (enc : i.toFields = some f) : i.encode = f.words := by
  unfold Instr.encode
  split
  · cases enc
  · rw [enc]

theorem Instr.decode_toFields {i : Instr} {f : Fields} (wf : i.wellFormed = true) (enc : i.toFields = some f) :
    f.decode = .instr i := by
  obtain ⟨-, opOk, formOk⟩ := Instr.wellFormed_steps wf
  obtain ⟨h, head, len⟩ := Instr.head_toFields enc
  have admitted : f.len ∈ (opLens f.op.toNat).getD [] := len ▸ Instr.wellFormed_len wf head
  simp [Fields.decode, admitted, Instr.parse_toFields wf enc, enc, opOk, formOk]

theorem Fields.words_head (f : Fields) : f.words.getD 0 0 = pack0 f := by
  unfold Fields.words
  split <;> rfl

/-- Settles O2: the fields of the instruction's words are its own fields, its slot is assigned, and the slot's reading of the
fields finds every operand. -/
theorem encodeThenDecodeIsIdentity : Obligations.EncodeThenDecodeIsIdentity := by
  intro i wf
  cases known : i.head with
  | none => simp [Instr.wellFormed, Instr.lenOk, known] at wf
  | some head =>
    obtain ⟨f, enc⟩ := Instr.toFields_of_head known
    obtain ⟨h, found, len⟩ := Instr.head_toFields enc
    have assigned : opLens f.op.toNat ≠ none := by
      intro reserved
      have admitted := Instr.wellFormed_len wf found
      rw [reserved] at admitted
      exact absurd admitted List.not_mem_nil
    rw [Instr.encode_eq_words enc, decodeWords, Fields.unpack0_words (Instr.fits_toFields wf enc), f.words_head, pack0_op,
      if_neg (mt Option.isNone_iff_eq_none.mp assigned), Instr.decode_toFields wf enc]

/-! ## The words of what was decoded -/

/-- What decoding an assigned slot has checked (Table 5.5, steps 2 to 4). -/
theorem Fields.decode_eq_instr {f : Fields} {i : Instr} (dec : f.decode = .instr i) :
    f.len ∈ (opLens f.op.toNat).getD [] ∧ f.parse = some i ∧ i.toFields = some f ∧ i.opOk = true ∧ i.formOk = true := by
  unfold Fields.decode at dec
  split at dec
  · next admitted =>
    split at dec
    · cases dec
    · next found =>
      split at dec
      · next same =>
        split at dec
        · next form =>
          cases dec
          exact ⟨List.contains_iff_mem.mp admitted, found, same.1, same.2, form⟩
        · cases dec
      · cases dec
  · cases dec

/-- The rows that share a slot split its lengths between them as the slot's reading does. -/
theorem Instr.lenOk_of_parse {i : Instr} {f : Fields} (enc : i.toFields = some f)
    (admitted : f.len ∈ (opLens f.op.toNat).getD []) (found : f.parse = some i) : i.lenOk = true := by
  obtain ⟨h, head, len⟩ := Instr.head_toFields enc
  have slot : ((opLens f.op.toNat).getD []).contains h.len = true := List.contains_iff_mem.mpr (len ▸ admitted)
  cases i with
  | smovImm6 =>
    obtain rfl := Option.some.inj enc
    cases head
    have one : h.len = .w1 := by
      by_contra long
      simp [Fields.parse, Fields.parse1, mk1, long] at found
      split at found <;> simp [Option.bind_eq_some_iff] at found
    exact Bool.and_eq_true_iff.mpr ⟨slot, beq_iff_eq.mpr one⟩
  | bar | cbar =>
    obtain rfl := Option.some.inj enc
    cases head
    have one : h.len = .w1 := by
      by_contra long
      simp [Fields.parse, Fields.parse9, mk1, long] at found
    exact Bool.and_eq_true_iff.mpr ⟨slot, beq_iff_eq.mpr one⟩
  | barCounted | cbarCounted =>
    obtain rfl := Option.some.inj enc
    cases head
    have long : h.len ≠ .w1 := by
      intro one
      simp [Fields.parse, Fields.parse9, one] at found
    exact Bool.and_eq_true_iff.mpr ⟨slot, bne_iff_ne.mpr long⟩
  | smov h' sd b =>
    have op : f.op = 0x10 := by
      rcases b with (_ | _ | _) | _ <;> obtain rfl := Option.some.inj enc <;> rfl
    rw [op] at slot head
    cases head
    have long : h.len ≠ .w1 := by
      intro one
      simp [Fields.parse, Fields.parse1, op, len, one] at found
    exact Bool.and_eq_true_iff.mpr ⟨slot, bne_iff_ne.mpr long⟩
  | _ =>
    generalize f.op.toNat = op at head slot
    cases head <;> exact (Bool.and_true _).trans slot

/-- Settles O3: what was decoded has the fields of the words for its own, and these fields keep every bit of the words. -/
theorem decodedWordsAreTheEncoding : Obligations.DecodedWordsAreTheEncoding := by
  intro w0 w1 w2 w3 w4 i dec machine
  unfold decodeWords at dec
  split at dec
  · cases dec
    exact absurd rfl machine
  · obtain ⟨admitted, found, enc, op, form⟩ := Fields.decode_eq_instr dec
    have len := Instr.lenOk_of_parse enc admitted found
    exact ⟨by simp [Instr.wellFormed, len, op, form],
      (Instr.encode_eq_words enc).trans (Fields.words_unpack0 w0 w1 w2 w3 w4)⟩

end Sys2Proof
end

section
/-! PROOFS. Words that the spec prints, the step that runs a decoded instruction, the never guard, and what a split reads after a
result of fixed latency (05 R44 to R58, Table 5.5). -/

namespace Sys2Proof.Machine

-- As above: the theorems are checked one after the other, within the memory of the check.
set_option Elab.async false

/-! ## Decoding and stepping -/

/-- Settles O1: each word is a closed term that the decoder evaluates. -/
theorem wordsOfTheSpecDecode : Obligations.WordsOfTheSpecDecode := by
  unfold Obligations.WordsOfTheSpecDecode
  decide +kernel

/-- What a split does whose fetched bytes decode to an instruction (05 R49). -/
theorem issueNow_of_decoded {x : Iss} {s : State} {bs : List Byte} {i : Instr} (fetched : s.fetch x = .word bs)
    (dec : decodeBytes bs = .instr i) :
    issueNow x s = exec i { (s.fetchFill x bs.length).modSplit x.r fun y => { y with words := s.unitWords x bs }
      with sel := some x.r } := by
  unfold issueNow
  rw [fetched]
  dsimp only
  rw [dec]

/-- Settles O4: the agenda's first choice is the issue of a split that issues, or the event. -/
theorem stepRunsTheDecodedInstruction : Obligations.StepRunsTheDecodedInstruction := by
  refine ⟨?_, fun s i rest first => ?_⟩
  · intro s r rest x bs i s0 first found can chosen fetched dec s1
    have ref : x.r = r := (State.at?_eq found).1
    have issued : issueStep r s0 = exec i s1 := by
      unfold issueStep
      rw [found]
      dsimp only
      rw [can, chosen, Bool.and_self, if_pos rfl, issueNow_of_decoded fetched dec, ref]
    unfold step runStep
    rw [first]
    dsimp only
    show later 1 (issueStep r s0) = _
    rw [issued]
    cases exec i s1 <;> rfl
  · unfold step runStep
    rw [first]
    show later 1 (exec i _) = _
    cases exec i { s with agenda := rest } <;> rfl

/-! ## The never guard -/

theorem Hdr.never_of {h : Hdr} (g : h.g = 0) (gn : h.gn = true) : h.never = true := by
  simp [Hdr.never, g, gn]

/-- The unit of a TRIG under the never guard is passed whole (R220, R221). -/
theorem Iss.trig_never {x : Iss} {h : Hdr} (c : TrigCond) (t : TrigThr) {s : State} {bs : List Byte} {i2 : Instr} {h2 : Hdr}
    {op2 : Nat} (never : h.never = true) (fetched : s.fetch (x.follow h) = .word bs)
    (target : trigTarget bs = some (.ok (i2, h2, op2))) : x.trig h c t s = x.passUnit h h2 false s := by
  simp only [Iss.trig, fetched, target, never, if_true]

/-- Settles O5: the never guard is the first check, and a TRIG's unit passes under it. -/
theorem neverGuardLeavesOnlyTheIssueSlot : Obligations.NeverGuardLeavesOnlyTheIssueSlot := by
  refine ⟨fun i h op x s head plain iss g gn => ?_, fun h c t x s bs i2 h2 op2 iss g gn fetched target => ?_⟩
  · obtain ⟨body, run⟩ := exec_eq_withIssue s head plain
    rw [run, withIssue_barrier body iss head (Iss.check_never x i h op s (Hdr.never_of g gn))]
  · show execTrig h c t s = _
    rw [execTrig, iss]
    exact congrArg Host.Outcome.next (Iss.trig_never c t (Hdr.never_of g gn) fetched target)

/-! ## What a split reads after a result (R57, R58) -/

theorem Group.rd_eq_viewFold (g : Group) (sp : Nat) (l : Loc) : g.rd sp l = viewFold (g.inFlight sp l) (g.file l) 0 := rfl

/-- One write in flight gives its old value while it is premature and its new one afterwards, under its mask. -/
theorem viewFold_single (e : Pend) (v : DWord) :
    viewFold [e] v 0 = if e.dist = 0 then e.over v else (v &&& ~~~e.mask) ||| (e.old &&& e.mask) := by
  have whole : e.mask &&& ~~~(0 : DWord) = e.mask := BitVec.and_allOnes
  unfold viewFold
  simp only [whole, viewFold, Pend.over]

theorem merge_self (v m : DWord) : (v &&& ~~~m) ||| (v &&& m) = v := by
  ext i
  simp only [BitVec.getElem_or, BitVec.getElem_and, BitVec.getElem_not]
  cases v[i] <;> cases m[i] <;> rfl

/-- A write in flight after a slot and its stall count: the distance of the split's own one shrinks (R58). -/
def Pend.shortened (sp st : Nat) (e : Pend) : Pend := if e.split = sp then { e with dist := e.dist - (st + 1) } else e

@[simp] theorem Pend.shortened_split (sp st : Nat) (e : Pend) : (e.shortened sp st).split = e.split := by
  unfold Pend.shortened
  split <;> rfl
@[simp] theorem Pend.shortened_loc (sp st : Nat) (e : Pend) : (e.shortened sp st).loc = e.loc := by
  unfold Pend.shortened
  split <;> rfl
@[simp] theorem Pend.shortened_landed (sp st : Nat) (e : Pend) : (e.shortened sp st).landed = e.landed := by
  unfold Pend.shortened
  split <;> rfl

/-- A slot that a split consumes shortens the distances of its writes to a place, while none of these has landed. -/
theorem Group.inFlight_consume_of {g : Group} {now sp st : Nat} {b : Bool} {l : Loc}
    (unlanded : ∀ e ∈ g.inFlight sp l, e.landed = false) : (g.consume now sp st b).inFlight sp l =
      (g.inFlight sp l).map fun e => { e with dist := e.dist - (st + 1) } := by
  have kept : (g.consume now sp st b).inFlight sp l = (g.inFlight sp l).map (Pend.shortened sp st) := by
    show ((g.pend.map (Pend.shortened sp st)).filter _).filter _ = _
    rw [List.filter_filter, List.filter_map]
    unfold Group.inFlight
    congr 1
    apply List.filter_congr
    intro e he
    by_cases here : e.split = sp ∧ e.loc = l
    · have notLanded : e.landed = false := unlanded e (List.mem_filter.mpr ⟨he, decide_eq_true here⟩)
      simp [here, notLanded]
    · simp [here]
  rw [kept]
  exact List.map_congr_left fun e he => if_pos (of_decide_eq_true (List.mem_filter.mp he).2).1

/-- The write that a lone split's result has put in flight to a place that had none, after the instruction's own slot. -/
theorem Iss.inFlight_completed (x : Iss) (i : Instr) (h : Hdr) (loc : Loc) (m v : DWord) (now : Nat)
    (none : ∀ e ∈ x.g.pend, e.loc ≠ loc) (k : loc ≠ .k 0) :
    (x.completed i h [(loc, m, v)] now).inFlight x.sp.id loc =
      [{ x.g.pendOf now x.sp.id (lat i) (loc, m, v) with dist := lat i - (h.st.toNat + 1) }] := by
  have before : x.g.inFlight x.sp.id loc = [] := by
    simp only [Group.inFlight, List.filter_eq_nil_iff, decide_eq_true_eq, not_and]
    exact fun e he _ => none e he
  have entered : (x.g.enter now x.sp.id (lat i) (x.g.fixedDests x.sp.id h i) [(loc, m, v)]).inFlight x.sp.id loc =
      [x.g.pendOf now x.sp.id (lat i) (loc, m, v)] := by
    rw [Group.inFlight_enter, before]
    simp [k]
  unfold Iss.completed
  show (Group.consume _ _ _ _ _).inFlight _ _ = _
  rw [Group.inFlight_consume_of (by simp [entered, Group.pendOf]), entered]
  rfl

/-- Settles O8: the one write in flight to the place is premature while its distance is not zero. -/
theorem prematureReadGivesTheOldValue : Obligations.PrematureReadGivesTheOldValue := by
  intro i h x loc m v s place lone none k
  refine ⟨x.completed i h [(loc, m, v)] s.now, ?_, ?_⟩
  · obtain ⟨-, -, tm, tm', -, team, -, -, group⟩ := Iss.result_onlyGroup i h [(loc, m, v)] place lone
    rw [State.group?, team]
    exact group
  · have file : (x.completed i h [(loc, m, v)] s.now).file loc = x.g.file loc := by
      unfold Iss.completed
      rw [Group.modSplit_file, Group.consume_file, Group.enter_file]
    rw [Group.rd_eq_viewFold, file, Iss.inFlight_completed x i h loc m v s.now none k, viewFold_single]
    have newest : x.g.newest x.sp.id loc = x.g.file loc := Group.newest_of_none _ _ _ fun e he _ => none e he
    by_cases premature : h.st.toNat + 1 < lat i
    · rw [if_neg (Nat.sub_ne_zero_of_lt premature), if_pos premature]
      show (_ &&& ~~~_) ||| (x.g.newest x.sp.id loc &&& _) = _
      rw [newest, merge_self]
    · rw [if_pos (Nat.sub_eq_zero_of_le (Nat.not_lt.mp premature)), if_neg premature]
      refine (Group.over_pendOf x.g s.now x.sp.id (lat i) (loc, m, v) (x.g.file loc)).trans ?_
      simp only [Loc.replaced, BitVec.and_assoc]

/-! ## k0 (R54) -/

theorem Group.changes_k0 (g : Group) (sp : Nat) (m v : DWord) : g.changes sp (.k 0, m, v) = false := by
  simp [Group.changes]

/-- Results to k0 put nothing in flight and change no value. -/
theorem Iss.result_filter_k0 (x : Iss) (i : Instr) (h : Hdr) (ws : List (Loc × DWord × DWord)) (s : State) :
    x.result i h ws s = x.result i h (ws.filter (·.1 ≠ .k 0)) s := by
  have entered (g : Group) (now sp lat : Nat) (ds : List (Nat × Nat)) :
      g.enter now sp lat ds (ws.filter (·.1 ≠ .k 0)) = g.enter now sp lat ds ws := by
    simp only [Group.enter, List.filter_filter, Bool.and_self]
  have changed (g : Group) (sp : Nat) : (ws.filter (·.1 ≠ .k 0)).any (g.changes sp) = ws.any (g.changes sp) := by
    rw [List.any_filter]
    congr 1
    funext ⟨loc, m, v⟩
    by_cases k : loc = .k 0
    · subst k
      simp [Group.changes_k0]
    · simp [k]
  unfold Iss.result Iss.finish
  simp only [entered, changed]

theorem Group.enter_pend_ne_k0 {g : Group} {now sp lat : Nat} {ds : List (Nat × Nat)} {ws : List (Loc × DWord × DWord)}
    (before : ∀ e ∈ g.pend, e.loc ≠ .k 0) : ∀ e ∈ (g.enter now sp lat ds ws).pend, e.loc ≠ .k 0 := by
  intro e he
  rw [Group.enter_pend, List.mem_append, List.mem_map] at he
  rcases he with old | ⟨w, hw, rfl⟩
  · exact before e old
  · exact of_decide_eq_true (List.mem_filter.mp hw).2

/-- Settles O9: k0 is in no map of the register file, and no write to it is put in flight. -/
theorem k0IsHardWired : Obligations.K0IsHardWired := by
  refine ⟨Group.file_k0, fun g sp none => ?_, Group.setFile_k0, fun i h x => x.result_filter_k0 i h,
    fun g now sp lat ds ws => Group.enter_pend_ne_k0⟩
  unfold Group.kr
  rw [Group.rd_of_none g sp (.k 0) fun e he _ => none e he]
  rfl

end Sys2Proof.Machine
end

section
/-! PROOFS. Class 0xF (26 R327 to R331): control and status registers, TRAP and BRK; reserved OP slots and the landing of
results (05 R57, R61). -/

namespace Sys2Proof.Machine

-- As above: the theorems are checked one after the other, within the memory of the check.
set_option Elab.async false

/-! ## The registers of Table 26.3 -/

theorem popCount_le (m : Word) : popCount m ≤ 32 := by
  unfold popCount lanesOf
  exact (List.length_filter_le _ _).trans (by simp)

theorem filter_isSome_add_isNone (xs : List Split) :
    (xs.filter (·.entry.isSome)).length + (xs.filter (·.entry.isNone)).length = xs.length := by
  induction xs with
  | nil => rfl
  | cons x xs ih => cases e : x.entry <;> simp [e] <;> omega

/-- The fields of GSTAT (Table 26.5). -/
theorem Group.gstat_fields (g : Group) (splits : g.splits.length ≤ 32) (live : (g.splits.filter (·.entry.isSome)).length ≤ 8) :
    g.gstat.toNat % 2 ^ 12 = popCount g.occ ∧
      g.gstat.toNat / 2 ^ 12 % 2 ^ 4 = (g.splits.filter (·.entry.isSome)).length ∧
      g.gstat.toNat / 2 ^ 16 % 2 ^ 6 = (g.splits.filter (·.entry.isNone)).length ∧
      g.gstat.getLsbD 22 = g.xp.isSome ∧ g.gstat.toNat / 2 ^ 32 = g.region.toNat := by
  have occ := popCount_le g.occ
  have all := filter_isSome_add_isNone g.splits
  have region := g.region.isLt
  have bit : g.gstat.getLsbD 22 = decide (g.gstat.toNat / 2 ^ 22 % 2 = 1) := by
    rw [BitVec.getLsbD, Nat.testBit_eq_decide_div_mod_eq]
  rw [bit]
  unfold Group.gstat
  rw [BitVec.toNat_ofNat]
  generalize popCount g.occ = o at *
  generalize (g.splits.filter (·.entry.isSome)).length = a at *
  generalize (g.splits.filter (·.entry.isNone)).length = b at *
  have small : g.region.toNat * 2 ^ 32 + (if g.xp.isSome = true then 2 ^ 22 else 0) + b * 2 ^ 16 + a * 2 ^ 12 + o < 2 ^ 64 := by
    split <;> omega
  rw [Nat.mod_eq_of_lt small]
  have high : (g.region.toNat * 2 ^ 32 + (if g.xp.isSome = true then 2 ^ 22 else 0) + b * 2 ^ 16 + a * 2 ^ 12 + o) / 2 ^ 22 =
      g.region.toNat * 2 ^ 10 + if g.xp.isSome = true then 1 else 0 := by
    split <;> omega
  rw [high]
  cases g.xp.isSome <;> simp only [Bool.false_eq_true, if_false, if_true, decide_eq_true_eq, decide_eq_false_iff_not] <;> omega

/-- The fields of XCUR (22 Table 22.1). -/
theorem Group.xcur_fields {g : Group} {e : Expand} (active : g.xp = some e) (cur : e.cur < 2 ^ 32) (total : e.total < 2 ^ 32) :
    g.xcur.toNat % 2 ^ 32 = e.cur ∧ g.xcur.toNat / 2 ^ 32 = e.total := by
  unfold Group.xcur
  rw [active]
  simp only [BitVec.toNat_ofNat]
  omega

/-- The fields of TCTL (Table 26.6). -/
theorem Team.tctl_fields (t : Team) (groups : t.groups.length ≤ 64) :
    t.tctl.toNat % 2 ^ 15 = (t.groups.filter (·.live)).length ∧ (t.tctl.getLsbD 15 = true ↔ ∃ n, t.st = .notice n) := by
  have live := (List.length_filter_le (·.live) t.groups).trans groups
  have bit : t.tctl.getLsbD 15 = decide (t.tctl.toNat / 2 ^ 15 % 2 = 1) := by
    rw [BitVec.getLsbD, Nat.testBit_eq_decide_div_mod_eq]
  rw [bit, decide_eq_true_eq]
  unfold Team.tctl
  rw [BitVec.toNat_ofNat]
  generalize (t.groups.filter (·.live)).length = n at *
  cases t.st <;> simp <;> omega

theorem Iss.csr_frec (x : Iss) {k : Nat} (hk : k < 8) : x.csr (BitVec.ofNat 6 (8 + k)) = x.g.frec.getD k 0 := by
  interval_cases k <;> rfl

/-! ## CSRW -/

/-- A lone split passes an instruction in a group that an earlier change left with its splits as they were. -/
theorem Iss.pass_after {x : Iss} {s t : State} {g : Group} (h : Hdr) (b : Bool) (lone : x.lone) (o : OnlyGroup x.r g s t)
    (same : g.splits = x.g.splits) : ∃ g' y, OnlyGroup x.r g' s (x.pass h b t) ∧
      g' = { g with splits := [y], pend := g'.pend, score := g'.score } ∧ y.mask = x.sp.mask ∧ y.pc = x.next h ∧
      y.hold = .run := by
  have moved := o.modG (fun g => (g.consume t.now x.sp.id h.st.toNat b).move t.now x.sp.id (x.next h) .seq) fun g => by simp
  obtain ⟨alone, top, stays⟩ := lone
  have splits := Group.consume_lone g x.sp t.now h.st.toNat b (same.trans alone)
  rw [Group.move_of_none _ _ _ _ _ (by rw [splits]; simp [top, stays])] at moved
  refine ⟨_, { x.sp with
    readyAt := t.now + h.st.toNat + 1, issuedAt := t.now, loud := x.sp.loud || b, pc := x.next h, arrivedBy := .seq, only := none
    hold := .run, words := 0, bar := none }, moved, ?_, rfl, rfl, rfl⟩
  simp only [Group.modSplit, splits, List.map_cons, List.map_nil, if_true]
  rfl

/-- Before any change, the group of a split that is in place is as the split finds it. -/
theorem Iss.inPlace.onlyGroup {x : Iss} {s : State} (p : x.inPlace s) : OnlyGroup x.r x.g s s := by
  obtain ⟨-, team, -, group, -⟩ := State.at?_eq p
  exact ⟨rfl, fun _ _ => rfl, _, _, team, team, rfl, fun _ _ => rfl, group⟩

/-- An instruction of a lone split that changes its group, but for its splits and operations, and passes. -/
theorem completes_of_pass {i : Instr} {h : Hdr} {x : Iss} {s t : State} {b : Bool} {g : Group} {P : State → Group → Prop}
    (run : exec i s = .next (x.pass h b t)) (lone : x.lone) (o : OnlyGroup x.r g s t) (same : g.splits = x.g.splits)
    (ops : g.ops = x.g.ops) (effect : ∀ t' g', OnlyGroup x.r g' s t' →
      g' = { g with splits := g'.splits, pend := g'.pend, score := g'.score } → P t' g') : Completes i h x s P := by
  obtain ⟨g', y, only, frame, mask, pc, hold⟩ := Iss.pass_after h b lone o same
  refine ⟨_, g', y, run, only.mem, only.group?_self, ⟨fun o => o.skip, ?_⟩, by rw [frame], mask, pc, hold, effect _ g' only ?_⟩
  · rw [frame, ops]
    exact (List.map_id' _).symm
  · rw [frame]

theorem exec_csrw {h : Hdr} {n : BitVec 6} {sa : Reg} {x : Iss} {s : State} (iss : IssuesU (.csrw h n sa) h x s) :
    exec (.csrw h n sa) s = .next (if n = 0x00 then
      x.pass h (decide ((x.sR h sa).setWidth 9 ≠ x.g.gctl)) (s.modG x.r fun g => { g with gctl := (x.sR h sa).setWidth 9 })
    else x.pass h false s) := withIssue_uniform _ iss

/-- CSRW of a lone split: its group takes the new GCTL, if any, and the split goes on. -/
theorem csrw_completes {h : Hdr} {n : BitVec 6} {sa : Reg} {x : Iss} {s : State} (iss : IssuesU (.csrw h n sa) h x s)
    (place : x.inPlace s) (lone : x.lone) : Completes (.csrw h n sa) h x s fun t g =>
      g = { x.g with gctl := g.gctl, splits := g.splits, pend := g.pend, score := g.score } ∧
      (n = 0 → ∀ k, g.gctl.getLsbD k = (decide (k < 9) && (x.sR h sa).getLsbD k)) ∧ (n ≠ 0 → g.gctl = x.g.gctl) ∧
      ∀ a b, (a, b) ≠ (x.r.team, x.r.grp) → t.group? a b = s.group? a b := by
  have run := exec_csrw iss
  by_cases zero : n = 0x00
  · rw [if_pos zero] at run
    refine completes_of_pass run lone (place.modG (fun g => { g with gctl := (x.sR h sa).setWidth 9 }) fun _ => rfl) rfl rfl
      fun t g only frame => ⟨by rw [frame], fun _ k => ?_, fun other => absurd zero other, fun a b => only.group?_ne⟩
    rw [frame]
    exact BitVec.getLsbD_setWidth ..
  · rw [if_neg zero] at run
    exact completes_of_pass run lone place.onlyGroup rfl rfl
      fun t g only frame => ⟨by rw [frame], fun same => absurd same zero, fun _ => by rw [frame], fun a b => only.group?_ne⟩

/-! ## TRAP and BRK (R331) -/

/-- The sixth word of a record is the fault's own detail, but for a fault of a page. -/
theorem frecOf_detail (tm : Team) (g : Group) {f : FInfo} (seq lv act : Nat) (plain : f.cause ≠ .page ∧ f.cause ≠ .prot) :
    (frecOf tm g f seq lv act).getD 5 0 = f.detail := by
  obtain ⟨page, prot⟩ := plain
  have own : (frecOf tm g f seq lv act).getD 5 0 = BitVec.ofNat 64 f.detail.toNat := by
    simp only [frecOf, List.getD_cons_succ, List.getD_cons_zero]
  rw [own, BitVec.ofNat_toNat, BitVec.setWidth_eq]

/-- What TRAP or BRK reports. -/
def Iss.stopInfo (x : Iss) (cause : Cause) (c : BitVec 6) : FInfo :=
  { cause := cause, level := if x.sp.mask = 0 then 1 else 0, lanes := x.sp.mask, addr := 0, detail := c.setWidth 64,
    pages := [], pc := x.sp.pc, split := x.sp.mask, eng := false, fetch := false }

/-- The record that TRAP or BRK writes. -/
def Iss.stopRecord (x : Iss) (cause : Cause) (c : BitVec 6) (seq : Nat) : List DWord :=
  frecOf x.tm x.g (x.stopInfo cause c) seq 7 Action.kparent.code

/-- The words of that record (Table 26.2). -/
theorem Iss.stopRecord_words (x : Iss) {cause : Cause} (c : BitVec 6) (seq : Nat) (code : cause.code < 256)
    (plain : cause ≠ .page ∧ cause ≠ .prot) : let w := x.stopRecord cause c seq
    (w.getD 0 0).toNat % 2 ^ 8 = cause.code ∧ (w.getD 0 0).toNat / 2 ^ 32 = seq % 2 ^ 32 ∧ w.getD 1 0 = x.sp.pc ∧
      (w.getD 2 0).toNat = x.sp.mask.toNat * 2 ^ 32 + x.sp.mask.toNat ∧ w.getD 5 0 = c.setWidth 64 := by
  obtain ⟨a, b, d, it, e⟩ := frecOf_eq x.tm x.g (x.stopInfo cause c) seq 7 Action.kparent.code
  have e : x.stopRecord cause c seq = _ := e
  have origin : (x.stopInfo cause c).level < 5 := by
    unfold stopInfo
    dsimp only
    split <;> decide
  obtain ⟨low, -, -, -, high⟩ := frec0_fields (seq := seq) (n := 0) it false (by decide) (Action.code_lt .kparent)
    (by decide : 7 < 8) origin code
  have mask := x.sp.mask.isLt
  refine ⟨?_, ?_, ?_, ?_, frecOf_detail x.tm x.g seq 7 _ plain⟩
  · rw [e]
    exact low
  · rw [e]
    exact high
  · rw [e]
    rfl
  · rw [e]
    simp only [List.getD_cons_succ, List.getD_cons_zero, BitVec.toNat_ofNat]
    show (x.sp.mask.toNat * 2 ^ 32 + x.sp.mask.toNat) % 2 ^ 64 = _
    omega

/-- The report of TRAP or BRK to the host. -/
def Iss.stopReport (x : Iss) (cause : Cause) (seq : Nat) : Report :=
  { seq := seq, team := x.r.team, grp := x.r.grp, split := x.r.split, level := if x.sp.mask = 0 then 1 else 0, cause := some cause,
    lanes := x.sp.mask, grid := false, trapStop := true, held := .run, eng := none }

/-- The state in which the record is written and reported, and not yet logged. -/
def Iss.stopped (x : Iss) (l : Launch) (cause : Cause) (c : BitVec 6) (s : State) : State :=
  (s.modLaunch l.id fun k => { k with seq := l.seq + 1, reports := k.reports ++ [x.stopReport cause (l.seq + 1)] }).modG x.r
    fun g => { g.landSplits [x.r.split] with frec := x.stopRecord cause c (l.seq + 1) }

theorem Iss.stop_of {x : Iss} {s : State} {l : Launch} (launch : x.launch s = some l) (h : Hdr) (cause : Cause) (c : BitVec 6) :
    let w := x.stopRecord cause c (l.seq + 1)
    x.stop h cause c s = x.hold h (.stop (l.seq + 1)) (w != x.g.frec)
      (((x.stopped l cause c s).logFault l.id (logEntry w [] [])).tell (.delivered l.id (l.seq + 1) (logEntry w [] []))) := by
  unfold stop
  rw [launch]
  rfl

/-- A lone split that is held consumes its slot and stays at its instruction. -/
theorem Group.hold_lone {g : Group} {sp : Split} (alone : g.splits = [sp]) (now st : Nat) (b : Bool) (hd : Hold) :
    ∃ y, ((g.consume now sp.id st b).modSplit sp.id fun y => { y with hold := hd }).splits = [y] ∧ y.pc = sp.pc ∧
      y.mask = sp.mask ∧ y.hold = hd := by
  simp only [Group.modSplit, Group.consume_lone g sp now st b alone, List.map_cons, List.map_nil, if_true]
  exact ⟨_, rfl, rfl, rfl, rfl⟩

/-- What a stop by TRAP or BRK leaves of a lone split: the record, its log entry and its report, and the split held at its
instruction. -/
theorem Iss.stop_lone {x : Iss} {s : State} {l : Launch} (h : Hdr) {cause : Cause} (c : BitVec 6) (place : x.inPlace s)
    (lone : x.lone) (launch : x.launch s = some l) :
    let w := x.stopRecord cause c (l.seq + 1)
    let t := x.stop h cause c s
    (∃ g y, t.group? x.r.team x.r.grp = some g ∧ g.splits = [y] ∧ y.pc = x.sp.pc ∧ y.mask = x.sp.mask ∧
      y.hold = .stop (l.seq + 1) ∧ g.occ = x.g.occ ∧ g.item = x.g.item ∧ g.gctl = x.g.gctl ∧ g.region = x.g.region ∧
      (x.g.pend = [] → ∀ loc, g.file loc = x.g.file loc) ∧ g.frec = w) ∧
    t.launch? l.id = some { l with seq := l.seq + 1, reports := l.reports ++ [x.stopReport cause (l.seq + 1)], nfault := l.nfault + 1 } ∧
    HostMsg.delivered l.id (l.seq + 1) (logEntry w [] []) ∈ t.hostOut := by
  intro w t
  obtain ⟨-, team, -, group, -⟩ := State.at?_eq place
  obtain ⟨alone, -, -⟩ := lone
  have own : s.launch? l.id = some l := by
    rw [State.launch?_id launch]
    exact launch
  have stopped : (x.stopped l cause c s).launch? l.id =
      some { l with seq := l.seq + 1, reports := l.reports ++ [x.stopReport cause (l.seq + 1)] } :=
    State.launch?_modLaunch_self (f := fun k => { k with
      seq := l.seq + 1, reports := k.reports ++ [x.stopReport cause (l.seq + 1)] }) own fun _ => rfl
  have recorded : (x.stopped l cause c s).group? x.r.team x.r.grp = some { x.g.landSplits [x.r.split] with frec := w } :=
    State.group?_modGroup_self (f := fun g => { g.landSplits [x.r.split] with frec := w }) (State.group?_of (s := State.modLaunch ..) team group)
      fun g => (g.splitsMove_landSplits _).grp
  obtain ⟨teams, -, counted, -, -⟩ := State.logFault_found stopped (logEntry w [] [])
  have logged : ((x.stopped l cause c s).logFault l.id (logEntry w [] [])).group? x.r.team x.r.grp =
      some { x.g.landSplits [x.r.split] with frec := w } := by
    unfold State.group? State.team? at recorded ⊢
    rw [teams]
    exact recorded
  have landed : x.g.SplitsMove (x.g.landSplits [x.r.split]) := x.g.splitsMove_landSplits _
  obtain ⟨y, splits, pc, mask, hold⟩ := Group.hold_lone (g := { x.g.landSplits [x.r.split] with frec := w })
    ((x.g.landSplits_splits _).trans alone) (x.stopped l cause c s |>.logFault l.id (logEntry w [] [])).now h.st.toNat (w != x.g.frec)
    (.stop (l.seq + 1))
  rw [show t = _ from Iss.stop_of launch h cause c]
  refine ⟨⟨_, y, State.group?_modGroup_self logged fun _ => rfl, splits, pc, mask, hold, landed.occ, landed.item, ?_, ?_,
    fun idle loc => ?_, rfl⟩, counted, List.mem_append_right _ (List.mem_singleton.2 rfl)⟩
  · show (x.g.landSplits _).gctl = _
    rw [landed]
  · show (x.g.landSplits _).region = _
    rw [landed]
  · rw [Group.modSplit_file, Group.consume_file]
    exact Eq.trans (by cases loc <;> rfl) (Group.landSplits_file x.g _ idle loc)

/-! ## Landing (R57) -/

/-- A mask without bits outside a width is within it. -/
theorem and_eq_of_outside {m w : DWord} (none : m &&& ~~~w = 0) : m &&& w = m := by
  refine BitVec.eq_of_getLsbD_eq fun i hi => ?_
  have bit := congrArg (·.getLsbD i) none
  simp only [BitVec.getLsbD_and, BitVec.getLsbD_not, hi, decide_true, Bool.true_and] at bit ⊢
  cases e : m.getLsbD i <;> simp_all

/-- Of two values put in under one mask the last stands. -/
theorem merge_merge (v a b m : DWord) : (((v &&& ~~~m) ||| (a &&& m)) &&& ~~~m) ||| (b &&& m) = (v &&& ~~~m) ||| (b &&& m) := by
  ext i
  simp only [BitVec.getElem_or, BitVec.getElem_and, BitVec.getElem_not]
  cases m[i] <;> simp

theorem foldl_ite_none {α σ : Type} {p : α → Bool} (f : σ → α → σ) {l : List α} (none : ∀ a ∈ l, p a = false) (s : σ) :
    l.foldl (fun s a => if p a then f s a else s) s = s := by
  induction l with
  | nil => rfl
  | cons a l ih =>
    rw [List.foldl_cons, none a List.mem_cons_self]
    exact ih fun b m => none b (List.mem_cons_of_mem _ m)

/-- Among the writes in flight with their places in the list, one that is alone with its place is cut out by that place. -/
theorem zipIdx_cut {l : List Pend} {i : Nat} {e : Pend} (found : l[i]? = some e)
    (alone : ∀ k q, l[k]? = some q → k ≠ i → q.loc ≠ e.loc) : ∃ a b, l.zipIdx = a ++ (e, i) :: b ∧
      (∀ p ∈ a, p.1.loc ≠ e.loc) ∧ ∀ p ∈ b, p.1.loc ≠ e.loc := by
  obtain ⟨a, b, cut⟩ := List.append_of_mem (List.mk_mem_zipIdx_iff_getElem?.2 found)
  have once : (l.zipIdx.map (·.2)).Nodup := by
    rw [List.zipIdx_map_snd]
    exact List.nodup_range'
  rw [cut, List.map_append, List.map_cons] at once
  obtain ⟨-, ⟨notAfter, -⟩, apart⟩ := by simpa only [List.nodup_append, List.nodup_cons] using once
  have other (p : Pend × Nat) (m : p ∈ l.zipIdx) (ne : p.2 ≠ i) : p.1.loc ≠ e.loc :=
    alone p.2 p.1 (List.mk_mem_zipIdx_iff_getElem?.1 m) ne
  refine ⟨a, b, cut, fun p m => other p (by simp [cut, m]) ?_, fun p m => other p (by simp [cut, m]) ?_⟩
  · exact apart _ (List.mem_map_of_mem m) _ List.mem_cons_self
  · rintro rfl
    exact notAfter (List.mem_map_of_mem m)

/-- Whether a write of the list lands with the write `e`, which is the list's entry `i`. -/
def Pend.landsWith (e : Pend) (i : Nat) (p : Pend × Nat) : Bool := decide (p.2 ≤ i) && p.1.loc == e.loc && !p.1.landed

/-- A write of the list after those that land with `e` have landed. -/
def Pend.landedWith (e : Pend) (i : Nat) (p : Pend × Nat) : Pend := if e.landsWith i p then { p.1 with landed := true } else p.1

theorem Pend.landsWith_elsewhere {e : Pend} (i : Nat) {p : Pend × Nat} (ne : p.1.loc ≠ e.loc) : e.landsWith i p = false := by
  simp [landsWith, ne]

theorem Pend.landsWith_self {e : Pend} (i : Nat) (inFlight : e.landed = false) : e.landsWith i (e, i) = true := by
  simp [landsWith, inFlight]

theorem Group.landAt_of {g : Group} {i now : Nat} {e : Pend} (found : g.pend[i]? = some e) (inFlight : e.landed = false)
    (due : e.landsAt ≤ now) : g.landAt i now =
      { g.pend.zipIdx.foldl (fun g p => if e.landsWith i p then g.land p.1 else g) g with
        pend := (g.pend.zipIdx.map (e.landedWith i)).filter fun q => !(q.landed && q.dist == 0) } := by
  unfold landAt
  rw [found]
  exact if_neg (by simp [inFlight, due])

theorem Group.landAt_early {g : Group} {i now : Nat} {e : Pend} (found : g.pend[i]? = some e) (early : now < e.landsAt) :
    g.landAt i now = g := by
  unfold landAt
  rw [found]
  exact if_pos (by simp [early])

/-- Where no other write is in flight to its place, the write that lands does so alone. -/
theorem Group.landAt_alone {g : Group} {i now : Nat} {e : Pend} (found : g.pend[i]? = some e)
    (alone : ∀ k q, g.pend[k]? = some q → k ≠ i → q.loc ≠ e.loc) (inFlight : e.landed = false) (due : e.landsAt ≤ now) :
    ∃ ps, g.landAt i now = { g.land e with pend := ps } ∧ ps.filter (fun p => p.split = e.split ∧ p.loc = e.loc) =
      if e.dist = 0 then [] else [{ e with landed := true }] := by
  obtain ⟨a, b, cut, before, after⟩ := zipIdx_cut found alone
  have folded : g.pend.zipIdx.foldl (fun g p => if e.landsWith i p then g.land p.1 else g) g = g.land e := by
    rw [cut, List.foldl_append, foldl_ite_none _ (fun p m => Pend.landsWith_elsewhere i (before p m)), List.foldl_cons,
      if_pos (Pend.landsWith_self i inFlight), foldl_ite_none _ fun p m => Pend.landsWith_elsewhere i (after p m)]
  have gone (l : List (Pend × Nat)) (ne : ∀ p ∈ l, p.1.loc ≠ e.loc) : (((l.map (e.landedWith i)).filter fun q =>
      !(q.landed && q.dist == 0)).filter fun p => p.split = e.split ∧ p.loc = e.loc) = [] := by
    simp only [List.filter_eq_nil_iff, List.mem_filter, List.mem_map, decide_eq_true_eq]
    rintro _ ⟨⟨p, m, rfl⟩, -⟩ ⟨-, same⟩
    rw [Pend.landedWith, Pend.landsWith_elsewhere i (ne p m)] at same
    exact ne p m same
  refine ⟨_, by rw [landAt_of found inFlight due, folded], ?_⟩
  rw [cut, List.map_append, List.filter_append, List.filter_append, gone a before, List.nil_append, List.map_cons,
    show e.landedWith i (e, i) = { e with landed := true } from if_pos (Pend.landsWith_self i inFlight), List.filter_cons]
  by_cases reached : e.dist = 0
  · rw [if_neg (by simp [reached]), if_pos reached, gone b after]
  · rw [if_pos (by simp [reached]), if_neg reached, List.filter_cons, if_pos (by simp), gone b after]

/-- What the landing of such a write makes true: its place has the new bits, no other place changes, and its split reads what
it read before. -/
theorem Group.landAt_reads {g : Group} {i now : Nat} {e : Pend} (found : g.pend[i]? = some e)
    (alone : ∀ k q, g.pend[k]? = some q → k ≠ i → q.loc ≠ e.loc) (k0 : e.loc ≠ .k 0) (wide : e.mask &&& ~~~e.loc.width = 0)
    (inFlight : e.landed = false) (due : e.landsAt ≤ now) :
    (g.landAt i now).file e.loc = (g.file e.loc &&& ~~~e.mask) ||| (e.new &&& e.mask) ∧
      (∀ loc, loc ≠ e.loc → (g.landAt i now).file loc = g.file loc) ∧
      (g.landAt i now).rd e.split e.loc = g.rd e.split e.loc ∧ (g.landAt i now).splits = g.splits ∧
      (g.landAt i now).occ = g.occ := by
  obtain ⟨ps, landed, own⟩ := landAt_alone found alone inFlight due
  have file (loc : Loc) : (g.landAt i now).file loc = (g.land e).file loc := by
    rw [landed]
    cases loc <;> rfl
  have inside : e.mask &&& e.loc.width = e.mask := and_eq_of_outside wide
  have written : (g.land e).file e.loc = (g.file e.loc &&& ~~~e.mask) ||| (e.new &&& e.mask) := by
    rw [Group.land, Group.file_setFile _ _ _ _ k0, inside]
  refine ⟨(file _).trans written, fun loc ne => (file loc).trans (g.file_setFile_ne _ _ ne), ?_, ?_, ?_⟩
  · have before : g.inFlight e.split e.loc = [e] := by
      obtain ⟨a, b, cut, first, last⟩ := zipIdx_cut found alone
      have whole : g.pend = a.map (·.1) ++ e :: b.map (·.1) := by
        rw [← List.zipIdx_map_fst 0 g.pend, cut, List.map_append, List.map_cons]
      have none (l : List (Pend × Nat)) (ne : ∀ p ∈ l, p.1.loc ≠ e.loc) :
          (l.map (·.1)).filter (fun p => p.split = e.split ∧ p.loc = e.loc) = [] := by
        simp only [List.filter_eq_nil_iff, List.mem_map, decide_eq_true_eq]
        rintro _ ⟨p, m, rfl⟩ ⟨-, same⟩
        exact ne p m same
      rw [Group.inFlight, whole, List.filter_append, List.filter_cons, none a first, none b last]
      simp
    have after : (g.landAt i now).inFlight e.split e.loc = if e.dist = 0 then [] else [{ e with landed := true }] := by
      rw [landed]
      exact own
    rw [Group.rd_eq_viewFold, Group.rd_eq_viewFold, file, written, before, after, viewFold_single]
    split
    · rfl
    · rw [viewFold_single, if_neg ‹_›]
      exact merge_merge ..
  · rw [landed]
    exact g.setFile_splits ..
  · rw [landed]
    exact g.setFile_occ ..

theorem Group.splitsMove_landAt (g : Group) (i now : Nat) : g.SplitsMove (g.landAt i now) := by
  unfold landAt
  split
  · exact .refl g
  · exact .ite (.refl g) (.trans (.foldl (fun g p => .ite (g.splitsMove_setFile ..) (.refl g)) _ g) rfl)

theorem exec_resultLanding {s : State} {team grp i : Nat} {g : Group} (found : s.group? team grp = some g) :
    ∃ t, exec (.resultLanding team grp i) s = .next t ∧ t.mem = s.mem ∧ t.group? team grp = some (g.landAt i s.now) :=
  ⟨_, rfl, rfl, State.group?_modGroup_self found fun g => (g.splitsMove_landAt ..).grp⟩

/-! ## The obligation -/

/-- TRAP and BRK, from what a stop leaves. -/
theorem stop_statement {x : Iss} {s : State} {l : Launch} {i : Instr} {h : Hdr} {c : BitVec 6} {cause : Cause} (place : x.inPlace s)
    (lone : x.lone) (launch : x.launch s = some l) (code : cause.code < 256) (plain : cause ≠ .page ∧ cause ≠ .prot)
    (run : exec i s = .next (x.stop h cause c s)) : ∃ t g y l', exec i s = .next t ∧
      t.group? x.r.team x.r.grp = some g ∧ g.splits = [y] ∧ y.pc = x.sp.pc ∧ y.mask = x.sp.mask ∧
      y.hold = .stop (l.seq + 1) ∧ g.occ = x.g.occ ∧ g.item = x.g.item ∧ g.gctl = x.g.gctl ∧ g.region = x.g.region ∧
      (x.g.pend = [] → ∀ loc, g.file loc = x.g.file loc) ∧
      (g.frec.getD 0 0).toNat % 2 ^ 8 = cause.code ∧ (g.frec.getD 0 0).toNat / 2 ^ 32 = (l.seq + 1) % 2 ^ 32 ∧
      g.frec.getD 1 0 = x.sp.pc ∧ (g.frec.getD 2 0).toNat = x.sp.mask.toNat * 2 ^ 32 + x.sp.mask.toNat ∧
      g.frec.getD 5 0 = c.setWidth 64 ∧
      t.launch? l.id = some l' ∧ l'.seq = l.seq + 1 ∧ l'.nfault = l.nfault + 1 ∧ l'.exited = l.exited ∧
      l'.killed = l.killed ∧ HostMsg.delivered l.id (l.seq + 1) (logEntry g.frec [] []) ∈ t.hostOut ∧
      ∃ r ∈ l'.reports, r.seq = l.seq + 1 ∧ r.cause = some cause ∧ r.trapStop = true ∧ r.ref = x.r := by
  obtain ⟨⟨g, y, group, splits, pc, mask, hold, occ, item, gctl, region, file, frec⟩, counted, told⟩ :=
    Iss.stop_lone h (cause := cause) c place lone launch
  obtain ⟨f0, f0', f1, f2, f5⟩ := x.stopRecord_words c (l.seq + 1) code plain
  rw [← frec] at f0 f0' f1 f2 f5 told
  exact ⟨_, g, y, _, run, group, splits, pc, mask, hold, occ, item, gctl, region, file, f0, f0', f1, f2, f5, counted, rfl, rfl, rfl,
    rfl, told, _, List.mem_append_right _ (List.mem_singleton.2 rfl), rfl, rfl, rfl, rfl⟩

/-- Settles O50: each register, stop and landing by the lemma that says what it leaves. -/
theorem systemRegistersTrapsAndLandings : Obligations.SystemRegistersTrapsAndLandings := by
  refine ⟨fun h n sd x s => givesU_of rfl rfl, fun h sd x s => givesU_of rfl rfl, fun x => ⟨rfl, fun k => x.csr_frec, x.g.gstat_fields,
    fun idle => ?_, fun e => Group.xcur_fields, x.tm.tctl_fields⟩, fun h n sa x s => csrw_completes, fun h c x s l place lone launch =>
    ⟨fun iss => stop_statement place lone launch (by decide) (by decide) (withIssue_uniform _ iss),
      fun iss => stop_statement place lone launch (by decide) (by decide) (withIssue_uniform _ iss)⟩, fun w x s issuer => ?_,
    fun s team grp i g e group found alone k0 wide => ⟨fun early => ?_, fun inFlight due => ?_⟩⟩
  · show x.g.xcur = 0
    rw [Group.xcur, idle]
  · show execReservedOpcode w s = _
    rw [execReservedOpcode, issuer]
  · obtain ⟨t, run, mem, after⟩ := exec_resultLanding (i := i) group
    exact ⟨t, run, mem, by rw [after, Group.landAt_early found early]⟩
  · obtain ⟨t, run, mem, after⟩ := exec_resultLanding (i := i) group
    exact ⟨t, _, run, mem, after, Group.landAt_reads found alone k0 wide inFlight due⟩

end Sys2Proof.Machine
end

section
/-! PROOFS. What the writes of a group leave of the bytes that it reads through its caches (12 R164 to R167, R189): the bytes
written read back, and no other byte changes, whatever lines a write drives out. -/

namespace Sys2Proof.Machine

-- As above: the theorems are checked one after the other, within the memory of the check.
set_option Elab.async false

/-! ## A byte behind the caches -/

theorem State.dieByte_eq (s : State) (d pa : Nat) :
    s.dieByte d pa = (lineOf (s.die d).dc (pa / 64)).cover (pa % 64) (s.homeByte pa) := rfl

theorem State.l1Byte_eq (s : State) (c pa : Nat) :
    s.l1Byte c pa = (lineOf (s.core c).l1 (pa / 64)).cover (pa % 64) (s.dieByte (dieOf c) pa) := rfl

theorem State.homeByte_cached {s : State} {d pa : Nat} (home : homeDie pa = some d) :
    s.homeByte pa = (lineOf (s.die d).dc (pa / 64)).cover (pa % 64) (s.mem.get 0 pa) := by
  unfold State.homeByte
  rw [home]
  rfl

/-- On its home die a byte reads as at its home. -/
theorem State.dieByte_home {s : State} {d pa : Nat} (home : homeDie pa = some d) : s.dieByte d pa = s.homeByte pa := by
  rw [State.dieByte_eq, State.homeByte_cached home]
  unfold Line.cover
  split <;> rfl

/-- A byte that was merged reads as it was merged. -/
theorem Line.cover_merged {l : Line} {m : BitVec 64} {i : Nat} (inside : i < 64) (bit : m.getLsbD i = true) (d : BitVec 512)
    (dirty : Bool) (b : Byte) : (l.merge m d dirty).cover i b = d.extractLsb' (8 * i) 8 := by
  unfold Line.cover
  rw [Line.merge_valid, BitVec.getLsbD_or, bit, Bool.or_true, if_pos rfl, Line.byte_merge _ _ _ _ _ inside, if_pos bit]

theorem Line.cover_of_valid {l : Line} {i : Nat} (valid : l.valid.getLsbD i = true) (a b : Byte) : l.cover i a = l.cover i b := by
  simp [cover, valid]

theorem Line.cover_of_invalid {l : Line} {i : Nat} (invalid : l.valid.getLsbD i = false) (b : Byte) : l.cover i b = b := by
  simp [cover, invalid]

/-- A byte that is not valid is not dirty, in a line whose dirty bytes are valid. -/
theorem Line.clean_of_invalid {l : Line} (ok : l.dirty &&& ~~~l.valid = 0) {i : Nat} (low : i < 64)
    (invalid : l.valid.getLsbD i = false) : l.dirty.getLsbD i = false := by
  have bit := congrArg (·.getLsbD i) ok
  rw [BitVec.getLsbD_and, BitVec.getLsbD_not, invalid, decide_eq_true low, Bool.not_false, Bool.and_true, Bool.and_true] at bit
  exact bit.trans BitVec.getLsbD_zero

theorem homeDie_of_line {pa k : Nat} (line : pa / 64 = k) : homeDie pa = homeDie (64 * k) := by
  have whole : pa = 64 * k + pa % 64 := by omega
  rw [whole]
  exact homeDie_line k (by omega)

/-! ## Write-back from a die cache -/

theorem State.homeLine_die_ne {s : State} {d k : Nat} (away : homeDie (64 * k) ≠ some d) (m : BitVec 64) (x : BitVec 512) :
    (s.homeLine k m x).die d = s.die d := by
  unfold State.homeLine
  split
  · rfl
  case h_2 e home =>
    split
    · rw [State.die_modDie, if_neg fun h => away (by rw [home, h.1])]
    · rfl

/-- A write of a line at its home leaves the other bytes of memory. -/
theorem State.homeLine_mem {s : State} {k pa : Nat} {m : BitVec 64} (apart : ¬ (pa / 64 = k ∧ m.getLsbD (pa % 64) = true))
    (x : BitVec 512) : (s.homeLine k m x).mem.get 0 pa = s.mem.get 0 pa := by
  have memory : (s.memLine k m x).mem.get 0 pa = s.mem.get 0 pa := by rw [State.memLine_get, if_neg apart]
  unfold State.homeLine
  split
  · exact memory
  · split
    · rfl
    · exact memory

section
variable {s : State} (ok : s.cacheOk) {d : Nat} (hd : d < 4)
include ok hd

/-- A line that a die has written back is there as it was, and clean. -/
theorem State.wbDie_line (k : Nat) : lineOf ((s.wbDie d k).die d).dc k =
    if (lineOf (s.die d).dc k).valid = 0 then Line.none else { lineOf (s.die d).dc k with dirty := 0 } := by
  obtain ⟨dies, -⟩ := ok
  have length : (if (lineOf (s.die d).dc k).dirty = 0 then s
      else s.homeLine k (lineOf (s.die d).dc k).dirty (lineOf (s.die d).dc k).data).dies.length = 4 := by
    split
    · exact dies
    · exact (s.onLine_homeLine k _ _).dies.trans dies
  unfold State.wbDie
  dsimp only
  rw [State.die_modDie, if_pos ⟨rfl, length.symm ▸ hd⟩, lineOf_setLine, if_pos rfl]

theorem State.wbDie_cover (k i : Nat) (j : Nat) (b : Byte) :
    (lineOf ((s.wbDie d k).die d).dc j).cover i b = (lineOf (s.die d).dc j).cover i b := by
  by_cases same : j = k
  · subst same
    rw [State.wbDie_line ok hd]
    exact Line.cover_set { lineOf (s.die d).dc j with dirty := 0 } i b
  · rw [(s.onLine_wbDie d k).line d j same]

/-- A byte that the die's line does not hold stays at its home. -/
theorem State.homeByte_wbDie {k pa : Nat} (invalid : (lineOf (s.die d).dc (pa / 64)).valid.getLsbD (pa % 64) = false) :
    (s.wbDie d k).homeByte pa = s.homeByte pa := by
  by_cases line : pa / 64 = k
  · subst line
    have clean := Line.clean_of_invalid (ok.2.2.2.2 d (pa / 64)) (Nat.mod_lt _ (by decide)) invalid
    have apart : ¬ (pa / 64 = pa / 64 ∧ (lineOf (s.die d).dc (pa / 64)).dirty.getLsbD (pa % 64) = true) := by simp [clean]
    by_cases home : homeDie pa = some d
    · rw [State.homeByte_cached home, State.homeByte_cached home, State.wbDie_cover ok hd]
      congr 1
      unfold State.wbDie
      dsimp only
      rw [State.modDie_mem]
      split
      · rfl
      · exact State.homeLine_mem apart _
    · unfold State.wbDie
      dsimp only
      rw [State.homeByte_modDie_ne _ _ home]
      split
      · rfl
      · exact State.homeByte_homeLine apart
  · exact (s.onLine_wbDie d k).homeByte line

/-- What a die has written back it still reads as before. -/
theorem State.dieByte_wbDie (k pa : Nat) : (s.wbDie d k).dieByte d pa = s.dieByte d pa := by
  rw [State.dieByte_eq, State.dieByte_eq, State.wbDie_cover ok hd]
  cases valid : (lineOf (s.die d).dc (pa / 64)).valid.getLsbD (pa % 64) with
  | true => exact Line.cover_of_valid valid _ _
  | false => rw [State.homeByte_wbDie ok hd valid]

end

/-! ## A write that leaves an L1 -/

/-- Whether a write of a line under a mask reaches a byte. -/
def hits (k : Nat) (m : BitVec 64) (pa : Nat) : Prop := pa / 64 = k ∧ m.getLsbD (pa % 64) = true

/-- The byte that such a write puts at a place of its line. -/
def lineByte (x : BitVec 512) (pa : Nat) : Byte := x.extractLsb' (8 * (pa % 64)) 8

theorem State.homeByte_homeLine_hit {s : State} (dies : s.dies.length = 4) {k pa : Nat} {m : BitVec 64} (hit : hits k m pa)
    (x : BitVec 512) : (s.homeLine k m x).homeByte pa = lineByte x pa := by
  obtain ⟨rfl, bit⟩ := hit
  have whole : pa = 64 * (pa / 64) + pa % 64 := by omega
  have there := State.homeLine_byte (s := s) (k := pa / 64) (Nat.mod_lt pa (by decide)) dies bit x
  rwa [← whole] at there

theorem absent_of_full {cap k : Nat} {c : Map Line} (full : hasRoom cap c k = false) : lineOf c k = Line.none := by
  rcases lineOf_mem_or_none c k with listed | absent
  · have found : (List.find? (fun p => decide (p.1 = k)) c).isSome := List.find?_isSome.2 ⟨_, listed, by simp⟩
    rw [Map.find?_eq_list, Option.isSome_map] at found
    simp [hasRoom, found] at full
  · exact absent

theorem Line.cover_none (i : Nat) (b : Byte) : Line.none.cover i b = b := by
  simp [cover, Line.none]

/-- The state in which a die's cache takes a line: its oldest dirty line may have been written back before. -/
def State.dieReady (s : State) (d k : Nat) : State :=
  if (lineOf (s.die d).dc k).dirty = 0 ∧ 65536 ≤ lineCount (s.die d).fifo then
    (match oldest (s.die d).fifo with | some o => s.wbDie d o | Option.none => s) else s

theorem State.dieReady_cases {s : State} {d k : Nat} (P : State → Prop) (same : P s) (back : ∀ o, P (s.wbDie d o)) :
    P (s.dieReady d k) := by
  unfold State.dieReady
  split
  · split
    · exact back _
    · exact same
  · exact same

/-- A write that leaves an L1, of a line that its die's cache does not take: it reaches the home. -/
theorem State.dieByte_homeLine {s : State} (dies : s.dies.length = 4) {d k : Nat}
    (pass : homeDie (64 * k) = some d ∨ hasRoom dcLines (s.die d).dc k = false) (m : BitVec 64) (x : BitVec 512) (pa : Nat) :
    (hits k m pa → (s.homeLine k m x).dieByte d pa = lineByte x pa) ∧
      (¬ hits k m pa → (s.homeLine k m x).dieByte d pa = s.dieByte d pa) := by
  have home : (s.homeLine k m x).dieByte d pa = (s.homeLine k m x).homeByte pa ∧ s.dieByte d pa = s.homeByte pa ∨ pa / 64 ≠ k := by
    by_cases line : pa / 64 = k
    · left
      by_cases own : homeDie (64 * k) = some d
      · exact ⟨State.dieByte_home ((homeDie_of_line line).trans own), State.dieByte_home ((homeDie_of_line line).trans own)⟩
      · have absent := absent_of_full (pass.resolve_left own)
        rw [State.dieByte_eq, State.dieByte_eq, State.homeLine_die_ne own, line, absent, Line.cover_none, Line.cover_none]
        exact ⟨rfl, rfl⟩
    · exact .inr line
  rcases home with ⟨after, before⟩ | line
  · rw [after, before]
    exact ⟨fun hit => State.homeByte_homeLine_hit dies hit x, fun miss => State.homeByte_homeLine miss⟩
  · have only := s.onLine_homeLine k m x
    refine ⟨fun hit => absurd hit.1 line, fun _ => ?_⟩
    rw [State.dieByte_eq, State.dieByte_eq, only.line d _ line, only.homeByte line]

theorem dieOf_lt (c : Nat) : dieOf c < 4 := Nat.mod_lt _ (by decide)

theorem State.homeWritten_dieLine (s : State) (d k : Nat) (m : BitVec 64) (x : BitVec 512) : s.HomeWritten (s.dieLine d k m x) := by
  unfold State.dieLine
  split
  · exact s.homeWritten_homeLine ..
  · exact (State.dieReady_cases (d := d) (k := k) s.HomeWritten (.refl s) fun o => s.homeWritten_wbDie d o).trans
      (State.homeWritten_modDie ..)

section
variable {s : State} (ok : s.cacheOk)
include ok

/-- A write that leaves an L1 reads back on its die, and changes nothing else there. -/
theorem State.dieByte_dieLine {d : Nat} (hd : d < 4) (k : Nat) (m : BitVec 64) (x : BitVec 512) (pa : Nat) :
    (hits k m pa → (s.dieLine d k m x).dieByte d pa = lineByte x pa) ∧
      (¬ hits k m pa → (s.dieLine d k m x).dieByte d pa = s.dieByte d pa) := by
  unfold State.dieLine
  split
  case isTrue pass =>
    exact State.dieByte_homeLine ok.1 (pass.imp_right fun full => by simpa using full) m x pa
  case isFalse taken =>
    have away : homeDie (64 * k) ≠ some d := fun home => taken (.inl home)
    obtain ⟨length, reads, behind⟩ := State.dieReady_cases (s := s) (d := d) (k := k) (fun t => t.dies.length = 4 ∧
        (∀ p, t.dieByte d p = s.dieByte d p) ∧
        ∀ p, (lineOf (s.die d).dc (p / 64)).valid.getLsbD (p % 64) = false → t.homeByte p = s.homeByte p)
      ⟨ok.1, fun _ => rfl, fun _ _ => rfl⟩
      fun o => ⟨(s.onLine_wbDie d o).dies.trans ok.1, State.dieByte_wbDie ok hd o, fun p => State.homeByte_wbDie ok hd⟩
    show (_ → ((s.dieReady d k).modDie d _).dieByte d pa = _) ∧ (_ → ((s.dieReady d k).modDie d _).dieByte d pa = _)
    generalize s.dieReady d k = t at length reads behind ⊢
    have here : d = d ∧ d < t.dies.length := ⟨rfl, length.symm ▸ hd⟩
    by_cases line : pa / 64 = k
    · subst line
      have away' : homeDie pa ≠ some d := by rwa [homeDie_of_line rfl]
      rw [State.dieByte_eq, State.dieByte_eq, State.homeByte_modDie_ne _ _ away', State.die_modDie, if_pos here]
      dsimp only
      rw [lineOf_setLine, if_pos rfl, Line.cover_set]
      refine ⟨fun hit => Line.cover_merged (Nat.mod_lt _ (by decide)) hit.2 x true _, fun miss => ?_⟩
      have beside : m.getLsbD (pa % 64) = false := by simpa [hits] using miss
      rw [Line.cover_merge (Nat.mod_lt _ (by decide)) beside]
      cases valid : (lineOf (s.die d).dc (pa / 64)).valid.getLsbD (pa % 64) with
      | true => exact Line.cover_of_valid valid _ _
      | false => rw [behind pa valid]
    · refine ⟨fun hit => absurd hit.1 line, fun _ => ?_⟩
      have only := State.OnLine.modDie (k := k) t d (f := fun y => { y with
        dc := setLine y.dc k ((lineOf (s.die d).dc k).merge m x true)
        fifo := if (lineOf (s.die d).dc k).dirty = 0 then y.fifo ++ [.line k] else y.fifo })
        fun y j ne => lineOf_setLine_ne y.dc ne _
      rw [← reads pa, State.dieByte_eq, State.dieByte_eq, only.line d _ line, only.homeByte line]

/-! ## Writes into an L1 -/

/-- What a core has written back it still reads as before. -/
theorem State.l1Byte_wbL1 (c k pa : Nat) : (s.wbL1 c k).l1Byte c pa = s.l1Byte c pa := by
  unfold State.wbL1
  dsimp only
  split
  · rfl
  · next dirty =>
    obtain ⟨-, kept⟩ := State.dieByte_dieLine ok (dieOf_lt c) k (lineOf (s.core c).l1 k).dirty (lineOf (s.core c).l1 k).data pa
    have cores := (s.homeWritten_dieLine (dieOf c) k (lineOf (s.core c).l1 k).dirty (lineOf (s.core c).l1 k).data).cores
    generalize s.dieLine (dieOf c) k _ _ = t at kept cores
    have core : t.core c = s.core c := by unfold State.core; rw [cores]
    rw [State.l1Byte_eq, State.l1Byte_eq, State.core_modCore, if_pos rfl, core]
    show Line.cover _ _ (t.dieByte (dieOf c) pa) = _
    by_cases line : pa / 64 = k
    · subst line
      dsimp only
      rw [lineOf_setLine, if_pos rfl]
      refine (Line.cover_set { lineOf (s.core c).l1 (pa / 64) with dirty := 0 } _ _).trans ?_
      show (lineOf (s.core c).l1 (pa / 64)).cover _ _ = _
      cases valid : (lineOf (s.core c).l1 (pa / 64)).valid.getLsbD (pa % 64) with
      | true => exact Line.cover_of_valid valid _ _
      | false =>
        have clean := Line.clean_of_invalid (ok.2.2.2.1 c (pa / 64)) (Nat.mod_lt _ (by decide)) valid
        rw [kept fun hit => Bool.false_ne_true (clean.symm.trans hit.2)]
    · dsimp only
      rw [lineOf_setLine_ne _ line, kept fun hit => line hit.1]

/-- A store of bytes of a line reads back through the L1, and changes nothing else there. -/
theorem State.l1Byte_l1Line (c k : Nat) (m : BitVec 64) (x : BitVec 512) (pa : Nat) :
    (hits k m pa → (s.l1Line c k m x).l1Byte c pa = lineByte x pa) ∧
      (¬ hits k m pa → (s.l1Line c k m x).l1Byte c pa = s.l1Byte c pa) := by
  unfold State.l1Line
  split
  case isTrue room =>
    have taken (t : State) (f : Core → List FEnt) (same : t.l1Byte c pa = s.l1Byte c pa) :
        (hits k m pa → (t.modCore c fun y => { y with
          l1 := setLine y.l1 k ((lineOf y.l1 k).merge m x true), fifo := f y }).l1Byte c pa = lineByte x pa) ∧
        (¬ hits k m pa → (t.modCore c fun y => { y with
          l1 := setLine y.l1 k ((lineOf y.l1 k).merge m x true), fifo := f y }).l1Byte c pa = s.l1Byte c pa) := by
      rw [← same, State.l1Byte_eq, State.l1Byte_eq, State.core_modCore, if_pos rfl]
      dsimp only
      by_cases line : pa / 64 = k
      · subst line
        rw [lineOf_setLine, if_pos rfl, Line.cover_set]
        refine ⟨fun hit => Line.cover_merged (Nat.mod_lt _ (by decide)) hit.2 x true _, fun miss => ?_⟩
        have beside : m.getLsbD (pa % 64) = false := by simpa [hits] using miss
        exact Line.cover_merge (Nat.mod_lt _ (by decide)) beside ..
      · rw [lineOf_setLine_ne _ line]
        exact ⟨fun hit => absurd hit.1 line, fun _ => rfl⟩
    refine taken _ _ ?_
    split
    · split
      · exact State.l1Byte_wbL1 ok c _ pa
      · rfl
    · rfl
  case isFalse full =>
    have absent := absent_of_full (Bool.eq_false_iff.2 full)
    obtain ⟨hit, miss⟩ := State.dieByte_dieLine ok (dieOf_lt c) k m x pa
    have cores := (s.homeWritten_dieLine (dieOf c) k m x).cores
    generalize s.dieLine (dieOf c) k m x = t at hit miss cores
    have core : t.core c = s.core c := by unfold State.core; rw [cores]
    rw [State.l1Byte_eq, State.l1Byte_eq, State.core_modCore, if_pos rfl, core]
    show (_ → Line.cover _ _ (t.dieByte (dieOf c) pa) = _) ∧ (_ → Line.cover _ _ (t.dieByte (dieOf c) pa) = _)
    dsimp only
    refine ⟨fun here => ?_, fun other => by rw [miss other]⟩
    rw [here.1, absent, Line.cover_none, hit here]

end

/-! ## UC writes (R189) -/

theorem State.homeWritten_ucLine (s : State) (k : Nat) (m : BitVec 64) (x : BitVec 512) : s.HomeWritten (s.ucLine k m x) := by
  unfold State.ucLine
  dsimp only
  split
  · exact s.homeWritten_memLine ..
  · exact (s.homeWritten_memLine ..).trans (State.homeWritten_modDie ..)

theorem State.onLine_ucLine (s : State) (k : Nat) (m : BitVec 64) (x : BitVec 512) : State.OnLine k s (s.ucLine k m x) := by
  unfold State.ucLine
  dsimp only
  split
  · exact .memLine s m x
  · exact .trans (.memLine s m x) (.modDie _ _ fun y j ne => lineOf_setLine_ne y.dc ne _)

theorem State.ucLine_die_ne {s : State} {d k : Nat} (away : homeDie (64 * k) ≠ some d) (m : BitVec 64) (x : BitVec 512) :
    (s.ucLine k m x).die d = s.die d := by
  unfold State.ucLine
  dsimp only
  split
  · rfl
  case h_2 e home => exact (State.die_modDie ..).trans (if_neg fun h => away (by rw [home, h.1]))

/-- A copy of a line into which the bytes that it holds are merged gives a byte as memory does, which takes them all. -/
theorem Line.cover_updated (l : Line) (m : BitVec 64) (x : BitVec 512) {i : Nat} (low : i < 64) (b : Byte) :
    (l.merge (m &&& l.valid) x false).cover i (if m.getLsbD i = true then x.extractLsb' (8 * i) 8 else b) =
      if m.getLsbD i = true then x.extractLsb' (8 * i) 8 else l.cover i b := by
  by_cases bit : m.getLsbD i = true
  · rw [if_pos bit, if_pos bit]
    cases valid : l.valid.getLsbD i with
    | true => exact Line.cover_merged low (by simp [bit, valid]) ..
    | false => exact Line.cover_of_invalid (by simp [valid]) _
  · rw [if_neg bit, if_neg bit]
    exact Line.cover_merge low (by simp [bit]) ..

section
variable {s : State} (dies : s.dies.length = 4) (k : Nat) (m : BitVec 64) (x : BitVec 512) (pa : Nat)
include dies

/-- A UC write of a line reads back at its home, and changes nothing else there. -/
theorem State.homeByte_ucLine : (hits k m pa → (s.ucLine k m x).homeByte pa = lineByte x pa) ∧
    (¬ hits k m pa → (s.ucLine k m x).homeByte pa = s.homeByte pa) := by
  by_cases line : pa / 64 = k
  · subst line
    have low : pa % 64 < 64 := Nat.mod_lt _ (by decide)
    have value : (s.ucLine (pa / 64) m x).homeByte pa = if m.getLsbD (pa % 64) = true then lineByte x pa else s.homeByte pa := by
      unfold State.ucLine
      dsimp only
      cases home : homeDie (64 * (pa / 64)) with
      | none =>
        have host : homeDie pa = none := (homeDie_of_line rfl).trans home
        unfold State.homeByte
        rw [host]
        dsimp only
        rw [State.memLine_get]
        simp only [true_and]
        rfl
      | some d =>
        have cached : homeDie pa = some d := (homeDie_of_line rfl).trans home
        have here : d = d ∧ d < (s.memLine (pa / 64) m x).dies.length := ⟨rfl, dies.symm ▸ homeDie_lt home⟩
        dsimp only
        rw [State.homeByte_cached cached, State.homeByte_cached cached, State.die_modDie, if_pos here]
        dsimp only
        rw [lineOf_setLine, if_pos rfl, Line.cover_set, State.modDie_mem, State.memLine_get]
        simp only [true_and]
        exact Line.cover_updated _ m x low _
    rw [value]
    exact ⟨fun hit => if_pos hit.2, fun miss => if_neg fun bit => miss ⟨rfl, bit⟩⟩
  · exact ⟨fun hit => absurd hit.1 line, fun _ => (s.onLine_ucLine k m x).homeByte line⟩

/-- A UC write of a line changes nothing else that a group reads through its L1. -/
theorem State.l1Byte_ucLine (c : Nat) (miss : ¬ hits k m pa) : (s.ucLine k m x).l1Byte c pa = s.l1Byte c pa := by
  have home := (State.homeByte_ucLine dies k m x pa).2 miss
  have core : (s.ucLine k m x).core c = s.core c := by unfold State.core; rw [(s.homeWritten_ucLine k m x).cores]
  rw [State.l1Byte_eq, State.l1Byte_eq, core]
  congr 1
  by_cases own : homeDie pa = some (dieOf c)
  · rw [State.dieByte_home own, State.dieByte_home own, home]
  · rw [State.dieByte_eq, State.dieByte_eq, home]
    congr 1
    by_cases line : pa / 64 = k
    · rw [State.ucLine_die_ne (by rwa [← homeDie_of_line line])]
    · exact (s.onLine_ucLine k m x).line _ _ line

end

end Sys2Proof.Machine
end

section
/-! PROOFS. Writes of runs of bytes, and of the bytes of an access (12 R164, R168, R189): each byte that is written last reads
back, and no other byte changes. -/

namespace Sys2Proof.Machine

-- As above: the theorems are checked one after the other, within the memory of the check.
set_option Elab.async false

/-! ## Folds of writes -/

/-- Where every write that reaches a place puts the same value there, a fold of writes leaves that value if one of them reaches
the place, and otherwise what was there. -/
theorem foldl_agree {α σ β : Type} {f : σ → α → σ} {ok : σ → Prop} {read : σ → β} {hit : α → Prop} {v : β} {l : List α}
    (step : ∀ s, ok s → ∀ a ∈ l, ok (f s a) ∧ (hit a → read (f s a) = v) ∧ (¬ hit a → read (f s a) = read s)) {s : σ}
    (start : ok s) : ok (l.foldl f s) ∧ ((∃ a ∈ l, hit a) → read (l.foldl f s) = v) ∧
      ((∀ a ∈ l, ¬ hit a) → read (l.foldl f s) = read s) := by
  induction l generalizing s with
  | nil => exact ⟨start, fun ⟨a, m, _⟩ => (nomatch m), fun _ => rfl⟩
  | cons a l ih =>
    obtain ⟨next, here, past⟩ := step s start a List.mem_cons_self
    obtain ⟨last, found, absent⟩ := ih (fun s os b m => step s os b (List.mem_cons_of_mem _ m)) next
    refine ⟨last, ?_, fun none => ?_⟩
    · rintro ⟨b, m, hb⟩
      by_cases later : ∃ b ∈ l, hit b
      · exact found later
      · have first : hit a := by
          rcases List.mem_cons.1 m with rfl | m
          · exact hb
          · exact absurd ⟨b, m, hb⟩ later
        exact (absent fun c mc hc => later ⟨c, mc, hc⟩).trans (here first)
    · exact (absent fun b m => none b (List.mem_cons_of_mem _ m)).trans (past (none a List.mem_cons_self))

/-! ## The lines of a run -/

/-- A run of bytes from a place covers an address. -/
def inRun (pa len a : Nat) : Prop := pa ≤ a ∧ a < pa + len

/-- A line's mask and data, with one byte of a run put in. -/
def lineStep (pa : Nat) (bs : List Byte) (k : Nat) (a : BitVec 64 × BitVec 512) (i : Nat) : BitVec 64 × BitVec 512 :=
  let p := 64 * k + i
  if pa ≤ p ∧ p < pa + bs.length then
    (a.1 ||| (1#64 <<< i), a.2 ||| ((bs.getD (p - pa) 0).setWidth 512 <<< (8 * i)))
  else a

theorem lineRuns_eq (pa : Nat) (bs : List Byte) : lineRuns pa bs =
    (List.range ((pa % 64 + bs.length + 63) / 64)).map fun j =>
      (pa / 64 + j, (List.range 64).foldl (lineStep pa bs (pa / 64 + j)) (0, 0)) := rfl

theorem getLsbD_bit (n i : Nat) (low : n < 64) : (1#64 <<< n).getLsbD i = true ↔ i = n := by
  simp only [BitVec.getLsbD_shiftLeft, BitVec.getLsbD_one, Bool.and_eq_true, Bool.not_eq_true', decide_eq_true_eq,
    decide_eq_false_iff_not]
  omega

theorem getLsbD_placed (v : Byte) (n b : Nat) (low : n < 64) :
    (v.setWidth 512 <<< (8 * n)).getLsbD b = true ↔ b / 8 = n ∧ v.getLsbD (b % 8) = true := by
  simp only [BitVec.getLsbD_shiftLeft, BitVec.getLsbD_setWidth, Bool.and_eq_true, Bool.not_eq_true', decide_eq_true_eq,
    decide_eq_false_iff_not]
  constructor
  · rintro ⟨⟨-, from_⟩, -, bit⟩
    have inside := BitVec.lt_of_getLsbD bit
    obtain rfl : b / 8 = n := by omega
    rw [show b - 8 * (b / 8) = b % 8 by omega] at bit
    exact ⟨rfl, bit⟩
  · rintro ⟨rfl, bit⟩
    rw [show b - 8 * (b / 8) = b % 8 by omega]
    exact ⟨by omega, by omega, bit⟩

/-- The bits of a line's mask and data after some of its bytes. -/
theorem lineFold_bits (pa : Nat) (bs : List Byte) (k n : Nat) (small : n ≤ 64) :
    let z := (List.range n).foldl (lineStep pa bs k) (0, 0)
    (∀ i, z.1.getLsbD i = true ↔ i < n ∧ inRun pa bs.length (64 * k + i)) ∧
      ∀ b, z.2.getLsbD b = true ↔ b / 8 < n ∧ inRun pa bs.length (64 * k + b / 8) ∧
        (bs.getD (64 * k + b / 8 - pa) 0).getLsbD (b % 8) = true := by
  induction n with
  | zero => simp
  | succ n ih =>
    obtain ⟨mask, data⟩ := ih (by omega)
    rw [List.range_succ, List.foldl_append, List.foldl_cons, List.foldl_nil]
    generalize (List.range n).foldl (lineStep pa bs k) (0, 0) = z at mask data ⊢
    unfold lineStep
    dsimp only
    split
    case isTrue inside =>
      refine ⟨fun i => ?_, fun b => ?_⟩
      · rw [BitVec.getLsbD_or, Bool.or_eq_true, mask, getLsbD_bit n i (by omega)]
        constructor
        · rintro (⟨low, here⟩ | rfl)
          · exact ⟨by omega, here⟩
          · exact ⟨by omega, inside⟩
        · rintro ⟨low, here⟩
          rcases Nat.lt_succ_iff_lt_or_eq.1 low with low | rfl
          · exact .inl ⟨low, here⟩
          · exact .inr rfl
      · rw [BitVec.getLsbD_or, Bool.or_eq_true, data, getLsbD_placed _ n b (by omega)]
        constructor
        · rintro (⟨low, rest⟩ | ⟨rfl, bit⟩)
          · exact ⟨by omega, rest⟩
          · exact ⟨by omega, inside, bit⟩
        · rintro ⟨low, here, bit⟩
          rcases Nat.lt_succ_iff_lt_or_eq.1 low with low | rfl
          · exact .inl ⟨low, here, bit⟩
          · exact .inr ⟨rfl, bit⟩
    case isFalse outside =>
      have other {i : Nat} (here : inRun pa bs.length (64 * k + i)) : i ≠ n := by
        rintro rfl
        exact outside here
      refine ⟨fun i => ?_, fun b => ?_⟩
      · rw [mask]
        exact ⟨fun ⟨low, here⟩ => ⟨by omega, here⟩, fun ⟨low, here⟩ => ⟨by have := other here; omega, here⟩⟩
      · rw [data]
        exact ⟨fun ⟨low, here, bit⟩ => ⟨by omega, here, bit⟩, fun ⟨low, here, bit⟩ => ⟨by have := other here; omega, here, bit⟩⟩

section
variable {pa : Nat} {bs : List Byte} {a : Nat}

/-- The write of a line of a run reaches the run's bytes in that line, with the run's values. -/
theorem lineRuns_hits {r : Nat × BitVec 64 × BitVec 512} (m : r ∈ lineRuns pa bs) :
    (hits r.1 r.2.1 a ↔ a / 64 = r.1 ∧ inRun pa bs.length a) ∧ (hits r.1 r.2.1 a → lineByte r.2.2 a = bs.getD (a - pa) 0) := by
  rw [lineRuns_eq] at m
  obtain ⟨j, -, rfl⟩ := List.mem_map.1 m
  obtain ⟨mask, data⟩ := lineFold_bits pa bs (pa / 64 + j) 64 le_rfl
  dsimp only
  generalize (List.range 64).foldl (lineStep pa bs (pa / 64 + j)) (0, 0) = z at mask data ⊢
  have whole (line : a / 64 = pa / 64 + j) : 64 * (pa / 64 + j) + a % 64 = a := by omega
  have low : a % 64 < 64 := Nat.mod_lt _ (by decide)
  have reached : hits (pa / 64 + j) z.1 a ↔ a / 64 = pa / 64 + j ∧ inRun pa bs.length a := by
    unfold hits
    rw [mask]
    constructor
    · rintro ⟨line, -, here⟩
      rw [whole line] at here
      exact ⟨line, here⟩
    · rintro ⟨line, here⟩
      rw [whole line]
      exact ⟨line, low, here⟩
  refine ⟨reached, fun hit => ?_⟩
  obtain ⟨line, here⟩ := reached.1 hit
  unfold lineByte
  refine BitVec.eq_of_getLsbD_eq fun i hi => Bool.eq_iff_iff.2 ?_
  rw [BitVec.getLsbD_extractLsb', decide_eq_true hi, Bool.true_and, data, show (8 * (a % 64) + i) / 8 = a % 64 by omega,
    show (8 * (a % 64) + i) % 8 = i by omega, whole line]
  exact ⟨fun ⟨_, _, bit⟩ => bit, fun bit => ⟨low, here, bit⟩⟩

/-- Every byte of a run is in one of its lines. -/
theorem lineRuns_covers (here : inRun pa bs.length a) : ∃ r ∈ lineRuns pa bs, hits r.1 r.2.1 a := by
  obtain ⟨from_, upTo⟩ := here
  have listed : (a / 64 : Nat) ∈ (lineRuns pa bs).map (·.1) := by
    rw [lineRuns_eq, List.map_map]
    exact List.mem_map.2 ⟨a / 64 - pa / 64, List.mem_range.2 (by omega), by simp only [Function.comp]; omega⟩
  obtain ⟨r, m, line⟩ := List.mem_map.1 listed
  exact ⟨r, m, (lineRuns_hits m).1.2 ⟨line.symm, from_, upTo⟩⟩

end

/-! ## Writes of a run -/

section
variable {s : State} (ok : s.cacheOk) (pa : Nat) (bs : List Byte) (a : Nat)
include ok

/-- A run written through an L1 reads back there, and changes nothing else. -/
theorem State.l1Byte_l1Run (c : Nat) : let t := (lineRuns pa bs).foldl (fun s x => s.l1Line c x.1 x.2.1 x.2.2) s
    t.cacheOk ∧ (inRun pa bs.length a → t.l1Byte c a = bs.getD (a - pa) 0) ∧
      (¬ inRun pa bs.length a → t.l1Byte c a = s.l1Byte c a) := by
  obtain ⟨good, found, absent⟩ := foldl_agree (f := fun (s : State) x => s.l1Line c x.1 x.2.1 x.2.2) (ok := State.cacheOk)
    (read := (·.l1Byte c a)) (hit := fun x => hits x.1 x.2.1 a) (v := bs.getD (a - pa) 0) (l := lineRuns pa bs) (s := s)
    (fun s ok x m => by
      obtain ⟨hit, miss⟩ := State.l1Byte_l1Line ok c x.1 x.2.1 x.2.2 a
      exact ⟨(Keeps.l1Line (.refl s)).cache ok, fun h => (hit h).trans ((lineRuns_hits m).2 h), miss⟩) ok
  exact ⟨good, fun here => found (lineRuns_covers here), fun out => absent fun x m h => out ((lineRuns_hits m).1.1 h).2⟩

/-- A run written as UC reads back at its home, and changes nothing else there or behind an L1. -/
theorem State.homeByte_ucWrite : (s.ucWrite pa bs).cacheOk ∧
    (inRun pa bs.length a → (s.ucWrite pa bs).homeByte a = bs.getD (a - pa) 0) ∧
    (¬ inRun pa bs.length a → (s.ucWrite pa bs).homeByte a = s.homeByte a) := by
  obtain ⟨good, found, absent⟩ := foldl_agree (f := fun (s : State) x => s.ucLine x.1 x.2.1 x.2.2) (ok := State.cacheOk)
    (read := (·.homeByte a)) (hit := fun x => hits x.1 x.2.1 a) (v := bs.getD (a - pa) 0) (l := lineRuns pa bs) (s := s)
    (fun s ok x m => by
      obtain ⟨hit, miss⟩ := State.homeByte_ucLine ok.1 x.1 x.2.1 x.2.2 a
      exact ⟨(Keeps.ucLine (.refl s)).cache ok, fun h => (hit h).trans ((lineRuns_hits m).2 h), miss⟩) ok
  exact ⟨good, fun here => found (lineRuns_covers here), fun out => absent fun x m h => out ((lineRuns_hits m).1.1 h).2⟩

theorem State.l1Byte_ucWrite (c : Nat) (out : ¬ inRun pa bs.length a) : (s.ucWrite pa bs).l1Byte c a = s.l1Byte c a := by
  have kept := List.foldlRecOn (motive := fun t : State => t.cacheOk ∧ t.l1Byte c a = s.l1Byte c a) (lineRuns pa bs)
    (fun s x => s.ucLine x.1 x.2.1 x.2.2) ⟨ok, rfl⟩ fun t h x m => ⟨(Keeps.ucLine (.refl t)).cache h.1,
      (State.l1Byte_ucLine h.1.1 x.1 x.2.1 x.2.2 a c fun hit => out ((lineRuns_hits m).1.1 hit).2).trans h.2⟩
  exact kept.2

end

/-! ## The runs of an access -/

/-- The bytes of a run, with the place and the policy of each. -/
def runBytes (r : PByte × List Byte) : List (PByte × Byte) := r.2.zipIdx.map fun b => (⟨r.1.pa + b.2, r.1.uc⟩, b.1)

theorem runBytes_cons {p q : PByte} (next : q.pa = p.pa + 1) (uc : q.uc = p.uc) (b : Byte) (bs : List Byte) :
    runBytes (p, b :: bs) = (p, b) :: runBytes (q, bs) := by
  unfold runBytes
  rw [List.zipIdx_cons, List.map_cons, List.zipIdx_succ, List.map_map]
  congr 1
  refine List.map_congr_left fun c _ => ?_
  simp only [Function.comp, next, uc]
  rw [show p.pa + (c.2 + 1) = p.pa + 1 + c.2 by omega]

/-- The runs of some bytes are these bytes, in order. -/
theorem runsOf_bytes (zs : List (PByte × Byte)) : (runsOf zs).flatMap runBytes = zs := by
  induction zs with
  | nil => rfl
  | cons z zs ih =>
    obtain ⟨p, b⟩ := z
    unfold runsOf
    split
    case h_1 q bs more e =>
      rw [e, List.flatMap_cons] at ih
      split
      case isTrue follows => rw [List.flatMap_cons, runBytes_cons follows.1 follows.2, List.cons_append, ih]
      case isFalse => rw [List.flatMap_cons, List.flatMap_cons, ih]; rfl
    case h_2 e =>
      rw [e] at ih
      rw [← ih]
      rfl

theorem mem_runBytes {r : PByte × List Byte} {z : PByte × Byte} : z ∈ runBytes r ↔
    inRun r.1.pa r.2.length z.1.pa ∧ z.1.uc = r.1.uc ∧ z.2 = r.2.getD (z.1.pa - r.1.pa) 0 := by
  obtain ⟨⟨pa, uc⟩, b⟩ := z
  unfold runBytes inRun
  simp only [List.mem_map, Prod.exists, Prod.mk.injEq, PByte.mk.injEq]
  constructor
  · rintro ⟨c, i, m, ⟨rfl, rfl⟩, rfl⟩
    obtain ⟨inside, rfl⟩ := List.getElem?_eq_some_iff.1 (List.mk_mem_zipIdx_iff_getElem?.1 m)
    exact ⟨by omega, rfl, by simp [inside]⟩
  · rintro ⟨⟨from_, upTo⟩, rfl, rfl⟩
    have inside : pa - r.1.pa < r.2.length := by omega
    exact ⟨_, pa - r.1.pa, List.mk_mem_zipIdx_iff_getElem?.2 (List.getElem?_eq_getElem inside), ⟨by omega, rfl⟩, by simp [inside]⟩

/-- A byte of some bytes is in one of their runs, and each byte of a run is one of them. -/
theorem mem_runsOf {zs : List (PByte × Byte)} {z : PByte × Byte} : z ∈ zs ↔ ∃ r ∈ runsOf zs, z ∈ runBytes r := by
  rw [← List.mem_flatMap, runsOf_bytes]

theorem mem_of_inRun {zs : List (PByte × Byte)} {r : PByte × List Byte} {pa : Nat} (m : r ∈ runsOf zs)
    (here : inRun r.1.pa r.2.length pa) : (⟨pa, r.1.uc⟩, r.2.getD (pa - r.1.pa) 0) ∈ zs :=
  mem_runsOf.2 ⟨r, m, mem_runBytes.2 ⟨here, rfl, rfl⟩⟩

theorem inRun_of_mem {zs : List (PByte × Byte)} {z : PByte × Byte} (m : z ∈ zs) :
    ∃ r ∈ runsOf zs, inRun r.1.pa r.2.length z.1.pa := by
  obtain ⟨r, mr, mz⟩ := mem_runsOf.1 m
  exact ⟨r, mr, (mem_runBytes.1 mz).1⟩

/-- A run begins at one of the bytes. -/
theorem runsOf_first {zs : List (PByte × Byte)} {r : PByte × List Byte} (m : r ∈ runsOf zs) : r.1 ∈ zs.map (·.1) := by
  induction zs generalizing r with
  | nil => cases m
  | cons z zs ih =>
    unfold runsOf at m
    split at m
    case h_1 q bs more e =>
      rw [e] at ih
      split at m
      · rcases List.mem_cons.1 m with rfl | m
        · exact List.mem_cons_self
        · exact List.mem_cons_of_mem _ (ih (List.mem_cons_of_mem _ m))
      · rcases List.mem_cons.1 m with rfl | m
        · exact List.mem_cons_self
        · exact List.mem_cons_of_mem _ (ih m)
    case h_2 =>
      obtain rfl := List.mem_singleton.1 m
      exact List.mem_cons_self

/-! ## A group's write (R164, R189) -/

/-- A run's write, through the L1 or at its home. -/
def State.runWrite (s : State) (c : Nat) (r : PByte × List Byte) : State :=
  if r.1.uc then s.ucWrite r.1.pa r.2 else (lineRuns r.1.pa r.2).foldl (fun s x => s.l1Line c x.1 x.2.1 x.2.2) s

theorem State.grpWrite_eq (s : State) (c : Nat) (zs : List (PByte × Byte)) : s.grpWrite c zs = (runsOf zs).foldl (·.runWrite c ·) s := rfl

section
variable {s : State} (ok : s.cacheOk) (c : Nat) {zs : List (PByte × Byte)} {pa : Nat} {v : Byte}
include ok

/-- A place that some of the written bytes name, none of them UC and all with one value, reads through the L1 as that value; one
that none names reads as before. -/
theorem State.l1Byte_grpWrite (agree : ∀ z ∈ zs, z.1.pa = pa → z.1.uc = false ∧ z.2 = v) : (s.grpWrite c zs).cacheOk ∧
    ((∃ z ∈ zs, z.1.pa = pa) → (s.grpWrite c zs).l1Byte c pa = v) ∧
    ((∀ z ∈ zs, z.1.pa ≠ pa) → (s.grpWrite c zs).l1Byte c pa = s.l1Byte c pa) := by
  obtain ⟨good, found, absent⟩ := foldl_agree (f := fun (s : State) r => s.runWrite c r) (ok := State.cacheOk)
    (read := (·.l1Byte c pa)) (hit := fun r => inRun r.1.pa r.2.length pa) (v := v) (l := runsOf zs) (s := s) (fun s ok r m => by
      unfold State.runWrite
      have named (here : inRun r.1.pa r.2.length pa) : r.1.uc = false ∧ r.2.getD (pa - r.1.pa) 0 = v :=
        agree _ (mem_of_inRun m here) rfl
      cases uc : r.1.uc with
      | true =>
        have out (here : inRun r.1.pa r.2.length pa) : False := Bool.false_ne_true ((named here).1.symm.trans uc)
        exact ⟨(State.homeByte_ucWrite ok r.1.pa r.2 pa).1, fun here => (out here).elim, State.l1Byte_ucWrite ok _ _ pa c⟩
      | false =>
        obtain ⟨good, hit, miss⟩ := State.l1Byte_l1Run ok r.1.pa r.2 pa c
        exact ⟨good, fun here => (hit here).trans (named here).2, miss⟩) ok
  rw [State.grpWrite_eq]
  refine ⟨good, ?_, fun none => absent fun r m here => ?_⟩
  · rintro ⟨z, m, rfl⟩
    exact found (inRun_of_mem m)
  · exact none _ (mem_of_inRun m here) rfl

/-- A place that some of the written bytes name, all of them UC, reads at its home as the value that all have for it. -/
theorem State.homeByte_grpWrite (uc : ∀ z ∈ zs, z.1.uc = true) (agree : ∀ z ∈ zs, z.1.pa = pa → z.2 = v)
    (named : ∃ z ∈ zs, z.1.pa = pa) : (s.grpWrite c zs).homeByte pa = v := by
  obtain ⟨-, found, -⟩ := foldl_agree (f := fun (s : State) r => s.runWrite c r) (ok := State.cacheOk)
    (read := (·.homeByte pa)) (hit := fun r => inRun r.1.pa r.2.length pa) (v := v) (l := runsOf zs) (s := s) (fun s ok r m => by
      obtain ⟨z, mz, first⟩ := List.mem_map.1 (runsOf_first m)
      obtain ⟨good, hit, miss⟩ := State.homeByte_ucWrite ok r.1.pa r.2 pa
      rw [show s.runWrite c r = s.ucWrite r.1.pa r.2 from if_pos (first ▸ uc z mz)]
      exact ⟨good, fun here => (hit here).trans (agree _ (mem_of_inRun m here) rfl), miss⟩) ok
  obtain ⟨z, m, rfl⟩ := named
  exact found (inRun_of_mem m)

end

end Sys2Proof.Machine
end

section
/-! PROOFS. What performing an operation of class 0x8 leaves of its group: its results land, it leaves the operations in flight and
its counters, and a held release that goes on changes no value (05 R57, 12 R165, 14 R195, R208). -/

namespace Sys2Proof.Machine

-- As above: the theorems are checked one after the other, within the memory of the check.
set_option Elab.async false

/-! ## Held releases that go on (R165, R171) -/

/-- A group of which at most the splits have changed. -/
def Group.OnlySplits (g g' : Group) : Prop := g' = { g with splits := g'.splits }

theorem Group.OnlySplits.refl (g : Group) : g.OnlySplits g := rfl

theorem Group.OnlySplits.trans {a b c : Group} (ab : a.OnlySplits b) (bc : b.OnlySplits c) : a.OnlySplits c := by
  unfold OnlySplits at *
  rw [bc, ab]

theorem Group.onlySplits_modSplit (g : Group) (i : Nat) (f : Split → Split) : g.OnlySplits (g.modSplit i f) := rfl

/-- A team of which at most splits' holds have changed. -/
structure Team.Pushed (a b : Team) : Prop where
  frame : b = { a with groups := b.groups }
  group : ∀ i, Option.Rel Group.OnlySplits (a.group? i) (b.group? i)

/-- A state of which at most splits' holds and the markers in the dirty-line FIFOs have changed. -/
structure State.Pushed (s t : State) : Prop where
  mem : t.mem = s.mem
  l1 : ∀ c, (t.core c).l1 = (s.core c).l1
  dc : ∀ d, (t.die d).dc = (s.die d).dc
  team : ∀ k, Option.Rel Team.Pushed (s.team? k) (t.team? k)

theorem Team.Pushed.refl (a : Team) : a.Pushed a := ⟨rfl, fun _ => rel_refl Group.OnlySplits.refl _⟩

theorem Team.Pushed.trans {a b c : Team} (ab : a.Pushed b) (bc : b.Pushed c) : a.Pushed c where
  frame := by rw [bc.frame, ab.frame]
  group i := rel_trans (r := Group.OnlySplits) (q := Group.OnlySplits) (fun _ _ _ => .trans) (ab.group i) (bc.group i)

theorem Team.Pushed.modSplit (a : Team) (i j : Nat) (f : Split → Split) : a.Pushed (a.modGroup i (·.modSplit j f)) where
  frame := rfl
  group k := by
    rw [Team.group?_modGroup a i k (·.modSplit j f) fun _ => rfl]
    split
    · exact rel_map (fun g => g.onlySplits_modSplit j f) _
    · exact rel_refl Group.OnlySplits.refl _

namespace State.Pushed

theorem refl (s : State) : s.Pushed s := ⟨rfl, fun _ => rfl, fun _ => rfl, fun _ => rel_refl Team.Pushed.refl _⟩

theorem trans {a b c : State} (ab : a.Pushed b) (bc : b.Pushed c) : a.Pushed c where
  mem := bc.mem.trans ab.mem
  l1 k := (bc.l1 k).trans (ab.l1 k)
  dc k := (bc.dc k).trans (ab.dc k)
  team k := rel_trans (r := Team.Pushed) (q := Team.Pushed) (fun _ _ _ => .trans) (ab.team k) (bc.team k)

theorem placeMark (s : State) (f : FifoRef) : s.Pushed (s.placeMark f) := by
  cases f with
  | core c =>
    refine ⟨rfl, fun k => ?_, fun _ => rfl, fun _ => rel_refl Team.Pushed.refl _⟩
    show ((s.modCore c fun y => { y with fifo := y.fifo ++ [.mark s.nextMark] }).core k).l1 = _
    rw [State.core_modCore]
    split <;> rfl
  | die d =>
    refine ⟨rfl, fun _ => rfl, fun k => ?_, fun _ => rel_refl Team.Pushed.refl _⟩
    show ((s.modDie d fun y => { y with fifo := y.fifo ++ [.mark s.nextMark] }).die k).dc = _
    rw [State.die_modDie]
    split <;> rfl

theorem modSplit (s : State) (r : SRef) (f : Split → Split) : s.Pushed (s.modSplit r f) where
  mem := rfl
  l1 _ := rfl
  dc _ := rfl
  team k := by
    unfold State.modSplit
    rw [State.team?_modGroup]
    split
    · exact rel_map (fun a => .modSplit a ..) _
    · exact rel_refl Team.Pushed.refl _

theorem pushRelease (s : State) (r : SRef) : s.Pushed (s.pushRelease r) := by
  unfold State.pushRelease
  split
  · exact refl s
  · split
    · exact refl s
    · dsimp only
      split
      · split
        · exact (placeMark s _).trans (modSplit ..)
        · exact refl s
      · exact refl s

theorem pushReleases (s : State) : s.Pushed s.pushReleases :=
  foldl_keeps (P := s.Pushed) (fun t r h => h.trans (pushRelease t r)) _ s (refl s)

section
variable {s t : State} (p : s.Pushed t)
include p

theorem homeByte (pa : Nat) : t.homeByte pa = s.homeByte pa := by
  unfold State.homeByte
  simp only [p.dc, p.mem]

theorem l1Byte (c pa : Nat) : t.l1Byte c pa = s.l1Byte c pa := by
  rw [State.l1Byte_eq, State.l1Byte_eq, State.dieByte_eq, State.dieByte_eq, p.l1, p.dc, p.homeByte]

end

end State.Pushed

/-! ## Results that land (05 R57) -/

theorem Group.landLoc_splitsMove (g : Group) (l : Loc) : g.SplitsMove (g.landLoc l) := by
  have fold : ∀ (p : Pend → Bool) (es : List Pend), g.SplitsMove (es.foldl (fun g e => if p e then g.land e else g) g) :=
    fun p es => .foldl (fun g e => .ite (g.splitsMove_setFile e.loc e.mask e.new) (.refl g)) es g
  exact .trans (fold _ g.pend) rfl

theorem Group.landLoc_file_ne (g : Group) {l k : Loc} (ne : k ≠ l) : (g.landLoc l).file k = g.file k := by
  have fold : (g.pend.foldl (fun g e => if e.loc = l && !e.landed then g.land e else g) g).file k = g.file k := by
    refine foldl_keeps (P := fun y : Group => y.file k = g.file k) (fun y e h => ?_) _ _ rfl
    split
    case isTrue here =>
      have place : e.loc = l := of_decide_eq_true (Bool.and_eq_true_iff.1 here).1
      exact (y.file_setFile_ne _ _ (place ▸ ne)).trans h
    case isFalse => exact h
  refine Eq.trans ?_ fold
  unfold landLoc
  cases k <;> rfl

/-- What a whole write of a place for an operation leaves in the file. -/
theorem Group.writeAs_file (g : Group) (op : Nat) {l : Loc} (v : DWord) (k0 : l ≠ .k 0) (whole : (∀ n, l ≠ .s n) ∨ l.width = ones) :
    (g.writeAs op l ones v).file l = v &&& l.width ∧ ∀ k, k ≠ l → (g.writeAs op l ones v).file k = g.file k := by
  have file (k : Loc) : (g.writeAs op l ones v).file k = ((g.landLoc l).setFile l ones v).file k := by cases k <;> rfl
  refine ⟨?_, fun k ne => ?_⟩
  · have all : (ones : DWord) &&& l.width = l.width := BitVec.allOnes_and
    have old : (g.landLoc l).file l &&& ~~~l.width = 0 := by
      rcases whole with other | wide
      · exact (g.landLoc l).file_within l other
      · rw [wide]
        exact BitVec.and_zero
    rw [file, Group.file_setFile _ _ _ _ k0, all, old]
    exact BitVec.zero_or
  · rw [file, Group.file_setFile_ne _ _ _ ne, Group.landLoc_file_ne _ ne]

/-- A write for an operation leaves the group's number, its counters and what it lives. -/
theorem Group.writeAs_frame (g : Group) (op : Nat) (l : Loc) (m v : DWord) :
    (g.writeAs op l m v).grp = g.grp ∧ (g.writeAs op l m v).ctrs = g.ctrs := by
  have moved := (g.landLoc_splitsMove l).trans ((g.landLoc l).splitsMove_setFile l m v)
  exact ⟨moved.grp, show ((g.landLoc l).setFile l m v).ctrs = g.ctrs by rw [moved]⟩

theorem Op.lands_all {p : Op} (fresh : p.skip = []) (l : Loc) (m : DWord) : p.lands l m = m := by
  unfold lands
  rw [fresh]
  rfl

/-- The whole results of an operation, one for each place, that nothing has overtaken. -/
structure Results (ws : List (Loc × DWord × DWord)) : Prop where
  once : (ws.map (·.1)).Nodup
  all : ∀ w ∈ ws, w.2.1 = ones
  k0 : ∀ w ∈ ws, w.1 ≠ .k 0
  whole : ∀ w ∈ ws, (∀ n, w.1 ≠ .s n) ∨ w.1.width = ones

theorem Results.nil : Results [] := ⟨List.nodup_nil, nofun, nofun, nofun⟩

section
variable {g : Group} {p : Op} {ws : List (Loc × DWord × DWord)} (live : g.live = true) (fresh : p.skip = []) (r : Results ws)
  (loud : Bool)
include live fresh r

/-- The fold of writes that a landing is. -/
theorem Group.landOp_fold : ∃ splits, g.landOp p ws loud =
    { ws.foldl (fun g w => g.writeAs p.id w.1 w.2.1 w.2.2) g with splits := splits } := by
  have kept : ((ws.map fun w => (w.1, p.lands w.1 w.2.1, w.2.2)).filter (·.2.1 ≠ 0)) = ws := by
    have same : (ws.map fun w => (w.1, p.lands w.1 w.2.1, w.2.2)) = ws := by
      conv_rhs => rw [← List.map_id ws]
      exact List.map_congr_left fun w _ => by rw [Op.lands_all fresh]; rfl
    rw [same, List.filter_eq_self]
    intro w m
    rw [r.all w m]
    decide
  unfold landOp
  simp only [live, Bool.not_true, Bool.false_eq_true, if_false, kept]
  exact ⟨_, rfl⟩

/-- Each place has its result, and every other is as it was. -/
theorem Group.landOp_file : (∀ w ∈ ws, (g.landOp p ws loud).file w.1 = w.2.2 &&& w.1.width) ∧
    ∀ k, (∀ w ∈ ws, w.1 ≠ k) → (g.landOp p ws loud).file k = g.file k := by
  obtain ⟨splits, e⟩ := Group.landOp_fold live fresh r loud
  have file (k : Loc) : (g.landOp p ws loud).file k = (ws.foldl (fun g w => g.writeAs p.id w.1 w.2.1 w.2.2) g).file k := by
    rw [e]
    cases k <;> rfl
  have fold (k : Loc) (v : DWord) (agree : ∀ w ∈ ws, w.1 = k → w.2.2 &&& w.1.width = v) :=
    foldl_agree (f := fun (g : Group) w => g.writeAs p.id w.1 w.2.1 w.2.2) (ok := fun _ => True) (read := (·.file k))
      (hit := fun w => w.1 = k) (v := v) (l := ws) (s := g) (fun g _ w m => by
        obtain ⟨here, there⟩ := g.writeAs_file p.id w.2.2 (r.k0 w m) (r.whole w m)
        rw [r.all w m]
        exact ⟨trivial, fun same => by rw [← same, here]; exact agree w m same, fun other => there k (Ne.symm other)⟩) trivial
  refine ⟨fun w m => ?_, fun k none => ?_⟩
  · rw [file]
    exact (fold w.1 _ fun q mq same => by rw [List.inj_on_of_nodup_map r.once mq m same]).2.1 ⟨w, m, rfl⟩
  · rw [file]
    exact (fold k 0 fun w m same => absurd same (none w m)).2.2 none

theorem Group.landOp_frame : (g.landOp p ws loud).grp = g.grp ∧ (g.landOp p ws loud).ctrs = g.ctrs := by
  obtain ⟨splits, e⟩ := Group.landOp_fold live fresh r loud
  rw [e]
  refine foldl_keeps (P := fun y : Group => y.grp = g.grp ∧ y.ctrs = g.ctrs) (fun y w h => ?_) ws g ⟨rfl, rfl⟩
  obtain ⟨grp, ctrs⟩ := y.writeAs_frame p.id w.1 w.2.1 w.2.2
  exact ⟨grp.trans h.1, ctrs.trans h.2⟩

end

end Sys2Proof.Machine
end

section
/-! PROOFS. MEMORY_ACCESS_COMPLETION (14 R195 to R200, R208): the results of loads and lookups land, stores and tag operations take
effect. -/

namespace Sys2Proof.Machine

-- As above: the theorems are checked one after the other, within the memory of the check.
set_option Elab.async false

/-! ## The event -/

theorem State.op?_found {s : State} {o : ORef} {tm : Team} {g : Group} {p : Op} (e : s.op? o = some (tm, g, p)) :
    s.team? o.team = some tm ∧ tm.group? o.grp = some g ∧ tm.id = o.team := by
  unfold State.op? at e
  split at e
  · cases e
  · next team =>
    split at e
    · cases e
    · next group =>
      obtain ⟨q, -, e⟩ := Option.map_eq_some_iff.mp e
      cases e
      exact ⟨team, group, of_decide_eq_true (List.find?_some team :)⟩

theorem Group.landOp_grp (g : Group) (p : Op) (ws : List (Loc × DWord × DWord)) (loud : Bool) : (g.landOp p ws loud).grp = g.grp := by
  unfold landOp
  split
  · rfl
  · exact foldl_keeps (P := fun y : Group => y.grp = g.grp) (fun y w h => (y.writeAs_frame p.id w.1 w.2.1 w.2.2).1.trans h) _ g rfl

/-- The state after an access has been performed: its results have landed and it has left the operations in flight. -/
def State.landed (u : State) (o : ORef) (p : Op) (ws : List (Loc × DWord × DWord)) (wrote : Bool) : State :=
  u.modGroup o.team o.grp fun g => (g.landOp p ws wrote).opDone p.id

section
variable {s : State} {o : ORef} {tm : Team} {g : Group} {p : Op} (op : s.op? o = some (tm, g, p)) (idle : p.done = false)
  (now_ : p.waitRetry = false) (go : g.mayGo p = true) (plain : p.ord = .rlx) {u : State} {ws : List (Loc × DWord × DWord)}
  {wrote : Bool} (does : s.doAccess tm p.kind = ⟨u, ws, wrote⟩) (access : p.kind.isAccess = true)
include op idle now_ go plain does access

theorem exec_accessCompletion : exec (.memoryAccessCompletion o) s = .next (u.landed o p ws wrote).pushReleases := by
  have performed : s.performOp tm p = ⟨u, ws, wrote⟩ := by
    unfold State.performOp
    simp only [plain, rels, acqs, Bool.false_eq_true, if_false, does]
  show execMemoryAccessCompletion o s = _
  unfold execMemoryAccessCompletion
  simp only [op, access, idle, go, now_, performed, Bool.not_false, Bool.and_self, if_true, Bool.false_eq_true, if_false]
  rfl

/-- What the event leaves, where the access itself changes no group. -/
theorem accessCompletion_leaves (live : g.live = true) (fresh : p.skip = []) {tm1 : Team} (team : u.team? o.team = some tm1)
    (group : tm1.group? o.grp = some g) (r : Results ws) :
    ∃ t t' g', exec (.memoryAccessCompletion o) s = .next t ∧ t.mem = u.mem ∧ (∀ c pa, t.l1Byte c pa = u.l1Byte c pa) ∧
      (∀ pa, t.homeByte pa = u.homeByte pa) ∧ t.team? o.team = some t' ∧ t' = { tm1 with groups := t'.groups } ∧
      t.group? o.team o.grp = some g' ∧ (∀ w ∈ ws, g'.file w.1 = w.2.2 &&& w.1.width) ∧
      (∀ k, (∀ w ∈ ws, w.1 ≠ k) → g'.file k = g.file k) ∧ g'.ctrs = (g.opDone p.id).ctrs ∧ ∀ q ∈ g'.ops, q.id ≠ p.id := by
  have pushed := State.Pushed.pushReleases (u.landed o p ws wrote)
  have grp (g : Group) : ((g.landOp p ws wrote).opDone p.id).grp = g.grp := g.landOp_grp p ws wrote
  have teamed : (u.landed o p ws wrote).team? o.team =
      some (tm1.modGroup o.grp fun g => (g.landOp p ws wrote).opDone p.id) := by
    rw [State.landed, State.team?_modGroup, if_pos rfl, team]
    rfl
  obtain ⟨t', found, moved⟩ := rel_some (pushed.team o.team) teamed
  obtain ⟨g', found', only⟩ := rel_some (moved.group o.grp) (Team.group?_modGroup_self group grp)
  have file (k : Loc) : g'.file k = (g.landOp p ws wrote).file k := by
    rw [only, ← Group.opDone_file (g.landOp p ws wrote) p.id k]
    cases k <;> rfl
  obtain ⟨results, others⟩ := Group.landOp_file live fresh r wrote
  refine ⟨_, t', g', exec_accessCompletion op idle now_ go plain does access, pushed.mem, fun c pa => ?_, fun pa => ?_, found, ?_,
    State.group?_of found found', fun w m => (file _).trans (results w m), fun k none => (file k).trans (others k none), ?_, ?_⟩
  · exact (pushed.l1Byte c pa).trans (State.l1Byte_of rfl rfl rfl c pa)
  · exact (pushed.homeByte pa).trans (State.homeByte_of rfl rfl pa)
  · rw [moved.frame]
    rfl
  · rw [only]
    show (g.landOp p ws wrote).ctrs.map _ = g.ctrs.map _
    rw [(Group.landOp_frame live fresh r wrote).2]
  · rw [only]
    exact Group.opDone_ne _ _

end

/-! ## Results of loads -/

/-- A value of 32 bits fits into a lane's register. -/
theorem and_width_of_lt {lane : Nat} (low : lane < 32) (n : Nat) {v : DWord} (small : v.toNat < 2 ^ 32) :
    v &&& (Loc.v n lane).width = v := by
  refine BitVec.eq_of_toNat_eq ?_
  rw [Loc.width, if_pos low, BitVec.toNat_and]
  exact (Nat.and_two_pow_sub_one_eq_mod _ 32).trans (Nat.mod_eq_of_lt small)

theorem toNat_ofNat_word (x : Nat) : (BitVec.ofNat 64 (x % 2 ^ 32)).toNat < 2 ^ 32 := by
  rw [BitVec.toNat_ofNat]
  omega

section
variable {accs : List LaneAcc} (once : (accs.map (·.lane)).Nodup) (rd n : Nat) (x : LaneAcc → Nat)

/-- The registers that the lanes of a load receive. -/
def laneRegs (accs : List LaneAcc) (rd n : Nat) (x : LaneAcc → Nat) : List (Loc × DWord × DWord) :=
  accs.flatMap fun a => regsW rd n a.lane (x a)

theorem mem_laneRegs {w : Loc × DWord × DWord} : w ∈ laneRegs accs rd n x ↔
    ∃ a ∈ accs, ∃ i < n, w = (.v (rd + i) a.lane, ones, BitVec.ofNat 64 (x a / 2 ^ (32 * i) % 2 ^ 32)) := by
  simp only [laneRegs, regsW, List.mem_flatMap, List.mem_map, List.mem_range, eq_comm]

include once in
theorem results_laneRegs : Results (laneRegs accs rd n x) where
  once := by
    have places : (laneRegs accs rd n x).map (·.1) = accs.flatMap fun a => (List.range n).map fun i => Loc.v (rd + i) a.lane := by
      simp only [laneRegs, regsW, List.map_flatMap, List.map_map, Function.comp_def]
    rw [places, List.nodup_flatMap]
    refine ⟨fun a _ => List.nodup_range.map fun i j same => ?_, (List.pairwise_map.1 once).imp fun apart => ?_⟩
    · simpa using same
    · simp only [Function.onFun, List.disjoint_left, List.mem_map]
      rintro _ ⟨i, -, rfl⟩ ⟨j, -, same⟩
      exact apart (Loc.v.inj same).2.symm
  all w m := by
    obtain ⟨a, -, i, -, rfl⟩ := (mem_laneRegs rd n x).1 m
    rfl
  k0 w m := by
    obtain ⟨a, -, i, -, rfl⟩ := (mem_laneRegs rd n x).1 m
    nofun
  whole w m := by
    obtain ⟨a, -, i, -, rfl⟩ := (mem_laneRegs rd n x).1 m
    exact .inl nofun

end

theorem State.onlyCaches_grpTouch (s : State) (c : Nat) (bs : List PByte) : s.OnlyCaches (s.grpTouch c bs) := by
  unfold State.grpTouch
  refine .foldl (fun s b => ?_) bs s
  split
  · exact .refl s
  · unfold State.l1Fetch
    dsimp only
    split
    · exact .refl s
    · exact rfl

/-- A read changes no memory and no team. -/
theorem State.accTouch_frame (s : State) (tm : Team) (w : Where) :
    (s.accTouch tm w).mem = s.mem ∧ (s.accTouch tm w).teams = s.teams := by
  cases w with
  | scr off n => exact ⟨rfl, rfl⟩
  | glb va bs => exact ⟨s.grpTouch_mem .., (s.onlyCaches_grpTouch ..).teams⟩

theorem State.touches_frame (s : State) (tm : Team) (accs : List LaneAcc) :
    (accs.foldl (fun s a => s.accTouch tm a.at_) s).mem = s.mem ∧ (accs.foldl (fun s a => s.accTouch tm a.at_) s).teams = s.teams :=
  foldl_keeps (P := fun t : State => t.mem = s.mem ∧ t.teams = s.teams) (fun t a h =>
    ⟨(t.accTouch_frame tm a.at_).1.trans h.1, (t.accTouch_frame tm a.at_).2.trans h.2⟩) accs s ⟨rfl, rfl⟩

theorem State.team?_of_teams {s t : State} (e : t.teams = s.teams) (k : Nat) : t.team? k = s.team? k := by
  unfold State.team?
  rw [e]

theorem State.loadBytes_whole (s : State) (tm : Team) {a : LaneAcc} (whole : a.got = 0) : s.loadBytes tm a = s.accRead tm a.at_ :=
  if_pos whole

/-- The results of lanes whose loads no piece has begun. -/
theorem laneRegs_whole (s : State) (tm : Team) {accs : List LaneAcc} (whole : ∀ a ∈ accs, a.got = 0) (rd n : Nat) (f : Nat → Nat) :
    laneRegs accs rd n (fun a => f (leNat (s.loadBytes tm a))) = laneRegs accs rd n fun a => f (leNat (s.accRead tm a.at_)) :=
  List.flatMap_congr fun a m => by
    dsimp only
    rw [State.loadBytes_whole s tm (whole a m)]

/-! ## Loads (R195, R197, R198) and lookups (R200) -/

/-- What the obligation says of an operation's counters and of the operations in flight. -/
def Group.DoneWith (g g' : Group) (id : Nat) : Prop := g'.ctrs = (g.opDone id).ctrs ∧ ∀ q ∈ g'.ops, q.id ≠ id

section
variable {s : State} {o : ORef} {tm : Team} {g : Group} {p : Op} (op : s.op? o = some (tm, g, p)) (idle : p.done = false)
  (now_ : p.waitRetry = false) (go : g.mayGo p = true) (plain : p.ord = .rlx) (live : g.live = true) (fresh : p.skip = [])
include op idle now_ go plain live fresh

/-- A load's completion: the registers of each lane take what it has read. -/
theorem loads_complete {u : State} (access : p.kind.isAccess = true) {accs : List LaneAcc} (once : (accs.map (·.lane)).Nodup)
    (low : ∀ a ∈ accs, a.lane < 32) {rd n : Nat} {x : LaneAcc → Nat} (does : s.doAccess tm p.kind = ⟨u, laneRegs accs rd n x, false⟩)
    (mem : u.mem = s.mem) (teams : u.teams = s.teams) :
    ∃ t g', exec (.memoryAccessCompletion o) s = .next t ∧ t.mem = s.mem ∧ t.group? o.team o.grp = some g' ∧
      (∀ a ∈ accs, ∀ i, i < n → g'.file (.v (rd + i) a.lane) = BitVec.ofNat 64 (x a / 2 ^ (32 * i) % 2 ^ 32)) ∧
      (∀ loc, (∀ a ∈ accs, ∀ i, i < n → loc ≠ .v (rd + i) a.lane) → g'.file loc = g.file loc) ∧ g.DoneWith g' p.id := by
  obtain ⟨team, group, -⟩ := State.op?_found op
  obtain ⟨t, -, g', run, kept, -, -, -, -, found, results, others, ctrs, gone⟩ := accessCompletion_leaves op idle now_ go plain does
    access live fresh ((State.team?_of_teams teams o.team).trans team) group (results_laneRegs once rd n x)
  refine ⟨t, g', run, kept.trans mem, found, fun a m i hi => ?_, fun loc none => others loc fun w m => ?_, ctrs, gone⟩
  · exact (results _ ((mem_laneRegs rd n x).2 ⟨a, m, i, hi, rfl⟩)).trans (and_width_of_lt (low a m) _ (toNat_ofNat_word _))
  · obtain ⟨a, ma, i, hi, rfl⟩ := (mem_laneRegs rd n x).1 m
    exact (none a ma i hi).symm

theorem load_completes {rd : Nat} {sz : BitVec 3} {accs : List LaneAcc} (kind : p.kind = .load rd sz accs)
    (once : (accs.map (·.lane)).Nodup) (each : ∀ a ∈ accs, a.lane < 32 ∧ a.got = 0) :
    ∃ t g', exec (.memoryAccessCompletion o) s = .next t ∧ t.mem = s.mem ∧ t.group? o.team o.grp = some g' ∧
      (∀ a ∈ accs, ∀ i, i < szRegs sz → g'.file (.v (rd + i) a.lane) =
        BitVec.ofNat 64 (extend sz 32 (leNat (s.accRead tm a.at_)) / 2 ^ (32 * i) % 2 ^ 32)) ∧
      (∀ loc, (∀ a ∈ accs, ∀ i, i < szRegs sz → loc ≠ .v (rd + i) a.lane) → g'.file loc = g.file loc) ∧ g.DoneWith g' p.id := by
  have does : s.doAccess tm p.kind = ⟨accs.foldl (fun s a => s.accTouch tm a.at_) s,
      laneRegs accs rd (szRegs sz) fun a => extend sz 32 (leNat (s.accRead tm a.at_)), false⟩ := by
    rw [kind, ← laneRegs_whole s tm (fun a m => (each a m).2)]
    rfl
  exact loads_complete op idle now_ go plain live fresh (by rw [kind]; rfl) once (fun a m => (each a m).1) does
    (s.touches_frame tm accs).1 (s.touches_frame tm accs).2

theorem loadBlock_completes {rd n : Nat} {accs : List LaneAcc} (kind : p.kind = .loadBlock rd n accs)
    (once : (accs.map (·.lane)).Nodup) (each : ∀ a ∈ accs, a.lane < 32 ∧ a.got = 0) :
    ∃ t g', exec (.memoryAccessCompletion o) s = .next t ∧ t.mem = s.mem ∧ t.group? o.team o.grp = some g' ∧
      (∀ a ∈ accs, ∀ i, i < n → g'.file (.v (rd + i) a.lane) =
        BitVec.ofNat 64 (leNat (s.accRead tm a.at_) / 2 ^ (32 * i) % 2 ^ 32)) ∧
      (∀ loc, (∀ a ∈ accs, ∀ i, i < n → loc ≠ .v (rd + i) a.lane) → g'.file loc = g.file loc) ∧ g.DoneWith g' p.id := by
  have does : s.doAccess tm p.kind = ⟨s, laneRegs accs rd n fun a => leNat (s.accRead tm a.at_), false⟩ := by
    have whole : laneRegs accs rd n (fun a => leNat (s.loadBytes tm a)) = _ := laneRegs_whole s tm (fun a m => (each a m).2) rd n id
    rw [kind]
    exact congrArg (Performed.mk s · false) whole
  exact loads_complete op idle now_ go plain live fresh (by rw [kind]; rfl) once (fun a m => (each a m).1) does rfl rfl

theorem loadK_completes {sd : Nat} {sz : BitVec 3} {a : LaneAcc} (kind : p.kind = .loadK sd sz a) (scalar : sd < 64)
    (whole : a.got = 0) :
    ∃ t g', exec (.memoryAccessCompletion o) s = .next t ∧ t.mem = s.mem ∧ t.group? o.team o.grp = some g' ∧
      g'.file (.s sd) = BitVec.ofNat 64 (extend sz 64 (leNat (s.accRead tm a.at_))) ∧
      (∀ loc, loc ≠ .s sd → g'.file loc = g.file loc) ∧ g.DoneWith g' p.id := by
  obtain ⟨team, group, -⟩ := State.op?_found op
  obtain ⟨mem, teams⟩ := s.accTouch_frame tm a.at_
  have width : (Loc.s sd).width = ones := if_pos scalar
  have does : s.doAccess tm p.kind =
      ⟨s.accTouch tm a.at_, sclW sd (BitVec.ofNat 64 (extend sz 64 (leNat (s.accRead tm a.at_)))), false⟩ := by
    rw [kind, ← State.loadBytes_whole s tm whole]
    rfl
  have r : Results (sclW sd (BitVec.ofNat 64 (extend sz 64 (leNat (s.accRead tm a.at_))))) := by
    refine ⟨List.nodup_singleton _, ?_, ?_, ?_⟩ <;> intro w m <;> obtain rfl := List.mem_singleton.1 m
    · rfl
    · nofun
    · exact .inr width
  obtain ⟨t, -, g', run, kept, -, -, -, -, found, results, others, ctrs, gone⟩ := accessCompletion_leaves op idle now_ go plain does
    (by rw [kind]; rfl) live fresh ((State.team?_of_teams teams o.team).trans team) group r
  refine ⟨t, g', run, kept.trans mem, found, ?_, fun loc ne => others loc fun w m => ?_, ctrs, gone⟩
  · refine (results _ (List.mem_singleton.2 rfl)).trans ?_
    rw [width]
    exact BitVec.and_allOnes
  · rw [List.mem_singleton.1 m]
    exact ne.symm

theorem lookup_completes {rd : Nat} {ks : List (Nat × DWord)} (kind : p.kind = .lookup rd ks) (once : (ks.map (·.1)).Nodup)
    (low : ∀ k ∈ ks, k.1 < 32) :
    ∃ t g', exec (.memoryAccessCompletion o) s = .next t ∧ t.group? o.team o.grp = some g' ∧
      (∀ k ∈ ks, g'.file (.v rd k.1) = (tm.tagFind k.2).setWidth 64) ∧
      (∀ loc, (∀ k ∈ ks, loc ≠ .v rd k.1) → g'.file loc = g.file loc) ∧ g.DoneWith g' p.id := by
  obtain ⟨team, group, own⟩ := State.op?_found op
  have does : s.doAccess tm p.kind = ⟨s, ks.map fun k => (.v rd k.1, ones, (tm.tagFind k.2).setWidth 64), false⟩ := by
    rw [kind]
    show (⟨s, _, _⟩ : Performed) = _
    rw [own, team]
    rfl
  have r : Results (ks.map fun k => (.v rd k.1, ones, (tm.tagFind k.2).setWidth 64)) := by
    refine ⟨?_, ?_, ?_, ?_⟩
    · rw [List.map_map]
      have places := once.map (f := Loc.v rd) fun i j same => (Loc.v.inj same).2
      rwa [List.map_map] at places
    all_goals
      intro w m
      obtain ⟨k, -, rfl⟩ := List.mem_map.1 m
    · rfl
    · nofun
    · exact .inl nofun
  obtain ⟨t, -, g', run, -, -, -, -, -, found, results, others, ctrs, gone⟩ := accessCompletion_leaves op idle now_ go plain does
    (by rw [kind]; rfl) live fresh team group r
  refine ⟨t, g', run, found, fun k m => ?_, fun loc none => others loc fun w m => ?_, ctrs, gone⟩
  · refine (results _ (List.mem_map_of_mem m)).trans (and_width_of_lt (low k m) rd ?_)
    have word := (tm.tagFind k.2).isLt
    rw [BitVec.toNat_setWidth]
    omega
  · obtain ⟨k, mk, rfl⟩ := List.mem_map.1 m
    exact (none k mk).symm

/-! ## Tag entries (R200) -/

theorem tagset_completes {es : List (Nat × Option DWord)} (kind : p.kind = .tagset es) :
    ∃ t t' g', exec (.memoryAccessCompletion o) s = .next t ∧ t.mem = s.mem ∧ t.team? o.team = some t' ∧
      t.group? o.team o.grp = some g' ∧ g.DoneWith g' p.id ∧
      (∀ pre e key post, es = pre ++ (e, key) :: post → (∀ q ∈ post, q.1 ≠ e) → Map.get none t'.tags e = key) ∧
      (∀ e, (∀ q ∈ es, q.1 ≠ e) → Map.get none t'.tags e = Map.get none tm.tags e) := by
  obtain ⟨team, group, own⟩ := State.op?_found op
  have does : s.doAccess tm p.kind = ⟨s.modTeam o.team fun t => { t with tags := es.foldl (fun m e => Map.set none m e.1 e.2) t.tags },
      [], false⟩ := by
    rw [kind, ← own]
    rfl
  have set := State.modTeam_team?_self team (f := fun t => { t with tags := es.foldl (fun m e => Map.set none m e.1 e.2) t.tags })
    fun _ => rfl
  obtain ⟨t, t', g', run, mem, -, -, team', frame, found, -, -, ctrs, gone⟩ := accessCompletion_leaves op idle now_ go plain does
    (by rw [kind]; rfl) live fresh set group .nil
  have tags : t'.tags = es.foldl (fun m e => Map.set none m e.1 e.2) tm.tags := by rw [frame]
  have beside (l : List (Nat × Option DWord)) (m : Map (Option DWord)) (e : Nat) (apart : ∀ q ∈ l, q.1 ≠ e) :
      Map.get none (l.foldl (fun m e => Map.set none m e.1 e.2) m) e = Map.get none m e :=
    List.foldlRecOn (motive := fun y => Map.get none y e = Map.get none m e) l _ rfl fun y h q mq => by
      rw [Map.get_set, if_neg (Ne.symm (apart q mq)), h]
  refine ⟨t, t', g', run, mem, team', found, ⟨ctrs, gone⟩, fun pre e key post split last => ?_, fun e apart => ?_⟩
  · rw [tags, split, List.foldl_append, List.foldl_cons, beside post _ e last, Map.get_set, if_pos rfl]
  · rw [tags, beside es _ e apart]

end

/-! ## Searching the tag table, and extension (Table 14.3) -/

theorem Team.tagFind_cases (tm : Team) (key : DWord) : (tm.tagFind key = 0xFFFFFFFF ∧ ∀ e ∈ tm.tags, e.2 ≠ some key) ∨
    ∃ pre e post, tm.tags = pre ++ (e, some key) :: post ∧ tm.tagFind key = BitVec.ofNat 32 e ∧ ∀ q ∈ pre, q.2 ≠ some key := by
  unfold tagFind
  split
  case h_1 e found =>
    obtain ⟨hit, pre, post, cut, first⟩ := List.find?_eq_some_iff_append.1 found
    obtain ⟨i, k⟩ := e
    obtain rfl : k = some key := by simpa using hit
    exact .inr ⟨pre, i, post, cut, rfl, fun q m => by simpa using first q m⟩
  case h_2 none => exact .inl ⟨rfl, fun e m => by simpa using List.find?_eq_none.1 none e m⟩

/-- The value of a signed code is that of its bits in two's complement. -/
theorem intVal_signed {t : ElemTy} (signed : t.signed = true) (bits : 0 < t.bits) (b : Nat) :
    intVal t b = (BitVec.ofNat t.bits b).toInt := by
  have half : 2 ^ t.bits = 2 * 2 ^ (t.bits - 1) := by
    obtain ⟨n, e⟩ := Nat.exists_eq_add_of_lt bits
    rw [e, Nat.zero_add, Nat.add_sub_cancel, Nat.pow_succ, Nat.mul_comm]
  rw [BitVec.toInt_eq_toNat_cond, BitVec.toNat_ofNat, intVal]
  simp only [signed, Bool.true_and, decide_eq_true_eq]
  by_cases low : 2 ^ (t.bits - 1) ≤ b % 2 ^ t.bits
  · rw [if_pos low, if_neg (by omega)]
    norm_cast
  · rw [if_neg low, if_pos (by omega)]

/-- The code of a number in two's complement is its bits, extended by their sign. -/
theorem intCode_toInt (t : ElemTy) {w : Nat} (x : BitVec w) : intCode t x.toInt = (x.signExtend t.bits).toNat := by
  rw [BitVec.signExtend, BitVec.toNat_ofInt]
  norm_cast

end Sys2Proof.Machine
end

section
/-! PROOFS. The completion of a store (12 R164, R168, R189, 14 R195): the byte that the last lane stores at a place reads back, and
no byte that no lane names changes. -/

namespace Sys2Proof.Machine

-- As above: the theorems are checked one after the other, within the memory of the check.
set_option Elab.async false

/-! ## Scratch -/

/-- A byte of the window after a write. -/
theorem Team.scrByte_scrWrite (t : Team) (a : Nat) (bs : List Byte) (y : Nat) :
    (t.scrWrite a bs).scrByte y = if a ≤ y ∧ y < a + bs.length then bs.getD (y - a) 0 else t.scrByte y := by
  have fold (n : Nat) : Map.find? ((List.range n).foldl (fun m i => Map.put m (a + i) (bs.getD i 0)) t.scratch) y =
      if a ≤ y ∧ y < a + n then some (bs.getD (y - a) 0) else Map.find? t.scratch y := by
    induction n with
    | zero => simp
    | succ n ih =>
      rw [List.range_succ, List.foldl_append, List.foldl_cons, List.foldl_nil, Map.find?_put, ih]
      by_cases here : y = a + n
      · rw [if_pos here, if_pos (by omega), here, Nat.add_sub_cancel_left]
      · rw [if_neg here]
        have same : (a ≤ y ∧ y < a + (n + 1)) ↔ a ≤ y ∧ y < a + n := by omega
        simp only [same]
  unfold scrByte scrWrite
  dsimp only
  rw [fold]
  split <;> rfl

theorem natLe_length (n x : Nat) : (natLe n x).length = n := by simp [natLe]

theorem natLe_getElem? {n i : Nat} (low : i < n) (x : BitVec 128) : (natLe n x.toNat)[i]? = some (x.extractLsb' (8 * i) 8) := by
  have at_ : (natLe n x.toNat)[i]? = some (BitVec.ofNat 8 (x.toNat / 2 ^ (8 * i))) := by
    unfold natLe
    rw [List.getElem?_map, List.getElem?_range low]
    rfl
  rw [at_]
  refine congrArg some (BitVec.eq_of_toNat_eq ?_)
  rw [BitVec.extractLsb'_toNat, BitVec.toNat_ofNat, Nat.shiftRight_eq_div_pow]

theorem natLe_getD {n i : Nat} (low : i < n) (x : BitVec 128) : (natLe n x.toNat).getD i 0 = x.extractLsb' (8 * i) 8 := by
  rw [List.getD_eq_getElem?_getD, natLe_getElem? low, Option.getD_some]

/-- A team after a lane of a store. -/
def Team.storeLane (n : Nat) (t : Team) (a : LaneAcc) : Team := match a.at_ with
  | .scr off _ => t.scrWrite off (natLe n a.data.toNat)
  | .glb _ _ => t

/-- Whether a lane stores a byte of scratch. -/
def LaneAcc.atScratch (n : Nat) (a : LaneAcc) (y : Nat) : Prop := ∃ u v, a.at_ = .scr u v ∧ u ≤ y ∧ y < u + n

theorem Team.storeLane_frame (n : Nat) (t : Team) (a : LaneAcc) :
    t.storeLane n a = { t with scratch := (t.storeLane n a).scratch, scrBad := (t.storeLane n a).scrBad } := by
  unfold storeLane
  split <;> rfl

theorem Team.storeLane_beside {n : Nat} (t : Team) {a : LaneAcc} {y : Nat} (beside : ¬ a.atScratch n y) :
    (t.storeLane n a).scrByte y = t.scrByte y := by
  unfold storeLane
  split
  case h_1 u v e =>
    rw [Team.scrByte_scrWrite, natLe_length, if_neg fun here => beside ⟨u, v, e, here⟩]
  case h_2 => rfl

theorem Team.stores_frame (n : Nat) (t : Team) (accs : List LaneAcc) : accs.foldl (·.storeLane n ·) t =
    { t with scratch := (accs.foldl (·.storeLane n ·) t).scratch, scrBad := (accs.foldl (·.storeLane n ·) t).scrBad } :=
  foldl_keeps (P := fun u : Team => u = { t with scratch := u.scratch, scrBad := u.scrBad })
    (fun u a h => by rw [u.storeLane_frame n a, h]) accs t rfl

theorem Team.stores_beside {n : Nat} (t : Team) {accs : List LaneAcc} {y : Nat} (beside : ∀ a ∈ accs, ¬ a.atScratch n y) :
    (accs.foldl (·.storeLane n ·) t).scrByte y = t.scrByte y :=
  List.foldlRecOn (motive := fun u : Team => u.scrByte y = t.scrByte y) accs _ rfl fun u h a m =>
    (u.storeLane_beside (beside a m)).trans h

/-- The byte of the last lane that stores it. -/
theorem Team.stores_last {n i : Nat} (t : Team) (pre : List LaneAcc) {a : LaneAcc} {post : List LaneAcc} {off m : Nat}
    (scr : a.at_ = .scr off m) (low : i < n) (last : ∀ q ∈ post, ¬ q.atScratch n (off + i)) :
    ((pre ++ a :: post).foldl (·.storeLane n ·) t).scrByte (off + i) = a.data.extractLsb' (8 * i) 8 := by
  rw [List.foldl_append, List.foldl_cons, Team.stores_beside _ last]
  unfold storeLane
  rw [scr]
  dsimp only
  rw [Team.scrByte_scrWrite, natLe_length, if_pos (by omega), Nat.add_sub_cancel_left, natLe_getD low]

/-! ## The lanes of a store -/

theorem State.onlyCaches_l1Line (s : State) (c k : Nat) (m : BitVec 64) (x : BitVec 512) : s.OnlyCaches (s.l1Line c k m x) := by
  unfold State.l1Line
  dsimp only
  split
  · refine State.OnlyCaches.trans (b := if (lineOf (s.core c).l1 k).dirty = 0 ∧ 256 ≤ lineCount (s.core c).fifo then
      (match oldest (s.core c).fifo with | some o => s.wbL1 c o | Option.none => s) else s) ?_ rfl
    split
    · split
      · exact s.onlyCaches_wbL1 ..
      · exact .refl s
    · exact .refl s
  · exact (s.onlyCaches_dieLine ..).trans rfl

theorem State.onlyCaches_grpWrite (s : State) (c : Nat) (zs : List (PByte × Byte)) : s.OnlyCaches (s.grpWrite c zs) := by
  rw [State.grpWrite_eq]
  refine .foldl (fun s r => ?_) _ s
  unfold State.runWrite
  split
  · exact .foldl (fun s x => .of_homeWritten (s.homeWritten_ucLine ..)) _ s
  · exact .foldl (fun s x => s.onlyCaches_l1Line ..) _ s

/-- A store's lane on a state. -/
def State.storeLane (s : State) (tm : Team) (n : Nat) (a : LaneAcc) : State := s.accWrite tm a.at_ (natLe n a.data.toNat)

/-- The team of a store, after its lanes. -/
theorem State.stores_team {s : State} {tm : Team} (team : s.team? tm.id = some tm) (n : Nat) (accs : List LaneAcc) :
    (accs.foldl (·.storeLane tm n ·) s).team? tm.id = some (accs.foldl (·.storeLane n ·) tm) := by
  have step (s : State) (u : Team) (found : s.team? tm.id = some u) (a : LaneAcc) :
      (s.storeLane tm n a).team? tm.id = some (u.storeLane n a) := by
    unfold State.storeLane State.accWrite Team.storeLane
    cases a.at_ with
    | scr off m => exact State.modTeam_team?_self found fun _ => rfl
    | glb va bs => exact ((s.onlyCaches_grpWrite ..).team? _).trans found
  suffices ∀ (accs : List LaneAcc) (s : State) (u : Team), s.team? tm.id = some u →
      (accs.foldl (·.storeLane tm n ·) s).team? tm.id = some (accs.foldl (·.storeLane n ·) u) from this accs s tm team
  intro accs
  induction accs with
  | nil => exact fun _ _ h => h
  | cons a accs ih => exact fun s u h => ih _ _ (step s u h a)

/-- Whether a lane stores a byte of memory. -/
def LaneAcc.atPlace (a : LaneAcc) (pa : Nat) : Prop := ∃ v cs, a.at_ = .glb v cs ∧ ∃ c ∈ cs, c.pa = pa

theorem mem_zip_pa {bs : List PByte} {d : List Byte} {z : PByte × Byte} (m : z ∈ bs.zip d) : z.1 ∈ bs := (List.of_mem_zip m).1

section
variable {s : State} (ok : s.cacheOk) (tm : Team) (n : Nat)
include ok

theorem State.cacheOk_storeLane (a : LaneAcc) : (s.storeLane tm n a).cacheOk := by
  unfold State.storeLane State.accWrite
  split
  · exact (Keeps.modTeam (.refl s)).cache ok
  · exact (Keeps.grpWrite (.refl s)).cache ok

/-- A lane that does not store a byte of memory leaves it. -/
theorem State.storeLane_beside {a : LaneAcc} {pa : Nat} (beside : ¬ a.atPlace pa) :
    (s.storeLane tm n a).l1Byte tm.core pa = s.l1Byte tm.core pa := by
  unfold State.storeLane State.accWrite
  split
  case h_1 => exact State.l1Byte_of rfl rfl rfl _ _
  case h_2 v cs e =>
    have apart : ∀ z ∈ cs.zip (natLe n a.data.toNat), z.1.pa ≠ pa := fun z m same => beside ⟨v, cs, e, z.1, mem_zip_pa m, same⟩
    exact (State.l1Byte_grpWrite ok tm.core (v := 0) fun z m same => absurd same (apart z m)).2.2 apart

theorem State.stores_beside {accs : List LaneAcc} {pa : Nat} (beside : ∀ a ∈ accs, ¬ a.atPlace pa) :
    (accs.foldl (·.storeLane tm n ·) s).cacheOk ∧ (accs.foldl (·.storeLane tm n ·) s).l1Byte tm.core pa = s.l1Byte tm.core pa :=
  List.foldlRecOn (motive := fun t : State => t.cacheOk ∧ t.l1Byte tm.core pa = s.l1Byte tm.core pa) accs _ ⟨ok, rfl⟩
    fun _ h a m => ⟨State.cacheOk_storeLane h.1 tm n a, (State.storeLane_beside h.1 tm n (beside a m)).trans h.2⟩

end

/-- Where one byte of an access alone names a place, what is written there is that byte's value. -/
theorem zip_agree {bs : List PByte} {x : BitVec 128} {i : Nat} {b : PByte} {n : Nat} (found : bs[i]? = some b)
    (alone : ∀ j c, bs[j]? = some c → j ≠ i → c.pa ≠ b.pa) (length : bs.length = n) :
    (∀ z ∈ bs.zip (natLe n x.toNat), z.1.pa = b.pa → z = (b, x.extractLsb' (8 * i) 8)) ∧
      (b, x.extractLsb' (8 * i) 8) ∈ bs.zip (natLe n x.toNat) := by
  have low : i < n := length ▸ (List.getElem?_eq_some_iff.1 found).1
  have value := natLe_getElem? low x
  refine ⟨fun z m same => ?_, List.mem_of_getElem? (List.getElem?_zip_eq_some.2 ⟨found, value⟩)⟩
  obtain ⟨j, at_⟩ := List.mem_iff_getElem?.1 m
  obtain ⟨place, byte⟩ := List.getElem?_zip_eq_some.1 at_
  obtain rfl : j = i := by
    by_contra ne
    exact alone j z.1 place ne same
  rw [found] at place
  rw [value] at byte
  exact Prod.ext (Option.some.inj place).symm (Option.some.inj byte).symm

section
variable {s : State} (ok : s.cacheOk) (tm : Team) {n i : Nat} {a : LaneAcc} {va : DWord} {bs : List PByte} {b : PByte}
  (glb : a.at_ = .glb va bs) (found : bs[i]? = some b) (alone : ∀ j c, bs[j]? = some c → j ≠ i → c.pa ≠ b.pa)
  (length : bs.length = n)
include ok glb found alone length

/-- The byte that the last lane stores at a place, through the L1. -/
theorem State.stores_last (pre : List LaneAcc) {post : List LaneAcc} (cached : b.uc = false)
    (last : ∀ q ∈ post, ¬ q.atPlace b.pa) :
    ((pre ++ a :: post).foldl (·.storeLane tm n ·) s).l1Byte tm.core b.pa = a.data.extractLsb' (8 * i) 8 := by
  obtain ⟨agree, named⟩ := zip_agree (x := a.data) found alone length
  have before : (pre.foldl (·.storeLane tm n ·) s).cacheOk :=
    List.foldlRecOn (motive := State.cacheOk) pre _ ok fun _ h q _ => State.cacheOk_storeLane h tm n q
  rw [List.foldl_append, List.foldl_cons, (State.stores_beside (State.cacheOk_storeLane before tm n a) tm n last).2]
  unfold State.storeLane State.accWrite
  rw [glb]
  refine (State.l1Byte_grpWrite before tm.core fun z m same => ?_).2.1 ⟨_, named, rfl⟩
  rw [agree z m same]
  exact ⟨cached, rfl⟩

/-- The byte that a UC store of one lane leaves at its home. -/
theorem State.stores_home (uc : ∀ c ∈ bs, c.uc = true) : (s.storeLane tm n a).homeByte b.pa = a.data.extractLsb' (8 * i) 8 := by
  obtain ⟨agree, named⟩ := zip_agree (x := a.data) found alone length
  unfold State.storeLane State.accWrite
  rw [glb]
  exact State.homeByte_grpWrite ok tm.core (fun z m => uc _ (mem_zip_pa m)) (fun z m same => by rw [agree z m same]) ⟨_, named, rfl⟩

end

/-! ## The event -/

theorem State.storeRest_whole {s : State} (tm : Team) (n : Nat) {accs : List LaneAcc} (whole : ∀ a ∈ accs, a.got = 0) :
    s.storeRest tm n accs = accs.foldl (·.storeLane tm n ·) s :=
  if_pos (List.all_eq_true.2 fun a m => beq_iff_eq.2 (whole a m))

section
variable {s : State} {o : ORef} {tm : Team} {g : Group} {p : Op} (op : s.op? o = some (tm, g, p)) (idle : p.done = false)
  (now_ : p.waitRetry = false) (go : g.mayGo p = true) (plain : p.ord = .rlx) (live : g.live = true) (fresh : p.skip = [])
include op idle now_ go plain live fresh

/-- A store's completion: what its lanes have stored is what the group and the team read afterwards. -/
theorem store_completes {n : Nat} {accs : List LaneAcc} (kind : p.kind = .store n accs) (whole : ∀ a ∈ accs, a.got = 0) :
    ∃ t t' g', exec (.memoryAccessCompletion o) s = .next t ∧ t.team? o.team = some t' ∧ t.group? o.team o.grp = some g' ∧
      g.DoneWith g' p.id ∧ (∀ loc, g'.file loc = g.file loc) ∧
      (∀ pa, t.l1Byte tm.core pa = (accs.foldl (·.storeLane tm n ·) s).l1Byte tm.core pa) ∧
      (∀ pa, t.homeByte pa = (accs.foldl (·.storeLane tm n ·) s).homeByte pa) ∧
      ∀ y, t'.scrByte y = (accs.foldl (·.storeLane n ·) tm).scrByte y := by
  obtain ⟨team, group, own⟩ := State.op?_found op
  have does : s.doAccess tm p.kind = ⟨accs.foldl (·.storeLane tm n ·) s, [], !accs.isEmpty⟩ := by
    rw [kind, ← State.storeRest_whole tm n whole]
    rfl
  have teamed := State.stores_team (own ▸ team) n accs
  rw [own] at teamed
  have frame := tm.stores_frame n accs
  have group' : (accs.foldl (·.storeLane n ·) tm).group? o.grp = some g := by
    rw [frame]
    exact group
  obtain ⟨t, t', g', run, -, cached, home, found, same, found', -, others, ctrs, gone⟩ := accessCompletion_leaves op idle now_ go plain
    does (by rw [kind]; rfl) live fresh teamed group' .nil
  refine ⟨t, t', g', run, found, found', ⟨ctrs, gone⟩, fun loc => others loc nofun, fun pa => cached _ pa, home, fun y => ?_⟩
  rw [same]
  rfl

end

/-- Settles O32: each kind of access by what its completion leaves. -/
theorem accessCompletionMovesTheBytes : Obligations.AccessCompletionMovesTheBytes := by
  refine ⟨fun s o tm g p op idle now_ live go plain fresh => ⟨fun rd sz accs kind => load_completes op idle now_ go plain live fresh kind,
    fun rd n accs kind => loadBlock_completes op idle now_ go plain live fresh kind,
    fun sd sz a kind => loadK_completes op idle now_ go plain live fresh kind,
    fun rd ks kind => lookup_completes op idle now_ go plain live fresh kind,
    fun es kind => tagset_completes op idle now_ go plain live fresh kind, fun n accs kind ok lengths whole => ?_⟩,
    Team.tagFind_cases, fun b _ => ?_, fun b _ => ?_, fun b _ => ?_, fun b w => ⟨rfl, rfl, rfl, rfl, rfl⟩⟩
  · obtain ⟨t, t', g', run, team, group, done, file, cached, home, scr⟩ := store_completes op idle now_ go plain live fresh kind whole
    have places {q : LaneAcc} {pa : Nat} (apart : ∀ v cs, q.at_ = .glb v cs → ∀ c ∈ cs, c.pa ≠ pa) : ¬ q.atPlace pa :=
      fun ⟨v, cs, e, c, m, same⟩ => apart v cs e c m same
    have bytes {q : LaneAcc} {y : Nat} (apart : ∀ u v, q.at_ = .scr u v → ¬ (u ≤ y ∧ y < u + n)) : ¬ q.atScratch n y :=
      fun ⟨u, v, e, here⟩ => apart u v e here
    refine ⟨t, t', g', run, team, group, done, file, ?_, fun pa apart => ?_, ?_, fun y apart => ?_⟩
    · intro pre a post va bs i b split glb found alone last kinds
      have length := lengths a (by simp [split]) va bs glb
      cases uc : b.uc with
      | false =>
        have read := State.stores_last ok tm glb found alone length pre uc fun q m => places (last q m)
        rw [← split, ← cached] at read
        simp only [State.grpRead, List.map_cons, List.map_nil, uc, Bool.false_eq_true, if_false, read]
      | true =>
        obtain ⟨one, all⟩ := kinds.resolve_left (by simp [uc])
        have read := State.stores_home ok tm glb found alone length all
        rw [one] at home
        simp only [State.grpRead, List.map_cons, List.map_nil, uc, if_true, home, List.foldl_cons, List.foldl_nil, read]
    · rw [cached, (State.stores_beside ok tm n fun a m => places (apart a m)).2]
    · intro pre a post off m i split at_ low last
      rw [scr, split, Team.stores_last tm pre at_ low fun q mq => bytes (last q mq)]
    · rw [scr, Team.stores_beside tm fun a m => bytes (apart a m)]
  · exact (congrArg _ (intVal_signed rfl (by decide) b)).trans (intCode_toInt .s32 _)
  · exact (congrArg _ (intVal_signed rfl (by decide) b)).trans (intCode_toInt .s32 _)
  · exact (congrArg _ (intVal_signed rfl (by decide) b)).trans (intCode_toInt .s64 _)

end Sys2Proof.Machine
end
